-- ==== Sys2Proof/Word.lean ====
section
/-! DEFINITION. Sys2Proof/Word.lean: the words of the machine (00 R3). -/

namespace Sys2Proof

/-- A byte (R3). -/
abbrev Byte := BitVec 8

/-- A double, the width of a scalar register (R3, R22). -/
abbrev Word := BitVec 64

/-- The unsigned value `N(x)` of a double (04, "Scalar values and notation"). -/
abbrev uval (x : Word) : Nat := x.toNat

/-- The two's-complement value `S(x)` of a double. -/
abbrev sval (x : Word) : Int := x.toInt

/-- `Wrap(v)`: v modulo 2^64 as a double. -/
abbrev wrap (v : Int) : Word := BitVec.ofInt 64 v

end Sys2Proof
end

