-- ==== Sys2Proof/Syntax.lean ====
section
/-! DEFINITION. Sys2Proof/Syntax.lean: the instructions of the part (03 Table 3.7) and its events
(spec/opcode_table.json rows without an encoding, listed in 95), as data. Register numbers, immediates and
literals are plain numbers; Sys2Proof/WellFormed.lean says which values an encoding admits. -/

namespace Sys2Proof

/-- The four forms of an instruction (R56, Table 3.1). -/
inductive Form where
  | base | lit | ext | long
deriving DecidableEq, Repr

/-- Length of an instruction in bytes (Table 3.1). -/
def Form.len : Form → Nat
  | .base => 4 | .lit => 12 | .ext => 12 | .long => 20

/-- Whether the form has extension words (R65). -/
def Form.hasExt : Form → Bool
  | .ext => true | .long => true | _ => false

/-- Whether the form carries a 64-bit literal (R64). -/
def Form.hasLit : Form → Bool
  | .lit => true | .long => true | _ => false

/-- A scalar source operand: a register, a queue named through a flag of R65, or the literal of R64. -/
inductive Src where
  | x (r : Nat)
  | q (n : Nat)
  | imm (v : Word)
deriving DecidableEq, Repr

/-- A scalar destination: a register or a queue (R65). -/
inductive Dst where
  | x (r : Nat)
  | q (n : Nat)
deriving DecidableEq, Repr

/-- The governing mask (R63, R65): none, m1 to m7 through `mk`, or any mask through the extension. -/
inductive Mask where
  | none
  | mk (n : Nat)
  | xm (n : Nat)
deriving DecidableEq, Repr

/-- What the c field of format V names (R62). -/
inductive VSrc where
  | v (r : Nat)
  | s (x : Src)
  | i (c : Int)
deriving DecidableEq, Repr

/-- Element types (Table 3.6). -/
inductive Ty where
  | i4 | i8 | i16 | i32 | i64 | n8 | n16 | n32 | n64 | f32 | bf16 | f16 | e4m3 | e5m2 | e2m1 | sb4 | sb8
deriving DecidableEq, Repr

/-- Scopes (R11), in nesting order. -/
inductive Scope where
  | hart | core | hall | floor | dev | sys
deriving DecidableEq, Repr

/-- Conditions of VCMP (R68). -/
inductive ICond where
  | eq | ne | lt | ge | ltn | gen
deriving DecidableEq, Repr

/-- Conditions of VFCMP (R68). -/
inductive FCond where
  | eq | ne | lt | le | gt | ge | un
deriving DecidableEq, Repr

/-! Operand records, one for each shape of operands. -/

/-- Three scalar operands (format SR). -/
structure R3 where
  form : Form
  d : Dst
  a : Src
  b : Src
deriving DecidableEq, Repr

/-- A destination and one source (format SR with b zero). -/
structure R2 where
  form : Form
  d : Dst
  a : Src
deriving DecidableEq, Repr

/-- A destination only. -/
structure RD where
  form : Form
  d : Dst
deriving DecidableEq, Repr

/-- One source only. -/
structure RA where
  form : Form
  a : Src
deriving DecidableEq, Repr

/-- Two sources without a destination (TLBINV, CINV, CWB). -/
structure RAB where
  form : Form
  a : Src
  b : Src
deriving DecidableEq, Repr

/-- A destination, a source and an immediate (format SI: ADDI, JR). -/
structure RI where
  form : Form
  d : Dst
  a : Src
  imm : Int
deriving DecidableEq, Repr

/-- LI (format SL). -/
structure LIo where
  form : Form
  d : Dst
  imm : Int
deriving DecidableEq, Repr

/-- BFX and BFI (format SF); for BFI the destination is also a source. -/
structure BFo where
  form : Form
  d : Dst
  a : Src
  pos : Nat
  len1 : Nat
deriving DecidableEq, Repr

/-- Conditional branches (format SB); off counts words, or bytes in the literal form. -/
structure BRo where
  form : Form
  a : Src
  b : Src
  off : Int
deriving DecidableEq, Repr

/-- JAL (format SJ). -/
structure JLo where
  form : Form
  d : Dst
  off : Int
deriving DecidableEq, Repr

/-- J: JAL with d = 0 (R59). -/
structure JO where
  form : Form
  off : Int
deriving DecidableEq, Repr

/-- LOOP (format SLP): counter, count, distance of the end instruction in words. -/
structure LPo where
  form : Form
  lc : Nat
  a : Src
  stop : Nat
deriving DecidableEq, Repr

/-- BRQ (format SQ). -/
structure BQo where
  form : Form
  q : Nat
  off : Int
deriving DecidableEq, Repr

/-- Scalar loads (format SM); off counts access sizes, or bytes in the literal form. -/
structure LDo where
  form : Form
  d : Dst
  a : Src
  off : Int
deriving DecidableEq, Repr

/-- PREF (format SM). -/
structure PFo where
  form : Form
  hint : Nat
  a : Src
  off : Int
deriving DecidableEq, Repr

/-- Scalar stores (format SM); d is the data source. -/
structure STo where
  form : Form
  d : Src
  a : Src
  off : Int
deriving DecidableEq, Repr

/-- QPEEK and QCNT. -/
structure QPo where
  form : Form
  d : Dst
  q : Nat
deriving DecidableEq, Repr

/-- Atomics (format AM). -/
structure AMo where
  form : Form
  sc : Scope
  d : Dst
  a : Src
  b : Src
deriving DecidableEq, Repr

/-- AMOCAS, whose xd is both the compare value and the destination (R116). -/
structure CASo where
  form : Form
  sc : Scope
  d : Nat
  a : Src
  b : Src
deriving DecidableEq, Repr

/-- LDA. -/
structure LAo where
  form : Form
  sc : Scope
  d : Dst
  a : Src
deriving DecidableEq, Repr

/-- STL; d is the data source. -/
structure SLo where
  form : Form
  sc : Scope
  d : Src
  a : Src
deriving DecidableEq, Repr

/-- FENCE: scope, predecessor and successor sets, .eng (R120). -/
structure FNo where
  form : Form
  sc : Scope
  pr : Bool
  pw : Bool
  sr : Bool
  sw : Bool
  eng : Bool
deriving DecidableEq, Repr

/-- BARI, BARW, BARX: a barrier and a source (Table 5.4). -/
structure BBo where
  form : Form
  n : Nat
  b : Src
deriving DecidableEq, Repr

/-- BARA, BARR: a destination, a barrier, the check flag. -/
structure BAo where
  form : Form
  d : Dst
  n : Nat
  chk : Bool
deriving DecidableEq, Repr

/-- WAITM; e is the limit register of the extended and long forms (R124). -/
structure WMo where
  form : Form
  d : Dst
  a : Src
  b : Src
  e : Nat
deriving DecidableEq, Repr

/-- GETS. -/
structure GSo where
  form : Form
  d : Dst
  n : Nat
deriving DecidableEq, Repr

/-- SETS. -/
structure SSo where
  form : Form
  a : Src
  n : Nat
deriving DecidableEq, Repr

/-- SWAPS. -/
structure SWo where
  form : Form
  d : Dst
  a : Src
  n : Nat
deriving DecidableEq, Repr

/-- The fields of MOD (Table 3.8). -/
structure Pfx where
  rnd : Nat
  sat : Nat
  fs : Bool
deriving DecidableEq, Repr

/-- Base-form instructions with a token or status register d and a register or group a. -/
structure DA where
  d : Nat
  a : Nat
deriving DecidableEq, Repr

/-- EPUSH. -/
structure EPo where
  form : Form
  p : Nat
  a : Src
deriving DecidableEq, Repr

/-- CMREF: a monitor and an address. -/
structure CRo where
  form : Form
  m : Nat
  a : Src
deriving DecidableEq, Repr

/-- CMRD: destination, monitor, double number. -/
structure CDo where
  form : Form
  d : Dst
  m : Nat
  b : Src
deriving DecidableEq, Repr

/-- VSETL, VSETT: destination and xb. -/
structure RB where
  form : Form
  d : Dst
  b : Src
deriving DecidableEq, Repr

/-- Vector loads and stores (format VM). c is the xc, xb or vb field; sc the scope of R180 (loads only). -/
structure VMo where
  form : Form
  mask : Mask
  v : Nat
  a : Src
  c : Nat
  sc : Scope
deriving DecidableEq, Repr

/-- Format V with two sources. -/
structure VVo where
  form : Form
  mask : Mask
  d : Nat
  a : Nat
  c : VSrc
deriving DecidableEq, Repr

/-- Format V with one vector source. -/
structure VUo where
  form : Form
  mask : Mask
  d : Nat
  a : Nat
deriving DecidableEq, Repr

/-- VFRCPP, with its pivot mask. -/
structure VPo where
  form : Form
  mask : Mask
  d : Nat
  a : Nat
  mc : Nat
deriving DecidableEq, Repr

/-- VCMP. -/
structure VCo where
  form : Form
  mask : Mask
  cond : ICond
  d : Nat
  a : Nat
  c : VSrc
deriving DecidableEq, Repr

/-- VFCMP. -/
structure VFCo where
  form : Form
  mask : Mask
  cond : FCond
  d : Nat
  a : Nat
  c : VSrc
deriving DecidableEq, Repr

/-- MAND, MOR, MXOR. -/
structure M3 where
  form : Form
  d : Nat
  a : Nat
  b : Nat
deriving DecidableEq, Repr

/-- MPOPC, MFIRST. -/
structure MDo where
  form : Form
  mask : Mask
  d : Dst
  a : Nat
deriving DecidableEq, Repr

/-- VMSET. -/
structure VSo where
  form : Form
  d : Nat
  c : VSrc
deriving DecidableEq, Repr

/-- Conversions, with the source type. -/
structure VTo where
  form : Form
  mask : Mask
  d : Nat
  a : Nat
  ty : Ty
deriving DecidableEq, Repr

/-- VIDXC: the group at d, the count register c. -/
structure VXo where
  form : Form
  mask : Mask
  d : Nat
  c : Nat
deriving DecidableEq, Repr

/-- VBCAST. -/
structure VBo where
  form : Form
  mask : Mask
  d : Nat
  c : VSrc
deriving DecidableEq, Repr

/-- VEXTR. -/
structure VEo where
  form : Form
  d : Dst
  a : Nat
  c : VSrc
deriving DecidableEq, Repr

/-- VINS; e is the index register (x0 in the base and literal forms). -/
structure VIo where
  form : Form
  d : Nat
  b : Src
  e : Nat
deriving DecidableEq, Repr

/-- AFDEF: value count n and path. -/
structure AFo where
  form : Form
  mask : Mask
  a : Nat
  n : Nat
  p : VSrc
deriving DecidableEq, Repr

/-- AFPOP. -/
structure APo where
  form : Form
  d : Nat
  a : Nat
  p : VSrc
deriving DecidableEq, Repr

/-- AFCNT; no path means the total over all paths. -/
structure ACo where
  form : Form
  d : Dst
  p : Option VSrc
deriving DecidableEq, Repr

/-- EPOPV, SHPUSH, SHINS, with a port or sheaf number n and a vector register v. -/
structure VNo where
  form : Form
  mask : Mask
  v : Nat
  n : Nat
deriving DecidableEq, Repr

/-- TMOP. -/
structure TOo where
  form : Form
  t : Nat
  a : Nat
  vb : Nat
  b : Src
  ca : Bool
  cb : Bool
deriving DecidableEq, Repr

/-- TMRUN. -/
structure TRo where
  form : Form
  t : Nat
  a : Nat
  ca : Bool
  cb : Bool
deriving DecidableEq, Repr

/-- TMRD: tile t, register pair v, row b, step-count register e. -/
structure TDo where
  form : Form
  t : Nat
  v : Nat
  b : Src
  e : Nat
deriving DecidableEq, Repr

/-- TMWR. -/
structure TWo where
  form : Form
  t : Nat
  v : Nat
  b : Src
deriving DecidableEq, Repr

/-- TMWAIT, TMSTAT: destination and tile. -/
structure TSo where
  form : Form
  d : Dst
  t : Nat
deriving DecidableEq, Repr

/-- RLSET (R363). -/
structure RLo where
  form : Form
  d : Nat
  a : Nat
  b : Src
deriving DecidableEq, Repr

/-- What a soft error (R424) strikes: nothing that any access uses; a register or tile that a strand's present instruction
reads; the byte of memory or of a scratchpad with a key, which the next access that reads it meets; a run's tile; a command
in flight; the context save engine of a core at an offset of its record; the access of an episode slot to croft or mailbox
SRAM; or an entry of the translation cache or of the journal in the Barn. -/
inductive Struck where
  | none
  | strand (n : Nat)
  | data (key : Nat)
  | run (core tile : Nat)
  | cmd (id : Nat)
  | save (core off : Nat)
  | croft (slot : Nat)
  | barn (entry : Nat)
  | journal (entry : Nat)
deriving DecidableEq, Repr

/-- A signature with the modulus of the key that made it (R415). -/
structure Signature where
  modulus : Nat := 0
  sig : Nat := 0
deriving DecidableEq, Repr

/-- A signed revocation record, which lists the hash of one more key (R415). -/
structure Revocation where
  key : Nat
  sign : Signature
deriving DecidableEq, Repr

/-- What the root of trust finds in the Barn at a reset (R427): whether there is a configuration record, and its signature; the
power limit, the clock of each island kind in MHz and the minimum security version; and the hashes of the keys that a key
manifest lists, with the manifest's own signature (R415). -/
structure CfgRec where
  present : Bool := true
  sign : Signature := {}
  lim : Nat := 3400
  core : Nat := 940
  tmu : Nat := 940
  hall : Nat := 940
  llc : Nat := 940
  thresher : Nat := 940
  steading : Nat := 1600
  io : Nat := 940
  minVer : Nat := 0
  manifest : List Nat := []
  manifestSign : Signature := {}
deriving DecidableEq, Repr

/-- The options of the host port (22 Table 22.1). -/
inductive LinkOpt where
  | latencyFlit | hdmDb | hdmH | hdmD | cacheHost | p2pMem | ideContain | ideSkid | mld | dcd | gfam | tsp | hotRemoval | doeSpdm
deriving DecidableEq, Repr

/-- What the host offers as the link trains: width in lanes, speed in GT/s, 256-byte flits, the options it asks for, and the base
at which its decoder places the device's memory (22 R403, R404). -/
structure LinkOffer where
  width : Nat
  speed : Nat
  flit256 : Bool := true
  opts : List LinkOpt := []
  base : Nat := 0
deriving DecidableEq, Repr

/-- The instructions and the events of the part: one constructor for each row of spec/opcode_table.json. -/
inductive Instr where
  -- scalar integer (opcode 0x01, R79)
  | add (o : R3) | sub (o : R3) | mul (o : R3) | mulh (o : R3) | mulhn (o : R3)
  | div (o : R3) | divn (o : R3) | rem (o : R3) | remn (o : R3)
  | and (o : R3) | or (o : R3) | xor (o : R3) | andn (o : R3)
  | shl (o : R3) | shr (o : R3) | sha (o : R3) | rot (o : R3)
  | min (o : R3) | max (o : R3) | minn (o : R3) | maxn (o : R3)
  | slt (o : R3) | sltn (o : R3)
  | clz (o : R2) | ctz (o : R2) | popc (o : R2)
  | sext (o : R3) | zext (o : R3) | addsh (k : Nat) (o : R3)
  | addi (o : RI) | li (o : LIo) | bfx (o : BFo) | bfi (o : BFo)
  -- control (0x06 to 0x0B)
  | beq (o : BRo) | bne (o : BRo) | blt (o : BRo) | bge (o : BRo) | bltn (o : BRo) | bgen (o : BRo)
  | jal (o : JLo) | j (o : JO) | jr (o : RI) | jtab (o : R3) | loopbrk (f : Form) | loop (o : LPo)
  | brqNz (o : BQo) | brqZ (o : BQo)
  -- scalar memory (0x0C, 0x0D)
  | ldb (o : LDo) | ldh (o : LDo) | ldw (o : LDo) | ldd (o : LDo)
  | ldbn (o : LDo) | ldhn (o : LDo) | ldwn (o : LDo) | pref (o : PFo)
  | stb (o : STo) | sth (o : STo) | stw (o : STo) | std (o : STo)
  | qpeek (o : QPo) | qcnt (o : QPo)
  -- synchronisation (0x0F to 0x11)
  | amoadd (o : AMo) | amoand (o : AMo) | amoor (o : AMo) | amoxor (o : AMo)
  | amomin (o : AMo) | amomax (o : AMo) | amominn (o : AMo) | amomaxn (o : AMo)
  | amoswp (o : AMo) | amocas (o : CASo) | lda (o : LAo) | stl (o : SLo)
  | fence (o : FNo) | vsync (f : Form) (sc : Scope)
  | bari (o : BBo) | bara (o : BAo) | barw (o : BBo) | barr (o : BAo) | barx (o : BBo) | waitm (o : WMo)
  -- system (0x12 to 0x18)
  | trap (o : RA) | eret (f : Form) | idle (o : R2) | rdgtc (o : RD) | feat (o : R2) | yield (f : Form) | gexit (o : RA)
  | gets (o : GSo) | sets (o : SSo) | swaps (o : SWo) | mod (m : Pfx)
  | tlbinv (o : RAB) | cinv (o : RAB) | cwb (o : RAB) | keyz (o : DA) | scrub (o : DA)
  | rlsetWriteEntry (o : RLo) | rlsetReadEntry (o : RLo) | rlsetSwitch (o : RLo) | rlsetResume (o : RLo)
  | rlsetDiscard (o : RLo)
  | launch (o : DA) | launchi (o : DA)
  -- copies, engines, sheaves, monitors, mailboxes (0x19, 0x1A)
  | cpya (o : DA) | cpyw (o : DA) | cpyx (o : DA) | gath (o : DA) | scred (o : DA)
  | epush (o : EPo) | epop (o : QPo) | fwalk (o : DA) | stmap (o : DA) | stunmap (o : DA) | stflush (o : DA)
  | shinit (sh a : Nat) | shclr (sh : Nat) | shcnt (o : QPo)
  | cmarm (f : Form) (m a : Nat) | cmref (o : CRo) | cmchk (f : Form) (m : Nat) (clr : Bool) | cmrd (o : CDo) | cmoff (f : Form) (m : Nat)
  | stepa (o : DA) | stepo (o : DA) | epver (o : R2) | epret (o : R2)
  | scommit (o : RA) | sabort (f : Form)
  -- vectors (0x20 to 0x36)
  | vsetl (o : RB) | vsett (o : RB) | vsetm (o : R3) | vgetg (o : RD)
  | vld (o : VMo) | vldf (o : VMo) | vldh (o : VMo) | vlds (o : VMo) | vldx (o : VMo)
  | vst (o : VMo) | vstq (o : VMo) | vsth (o : VMo) | vsts (o : VMo) | vstx (o : VMo) | vstxo (o : VMo)
  | vadd (o : VVo) | vsub (o : VVo) | vmul (o : VVo) | vmulh (o : VVo) | vmac (o : VVo)
  | vmin (o : VVo) | vmax (o : VVo) | vminn (o : VVo) | vmaxn (o : VVo)
  | vand (o : VVo) | vor (o : VVo) | vxor (o : VVo) | vshl (o : VVo) | vshr (o : VVo) | vsha (o : VVo)
  | vabs (o : VUo) | vsadd (o : VVo) | vssub (o : VVo)
  | vfadd (o : VVo) | vfsub (o : VVo) | vfmul (o : VVo) | vfma (o : VVo) | vfnma (o : VVo) | vfdiv (o : VVo)
  | vfmin (o : VVo) | vfmax (o : VVo)
  | vfsqrt (o : VUo) | vfrece (o : VUo) | vfabs (o : VUo) | vfneg (o : VUo) | vfclass (o : VUo)
  | vfexp2 (o : VUo) | vfrcpp (o : VPo)
  | vcmp (o : VCo) | vfcmp (o : VFCo)
  | mand (o : M3) | mor (o : M3) | mxor (o : M3) | mnot (f : Form) (d a : Nat)
  | mpopc (o : MDo) | mfirst (o : MDo) | vmset (o : VSo) | viota (o : VUo)
  | vcvt (o : VTo) | vnarrow (o : VTo) | vnarrowChain (o : VTo) | vftoi (o : VTo) | vitof (o : VTo)
  | vslideup (o : VVo) | vslidedn (o : VVo) | vperm (o : VVo) | vcompr (o : VUo) | vexpand (o : VUo)
  | vidxc (o : VXo) | vbcast (o : VBo) | vextr (o : VEo) | vins (o : VIo) | stxs (o : VVo) | stxw (o : VVo)
  | vredadd (o : VVo) | vredaddo (o : VVo) | vredmax (o : VVo) | vredmin (o : VVo)
  | vfredadd (o : VVo) | vfredaddo (o : VVo) | vfredmax (o : VVo) | vfredmin (o : VVo)
  | afdef (o : AFo) | afpop (o : APo) | afcnt (o : ACo) | epopv (o : VNo)
  | shpush (o : VNo) | shins (o : VNo) | shpopb (f : Form) (v sh : Nat)
  -- the tuple matrix unit (0x37)
  | tmatt (o : RB) | tmdet (f : Form) | tmalg (o : RA) | tmalgs (o : RA) | tmzero (f : Form) (t : Nat) | tmop (o : TOo)
  | tmrun (o : TRo) | tmrd (o : TDo) | tmwr (o : TWo) | tmwait (o : TSo) | tmstat (o : TSo)
  -- events: the strand n, hart h, core c, partition p, gang g, command id, tile, hall or slot they befall
  | illegalInstruction | fetchFault (va : Word) | branchMispredict (n : Nat) | queueDeadlock (h : Nat) | sourceStop (p src : Nat)
  | haltResume (p : Nat) | haltEnd (p : Nat) | interrupt (n : Nat)
  | waitmWake (n : Nat) | waitmTimeout (n : Nat) | idleEnd (n code : Nat)
  | barrierCredit (id : Nat) | barrierWaitReturn (n : Nat)
  | copyChunk (id : Nat) | copyComplete (id : Nat) | stashCommandComplete (id : Nat)
  | gatherRow (id : Nat) | scatterReduceUpdate (id : Nat) | fwalkRun (id : Nat)
  | engineCommandComplete (id : Nat) | completionStreamPush (id : Nat)
  | tmuKStep (c t : Nat) | wcTimeout (c blk : Nat) | translationFill (h : Nat) (va : Word)
  | sliceEnd (p : Nat) | switchComplete (p : Nat) | latencyLimitMiss (p : Nat)
  | contextSpillDone (c : Nat) | contextFillDone (c : Nat) | spillStop (c off : Nat) | fillStop (c off : Nat)
  | launchDispatch (p id : Nat) | gangPlacement (p id : Nat) | launchCompletion (p id : Nat)
  | hostRead (addr len : Nat) | hostWrite (addr : Nat) (data : List Byte) | hostLineWrite (addr : Nat) (data : List Byte)
  | linkTraining (o : LinkOffer) | spdmMeasurementRequest
  | xlateTranslate (p : Nat) | xlateLookup (p : Nat) | xlateInvalidateKey (p : Nat) | xlateInvalidateAll (p : Nat)
  | episodeStart (p : Nat) | episodeEndCommand (p : Nat) | imageCopyDone (slot : Nat)
  | takeCall (slot : Nat) | postCall (slot : Nat) | stampCall (slot : Nat)
  | actionRecordPlaced (slot : Nat) | observationRecordPlaced (slot : Nat) | watchdogExpiry (slot : Nat)
  | croftFault (slot : Nat) (mcause mtval : Word)
  | kload (n : Nat) (v : Word) | winnowerOrderComplete | partCfgWrite (n p : Nat) (v : Word)
  | stgrpWrite (n p : Nat) (v : Word) | islandControl (n : Nat) (v : Word) | islandPowerChangeDone (i : Nat)
  | throttleStep | thermalShutdown | softError (k : Nat) (uncorr : Bool) (hit : Struck)
  | fwStage (n : Nat) (v : Word) | fwStageDone (len modulus sig ver : Nat) | fwCommit (n : Nat) | fwSelectBank (n : Nat)
  | coldReset (c : CfgRec) | warmReset (c : CfgRec)
  | croftUserInstruction (slot : Nat) | winnowerUnitDone
  | powerLoss | keyRevocation (v : Revocation)
deriving DecidableEq, Repr

end Sys2Proof
end

