-- ==== Sys2Proof/Machine/Num.lean ====
section
/-! DEFINITION. Sys2Proof/Machine/Num.lean: the number formats of 06 (R136 to R140), exact values as fractions, and the one
rounding procedure (R81, R141 to R145, R438). Rounding modes are numbered as `fpm` and MOD number them: 1 rne, 2 rtz,
3 rup, 4 rdn, 5 rto, 6 rst. Flags are in the bit order of `fpf`: ST 0x20, NV 0x10, DZ 8, OF 4, UF 2, NX 1. -/

namespace Sys2Proof

/-! ### Types -/

/-- Width of an element in bits (Tables 6.1, 6.2); block types by their codes. -/
def Ty.bits : Ty → Nat
  | .i4 => 4 | .i8 => 8 | .i16 => 16 | .i32 => 32 | .i64 => 64
  | .n8 => 8 | .n16 => 16 | .n32 => 32 | .n64 => 64
  | .f32 => 32 | .bf16 => 16 | .f16 => 16 | .e4m3 => 8 | .e5m2 => 8 | .e2m1 => 4 | .sb4 => 4 | .sb8 => 8

/-- Float types. -/
def Ty.isFloat : Ty → Bool
  | .f32 | .bf16 | .f16 | .e4m3 | .e5m2 | .e2m1 => true
  | _ => false
/-- Block types. -/
def Ty.isBlock : Ty → Bool
  | .sb4 | .sb8 => true
  | _ => false
/-- Signed integer types. -/
def Ty.isSigned : Ty → Bool
  | .i4 | .i8 | .i16 | .i32 | .i64 => true
  | _ => false
/-- Unsigned integer types. -/
def Ty.isUnsigned : Ty → Bool
  | .n8 | .n16 | .n32 | .n64 => true
  | _ => false
/-- Integer types. -/
def Ty.isInt (t : Ty) : Bool := t.isSigned || t.isUnsigned

/-- Exponent and fraction bits of a float type. -/
def Ty.ef : Ty → Nat × Nat
  | .f32 => (8, 23) | .bf16 => (8, 7) | .f16 => (5, 10) | .e4m3 => (4, 3) | .e5m2 => (5, 2) | .e2m1 => (2, 1)
  | _ => (8, 23)
/-- Exponent bias. -/
def Ty.bias (t : Ty) : Nat := 2 ^ (t.ef.1 - 1) - 1
/-- Precision P. -/
def Ty.prec (t : Ty) : Nat := t.ef.2 + 1
/-- Exponent of the smallest normal. -/
def Ty.emin (t : Ty) : Int := 1 - (t.bias : Int)
/-- The type has infinities (Table 6.3). -/
def Ty.hasInf : Ty → Bool
  | .f32 | .bf16 | .f16 | .e5m2 => true
  | _ => false
/-- Canonical NaN (Table 6.3); e2m1 has none. -/
def Ty.canonNaN : Ty → Nat
  | .f32 => 0x7FC00000 | .bf16 => 0x7FC0 | .f16 => 0x7E00 | .e4m3 => 0x7F | .e5m2 => 0x7E | _ => 0
/-- The code of the largest finite value. -/
def Ty.maxCode : Ty → Nat
  | .f32 => 0x7F7FFFFF | .bf16 => 0x7F7F | .f16 => 0x7BFF | .e4m3 => 0x7E | .e5m2 => 0x7B | _ => 7

end Sys2Proof

namespace Sys2Proof.Machine

/-- Flags in the bit order of Table 6.6. -/
abbrev Flags := BitVec 6
/-- A result was clamped by saturation. -/
abbrev fST : Flags := 0x20
/-- Invalid operation. -/
abbrev fNV : Flags := 0x10
/-- Division of a finite nonzero value by zero. -/
abbrev fDZ : Flags := 0x08
/-- Overflow. -/
abbrev fOF : Flags := 0x04
/-- Tiny and inexact. -/
abbrev fUF : Flags := 0x02
/-- Inexact. -/
abbrev fNX : Flags := 0x01

/-! ### Exact values -/

/-- An exact value: a NaN, an infinity, a signed zero, or the nonzero fraction n / d. -/
inductive Val where
  | nan
  | inf (neg : Bool)
  | zero (neg : Bool)
  | num (n : Int) (d : Nat)
deriving DecidableEq, Repr

/-- n times 2^e as a fraction. -/
def scaleQ (n : Int) (d : Nat) (e : Int) : Int × Nat :=
  if 0 ≤ e then (n * 2 ^ e.toNat, d) else (n, d * 2 ^ (-e).toNat)

/-- The value of a fraction; a zero has the given sign. -/
def mkVal (n : Int) (d : Nat) (neg : Bool) : Val := if n = 0 then .zero neg else .num n d

/-- The exact value of a float code (R137, R138). -/
def decodeF (t : Ty) (v : Nat) : Val :=
  let eb := t.ef.1
  let fb := t.ef.2
  let f := v % 2 ^ fb
  let e := v / 2 ^ fb % 2 ^ eb
  let neg := v / 2 ^ (eb + fb) % 2 == 1
  let sg : Int := if neg then -1 else 1
  if t.hasInf && e == 2 ^ eb - 1 then (if f = 0 then .inf neg else .nan)
  else if t == .e4m3 && v % 128 == 127 then .nan
  else
    let m := if e = 0 then f else 2 ^ fb + f
    let ex : Int := (if e = 0 then 1 else (e : Int)) - t.bias - fb
    if m = 0 then .zero neg else
    let q := scaleQ (sg * m) 1 ex
    .num q.1 q.2

/-- The exact value of an integer code (R136). -/
def decodeI (t : Ty) (v : Nat) : Int :=
  let v := v % 2 ^ t.bits
  if t.isSigned && v / 2 ^ (t.bits - 1) == 1 then (v : Int) - 2 ^ t.bits else v

/-- The exact value of an element of a scalar type. -/
def decodeV (t : Ty) (v : Nat) : Val := if t.isFloat then decodeF t v else mkVal (decodeI t v) 1 false

/-- The exponent e with 2^e ≤ n / d < 2^(e+1), for positive n and d. -/
def floorLog2 (n d : Nat) : Int :=
  let k : Int := (n.log2 : Int) - d.log2
  let q := scaleQ n d (-k)
  if q.1 < q.2 then k - 1 else k

/-! ### Choosing a neighbour -/

/-- The choice between lo and lo + 1 for the fraction n / d that lies strictly between them, by mode; `r` is the draw of
R145 (R141, R144). A mode of no name, which only an altered save record gives, is rne (log entry 133). -/
def chooseQ (mode r : Nat) (n : Int) (d : Nat) (lo : Int) : Int :=
  let frac := n - lo * d
  match mode with
  | 2 => if 0 ≤ n then lo else lo + 1
  | 3 => lo + 1
  | 4 => lo
  | 5 => if lo % 2 = 0 then lo + 1 else lo
  | 6 => if (r : Int) * d < frac * 2 ^ 32 then lo + 1 else lo
  | _ => if 2 * frac < d then lo else if 2 * frac > d then lo + 1 else if lo % 2 = 0 then lo else lo + 1

/-- RoundInt (R81): the integer that the mode chooses for n / d. rto truncates and sets the lowest bit of a result with a
remainder, in two's complement (log entry 13). -/
def roundInt (mode r : Nat) (n : Int) (d : Nat) : Int :=
  let lo := n / (d : Int)
  if n % (d : Int) = 0 then lo
  else if mode = 5 then
    let t := if 0 ≤ n then lo else lo + 1
    if t % 2 = 0 then t + 1 else t
  else chooseQ mode r n d lo

/-! ### RoundF and RoundI -/

/-- Saturation is on for a type under a MOD saturation field (R142). -/
def satOn (t : Ty) (sat : Nat) : Bool := t == .e2m1 || sat == 1 || (sat == 0 && t == .e4m3)

/-- The sign bit of a code. -/
def signCode (t : Ty) (neg : Bool) : Nat := if neg then 2 ^ (t.bits - 1) else 0

/-- The result of an overflow (Table 6.5) with the flags it adds to OF and NX. -/
def overflowF (t : Ty) (mode : Nat) (sat : Bool) (neg : Bool) : Nat × Flags :=
  let maxF := signCode t neg + t.maxCode
  let inf := signCode t neg + (2 ^ t.ef.1 - 1) * 2 ^ t.ef.2
  let away := mode = 1 ∨ mode = 6 ∨ (mode = 3 ∧ neg = false) ∨ (mode = 4 ∧ neg = true)
  if sat then (maxF, fST)
  else if t == .e4m3 then (if away then (t.canonNaN, if mode = 1 ∨ mode = 6 then fNV else 0) else (maxF, fST))
  else if away then (inf, 0) else (maxF, 0)

/-- The code of the finite magnitude m times 2^s, a value of the type. -/
def encodeMag (t : Ty) (m : Nat) (s : Int) : Nat :=
  if m = 0 then 0 else
  let fb := t.ef.2
  let e : Int := (m.log2 : Int) + s
  if e < t.emin then
    -- a subnormal: a multiple of 2^(emin - fb)
    (scaleQ m 1 (s - (t.emin - fb))).1.toNat / (scaleQ m 1 (s - (t.emin - fb))).2
  else
    let q := scaleQ m 1 (s - (e - fb))
    (e + t.bias).toNat * 2 ^ fb + (q.1.toNat / q.2 - 2 ^ fb)

/-- RoundF (R141): the code of the result and the flags it raises. -/
def roundF (t : Ty) (mode : Nat) (sat : Bool) (r : Nat) (v : Val) : Nat × Flags :=
  match v with
  | .nan => if t == .e2m1 then (0, fNV) else (t.canonNaN, 0)
  | .inf neg =>
    if t.hasInf then (signCode t neg + (2 ^ t.ef.1 - 1) * 2 ^ t.ef.2, 0)
    else if t == .e4m3 && !sat then (t.canonNaN, fOF ||| fNV)
    else (signCode t neg + t.maxCode, fOF ||| fST)
  | .zero neg => (signCode t neg, 0)
  | .num n d =>
    let neg := decide (n < 0)
    let fl := floorLog2 n.natAbs d
    let e := max fl t.emin
    let s := e - t.prec + 1
    let q := scaleQ n d (-s)
    let lo := q.1 / (q.2 : Int)
    let y := if q.1 % (q.2 : Int) = 0 then lo else chooseQ mode r q.1 q.2 lo
    -- the spacing's exponent s is at least that of the largest finite value exactly when e is its exponent
    let big := encodeMag t y.natAbs s
    if t.maxCode < big then
      let o := overflowF t mode sat neg
      (o.1, fOF ||| fNX ||| o.2)
    else
      let inexact := decide (q.1 % (q.2 : Int) ≠ 0)
      let fl2 : Flags := if inexact then (if fl < t.emin then fNX ||| fUF else fNX) else 0
      (signCode t neg + big, fl2)

/-- The range of an integer type. -/
def rangeI (t : Ty) : Int × Int :=
  if t.isSigned then (-(2 ^ (t.bits - 1) : Int), 2 ^ (t.bits - 1) - 1) else (0, 2 ^ t.bits - 1)

/-- The code of an integer, modulo the width. -/
def encodeI (t : Ty) (v : Int) : Nat := (v % (2 ^ t.bits : Int)).toNat

/-- RoundI (R143): the clamped integer and the flags. -/
def roundI (t : Ty) (mode r : Nat) (v : Val) : Int × Flags :=
  let (lo, hi) := rangeI t
  match v with
  | .nan => (0, fNV ||| fST)
  | .inf neg => (if neg then lo else hi, fNV ||| fST)
  | .zero _ => (0, 0)
  | .num n d =>
    let i := roundInt mode r n d
    let c := max lo (min hi i)
    let nx : Flags := if n = c * d then 0 else fNX
    (c, nx ||| (if c = i then 0 else fNV ||| fST))

/-! ### Stochastic draws (R145) -/

/-- StochWord. -/
def stochWord (seed n : Word) (j : Nat) : Word :=
  let z := seed ^^^ (n * 0x9C5A3E71D2B40F6B)
  let z := z + BitVec.ofNat 64 j * 0xE3B147C95A2D86F1
  let z := (z ^^^ (z >>> 31)) * 0xB8F26D13A95C4E27
  let z := (z ^^^ (z >>> 29)) * 0xD17AC4E53B9602AD
  z ^^^ (z >>> 32)

/-- The 32-bit draw. -/
def draw (seed n : Word) (j : Nat) : Nat := (stochWord seed n j).toNat / 2 ^ 32

/-! ### Exact arithmetic on values (R8, R438) -/

/-- The sign of a value; NaN counts as positive. -/
def Val.neg : Val → Bool
  | .nan => false
  | .inf n => n
  | .zero n => n
  | .num n _ => decide (n < 0)

/-- The negated value. -/
def Val.negate : Val → Val
  | .nan => .nan
  | .inf n => .inf !n
  | .zero n => .zero !n
  | .num n d => .num (-n) d

/-- Sum of two fractions; denominators are usually powers of two, so one often divides the other. -/
def addQ (n1 : Int) (d1 : Nat) (n2 : Int) (d2 : Nat) : Int × Nat :=
  if d1 = d2 then (n1 + n2, d1)
  else if d2 % d1 = 0 then (n1 * (d2 / d1 : Nat) + n2, d2)
  else if d1 % d2 = 0 then (n1 + n2 * (d1 / d2 : Nat), d1)
  else (n1 * d2 + n2 * d1, d1 * d2)

/-- The exact sum with its sign of zero, and whether it is invalid (∞ − ∞). -/
def addV (mode : Nat) (a b : Val) : Val × Bool :=
  match a, b with
  | .nan, _ => (.nan, false)
  | _, .nan => (.nan, false)
  | .inf x, .inf y => if x = y then (.inf x, false) else (.nan, true)
  | .inf x, _ => (.inf x, false)
  | _, .inf y => (.inf y, false)
  | .zero x, .zero y => (.zero (if x = y then x else mode == 4), false)
  | .zero _, b => (b, false)
  | a, .zero _ => (a, false)
  | .num n1 d1, .num n2 d2 =>
    let q := addQ n1 d1 n2 d2
    (mkVal q.1 q.2 (mode == 4), false)

/-- The exact product, and whether it is invalid (0 × ∞). -/
def mulV (a b : Val) : Val × Bool :=
  match a, b with
  | .nan, _ => (.nan, false)
  | _, .nan => (.nan, false)
  | .inf x, .inf y => (.inf (x != y), false)
  | .inf _, .zero _ => (.nan, true)
  | .zero _, .inf _ => (.nan, true)
  | .inf x, .num n _ => (.inf (x != decide (n < 0)), false)
  | .num n _, .inf y => (.inf (decide (n < 0) != y), false)
  | .zero x, b => (.zero (x != b.neg), false)
  | a, .zero y => (.zero (a.neg != y), false)
  | .num n1 d1, .num n2 d2 => (.num (n1 * n2) (d1 * d2), false)

/-- The exact quotient with its flags: NV for 0/0 and ∞/∞, DZ for a finite nonzero value over zero. -/
def divV (a b : Val) : Val × Flags :=
  match a, b with
  | .nan, _ => (.nan, 0)
  | _, .nan => (.nan, 0)
  | .inf _, .inf _ => (.nan, fNV)
  | .zero _, .zero _ => (.nan, fNV)
  | .inf x, b => (.inf (x != b.neg), 0)
  | a, .inf y => (.zero (a.neg != y), 0)
  | .zero x, b => (.zero (x != b.neg), 0)
  | a, .zero y => (.inf (a.neg != y), fDZ)
  | .num n1 d1, .num n2 d2 =>
    (.num (n1 * d2 * (if n2 < 0 then -1 else 1)) (d1 * n2.natAbs), 0)

/-- Comparison of two values that are no NaN: less, equal or greater; the zeros are equal. -/
def cmpV (a b : Val) : Ordering :=
  match a, b with
  | .inf x, .inf y => if x = y then .eq else if x then .lt else .gt
  | .inf x, _ => if x then .lt else .gt
  | _, .inf y => if y then .gt else .lt
  | .nan, _ => .eq
  | _, .nan => .eq
  | .zero _, .zero _ => .eq
  | .zero _, .num n _ => if n < 0 then .gt else .lt
  | .num n _, .zero _ => if n < 0 then .lt else .gt
  | .num n1 d1, .num n2 d2 => compare (n1 * d2) (n2 * d1)

/-- The value is a NaN. -/
def Val.isNaN : Val → Bool
  | .nan => true
  | _ => false
/-- The value is an infinity. -/
def Val.isInf : Val → Bool
  | .inf _ => true
  | _ => false
/-- The value is finite. -/
def Val.isFin (v : Val) : Bool := !v.isNaN && !v.isInf
/-- The value is a zero. -/
def Val.isZero : Val → Bool
  | .zero _ => true
  | _ => false
/-- A finite value as a fraction. -/
def Val.frac : Val → Int × Nat
  | .num n d => (n, d)
  | _ => (0, 1)

end Sys2Proof.Machine
end

