-- ==== Sys2Proof/Config.lean ====
section
/-! DEFINITION. Sys2Proof/Config.lean: what the spec leaves to the implementation, as constants without a body: no proof
can see their values. -/

namespace Sys2Proof.Config

/-- The missing feature (15 R321, bits 34 to 511) that an illegal first word belongs to, if any: the spec assigns no
encodings to features that this part lacks. -/
opaque featureOf : Nat → Option Nat

/-- Free bits: the choice of old or copied value for a byte of a failing copy chunk (R242). -/
opaque freeBit : Nat → Nat → Bool

/-- Whether a TMU run may read what a copy of its own core has overwritten while nothing orders the two: 17 R341 allows it, and 11 R294
has every read return the copy's write (log entry 152). -/
opaque runsSeeOld : Bool

/-- Free bytes: an image byte that cannot be read (22 R409). -/
opaque freeByte : Nat → Nat → Byte

/-- Free words, where the spec states no value. -/
opaque freeWord : Nat → Word

/-- The bytes of a firmware image, of its translator and of its croft monitor, by the number that names the image. -/
opaque firmwareImage : Nat → List Byte
/-- Its translator's. -/
opaque translatorImage : Nat → List Byte
/-- Its croft monitor's. -/
opaque monitorImage : Nat → List Byte

/-- The modulus and the signature that an image's translator carries, and those of its croft monitor (22 R415). -/
opaque translatorSign : Nat → Nat × Nat
/-- Its croft monitor's. -/
opaque monitorSign : Nat → Nat × Nat

/-- The bytes that are signed of a configuration record with these fields, of a key manifest that lists these keys, and of a
revocation record that lists these keys: the spec gives none of them a layout (22 R415; 24 R427). -/
opaque recordImage : List Nat → List Byte
/-- Of a key manifest. -/
opaque manifestImage : List Nat → List Byte
/-- Of a revocation record. -/
opaque revocationImage : List Nat → List Byte

/-- The hashes of the keys that the boot ROM trusts (22 R415). -/
opaque romKeys : List Nat

/-- The signature of an SPDM answer under the module's identity key (22 R415). -/
opaque identitySign : List Byte → List Byte

/-- What a sensor of 24 R421 to R425 reads: by sensor (an island's number, 1024 for the module's power, 1025 for the coolant,
1026 for the Barn's wear) and the counter of free values. -/
opaque sensor : Nat → Nat → Word

/-- What the translator makes of a module beyond the fields that the spec fixes, by the module's bytes and the translator's
identity: the spec fixes what the code computes (16 R326) and leaves its bytes open (R328). -/
opaque codeBody : List Byte → List Byte → List Byte

/-- How many harts of a gang call, together, the object that the translator makes of a module, by the module's bytes and the translator's
identity: the spec lets it assign instances to harts and gangs (16 R328) and leaves open which harts then call. -/
opaque codeHarts : List Byte → List Byte → Nat

/-- The address of a routine of the library of a firmware image, by the image and the routine's number (15 R322, R323). -/
opaque libRoutine : Nat → Nat → Option Word

/-- The bytes of a symbol in a code object's symbol table (15 R320). -/
opaque symbolSize : Nat

/-- The modulus and the signature that a firmware image carries which came with the part (22 R415). -/
opaque firmwareSign : Nat → Nat × Nat

/-- The erase blocks of the translation cache's region in the Barn (16 R335). -/
opaque barnBlocks : Nat

end Sys2Proof.Config
end

