-- ==== Sys2Proof/WellFormed.lean ====
section
/-! DEFINITION. Sys2Proof/WellFormed.lean: which operand values an encoding admits (R60 to R70 and the field values
that the instructions' own definitions mark illegal). Events carry no encoding and are not well-formed instructions. -/

namespace Sys2Proof

/-- A queue number (R60) named through a flag, which needs the extension words (R65). -/
def Form.queueOk (f : Form) (n : Nat) : Bool := f.hasExt && decide (n < 8)

/-- A source in a field that the literal never replaces. -/
def Src.okA (f : Form) : Src → Bool
  | .x r => decide (r < 64)
  | .q n => f.queueOk n
  | .imm _ => false

/-- A source in the field that the literal replaces (Table 3.4): the literal stands exactly in the literal forms. -/
def Src.okB (f : Form) : Src → Bool
  | .x r => !f.hasLit && decide (r < 64)
  | .q n => !f.hasLit && f.queueOk n
  | .imm _ => f.hasLit

/-- A destination. -/
def Dst.ok (f : Form) : Dst → Bool
  | .x r => decide (r < 64)
  | .q n => f.queueOk n

/-- A governing mask (R63, R65). -/
def Mask.ok (f : Form) : Mask → Bool
  | .none => true
  | .mk n => decide (1 ≤ n) && decide (n < 8)
  | .xm n => f.hasExt && decide (n < 8)

/-- v fits k bits as a signed number. -/
def fitsS (k : Nat) (v : Int) : Bool := decide (-(2 ^ (k - 1) : Int) ≤ v) && decide (v < (2 ^ (k - 1) : Int))

/-- A signed immediate or offset whose word 0 field has k bits (Table 4.2). -/
def immOk (f : Form) (k : Nat) (v : Int) : Bool :=
  match f with
  | .base => fitsS k v
  | .ext => fitsS (k + 16) v
  | _ => fitsS 64 v

/-- A control-transfer offset: words, or a byte literal with bits [1:0] zero (R64). -/
def offOk (f : Form) (k : Nat) (v : Int) : Bool := immOk f k v && (!f.hasLit || decide (v % 4 = 0))

/-- The form has neither literal nor more than the named kinds. -/
def Form.noLit : Form → Bool
  | .base => true | .ext => true | _ => false

/-- The c operand of a binary vector instruction: forms 00, 01 and 10 (R62). -/
def VSrc.ok3 (f : Form) : VSrc → Bool
  | .v r => f.noLit && decide (r < 32)
  | .s x => x.okB f
  | .i c => f.noLit && fitsS 6 c

/-- The c operand where only form 00 is accepted. -/
def VSrc.okV (f : Form) : VSrc → Bool
  | .v r => f.noLit && decide (r < 32)
  | _ => false

/-- The c operand where only forms 01 and 10 are accepted. -/
def VSrc.okSI (f : Form) : VSrc → Bool
  | .v _ => false
  | .s x => x.okB f
  | .i c => f.noLit && fitsS 6 c

/-- Forms 01 and 10 with a non-negative immediate (R189, R191, R195). -/
def VSrc.okSN (f : Form) : VSrc → Bool
  | .i c => f.noLit && decide (0 ≤ c) && fitsS 6 c
  | x => x.okSI f

/-- The state register numbers that a chapter names (R101, R365; 21 R392; 22 R408 to R412; 24). -/
def isStateReg (n : Nat) : Bool :=
  (n ≤ 0x001) || (0x004 ≤ n && n ≤ 0x007) || (0x010 ≤ n && n ≤ 0x019) || (0x040 ≤ n && n ≤ 0x045) || n == 0x048
  || (0x050 ≤ n && n ≤ 0x05F) || (0x060 ≤ n && n ≤ 0x06F) || (0x070 ≤ n && n ≤ 0x077) || (0x080 ≤ n && n ≤ 0x087)
  || (0x100 ≤ n && n ≤ 0x102) || (0x108 ≤ n && n ≤ 0x10F) || (0x200 ≤ n && n ≤ 0x204) || (0x240 ≤ n && n ≤ 0x285)
  || (0x400 ≤ n && n ≤ 0x440) || (0x448 ≤ n && n ≤ 0x44A) || (0x500 ≤ n && n ≤ 0x504) || (0x508 ≤ n && n ≤ 0x513)

/-- A register group of k registers from xa (R61). -/
def groupOk (a k : Nat) : Bool := decide (1 ≤ a) && decide (a + k ≤ 64)

/-- Three scalar operands. -/
def R3.wf (o : R3) : Bool := o.d.ok o.form && o.a.okA o.form && o.b.okB o.form
/-- A destination and a source. -/
def R2.wf (o : R2) : Bool := o.form.noLit && o.d.ok o.form && o.a.okA o.form
/-- SI format. -/
def RI.wf (o : RI) : Bool := o.d.ok o.form && o.a.okA o.form && immOk o.form 12 o.imm
/-- SF format (R83): the field lies in the double. -/
def BFo.wf (o : BFo) : Bool :=
  o.form.noLit && o.d.ok o.form && o.a.okA o.form && decide (o.pos < 64) && decide (o.len1 < 64)
    && decide (o.pos + o.len1 + 1 ≤ 64)
/-- SB format; the literal replaces the offset, so both sources are plain (Table 3.4). -/
def BRo.wf (o : BRo) : Bool := o.a.okA o.form && o.b.okA o.form && offOk o.form 9 o.off
/-- Loads. -/
def LDo.wf (o : LDo) : Bool := o.d.ok o.form && o.a.okA o.form && immOk o.form 9 o.off
/-- Stores. -/
def STo.wf (o : STo) : Bool := o.d.okA o.form && o.a.okA o.form && immOk o.form 9 o.off
/-- QPEEK, QCNT, SHCNT and EPOP: k is how many numbers the field names. -/
def QPo.wf (o : QPo) (k : Nat) : Bool := o.form.noLit && o.d.ok o.form && decide (o.q < k)
/-- The extended form stands exactly for a queue destination (R253, R271). -/
def QPo.extIffQueue (o : QPo) : Bool :=
  match o.d with | .x _ => o.form == .base | .q _ => o.form == .ext
/-- Atomics. -/
def AMo.wf (o : AMo) : Bool := o.d.ok o.form && o.a.okA o.form && o.b.okB o.form
/-- Barrier instructions with a source. -/
def BBo.wf (o : BBo) : Bool := decide (o.n < 8) && o.b.okB o.form
/-- Arrivals. -/
def BAo.wf (o : BAo) : Bool := o.form.noLit && o.d.ok o.form && decide (o.n < 8)
/-- TLBINV, CINV, CWB: base and literal forms, no queues (R375). -/
def RAB.wf (o : RAB) : Bool := !o.form.hasExt && o.a.okA o.form && o.b.okB o.form
/-- RLSET: base and literal forms, no queues (R363). -/
def RLo.wf (o : RLo) : Bool := !o.form.hasExt && decide (o.d < 64) && decide (o.a < 64) && o.b.okB o.form
/-- Base form with two plain registers. -/
def DA.wf (o : DA) : Bool := decide (o.d < 64) && decide (o.a < 64)
/-- Base form with a group of k registers. -/
def DA.wfG (o : DA) (k : Nat) : Bool := decide (o.d < 64) && groupOk o.a k
/-- EPUSH: the extended form stands exactly for a queue source (R253). -/
def EPo.wfA (o : EPo) : Bool :=
  match o.a with
  | .x r => o.form == .base && decide (r < 64)
  | .q n => o.form == .ext && decide (n < 8)
  | .imm _ => false
/-- A destination that names no queue. -/
def Dst.noQueue : Dst → Bool
  | .x _ => true
  | .q _ => false
/-- The path operand of AFCNT. -/
def ACo.pathOk (o : ACo) : Bool :=
  match o.p with
  | none => o.form.noLit
  | some p => p.okSN o.form
/-- VSETL, VSETT, TMATT. -/
def RB.wf (o : RB) : Bool := o.d.ok o.form && o.b.okB o.form
/-- Vector memory, common part: base address in a, replaced by the literal. -/
def VMo.wf (o : VMo) (c : Nat) : Bool :=
  o.mask.ok o.form && decide (o.v < 32) && o.a.okB o.form && decide (o.c < c)
/-- The scope of a load (R180): .floor, or .dev or .sys through word 2. -/
def VMo.scOk (o : VMo) : Bool :=
  match o.sc with | .floor => true | .dev => o.form.hasExt | .sys => o.form.hasExt | _ => false
/-- A store has no scope. -/
def VMo.noSc (o : VMo) : Bool := o.sc == .floor
/-- No governing mask. -/
def VMo.noMask (o : VMo) : Bool := o.mask == .none
/-- Binary vector instruction with the c operand checked by p. -/
def VVo.wf (o : VVo) (p : Form → VSrc → Bool) : Bool :=
  o.mask.ok o.form && decide (o.d < 32) && decide (o.a < 32) && p o.form o.c
/-- Unary vector instruction. -/
def VUo.wf (o : VUo) : Bool := o.form.noLit && o.mask.ok o.form && decide (o.d < 32) && decide (o.a < 32)
/-- Conversions. -/
def VTo.wf (o : VTo) : Bool := o.form.noLit && o.mask.ok o.form && decide (o.d < 32) && decide (o.a < 32)
/-- Mask registers only. -/
def M3.wf (o : M3) : Bool := o.form.noLit && decide (o.d < 8) && decide (o.a < 8) && decide (o.b < 8)
/-- MPOPC, MFIRST. -/
def MDo.wf (o : MDo) : Bool := o.form.noLit && o.mask.ok o.form && o.d.ok o.form && decide (o.a < 8)
/-- EPOPV, SHPUSH, SHINS: k numbers in the number field. -/
def VNo.wf (o : VNo) (k : Nat) : Bool := o.form.noLit && o.mask.ok o.form && decide (o.v < 32) && decide (o.n < k)

/-- The well-formed instructions: those that an encoding of Table 3.7 stands for. -/
def Instr.wf : Instr → Bool
  | .add o | .sub o | .mul o | .mulh o | .mulhn o | .div o | .divn o | .rem o | .remn o
  | .and o | .or o | .xor o | .andn o | .shl o | .shr o | .sha o | .rot o
  | .min o | .max o | .minn o | .maxn o | .slt o | .sltn o | .sext o | .zext o => o.wf
  | .clz o | .ctz o | .popc o => o.wf
  | .addsh k o => decide (1 ≤ k) && decide (k ≤ 4) && o.wf
  | .addi o | .jr o => o.wf
  | .li o => o.d.ok o.form && immOk o.form 18 o.imm
  | .bfx o => o.wf
  | .bfi o => o.wf && o.d.noQueue
  | .beq o | .bne o | .blt o | .bge o | .bltn o | .bgen o => o.wf
  | .jal o => o.d.ok o.form && offOk o.form 18 o.off && !(o.d == .x 0)
  | .j o => offOk o.form 18 o.off
  | .jtab o => o.wf
  | .loopbrk f | .eret f | .yield f | .sabort f | .tmdet f => f.noLit
  | .loop o => decide (o.lc < 4) && o.a.okB o.form && decide (o.stop < (if o.form.hasExt then 2 ^ 32 else 2 ^ 16))
  | .brqNz o | .brqZ o => decide (o.q < 8) && offOk o.form 20 o.off
  | .ldb o | .ldh o | .ldw o | .ldd o | .ldbn o | .ldhn o | .ldwn o => o.wf
  | .pref o => decide (o.hint < 3) && o.a.okA o.form && immOk o.form 9 o.off
  | .stb o | .sth o | .stw o | .std o => o.wf
  | .qpeek o | .qcnt o => o.wf 8
  | .amoadd o | .amoand o | .amoor o | .amoxor o | .amomin o | .amomax o | .amominn o | .amomaxn o | .amoswp o => o.wf
  | .amocas o => decide (o.d < 64) && o.a.okA o.form && o.b.okB o.form
  | .lda o => o.form.noLit && o.d.ok o.form && o.a.okA o.form
  | .stl o => o.form.noLit && o.d.okA o.form && o.a.okA o.form
  | .fence o => o.form.noLit
  | .vsync f _ => f.noLit
  | .bari o | .barw o | .barx o => o.wf
  | .bara o | .barr o => o.wf
  | .waitm o => o.d.ok o.form && o.a.okA o.form && o.b.okB o.form && decide (o.e < 64) && (o.form.hasExt || o.e == 0)
  | .trap o | .gexit o => o.form.noLit && o.a.okA o.form
  | .idle o | .feat o => o.wf
  | .rdgtc o | .vgetg o => o.form.noLit && o.d.ok o.form
  | .gets o => o.form.noLit && o.d.ok o.form && isStateReg o.n
  | .sets o => o.form.noLit && o.a.okA o.form && isStateReg o.n
  | .swaps o => o.form.noLit && o.d.ok o.form && o.a.okA o.form && isStateReg o.n
  | .mod m => decide (m.rnd < 7) && decide (m.sat < 3)
  | .tlbinv o | .cinv o | .cwb o => o.wf
  | .keyz o | .scrub o | .launch o | .launchi o | .stunmap o | .stflush o => o.wf
  | .rlsetWriteEntry o => o.wf
  | .cpya o | .cpyw o | .fwalk o => o.wfG 4
  | .cpyx o | .stepa o | .stepo o => o.wfG 5
  | .gath o | .scred o => o.wfG 6
  | .stmap o => o.wfG 3
  | .epush o => decide (o.p < 8) && o.wfA
  | .epop o => o.wf 8 && o.extIffQueue
  | .shinit s a => decide (s < 4) && groupOk a 4
  | .shclr s => decide (s < 4)
  | .shcnt o => o.wf 4 && o.extIffQueue
  | .cmarm f m a => f.noLit && decide (m < 4) && groupOk a 4
  | .cmref o => o.form.noLit && decide (o.m < 4) && o.a.okA o.form
  | .cmchk f m _ => f.noLit && decide (m < 4)
  | .cmrd o => o.d.ok o.form && decide (o.m < 4) && o.b.okB o.form
  | .cmoff f m => f.noLit && decide (m < 4)
  | .epver o | .epret o => o.wf
  | .scommit o => o.form.noLit && o.a.okA o.form
  | .vsetl o | .vsett o => o.wf
  | .vsetm o => o.wf
  | .vld o | .vldf o | .vlds o => o.wf 64 && o.scOk
  | .vldx o => o.wf 32 && o.scOk
  | .vldh o => o.wf 1 && o.scOk && o.noMask
  | .vst o | .vsts o => o.wf 64 && o.noSc
  | .vstx o | .vstxo o => o.wf 32 && o.noSc
  | .vstq o => o.wf 64 && o.noSc && o.noMask
  | .vsth o => o.wf 1 && o.noSc && o.noMask
  | .vadd o | .vsub o | .vmul o | .vmulh o | .vmac o | .vmin o | .vmax o | .vminn o | .vmaxn o
  | .vand o | .vor o | .vxor o | .vshl o | .vshr o | .vsha o | .vsadd o | .vssub o
  | .vfadd o | .vfsub o | .vfmul o | .vfma o | .vfnma o | .vfdiv o | .vfmin o | .vfmax o => o.wf (fun f c => c.ok3 f)
  | .vabs o | .vfsqrt o | .vfrece o | .vfabs o | .vfneg o | .vfclass o | .vfexp2 o => o.wf
  | .vfrcpp o => o.form.noLit && o.mask.ok o.form && decide (o.d < 32) && decide (o.a < 32) && decide (o.mc < 8)
  | .vcmp o => o.mask.ok o.form && decide (o.d < 8) && decide (o.a < 32) && o.c.ok3 o.form
  | .vfcmp o => o.mask.ok o.form && decide (o.d < 8) && decide (o.a < 32) && o.c.ok3 o.form
  | .mand o | .mor o | .mxor o => o.wf
  | .mnot f d a => f.noLit && decide (d < 8) && decide (a < 8)
  | .mpopc o | .mfirst o => o.wf
  | .vmset o => decide (o.d < 8) && o.c.okSN o.form
  | .viota o => o.form.noLit && o.mask.ok o.form && decide (o.d < 32) && decide (o.a < 8)
  | .vcvt o | .vnarrow o | .vnarrowChain o | .vftoi o | .vitof o => o.wf
  | .vslideup o | .vslidedn o | .stxs o | .stxw o => o.wf (fun f c => c.okSN f)
  | .vperm o | .vredadd o | .vredaddo o | .vredmax o | .vredmin o
  | .vfredadd o | .vfredaddo o | .vfredmax o | .vfredmin o => o.wf (fun f c => c.okV f)
  | .vcompr o | .vexpand o => o.wf && !(o.mask == .none)
  | .vidxc o => o.form.noLit && o.mask.ok o.form && decide (o.d < 32) && decide (o.c < 64)
  | .vbcast o => o.mask.ok o.form && decide (o.d < 32) && o.c.okSI o.form
  | .vextr o => o.d.ok o.form && decide (o.a < 32) && o.c.okSN o.form
  | .vins o => decide (o.d < 32) && o.b.okB o.form && decide (o.e < 64) && (o.form.hasExt || o.e == 0)
  | .afdef o => o.mask.ok o.form && decide (o.a < 32) && decide (o.n ≤ 4) && decide (o.a + o.n ≤ 32) && o.p.okSN o.form
  | .afpop o => decide (o.d < 32) && decide (o.a < 32) && o.p.okSN o.form
  | .afcnt o => o.d.ok o.form && o.pathOk
  | .epopv o => o.wf 8 && o.form == .base
  | .shpush o | .shins o => o.wf 4
  | .shpopb f v s => f.noLit && decide (v < 32) && decide (s < 4)
  | .tmatt o => o.wf
  | .tmalg o | .tmalgs o => o.form.noLit && o.a.okA o.form
  | .tmzero f t => f.noLit && decide (t < 32)
  | .tmop o => decide (o.t < 32) && decide (o.a < 32) && decide (o.vb < 32) && o.b.okB o.form
      && (o.form.hasExt || o.vb == 0)
  | .tmrun o => o.form.noLit && decide (o.t < 32) && groupOk o.a 8
  | .tmrd o => decide (o.t < 32) && decide (o.v < 32) && decide (o.v % 2 = 0) && o.b.okB o.form && decide (o.e < 64)
      && (o.form.hasExt || o.e == 0)
  | .tmwr o => decide (o.t < 32) && decide (o.v < 32) && decide (o.v % 2 = 0) && o.b.okB o.form
  | .tmwait o | .tmstat o => o.form.noLit && o.d.ok o.form && decide (o.t < 32)
  -- RLSET's other four rows share RLSET's words; the decoder answers the first, and the step tells them apart
  | .rlsetReadEntry _ | .rlsetSwitch _ | .rlsetResume _ | .rlsetDiscard _ => false
  -- events have no encoding
  | .branchMispredict _ | .queueDeadlock _ | .sourceStop _ _ | .haltResume _ | .haltEnd _ | .interrupt _
  | .waitmWake _ | .waitmTimeout _ | .idleEnd _ _ | .barrierCredit _ | .barrierWaitReturn _
  | .copyChunk _ | .copyComplete _ | .stashCommandComplete _ | .gatherRow _ | .scatterReduceUpdate _ | .fwalkRun _
  | .engineCommandComplete _ | .completionStreamPush _ | .tmuKStep _ _ | .wcTimeout _ _ | .translationFill _ _
  | .sliceEnd _ | .switchComplete _ | .latencyLimitMiss _ | .contextSpillDone _ | .contextFillDone _
  | .spillStop _ _ | .fillStop _ _ | .launchDispatch _ _ | .gangPlacement _ _ | .launchCompletion _ _
  | .hostRead _ _ | .hostWrite _ _ | .hostLineWrite _ _ | .linkTraining _ | .spdmMeasurementRequest
  | .xlateTranslate _ | .xlateLookup _ | .xlateInvalidateKey _ | .xlateInvalidateAll _
  | .episodeStart _ | .episodeEndCommand _ | .imageCopyDone _ | .takeCall _ | .postCall _ | .stampCall _
  | .actionRecordPlaced _ | .observationRecordPlaced _ | .watchdogExpiry _ | .croftFault _ _ _
  | .kload _ _ | .winnowerOrderComplete | .partCfgWrite _ _ _ | .stgrpWrite _ _ _ | .islandControl _ _
  | .islandPowerChangeDone _ | .throttleStep | .thermalShutdown | .softError _ _ _
  | .fwStage _ _ | .fwStageDone _ _ _ _ | .fwCommit _ | .fwSelectBank _ | .coldReset _ | .warmReset _
  | .illegalInstruction | .fetchFault _ | .croftUserInstruction _ | .winnowerUnitDone | .powerLoss
  | .keyRevocation _ => false

end Sys2Proof
end

