-- ==== Sys2Proof/Decode.lean ====
section
/-! DEFINITION. Sys2Proof/Decode.lean: from instruction words to instructions and back (03 Tables 3.1 to 3.7).
A word is a natural number below 2^32. `parse` reads the fields; `decode` keeps a parse only when the instruction is
well-formed and its own encoding gives back the very words, so a set bit that no field owns is refused (R70). -/

namespace Sys2Proof

/-- Bits [lo+len-1:lo] of a word. -/
def fld (w lo len : Nat) : Nat := w / 2 ^ lo % 2 ^ len

/-- The two's-complement reading of a k-bit field. -/
def sx (k v : Nat) : Int := if v < 2 ^ (k - 1) then (v : Int) else (v : Int) - 2 ^ k

/-- The k-bit two's-complement field of a number. -/
def unsx (k : Nat) (v : Int) : Nat := (v % (2 ^ k : Int)).toNat

/-- The length field (Table 3.1). -/
def Form.code : Form → Nat
  | .base => 0 | .lit => 1 | .ext => 2 | .long => 3

/-- The form that a first word names. -/
def formOf (w : Nat) : Form :=
  match w % 4 with
  | 0 => .base
  | 1 => .lit
  | 2 => .ext
  | _ => .long

/-- Type codes (Table 3.6). -/
def Ty.code : Ty → Nat
  | .i4 => 0 | .i8 => 1 | .i16 => 2 | .i32 => 3 | .i64 => 4 | .n8 => 5 | .n16 => 6 | .n32 => 7 | .n64 => 8
  | .f32 => 9 | .bf16 => 10 | .f16 => 11 | .e4m3 => 12 | .e5m2 => 13 | .e2m1 => 14 | .sb4 => 15 | .sb8 => 16

/-- The type of a code; 17 to 31 name none (R67). -/
def Ty.ofCode : Nat → Option Ty
  | 0 => some .i4 | 1 => some .i8 | 2 => some .i16 | 3 => some .i32 | 4 => some .i64
  | 5 => some .n8 | 6 => some .n16 | 7 => some .n32 | 8 => some .n64
  | 9 => some .f32 | 10 => some .bf16 | 11 => some .f16 | 12 => some .e4m3 | 13 => some .e5m2 | 14 => some .e2m1
  | 15 => some .sb4 | 16 => some .sb8 | _ => none

/-- Scope values (R59). -/
def Scope.code : Scope → Nat
  | .hart => 0 | .core => 1 | .hall => 2 | .floor => 3 | .dev => 4 | .sys => 5

/-- The scope of a value; 6 and 7 are illegal (R117). -/
def Scope.ofCode : Nat → Option Scope
  | 0 => some .hart | 1 => some .core | 2 => some .hall | 3 => some .floor | 4 => some .dev | 5 => some .sys
  | _ => none

/-- VCMP conditions (R68). -/
def ICond.code : ICond → Nat
  | .eq => 0 | .ne => 1 | .lt => 2 | .ge => 3 | .ltn => 4 | .gen => 5

/-- The VCMP condition of a value. -/
def ICond.ofCode : Nat → Option ICond
  | 0 => some .eq | 1 => some .ne | 2 => some .lt | 3 => some .ge | 4 => some .ltn | 5 => some .gen | _ => none

/-- VFCMP conditions (R68). -/
def FCond.code : FCond → Nat
  | .eq => 0 | .ne => 1 | .lt => 2 | .le => 3 | .gt => 4 | .ge => 5 | .un => 6

/-- The VFCMP condition of a value. -/
def FCond.ofCode : Nat → Option FCond
  | 0 => some .eq | 1 => some .ne | 2 => some .lt | 3 => some .le | 4 => some .gt | 5 => some .ge | 6 => some .un
  | _ => none

/-! ### The words of an instruction -/

/-- The words of one instruction, split by Table 3.1: word 0, extension words and literal (zero where absent). -/
structure Raw where
  form : Form
  w0 : Nat
  w1 : Nat
  w2 : Nat
  lit : Nat
deriving DecidableEq, Repr

namespace Raw

/-- The major opcode. -/
def op (r : Raw) : Nat := fld r.w0 2 6
/-- SR and SI fields. -/
def d (r : Raw) : Nat := fld r.w0 8 6
/-- The a field of SR, SI, SF, SM, AM. -/
def a (r : Raw) : Nat := fld r.w0 14 6
/-- The b field of SR and AM. -/
def b (r : Raw) : Nat := fld r.w0 20 6
/-- The fn field of SR. -/
def fn (r : Raw) : Nat := fld r.w0 26 6
/-- Extension word 1 (Table 3.5). -/
def e (r : Raw) : Nat := fld r.w1 0 6
/-- Queue flag of the d field. -/
def qd (r : Raw) : Bool := fld r.w1 6 1 == 1
/-- Queue flag of the a field. -/
def qa (r : Raw) : Bool := fld r.w1 7 1 == 1
/-- Queue flag of the b or c field. -/
def qc (r : Raw) : Bool := fld r.w1 8 1 == 1
/-- The extended mask flag. -/
def xm (r : Raw) : Bool := fld r.w1 9 1 == 1
/-- The extended mask number. -/
def xmn (r : Raw) : Nat := fld r.w1 10 3
/-- The immediate extension. -/
def ix (r : Raw) : Nat := fld r.w1 16 16

/-- The literal as a double. -/
def litW (r : Raw) : Word := BitVec.ofNat 64 r.lit

/-- A destination in field v. -/
def dst (r : Raw) (v : Nat) : Dst := if r.qd then .q v else .x v
/-- A destination in the a field, whose queue flag is qa (R210). -/
def dstA (r : Raw) (v : Nat) : Dst := if r.qa then .q v else .x v
/-- A source in a field that the qa flag governs. -/
def srcA (r : Raw) (v : Nat) : Src := if r.qa then .q v else .x v
/-- A source in a field that the qd flag governs. -/
def srcD (r : Raw) (v : Nat) : Src := if r.qd then .q v else .x v
/-- A source in a field that the qc flag governs and the literal never replaces. -/
def srcC (r : Raw) (v : Nat) : Src := if r.qc then .q v else .x v
/-- A source that the literal replaces, under the qc flag. -/
def srcB (r : Raw) (v : Nat) : Src := if r.form.hasLit then .imm r.litW else r.srcC v
/-- A source that the literal replaces, under the qa flag. -/
def srcAL (r : Raw) (v : Nat) : Src := if r.form.hasLit then .imm r.litW else r.srcA v

/-- A signed immediate with a k-bit field v in word 0 (R64, R65). -/
def immS (r : Raw) (k v : Nat) : Int :=
  match r.form with
  | .base => sx k v
  | .ext => sx (k + 16) (r.ix * 2 ^ k + v)
  | _ => sx 64 r.lit

/-- The governing mask (R63, R65). -/
def mask (r : Raw) : Mask := if r.xm then .xm r.xmn else if fld r.w0 29 3 = 0 then .none else .mk (fld r.w0 29 3)

/-- The c operand of format V under its form field (R62). -/
def vsrc (r : Raw) : VSrc :=
  match fld r.w0 8 2 with
  | 0 => .v (fld r.w0 21 6)
  | 1 => .s (r.srcB (fld r.w0 21 6))
  | _ => .i (sx 6 (fld r.w0 21 6))

/-- Operand records by format. -/
def r3 (r : Raw) : R3 := ⟨r.form, r.dst r.d, r.srcA r.a, r.srcB r.b⟩
/-- Destination and one source. -/
def r2 (r : Raw) : R2 := ⟨r.form, r.dst r.d, r.srcA r.a⟩
/-- Destination only. -/
def rd (r : Raw) : RD := ⟨r.form, r.dst r.d⟩
/-- One source. -/
def ra (r : Raw) : RA := ⟨r.form, r.srcA r.a⟩
/-- Two sources. -/
def rab (r : Raw) : RAB := ⟨r.form, r.srcA r.a, r.srcB r.b⟩
/-- Destination and xb. -/
def rb (r : Raw) : RB := ⟨r.form, r.dst r.d, r.srcB r.b⟩
/-- SI with an immediate. -/
def ri (r : Raw) : RI := ⟨r.form, r.dst r.d, r.srcA r.a, r.immS 12 (fld r.w0 20 12)⟩
/-- SF. -/
def bf (r : Raw) : BFo := ⟨r.form, r.dst r.d, r.srcA r.a, fld r.w0 20 6, fld r.w0 26 6⟩
/-- SB. -/
def br (r : Raw) : BRo := ⟨r.form, r.srcA (fld r.w0 11 6), r.srcC (fld r.w0 17 6), r.immS 9 (fld r.w0 23 9)⟩
/-- SQ. -/
def bq (r : Raw) : BQo := ⟨r.form, fld r.w0 8 3, r.immS 20 (fld r.w0 12 20)⟩
/-- Loads. -/
def ld (r : Raw) : LDo := ⟨r.form, r.dst r.d, r.srcA r.a, r.immS 9 (fld r.w0 23 9)⟩
/-- Stores. -/
def st (r : Raw) : STo := ⟨r.form, r.srcD r.d, r.srcA r.a, r.immS 9 (fld r.w0 23 9)⟩
/-- Queue inspection and the like. -/
def qp (r : Raw) : QPo := ⟨r.form, r.dst r.d, r.a⟩
/-- Token or status register and register or group. -/
def da (r : Raw) : DA := ⟨r.d, r.a⟩
/-- Barrier with a source. -/
def bb (r : Raw) : BBo := ⟨r.form, r.a, r.srcB r.b⟩
/-- Arrival. -/
def ba (r : Raw) : BAo := ⟨r.form, r.dst r.d, r.a, fld r.w0 20 1 == 1⟩
/-- RLSET. -/
def rl (r : Raw) : RLo := ⟨r.form, r.d, r.a, r.srcB r.b⟩
/-- Vector memory; sc is the scope of R180. -/
def vm (r : Raw) (sc : Scope) : VMo :=
  ⟨r.form, r.mask, fld r.w0 10 5, r.srcAL (fld r.w0 15 6), fld r.w0 21 6, sc⟩
/-- Binary vector. -/
def vv (r : Raw) : VVo := ⟨r.form, r.mask, fld r.w0 10 6, fld r.w0 16 5, r.vsrc⟩
/-- Unary vector. -/
def vu (r : Raw) : VUo := ⟨r.form, r.mask, fld r.w0 10 6, fld r.w0 16 5⟩
/-- Mask triple. -/
def m3 (r : Raw) : M3 := ⟨r.form, fld r.w0 10 6, fld r.w0 16 5, fld r.w0 21 6⟩
/-- Scalar destination and mask source. -/
def md (r : Raw) : MDo := ⟨r.form, r.mask, r.dst (fld r.w0 10 6), fld r.w0 16 5⟩
/-- Vector register in the a field and a number in the d field. -/
def vn (r : Raw) : VNo := ⟨r.form, r.mask, fld r.w0 16 5, fld r.w0 10 6⟩
/-- Destination in the a field of format TM. -/
def ts (r : Raw) : TSo := ⟨r.form, r.dstA (fld r.w0 15 6), fld r.w0 10 5⟩

end Raw

/-- Opcode 0x01 (Table 4.1). -/
def parse01 (r : Raw) : Option Instr :=
  match r.fn with
  | 0 => some (.add r.r3)
  | 1 => some (.sub r.r3)
  | 2 => some (.mul r.r3)
  | 3 => some (.mulh r.r3)
  | 4 => some (.mulhn r.r3)
  | 5 => some (.div r.r3)
  | 6 => some (.divn r.r3)
  | 7 => some (.rem r.r3)
  | 8 => some (.remn r.r3)
  | 9 => some (.and r.r3)
  | 10 => some (.or r.r3)
  | 11 => some (.xor r.r3)
  | 12 => some (.andn r.r3)
  | 13 => some (.shl r.r3)
  | 14 => some (.shr r.r3)
  | 15 => some (.sha r.r3)
  | 16 => some (.rot r.r3)
  | 17 => some (.min r.r3)
  | 18 => some (.max r.r3)
  | 19 => some (.minn r.r3)
  | 20 => some (.maxn r.r3)
  | 21 => some (.slt r.r3)
  | 22 => some (.sltn r.r3)
  | 23 => some (.clz r.r2) | 24 => some (.ctz r.r2) | 25 => some (.popc r.r2)
  | 26 => some (.sext r.r3) | 27 => some (.zext r.r3)
  | 32 => some (.addsh 1 r.r3)
  | 33 => some (.addsh 2 r.r3)
  | 34 => some (.addsh 3 r.r3)
  | 35 => some (.addsh 4 r.r3)
  | _ => none

/-- Opcode 0x06. -/
def parse06 (r : Raw) : Option Instr :=
  match fld r.w0 8 3 with
  | 0 => some (.beq r.br) | 1 => some (.bne r.br) | 2 => some (.blt r.br) | 3 => some (.bge r.br)
  | 4 => some (.bltn r.br) | 5 => some (.bgen r.br) | _ => none

/-- Opcode 0x07: J is JAL with d = 0 (R59). -/
def parse07 (r : Raw) : Option Instr :=
  if r.d = 0 ∧ r.qd = false then some (.j ⟨r.form, r.immS 18 (fld r.w0 14 18)⟩)
  else some (.jal ⟨r.form, r.dst r.d, r.immS 18 (fld r.w0 14 18)⟩)

/-- Opcode 0x0C. -/
def parse0C (r : Raw) : Option Instr :=
  match fld r.w0 20 3 with
  | 0 => some (.ldb r.ld) | 1 => some (.ldh r.ld) | 2 => some (.ldw r.ld) | 3 => some (.ldd r.ld)
  | 4 => some (.ldbn r.ld) | 5 => some (.ldhn r.ld) | 6 => some (.ldwn r.ld)
  | _ => some (.pref ⟨r.form, r.d, r.srcA r.a, r.immS 9 (fld r.w0 23 9)⟩)

/-- Opcode 0x0D. -/
def parse0D (r : Raw) : Option Instr :=
  match fld r.w0 20 3 with
  | 0 => some (.stb r.st) | 1 => some (.sth r.st) | 2 => some (.stw r.st) | 3 => some (.std r.st) | _ => none

/-- Opcodes 0x0F and 0x10 (format AM). -/
def parseAM (r : Raw) : Option Instr :=
  (Scope.ofCode (fld r.w0 29 3)).bind fun sc =>
    let o : AMo := ⟨r.form, sc, r.dst r.d, r.srcA r.a, r.srcB r.b⟩
    if r.op = 0x0F then
      match fld r.w0 26 3 with
      | 0 => some (.amoadd o) | 1 => some (.amoand o) | 2 => some (.amoor o) | 3 => some (.amoxor o)
      | 4 => some (.amomin o) | 5 => some (.amomax o) | 6 => some (.amominn o) | _ => some (.amomaxn o)
    else
      match fld r.w0 26 3 with
      | 0 => some (.amoswp o)
      | 1 => some (.amocas ⟨r.form, sc, r.d, r.srcA r.a, r.srcB r.b⟩)
      | 2 => some (.lda ⟨r.form, sc, r.dst r.d, r.srcA r.a⟩)
      | 3 => some (.stl ⟨r.form, sc, r.srcD r.d, r.srcA r.a⟩)
      | _ => none

/-- Opcode 0x11. -/
def parse11 (r : Raw) : Option Instr :=
  match r.fn with
  | 0 => (Scope.ofCode r.a).map fun sc =>
      .fence ⟨r.form, sc, fld r.w0 8 1 == 1, fld r.w0 9 1 == 1, fld r.w0 10 1 == 1, fld r.w0 11 1 == 1, fld r.w0 12 1 == 1⟩
  | 1 => (Scope.ofCode r.a).map fun sc => .vsync r.form sc
  | 2 => some (.bari r.bb) | 3 => some (.bara r.ba) | 4 => some (.barw r.bb) | 5 => some (.barr r.ba)
  | 6 => some (.barx r.bb)
  | 7 => some (.waitm ⟨r.form, r.dst r.d, r.srcA r.a, r.srcB r.b, r.e⟩)
  | _ => none

/-- Opcode 0x12. -/
def parse12 (r : Raw) : Option Instr :=
  match r.fn with
  | 0 => some (.trap r.ra) | 1 => some (.eret r.form) | 2 => some (.idle r.r2) | 3 => some (.rdgtc r.rd)
  | 4 => some (.feat r.r2) | 5 => some (.yield r.form) | 6 => some (.gexit r.ra) | _ => none

/-- Opcode 0x17. -/
def parse17 (r : Raw) : Option Instr :=
  match r.fn with
  | 0 => some (.tlbinv r.rab) | 1 => some (.cinv r.rab) | 2 => some (.cwb r.rab)
  | 3 => some (.keyz r.da) | 4 => some (.scrub r.da) | 5 => some (.rlsetWriteEntry r.rl) | _ => none

/-- Opcode 0x19. -/
def parse19 (r : Raw) : Option Instr :=
  match r.fn with
  | 0 => some (.cpya r.da) | 1 => some (.cpyw r.da) | 2 => some (.cpyx r.da) | 3 => some (.gath r.da)
  | 4 => some (.scred r.da) | 5 => some (.epush ⟨r.form, r.d, r.srcA r.a⟩) | 6 => some (.epop r.qp)
  | 7 => some (.fwalk r.da) | 8 => some (.stmap r.da) | 9 => some (.stunmap r.da) | 10 => some (.stflush r.da)
  | _ => none

/-- Opcode 0x1A. -/
def parse1A (r : Raw) : Option Instr :=
  match r.fn with
  | 0 => some (.shinit r.d r.a) | 1 => some (.shclr r.d) | 2 => some (.shcnt r.qp)
  | 3 => some (.cmarm r.form r.d r.a) | 4 => some (.cmref ⟨r.form, r.d, r.srcA r.a⟩)
  | 5 => some (.cmchk r.form r.d (fld r.w0 20 1 == 1)) | 6 => some (.cmrd ⟨r.form, r.dst r.d, r.a, r.srcB r.b⟩)
  | 7 => some (.cmoff r.form r.d) | 8 => some (.stepa r.da) | 9 => some (.stepo r.da)
  | 10 => some (.epver r.r2) | 11 => some (.epret r.r2) | 12 => some (.scommit r.ra) | 13 => some (.sabort r.form)
  | _ => none

/-- Opcode 0x20. -/
def parse20 (r : Raw) : Option Instr :=
  match r.fn with
  | 0 => some (.vsetl r.rb) | 1 => some (.vsett r.rb) | 2 => some (.vsetm r.r3) | 3 => some (.vgetg r.rd) | _ => none

/-- The scope that word 2 gives a vector load (R180). -/
def loadScope (w2 : Nat) : Option Scope :=
  match w2 with
  | 0 => some .floor | 4 => some .dev | 5 => some .sys | _ => none

/-- Opcode 0x21. -/
def parse21 (r : Raw) : Option Instr :=
  (loadScope r.w2).bind fun sc =>
    match fld r.w0 8 2, fld r.w0 27 2 with
    | 3, 0 => some (.vld (r.vm sc)) | 3, 1 => some (.vldf (r.vm sc)) | 3, 2 => some (.vldh (r.vm sc))
    | 1, 0 => some (.vlds (r.vm sc)) | 0, 0 => some (.vldx (r.vm sc)) | _, _ => none

/-- Opcode 0x22. -/
def parse22 (r : Raw) : Option Instr :=
  match fld r.w0 8 2, fld r.w0 27 2 with
  | 3, 0 => some (.vst (r.vm .floor)) | 3, 1 => some (.vstq (r.vm .floor)) | 3, 2 => some (.vsth (r.vm .floor))
  | 1, 0 => some (.vsts (r.vm .floor)) | 0, 0 => some (.vstx (r.vm .floor)) | 0, 1 => some (.vstxo (r.vm .floor))
  | _, _ => none

/-- Opcode 0x23. -/
def parse23 (r : Raw) : Option Instr :=
  match fld r.w0 27 2, fld r.w0 8 2 with
  | 0, 0 => some (.vadd r.vv) | 0, 1 => some (.vadd r.vv) | 0, 2 => some (.vadd r.vv)
  | 1, 0 => some (.vsub r.vv) | 1, 1 => some (.vsub r.vv) | 1, 2 => some (.vsub r.vv)
  | 2, 0 => some (.vmul r.vv) | 2, 1 => some (.vmul r.vv) | 2, 2 => some (.vmul r.vv)
  | 3, 0 => some (.vmulh r.vv) | 3, 1 => some (.vmulh r.vv) | 3, 2 => some (.vmulh r.vv)
  | _, _ => none

/-- Opcode 0x24. -/
def parse24 (r : Raw) : Option Instr :=
  match fld r.w0 27 2, fld r.w0 8 2 with
  | 0, 0 => some (.vmac r.vv) | 0, 1 => some (.vmac r.vv) | 0, 2 => some (.vmac r.vv)
  | 1, 0 => some (.vmin r.vv) | 1, 1 => some (.vmin r.vv) | 1, 2 => some (.vmin r.vv)
  | 2, 0 => some (.vmax r.vv) | 2, 1 => some (.vmax r.vv) | 2, 2 => some (.vmax r.vv)
  | 3, 0 => some (.vminn r.vv) | 3, 1 => some (.vminn r.vv) | 3, 2 => some (.vminn r.vv)
  | _, _ => none

/-- Opcode 0x25. -/
def parse25 (r : Raw) : Option Instr :=
  match fld r.w0 27 2, fld r.w0 8 2 with
  | 0, 0 => some (.vmaxn r.vv) | 0, 1 => some (.vmaxn r.vv) | 0, 2 => some (.vmaxn r.vv)
  | 1, 0 => some (.vand r.vv) | 1, 1 => some (.vand r.vv) | 1, 2 => some (.vand r.vv)
  | 2, 0 => some (.vor r.vv) | 2, 1 => some (.vor r.vv) | 2, 2 => some (.vor r.vv)
  | 3, 0 => some (.vxor r.vv) | 3, 1 => some (.vxor r.vv) | 3, 2 => some (.vxor r.vv)
  | _, _ => none

/-- Opcode 0x26. -/
def parse26 (r : Raw) : Option Instr :=
  match fld r.w0 27 2, fld r.w0 8 2 with
  | 0, 0 => some (.vshl r.vv) | 0, 1 => some (.vshl r.vv) | 0, 2 => some (.vshl r.vv)
  | 1, 0 => some (.vshr r.vv) | 1, 1 => some (.vshr r.vv) | 1, 2 => some (.vshr r.vv)
  | 2, 0 => some (.vsha r.vv) | 2, 1 => some (.vsha r.vv) | 2, 2 => some (.vsha r.vv)
  | 3, 3 => some (.vabs r.vu)
  | _, _ => none

/-- Opcode 0x27. -/
def parse27 (r : Raw) : Option Instr :=
  match fld r.w0 27 2, fld r.w0 8 2 with
  | 0, 0 => some (.vsadd r.vv) | 0, 1 => some (.vsadd r.vv) | 0, 2 => some (.vsadd r.vv)
  | 1, 0 => some (.vssub r.vv) | 1, 1 => some (.vssub r.vv) | 1, 2 => some (.vssub r.vv)
  | _, _ => none

/-- Opcode 0x28. -/
def parse28 (r : Raw) : Option Instr :=
  match fld r.w0 27 2, fld r.w0 8 2 with
  | 0, 0 => some (.vfadd r.vv) | 0, 1 => some (.vfadd r.vv) | 0, 2 => some (.vfadd r.vv)
  | 1, 0 => some (.vfsub r.vv) | 1, 1 => some (.vfsub r.vv) | 1, 2 => some (.vfsub r.vv)
  | 2, 0 => some (.vfmul r.vv) | 2, 1 => some (.vfmul r.vv) | 2, 2 => some (.vfmul r.vv)
  | 3, 0 => some (.vfma r.vv) | 3, 1 => some (.vfma r.vv) | 3, 2 => some (.vfma r.vv)
  | _, _ => none

/-- Opcode 0x29. -/
def parse29 (r : Raw) : Option Instr :=
  match fld r.w0 27 2, fld r.w0 8 2 with
  | 0, 0 => some (.vfnma r.vv) | 0, 1 => some (.vfnma r.vv) | 0, 2 => some (.vfnma r.vv)
  | 1, 0 => some (.vfdiv r.vv) | 1, 1 => some (.vfdiv r.vv) | 1, 2 => some (.vfdiv r.vv)
  | 2, 0 => some (.vfmin r.vv) | 2, 1 => some (.vfmin r.vv) | 2, 2 => some (.vfmin r.vv)
  | 3, 0 => some (.vfmax r.vv) | 3, 1 => some (.vfmax r.vv) | 3, 2 => some (.vfmax r.vv)
  | _, _ => none

/-- Opcode 0x2A. -/
def parse2A (r : Raw) : Option Instr :=
  match fld r.w0 27 2, fld r.w0 8 2 with
  | 0, 3 => some (.vfsqrt r.vu)
  | 1, 3 => some (.vfrece r.vu)
  | 2, 3 => some (.vfabs r.vu)
  | 3, 3 => some (.vfneg r.vu)
  | _, _ => none

/-- Opcode 0x2B. -/
def parse2B (r : Raw) : Option Instr :=
  match fld r.w0 27 2, fld r.w0 8 2 with
  | 0, 3 => some (.vfclass r.vu)
  | 1, 3 => some (.vfexp2 r.vu)
  | 2, 3 => some (.vfrcpp ⟨r.form, r.mask, fld r.w0 10 6, fld r.w0 16 5, fld r.w0 21 6⟩)
  | _, _ => none

/-- Opcode 0x2C (R68): the condition lies in d[15:13]. -/
def parse2C (r : Raw) : Option Instr :=
  if fld r.w0 8 2 = 3 then none else
  match fld r.w0 27 2 with
  | 0 => (ICond.ofCode (fld r.w0 13 3)).map fun k =>
      .vcmp ⟨r.form, r.mask, k, fld r.w0 10 3, fld r.w0 16 5, r.vsrc⟩
  | 1 => (FCond.ofCode (fld r.w0 13 3)).map fun k =>
      .vfcmp ⟨r.form, r.mask, k, fld r.w0 10 3, fld r.w0 16 5, r.vsrc⟩
  | _ => none

/-- Opcode 0x2D. -/
def parse2D (r : Raw) : Option Instr :=
  match fld r.w0 27 2, fld r.w0 8 2 with
  | 0, 0 => some (.mand r.m3) | 1, 0 => some (.mor r.m3) | 2, 0 => some (.mxor r.m3)
  | 3, 3 => some (.mnot r.form (fld r.w0 10 6) (fld r.w0 16 5)) | _, _ => none

/-- Opcode 0x2E. -/
def parse2E (r : Raw) : Option Instr :=
  match fld r.w0 27 2, fld r.w0 8 2 with
  | 0, 3 => some (.mpopc r.md) | 1, 3 => some (.mfirst r.md)
  | 2, 1 => some (.vmset ⟨r.form, fld r.w0 10 6, r.vsrc⟩) | 2, 2 => some (.vmset ⟨r.form, fld r.w0 10 6, r.vsrc⟩)
  | 3, 3 => some (.viota r.vu) | _, _ => none

/-- Opcode 0x2F (R67): c[25:21] names the type, c[26] is the chain bit. -/
def parse2F (r : Raw) : Option Instr :=
  if fld r.w0 8 2 ≠ 3 then none else
  (Ty.ofCode (fld r.w0 21 5)).bind fun ty =>
    let o : VTo := ⟨r.form, r.mask, fld r.w0 10 6, fld r.w0 16 5, ty⟩
    match fld r.w0 27 2, fld r.w0 26 1 with
    | 0, 0 => some (.vcvt o) | 1, 0 => some (.vnarrow o) | 1, 1 => some (.vnarrowChain o)
    | 2, 0 => some (.vftoi o) | 3, 0 => some (.vitof o) | _, _ => none

/-- Opcode 0x30. -/
def parse30 (r : Raw) : Option Instr :=
  match fld r.w0 27 2, fld r.w0 8 2 with
  | 0, 1 => some (.vslideup r.vv) | 0, 2 => some (.vslideup r.vv)
  | 1, 1 => some (.vslidedn r.vv) | 1, 2 => some (.vslidedn r.vv)
  | 2, 0 => some (.vperm r.vv) | 3, 3 => some (.vcompr r.vu) | _, _ => none

/-- Opcode 0x31. -/
def parse31 (r : Raw) : Option Instr :=
  match fld r.w0 27 2, fld r.w0 8 2 with
  | 0, 3 => some (.vexpand r.vu)
  | 1, 3 => some (.vidxc ⟨r.form, r.mask, fld r.w0 10 6, fld r.w0 21 6⟩)
  | 2, 1 => some (.vbcast ⟨r.form, r.mask, fld r.w0 10 6, r.vsrc⟩)
  | 2, 2 => some (.vbcast ⟨r.form, r.mask, fld r.w0 10 6, r.vsrc⟩)
  | 3, 1 => some (.vextr ⟨r.form, r.dst (fld r.w0 10 6), fld r.w0 16 5, r.vsrc⟩)
  | 3, 2 => some (.vextr ⟨r.form, r.dst (fld r.w0 10 6), fld r.w0 16 5, r.vsrc⟩)
  | _, _ => none

/-- Opcode 0x32. -/
def parse32 (r : Raw) : Option Instr :=
  match fld r.w0 27 2, fld r.w0 8 2 with
  | 0, 1 => some (.vins ⟨r.form, fld r.w0 10 6, r.srcB (fld r.w0 21 6), r.e⟩)
  | 1, 1 => some (.stxs r.vv) | 1, 2 => some (.stxs r.vv)
  | 2, 1 => some (.stxw r.vv) | 2, 2 => some (.stxw r.vv) | _, _ => none

/-- Opcode 0x33. -/
def parse33 (r : Raw) : Option Instr :=
  match fld r.w0 27 2, fld r.w0 8 2 with
  | 0, 0 => some (.vredadd r.vv) | 1, 0 => some (.vredaddo r.vv)
  | 2, 0 => some (.vredmax r.vv) | 3, 0 => some (.vredmin r.vv) | _, _ => none

/-- Opcode 0x34. -/
def parse34 (r : Raw) : Option Instr :=
  match fld r.w0 27 2, fld r.w0 8 2 with
  | 0, 0 => some (.vfredadd r.vv) | 1, 0 => some (.vfredaddo r.vv)
  | 2, 0 => some (.vfredmax r.vv) | 3, 0 => some (.vfredmin r.vv) | _, _ => none

/-- Opcode 0x35. -/
def parse35 (r : Raw) : Option Instr :=
  match fld r.w0 27 2, fld r.w0 8 2 with
  | 0, 1 => some (.afdef ⟨r.form, r.mask, fld r.w0 16 5, fld r.w0 10 6, r.vsrc⟩)
  | 0, 2 => some (.afdef ⟨r.form, r.mask, fld r.w0 16 5, fld r.w0 10 6, r.vsrc⟩)
  | 1, 1 => some (.afpop ⟨r.form, fld r.w0 10 6, fld r.w0 16 5, r.vsrc⟩)
  | 1, 2 => some (.afpop ⟨r.form, fld r.w0 10 6, fld r.w0 16 5, r.vsrc⟩)
  | 2, 1 => some (.afcnt ⟨r.form, r.dst (fld r.w0 10 6), some r.vsrc⟩)
  | 2, 2 => some (.afcnt ⟨r.form, r.dst (fld r.w0 10 6), some r.vsrc⟩)
  | 2, 3 => some (.afcnt ⟨r.form, r.dst (fld r.w0 10 6), none⟩)
  | 3, 3 => some (.epopv ⟨r.form, r.mask, fld r.w0 10 6, fld r.w0 16 5⟩)
  | _, _ => none

/-- Opcode 0x36. -/
def parse36 (r : Raw) : Option Instr :=
  match fld r.w0 27 2, fld r.w0 8 2 with
  | 0, 3 => some (.shpush r.vn) | 1, 3 => some (.shins r.vn)
  | 2, 3 => some (.shpopb r.form (fld r.w0 10 6) (fld r.w0 16 5)) | _, _ => none

/-- Opcode 0x37 (Table 8.6). -/
def parse37 (r : Raw) : Option Instr :=
  let a := fld r.w0 15 6
  let t := fld r.w0 10 5
  let ca := fld r.w0 8 1 == 1
  let cb := fld r.w0 9 1 == 1
  match fld r.w0 27 5 with
  | 0 => some (.tmatt ⟨r.form, r.dstA a, r.srcB (fld r.w0 21 6)⟩)
  | 1 => some (.tmdet r.form)
  | 2 => some (.tmalg ⟨r.form, r.srcA a⟩)
  | 3 => some (.tmalgs ⟨r.form, r.srcA a⟩)
  | 4 => some (.tmzero r.form t)
  | 5 => some (.tmop ⟨r.form, t, a, r.e, r.srcB (fld r.w0 21 6), ca, cb⟩)
  | 6 => some (.tmrun ⟨r.form, t, a, ca, cb⟩)
  | 7 => some (.tmrd ⟨r.form, t, a, r.srcB (fld r.w0 21 6), r.e⟩)
  | 8 => some (.tmwr ⟨r.form, t, a, r.srcB (fld r.w0 21 6)⟩)
  | 9 => some (.tmwait r.ts)
  | 10 => some (.tmstat r.ts)
  | _ => none

/-- The opcode map (Table 3.7). -/
def parse (r : Raw) : Option Instr :=
  match r.op with
  | 0x01 => parse01 r
  | 0x02 => some (.addi r.ri)
  | 0x03 => some (.li ⟨r.form, r.dst r.d, r.immS 18 (fld r.w0 14 18)⟩)
  | 0x04 => some (.bfx r.bf)
  | 0x05 => some (.bfi r.bf)
  | 0x06 => parse06 r
  | 0x07 => parse07 r
  | 0x08 => some (.jr r.ri)
  | 0x09 => match r.fn with
    | 0 => some (.jtab r.r3)
    | 1 => some (.loopbrk r.form)
    | _ => none
  | 0x0A => some (.loop ⟨r.form, fld r.w0 8 2, r.srcAL (fld r.w0 10 6),
      (if r.form.hasExt then r.ix * 2 ^ 16 else 0) + fld r.w0 16 16⟩)
  | 0x0B => if fld r.w0 11 1 = 0 then some (.brqNz r.bq) else some (.brqZ r.bq)
  | 0x0C => parse0C r
  | 0x0D => parse0D r
  | 0x0E => match r.fn with
    | 0 => some (.qpeek r.qp)
    | 1 => some (.qcnt r.qp)
    | _ => none
  | 0x0F => parseAM r
  | 0x10 => parseAM r
  | 0x11 => parse11 r
  | 0x12 => parse12 r
  | 0x13 => some (.gets ⟨r.form, r.dst r.d, fld r.w0 20 12⟩)
  | 0x14 => some (.sets ⟨r.form, r.srcA r.a, fld r.w0 20 12⟩)
  | 0x15 => some (.swaps ⟨r.form, r.dst r.d, r.srcA r.a, fld r.w0 20 12⟩)
  | 0x16 => some (.mod ⟨fld r.w0 8 3, fld r.w0 11 2, fld r.w0 13 1 == 1⟩)
  | 0x17 => parse17 r
  | 0x18 => match r.fn with
    | 0 => some (.launch r.da)
    | 1 => some (.launchi r.da)
    | _ => none
  | 0x19 => parse19 r
  | 0x1A => parse1A r
  | 0x20 => parse20 r
  | 0x21 => parse21 r
  | 0x22 => parse22 r
  | 0x23 => parse23 r
  | 0x24 => parse24 r
  | 0x25 => parse25 r
  | 0x26 => parse26 r
  | 0x27 => parse27 r
  | 0x28 => parse28 r
  | 0x29 => parse29 r
  | 0x2A => parse2A r
  | 0x2B => parse2B r
  | 0x2C => parse2C r
  | 0x2D => parse2D r
  | 0x2E => parse2E r
  | 0x2F => parse2F r
  | 0x30 => parse30 r
  | 0x31 => parse31 r
  | 0x32 => parse32 r
  | 0x33 => parse33 r
  | 0x34 => parse34 r
  | 0x35 => parse35 r
  | 0x36 => parse36 r
  | 0x37 => parse37 r
  | _ => none

/-! ### The encoder -/

/-- The words of an instruction in form f: word 0 without its length field, extension words, literal (Table 3.1). -/
def asm (f : Form) (w0 w1 w2 lit : Nat) : List Nat :=
  match f with
  | .base => [w0]
  | .lit => [w0 + 1, lit % 2 ^ 32, lit / 2 ^ 32]
  | .ext => [w0 + 2, w1, w2]
  | .long => [w0 + 3, w1, w2, lit % 2 ^ 32, lit / 2 ^ 32]

/-- Field value of a source. -/
def Src.num : Src → Nat
  | .x r => r
  | .q n => n
  | .imm _ => 0
/-- Queue flag of a source. -/
def Src.flag : Src → Nat
  | .q _ => 1
  | _ => 0
/-- Literal of a source. -/
def Src.lit : Src → Nat
  | .imm v => v.toNat
  | _ => 0
/-- Field value of a destination. -/
def Dst.num : Dst → Nat
  | .x r => r
  | .q n => n
/-- Queue flag of a destination. -/
def Dst.flag : Dst → Nat
  | .q _ => 1
  | _ => 0

/-- Extension word 1 (Table 3.5). -/
def ext1 (ix xmn xm qc qa qd e : Nat) : Nat := ix * 65536 + xmn * 1024 + xm * 512 + qc * 256 + qa * 128 + qd * 64 + e

/-- Word 0 of format SR. -/
def w0SR (op fn b a d : Nat) : Nat := fn * 67108864 + b * 1048576 + a * 16384 + d * 256 + op * 4

/-- The word 0 field of a signed immediate of k bits. -/
def immField (f : Form) (k : Nat) (v : Int) : Nat :=
  match f with
  | .base => unsx k v
  | .ext => unsx (k + 16) v % 2 ^ k
  | _ => 0
/-- Its extension. -/
def immIx (f : Form) (k : Nat) (v : Int) : Nat :=
  match f with
  | .ext => unsx (k + 16) v / 2 ^ k
  | _ => 0
/-- Its literal. -/
def immLit (f : Form) (v : Int) : Nat := if f.hasLit then unsx 64 v else 0

/-- The mk field, xm bit and xmn field of a mask. -/
def Mask.mkField : Mask → Nat
  | .mk n => n
  | _ => 0
/-- The xm bit. -/
def Mask.xmBit : Mask → Nat
  | .xm _ => 1
  | _ => 0
/-- The xmn field. -/
def Mask.xmnField : Mask → Nat
  | .xm n => n
  | _ => 0

/-- Form field, c field, qc flag and literal of a V operand. -/
def VSrc.fm : VSrc → Nat
  | .v _ => 0
  | .s _ => 1
  | .i _ => 2
/-- The c field. -/
def VSrc.cField : VSrc → Nat
  | .v r => r
  | .s x => x.num
  | .i c => unsx 6 c
/-- The qc flag. -/
def VSrc.flag : VSrc → Nat
  | .s x => x.flag
  | _ => 0
/-- The literal. -/
def VSrc.lit : VSrc → Nat
  | .s x => x.lit
  | _ => 0

/-- Word 0 of format V. -/
def w0V (op fn mk c a d fm : Nat) : Nat :=
  mk * 536870912 + fn * 134217728 + c * 2097152 + a * 65536 + d * 1024 + fm * 256 + op * 4
/-- Word 0 of format VM. -/
def w0VM (op fn mk c a v fm : Nat) : Nat :=
  mk * 536870912 + fn * 134217728 + c * 2097152 + a * 32768 + v * 1024 + fm * 256 + op * 4
/-- Word 0 of format TM. -/
def w0TM (fn b a t ca cb : Nat) : Nat := fn * 134217728 + b * 2097152 + a * 32768 + t * 1024 + cb * 512 + ca * 256 + 0xDC

/-- Words of three-operand SR instructions. -/
def R3.enc (op fn : Nat) (o : R3) : List Nat :=
  asm o.form (w0SR op fn o.b.num o.a.num o.d.num) (ext1 0 0 0 o.b.flag o.a.flag o.d.flag 0) 0 o.b.lit
/-- Words of two-operand SR instructions. -/
def R2.enc (op fn : Nat) (o : R2) : List Nat :=
  asm o.form (w0SR op fn 0 o.a.num o.d.num) (ext1 0 0 0 0 o.a.flag o.d.flag 0) 0 0
/-- Destination only. -/
def RD.enc (op fn : Nat) (o : RD) : List Nat := asm o.form (w0SR op fn 0 0 o.d.num) (ext1 0 0 0 0 0 o.d.flag 0) 0 0
/-- Source only. -/
def RA.enc (op fn : Nat) (o : RA) : List Nat := asm o.form (w0SR op fn 0 o.a.num 0) (ext1 0 0 0 0 o.a.flag 0 0) 0 0
/-- Two sources. -/
def RAB.enc (op fn : Nat) (o : RAB) : List Nat :=
  asm o.form (w0SR op fn o.b.num o.a.num 0) (ext1 0 0 0 o.b.flag o.a.flag 0 0) 0 o.b.lit
/-- Destination and xb. -/
def RB.enc (op fn : Nat) (o : RB) : List Nat :=
  asm o.form (w0SR op fn o.b.num 0 o.d.num) (ext1 0 0 0 o.b.flag 0 o.d.flag 0) 0 o.b.lit
/-- SI with a signed immediate. -/
def RI.enc (op : Nat) (o : RI) : List Nat :=
  asm o.form (immField o.form 12 o.imm * 1048576 + o.a.num * 16384 + o.d.num * 256 + op * 4)
    (ext1 (immIx o.form 12 o.imm) 0 0 0 o.a.flag o.d.flag 0) 0 (immLit o.form o.imm)
/-- SF. -/
def BFo.enc (op : Nat) (o : BFo) : List Nat :=
  asm o.form (o.len1 * 67108864 + o.pos * 1048576 + o.a.num * 16384 + o.d.num * 256 + op * 4)
    (ext1 0 0 0 0 o.a.flag o.d.flag 0) 0 0
/-- SB. -/
def BRo.enc (cond : Nat) (o : BRo) : List Nat :=
  asm o.form (immField o.form 9 o.off * 8388608 + o.b.num * 131072 + o.a.num * 2048 + cond * 256 + 0x06 * 4)
    (ext1 (immIx o.form 9 o.off) 0 0 o.b.flag o.a.flag 0 0) 0 (immLit o.form o.off)
/-- SJ. -/
def encJ (f : Form) (d : Dst) (off : Int) : List Nat :=
  asm f (immField f 18 off * 16384 + d.num * 256 + 0x07 * 4) (ext1 (immIx f 18 off) 0 0 0 0 d.flag 0) 0 (immLit f off)
/-- SQ. -/
def BQo.enc (s : Nat) (o : BQo) : List Nat :=
  asm o.form (immField o.form 20 o.off * 4096 + s * 2048 + o.q * 256 + 0x0B * 4)
    (ext1 (immIx o.form 20 o.off) 0 0 0 0 0 0) 0 (immLit o.form o.off)
/-- SM. -/
def encSM (op k : Nat) (f : Form) (dn df : Nat) (a : Src) (off : Int) : List Nat :=
  asm f (immField f 9 off * 8388608 + k * 1048576 + a.num * 16384 + dn * 256 + op * 4)
    (ext1 (immIx f 9 off) 0 0 0 a.flag df 0) 0 (immLit f off)
/-- Loads. -/
def LDo.enc (k : Nat) (o : LDo) : List Nat := encSM 0x0C k o.form o.d.num o.d.flag o.a o.off
/-- Stores. -/
def STo.enc (k : Nat) (o : STo) : List Nat := encSM 0x0D k o.form o.d.num o.d.flag o.a o.off
/-- A number in the a field. -/
def QPo.enc (op fn : Nat) (o : QPo) : List Nat :=
  asm o.form (w0SR op fn 0 o.q o.d.num) (ext1 0 0 0 0 0 o.d.flag 0) 0 0
/-- AM. -/
def encAM (op k : Nat) (f : Form) (sc : Scope) (dn df : Nat) (a b : Src) : List Nat :=
  asm f (sc.code * 536870912 + k * 67108864 + b.num * 1048576 + a.num * 16384 + dn * 256 + op * 4)
    (ext1 0 0 0 b.flag a.flag df 0) 0 b.lit
/-- Atomics. -/
def AMo.enc (op k : Nat) (o : AMo) : List Nat := encAM op k o.form o.sc o.d.num o.d.flag o.a o.b
/-- Barrier with a source. -/
def BBo.enc (fn : Nat) (o : BBo) : List Nat :=
  asm o.form (w0SR 0x11 fn o.b.num o.n 0) (ext1 0 0 0 o.b.flag 0 0 0) 0 o.b.lit
/-- Arrivals. -/
def BAo.enc (fn : Nat) (o : BAo) : List Nat :=
  asm o.form (w0SR 0x11 fn o.chk.toNat o.n o.d.num) (ext1 0 0 0 0 0 o.d.flag 0) 0 0
/-- Base-form pairs. -/
def DA.enc (op fn : Nat) (o : DA) : List Nat := [w0SR op fn 0 o.a o.d]
/-- RLSET. -/
def RLo.enc (o : RLo) : List Nat :=
  asm o.form (w0SR 0x17 5 o.b.num o.a o.d) (ext1 0 0 0 o.b.flag 0 0 0) 0 o.b.lit
/-- Vector memory. -/
def VMo.enc (op fn fm : Nat) (o : VMo) : List Nat :=
  asm o.form (w0VM op fn o.mask.mkField o.c o.a.num o.v fm) (ext1 0 o.mask.xmnField o.mask.xmBit 0 o.a.flag 0 0)
    (if o.sc = .floor then 0 else o.sc.code) o.a.lit
/-- Format V with a c operand. -/
def encV (op fn : Nat) (f : Form) (m : Mask) (d a : Nat) (c : VSrc) (df : Nat) : List Nat :=
  asm f (w0V op fn m.mkField c.cField a d c.fm) (ext1 0 m.xmnField m.xmBit c.flag 0 df 0) 0 c.lit
/-- Binary vector. -/
def VVo.enc (op fn : Nat) (o : VVo) : List Nat := encV op fn o.form o.mask o.d o.a o.c 0
/-- Form 11 with a plain c field. -/
def encU (op fn : Nat) (f : Form) (m : Mask) (d a c df : Nat) : List Nat :=
  asm f (w0V op fn m.mkField c a d 3) (ext1 0 m.xmnField m.xmBit 0 0 df 0) 0 0
/-- Unary vector. -/
def VUo.enc (op fn : Nat) (o : VUo) : List Nat := encU op fn o.form o.mask o.d o.a 0 0
/-- Conversions. -/
def VTo.enc (fn chain : Nat) (o : VTo) : List Nat := encU 0x2F fn o.form o.mask o.d o.a (chain * 32 + o.ty.code) 0
/-- TMWAIT and TMSTAT. -/
def TSo.enc (fn : Nat) (o : TSo) : List Nat :=
  asm o.form (w0TM fn 0 o.d.num o.t 0 0) (ext1 0 0 0 0 o.d.flag 0 0) 0 0

/-- The words of a well-formed instruction; no words for anything that has no encoding. -/
def encode : Instr → List Nat
  | .add o => o.enc 0x01 0
  | .sub o => o.enc 0x01 1
  | .mul o => o.enc 0x01 2
  | .mulh o => o.enc 0x01 3
  | .mulhn o => o.enc 0x01 4
  | .div o => o.enc 0x01 5
  | .divn o => o.enc 0x01 6
  | .rem o => o.enc 0x01 7
  | .remn o => o.enc 0x01 8
  | .and o => o.enc 0x01 9
  | .or o => o.enc 0x01 10
  | .xor o => o.enc 0x01 11
  | .andn o => o.enc 0x01 12
  | .shl o => o.enc 0x01 13
  | .shr o => o.enc 0x01 14
  | .sha o => o.enc 0x01 15
  | .rot o => o.enc 0x01 16
  | .min o => o.enc 0x01 17
  | .max o => o.enc 0x01 18
  | .minn o => o.enc 0x01 19
  | .maxn o => o.enc 0x01 20
  | .slt o => o.enc 0x01 21
  | .sltn o => o.enc 0x01 22
  | .clz o => o.enc 0x01 23
  | .ctz o => o.enc 0x01 24
  | .popc o => o.enc 0x01 25
  | .sext o => o.enc 0x01 26
  | .zext o => o.enc 0x01 27
  | .addsh k o => o.enc 0x01 (31 + k)
  | .addi o => o.enc 0x02
  | .li o => asm o.form (immField o.form 18 o.imm * 16384 + o.d.num * 256 + 0x03 * 4)
      (ext1 (immIx o.form 18 o.imm) 0 0 0 0 o.d.flag 0) 0 (immLit o.form o.imm)
  | .bfx o => o.enc 0x04
  | .bfi o => o.enc 0x05
  | .beq o => o.enc 0
  | .bne o => o.enc 1
  | .blt o => o.enc 2
  | .bge o => o.enc 3
  | .bltn o => o.enc 4
  | .bgen o => o.enc 5
  | .jal o => encJ o.form o.d o.off
  | .j o => encJ o.form (.x 0) o.off
  | .jr o => o.enc 0x08
  | .jtab o => o.enc 0x09 0
  | .loopbrk f => asm f (w0SR 0x09 1 0 0 0) 0 0 0
  | .loop o => asm o.form (o.stop % 65536 * 65536 + o.a.num * 1024 + o.lc * 256 + 0x0A * 4)
      (ext1 (o.stop / 65536) 0 0 0 o.a.flag 0 0) 0 o.a.lit
  | .brqNz o => o.enc 0
  | .brqZ o => o.enc 1
  | .ldb o => o.enc 0
  | .ldh o => o.enc 1
  | .ldw o => o.enc 2
  | .ldd o => o.enc 3
  | .ldbn o => o.enc 4
  | .ldhn o => o.enc 5
  | .ldwn o => o.enc 6
  | .pref o => encSM 0x0C 7 o.form o.hint 0 o.a o.off
  | .stb o => o.enc 0
  | .sth o => o.enc 1
  | .stw o => o.enc 2
  | .std o => o.enc 3
  | .qpeek o => o.enc 0x0E 0
  | .qcnt o => o.enc 0x0E 1
  | .amoadd o => o.enc 0x0F 0
  | .amoand o => o.enc 0x0F 1
  | .amoor o => o.enc 0x0F 2
  | .amoxor o => o.enc 0x0F 3
  | .amomin o => o.enc 0x0F 4
  | .amomax o => o.enc 0x0F 5
  | .amominn o => o.enc 0x0F 6
  | .amomaxn o => o.enc 0x0F 7
  | .amoswp o => o.enc 0x10 0
  | .amocas o => encAM 0x10 1 o.form o.sc o.d 0 o.a o.b
  | .lda o => encAM 0x10 2 o.form o.sc o.d.num o.d.flag o.a (.x 0)
  | .stl o => encAM 0x10 3 o.form o.sc o.d.num o.d.flag o.a (.x 0)
  | .fence o => asm o.form (w0SR 0x11 0 0 o.sc.code
      (o.pr.toNat + o.pw.toNat * 2 + o.sr.toNat * 4 + o.sw.toNat * 8 + o.eng.toNat * 16)) 0 0 0
  | .vsync f sc => asm f (w0SR 0x11 1 0 sc.code 0) 0 0 0
  | .bari o => o.enc 2
  | .bara o => o.enc 3
  | .barw o => o.enc 4
  | .barr o => o.enc 5
  | .barx o => o.enc 6
  | .waitm o => asm o.form (w0SR 0x11 7 o.b.num o.a.num o.d.num) (ext1 0 0 0 o.b.flag o.a.flag o.d.flag o.e) 0 o.b.lit
  | .trap o => o.enc 0x12 0
  | .eret f => asm f (w0SR 0x12 1 0 0 0) 0 0 0
  | .idle o => o.enc 0x12 2
  | .rdgtc o => o.enc 0x12 3
  | .feat o => o.enc 0x12 4
  | .yield f => asm f (w0SR 0x12 5 0 0 0) 0 0 0
  | .gexit o => o.enc 0x12 6
  | .gets o => asm o.form (o.n * 1048576 + o.d.num * 256 + 0x13 * 4) (ext1 0 0 0 0 0 o.d.flag 0) 0 0
  | .sets o => asm o.form (o.n * 1048576 + o.a.num * 16384 + 0x14 * 4) (ext1 0 0 0 0 o.a.flag 0 0) 0 0
  | .swaps o => asm o.form (o.n * 1048576 + o.a.num * 16384 + o.d.num * 256 + 0x15 * 4)
      (ext1 0 0 0 0 o.a.flag o.d.flag 0) 0 0
  | .mod m => [m.fs.toNat * 8192 + m.sat * 2048 + m.rnd * 256 + 0x16 * 4]
  | .tlbinv o => o.enc 0x17 0
  | .cinv o => o.enc 0x17 1
  | .cwb o => o.enc 0x17 2
  | .keyz o => o.enc 0x17 3
  | .scrub o => o.enc 0x17 4
  | .rlsetWriteEntry o => o.enc
  | .launch o => o.enc 0x18 0
  | .launchi o => o.enc 0x18 1
  | .cpya o => o.enc 0x19 0
  | .cpyw o => o.enc 0x19 1
  | .cpyx o => o.enc 0x19 2
  | .gath o => o.enc 0x19 3
  | .scred o => o.enc 0x19 4
  | .epush o => asm o.form (w0SR 0x19 5 0 o.a.num o.p) (ext1 0 0 0 0 o.a.flag 0 0) 0 0
  | .epop o => o.enc 0x19 6
  | .fwalk o => o.enc 0x19 7
  | .stmap o => o.enc 0x19 8
  | .stunmap o => o.enc 0x19 9
  | .stflush o => o.enc 0x19 10
  | .shinit s a => [w0SR 0x1A 0 0 a s]
  | .shclr s => [w0SR 0x1A 1 0 0 s]
  | .shcnt o => o.enc 0x1A 2
  | .cmarm f m a => asm f (w0SR 0x1A 3 0 a m) 0 0 0
  | .cmref o => asm o.form (w0SR 0x1A 4 0 o.a.num o.m) (ext1 0 0 0 0 o.a.flag 0 0) 0 0
  | .cmchk f m c => asm f (w0SR 0x1A 5 c.toNat 0 m) 0 0 0
  | .cmrd o => asm o.form (w0SR 0x1A 6 o.b.num o.m o.d.num) (ext1 0 0 0 o.b.flag 0 o.d.flag 0) 0 o.b.lit
  | .cmoff f m => asm f (w0SR 0x1A 7 0 0 m) 0 0 0
  | .stepa o => o.enc 0x1A 8
  | .stepo o => o.enc 0x1A 9
  | .epver o => o.enc 0x1A 10
  | .epret o => o.enc 0x1A 11
  | .scommit o => o.enc 0x1A 12
  | .sabort f => asm f (w0SR 0x1A 13 0 0 0) 0 0 0
  | .vsetl o => o.enc 0x20 0
  | .vsett o => o.enc 0x20 1
  | .vsetm o => o.enc 0x20 2
  | .vgetg o => o.enc 0x20 3
  | .vld o => o.enc 0x21 0 3
  | .vldf o => o.enc 0x21 1 3
  | .vldh o => o.enc 0x21 2 3
  | .vlds o => o.enc 0x21 0 1
  | .vldx o => o.enc 0x21 0 0
  | .vst o => o.enc 0x22 0 3
  | .vstq o => o.enc 0x22 1 3
  | .vsth o => o.enc 0x22 2 3
  | .vsts o => o.enc 0x22 0 1
  | .vstx o => o.enc 0x22 0 0
  | .vstxo o => o.enc 0x22 1 0
  | .vadd o => o.enc 0x23 0
  | .vsub o => o.enc 0x23 1
  | .vmul o => o.enc 0x23 2
  | .vmulh o => o.enc 0x23 3
  | .vmac o => o.enc 0x24 0
  | .vmin o => o.enc 0x24 1
  | .vmax o => o.enc 0x24 2
  | .vminn o => o.enc 0x24 3
  | .vmaxn o => o.enc 0x25 0
  | .vand o => o.enc 0x25 1
  | .vor o => o.enc 0x25 2
  | .vxor o => o.enc 0x25 3
  | .vshl o => o.enc 0x26 0
  | .vshr o => o.enc 0x26 1
  | .vsha o => o.enc 0x26 2
  | .vabs o => o.enc 0x26 3
  | .vsadd o => o.enc 0x27 0
  | .vssub o => o.enc 0x27 1
  | .vfadd o => o.enc 0x28 0
  | .vfsub o => o.enc 0x28 1
  | .vfmul o => o.enc 0x28 2
  | .vfma o => o.enc 0x28 3
  | .vfnma o => o.enc 0x29 0
  | .vfdiv o => o.enc 0x29 1
  | .vfmin o => o.enc 0x29 2
  | .vfmax o => o.enc 0x29 3
  | .vfsqrt o => o.enc 0x2A 0
  | .vfrece o => o.enc 0x2A 1
  | .vfabs o => o.enc 0x2A 2
  | .vfneg o => o.enc 0x2A 3
  | .vfclass o => o.enc 0x2B 0
  | .vfexp2 o => o.enc 0x2B 1
  | .vfrcpp o => encU 0x2B 2 o.form o.mask o.d o.a o.mc 0
  | .vcmp o => encV 0x2C 0 o.form o.mask (o.cond.code * 8 + o.d) o.a o.c 0
  | .vfcmp o => encV 0x2C 1 o.form o.mask (o.cond.code * 8 + o.d) o.a o.c 0
  | .mand o => asm o.form (w0V 0x2D 0 0 o.b o.a o.d 0) 0 0 0
  | .mor o => asm o.form (w0V 0x2D 1 0 o.b o.a o.d 0) 0 0 0
  | .mxor o => asm o.form (w0V 0x2D 2 0 o.b o.a o.d 0) 0 0 0
  | .mnot f d a => asm f (w0V 0x2D 3 0 0 a d 3) 0 0 0
  | .mpopc o => encU 0x2E 0 o.form o.mask o.d.num o.a 0 o.d.flag
  | .mfirst o => encU 0x2E 1 o.form o.mask o.d.num o.a 0 o.d.flag
  | .vmset o => encV 0x2E 2 o.form .none o.d 0 o.c 0
  | .viota o => o.enc 0x2E 3
  | .vcvt o => o.enc 0 0
  | .vnarrow o => o.enc 1 0
  | .vnarrowChain o => o.enc 1 1
  | .vftoi o => o.enc 2 0
  | .vitof o => o.enc 3 0
  | .vslideup o => o.enc 0x30 0
  | .vslidedn o => o.enc 0x30 1
  | .vperm o => o.enc 0x30 2
  | .vcompr o => o.enc 0x30 3
  | .vexpand o => o.enc 0x31 0
  | .vidxc o => encU 0x31 1 o.form o.mask o.d 0 o.c 0
  | .vbcast o => encV 0x31 2 o.form o.mask o.d 0 o.c 0
  | .vextr o => encV 0x31 3 o.form .none o.d.num o.a o.c o.d.flag
  | .vins o => asm o.form (w0V 0x32 0 0 o.b.num 0 o.d 1) (ext1 0 0 0 o.b.flag 0 0 o.e) 0 o.b.lit
  | .stxs o => o.enc 0x32 1
  | .stxw o => o.enc 0x32 2
  | .vredadd o => o.enc 0x33 0
  | .vredaddo o => o.enc 0x33 1
  | .vredmax o => o.enc 0x33 2
  | .vredmin o => o.enc 0x33 3
  | .vfredadd o => o.enc 0x34 0
  | .vfredaddo o => o.enc 0x34 1
  | .vfredmax o => o.enc 0x34 2
  | .vfredmin o => o.enc 0x34 3
  | .afdef o => encV 0x35 0 o.form o.mask o.n o.a o.p 0
  | .afpop o => encV 0x35 1 o.form .none o.d o.a o.p 0
  | .afcnt ⟨f, d, some p⟩ => encV 0x35 2 f .none d.num 0 p d.flag
  | .afcnt ⟨f, d, none⟩ => encU 0x35 2 f .none d.num 0 0 d.flag
  | .epopv o => encU 0x35 3 o.form o.mask o.v o.n 0 0
  | .shpush o => encU 0x36 0 o.form o.mask o.n o.v 0 0
  | .shins o => encU 0x36 1 o.form o.mask o.n o.v 0 0
  | .shpopb f v s => asm f (w0V 0x36 2 0 0 s v 3) 0 0 0
  | .tmatt o => asm o.form (w0TM 0 o.b.num o.d.num 0 0 0) (ext1 0 0 0 o.b.flag o.d.flag 0 0) 0 o.b.lit
  | .tmdet f => asm f (w0TM 1 0 0 0 0 0) 0 0 0
  | .tmalg o => asm o.form (w0TM 2 0 o.a.num 0 0 0) (ext1 0 0 0 0 o.a.flag 0 0) 0 0
  | .tmalgs o => asm o.form (w0TM 3 0 o.a.num 0 0 0) (ext1 0 0 0 0 o.a.flag 0 0) 0 0
  | .tmzero f t => asm f (w0TM 4 0 0 t 0 0) 0 0 0
  | .tmop o => asm o.form (w0TM 5 o.b.num o.a o.t o.ca.toNat o.cb.toNat) (ext1 0 0 0 o.b.flag 0 0 o.vb) 0 o.b.lit
  | .tmrun o => asm o.form (w0TM 6 0 o.a o.t o.ca.toNat o.cb.toNat) 0 0 0
  | .tmrd o => asm o.form (w0TM 7 o.b.num o.v o.t 0 0) (ext1 0 0 0 o.b.flag 0 0 o.e) 0 o.b.lit
  | .tmwr o => asm o.form (w0TM 8 o.b.num o.v o.t 0 0) (ext1 0 0 0 o.b.flag 0 0 0) 0 o.b.lit
  | .tmwait o => o.enc 9
  | .tmstat o => o.enc 10
  | _ => []

/-! ### The decoder -/

/-- Splits the words of one instruction; none where there are fewer words than its length field asks for. -/
def rawOf (ws : List Nat) : Option Raw :=
  match ws with
  | [] => none
  | w0 :: rest =>
    match formOf w0, rest with
    | .base, _ => some ⟨.base, w0, 0, 0, 0⟩
    | .lit, l :: h :: _ => some ⟨.lit, w0, 0, 0, l + h * 2 ^ 32⟩
    | .ext, w1 :: w2 :: _ => some ⟨.ext, w0, w1, w2, 0⟩
    | .long, w1 :: w2 :: l :: h :: _ => some ⟨.long, w0, w1, w2, l + h * 2 ^ 32⟩
    | _, _ => none

/-- The instruction at the head of the words, or none for an illegal encoding (R70). -/
def decode (ws : List Nat) : Option Instr :=
  (rawOf ws).bind fun r =>
    (parse r).bind fun i =>
      if i.wf = true ∧ encode i = ws.take (r.form.len / 4) then some i else none

/-- Bytes to little-endian words of four bytes (R3); an incomplete last word is dropped. -/
def wordsOfBytes : List Byte → List Nat
  | a :: b :: c :: d :: t => (a.toNat + b.toNat * 2 ^ 8 + c.toNat * 2 ^ 16 + d.toNat * 2 ^ 24) :: wordsOfBytes t
  | _ => []

/-- The little-endian bytes of a word. -/
def bytesOfWord (w : Nat) : List Byte :=
  [BitVec.ofNat 8 w, BitVec.ofNat 8 (w / 2 ^ 8), BitVec.ofNat 8 (w / 2 ^ 16), BitVec.ofNat 8 (w / 2 ^ 24)]

/-- The decoder on bytes as memory holds them; total on any bytes. -/
def decodeBytes (bs : List Byte) : Option Instr := decode (wordsOfBytes bs)

/-- The words of an instruction given as one number: the first word is its low 32 bits; five words are the longest. -/
def tableWords (nbits w : Nat) : List Nat :=
  let v := w % 2 ^ nbits
  [v % 2 ^ 32, v / 2 ^ 32 % 2 ^ 32, v / 2 ^ 64 % 2 ^ 32, v / 2 ^ 96 % 2 ^ 32, v / 2 ^ 128 % 2 ^ 32]

/-- The instruction that this decoder reads from bits numbered as spec/opcode_table.json numbers them. -/
def decodeTableWord (nbits w : Nat) : Option Instr := decodeBytes ((tableWords nbits w).flatMap bytesOfWord)

/-- Instructions that a MOD may precede (R73): neither control nor system instructions, QPEEK or QCNT. Decided from
the opcode of the following word alone (R342). -/
def prefixableWord (w : Nat) : Bool :=
  let op := fld w 2 6
  !((0x06 ≤ op && op ≤ 0x0B) || op == 0x0E || (0x12 ≤ op && op ≤ 0x18))

end Sys2Proof
end

