-- ==== Sys2Proof/Machine/Aes.lean ====
section
/-! DEFINITION. Sys2Proof/Machine/Aes.lean: AES-256-XTS on one 64-byte data unit (22 R407). The spec names the cipher; its
definition (FIPS 197, IEEE 1619) is the standard's (log entry 11). -/

namespace Sys2Proof.Machine

/-- Multiplication by x in GF(2^8). -/
def aesX (a : Byte) : Byte := (a <<< 1) ^^^ (if a.msb then 0x1B else 0)

/-- Product in GF(2^8), over the low k bits of b. -/
def aesMul (a b : Byte) : Nat → Byte
  | 0 => 0
  | k + 1 => (if b.getLsbD 0 then a else 0) ^^^ aesMul (aesX a) (b >>> 1) k

/-- Inverse in GF(2^8) as the 254th power; zero stays zero. -/
def aesInv (a : Byte) : Byte :=
  let m := fun x y => aesMul x y 8
  let a2 := m a a
  let a4 := m a2 a2
  let a8 := m a4 a4
  let a16 := m a8 a8
  let a32 := m a16 a16
  let a64 := m a32 a32
  let a128 := m a64 a64
  m a128 (m a64 (m a32 (m a16 (m a8 (m a4 a2)))))

/-- Rotation left of a byte. -/
def aesRot (a : Byte) (k : Nat) : Byte := (a <<< k) ||| (a >>> (8 - k))

/-- The S-box. -/
def aesS (a : Byte) : Byte :=
  let b := aesInv a
  b ^^^ aesRot b 1 ^^^ aesRot b 2 ^^^ aesRot b 3 ^^^ aesRot b 4 ^^^ 0x63

/-- The inverse S-box. -/
def aesIS (a : Byte) : Byte := aesInv (aesRot a 1 ^^^ aesRot a 3 ^^^ aesRot a 6 ^^^ 0x05)

/-- Exclusive or of two byte lists. -/
def xorBytes : List Byte → List Byte → List Byte
  | a :: as, b :: bs => (a ^^^ b) :: xorBytes as bs
  | _, _ => []

/-- Byte n of a list, zero past its end. -/
def byteAt (l : List Byte) (n : Nat) : Byte := l.getD n 0

/-- The next words of the AES-256 key schedule: the last eight words, oldest first; i counts words made, k words to make. -/
def aesExpand : List (List Byte) → Nat → Byte → Nat → List (List Byte)
  | _, _, _, 0 => []
  | ws, i, rc, k + 1 =>
    let last := ws.getD 7 []
    let t := if i % 8 = 0 then
        xorBytes ((last.drop 1 ++ last.take 1).map aesS) [rc, 0, 0, 0]
      else if i % 8 = 4 then last.map aesS else last
    let w := xorBytes (ws.getD 0 []) t
    w :: aesExpand (ws.drop 1 ++ [w]) (i + 1) (if i % 8 = 0 then aesX rc else rc) k

/-- Cuts a list into pieces of n, at most k of them. -/
def chunks {α : Type} (n : Nat) : Nat → List α → List (List α)
  | 0, _ => []
  | k + 1, l => if l.isEmpty then [] else l.take n :: chunks n k (l.drop n)

/-- The fifteen round keys of a 32-byte key. -/
def aesKeys (key : List Byte) : List (List Byte) :=
  let ws := chunks 4 8 key
  chunks 16 15 ((ws ++ aesExpand ws 8 1 52).flatten)

/-- ShiftRows; the state is by columns. -/
def aesShift (s : List Byte) : List Byte := (List.range 16).map fun i => byteAt s ((i + 4 * (i % 4)) % 16)
/-- Inverse ShiftRows. -/
def aesIShift (s : List Byte) : List Byte := (List.range 16).map fun i => byteAt s ((i + 12 * (i % 4)) % 16)

/-- MixColumns with the coefficients of the first row. -/
def aesMix (c : List Byte) (s : List Byte) : List Byte :=
  (List.range 16).map fun i =>
    (List.range 4).foldl (fun acc j => acc ^^^ aesMul (byteAt s (4 * (i / 4) + j)) (byteAt c ((j + 4 - i % 4) % 4)) 8) 0

/-- Encrypts one block. -/
def aesEnc (keys : List (List Byte)) (b : List Byte) : List Byte :=
  let s0 := xorBytes b (keys.getD 0 [])
  let s := ((keys.drop 1).take 13).foldl (fun s k => xorBytes (aesMix [2, 3, 1, 1] (aesShift (s.map aesS))) k) s0
  xorBytes (aesShift (s.map aesS)) (keys.getD 14 [])

/-- Decrypts one block. -/
def aesDec (keys : List (List Byte)) (b : List Byte) : List Byte :=
  let s0 := (aesIShift (xorBytes b (keys.getD 14 []))).map aesIS
  let s := (((keys.drop 1).take 13).reverse).foldl
    (fun s k => (aesIShift (aesMix [14, 11, 13, 9] (xorBytes s k))).map aesIS) s0
  xorBytes s (keys.getD 0 [])

/-- n little-endian bytes of a number. -/
def leBytes (n v : Nat) : List Byte := (List.range n).map fun i => BitVec.ofNat 8 (v / 256 ^ i)
/-- The number that little-endian bytes hold. -/
def ofLe : List Byte → Nat
  | [] => 0
  | b :: bs => b.toNat + 256 * ofLe bs

/-- Multiplies an XTS tweak by x. -/
def xtsNext (t : Nat) : Nat :=
  let d := 2 * t
  if d < 2 ^ 128 then d else (d % 2 ^ 128) ^^^ 0x87

/-- The four tweaks of a 64-byte data unit. -/
def xtsTweaks (tweak : BitVec 256) (unit : Nat) : List Nat :=
  let t := ofLe (aesEnc (aesKeys (leBytes 32 tweak.toNat)) (leBytes 16 unit))
  [t, xtsNext t, xtsNext (xtsNext t), xtsNext (xtsNext (xtsNext t))]

/-- One pass of XTS over a 64-byte data unit with a block function. -/
def xtsPass (f : List Byte → List Byte) (ts : List Nat) (line : List Byte) : List Byte :=
  (List.zipWith (fun t b => xorBytes (f (xorBytes b (leBytes 16 t))) (leBytes 16 t)) ts (chunks 16 4 line)).flatten

/-- Encrypts the 64-byte data unit with this number. -/
def xtsEnc (data tweak : BitVec 256) (unit : Nat) (line : List Byte) : List Byte :=
  xtsPass (aesEnc (aesKeys (leBytes 32 data.toNat))) (xtsTweaks tweak unit) line

/-- Decrypts the 64-byte data unit with this number. -/
def xtsDec (data tweak : BitVec 256) (unit : Nat) (line : List Byte) : List Byte :=
  xtsPass (aesDec (aesKeys (leBytes 32 data.toNat))) (xtsTweaks tweak unit) line

end Sys2Proof.Machine
end

