-- ==== Sys2Proof/Machine/Tab.lean ====
section
/-! DEFINITION. Sys2Proof/Machine/Tab.lean: sparse tables, lists of (number, value) pairs with strictly rising numbers.
A number that the list does not hold has the table's default value. Register files, memories and the units of the
part are tables, so that a state lists only what differs from reset. -/

namespace Sys2Proof.Machine

/-- A sparse table. -/
abbrev Tab (α : Type) := List (Nat × α)

/-- The value at number n, d where the table lists none. The search stops at the first greater number. -/
def tget {α : Type} (d : α) : Tab α → Nat → α
  | [], _ => d
  | (k, v) :: t, n => if n = k then v else if n < k then d else tget d t n

/-- Stores v at number n. -/
def tput {α : Type} : Tab α → Nat → α → Tab α
  | [], n, v => [(n, v)]
  | (k, w) :: t, n, v =>
    if n < k then (n, v) :: (k, w) :: t
    else if n = k then (n, v) :: t
    else (k, w) :: tput t n v

/-- Removes every entry of the rising table with a number up to n. -/
def tdrop {α : Type} (t : Tab α) (n : Nat) : Tab α := t.dropWhile fun p => decide (p.1 ≤ n)

/-- Stores v at number n in canonical form: an entry equal to the default d is removed instead. -/
def tset {α : Type} [DecidableEq α] (d : α) : Tab α → Nat → α → Tab α
  | [], n, v => if v = d then [] else [(n, v)]
  | (k, w) :: t, n, v =>
    if n < k then (if v = d then (k, w) :: t else (n, v) :: (k, w) :: t)
    else if n = k then (if v = d then tdrop t n else (n, v) :: tdrop t n)
    else (k, w) :: tset d t n v

/-- Stores a list of pairs in order. -/
def tsetAll {α : Type} [DecidableEq α] (d : α) (t : Tab α) : List (Nat × α) → Tab α
  | [] => t
  | p :: ps => tsetAll d (tset d t p.1 p.2) ps

/-- Removes the entries in the range [lo, hi). -/
def tclear {α : Type} (t : Tab α) (lo hi : Nat) : Tab α := t.filter fun p => decide (p.1 < lo) || decide (hi ≤ p.1)

/-- The numbers of a table rise strictly, from lo on. -/
def trises {α : Type} : Nat → Tab α → Bool
  | _, [] => true
  | lo, (k, _) :: t => decide (lo ≤ k) && trises (k + 1) t

/-- The canonical form: rising numbers and no entry equal to the default. -/
def tcanon {α : Type} [DecidableEq α] (d : α) (t : Tab α) : Bool := trises 0 t && t.all fun p => decide (p.2 ≠ d)

end Sys2Proof.Machine
end

