-- ==== Sys2Proof/Machine/State.lean ====
section
/-! DEFINITION. Sys2Proof/Machine/State.lean: the state of the part as plain data, one structure for each level of 01
Table 1.1, and the state after reset. Every default value below is the value at reset (22 R414 zeroes every SRAM and
register bank; the other values are those of the registers' tables or of a log entry named in INVENTORY.md). -/

namespace Sys2Proof.Machine

/-- Reasons to stop that are no outcome of the machine. -/
inductive Fault where
  /-- The schedule names an event whose condition does not hold, or an instruction as an event. Raised by the meanings
  of the events. Safe: the part itself never produces such an event. -/
  | eventNotEnabled
deriving DecidableEq, Repr

/-- Reasons to refuse an instruction. -/
inductive Refusal where
  /-- No meaning in this model. Raised by arms of exec only. Safe: nothing is claimed of the instruction. -/
  | notModelled (mnemonic : String)
deriving DecidableEq, Repr

/-! ### Strands -/

/-- A trap as it is raised: Table 20.3's code and sub-cause, with tval and telem, and the uncorrectable error of the state that it
reports, by the byte's key (log entry 104). -/
structure TrapInfo where
  code : Nat
  sub : Nat := 0
  val : Word := 0
  elem : Word := 0
  soft : Option Nat := none
deriving DecidableEq, Repr

/-- One active hardware loop (R50, R94). -/
structure Loop where
  lc : Nat
  start : Word
  stop : Word
deriving DecidableEq, Repr

/-- What a strand sleeps in: IDLE (R105) with its operands, since a cycle, with the pushes counted at its start and whether
a token of the strand has been written since; or WAITM (R124) since a cycle, and whether it reads again at its next
turn. -/
inductive Sleep where
  | idle (o : R2) (start pushes : Nat) (token : Bool)
  | waitm (start : Nat) (woken : Bool)
deriving DecidableEq, Repr

/-- Whether a strand belongs to no launch, runs, or has ended with a status (R109, R356). -/
inductive Life where
  | vacant
  | live
  | ended (status : Word)
deriving DecidableEq, Repr

/-- The trap at which a strand stopped as a source of the halt line (R378), with the hart's `sbase` of that moment (R382). -/
structure Fatal where
  info : TrapInfo
  nested : Bool
  at_ : Word
  pf : Bool
  stamp : Nat
  sbase : Word
deriving DecidableEq, Repr

/-- Strand state (01 Table 1.6; 20 Tables 20.2, 20.11). -/
structure Strand where
  x : Tab Word := []
  pc : Word := 0
  lc : Tab Word := []
  loops : List Loop := []
  fpf : BitVec 6 := 0
  fpm : BitVec 3 := 1
  tvec : Word := 0
  tpc : Word := 0
  tfpc : Word := 0
  tcause : Word := 0
  tval : Word := 0
  telem : Word := 0
  tword : Word := 0
  tsb : Word := 0
  tscr0 : Word := 0
  tscr1 : Word := 0
  /-- Scalar registers that await a token (R240). -/
  pend : List Nat := []
  life : Life := .vacant
  /-- An execute strand that R36 parks. -/
  parked : Bool := false
  /-- Arrivals of BARRs that wait or are interrupted, the latest first: barrier, phase, and the address of the BARR with whether a
  handler runs it (R134). -/
  arrived : List (Nat × Nat × Word × Bool) := []
  /-- Interrupted EPOPVs, the latest first: port, elements filled, and the address of the EPOPV with whether a handler runs it
  (R255, R385). -/
  popv : List (Nat × Nat × Word × Bool) := []
  sleep : Option Sleep := none
  /-- Stopped by the halt line, and the trap at which it stopped when it is the faulting source. -/
  stopped : Bool := false
  fatal : Option Fatal := none
  /-- Retirements since the halt line rose (Table 20.4). -/
  skid : Nat := 0
  /-- The prefix in force (R74). -/
  pfx : Option Pfx := none
deriving DecidableEq, Repr

/-! ### Harts -/

/-- Where an access at a virtual address lands: in a scratchpad (R235), or in memory, with the key slot of its page
(R407). -/
inductive Loc where
  | pad (va core off : Nat)
  | mem (va pa : Nat) (ks : Option Nat)
deriving DecidableEq, Repr

/-- One entry of the strip buffer: the bytes of one element or header (R45, R46), the nibbles of a 4-bit store, whether it
opens a store instruction, the bytes that a younger scalar store of the strand hides from the strand's loads (R47), and the
number of the VSTXO that wrote it, zero for any other store (R177). -/
structure StripEnt where
  loc : Loc
  bytes : List Byte
  nib : Nat := 0
  first : Bool := false
  hidden : List Nat := []
  ord : Nat := 0
deriving DecidableEq, Repr

/-- A store of a strand that has retired and is not performed yet (R47, R88; 11 R293): where, its bytes, the nibbles of a 4-bit
element, whether a SCOMMIT made it, how many stores of the strip buffer are older, and the number of its VSTXO (R177). -/
structure Held where
  loc : Loc
  bytes : List Byte
  nib : Nat := 0
  vec : Bool := false
  older : Nat := 0
  ord : Nat := 0
deriving DecidableEq, Repr

/-- An interrupted reduction (07 R194; 20 Table 20.11): the address it resumes at with whether a handler runs it, the elements or
levels taken, the values it holds and the flags it has not merged. -/
structure Red where
  at_ : Word × Bool
  pos : Nat
  vals : List Nat
  flags : BitVec 6
deriving DecidableEq, Repr

/-- An aftermath record (Table 2.4). -/
structure AftRec where
  index : Word
  path : Nat
  vals : List Word
deriving DecidableEq, Repr

/-- A sheaf (Table 10.6); cnt is the length of ents, of which the first 4096 are on chip and the others have spilled. `rd` is the place
in the spill area's ring of the first that has spilled: MODEL'S OWN (10 R269). -/
structure Sheaf where
  ents : List (BitVec 32) := []
  rd : Nat := 0
  sb : Nat := 0
  ss : Nat := 0
  seen : Nat := 0
  u : Nat := 0
  init : Bool := false
deriving DecidableEq, Repr

/-- An element of a vector load that may still be performed later, in place of the value that it has read (11 R293): the hart, the
register or group, the width and the place that hold it, its location, whether it is the high nibble of its byte, and the codes of
its types in memory and in the register; of a block type also the header that it goes by, the prefix of the load and the flags that
it has raised. A header that a load brings into an h register is such an element too. -/
structure Late where
  hart : Nat
  reg : Nat
  wd : Nat
  pos : Nat
  loc : Loc
  high : Bool
  mt : Nat
  vt : Nat
  hdr : Nat := 0
  pfx : Option Pfx := none
  fl : BitVec 6 := 0
  isHdr : Bool := false
deriving DecidableEq, Repr

/-- A scalar load of a strand that may still be performed later, in place of the value that it has read (11 R291): the strand, the
register, the location, the bytes, and whether they are sign-extended. -/
structure LateS where
  strand : Nat
  reg : Nat
  loc : Loc
  n : Nat
  sg : Bool
deriving DecidableEq, Repr

/-- Hart state. -/
structure Hart where
  v : Tab (BitVec 4096) := []
  h : Tab (BitVec 1024) := []
  m : Tab (BitVec 1024) := []
  vl : Nat := 0
  vt : Nat := 9
  q : Tab (List Word) := []
  /-- Pushes so far into the queues that each strand reads, for R105: MODEL'S OWN counts. -/
  pushA : Nat := 0
  pushX : Nat := 0
  epcfg : Tab Word := []
  fifo : Tab (List Word) := []
  sheaf : Tab Sheaf := []
  aft : List AftRec := []
  aftBase : Word := 0
  aftSize : Word := 0
  strip : List StripEnt := []
  /-- Stores of the execute strand that are not performed, its scalar stores and those of its SCOMMITs, oldest first. -/
  held : List Held := []
  /-- Scalar stores of the access strand that are not performed, oldest first. -/
  heldA : List Held := []
  /-- Bytes as they stood before stores that the hart's vector loads may still be performed ahead of, by place (11 R293). -/
  past : Tab Byte := []
  /-- Elements of the hart's last vector loads that may still be performed, while nothing has looked at them (11 R293). -/
  late : List Late := []
  /-- As `past`, for the scalar loads of the access strand and of the execute strand (11 R291). -/
  pastA : Tab Byte := []
  pastX : Tab Byte := []
  /-- Scalar loads of the two strands that may still be performed, while nothing has named their registers (11 R291). -/
  lateS : List LateS := []
  red : Option Red := none
  /-- The rotation of the slot table in which YIELD made the hart's slots lendable (R108). -/
  yielded : Option Nat := none
  sbase : Word := 0
  seed : Word := 0
  pivtol : BitVec 32 := 0
  pivreg : Word := 0x3F800000
  smsel : BitVec 4 := 0
  smiss : Tab Word := []
  mfcCtl : Word := 0x1E009
  mfcLt : Tab Word := []
  gang : Word := 0
  /-- The gang that the hart is a member of. -/
  gid : Option Nat := none
  /-- Attached members of a spanned gang at the leader's last VSETL (R37), in rank order. -/
  att : List Nat := []
  /-- Whether each strand has waited under R29 since the hart's last retirement, and the cycle since which neither can
  go on (R31). -/
  waitA : Bool := false
  waitX : Bool := false
  dead : Option Nat := none
  /-- The strand that issued last (R52). -/
  last : Nat := 1
deriving DecidableEq, Repr

/-! ### Cores -/

/-- Tile status (Table 8.11) with the failing step (R220). -/
structure TileSt where
  steps : BitVec 32 := 0
  flt : Bool := false
  cause : Nat := 0
  fl : BitVec 6 := 0
  fstep : BitVec 32 := 0
deriving DecidableEq, Repr

/-- The algebra table (R201); the default is the real table (R204). -/
structure AlgTab where
  dc : Nat := 0
  sgn : Nat := 0
  aa : Bool := true
  cs : List (BitVec 16) := [0x3C00]
deriving DecidableEq, Repr

/-- A run that has been sent and has not completed (R216). -/
structure TmRun where
  tile : Nat
  desc : List Word
  ca : Bool
  cb : Bool
  noflags : Bool
  alg : AlgTab
  lt : Tab Word
  steps : Nat
  hart : Nat
deriving DecidableEq, Repr

/-- A conservation monitor (R280 to R282). -/
structure Monitor where
  sum : BitVec 320 := 0
  ref : BitVec 320 := 0
  bound : BitVec 320 := 0
  nom : List Word := [0, 0, 0, 0]
  arm : Bool := false
  nf : Bool := false
  ov : Bool := false
  tr : Bool := false
  pw : Bool := false
  fmt : Nat := 0
deriving DecidableEq, Repr

/-- A block held in a write-combining lane (R232): its held bytes by offset in the block. -/
structure WcBlock where
  pa : Nat
  since : Nat
  bytes : Tab Byte
deriving DecidableEq, Repr

/-- A mapped stash slot (R237). -/
structure StashSlot where
  va : Nat
  len : Nat
  off : Nat
deriving DecidableEq, Repr

/-- A valid word of a stash: its physical address, key slot and whether it is dirty (R238). -/
structure StashWord where
  pa : Nat
  ks : Option Nat
  dirty : Bool
deriving DecidableEq, Repr

/-- `ctxsave` (Table 19.7). -/
structure CtxSave where
  st : Nat := 5
  cause : Nat := 0
  ent : Nat := 0
  off : Nat := 0
deriving DecidableEq, Repr

/-- A line of an L1 data cache: its number, the physical address over 64, and the valid bit of each of its words (09 R233). Its bytes are
those of its home, with which it is coherent (R234). -/
structure CacheLine where
  line : Nat
  valid : BitVec 16
deriving DecidableEq, Repr

/-- Core state. -/
structure Core where
  pad : Tab Byte := []
  /-- Bytes that copies overwrote and that TMU runs may still read while nothing orders them (17 R341). -/
  stale : Tab Byte := []
  tiles : Tab (Tab (BitVec 32)) := []
  tst : Tab TileSt := []
  rows : Nat := 0
  ext : Nat := 0
  req : Nat := 0
  alg : AlgTab := {}
  runs : List TmRun := []
  mon : Tab Monitor := []
  slots : Tab Word := []
  wcwait : Nat := 256
  /-- The lines of the L1 data cache, and the numbers of those of the L1 instruction cache (01 R14). -/
  l1d : List CacheLine := []
  l1i : List Nat := []
  wc : List WcBlock := []
  stash : Tab StashSlot := []
  stw : Tab StashWord := []
deriving DecidableEq, Repr

/-- The context state of one core: the core, its four harts and their eight strands. -/
structure Bank where
  core : Core := {}
  harts : Tab Hart := []
  strands : Tab Strand := []
deriving DecidableEq, Repr

/-- A core's loft (R361): the second bank, where it holds a context, and the context save engine. -/
structure Loft where
  bank : Option Bank := none
  save : CtxSave := {}
deriving DecidableEq, Repr

/-! ### Gangs -/

/-- A barrier register (Table 5.3), with the members that are owed a conservation-drift trap (R135). -/
structure Barrier where
  v : Bool := false
  b : Bool := false
  x : Bool := false
  k : Bool := false
  count : Nat := 0
  arr : Nat := 0
  phase : Nat := 0
  o : Bool := false
  pend : Int := 0
  drift : List (Nat × Nat) := []
deriving DecidableEq, Repr

/-- A gang (R35, R355). -/
structure Gang where
  part : Nat
  ent : Nat
  launch : Nat
  index : Nat
  members : List Nat
  g : Nat
  span : Bool
  bars : Tab Barrier := []
  /-- Members whose vector unit R38 has released, and members that have finished the launch (R38, R109). -/
  released : List Nat := []
  fin : List Nat := []
deriving DecidableEq, Repr

/-! ### Partitions -/

/-- A run list entry (Table 19.6). -/
structure RlEnt where
  v : Bool := false
  n : Bool := false
  lat : Nat := 0
  slice : Nat := 0
  base : Word := 0
  size : Word := 0
  tag : Word := 0
deriving DecidableEq, Repr

/-- A launch that has not completed (R352 to R357). -/
structure Launch where
  id : Nat
  ent : Nat
  n : Nat
  g : Nat
  span : Bool
  mask : Nat
  indirect : Bool
  count : Word
  limit : Nat
  entA : Word
  entX : Word
  inits : List (Nat × Nat × Word)
  aftBase : Word
  aftSize : Word
  comp : Word
  deps : List Nat
  sbase : Word
  dispatched : Bool := false
  gangs : Nat := 0
  placed : Nat := 0
  st : Nat := 0
deriving DecidableEq, Repr

/-- A fatal event that an engine detected: its source, the trap, its stamp, and double 3 of its stop record (R380). -/
structure EngFatal where
  src : Nat
  info : TrapInfo
  stamp : Nat
  next : Word
deriving DecidableEq, Repr

/-- `haltst` (Table 20.7), with the stamp of the event it names (R380) and the sources that have stopped. -/
structure Halt where
  st : Nat := 0
  cause : Nat := 0
  src : Nat := 0
  cnt : Nat := 0
  stamp : Nat := 0
  /-- The sources that must stop, and those that have (R378). -/
  srcs : List Nat := []
  stopped : List Nat := []
  /-- The first fatal event of each engine that detected one, and what each engine has done since the line rose: K steps,
  chunks, bursts or posts (Table 20.4). -/
  engs : List EngFatal := []
  ops : Tab Nat := []
  /-- The change to halted is still a pending interrupt (R373). -/
  irq : Bool := false
deriving DecidableEq, Repr

/-- Partition state. -/
structure Part where
  cfg : Word := 0
  rlev : BitVec 6 := 0
  rlent : Nat := 0
  xlring : Word := 0
  halt : Halt := {}
  stopbase : Word := 0
  rlroot : Tab Word := []
  rl : Tab RlEnt := []
  cur : Option Nat := none
  /-- The entry of `cur` as its slice began: what op 0 writes over it takes effect at its next switch (R363). -/
  curEnt : Option RlEnt := none
  want : Option Nat := none
  sliceEnd : Nat := 0
  /-- A switch is due, since this time, and its latency limit has already been reported missed. -/
  due : Option Nat := none
  missed : Bool := false
  /-- What the save record of an entry gives no place, by entry and core: MODEL'S OWN (log entry 33). -/
  saved : Tab (Tab Bank) := []
  lq : List Launch := []
  lastId : Nat := 0
  ver : Nat := 0
  retired : List Nat := []
  stgrp : BitVec 32 := 0
  sttab : Word := 0
  stcmds : List (Nat × Nat) := []
  sterr : Nat := 0
  steslot : Nat := 0
  stsel : Nat := 0
  /-- Root of the steward's address space (log entry 6). -/
  root : Word := 0
  /-- Emulation routines bound to features when code objects were loaded: the entry whose context loaded the object, the
  feature and the routine (15 R322). -/
  emul : List (Nat × Nat × Word) := []
deriving DecidableEq, Repr

/-! ### Engine commands -/

/-- What a command in flight does (09 R245, R251; 10 R262, R266, R278, R286). Parameters are the group's values. -/
inductive Work where
  | cpya (dst src len : Nat)
  | cpyw (dst src n : Nat) (ts td : Ty)
  | cpyx (dst src len slen : Nat)
  | stmap (va len off slot : Nat)
  | stunmap (slot : Nat)
  | stflush (slot : Nat)
  | gath (list n table bound rb dst : Nat) (pol : Bool) (mask : Option Nat)
  | scred (list n table bound rb src : Nat) (op : Nat) (ty : Ty) (pol : Bool)
  | fwalk (record dst cap : Nat) (mem : Bool) (sheaf : Nat) (out : Bool)
  | stepa (list n base stride : Nat)
  | stepo (list n base stride : Nat)
deriving DecidableEq, Repr

/-- A command in flight (R240, R257). -/
structure Cmd where
  id : Nat
  work : Work
  hart : Nat
  /-- The context that issued it: the partition and the run list entry, none for a service hart. -/
  part : Nat
  ent : Option Nat
  tok : Nat
  eq : Nat
  be : Option Nat
  pe : Option Nat
  gid : Option Nat := none
  /-- Chunks, rows, runs or posts done, bytes done, the credits of bytes performed that are still to be made, oldest first
  (R131), the position of the next block of CPYX, and the bytes of the block before it that no chunk has written yet. -/
  step : Nat := 0
  bytes : Nat := 0
  owed : List Nat := []
  pos : Nat := 0
  rest : List Byte := []
  /-- The stack whose Thresher serves the command (R378), and granules of 64 bytes that it has written in part (R244). -/
  unit : Nat := 0
  open_ : List Nat := []
  /-- Bytes of a gather's result mask, located and not written yet (R263). -/
  mask : List (Loc × Byte) := []
  /-- The values that a FWALK has found and not emitted yet, and the token's st at their end (R279). -/
  walk : Option (List Nat × Nat) := none
  /-- Finished: the token value that completion writes. -/
  fin : Option Word := none
  /-- Its context has been given up while it ran, as the loss with this number (R53; 19 R363). -/
  lost : Option Nat := none
deriving DecidableEq, Repr

/-! ### Module -/

/-- A run of device frames [lo, hi) that a translation fill has claimed, plain or compressed (R230). -/
structure Claim where
  lo : Nat
  hi : Nat
  zc : Bool
deriving DecidableEq, Repr

/-- A cached translation: hall, context tag, page base and log2 of the page size, and the leaf (R374). -/
structure TlbEnt where
  hall : Nat
  tag : Nat
  va : Nat
  size : Nat
  pte : Word
deriving DecidableEq, Repr

/-- A key slot (Table 22.2) with its key pair. -/
structure KSlot where
  st : Nat := 0
  ord : Nat := 0
  own : Nat := 0
  data : BitVec 256 := 0
  tweak : BitVec 256 := 0
deriving DecidableEq, Repr

/-- A scrub order (Table 22.4). -/
structure ScrubOrder where
  id : Nat
  slot : Option Nat
  cores : List Nat
  off : Nat
  len : Nat
  runs : List (Nat × Nat)
deriving DecidableEq, Repr

/-- An entry of the frame ownership journal (22 R413): the order with its lists and id, whether it is done, and the digest
that closes it. -/
structure JEnt where
  order : ScrubOrder
  done : Bool
  digest : List Byte
deriving DecidableEq, Repr

/-- An island (Table 24.1): the MHz by which throttling has lowered its clock (R422), and its clock's count (00 R5): cycles
times 1000 up to the nanosecond `since`; and the clock in MHz that goes on from there to the cycle's end where it is another
(R421), else 0. -/
structure Island where
  st : Nat := 1
  on : Bool := true
  mhz : Nat
  low : Nat := 0
  acc : Nat := 0
  since : Nat := 0
  was : Nat := 0
deriving DecidableEq, Repr

/-- A cached translation of a module (R335): its key, digest and object, the translator image that made it, the key that
signed that translator (R336), and the erase blocks that hold it. -/
structure BarnEnt where
  key : List Byte
  digest : List Byte
  obj : List Byte
  image : Nat
  signer : Nat
  blocks : List Nat := []
deriving DecidableEq, Repr

/-- A firmware bank (R428): which image it holds, the modulus and the signature that a staged image carries (those of an image that
came with the part are fixed), the image's security version, whether it is whole, and whether it has been committed. -/
structure Bank2 where
  image : Nat := 0
  sign : Option (Nat × Nat) := none
  ver : Nat := 0
  ok : Bool := true
  com : Bool := true
deriving DecidableEq, Repr

/-- The trained link (22 R403, R404): its width, its speed, the options that were negotiated, and the decoder's base. -/
structure Link where
  width : Nat
  speed : Nat
  opts : List LinkOpt
  base : Nat
deriving DecidableEq, Repr

/-- The hart of a croft core beside the registers of its episode (21 R386): the slot that it ran last, within its sixteen
(R388); its mode; the machine-mode CSRs; the configuration byte and address of each PMP entry; and the count of the
instructions that it has retired. The RISC-V documents give the reset values (log entry 35). -/
structure Croft where
  last : Nat := 15
  user : Bool := false
  mstatus : Word := 0x200000000
  mtvec : Word := 0
  mcounteren : BitVec 3 := 0
  mscratch : Word := 0
  mepc : Word := 0
  mcause : Word := 0
  mtval : Word := 0
  /-- The pc with which the hart came into its mode. -/
  pc : Word := 0
  pmp : List (BitVec 8 × Word) := List.replicate 16 (0, 0)
  cycOff : Word := 0
  instret : Word := 0
deriving DecidableEq, Repr

/-- Module state. -/
structure Dev where
  /-- Claimed frames, the oldest claim first; a frame that no claim holds is unclaimed (R230). -/
  claims : List Claim := []
  /-- Key-slot tags of frames (R407): the slot plus one, zero for none. -/
  tags : Tab Nat := []
  tlb : List TlbEnt := []
  /-- The numbers of the lines that the slices of the LLC hold, each in that of its home floor (01 R14; 09 R227). -/
  llc : List Nat := []
  kslot : Tab KSlot := []
  orders : List ScrubOrder := []
  units : Nat := 0
  /-- Replayed orders that have not completed (R414). -/
  replay : Nat := 0
  lastDone : Nat := 0
  lastOrder : Nat := 0
  journal : List JEnt := []
  hrej : Word := 0
  isel : Nat := 0
  isl : Tab Island := []
  itel : Tab Word := []
  lim : Nat := 3400
  watts : Nat := 0
  throttled : Bool := false
  cool : Word := 0
  serr : Tab Word := []
  barnw : Word := 0x6400000000000000
  rint : BitVec 6 := 0
  banks : List Bank2 := [{}, { image := 1 }]
  active : Nat := 0
  nextBank : Nat := 0
  minVer : Nat := 0
  stage : Nat := 0
  fwAddr : Nat := 0
  /-- The boot status double of the last reset, and what it accepted of the configuration record and the manifest (R427). -/
  boot : Nat := 0
  record : CfgRec := {}
  /-- The keys that the revocation record in the Barn lists (R415). -/
  revoked : List Nat := []
  /-- For each measurement register (firmware, translator, croft monitor) the images that were loaded since the reset, in order;
  its value is the fold of R415. -/
  meas : List (List Nat) := [[0], [0], [0]]
  barn : List BarnEnt := []
  /-- Erase counts of the translation cache's blocks (16 R335; 24 R425). -/
  erases : Tab Nat := []
  link : Option Link := none
  /-- The answer to the host's last read: the data, and whether it is poisoned (22 R405). -/
  answer : Option (List Byte × Bool) := none
  crofts : Tab Croft := []
  /-- The measurement registers as the last SPDM answer reported them, and its signature (R415). -/
  spdm : List (List Byte) := []
  fwRoot : Word := 0
  off : Bool := false
deriving DecidableEq, Repr

/-! ### Steading -/

/-- A mailbox record: its bytes with the header (Tables 10.11, 10.12). -/
structure Rec where
  bytes : List Byte
deriving DecidableEq, Repr

/-- The registers of an episode (R386), and its count of user-mode instructions (R400). -/
structure Rv where
  x : Tab Word := []
  f : Tab Word := []
  fcsr : BitVec 8 := 0
  pc : Word := 0
  resv : Option Nat := none
  instret : Nat := 0
deriving DecidableEq, Repr

/-- What an episode has called and waits for (R391); a post that waits for room has so many device records ahead of it. -/
inductive Call where
  | none
  | take (off : Nat)
  | post (off : Nat) (status : Nat) (ahead : Option Nat)
  | stamp
deriving DecidableEq, Repr

/-- A step in progress (R400): the episode's count and the time at its take, and the time at which the budget was passed. -/
structure StepRec where
  instret : Nat
  since : Nat
  passed : Option Nat := none
deriving DecidableEq, Repr

/-- An episode slot (R392 to R400). -/
structure Slot where
  state : Nat := 0
  fol : Bool := false
  end_ : Nat := 0
  ver : Nat := 0
  orsv : Nat := 0
  budget : Nat := 0
  wall : Nat := 0
  acts : List Rec := []
  obs : List Rec := []
  held : List Rec := []
  heldObs : List Rec := []
  aseq : Nat := 0
  oseq : Nat := 0
  part : Nat := 0
  /-- The captured pages of the image, with their key slots, the image's offset in the first, and its length. -/
  image : List (Nat × Option Nat) := []
  imageAt : Nat := 0
  imageLen : Nat := 0
  /-- The captured frames of the region, with their key slots. -/
  region : List (Nat × Option Nat) := []
  ram : Tab Byte := []
  cpu : Rv := {}
  call : Call := .none
  step : Option StepRec := none
  /-- The croft core runs this slot (R388). -/
  runs : Bool := false
deriving DecidableEq, Repr

/-! ### The machine -/

/-- Who moves: a strand, the slot table of a core (R348), an event of the part, the store number k that strand n holds, which
is performed (R47, R88), the late element or the late scalar load number k of hart h, which is performed (11 R291, R293), a line
that enters or leaves the L1 data cache or the L1 instruction cache of core c or the LLC (01 R14; 09 R227, R233), or the loader of
partition p, which loads a code object of `len` bytes at address `obj` for the context of an entry, with its first text section at
`text` (15 R322). -/
inductive Turn where
  | strand (n : Nat)
  | core (c : Nat)
  | event (i : Instr)
  | perform (n k : Nat)
  | land (h k : Nat)
  | landScalar (h k : Nat)
  | l1d (c line : Nat) (valid : BitVec 16)
  | l1i (c line : Nat)
  | llc (line : Nat)
  | load (p ent obj len : Nat) (text : Word)
deriving DecidableEq, Repr

/-- What the spec leaves to the part in one turn: whether the strand's scalar store, or the stores of its SCOMMIT, are held (R47,
R88; 11 R293); after how many elements or levels a reduction stops for an interrupt (07 R194); whether the values that the turn
overwrites are kept for loads; and which elements of a vector load, by their bits, were performed before the writes whose
old values have been kept, and which may still be performed after the load (11 R293): bit 0 for a scalar load (R291), and the bits
from 4096 on for the headers of a load. -/
structure Choice where
  hold : Bool := false
  stop : Option Nat := none
  keep : Bool := false
  early : Nat := 0
  late : Nat := 0
deriving DecidableEq, Repr

/-- One entry of the schedule: the nanoseconds that pass, then a turn with its choices (log entries 1 and 2). -/
structure SchedSlot where
  ns : Nat := 0
  turn : Turn
  choice : Choice := {}
deriving DecidableEq, Repr

/-- The whole machine. -/
structure State where
  mem : Tab Byte := []
  strands : Tab Strand := []
  harts : Tab Hart := []
  cores : Tab Core := []
  lofts : Tab Loft := []
  gangs : Tab Gang := []
  parts : Tab Part := []
  dev : Dev := {}
  slots : Tab Slot := []
  cmds : List Cmd := []
  nextCmd : Nat := 0
  nextGang : Nat := 0
  /-- Nanoseconds since reset; the low 64 bits are the global time-stamp counter (04 R106). -/
  ns : Nat := 0
  /-- Uncorrectable errors that the next reads of bytes meet, by the bytes' keys, oldest first (24 R424; log entry 104). -/
  bad : List Nat := []
  /-- The schedule: MODEL'S OWN (log entry 1). -/
  sched : List SchedSlot := []
  /-- The choices of the turn that moves: MODEL'S OWN (log entry 1). -/
  choice : Choice := {}
  /-- The strand that moves: at reset the access strand of the reeve hart of floor 0 (log entry 3). -/
  cur : Nat := 6
  /-- Counter of free values: MODEL'S OWN (log entry 9). -/
  free : Nat := 0
deriving DecidableEq, Repr

/-- The machine right after reset. -/
def State.reset : State := {}

end Sys2Proof.Machine
end

