-- ==== Sys2Proof/Machine/Upd.lean ====
section
/-! DEFINITION. Sys2Proof/Machine/Upd.lean: updates. A meaning does not build a state: it lists updates, and applying
them is one function. Memory changes through `mem` and `zero` only, so that what holds of these two holds of every
meaning. An update is no part of a state. -/

namespace Sys2Proof.Machine

/-- One update of the machine. -/
inductive Upd where
  /-- Writes bytes to ascending physical addresses. -/
  | mem (pa : Nat) (bs : List Byte)
  /-- Zeroes the physical addresses [lo, hi). -/
  | zero (lo hi : Nat)
  | strand (n : Nat) (f : Strand → Strand)
  | hart (n : Nat) (f : Hart → Hart)
  | core (n : Nat) (f : Core → Core)
  /-- Any other change; memory stays as it is. -/
  | other (f : State → State)

/-- Strand n. -/
def State.strand (s : State) (n : Nat) : Strand := tget {} s.strands n
/-- Hart n. -/
def State.hart (s : State) (n : Nat) : Hart := tget {} s.harts n
/-- Core n. -/
def State.core (s : State) (n : Nat) : Core := tget {} s.cores n
/-- The loft of core n. -/
def State.loft (s : State) (n : Nat) : Loft := tget {} s.lofts n
/-- Partition record n. -/
def State.part (s : State) (n : Nat) : Part := tget {} s.parts n
/-- Episode slot n. -/
def State.slot (s : State) (n : Nat) : Slot := tget {} s.slots n
/-- A byte of memory as it is stored; a byte that nothing has written reads zero (22 R414; log entry 7). -/
def State.byte (s : State) (pa : Nat) : Byte := tget 0 s.mem pa

/-- The canonical form of memory: rising addresses, and no entry that holds what an unlisted address reads as. -/
def Memory.wf (m : Tab Byte) : Bool := tcanon 0 m

/-- Writes bytes to ascending addresses of a memory. -/
def writeBytes : Tab Byte → Nat → List Byte → Tab Byte
  | m, _, [] => m
  | m, a, b :: bs => writeBytes (tset 0 m a b) (a + 1) bs

/-- Applies one update. -/
def Upd.app (u : Upd) (s : State) : State :=
  match u with
  | .mem pa bs => { s with mem := writeBytes s.mem pa bs }
  | .zero lo hi => { s with mem := tclear s.mem lo hi }
  | .strand n f => { s with strands := tput s.strands n (f (s.strand n)) }
  | .hart n f => { s with harts := tput s.harts n (f (s.hart n)) }
  | .core n f => { s with cores := tput s.cores n (f (s.core n)) }
  | .other f => { f s with mem := s.mem }

/-- Applies updates in order. -/
def applyAll : List Upd → State → State
  | [], s => s
  | u :: us, s => applyAll us (u.app s)

/-- Update of a loft. -/
def Upd.loft (n : Nat) (f : Loft → Loft) : Upd := .other fun s => { s with lofts := tput s.lofts n (f (s.loft n)) }
/-- Update of a partition record. -/
def Upd.part (n : Nat) (f : Part → Part) : Upd := .other fun s => { s with parts := tput s.parts n (f (s.part n)) }
/-- Update of an episode slot. -/
def Upd.slot (n : Nat) (f : Slot → Slot) : Upd := .other fun s => { s with slots := tput s.slots n (f (s.slot n)) }
/-- Update of the module's own state. -/
def Upd.dev (f : Dev → Dev) : Upd := .other fun s => { s with dev := f s.dev }
/-- Update of the gangs. -/
def Upd.gangs (f : Tab Gang → Tab Gang) : Upd := .other fun s => { s with gangs := f s.gangs }
/-- Update of gang g, where it exists. -/
def Upd.gang (g : Nat) (f : Gang → Gang) : Upd :=
  .gangs fun t => t.map fun p => if p.1 = g then (p.1, f p.2) else p
/-- Update of the commands in flight. -/
def Upd.cmds (f : List Cmd → List Cmd) : Upd := .other fun s => { s with cmds := f s.cmds }
/-- Update of the command with this id. -/
def Upd.cmd (id : Nat) (f : Cmd → Cmd) : Upd := .cmds fun l => l.map fun c => if c.id = id then f c else c
/-- Uses up one free value. -/
def Upd.tick : Upd := .other fun s => { s with free := s.free + 1 }

/-- A state under construction: the state so far, the updates that made it, the latest first, and those among them that
stay although the instruction traps: translation fills with their claims (09 R230). -/
structure Run where
  s : State
  us : List Upd
  fills : List Upd

/-- The start of a run. -/
def Run.start (s : State) : Run := ⟨s, [], []⟩
/-- One more update. -/
def Run.add (r : Run) (u : Upd) : Run := ⟨u.app r.s, u :: r.us, r.fills⟩
/-- One more update, which a later trap does not undo. -/
def Run.fill (r : Run) (u : Upd) : Run := ⟨u.app r.s, u :: r.us, u :: r.fills⟩
/-- More updates, in order. -/
def Run.addAll (r : Run) (us : List Upd) : Run := us.foldl Run.add r
/-- The updates in order. -/
def Run.out (r : Run) : List Upd := r.us.reverse
/-- The updates that a trap leaves, in order. -/
def Run.kept (r : Run) : List Upd := r.fills.reverse

/-- The run r after a computation from it has failed in run e: only the fills stay. -/
def Run.failed (r e : Run) : Run := r.addAll ((e.fills.take (e.fills.length - r.fills.length)).reverse)

/-- A computation over a run that may meet a trap; the error holds the run in which it was met. -/
abbrev M (α : Type) := StateT Run (Except (TrapInfo × Run)) α

/-- The state so far. -/
def M.state : M State := fun r => .ok (r.s, r)
/-- One update. -/
def M.upd (u : Upd) : M Unit := fun r => .ok ((), r.add u)
/-- A step that cannot fail. -/
def M.pure' {α : Type} (f : Run → α × Run) : M α := fun r => .ok (f r)
/-- A trap. -/
def M.trap {α : Type} (t : TrapInfo) : M α := fun r => .error (t, r)
/-- A check. -/
def M.check (b : Bool) (t : TrapInfo) : M Unit := if b then pure () else M.trap t

end Sys2Proof.Machine
end

