-- ==== Sys2Proof/Machine/Clock.lean ====
section
/-! DEFINITION. Sys2Proof/Machine/Clock.lean: islands and their clocks (00 R5; 24 R419, R421). Time passes in nanoseconds; a
cycle is one period of an island's own clock. -/

namespace Sys2Proof.Machine

/-- The full clock of an island (Table 24.1). -/
def maxMhz (i : Nat) : Nat := if 960 ≤ i ∧ i < 992 then 1600 else 940
/-- A clock that an island may have (Table 24.1). -/
def mhzOk (i m : Nat) : Bool := decide (200 ≤ m) && decide (m ≤ maxMhz i) && m % 10 == 0
/-- The clock of an island by the configuration record (24 R419, R427): the full clock where the record names one that the island
may not have (DESIGN CHOICE, log entry 145). -/
def recordMhz (c : CfgRec) (i : Nat) : Nat :=
  let m := if i < 640 then c.core else if i < 800 then c.tmu else if i < 880 then c.hall else if i < 944 then c.llc
    else if i < 960 then c.thresher else if i < 992 then c.steading else c.io
  if mhzOk i m then m else maxMhz i

/-- An island's state; its clock is that of the configuration record until it is written (log entry 5). -/
def Dev.island (d : Dev) (i : Nat) : Island := tget { mhz := recordMhz d.record i } d.isl i
/-- The island's clock as throttling leaves it, in MHz (R422). It stops as soon as a change of the island begins: R5 and R420 do not
say whether it runs while st is 2 (DESIGN CHOICE, log entry 150). -/
def Island.clock (x : Island) : Nat := if x.st = 1 then x.mhz - x.low else 0
/-- The end of the cycle in which a count stands. -/
def cycleEnd (n : Nat) : Nat := (n + 999) / 1000 * 1000
/-- The clock's count at a time in nanoseconds: cycles times 1000. A clock that a change has left holds until the end of its
cycle (R421). -/
def Island.count (x : Island) (ns : Nat) : Nat :=
  if x.was = 0 then x.acc + (ns - x.since) * x.clock
  else
    let p := x.acc + (ns - x.since) * x.was
    if p ≤ cycleEnd x.acc then p else cycleEnd x.acc + (p - cycleEnd x.acc) * x.clock / x.was
/-- An island changes: the count goes on from the time of the change, to the end of its cycle at the clock that stood, and then at
the clock that the change leaves (R421). -/
def Island.change (ns : Nat) (f : Island → Island) (x : Island) : Island :=
  let n := x.count ns
  let old := if x.was ≠ 0 ∧ n < cycleEnd x.acc then x.was else x.clock
  let y := f x
  { y with acc := n, since := ns, was := if y.clock = 0 then 0 else old }
/-- Cycles of core c since reset: those of its own island (R5). -/
def State.cycles (s : State) (c : Nat) : Nat := (s.dev.island c).count s.ns / 1000
/-- The global time-stamp counter: 1 GHz, whatever the islands' clocks (R421). -/
def State.gtc (s : State) : Word := BitVec.ofNat 64 s.ns

end Sys2Proof.Machine
end

