-- ==== Sys2Proof/Machine/Access.lean ====
section
/-! DEFINITION. Sys2Proof/Machine/Access.lean: address spaces and translation (09 R225 to R236; 20 R367, R374; 22 R407),
and reading and writing bytes where they lie: scratchpads, stashes (R237 to R239), write-combining lanes (R232) and
memory. Every access is performed whole at one instant (log entry 10). -/

namespace Sys2Proof.Machine

/-! ### Roles (19 R349; 20 R366) -/

/-- The core of a hart (R13). -/
def coreOf (h : Nat) : Nat := h / 4
/-- The hall of a hart (R13). -/
def hallOf (h : Nat) : Nat := h / 64
/-- A core's number 4q + c within its hall. -/
def hallCore (c : Nat) : Nat := c % 16
/-- The reeve harts: hart 3 of core 0 of each floor; the part has 2560 harts (R12). -/
def isReeve (h : Nat) : Bool := h % 4 == 3 && h / 4 % 80 == 0 && decide (h < 2560)
/-- The partition that owns a hall; the part has 40 halls (R12). -/
def partOfHall (s : State) (hall : Nat) : Option Nat :=
  if hall < 40 then (s.parts.find? fun p => p.2.cfg.getLsbD hall).map (·.1) else none
/-- The lowest hall of a `part.cfg` value. -/
def lowHall (cfg : Word) : Nat := ((List.range 40).find? fun k => cfg.getLsbD k).getD 40
/-- The steward hart of a partition: hart 2 of its lowest core. -/
def stewardHart (s : State) (p : Nat) : Nat := 64 * lowHall (s.part p).cfg + 2
/-- Whether a hart is its partition's steward hart. -/
def isSteward (s : State) (h : Nat) : Bool :=
  match partOfHall s (hallOf h) with
  | some p => h == stewardHart s p
  | none => false
/-- A service hart (R349). -/
def isService (s : State) (h : Nat) : Bool := isReeve h || isSteward s h
/-- Privilege of a hart: 0 user, 1 steward, 2 firmware (R366). -/
def privOf (s : State) (h : Nat) : Nat := if isReeve h then 2 else if isSteward s h then 1 else 0
/-- The partition record that a hart's partition registers name: the partition that owns its hall, or the record with the
hall's own number (log entry 12). -/
def partIx (s : State) (h : Nat) : Nat := (partOfHall s (hallOf h)).getD (hallOf h)
/-- The run list entry of a hart's context; a service hart belongs to none. -/
def entOf (s : State) (h : Nat) : Option Nat := if isService s h then none else (s.part (partIx s h)).cur

/-! ### Address spaces -/

/-- An address space: its root register, the tag of its translations (R367), the walker's hall, the partition that
translates, whether accesses are at user privilege, and the core whose scratchpad window it sees. -/
structure Space where
  root : Word
  tag : Nat
  hall : Nat
  part : Nat
  user : Bool
  core : Nat
deriving DecidableEq, Repr

/-- The address space of a run list entry, as a core of the partition sees it. -/
def ctxSpace (s : State) (p : Nat) (ent : Option Nat) (core : Nat) : Space :=
  match ent with
  | some k => ⟨tget 0 (s.part p).rlroot k, 64 * p + k, core / 16, p, true, core⟩
  | none => ⟨0, 16384, core / 16, p, true, core⟩

/-- The steward's address space of a partition. -/
def stewardSpace (s : State) (p : Nat) : Space :=
  ⟨(s.part p).root, 4096 + p, lowHall (s.part p).cfg % 40, p, false, 16 * (lowHall (s.part p).cfg % 40)⟩

/-- The address space of a hart. -/
def spaceOf (s : State) (h : Nat) : Space :=
  if isReeve h then ⟨s.dev.fwRoot, 8192, hallOf h, partIx s h, false, coreOf h⟩
  else if isSteward s h then { stewardSpace s (partIx s h) with core := coreOf h, hall := hallOf h }
  else ctxSpace s (partIx s h) (entOf s h) (coreOf h)

/-- The base W of the scratchpad window (R235). -/
def windowBase : Nat := 0x00F0000000000000

/-- A virtual address is canonical (R228). -/
def canonical (va : Nat) : Bool := decide (va / 2 ^ 56 = 0) || decide (va / 2 ^ 56 = 255)

/-- A device address (R225). -/
def isDevPa (pa : Nat) : Bool := decide (pa < 2 ^ 40)
/-- A mapped physical address: device memory, or host memory with bit 51 set (R225). -/
def paMapped (pa : Nat) : Bool := isDevPa pa || (decide (2 ^ 51 ≤ pa) && decide (pa < 2 ^ 52))

/-! ### Locations -/

/-- The physical identity of a located byte, for comparing locations. -/
def Loc.key : Loc → Nat
  | .pad _ c off => 2 ^ 60 + c * 2 ^ 20 + off
  | .mem _ pa _ => pa
/-- The virtual address of a location. -/
def Loc.va : Loc → Nat
  | .pad va _ _ => va
  | .mem va _ _ => va
/-- The location k bytes on. -/
def Loc.plus (l : Loc) (k : Nat) : Loc :=
  match l with
  | .pad va c off => .pad (va + k) c (off + k)
  | .mem va pa ks => .mem (va + k) (pa + k) ks

/-! ### Bytes at home -/

/-- The byte of a core's valid stash word that holds this physical address (R238). -/
def stashHeld (k : Core) (pa : Nat) : Option Byte :=
  (k.stw.find? fun w => w.2.pa == pa / 4 * 4).map fun w => tget 0 k.pad (4 * w.1 + pa % 4)

/-- The byte of any stash that holds this physical address, in an active bank or in a loft. -/
def stashHolder (s : State) (pa : Nat) : Option Byte :=
  match s.cores.findSome? fun c => stashHeld c.2 pa with
  | some b => some b
  | none => s.lofts.findSome? fun l => l.2.bank.bind fun b => stashHeld b.core pa

/-- The stored line of 64 bytes that holds pa. -/
def storedLine (s : State) (pa : Nat) : List Byte := (List.range 64).map fun i => s.byte (pa / 64 * 64 + i)

/-- Whether an access under a key slot is encrypted: device frames only (R406, R407). -/
def keyOf (ks : Option Nat) (pa : Nat) : Option Nat := if isDevPa pa then ks else none

/-- A byte of memory at its home, under the key slot of the access (R407). -/
def homeByte (s : State) (ks : Option Nat) (pa : Nat) : Byte :=
  match stashHolder s pa with
  | some b => b
  | none =>
    match keyOf ks pa with
    | none => s.byte pa
    | some k =>
      let ky := tget {} s.dev.kslot k
      byteAt (xtsDec ky.data ky.tweak (pa / 64) (storedLine s pa)) (pa % 64)

/-- n bytes at home as a number, little-endian. -/
def homeNat (s : State) (pa n : Nat) : Nat := ofLe ((List.range n).map fun i => homeByte s none (pa + i))

/-- Writes bytes of one 64-byte line at their home. -/
def homeWriteLine (r : Run) (ks : Option Nat) (pa : Nat) (bs : List Byte) : Run :=
  match keyOf ks pa with
  | none => r.add (.mem pa bs)
  | some k =>
    let ky := tget {} r.s.dev.kslot k
    let old := xtsDec ky.data ky.tweak (pa / 64) (storedLine r.s pa)
    let new := (List.range 64).map fun i =>
      if pa % 64 ≤ i ∧ i < pa % 64 + bs.length then byteAt bs (i - pa % 64) else byteAt old i
    (r.add (.mem (pa / 64 * 64) (xtsEnc ky.data ky.tweak (pa / 64) new))).add
      (.dev fun d => { d with tags := tset 0 d.tags (pa / 4096) (k + 1) })

/-- Writes one valid word of a stash back to memory where it is dirty, under the key slot of its line (R238; 22 R407). -/
def backWord (r : Run) (pad : Tab Byte) (w : Nat × StashWord) : Run :=
  if w.2.dirty then homeWriteLine r w.2.ks w.2.pa ((List.range 4).map fun i => tget 0 pad (4 * w.1 + i)) else r

/-- Drops the words of the line of pa that meet p from a core's stash. -/
def dropLine (pa : Nat) (p : Nat → Bool) (k : Core) : Core :=
  { k with stw := k.stw.filter fun w => !(w.2.pa / 64 == pa / 64 && p w.1) }

/-- Writes the valid words of the line of pa in one core, among those that meet p, back to memory where they are dirty, and
drops them (R238); `upd` updates that core. -/
def evictLine (r : Run) (pa : Nat) (k : Core) (p : Nat → Bool) (upd : (Core → Core) → Upd) : Run :=
  let ws := k.stw.filter fun w => w.2.pa / 64 == pa / 64 && p w.1
  if ws.isEmpty then r else (ws.foldl (fun r w => backWord r k.pad w) r).add (upd (dropLine pa p))

/-- Changes the core in a core's loft. -/
def updLoftCore (c : Nat) (f : Core → Core) : Upd :=
  .loft c fun l => { l with bank := l.bank.map fun b => { b with core := f b.core } }

/-- The word of a slot that holds the first word of the line of a virtual address: a slot's base and offset are whole pages. -/
def lineWord (t : StashSlot) (va : Nat) : Nat := (t.off + (va / 64 * 64 - t.va)) / 4

/-- Word w lies in a stash slot. -/
def wordIn (t : StashSlot) (w : Nat) : Bool := decide (t.off ≤ 4 * w) && decide (4 * w < t.off + t.len)

/-- Takes a line away from every L1 (09 R234). -/
def dropL1 (r : Run) (line : Nat) : Run :=
  r.s.cores.foldl (fun r c =>
    if c.2.l1d.any (·.line == line) || c.2.l1i.contains line then
      r.add (.core c.1 fun k => { k with l1d := k.l1d.filter (·.line != line), l1i := k.l1i.filter (· != line) })
    else r) r

/-- Takes the line of pa away from every L1 and from every stash word but those of core c's active bank that hold the sixteen words of the line from
word w on, if `own` is (c, w) (R238): two slots of one core, or two pages of one slot, may map one line, and only one place
holds it (11 R292, R294). -/
def evictOthers (r : Run) (own : Option (Nat × Nat)) (pa : Nat) : Run :=
  let p := fun (c w : Nat) => match own with | some (d, k) => c != d || decide (w < k) || decide (k + 16 ≤ w) | none => true
  let r := dropL1 r (pa / 64)
  let r := r.s.cores.foldl (fun r c => evictLine r pa c.2 (p c.1) (.core c.1)) r
  r.s.lofts.foldl (fun r l => match l.2.bank with
    | some b => evictLine r pa b.core (fun _ => true) (updLoftCore l.1)
    | none => r) r

/-- Breaks the reservations of croft cores on the doubles that the bytes meet. -/
def breakResv (r : Run) (pa n : Nat) : Run :=
  (r.s.slots.filter fun p => match p.2.cpu.resv with | some a => decide (a / 8 ≤ (pa + n - 1) / 8) && decide (pa / 8 ≤ a / 8) | none => false).foldl
    (fun r p => r.add (.slot p.1 fun t => { t with cpu := { t.cpu with resv := none } })) r

/-! ### Values that loads may still return (11 R291, R293) -/

/-- The number under which a byte's earlier values are kept: a byte of an encrypted page apart from the same byte without its
key. -/
def Loc.pastKey (l : Loc) : Nat :=
  match l with
  | .pad .. => l.key
  | .mem _ pa ks => match keyOf ks pa with | some k => pa + 2 ^ 61 * (k + 1) | none => pa

/-- The location moved back to the start of its double. -/
def Loc.double (l : Loc) : Loc :=
  match l with
  | .pad va c off => .pad va c (off / 8 * 8)
  | .mem va pa ks => .mem va (pa / 8 * 8) ks

/-- The held byte of an address in a core's lanes (R232). -/
def wcByte (c : Core) (pa : Nat) : Option Byte :=
  c.wc.findSome? fun b => if b.pa = pa / 256 * 256 then (b.bytes.find? fun p => p.1 == pa % 256).map (·.2) else none

/-- A byte as core c finds it: in its scratchpad, held in the core's lane, or at its home. -/
def placeByte (s : State) (c : Nat) (l : Loc) : Byte :=
  match l with
  | .pad _ d off => tget 0 (s.core d).pad off
  | .mem _ pa ks => (wcByte (s.core c) pa).getD (homeByte s ks pa)

/-- Where the part so chooses, the doubles that n bytes from a location on are about to change stay readable, as they are, to the
loads of the harts of the cores that meet p: a vector element, or a scalar load, may have been performed before this write (11 R291,
R293). Whole doubles are kept, since an element is single-copy atomic (07 R177). -/
def keepPast (r : Run) (p : Nat → Bool) (l : Loc) (n : Nat) : Run :=
  if !r.s.choice.keep then r else
  let d := l.double
  let old := fun (c : Nat) =>
    (List.range ((l.key + n + 7) / 8 * 8 - d.key)).map fun i => (d.pastKey + i, placeByte r.s c (d.plus i))
  let put := fun (c : Nat) (h : Hart) =>
    let keep := fun (t : Tab Byte) => (old c).foldl (fun t p => tput t p.1 p.2) t
    { h with past := keep h.past, pastA := keep h.pastA, pastX := keep h.pastX }
  r.add (.other fun s => { s with harts := s.harts.map fun h => if p (h.1 / 4) then (h.1, put (h.1 / 4) h.2) else h })

/-- The floor of a physical address's home (09 R226). -/
def homeFloor (pa : Nat) : Nat := ((pa / 2 ^ 12 % 16) ^^^ (pa / 2 ^ 16 % 16)) / 2

/-- A late element shares a byte with k bytes from a location on; 8 bytes stand for each element. -/
def Late.meets (e : Late) (l : Loc) (k : Nat) : Bool := decide (e.loc.key < l.key + k) && decide (l.key < e.loc.key + 8)

/-- A late scalar load shares a byte with k bytes from a location on. -/
def LateS.meets (e : LateS) (l : Loc) (k : Nat) : Bool := decide (e.loc.key < l.key + k) && decide (l.key < e.loc.key + e.n)

/-- No earlier value is kept of the doubles that k bytes from a location on meet. -/
def freshAt (l : Loc) (k : Nat) (t : Tab Byte) : Tab Byte :=
  t.filter fun p => decide (p.1 / 8 < l.pastKey / 8) || decide ((l.pastKey + k - 1) / 8 < p.1 / 8)

/-- The earlier values that strand n's scalar loads may return. -/
def Hart.pastOf (h : Hart) (n : Nat) : Tab Byte := if n % 2 = 0 then h.pastA else h.pastX
/-- The hart with other earlier values for strand n's scalar loads. -/
def setPast (n : Nat) (t : Tab Byte) (h : Hart) : Hart := if n % 2 = 0 then { h with pastA := t } else { h with pastX := t }

/-- No load of hart h has an earlier value to return, and none may still be performed. -/
def Hart.loadsDone (h : Hart) : Bool :=
  h.past.isEmpty && h.late.isEmpty && h.pastA.isEmpty && h.pastX.isEmpty && h.lateS.isEmpty

/-- The hart when its loads are done. -/
def Hart.endAll (h : Hart) : Hart := { h with past := [], late := [], pastA := [], pastX := [], lateS := [] }

/-- Strand n's later scalar loads of k bytes from a location on return no value earlier than the present one, and no older one returns
it: it has stored there (04 R88) or read it (11 R292). -/
def seenScalar (n : Nat) (l : Loc) (k : Nat) (h : Hart) : Hart :=
  { setPast n (freshAt l k (h.pastOf n)) h with lateS := h.lateS.filter fun e => e.strand != n || !e.meets l k }

/-- What strand n has itself stored in k bytes from a location on its later loads return, scalar ones (04 R88) and those of the
execute strand's vector unit (02 R47), and no older one returns (07 R177). -/
def seenOwn (r : Run) (n : Nat) (l : Loc) (k : Nat) : Run :=
  if (r.s.hart (n / 2)).loadsDone then r else
  r.add (.hart (n / 2) fun h =>
    let h := seenScalar n l k h
    if n % 2 = 0 then h else { h with past := freshAt l k h.past, late := h.late.filter fun e => !e.meets l k })

/-- A scalar load of strand n has read k bytes from a location on: its later ones return nothing older (11 R292). Where it has itself
returned a kept value, `old`, that one may be returned again. -/
def seenRead (r : Run) (n : Nat) (l : Loc) (k : Nat) (old : Bool) : Run :=
  if (r.s.hart (n / 2)).loadsDone then r else
  r.add (.hart (n / 2) fun h => if old then setPast n (h.pastOf n) (seenScalar n l k h) else seenScalar n l k h)

/-- Hart h's vector loads return no earlier values from here on (05 R122, R129, R133; 10 R256). -/
def dropPast (r : Run) (h : Nat) : Run :=
  if (r.s.hart h).past.isEmpty then r else r.add (.hart h fun k => { k with past := [] })

/-- The vector loads of hart h have been performed, and its later ones return no earlier values (05 R122, R129). -/
def endLoads (r : Run) (h : Nat) : Run :=
  if (r.s.hart h).past.isEmpty && (r.s.hart h).late.isEmpty then r else r.add (.hart h fun k => { k with past := [], late := [] })

/-- No hart's loads return earlier values from here on, and all that it has issued are performed. -/
def forgetPast : Upd := .other fun s => { s with harts := s.harts.map fun h => (h.1, h.2.endAll) }

/-- What a load that was performed early returns for the bytes from a location on: the kept values, where there are any. -/
def pastOver (t : Tab Byte) (l : Loc) (bs : List Byte) : List Byte :=
  (List.range bs.length).map fun i => ((t.find? fun p => p.1 == l.pastKey + i).map (·.2)).getD (byteAt bs i)

/-! ### Writes at home -/

/-- Writes bytes at their home, line by line; `n` bounds the lines. -/
def homeWrite (ks : Option Nat) : Nat → Run → Nat → List Byte → Run
  | 0, r, _, _ => r
  | n + 1, r, pa, bs =>
    if bs.isEmpty then r else
    let k := 64 - pa % 64
    let r := breakResv (evictOthers r none pa) pa (bs.take k).length
    homeWrite ks n (homeWriteLine r ks pa (bs.take k)) (pa + k) (bs.drop k)

/-- Writes bytes at their home. -/
def putHome (r : Run) (ks : Option Nat) (pa : Nat) (bs : List Byte) : Run :=
  homeWrite ks (bs.length / 64 + 2) (keepPast r (fun _ => true) (.mem pa pa ks) bs.length) pa bs

/-! ### Uncorrectable errors (24 R424) -/

/-- The oldest uncorrectable error among n bytes from a location on, by its byte's key (24 R424). -/
def badIn (s : State) (l : Loc) (n : Nat) : Option Nat := s.bad.find? fun k => decide (l.key ≤ k) && decide (k < l.key + n)
/-- An uncorrectable error lies among n bytes from a location on. -/
def meetsBad (s : State) (l : Loc) (n : Nat) : Bool := (badIn s l n).isSome

/-- The error of a byte has been reported. -/
def clearBad (k : Nat) : Upd := .other fun s => { s with bad := s.bad.filter (· != k) }
/-- The errors that remain after a trap has been reported. -/
def TrapInfo.leaves (t : TrapInfo) (bad : List Nat) : List Nat := match t.soft with | some k => bad.filter (· != k) | none => bad
/-- A trap reports its error. -/
def reported (t : TrapInfo) : List Upd := match t.soft with | some k => [clearBad k] | none => []

/-- The trap of the uncorrectable data error of byte k, at an address and an element (Table 20.3). -/
def badData (k : Nat) (va : Word) (elem : Nat) : TrapInfo := { code := 54, val := va, elem := BitVec.ofNat 64 elem, soft := some k }

/-! ### The halt line (20 R378 to R380) -/

/-- The sources of partition p (R378): strands of its launches, and the engines of its cores, quads and stacks. -/
def haltSources (s : State) (p : Nat) : List Nat :=
  let halls := (List.range 40).filter fun k => (s.part p).cfg.getLsbD k
  let cores := halls.flatMap fun k => (List.range 16).map (16 * k + ·)
  let strands := (s.strands.filter fun x => decide (x.2.life = .live) && partIx s (x.1 / 2) == p && !isService s (x.1 / 2)).map (·.1)
  strands ++ cores.map (5120 + ·) ++ (halls.flatMap fun k => (List.range 4).map (5760 + 4 * k + ·))
    ++ cores.map (5920 + ·) ++ (List.range 16).map (6560 + ·) ++ [6576]

/-- Raises the halt line of partition p for a fatal event of `src` with stamp `stamp`. A later event of an earlier stamp
or, among equal stamps, of a lower source takes its place (R380). -/
def haltLine (s : State) (p src : Nat) (t : TrapInfo) (stamp : Nat) : Upd :=
  let srcs := haltSources s p
  .part p fun q =>
    if q.halt.st = 0 then
      { q with halt := { st := 1, cause := t.code, src := src, stamp := stamp,
                         srcs := if srcs.contains src then srcs else src :: srcs } }
    else
      let q := if q.halt.srcs.contains src then q else { q with halt := { q.halt with srcs := src :: q.halt.srcs } }
      if stamp < q.halt.stamp ∨ (stamp = q.halt.stamp ∧ src < q.halt.src) then
        { q with halt := { q.halt with cause := t.code, src := src, stamp := stamp } }
      else q

/-- The skid of every strand of partition p counts from zero (Table 20.4). -/
def zeroSkid (p : Nat) : Upd := .other fun s =>
  { s with strands := s.strands.map fun x => if partIx s (x.1 / 2) = p then (x.1, { x.2 with skid := 0 }) else x }

/-- An engine of partition p detects an uncorrectable data error (R378): the halt line rises, and the event is kept for the
engine's own record (R380). -/
def engineFatal (s : State) (p src : Nat) (t : TrapInfo) (next : Word) : List Upd :=
  (if (s.part p).halt.st = 0 then [zeroSkid p] else []) ++ reported t
  ++ [haltLine s p src t s.gtc.toNat,
      .part p fun q => if q.halt.engs.any fun e => e.src == src then q
        else { q with halt := { q.halt with engs := q.halt.engs ++ [⟨src, t, s.gtc.toNat, next⟩] } }]

/-! ### Translation -/

/-- A translation: where the access lands, and the attributes of the page. -/
structure Xl where
  loc : Loc
  cp : Nat
  zc : Bool
  sync : Bool
deriving DecidableEq, Repr

/-- The attribute of a device frame: none while unclaimed (R230). -/
def frameAttr (s : State) (fr : Nat) : Option Bool :=
  (s.dev.claims.find? fun c => decide (c.lo ≤ fr) && decide (fr < c.hi)).map (·.zc)

/-- A frame is held by a scrub order (R411). -/
def frameHeld (s : State) (lo hi : Nat) : Bool :=
  s.dev.orders.any fun o => o.runs.any fun r => decide (r.1 / 4096 < hi) && decide (lo < r.1 / 4096 + r.2)

/-- Bit k of a table entry. -/
def pbit (e : Word) (k : Nat) : Bool := e.getLsbD k
/-- The frame field as an address. -/
def pframe (e : Word) : Nat := e.toNat % 2 ^ 52 / 4096 * 4096
/-- X, W and R are all clear. -/
def pnext (e : Word) : Bool := !pbit e 1 && !pbit e 2 && !pbit e 3
/-- Cache policy. -/
def pcp (e : Word) : Nat := e.toNat / 1024 % 4
/-- Key slot. -/
def pks (e : Word) : Option Nat := if pbit e 63 then some (e.toNat / 2 ^ 57 % 64) else none

/-- An entry that breaks R229 or R407 at its level; C groups are checked by `cgroupBad`. -/
def entryBad (s : State) (p : Nat) (lvl : Nat) (e : Word) : Bool :=
  decide (e.toNat / 2 ^ 52 % 32 ≠ 0) || decide (e.toNat / 32 % 4 ≠ 0)
  || (!pbit e 63 && decide (e.toNat / 2 ^ 57 % 64 ≠ 0))
  || (if pnext e then
        decide (lvl = 0) || pbit e 9 || pbit e 8 || pbit e 7 || pbit e 63 || decide (pcp e ≠ 0)
      else
        decide (2 < lvl) || (pbit e 7 && decide (lvl ≠ 0))
        || decide (pframe e % 2 ^ (12 + 9 * lvl) ≠ 0)
        || (pbit e 8 && (decide (pcp e = 3) || decide (2 ^ 51 ≤ pframe e)))
        || (pbit e 2 && !pbit e 1)
        || (match pks e with
            | none => false
            | some k => pbit e 8 || decide ((tget {} s.dev.kslot k).st ≠ 1)
                || decide ((tget {} s.dev.kslot k).own ≠ lowHall (s.part p).cfg)))

/-- The sixteen entries of a C group disagree (R228, R229); `a` is the address of the group's first entry. -/
def cgroupBad (s : State) (a : Nat) : Bool :=
  let e0 := homeNat s a 8
  decide (e0 / 4096 % 16 ≠ 0)
  || (List.range 16).any fun i => decide (homeNat s (a + 8 * i) 8 ≠ e0 + 4096 * i)

/-- Walks the table from the level-`lvl` table at `base`: the leaf and log2 of its page size, or the cause code and the sub-cause.
A table in unmapped physical memory gives no-frame (R225, R229; DESIGN CHOICE, log entry 130); an entry with an uncorrectable
error is code 54, with the byte's key in place of a sub-cause (24 R424). -/
def walk (s : State) (p va : Nat) : Nat → Nat → Except (Nat × Nat) (Word × Nat)
  | lvl, base =>
    let a := base + 8 * (va / 2 ^ (12 + 9 * lvl) % 512)
    if !paMapped base then .error (11, 2)
    else if let some k := badIn s (.mem va a none) 8 then .error (54, k) else
    let e := BitVec.ofNat 64 (homeNat s a 8)
    if !pbit e 0 then .error (11, 5)
    else if entryBad s p lvl e then .error (11, 3)
    else if pnext e then
      match lvl with
      | 0 => .error (11, 3)
      | l + 1 => walk s p va l (pframe e)
    else if pbit e 7 then
      let g := base + 8 * (va / 4096 % 512 / 16 * 16)
      if let some k := badIn s (.mem va g none) 128 then .error (54, k)
      else if cgroupBad s g then .error (11, 3) else .ok (BitVec.ofNat 64 (homeNat s g 8), 16)
    else .ok (e, 12 + 9 * lvl)

/-- A leaf's frames, as a range of frame numbers. -/
def leafFrames (e : Word) (size : Nat) : Nat × Nat := (pframe e / 4096, pframe e / 4096 + 2 ^ (size - 12))

/-- The error of a translation: a cause code and sub-cause of Table 20.3, and the run with the fills made so far, which stay. -/
abbrev XlErr := (Nat × Nat) × Run

/-- The trap of a translation's error at an address and an element. -/
def xlTrap (e : Nat × Nat) (va : Word) (elem : Nat) : TrapInfo :=
  if e.1 = 54 then badData e.2 va elem else { code := e.1, sub := e.2, val := va, elem := BitVec.ofNat 64 elem }

/-- Fills a translation: walks, refuses unmapped and held frames (R225, R411), claims frames (R230) and caches the leaf. -/
def fillTlb (r : Run) (sp : Space) (va : Nat) : Except XlErr (Word × Nat × Run) :=
  if !pbit sp.root 0 then .error ((11, 2), r) else
  match walk r.s sp.part va 4 (pframe sp.root) with
  | .error x => .error (x, r)
  | .ok (e, size) =>
    let fr := leafFrames e size
    if !paMapped (pframe e) || frameHeld r.s fr.1 fr.2 then .error ((11, 2), r) else
    let zc := pbit e 8
    let dev := isDevPa (pframe e)
    if dev && r.s.dev.claims.any fun c => decide (c.lo < fr.2) && decide (fr.1 < c.hi) && c.zc != zc then .error ((13, 0), r) else
    let claimed := r.s.dev.claims.any fun c => decide (c.lo ≤ fr.1) && decide (fr.2 ≤ c.hi)
    let r := if dev && !claimed then
        r.fill (.dev fun d => { d with claims := d.claims ++ [⟨fr.1, fr.2, zc⟩] }) else r
    .ok (e, size, r.fill (.dev fun d => { d with tlb := ⟨sp.hall, sp.tag, va / 2 ^ size, size, e⟩ :: d.tlb }))

/-- The cached translation of an address (R374). -/
def tlbFind (s : State) (sp : Space) (va : Nat) : Option (Word × Nat) :=
  (s.dev.tlb.find? fun t => t.hall == sp.hall && t.tag == sp.tag && t.va == va % 2 ^ 57 / 2 ^ t.size).map fun t => (t.pte, t.size)

/-- The permission that an access needs: 0 read, 1 write, 2 execute. -/
def permSub (e : Word) (kind : Nat) (user : Bool) : Option Nat :=
  if kind = 0 && !pbit e 1 then some 1
  else if kind = 1 && !pbit e 2 then some 2
  else if kind = 2 && !pbit e 3 then some 3
  else if user && !pbit e 4 then some 4
  else none

/-- The stash slot of a core that maps a virtual address (R237). -/
def stashSlotOf (c : Core) (va : Nat) : Option StashSlot :=
  (c.stash.find? fun t => decide (t.2.va ≤ va) && decide (va < t.2.va + t.2.len)).map (·.2)

/-- The stash slot of a core that maps a scratchpad offset. -/
def stashSlotAt (c : Core) (off : Nat) : Option StashSlot :=
  (c.stash.find? fun t => decide (t.2.off ≤ off) && decide (off < t.2.off + t.2.len)).map (·.2)

/-- The virtual address under which an access of a space is held against the stash slots of its core, which name the running
context's addresses: a service hart's lies 2^64 higher, so that none of them meets it (R237). -/
def Space.slotVa (sp : Space) (va : Nat) : Nat := if sp.user then va else va + 2 ^ 64

/-- The leaf of an address outside the window: the cached translation or a fill. A context whose root register is not valid
has no frame on any access, a cached translation or none (20 R367). -/
def leafOf (r : Run) (sp : Space) (va : Nat) : Except XlErr (Word × Nat × Run) :=
  if !pbit sp.root 0 then .error ((11, 2), r) else
  match tlbFind r.s sp va with
  | some (e, size) => .ok (e, size, r)
  | none => fillTlb r sp (va % 2 ^ 57)

/-- Translates an address outside the window; `check` asks for the permission of the access. -/
def translateMem (r : Run) (sp : Space) (va kind : Nat) (check : Bool) : Except XlErr (Xl × Run) :=
  if sp.root = 0 && !sp.user then
    -- the untranslated space of a service hart (log entry 6); a held frame has no frame there either (22 R411, R414)
    if paMapped (va % 2 ^ 57) && !frameHeld r.s (va % 2 ^ 57 / 4096) (va % 2 ^ 57 / 4096 + 1) then
      .ok (⟨.mem (sp.slotVa va) (va % 2 ^ 57) none, 0, (frameAttr r.s (va / 4096)).getD false, false⟩, r)
    else .error ((11, 2), r)
  else
    match leafOf r sp va with
    | .error x => .error x
    | .ok (e, size, r) =>
      match if check then permSub e kind sp.user else none with
      | some sub => .error ((12, sub), r)
      | none => .ok (⟨.mem (sp.slotVa va) (pframe e + va % 2 ^ size) (pks e), pcp e, pbit e 8, pbit e 9⟩, r)

/-- An access at an offset of the core's own scratchpad that a stash slot maps (R235, R236, R238): a valid word has its place
already; any other is translated for the context whose bank holds the slot: that of the access, or the running one for a
service hart. Neither permissions nor SYNC apply in the window. -/
def translateStash (r : Run) (sp : Space) (t : StashSlot) (off : Nat) : Except XlErr (Xl × Run) :=
  let va := t.va + (off - t.off)
  match (r.s.core sp.core).stw.find? fun w => w.1 == off / 4 with
  | some w => .ok (⟨.mem va (w.2.pa + off % 4) w.2.ks, 0, false, false⟩, r)
  | none =>
    let p := (partOfHall r.s (sp.core / 16)).getD (sp.core / 16)
    match translateMem r (if sp.user then sp else ctxSpace r.s p (r.s.part p).cur sp.core) va 0 false with
    | .error x => .error x
    | .ok (x, r) => .ok ({ x with sync := false }, r)

/-- Translates an address for a data access or a fetch: the window (R235), a stash range reached through the window
(R238), or a page. The stash-attribute fault is not tested here. The window of another core reaches the bytes of its scratchpad also
where that core has mapped them: R238 speaks of a core's own accesses (DESIGN CHOICE, log entry 146). -/
def translateAny (r : Run) (sp : Space) (va kind : Nat) : Except XlErr (Xl × Run) :=
  if !canonical va then .error ((11, 1), r)
  else if windowBase ≤ va ∧ va < 2 ^ 56 then
    let w := va - windowBase
    let off := w % 2 ^ 20
    let j := w / 2 ^ 20
    if kind = 2 ∨ 2 ^ 19 ≤ off ∨ 17 ≤ j ∨ j = hallCore sp.core + 1 then .error ((11, 4), r)
    else if j = 0 then
      match stashSlotAt (r.s.core sp.core) off with
      | some t => translateStash r sp t off
      | none => .ok (⟨.pad va sp.core off, 0, false, false⟩, r)
    else .ok (⟨.pad va (sp.core / 16 * 16 + (j - 1)) off, 0, false, false⟩, r)
  else translateMem r sp va kind true

/-- An access through a stash meets a page with an attribute other than cp = 00 and ZC = 0 (R239). -/
def stashBad (s : State) (core : Nat) (x : Xl) : Bool :=
  match x.loc with
  | .mem v _ _ => (stashSlotOf (s.core core) v).isSome && (x.cp != 0 || x.zc)
  | .pad .. => false

/-- Translates an address; the stash-attribute fault comes last. -/
def translate (r : Run) (sp : Space) (va kind : Nat) : Except XlErr (Xl × Run) :=
  match translateAny r sp va kind with
  | .error x => .error x
  | .ok (x, r) => if stashBad r.s sp.core x then .error ((14, 0), r) else .ok (x, r)

/-! ### Bytes through a core -/

/-- Fills the line of a stash word from its home: every invalid word of the line in the slot becomes valid (R238). -/
def stashFill (r : Run) (c : Nat) (t : StashSlot) (va pa : Nat) (ks : Option Nat) : Run :=
  let ws := (List.range 16).filterMap fun i =>
    let v := va / 64 * 64 + 4 * i
    if t.va ≤ v ∧ v < t.va + t.len then
      let w := (t.off + (v - t.va)) / 4
      if ((r.s.core c).stw.find? fun p => p.1 == w).isSome then none else some (w, pa / 64 * 64 + 4 * i)
    else none
  let data := ws.map fun p => (p.1, p.2, (List.range 4).map fun i => homeByte r.s ks (p.2 + i))
  let r := evictOthers r (some (c, lineWord t va)) pa
  r.add (.core c fun k => data.foldl (fun k d =>
    { k with pad := tsetAll 0 k.pad ((List.range 4).map fun i => (4 * d.1 + i, byteAt d.2.2 i)),
             stw := tput k.stw d.1 ⟨d.2.1, ks, false⟩ }) k)

/-- Reads one byte through a core's stash, write-combining lanes and memory. -/
def readByte (r : Run) (core : Option Nat) (l : Loc) : Byte × Run :=
  match l with
  | .pad _ c off => (tget 0 (r.s.core c).pad off, r)
  | .mem va pa ks =>
    match core with
    | none => (homeByte r.s ks pa, r)
    | some c =>
      match stashSlotOf (r.s.core c) va with
      | some t =>
        let off := t.off + (va - t.va)
        let r := if ((r.s.core c).stw.find? fun p => p.1 == off / 4).isSome then r else stashFill r c t va pa ks
        (tget 0 (r.s.core c).pad off, r)
      | none =>
        match wcByte (r.s.core c) pa with
        | some b => (b, r)
        | none => (homeByte r.s ks pa, r)

/-- Reads n bytes from a location on. -/
def readBytes (r : Run) (core : Option Nat) (l : Loc) : Nat → List Byte × Run
  | 0 => ([], r)
  | n + 1 =>
    let (b, r) := readByte r core l
    let (bs, r) := readBytes r core (l.plus 1) n
    (b :: bs, r)

/-- The engine `src`, at work for hart h, detects an uncorrectable data error: the halt line of the partition that owns the hart rises.
In a hall that no partition owns the error is counted only (24 R424). -/
def hartFatal (s : State) (h src : Nat) (t : TrapInfo) (next : Word) : List Upd :=
  match partOfHall s (hallOf h) with
  | some p => engineFatal s p src t next
  | none => reported t

/-- A fill that core c makes for a store that has retired meets an uncorrectable error among n bytes (24 R424): the halt line of the
core's partition rises. A lane is no source of R378, and the core's vector unit stands for it (DESIGN CHOICE, log entry 127). -/
def laneError (s : State) (c : Nat) (l : Loc) (n : Nat) : List Upd :=
  match badIn s l n with
  | none => []
  | some k =>
    hartFatal s (4 * c) (5120 + c) (badData k (BitVec.ofNat 64 l.va) 0) 0

/-- The read of a held block that does not cover its 256 bytes may meet an uncorrectable error (R232). -/
def blockError (s : State) (c : Nat) (b : WcBlock) : List Upd :=
  if b.bytes.length = 256 then [] else laneError s c (.mem b.pa b.pa none) 256

/-- Writes a held block of a core's lane: reads, merges and writes it (R232). -/
def wcFlushBlock (r : Run) (c : Nat) (b : WcBlock) : Run :=
  let r := (r.add (.core c fun k => { k with wc := k.wc.filter fun x => x.pa != b.pa })).addAll (blockError r.s c b)
  b.bytes.foldl (fun r p => homeWrite none 2 r (b.pa + p.1) [p.2]) (keepPast r (· != c) (.mem 0 b.pa none) 256)

/-- The stale bytes of a core after a write of n bytes at an offset of its scratchpad. -/
def freshen (off n : Nat) (t : Tab Byte) : Tab Byte := t.filter fun p => decide (p.1 < off) || decide (off + n ≤ p.1)

/-- TMU runs of core c no longer read what copies have overwritten (17 R341). -/
def dropStale (r : Run) (c : Nat) : Run :=
  if (r.s.core c).stale.isEmpty then r else r.add (.core c fun k => { k with stale := [] })

/-- An ordering point of core c: the wait of every held block ends (R232, Demand), and what copies have overwritten is gone. -/
def wcFlush (r : Run) (c : Nat) : Run := dropStale ((r.s.core c).wc.foldl (fun r b => wcFlushBlock r c b) r) c

/-- The wait of the held block at a location ends, where core c holds one. -/
def wcFlushAt (r : Run) (c : Nat) (l : Loc) : Run :=
  match l with
  | .mem _ pa _ => ((r.s.core c).wc.filter fun b => b.pa == pa / 256 * 256).foldl (fun r b => wcFlushBlock r c b) r
  | .pad .. => r

/-- The lane of a block (R226, R232). -/
def wcLane (pa : Nat) : Nat := pa / 256 % 16

/-- A write to a compressed frame: held in the lane unless it completes a block or `wcwait` is zero (R232). -/
def wcWrite (r : Run) (c pa : Nat) (bs : List Byte) : Run :=
  let r := keepPast r (· == c) (.mem 0 pa none) bs.length
  let k := r.s.core c
  let base := pa / 256 * 256
  let old := (k.wc.find? fun b => b.pa == base).getD ⟨base, r.s.cycles c, []⟩
  let held := (List.range bs.length).foldl (fun t i => tput t (pa % 256 + i) (byteAt bs i)) old.bytes
  let blk : WcBlock := { old with bytes := held }
  if k.wcwait = 0 ∨ held.length = 256 then
    wcFlushBlock (r.add (.core c fun k => { k with wc := (k.wc.filter fun b => b.pa != base) ++ [blk] })) c blk
  else
    let lane := k.wc.filter fun b => wcLane b.pa == wcLane base && b.pa != base
    let isNew := !k.wc.any fun b => b.pa == base
    let r := match lane with
      | o :: _ => if isNew ∧ 8 ≤ lane.length then wcFlushBlock r c o else r
      | [] => r
    r.add (.core c fun k => { k with wc :=
      if isNew then k.wc ++ [blk] else k.wc.map fun b => if b.pa = base then blk else b })

/-- Writes bytes into the words of a stash slot; partly written invalid words are filled first (R238). -/
def stashWrite (r : Run) (c : Nat) (t : StashSlot) (va pa : Nat) (ks : Option Nat) (bs : List Byte) : Run :=
  let off := t.off + (va - t.va)
  let w0 := off / 4
  let w1 := (off + bs.length - 1) / 4
  let r := (List.range (w1 - w0 + 1)).foldl (fun r i =>
    let w := w0 + i
    let whole := decide (off ≤ 4 * w) && decide (4 * w + 4 ≤ off + bs.length)
    if whole || ((r.s.core c).stw.find? fun p => p.1 == w).isSome then r
    else stashFill r c t (t.va + (4 * w - t.off)) ((pa + 4 * w) - off) ks) r
  let r := keepPast r (fun _ => true) (.mem va pa ks) bs.length
  let r := breakResv (evictOthers r (some (c, lineWord t va)) pa) pa bs.length
  r.add (.core c fun k =>
    { k with pad := tsetAll 0 k.pad ((List.range bs.length).map fun i => (off + i, byteAt bs i)),
             stw := (List.range (w1 - w0 + 1)).foldl (fun s i => tput s (w0 + i) ⟨pa / 4 * 4 + 4 * i, ks, true⟩) k.stw })

/-- Writes bytes of one access (within one 64-byte line, or in a scratchpad) through a core. -/
def writeLoc (r : Run) (core : Option Nat) (l : Loc) (bs : List Byte) : Run :=
  match l with
  | .pad _ c off =>
    (keepPast r (fun _ => true) l bs.length).add (.core c fun k =>
      { k with pad := tsetAll 0 k.pad ((List.range bs.length).map fun i => (off + i, byteAt bs i))
               stale := freshen off bs.length k.stale })
  | .mem va pa ks =>
    match core with
    | none => putHome r ks pa bs
    | some c =>
      match stashSlotOf (r.s.core c) va with
      | some t => stashWrite r c t va pa ks bs
      | none =>
        if isDevPa pa && frameAttr r.s (pa / 4096) == some true then wcWrite r c pa bs
        else putHome r ks pa bs

/-- Writes bytes of one access through a core, performed at once for every party: an atomic's own write (05 R111, R113). -/
def writeNow (r : Run) (c : Nat) (l : Loc) (bs : List Byte) : Run :=
  match l with
  | .pad .. => writeLoc r (some c) l bs
  | .mem va pa ks =>
    match stashSlotOf (r.s.core c) va with
    | some _ => writeLoc r (some c) l bs
    | none => putHome r ks pa bs

/-! ### Conservation monitors count performed stores (10 R282) -/

/-- The exact value of stored bytes in a monitored format, as an integer over a power of two, or none for a NaN or an
infinity. -/
def monDecode (fmt : Nat) (v : Nat) : Option (Int × Nat) :=
  let fl := fun (eb mb : Nat) =>
    let m := v % 2 ^ mb
    let e := v / 2 ^ mb % 2 ^ eb
    let sg : Int := if v / 2 ^ (eb + mb) % 2 = 1 then -1 else 1
    let bias := 2 ^ (eb - 1) - 1
    if e = 2 ^ eb - 1 then none
    else if e = 0 then some (sg * (m : Int), bias - 1 + mb)
    else if bias + mb ≤ e then some (sg * ((2 ^ mb + m) * 2 ^ (e - bias - mb) : Nat), 0)
    else some (sg * ((2 ^ mb + m : Nat) : Int), bias + mb - e)
  match fmt with
  | 9 => fl 8 23
  | 10 => fl 8 7
  | 11 => fl 5 10
  | 3 => some ((BitVec.ofNat 32 v).toInt, 0)
  | 4 => some ((BitVec.ofNat 64 v).toInt, 0)
  | _ => some ((v % 2 ^ 32 : Nat), 0)

/-- Element size of a monitored format. -/
def monSize (fmt : Nat) : Nat := if fmt = 4 then 8 else if fmt = 10 ∨ fmt = 11 then 2 else 4

/-- Adds one stored element to a monitor (R282). -/
def monAdd (m : Monitor) (v : Nat) : Monitor :=
  match monDecode m.fmt v with
  | none => { m with nf := true }
  | some (n, d) =>
    let w3 := m.nom.getD 3 0
    let wt := (BitVec.ofNat 32 (w3.toNat / 2 ^ 32)).toInt
    let x := (BitVec.ofNat 8 (w3.toNat / 256)).toInt
    -- the term is n * W * 2^(X - d); in units of 2^-160 its exponent is X + 160 - d
    let ex : Int := x + 160 - d
    let num := n * wt
    let (u, cut) := if 0 ≤ ex then (num * 2 ^ ex.toNat, false)
      else (num.tdiv (2 ^ (-ex).toNat), num.tmod (2 ^ (-ex).toNat) != 0)
    let t := m.sum.toInt + u
    { m with sum := BitVec.ofInt 320 t, tr := m.tr || cut,
             ov := m.ov || decide (t < -(2 ^ 319)) || decide (2 ^ 319 ≤ t) }

/-- What one monitor makes of a store of `bs` at virtual address va (R281, R282). -/
def monStore (m : Monitor) (va : Nat) (bs : List Byte) : Monitor :=
  if !m.arm then m else
  let z := monSize m.fmt
  let base := (m.nom.getD 0 0).toNat
  let so := (m.nom.getD 1 0).toNat
  let stride := so / 2 ^ 32
  let first := base + so % 2 ^ 32
  let n := (m.nom.getD 2 0).toNat
  -- elements k whose bytes meet [va, va + len)
  let k0 := (va - first) / stride
  (List.range (bs.length + 1)).foldl (fun m i =>
    let k := k0 + i
    let a := first + k * stride
    if k < n ∧ a < va + bs.length ∧ va < a + z then
      if va ≤ a ∧ a + z ≤ va + bs.length then monAdd m (ofLe ((bs.drop (a - va)).take z)) else { m with pw := true }
    else m) m

/-- Counts a performed store in the monitors of a core: every store of its harts, a service hart's too (R282). Each entry of a strip
counts as a store of its own, so each element of a vector store does (DESIGN CHOICE, log entry 156). -/
def monCount (r : Run) (c va : Nat) (bs : List Byte) : Run :=
  if (r.s.core c).mon.any fun p => p.2.arm then
    r.add (.core c fun k => { k with mon := k.mon.map fun p => (p.1, monStore p.2 (va % 2 ^ 64) bs) })
  else r

/-- A store of strand n: performed and counted. -/
def storeLoc (r : Run) (n : Nat) (l : Loc) (bs : List Byte) : Run :=
  seenOwn (monCount (writeLoc r (some (n / 8)) l bs) (n / 8) l.va bs) n l bs.length

/-! ### The strip buffer as its strand's loads see it (02 R47) -/

/-- A byte with the nibbles that a store writes (20 R384): 1 the low one, 2 the high one, else both. -/
def mergeNib (nib : Nat) (b old : Byte) : Byte :=
  match nib with
  | 1 => (old &&& 0xF0) ||| (b &&& 0x0F)
  | 2 => (old &&& 0x0F) ||| (b &&& 0xF0)
  | _ => b

/-- The byte of a strip entry at a key: its value under the byte that was there before. -/
def stripEntByte (e : StripEnt) (key : Nat) (old : Byte) : Byte :=
  if e.loc.key ≤ key ∧ key < e.loc.key + e.bytes.length ∧ !e.hidden.contains (key - e.loc.key) then
    mergeNib e.nib (byteAt e.bytes (key - e.loc.key)) old
  else old

/-- The youngest buffered value of each byte. -/
def stripOver (strip : List StripEnt) (l : Loc) (bs : List Byte) : List Byte :=
  if strip.isEmpty then bs else
  (List.range bs.length).map fun i => strip.foldl (fun b e => stripEntByte e (l.key + i) b) (byteAt bs i)

/-- Whether the strip holds a store to any of n bytes from a location on. -/
def stripMeets (strip : List StripEnt) (l : Loc) (n : Nat) : Bool :=
  strip.any fun e => decide (e.loc.key < l.key + n) && decide (l.key < e.loc.key + e.bytes.length)

/-- A younger scalar store of the strand hides the strip's bytes from later loads (R47). -/
def stripHide (strip : List StripEnt) (l : Loc) (n : Nat) : List StripEnt :=
  strip.map fun e =>
    let new := (List.range e.bytes.length).filter fun i =>
      decide (l.key ≤ e.loc.key + i) && decide (e.loc.key + i < l.key + n)
    { e with hidden := e.hidden ++ new }

/-- Bits that an entry writes: its bytes, or the nibbles of a 4-bit store. -/
def stripEntBits (e : StripEnt) : Nat :=
  if e.nib = 0 then 8 * e.bytes.length else if e.nib = 3 then 8 else 4

/-- Occupancy of the strip buffer in bytes; each store's bits are rounded up on their own (R46). -/
def stripBytes (strip : List StripEnt) : Nat :=
  let p := strip.foldl (fun p e =>
    if e.first then (p.1 + (p.2 + 7) / 8, stripEntBits e) else (p.1, p.2 + stripEntBits e)) (0, 0)
  p.1 + (p.2 + 7) / 8

/-! ### Stores that are not performed (02 R47; 04 R88; 11 R293) -/

/-- The stores that strand n holds, oldest first. -/
def Hart.heldBy (h : Hart) (n : Nat) : List Held := if n % 2 = 0 then h.heldA else h.held
/-- The hart with other held stores of strand n. -/
def setHeld (n : Nat) (l : List Held) (h : Hart) : Hart := if n % 2 = 0 then { h with heldA := l } else { h with held := l }

/-- Two held stores meet in a byte. -/
def Held.meets (a b : Held) : Bool :=
  decide (a.loc.key < b.loc.key + b.bytes.length) && decide (b.loc.key < a.loc.key + a.bytes.length)

/-- Held store a, the older, is performed before held store b: they meet (04 R88), or are elements of one VSTXO (07 R177). -/
def Held.before (a b : Held) : Bool := a.meets b || (a.ord != 0 && a.ord == b.ord)

/-- The word of a virtual address is valid in a core's stash. -/
def wordValid (k : Core) (va : Nat) : Bool :=
  match stashSlotOf k va with
  | some t => k.stw.any fun w => w.1 == (t.off + (va - t.va)) / 4
  | none => false

/-- The word at a physical address is valid in a core's L1 data cache (09 R233). -/
def l1Valid (k : Core) (pa : Nat) : Bool := k.l1d.any fun e => e.line == pa / 64 && e.valid.getLsbD (pa % 64 / 4)

/-- The line that the merging fill of a store reads: that of a store of less than a word to memory (09 R233, R238). A word that is
valid in the core's stash or in its L1 fills nothing. -/
def fillLine (k : Core) (l : Loc) (n : Nat) : Option Loc :=
  match l with
  | .mem va pa ks => if n < 4 ∧ wordValid k va = false ∧ l1Valid k pa = false then some (.mem va (pa / 64 * 64) ks) else none
  | .pad .. => none

/-- The merging fill of a store that core c performs after its retirement may meet an uncorrectable error. -/
def fillError (s : State) (c : Nat) (l : Loc) (n : Nat) : List Upd :=
  match fillLine (s.core c) l n with | some l => laneError s c l 64 | none => []

/-- Performs a store of strand n: its bytes, or the nibbles of one byte merged with what lies there. An element of a VSTXO does
not stay in a lane, so that every party sees it before the elements above it (07 R177). -/
def storeHeld (n : Nat) (r : Run) (e : Held) : Run :=
  let r := r.addAll (fillError r.s (n / 8) e.loc e.bytes.length)
  let r := if e.nib = 0 ∨ e.nib = 3 then storeLoc r n e.loc e.bytes
    else
      let b := readByte r (some (n / 8)) e.loc
      storeLoc b.2 n e.loc [mergeNib e.nib (byteAt e.bytes 0) b.1]
  if e.ord = 0 then r else wcFlushAt r (n / 8) e.loc

/-- Performs held store e of strand n: its bytes hide those of the older buffered stores from then on. -/
def performHeld (r : Run) (n : Nat) (e : Held) : Run :=
  (storeHeld n r e).add (.hart (n / 2) fun k =>
    { k with strip := stripHide (k.strip.take e.older) e.loc e.bytes.length ++ k.strip.drop e.older })

/-- The held stores that go with those that meet p, and the others: an older store to a byte is performed first (04 R88), and an
older element of one VSTXO (07 R177). -/
def dueHeld (p : Held → Bool) : List Held → List Held × List Held
  | [] => ([], [])
  | e :: es =>
    let d := dueHeld p es
    if p e || d.1.any e.before then (e :: d.1, d.2) else (d.1, e :: d.2)

/-- Performs the held stores of strand n that meet p, with those that must precede them, oldest first. -/
def flushDue (p : Held → Bool) (r : Run) (n : Nat) : Run :=
  let d := dueHeld p ((r.s.hart (n / 2)).heldBy n)
  if d.1.isEmpty then r else
  (d.1.foldl (fun r e => performHeld r n e) r).add (.hart (n / 2) (setHeld n d.2))

/-- Performs every held store of strand n. -/
def flushHeld (r : Run) (n : Nat) : Run := flushDue (fun _ => true) r n
/-- Performs the held scalar stores of strand n; vector stores wait for VSYNC or an arrival (05 R110; 11 R293). -/
def flushScalars (r : Run) (n : Nat) : Run := flushDue (fun e => !e.vec) r n
/-- Performs the held scalar stores of strand n and every held store to n bytes from a location on. -/
def flushFor (l : Loc) (k : Nat) (r : Run) (n : Nat) : Run :=
  flushDue (fun e => !e.vec || (decide (e.loc.key < l.key + k) && decide (l.key < e.loc.key + e.bytes.length))) r n
/-- Performs the held stores of strand n's SCOMMITs, with the older ones that they meet. -/
def flushCommitted (r : Run) (n : Nat) : Run := flushDue (·.vec) r n
/-- Performs every held store of hart h. -/
def flushHart (r : Run) (h : Nat) : Run := flushHeld (flushHeld r (2 * h)) (2 * h + 1)

/-- The cores of partition p. -/
def partCores (s : State) (p : Nat) : List Nat :=
  ((List.range 40).filter fun k => (s.part p).cfg.getLsbD k).flatMap fun k => (List.range 16).map (16 * k + ·)

/-- Performs every store of the harts of several cores that is not performed yet, held stores and held blocks. -/
def performAll (r : Run) (cs : List Nat) : Run :=
  cs.foldl (fun r c => wcFlush ((List.range 4).foldl (fun r t => flushHart r (4 * c + t)) r) c) r

/-- The cores on which a store may be held. -/
def holdingCores (s : State) : List Nat :=
  List.eraseDups (s.cores.map (·.1) ++ s.harts.map fun h => h.1 / 4)

/-- Empties the strip buffer; the held stores then stand before every later buffered store. -/
def emptyStrip (h : Hart) : Hart := { h with strip := [], held := h.held.map fun e => { e with older := 0 } }

/-- What a held store makes of the bytes from a location on. -/
def heldOver (e : Held) (l : Loc) (bs : List Byte) : List Byte :=
  (List.range bs.length).map fun i =>
    if e.loc.key ≤ l.key + i ∧ l.key + i < e.loc.key + e.bytes.length
    then mergeNib e.nib (byteAt e.bytes (l.key + i - e.loc.key)) (byteAt bs i) else byteAt bs i

/-- What several held stores make of the bytes from a location on, in order. -/
def heldsOver (es : List Held) (l : Loc) (bs : List Byte) : List Byte := es.foldl (fun bs e => heldOver e l bs) bs

/-- The value of each byte from a location on as a scalar load of the execute strand sees it: the youngest of the buffered
stores and the held stores in program order (R47). -/
def stripHeldOver (h : Hart) (l : Loc) (bs : List Byte) : List Byte :=
  if h.held.isEmpty then stripOver h.strip l bs else
  let p := h.held.foldl (fun (p : Nat × List Byte) e =>
    (e.older, heldOver e l (stripOver ((h.strip.take e.older).drop p.1) l p.2))) (0, bs)
  stripOver (h.strip.drop p.1) l p.2

/-- What strand n's scalar load makes of the bytes that lie from a location on: it sees its own stores, performed or not, and an
access strand's load sees no strip (R47, R88). -/
def ownBytes (h : Hart) (n : Nat) (l : Loc) (bs : List Byte) : List Byte :=
  if n % 2 = 0 then heldsOver h.heldA l bs else stripHeldOver h l bs

/-- What a vector load makes of the bytes that lie from a location on: it sees the stores of every SCOMMIT and of the strip, and
passes over the scalar stores that are held (R47; 11 R293). -/
def vecBytes (h : Hart) (l : Loc) (bs : List Byte) : List Byte := stripOver h.strip l (heldsOver (h.held.filter (·.vec)) l bs)

/-! ### Instruction fetch (03 R57) -/

/-- The instruction word at an address, or none where it cannot be fetched, with the fills made; fetches read the home's
value, coherent with every stash (log entry 14). -/
def fetchWordR (r : Run) (h : Nat) (va : Nat) : Option Nat × Run :=
  match translate r (spaceOf r.s h) va 2 with
  | .error x => (none, x.2)
  | .ok (x, r) => (if meetsBad r.s x.loc 4 then none else some (ofLe (readBytes r none x.loc 4).1), r)

/-- Why the word at an address cannot be fetched: an uncorrectable error, or the fetch fault (24 R424). -/
def fetchTrap (s : State) (h : Nat) (va : Word) : TrapInfo :=
  match translate (Run.start s) (spaceOf s h) va.toNat 2 with
  | .error e => if e.1.1 = 54 then xlTrap e.1 va 0 else { code := 2, val := va }
  | .ok (x, _) => match badIn s x.loc 4 with | some k => badData k va 0 | none => { code := 2, val := va }

/-- The instruction word at an address of hart h. -/
def fetchWord (s : State) (h : Nat) (va : Nat) : Option Nat := (fetchWordR (Run.start s) h va).1

/-- n consecutive words, or the address of the first that cannot be fetched. -/
def fetchWords (h : Nat) : Nat → Run → Nat → Except Word (List Nat) × Run
  | 0, r, _ => (.ok [], r)
  | n + 1, r, va =>
    match fetchWordR r h va with
    | (none, r) => (.error (BitVec.ofNat 64 va), r)
    | (some w, r) =>
      match fetchWords h n r ((va + 4) % 2 ^ 64) with
      | (.error a, r) => (.error a, r)
      | (.ok ws, r) => (.ok (w :: ws), r)

end Sys2Proof.Machine
end

