-- ==== Sys2Proof/Machine/Ops.lean ====
section
/-! DEFINITION. Sys2Proof/Machine/Ops.lean: the shared operations: scalar registers and queues (R22, R27 to R29), issue
(R71), taking a trap and returning from one (R370, R372), the halt line (R378 to R380), loop ends (R50, R51) and
retirement. A meaning is `finish` of an `Act`. -/

namespace Sys2Proof.Machine

/-! ### The strand that moves -/

/-- The hart of the strand that moves. -/
def State.h (s : State) : Nat := s.cur / 2
/-- The core of the strand that moves. -/
def State.c (s : State) : Nat := s.cur / 8
/-- The strand that moves. -/
def State.me (s : State) : Strand := s.strand s.cur
/-- The hart record of the strand that moves. -/
def State.myHart (s : State) : Hart := s.hart s.h
/-- Whether the strand that moves is an execute strand. -/
def State.isExec (s : State) : Bool := s.cur % 2 == 1

/-- An acquire that orders vector loads too: the hart's later ones return no earlier values (05 R133; 10 R256). -/
def acquireAll (s : State) : Run := dropPast (Run.start s) s.h

/-! ### Registers and queues -/

/-- A scalar register; x0 reads zero (Table 1.6). -/
def getX (st : Strand) (r : Nat) : Word := if r = 0 then 0 else tget 0 st.x r
/-- Writes a scalar register; writes to x0 are discarded. -/
def setX (r : Nat) (v : Word) (st : Strand) : Strand := if r = 0 then st else { st with x := tset 0 st.x r v }
/-- The strand that reads a queue: 1 for q0 to q3 and q6, 0 for q4, q5 and q7 (Table 2.2). -/
def qReader (q : Nat) : Nat := if q ≤ 3 ∨ q = 6 then 1 else 0
/-- A queue's entries, head first. -/
def Hart.queue (h : Hart) (q : Nat) : List Word := tget [] h.q q
/-- Appends an entry. -/
def pushQ (q : Nat) (v : Word) (h : Hart) : Hart :=
  let h := { h with q := tput h.q q (h.queue q ++ [v]) }
  if qReader q = 0 then { h with pushA := h.pushA + 1 } else { h with pushX := h.pushX + 1 }
/-- Removes the head entry. -/
def popQ (q : Nat) (h : Hart) : Hart := { h with q := tput h.q q ((h.queue q).drop 1) }

/-- The bits of `epcfg.n` that the steward writes (10 Table 10.1). -/
def epMask : Word := 0xF8007FFF00000000
/-- The bits of `tvec` (20 Table 20.2): bit 1 reads zero. -/
def tvecMask : Word := 0xFFFFFFFFFFFFFFFD
/-- The bits of `tcause` that a write stores (20 Table 20.2). -/
def causeMask : Word := 0xF000000000FF00FF
/-- The bits of `pivreg` (07 Table 7.10). -/
def pivMask : Word := 0x80000000FFFFFFFF
/-- The bits of `mfc.ctl` (06 Table 6.11). -/
def mfcMask : Word := 0x7FE01F
/-- The bits of `gang` (19 R356). -/
def gangMask : Word := 0xFFFFFFFFFF000000
/-- The bits of `slots.j`: each entry has V, L and hart (19 Table 19.2). -/
def slotMask : Word := 0xC3C3C3C3C3C3C3C3

/-- How often a queue is named among sources (R28). -/
def popsOf (q : Nat) : List Src → Nat
  | [] => 0
  | .q n :: t => (if n = q then 1 else 0) + popsOf q t
  | _ :: t => popsOf q t

/-- The value of the j-th of several sources, taken in order (R28). -/
def srcVal (st : Strand) (h : Hart) (srcs : List Src) (j : Nat) : Word :=
  match srcs[j]? with
  | some (.x r) => getX st r
  | some (.q n) => (h.queue n).getD (popsOf n (srcs.take j)) 0
  | some (.imm v) => v
  | none => 0

/-- The pops of the sources, in order. -/
def popAll (n : Nat) : List Src → List Upd
  | [] => []
  | .q k :: t => .hart n (popQ k) :: popAll n t
  | _ :: t => popAll n t

/-- The update that writes a destination: a register of strand n, or a push by it. -/
def setD (n : Nat) (d : Dst) (v : Word) : List Upd :=
  match d with
  | .x r => [.strand n (setX r v)]
  | .q k => [.hart (n / 2) (pushQ k v)]

/-! ### What an instruction does -/

/-- The address at which a trap of the strand's present instruction is reported (R74). -/
def trapAddr (st : Strand) : Word := if st.pfx.isSome then st.pc - 4 else st.pc

/-- The strand's present instruction among those that may wait at one time: its address, and whether a handler runs it, which
may come upon the address of the instruction that it has interrupted (R134, R255; log entry 137). -/
def site (st : Strand) : Word × Bool := (trapAddr st, st.tcause.getLsbD 63)
/-- The record of the waiting instruction at a site (R134, R255). -/
def recordAt (at_ : Word × Bool) (l : List (Nat × Nat × Word × Bool)) : Option (Nat × Nat) :=
  (l.find? fun e => e.2.2 == at_).map fun e => (e.1, e.2.1)
/-- The records of the other instructions. -/
def recordsNotAt (at_ : Word × Bool) (l : List (Nat × Nat × Word × Bool)) : List (Nat × Nat × Word × Bool) :=
  l.filter fun e => e.2.2 != at_

/-- What the strand does with the instruction at its pc. -/
inductive Act where
  /-- Retires after these updates and goes on at the next instruction. -/
  | done (us : List Upd)
  /-- Retires and transfers control. -/
  | jump (us : List Upd) (target : Word)
  /-- Raises a trap, with no effect. -/
  | trap (t : TrapInfo)
  /-- The software trap: its own effect is the trap (R104). -/
  | soft (us : List Upd) (t : TrapInfo)
  /-- A trap after which only these updates stand: those of the elements below an element-precise fault (R178), or the
  translation fills made (09 R230). -/
  | part (us : List Upd) (t : TrapInfo)
  /-- Waits at this instruction; q marks a wait under R29. -/
  | wait (q : Bool) (us : List Upd)
  /-- An event that does not apply. -/
  | fault (f : Fault)

/-- Adds updates before those of a retirement. -/
def Act.after (a : Act) (us : List Upd) : Act :=
  match a with
  | .done vs => .done (us ++ vs)
  | .jump vs t => .jump (us ++ vs) t
  | .soft vs t => .soft (us ++ vs) t
  | a => a

/-- The result of a computation over a run; a trap leaves the translation fills that were made (09 R230). -/
def Act.ofM {α : Type} (s : State) (m : M α) (k : α → Run → Act) : Act :=
  match m (Run.start s) with
  | .ok (a, r) => k a r
  | .error (t, r) => .part r.kept t

/-- A retirement with the updates that a computation made. -/
def Act.run (s : State) (m : M Unit) : Act := Act.ofM s m fun _ r => .done r.out

/-! ### Issue -/

/-- On which strands an instruction runs (Table 2.1). -/
inductive SClass where
  | both | access | execute
deriving DecidableEq, Repr

/-- The class allows the strand. -/
def SClass.ok (c : SClass) (n : Nat) : Bool :=
  match c with
  | .both => true
  | .access => n % 2 == 0
  | .execute => n % 2 == 1

/-- Every queue is named along its direction (R27). -/
def dirOk (n : Nat) (srcs : List Src) (dsts : List Dst) : Bool :=
  (srcs.all fun s => match s with | .q k => qReader k == n % 2 | _ => true)
  && dsts.all fun d => match d with | .q k => qReader k != n % 2 | _ => true

/-- An operand register that awaits a token (R240). -/
def tokenWait (st : Strand) (srcs : List Src) (dsts : List Dst) (plain : List Nat) : Bool :=
  (srcs.any fun s => match s with | .x r => st.pend.contains r | _ => false)
  || (dsts.any fun d => match d with | .x r => st.pend.contains r | _ => false)
  || plain.any st.pend.contains

/-- Every popped queue holds enough entries and every pushed queue has room (R29). -/
def queuesReady (h : Hart) (srcs : List Src) (dsts : List Dst) : Bool :=
  (srcs.all fun s => match s with | .q k => decide (popsOf k srcs ≤ (h.queue k).length) | _ => true)
  && dsts.all fun d => match d with | .q k => decide ((h.queue k).length < 16) | _ => true

/-- Issue: strand class, queue directions, privilege, then the waits, in the order of R71; k is the instruction's own
part, given its source values. `plain` lists further registers that the instruction names. -/
def issue (s : State) (cls : SClass) (priv : Nat) (srcs : List Src) (dsts : List Dst) (plain : List Nat)
    (k : (Nat → Word) → Act) : Act :=
  if !cls.ok s.cur || !dirOk s.cur srcs dsts then .trap { code := 4 }
  else if privOf s s.h < priv then .trap { code := 5 }
  else if tokenWait s.me srcs dsts plain then .wait false []
  else if !queuesReady s.myHart srcs dsts then .wait true []
  else (k (srcVal s.me s.myHart srcs)).after (popAll s.h srcs)

/-- Conditions on the state and the operands under which `issue` runs the instruction's own part. -/
def canIssue (s : State) (cls : SClass) (priv : Nat) (srcs : List Src) (dsts : List Dst) (plain : List Nat) : Prop :=
  cls.ok s.cur = true ∧ dirOk s.cur srcs dsts = true ∧ priv ≤ privOf s s.h
  ∧ tokenWait s.me srcs dsts plain = false ∧ queuesReady s.myHart srcs dsts = true

/-- The registers of a group from xa (R61). -/
def groupRegs (a k : Nat) : List Nat := (List.range k).map (a + ·)

/-! ### Loop ends (R50, R51) -/

/-- The end test at a retiring instruction whose addresses are `pcs`: the next address if a loop returns, and the strand
with its counters and active loops. -/
def loopStep (pcs : List Word) : List Loop → Tab Word → Option Word × List Loop × Tab Word
  | [], lc => (none, [], lc)
  | l :: ls, lc =>
    if pcs.contains l.stop then
      let v := tget 0 lc l.lc - 1
      let lc := tset 0 lc l.lc v
      if v ≠ 0 then (some l.start, l :: ls, lc) else loopStep pcs ls lc
    else (none, l :: ls, lc)

/-! ### Stops at the halt line (20 R378 to R380) -/

/-- An engine of partition p that has work to do may still do n more units of it: the halt line is low, or the engine has not
stopped and stays within its skid bound (Table 20.4). -/
def engineGoes (s : State) (p src n bound : Nat) : Bool :=
  let x := (s.part p).halt
  x.st == 0 || (x.st == 1 && !x.stopped.contains src && decide (tget 0 x.ops src + n ≤ bound))

/-- The engine has done n units of work, which count while the halt line is up. -/
def countOps (p src n : Nat) : Upd := .part p fun q =>
  if q.halt.st = 1 then { q with halt := { q.halt with ops := tput q.halt.ops src (tget 0 q.halt.ops src + n) } } else q

/-- A strand stops at a fatal trap (R378): it is marked stopped with its trap; a reeve strand sets bit 5 of `rint`, any
other raises its partition's halt line. -/
def fatalTrap (s : State) (n : Nat) (t : TrapInfo) (at_ : Word) (pf : Bool) : List Upd :=
  let st := s.strand n
  let f : Fatal := ⟨t, st.tcause.getLsbD 63, at_, pf, s.gtc.toNat, (s.hart (n / 2)).sbase⟩
  let stop : Upd := .strand n fun st => { st with pc := at_, pfx := none, sleep := none, stopped := true, fatal := some f }
  if isReeve (n / 2) then [stop, .dev fun d => { d with rint := d.rint ||| 0x20 }]
  else
    let p := partIx s (n / 2)
    (if (s.part p).halt.st = 0 then [zeroSkid p] else []) ++ [stop, haltLine s p n t s.gtc.toNat]

/-! ### Instruction fetch (R57) -/

/-- Every word of the instruction at an address of hart h, or the address of the first that cannot be fetched, with the
fills made. -/
def fetchInstr (r : Run) (h : Nat) (va : Word) : Except Word (List Nat) × Run :=
  match fetchWordR r h va.toNat with
  | (none, r) => (.error va, r)
  | (some w, r) =>
    match fetchWords h ((formOf w).len / 4 - 1) r ((va.toNat + 4) % 2 ^ 64) with
    | (.error a, r) => (.error a, r)
    | (.ok ws, r) => (.ok (w :: ws), r)

/-- The length of the instruction that these words hold. -/
def lenOf (ws : List Nat) : Nat := (formOf (ws.headD 0)).len

/-- The address after the instruction at an end address, or after the prefixed pair in which it stands, found by fetching
it (R95, R97); the error is the address that cannot be fetched. A MOD heads a pair where a prefixable instruction follows
it (R73, R74). -/
def afterEnd (r : Run) (h : Nat) (va : Word) : Except Word Word × Run :=
  match fetchInstr r h va with
  | (.error a, r) => (.error a, r)
  | (.ok ws, r) =>
    let next := va + BitVec.ofNat 64 (lenOf ws)
    match decode ws with
    | some (.mod _) =>
      match fetchInstr r h next with
      | (.error a, r) => (.error a, r)
      | (.ok vs, r) =>
        (.ok (if prefixableWord (vs.headD 0) && (decode vs).isSome then next + BitVec.ofNat 64 (lenOf vs) else next), r)
    | _ => (.ok next, r)

/-! ### Taking a trap (20 R368, R370) -/

/-- The first word of the instruction at an address, zero where it cannot be fetched. -/
def wordAt (s : State) (h : Nat) (va : Word) : Nat :=
  (fetchWord s h va.toNat).getD 0

/-- `tword`: the first word at the trap's address; for a trap at a MOD's address also the first word after it (Table 20.2). -/
def trapWord (s : State) (h : Nat) (at_ : Word) : Word :=
  let w0 := wordAt s h at_
  let w1 := match decode [w0] with
    | some (.mod _) => wordAt s h (at_ + 4)
    | _ => 0
  BitVec.ofNat 64 (w1 * 2 ^ 32 + w0)

/-- `tcause` at delivery (Table 20.2). -/
def trapCause (t : TrapInfo) (pf sh sd : Bool) : Word :=
  BitVec.ofNat 64 (2 ^ 63 + pf.toNat * 2 ^ 62 + sh.toNat * 2 ^ 61 + sd.toNat * 2 ^ 60 + t.sub % 256 * 2 ^ 16 + t.code % 256)

/-- StripNonEmpty: an execute strand whose hart's strip buffer holds stores. -/
def stripHeld (s : State) (n : Nat) : Bool := n % 2 == 1 && !(s.hart (n / 2)).strip.isEmpty

/-- Strand n no longer waits under R29, so the queue-deadlock count starts again (R31). -/
def endWait (n : Nat) : Upd := .hart (n / 2) fun h =>
  if n % 2 = 0 then { h with waitA := false, dead := none } else { h with waitX := false, dead := none }

/-- Delivers a trap to the strand's handler: the trap record is written and the pc is the handler's address (R370). -/
def enterHandler (s : State) (n : Nat) (t : TrapInfo) (at_ next : Word) (pf sd : Bool) (word : Word) : Upd :=
  let sb := (s.hart (n / 2)).sbase
  let sh := stripHeld s n
  .strand n fun st =>
    { st with
      tfpc := at_, tpc := next, tcause := trapCause t pf sh sd, tval := t.val, telem := t.elem, tword := word, tsb := sb,
      pc := st.tvec >>> 2 <<< 2, pfx := none, sleep := none, stopped := false, fatal := none }

/-- The causes of class H (Table 20.3). -/
def classH (code : Nat) : Bool := code == 9 || code == 53 || code == 54

/-- The word of an instruction at an address by which its feature is known, and the address after the instruction: of a pair, the word
after the MOD, which is of a feature that this part has, and the address after both (15 R322; DEDUCED, log entry 19). -/
def featureWord (s : State) (h : Nat) (at_ : Word) : Nat × Word :=
  let a := match decode [wordAt s h at_] with
    | some (.mod _) => at_ + 4
    | _ => at_
  let w := wordAt s h a
  (w, a + BitVec.ofNat 64 (formOf w).len)

/-- The emulation routine that the loader of the running context's code object bound to the feature of the instruction at an
address (15 R322). -/
def boundEmulation (s : State) (n : Nat) (at_ : Word) : Option Word :=
  let w := (featureWord s (n / 2) at_).1
  if (decode [w]).isSome then none else
  match Config.featureOf w with
  | none => none
  | some f => ((s.part (partIx s (n / 2))).emul.find? fun e => some e.1 == entOf s (n / 2) && e.2.1 == f).map (·.2.2)

/-- The updates of a trap raised on strand n: at_ is the address at which it is raised (a MOD's for a prefixed pair) and
`next` the next address, which `tpc` takes for codes 7 and 64 (R370). An emulation routine is entered at its address, whatever its
alignment, which 15 R322 leaves open (DESIGN CHOICE, log entry 149). -/
def trapUpds (s : State) (n : Nat) (t : TrapInfo) (at_ next : Word) (pf : Bool) (word : Word) : List Upd :=
  let st := s.strand n
  reported t ++ [endWait n] ++
  match (if t.code = 1 ∧ pf = false ∧ privOf s (n / 2) = 0 then boundEmulation s n at_ else none) with
  | some routine =>
    let w := wordAt s (n / 2) at_
    let next := (featureWord s (n / 2) at_).2
    [.strand n fun st =>
      { setX 58 next (setX 57 (BitVec.ofNat 64 w) (setX 56 at_ st)) with
        pc := routine, pfx := none, sleep := none }]
  | none =>
    if classH t.code || st.tvec >>> 2 == 0 || st.tcause.getLsbD 63 then fatalTrap s n t at_ pf
    else [enterHandler s n t at_ (if t.code = 7 ∨ t.code = 64 then next else at_) pf false word]

/-- Takes a trap of the present instruction of strand n, whose length is `len`. -/
def takeTrap (s : State) (n : Nat) (t : TrapInfo) (len : Nat) : State :=
  let st := s.strand n
  let at_ := trapAddr st
  applyAll (trapUpds s n t at_ (st.pc + BitVec.ofNat 64 len) st.pfx.isSome (trapWord s (n / 2) at_)) s

/-! ### Retirement -/

/-- Hart bookkeeping at a retirement: the queue-deadlock count starts again and the strand issued last (R31, R52). -/
def retireHart (n : Nat) : Upd := .hart (n / 2) fun h => { h with waitA := false, waitX := false, dead := none, last := n % 2 }

/-- The state after strand n has retired its instruction in state s, whose effects are already applied; `target` is the
destination of a transfer, otherwise the loop-end test chooses the next address. -/
def retired (s : State) (n len : Nat) (target : Option Word) : State :=
  let st := s.strand n
  let r := match target with
    | some t => (some t, st.loops, st.lc)
    | none => loopStep (if st.pfx.isSome then [st.pc, st.pc - 4] else [st.pc]) st.loops st.lc
  let next := r.1.getD (st.pc + BitVec.ofNat 64 len)
  applyAll
    [.strand n fun st => { st with pc := next, loops := r.2.1, lc := r.2.2, pfx := none, sleep := none, skid := st.skid + 1 },
     retireHart n] s

/-- Retires the instruction of strand n. -/
def retire (s : State) (n len : Nat) (target : Option Word) : Host.Outcome State Fault Refusal :=
  .next (retired s n len target)

/-- The strand waits at its instruction, at the MOD of a prefixed pair; a wait under R29 starts or keeps the hart's
queue-deadlock count when the other strand waits too or has ended (R31). -/
def waitAt (s : State) (n : Nat) (q : Bool) : State :=
  let other := s.strand (if n % 2 = 0 then n + 1 else n - 1)
  let ended := match other.life with | .ended _ => true | _ => false
  applyAll
    [.strand n fun st => { st with pc := trapAddr st, pfx := none },
     .hart (n / 2) fun h =>
      if q then
        let h := if n % 2 = 0 then { h with waitA := true } else { h with waitX := true }
        if (h.waitA && h.waitX) || ended then { h with dead := some (h.dead.getD (s.cycles (n / 8))) } else h
      else if n % 2 = 0 then { h with waitA := false, dead := none } else { h with waitX := false, dead := none }] s

/-- A loop that returns to a misaligned start raises the target-alignment trap at its end instruction (R58). -/
def badReturn (s : State) (n : Nat) : Option Word :=
  let st := s.strand n
  match (loopStep (if st.pfx.isSome then [st.pc, st.pc - 4] else [st.pc]) st.loops st.lc).1 with
  | some a => if a.toNat % 4 = 0 then none else some a
  | none => none

/-- What the machine does once the strand has acted; len is the instruction's length. A TRAP makes no end test, for R104 gives the
instruction after it as the resume address (DEDUCED, log entry 48). -/
def finish (s : State) (len : Nat) (a : Act) : Host.Outcome State Fault Refusal :=
  match a with
  | .done us =>
    let t := applyAll us s
    match badReturn t s.cur with
    | some a => .next (takeTrap s s.cur { code := 3, val := a } len)
    | none => retire t s.cur len none
  | .jump us target =>
    if target.toNat % 4 = 0 then retire (applyAll us s) s.cur len (some target)
    else .next (takeTrap s s.cur { code := 3, val := target } len)
  | .trap t => .next (takeTrap s s.cur t len)
  | .soft us t => .next (takeTrap (applyAll us s) s.cur t len)
  | .part us t => .next (takeTrap (applyAll us s) s.cur t len)
  | .wait q us => .next (waitAt (applyAll us s) s.cur q)
  | .fault f => .fault f

/-- The outcome of an event: its updates, or the fault that it does not apply. Nothing moves in a module without power
(24 R422). -/
def event (s : State) (e : Option (List Upd)) : Host.Outcome State Fault Refusal :=
  match e with
  | some us => if s.dev.off then .fault .eventNotEnabled else .next (applyAll us s)
  | none => .fault .eventNotEnabled

end Sys2Proof.Machine
end

