-- ==== Sys2Proof/Machine/Flags.lean ====
section
/-! DEFINITION. Sys2Proof/Machine/Flags.lean: the prefix fields of MOD (03 Table 3.8), the dynamic rounding mode (06 R149), the
draws of R145, and the merge of flags into `fpf` (R148). The flags of one result are computed with the result in
Num.lean (R141 to R143). -/

namespace Sys2Proof.Machine

/-- The present prefix's rounding field, zero for none (Table 3.8). -/
def State.pRnd (s : State) : Nat := match s.me.pfx with | some p => p.rnd | none => 0
/-- The present prefix's saturation field, zero for none. -/
def State.pSat (s : State) : Nat := match s.me.pfx with | some p => p.sat | none => 0
/-- The present prefix suppresses flags. -/
def State.pFs (s : State) : Bool := match s.me.pfx with | some p => p.fs | none => false

/-- Merges flags into `fpf` of strand n, unless the prefix suppresses them (R72, R148). -/
def setFlags (s : State) (fl : BitVec 6) : List Upd :=
  if s.pFs || fl == 0 then [] else [.strand s.cur fun st => { st with fpf := st.fpf ||| fl }]

/-- The rounding mode of an instruction that rounds under the dynamic mode: the MOD field, else `fpm` (R149). -/
def dynMode (s : State) : Nat := if s.pRnd = 0 then s.me.fpm.toNat else s.pRnd

/-- The rounding mode of an instruction with a fixed mode, which a MOD replaces (R149). -/
def fixedMode (s : State) (dflt : Nat) : Nat := if s.pRnd = 0 then dflt else s.pRnd

/-- The draw of absolute element index `sbase` + e, with j = 0 (R145). -/
def drawAt (s : State) (e : Nat) : Nat := draw s.myHart.seed (s.myHart.sbase + BitVec.ofNat 64 e) 0

/-- RoundF of element e in a mode, with the saturation that the prefix asks for (R142). -/
def roundAt (s : State) (mode : Nat) (t : Ty) (e : Nat) (v : Val) : Nat × Flags :=
  roundF t mode (satOn t s.pSat) (if mode = 6 then drawAt s e else 0) v

/-- RoundI of element e in a mode (R143). -/
def roundIAt (s : State) (mode : Nat) (t : Ty) (e : Nat) (v : Val) : Nat × Flags :=
  let q := roundI t mode (if mode = 6 then drawAt s e else 0) v
  (encodeI t q.1, q.2)

/-- The union of flags. -/
def orFlags (l : List Flags) : Flags := l.foldl (· ||| ·) 0

end Sys2Proof.Machine
end

