-- ==== Sys2Proof/Machine/Gang.lean ====
section
/-! DEFINITION. Sys2Proof/Machine/Gang.lean: the gang of a hart, its grant and its attached members (02 R35 to R38). -/

namespace Sys2Proof.Machine

/-- The gang of a hart; a service hart has none (R126). -/
def gangOf (s : State) (h : Nat) : Option (Nat × Gang) :=
  if isService s h then none else
  match (s.hart h).gid with
  | none => none
  | some g => s.gangs.find? fun p => p.1 == g

/-- The set-length grant of a hart, in quarters; a hart of no gang has the whole width (log entry 21). -/
def grantOf (s : State) (h : Nat) : Nat := match gangOf s h with | some (_, g) => g.g | none => 4

/-- The attached set of the gang of hart h, which its leader's last VSETL sampled (R37). -/
def attOf (s : State) (h : Nat) : List Nat :=
  match gangOf s h with
  | some (_, g) => (s.hart (g.members.headD h)).att
  | none => (s.hart h).att

/-- The harts whose vector units the strand's vector instructions drive: its own, or the attached set of a leader (R37). -/
def vecHarts (s : State) : List Nat := if s.myHart.att.isEmpty then [s.h] else s.myHart.att

/-! ### The end of a strand -/

/-- Marks a strand ended. -/
def endLife (status : Word) (st : Strand) : Strand :=
  match st.life with
  | .ended _ => st
  | _ => { st with life := .ended status, sleep := none, arrived := [], popv := [] }

/-- Strand n waits under R29 no more; the hart's queue-deadlock count goes on only where the other strand waits (R31). -/
def noWait (n : Nat) : Upd := .hart (n / 2) fun h =>
  if n % 2 = 0 then { h with waitA := false, dead := if h.waitX then h.dead else none }
  else { h with waitX := false, dead := if h.waitA then h.dead else none }

/-- Strand n ends with a status, where it has not ended. -/
def endOne (n : Nat) (status : Word) : List Upd := [.strand n (endLife status), noWait n]

/-- A strand has ended. -/
def hasEnded (st : Strand) : Bool :=
  match st.life with
  | .ended _ => true
  | _ => false

/-- Brings a gang's finished members up to date: both strands ended and the vector unit released (R38). -/
def gangFinish (gid : Nat) : Upd := .other fun s =>
  { s with gangs := s.gangs.map fun p =>
      if p.1 = gid then
        (p.1, { p.2 with fin := p.2.members.filter fun m =>
          p.2.fin.contains m ||
          ((s.hart m).gid == some gid && hasEnded (s.strand (2 * m)) && hasEnded (s.strand (2 * m + 1))
            && (!p.2.span || p.2.released.contains m)) })
      else p }

end Sys2Proof.Machine
end

