-- ==== Sys2Proof/Machine/Vec.lean ====
section
/-! DEFINITION. Sys2Proof/Machine/Vec.lean: the vector of an instruction: its length, element type and parts (07 R165 to R170; 02
R37), reading and writing its elements and mask bits, the configuration instructions (R171), and the shapes that the
vector families share. -/

namespace Sys2Proof.Machine

/-- The vector-type fault. -/
def vectorType : TrapInfo := { code := 23 }
/-- The vector-shape fault. -/
def vectorShape : TrapInfo := { code := 24 }

/-! ### The vector -/

/-- The vector that an instruction works on: the harts that hold its parts in rank order, the elements of a part, the
length and the element type. -/
structure VCtx where
  hs : List Nat
  part : Nat
  vl : Nat
  ty : Ty

/-- The type of a vt or mtype code; the registers hold codes of types only. -/
def tyOf (code : Nat) : Ty := (Ty.ofCode code).getD .f32

/-- Elements of a part at a width: the grant's share of Table 2.3 (R36). -/
def partLen (s : State) (w : Nat) : Nat := 4096 / w * grantOf s s.h / 4

/-- VLMAX at a width (R36, R37). -/
def vlMax (s : State) (w : Nat) : Nat := (vecHarts s).length * partLen s w

/-- The vector of the strand that moves. -/
def vcx (s : State) : VCtx :=
  let ty := tyOf s.myHart.vt
  ⟨vecHarts s, partLen s ty.bits, s.myHart.vl, ty⟩

/-- The element width. -/
def VCtx.w (cx : VCtx) : Nat := cx.ty.bits

/-- Element e of the register or group from r of one hart (R166, R169). -/
def regElem (h : Hart) (r wd e : Nat) : Nat :=
  let bit := e * wd
  (tget 0 h.v (r + bit / 4096)).toNat / 2 ^ (bit % 4096) % 2 ^ wd

/-- v with bits [off+wd-1:off] replaced. -/
def putBits (v off wd x : Nat) : Nat :=
  v % 2 ^ off + x % 2 ^ wd * 2 ^ off + v / 2 ^ (off + wd) * 2 ^ (off + wd)

/-- Writes element e of the register or group from r of one hart. -/
def putElem (r wd : Nat) (h : Hart) (p : Nat × Nat) : Hart :=
  let bit := p.1 * wd
  let k := r + bit / 4096
  { h with v := tset 0 h.v k (BitVec.ofNat 4096 (putBits (tget 0 h.v k).toNat (bit % 4096) wd p.2)) }

/-- The hart that holds element e, and its place there (R37). -/
def VCtx.home (cx : VCtx) (e : Nat) : Nat := cx.hs.getD (e / cx.part) 0

/-- Element e of the vector at register or group r. -/
def VCtx.get (cx : VCtx) (s : State) (r wd e : Nat) : Nat := regElem (s.hart (cx.home e)) r wd (e % cx.part)

/-- Per part, the updates of the pairs (element, value) that fall into it. -/
def VCtx.byPart (cx : VCtx) (ws : List (Nat × Nat)) (f : Hart → Nat × Nat → Hart) : List Upd :=
  (List.range cx.hs.length).filterMap fun p =>
    let mine := (ws.filter fun x => x.1 / cx.part == p).map fun x => (x.1 % cx.part, x.2)
    if mine.isEmpty then none else some (.hart (cx.hs.getD p 0) fun h => mine.foldl f h)

/-- Writes elements of the vector at register or group r. -/
def VCtx.put (cx : VCtx) (r wd : Nat) (ws : List (Nat × Nat)) : List Upd := cx.byPart ws (putElem r wd)

/-- Bit e of mask register m. -/
def VCtx.bit (cx : VCtx) (s : State) (m e : Nat) : Bool := (tget 0 (s.hart (cx.home e)).m m).getLsbD (e % cx.part)

/-- Sets one bit of a mask register of one hart. -/
def putBit (m : Nat) (h : Hart) (p : Nat × Nat) : Hart :=
  { h with m := tset 0 h.m m (BitVec.ofNat 1024 (putBits (tget 0 h.m m).toNat p.1 1 p.2)) }

/-- Writes bits of mask register m. -/
def VCtx.putMask (cx : VCtx) (m : Nat) (ws : List (Nat × Bool)) : List Upd :=
  cx.byPart (ws.map fun p => (p.1, p.2.toNat)) (putBit m)

/-- Element e is active under the governing mask (R167). -/
def VCtx.on (cx : VCtx) (s : State) (m : Mask) (e : Nat) : Bool :=
  match m with
  | .none => true
  | .mk k => cx.bit s k e
  | .xm k => cx.bit s k e

/-- The active elements, ascending. -/
def VCtx.active (cx : VCtx) (s : State) (m : Mask) : List Nat := (List.range cx.vl).filter (cx.on s m)

/-- The elements of part p below VL: the first and the count (R170). -/
def VCtx.partOf (cx : VCtx) (e : Nat) : Nat × Nat :=
  let lo := e / cx.part * cx.part
  (lo, min cx.part (cx.vl - lo))

/-- Registers of a group of elements of a width, for `vl` elements of the vector (R169; log entry 22). -/
def VCtx.groupN (cx : VCtx) (wd : Nat) : Nat := (min cx.vl cx.part * wd + 4095) / 4096

/-- A register group is misplaced (R168, R169). A first register that is no multiple of n is the vector-shape fault too (DEDUCED, log
entry 134). -/
def groupBad (r n : Nat) : Bool := n != 0 && (r % n != 0 || decide (32 < r + n))

/-! ### Operands -/

/-- The scalar sources of a c operand. -/
def vsrcs (c : VSrc) : List Src := match c with | .s x => [x] | _ => []

/-- Element e of the c operand (R183, R184): a vector element, the low bits of the scalar, or the immediate, which is exact
in every float type that reads it. -/
def vopnd (s : State) (cx : VCtx) (c : VSrc) (x : Word) (e : Nat) : Nat :=
  match c with
  | .v r => cx.get s r cx.w e
  | .s _ => x.toNat % 2 ^ cx.w
  | .i k => if cx.ty.isFloat then (roundF cx.ty 1 false 0 (mkVal k 1 false)).1 else (k % (2 ^ cx.w : Int)).toNat

/-- The frame of a vector instruction: the execute strand, its scalar operand, and the element types it accepts (R168). -/
def vecRun (s : State) (c : VSrc) (ok : Ty → Bool) (k : VCtx → (Nat → Nat) → Act) : Act :=
  issue s .execute 0 (vsrcs c) [] [] fun v =>
    let cx := vcx s
    if ok cx.ty then k cx (vopnd s cx c (v 0)) else .trap vectorType

/-- Every element type. -/
def anyTy (_ : Ty) : Bool := true
/-- The float types of the arithmetic instructions (R184). -/
def halfTy (t : Ty) : Bool := t == .f32 || t == .bf16 || t == .f16

/-- Writes results to the active elements of vd and merges their flags (R167, R148). -/
def writeResults (s : State) (cx : VCtx) (d : Nat) (rs : List (Nat × Nat × Flags)) : List Upd :=
  cx.put d cx.w (rs.map fun r => (r.1, r.2.1)) ++ setFlags s (orFlags (rs.map (·.2.2)))

/-- An elementwise instruction with two sources and the old destination: f takes the element, va, vb and vd. -/
def elemwise (s : State) (o : VVo) (ok : Ty → Bool) (f : Ty → Nat → Nat → Nat → Nat → Nat × Flags) : Act :=
  vecRun s o.c ok fun cx b =>
    .done (writeResults s cx o.d ((cx.active s o.mask).map fun e =>
      (e, f cx.ty e (cx.get s o.a cx.w e) (b e) (cx.get s o.d cx.w e))))

/-- An elementwise instruction with one source. -/
def elemwise1 (s : State) (o : VUo) (ok : Ty → Bool) (f : Ty → Nat → Nat → Nat × Flags) : Act :=
  vecRun s (.v 0) ok fun cx _ =>
    .done (writeResults s cx o.d ((cx.active s o.mask).map fun e => (e, f cx.ty e (cx.get s o.a cx.w e))))

/-! ### Configuration (R171) -/

/-- The members that VSETL attaches: the leader and every other member whose access strand has not ended (R37). -/
def sampleAtt (s : State) (g : Gang) : List Nat :=
  g.members.filter fun m => m == s.h || !(match (s.strand (2 * m)).life with | .ended _ => true | _ => false)

/-- VSETL's sample: the attached set, and the release of the members that leave it, which finishes those that have ended (R37,
R38). -/
def attachUpds (s : State) : List Upd :=
  match gangOf s s.h with
  | none => []
  | some (gid, g) =>
    if !g.span then [] else
    let att := sampleAtt s g
    [.hart s.h fun h => { h with att := att },
     .gang gid fun g => { g with released := g.members.filter fun m => !att.contains m },
     gangFinish gid]

/-- VSETL. -/
def execVsetl (o : RB) (s : State) :=
  finish s o.form.len (issue s .execute 0 [o.b] [o.d] [] fun v =>
    let us := attachUpds s
    let t := applyAll us s
    let vl := min (v 0).toNat (vlMax t (vcx t).w)
    .done (us ++ [.hart s.h fun h => { h with vl := vl }] ++ setD s.cur o.d (BitVec.ofNat 64 vl)))

/-- The new type of VSETT and VSETM, none for a refused value. -/
def newType (b : Word) : Option Ty := if b.toNat / 32 = 0 then Ty.ofCode b.toNat else none

/-- The state-value fault of a configuration instruction. -/
def vsetValue : TrapInfo := { code := 20 }

/-- VSETT. -/
def execVsett (o : RB) (s : State) :=
  finish s o.form.len (issue s .execute 0 [o.b] [o.d] [] fun v =>
    match newType (v 0) with
    | none => .trap vsetValue
    | some t =>
      let m := vlMax s t.bits
      .done ([.hart s.h fun h => { h with vt := (v 0).toNat, vl := min h.vl m }] ++ setD s.cur o.d (BitVec.ofNat 64 m)))

/-- VSETM. -/
def execVsetm (o : R3) (s : State) :=
  finish s o.form.len (issue s .execute 0 [o.a, o.b] [o.d] [] fun v =>
    match newType (v 1) with
    | none => .trap vsetValue
    | some t =>
      let vl := min (v 0).toNat (vlMax s t.bits)
      .done ([.hart s.h fun h => { h with vt := (v 1).toNat, vl := vl }] ++ setD s.cur o.d (BitVec.ofNat 64 vl)))

/-- The value of VGETG (Table 7.2). -/
def vgetgVal (s : State) : Nat :=
  let h := s.myHart
  let span := match gangOf s s.h with | some (_, g) => g.span | none => false
  let rank := match gangOf s s.h with | some (_, g) => g.members.idxOf s.h | none => 0
  h.vl * 2 ^ 32 + h.vt * 2 ^ 27 + 2 ^ 11 + span.toNat * 2 ^ 10 + rank % 8 * 2 ^ 7
    + (vecHarts s).length * 2 ^ 3 + grantOf s s.h

/-- VGETG; only the leader of a spanned gang issues it, and the leader is attached. -/
def execVgetg (o : RD) (s : State) :=
  finish s o.form.len (issue s .execute 0 [] [o.d] [] fun _ => .done (setD s.cur o.d (BitVec.ofNat 64 (vgetgVal s))))

end Sys2Proof.Machine
end

