-- ==== Sys2Proof/Machine/VecFloat.lean ====
section
/-! DEFINITION. Sys2Proof/Machine/VecFloat.lean: vector float arithmetic (07 R184, R185; Tables 7.7 and 7.8). -/

namespace Sys2Proof.Machine

/-- NV where a condition holds. -/
def nvIf (b : Bool) : Flags := if b then fNV else 0

/-- A result rounded once under the dynamic mode, with the flags of its operation. -/
def roundV (s : State) (t : Ty) (e : Nat) (v : Val) (fl : Flags) : Nat × Flags :=
  let r := roundAt s (dynMode s) t e v
  (r.1, r.2 ||| fl)

/-- A binary or fused float instruction on exact values. -/
def floatOp (s : State) (o : VVo) (f : Val → Val → Val → Val × Flags) : Act :=
  elemwise s o halfTy fun t e a b d =>
    let r := f (decodeF t a) (decodeF t b) (decodeF t d)
    roundV s t e r.1 r.2

/-- A unary float instruction that rounds. -/
def floatOp1 (s : State) (o : VUo) (f : Val → Val × Flags) : Act :=
  elemwise1 s o halfTy fun t e a =>
    let r := f (decodeF t a)
    roundV s t e r.1 r.2

/-- A sum with its invalid flag. -/
def sumF (mode : Nat) (a b : Val) : Val × Flags := let r := addV mode a b; (r.1, nvIf r.2)
/-- A product with its invalid flag. -/
def prodF (a b : Val) : Val × Flags := let r := mulV a b; (r.1, nvIf r.2)
/-- d plus or minus a product, exactly: 0 × ∞ is invalid whatever d holds. -/
def fusedF (mode : Nat) (sub : Bool) (a b d : Val) : Val × Flags :=
  let p := mulV a b
  if p.2 then (.nan, fNV) else sumF mode d (if sub then p.1.negate else p.1)

/-- VFADD. -/
def execVfadd (o : VVo) (s : State) := finish s o.form.len (floatOp s o fun a b _ => sumF (dynMode s) a b)
/-- VFSUB. -/
def execVfsub (o : VVo) (s : State) := finish s o.form.len (floatOp s o fun a b _ => sumF (dynMode s) a b.negate)
/-- VFMUL. -/
def execVfmul (o : VVo) (s : State) := finish s o.form.len (floatOp s o fun a b _ => prodF a b)
/-- VFMA. -/
def execVfma (o : VVo) (s : State) := finish s o.form.len (floatOp s o fun a b d => fusedF (dynMode s) false a b d)
/-- VFNMA. -/
def execVfnma (o : VVo) (s : State) := finish s o.form.len (floatOp s o fun a b d => fusedF (dynMode s) true a b d)
/-- VFDIV. -/
def execVfdiv (o : VVo) (s : State) := finish s o.form.len (floatOp s o fun a b _ => divV a b)

/-! ### Minimum and maximum -/

/-- a comes before b, with −0 before +0. -/
def beforeF (a b : Val) : Bool :=
  match cmpV a b with
  | .lt => true
  | .gt => false
  | .eq => a.neg && !b.neg

/-- The lesser or greater of two patterns: a single NaN yields the other operand, two the canonical NaN. -/
def minmaxF (t : Ty) (mx : Bool) (a b : Nat) : Nat :=
  let x := decodeF t a
  let y := decodeF t b
  if x.isNaN && y.isNaN then t.canonNaN
  else if x.isNaN then b
  else if y.isNaN then a
  else if (if mx then beforeF x y else beforeF y x) then b else a

/-- VFMIN. -/
def execVfmin (o : VVo) (s : State) :=
  finish s o.form.len (elemwise s o halfTy fun t _ a b _ => (minmaxF t false a b, 0))
/-- VFMAX. -/
def execVfmax (o : VVo) (s : State) :=
  finish s o.form.len (elemwise s o halfTy fun t _ a b _ => (minmaxF t true a b, 0))

/-! ### Square root -/

/-- The integer square root, bit by bit from bit k - 1. -/
def isqrtFrom (n : Nat) : Nat → Nat → Nat
  | 0, r => r
  | k + 1, r => isqrtFrom n k (if (r + 2 ^ k) * (r + 2 ^ k) ≤ n then r + 2 ^ k else r)

/-- The integer square root. -/
def isqrt (n : Nat) : Nat := isqrtFrom n (n.log2 / 2 + 1) 0

/-- A value that rounds as √(n / d) does: the root itself, or a point strictly between the two neighbouring multiples of
2^-200 (relative to the root of d) between which the root lies. Every neighbour, midpoint and threshold of R144 is a
multiple of these. -/
def sqrtQ (n d : Nat) : Int × Nat :=
  let k := d.log2 % 2
  let m := n * 2 ^ k * 2 ^ 400
  let den := 2 ^ ((d.log2 + k) / 2)
  let r := isqrt m
  if r * r = m then ((r : Int), 2 ^ 200 * den) else ((2 * r + 1 : Nat), 2 ^ 201 * den)

/-- The square root of a float value, whose denominator is a power of two. -/
def sqrtV (v : Val) : Val × Flags :=
  match v with
  | .nan => (.nan, 0)
  | .inf true => (.nan, fNV)
  | .inf false => (.inf false, 0)
  | .zero n => (.zero n, 0)
  | .num n d => if n < 0 then (.nan, fNV) else (.num (sqrtQ n.toNat d).1 (sqrtQ n.toNat d).2, 0)

/-- VFSQRT. -/
def execVfsqrt (o : VUo) (s : State) := finish s o.form.len (floatOp1 s o sqrtV)

/-! ### Reciprocals -/

/-- 1 / v rounded to 12 significant bits by R141's choices, without a flag (R184). -/
def recip12 (mode draw : Nat) (v : Val) : Val × Flags :=
  match v with
  | .num n d =>
    let e := floorLog2 d n.natAbs
    let q := scaleQ (if n < 0 then -(d : Int) else d) n.natAbs (11 - e)
    let lo := q.1 / (q.2 : Int)
    let r := scaleQ (if q.1 % (q.2 : Int) = 0 then lo else chooseQ mode draw q.1 q.2 lo) 1 (e - 11)
    (.num r.1 r.2, 0)
  | v => divV (.num 1 1) v

/-- VFRECE: its first rounding is rne, which a MOD replaces (R149). Under rst both roundings take draw number 0, which R184 leaves
open (DESIGN CHOICE, log entry 122). -/
def execVfrece (o : VUo) (s : State) :=
  let mode := fixedMode s 1
  finish s o.form.len (elemwise1 s o halfTy fun t e a =>
    let r := recip12 mode (if mode = 6 then drawAt s e else 0) (decodeF t a)
    roundV s t e r.1 r.2)

/-- The pivot of VFRCPP (R185): whether it is tiny, and the value whose reciprocal is taken. -/
def pivot (s : State) (p : Val) : Bool × Val :=
  let tol := decodeF .f32 s.myHart.pivtol.toNat
  let mag := match p with | .num n d => Val.num n.natAbs d | .inf _ => .inf false | v => v
  let tiny := !p.isNaN && (p.isZero || cmpV mag tol == .lt)
  let r := decodeF .f32 (s.myHart.pivreg.toNat % 2 ^ 32)
  (tiny, if tiny && s.myHart.pivreg.msb then (if p.neg then r.negate else r) else p)

/-- VFRCPP (R185). -/
def execVfrcpp (o : VPo) (s : State) :=
  finish s o.form.len (vecRun s (.v 0) halfTy fun cx _ =>
    let es := cx.active s o.mask
    let ps := es.map fun e => (e, pivot s (decodeF cx.ty (cx.get s o.a cx.w e)))
    .done (writeResults s cx o.d (ps.map fun p =>
        let q := divV (.num 1 1) p.2.2
        (p.1, roundV s cx.ty p.1 q.1 q.2))
      ++ cx.putMask o.mc (ps.map fun p => (p.1, p.2.1))))

/-! ### Sign and class -/

/-- VFABS. -/
def execVfabs (o : VUo) (s : State) :=
  finish s o.form.len (elemwise1 s o halfTy fun t _ a =>
    (if (decodeF t a).isNaN then t.canonNaN else a % 2 ^ (t.bits - 1), 0))
/-- VFNEG. -/
def execVfneg (o : VUo) (s : State) :=
  finish s o.form.len (elemwise1 s o halfTy fun t _ a =>
    (if (decodeF t a).isNaN then t.canonNaN else a ^^^ 2 ^ (t.bits - 1), 0))

/-- The class code of a pattern (Table 7.8). -/
def classF (t : Ty) (a : Nat) : Nat :=
  let sub := a / 2 ^ t.ef.2 % 2 ^ t.ef.1 == 0
  match decodeF t a with
  | .nan => 0x100
  | .inf n => if n then 0x001 else 0x080
  | .zero n => if n then 0x008 else 0x010
  | .num n _ => if n < 0 then (if sub then 0x004 else 0x002) else (if sub then 0x020 else 0x040)

/-- VFCLASS. -/
def execVfclass (o : VUo) (s : State) := finish s o.form.len (elemwise1 s o halfTy fun t _ a => (classF t a, 0))

/-! ### Exponential -/

/-- 2 to the power f / 2^k in units of 1 / u, from the bits of f upward: the exponent so far, with the next bit before its point, is
halved by a square root; y is the power so far. -/
def rootChain (u : Nat) : Nat → Nat → Nat → Nat
  | 0, _, y => y
  | k + 1, f, y => rootChain u k (f / 2) (isqrt (y * 2 ^ (f % 2) * u))

/-- 2 to the power f / 2^k, for f below 2^k, in units of 2^-200 and rounded down: it lies less than two units below. -/
def exp2Frac (f k : Nat) : Nat := rootChain (2 ^ 210) k f (2 ^ 210) / 2 ^ 10

/-- A value that rounds as 2^v does, for v a fraction with a power of two below: exact for an integer, otherwise the middle of two
neighbouring multiples of 2^-200 (relative to the power of two below). Exponents past ±200 overflow or vanish alike in every type
(DEDUCED, log entry 64). -/
def exp2V (v : Val) : Val :=
  match v with
  | .nan => .nan
  | .inf n => if n then .zero false else .inf false
  | .zero _ => .num 1 1
  | .num n d =>
    let i := n / (d : Int)
    let f := n % (d : Int)
    if 200 < i then .num (2 ^ 200) 1
    else if i < -200 then .num 1 (2 ^ 200)
    else
      let q := if f = 0 then scaleQ 1 1 i else scaleQ (2 * exp2Frac f.toNat d.log2 + 1 : Nat) (2 ^ 201) i
      .num q.1 q.2

/-- VFEXP2. -/
def execVfexp2 (o : VUo) (s : State) := finish s o.form.len (floatOp1 s o fun a => (exp2V a, 0))

end Sys2Proof.Machine
end

