-- ==== Sys2Proof/Machine/VecInt.lean ====
section
/-! DEFINITION. Sys2Proof/Machine/VecInt.lean: vector integer arithmetic (07 R183, Table 7.6). -/

namespace Sys2Proof.Machine

/-- The signed value of a w-bit pattern. -/
def sgn (w v : Nat) : Int := if v < 2 ^ (w - 1) then (v : Int) else (v : Int) - 2 ^ w

/-- An exact result that wraps, or saturates with ST. -/
def narrowI (t : Ty) (sat : Bool) (v : Int) : Nat × Flags :=
  let r := rangeI t
  let c := max r.1 (min r.2 v)
  if sat && c != v then (encodeI t c, fST) else (encodeI t v, 0)

/-- The instructions that wrap saturate under MOD sat. -/
def wrapOp (s : State) (o : VVo) (f : Ty → Int → Int → Int → Int) : Act :=
  elemwise s o Ty.isInt fun t _ a b d => narrowI t (s.pSat == 1) (f t (decodeI t a) (decodeI t b) (decodeI t d))

/-- An instruction on bit patterns that raises no flag. -/
def bitOp (s : State) (o : VVo) (f : Nat → Nat → Nat → Nat) : Act :=
  elemwise s o Ty.isInt fun t _ a b _ => (f t.bits a b % 2 ^ t.bits, 0)

/-- VADD. -/
def execVadd (o : VVo) (s : State) := finish s o.form.len (wrapOp s o fun _ a b _ => a + b)
/-- VSUB. -/
def execVsub (o : VVo) (s : State) := finish s o.form.len (wrapOp s o fun _ a b _ => a - b)
/-- VMUL. -/
def execVmul (o : VVo) (s : State) := finish s o.form.len (wrapOp s o fun _ a b _ => a * b)
/-- VMULH: the high half of the product, by the type's signedness. -/
def execVmulh (o : VVo) (s : State) :=
  finish s o.form.len (elemwise s o Ty.isInt fun t _ a b _ => (encodeI t (decodeI t a * decodeI t b / 2 ^ t.bits), 0))
/-- VMAC. -/
def execVmac (o : VVo) (s : State) := finish s o.form.len (wrapOp s o fun _ a b d => d + a * b)
/-- VMIN. -/
def execVmin (o : VVo) (s : State) := finish s o.form.len (bitOp s o fun w a b => if sgn w b < sgn w a then b else a)
/-- VMAX. -/
def execVmax (o : VVo) (s : State) := finish s o.form.len (bitOp s o fun w a b => if sgn w a < sgn w b then b else a)
/-- VMINN. -/
def execVminn (o : VVo) (s : State) := finish s o.form.len (bitOp s o fun _ a b => min a b)
/-- VMAXN. -/
def execVmaxn (o : VVo) (s : State) := finish s o.form.len (bitOp s o fun _ a b => max a b)
/-- VAND. -/
def execVand (o : VVo) (s : State) := finish s o.form.len (bitOp s o fun _ a b => a &&& b)
/-- VOR. -/
def execVor (o : VVo) (s : State) := finish s o.form.len (bitOp s o fun _ a b => a ||| b)
/-- VXOR. -/
def execVxor (o : VVo) (s : State) := finish s o.form.len (bitOp s o fun _ a b => a ^^^ b)
/-- VSHL; the amount is the operand modulo w. -/
def execVshl (o : VVo) (s : State) :=
  finish s o.form.len (elemwise s o Ty.isInt fun t _ a b _ =>
    narrowI t (s.pSat == 1) (decodeI t a * 2 ^ (b % t.bits)))
/-- VSHR. -/
def execVshr (o : VVo) (s : State) := finish s o.form.len (bitOp s o fun w a b => a / 2 ^ (b % w))
/-- VSHA. -/
def execVsha (o : VVo) (s : State) :=
  finish s o.form.len (elemwise s o Ty.isInt fun t _ a b _ => (encodeI t (sgn t.bits a / 2 ^ (b % t.bits)), 0))
/-- VABS. -/
def execVabs (o : VUo) (s : State) :=
  finish s o.form.len (elemwise1 s o Ty.isInt fun t _ a => narrowI t (s.pSat == 1) (sgn t.bits a).natAbs)
/-- VSADD saturates unless MOD nosat. -/
def execVsadd (o : VVo) (s : State) :=
  finish s o.form.len (elemwise s o Ty.isInt fun t _ a b _ => narrowI t (s.pSat != 2) (decodeI t a + decodeI t b))
/-- VSSUB saturates unless MOD nosat. -/
def execVssub (o : VVo) (s : State) :=
  finish s o.form.len (elemwise s o Ty.isInt fun t _ a b _ => narrowI t (s.pSat != 2) (decodeI t a - decodeI t b))

end Sys2Proof.Machine
end

