-- ==== Sys2Proof/Machine/VecMask.lean ====
section
/-! DEFINITION. Sys2Proof/Machine/VecMask.lean: compares, mask instructions and conversions (07 R186 to R188). -/

namespace Sys2Proof.Machine

/-! ### Compares (R186) -/

/-- A VCMP condition on patterns. -/
def icond (c : ICond) (w a b : Nat) : Bool :=
  match c with
  | .eq => a == b
  | .ne => a != b
  | .lt => decide (sgn w a < sgn w b)
  | .ge => decide (sgn w b ≤ sgn w a)
  | .ltn => decide (a < b)
  | .gen => decide (b ≤ a)

/-- VCMP. -/
def execVcmp (o : VCo) (s : State) :=
  finish s o.form.len (vecRun s o.c Ty.isInt fun cx b =>
    .done (cx.putMask o.d ((cx.active s o.mask).map fun e => (e, icond o.cond cx.w (cx.get s o.a cx.w e) (b e)))))

/-- A VFCMP condition with its flag: a NaN operand makes ne and un true and raises NV for the ordered conditions. -/
def fcond (c : FCond) (a b : Val) : Bool × Flags :=
  if a.isNaN || b.isNaN then
    match c with
    | .ne => (true, 0)
    | .un => (true, 0)
    | .eq => (false, 0)
    | _ => (false, fNV)
  else
    let r := cmpV a b
    match c with
    | .eq => (r == .eq, 0)
    | .ne => (r != .eq, 0)
    | .lt => (r == .lt, 0)
    | .le => (r != .gt, 0)
    | .gt => (r == .gt, 0)
    | .ge => (r != .lt, 0)
    | .un => (false, 0)

/-- VFCMP. -/
def execVfcmp (o : VFCo) (s : State) :=
  finish s o.form.len (vecRun s o.c halfTy fun cx b =>
    let rs := (cx.active s o.mask).map fun e => (e, fcond o.cond (decodeF cx.ty (cx.get s o.a cx.w e)) (decodeF cx.ty (b e)))
    .done (cx.putMask o.d (rs.map fun r => (r.1, r.2.1)) ++ setFlags s (orFlags (rs.map (·.2.2)))))

/-! ### Mask instructions (R187) -/

/-- A mask instruction on every element below VL. -/
def maskOp (s : State) (d : Nat) (f : VCtx → Nat → Bool) : Act :=
  vecRun s (.v 0) anyTy fun cx _ => .done (cx.putMask d ((List.range cx.vl).map fun e => (e, f cx e)))

/-- MAND. -/
def execMand (o : M3) (s : State) := finish s o.form.len (maskOp s o.d fun cx e => cx.bit s o.a e && cx.bit s o.b e)
/-- MOR. -/
def execMor (o : M3) (s : State) := finish s o.form.len (maskOp s o.d fun cx e => cx.bit s o.a e || cx.bit s o.b e)
/-- MXOR. -/
def execMxor (o : M3) (s : State) := finish s o.form.len (maskOp s o.d fun cx e => cx.bit s o.a e != cx.bit s o.b e)
/-- MNOT. -/
def execMnot (f : Form) (d a : Nat) (s : State) := finish s f.len (maskOp s d fun cx e => !cx.bit s a e)

/-- MPOPC: the active elements whose bit is 1. -/
def execMpopc (o : MDo) (s : State) :=
  finish s o.form.len (issue s .execute 0 [] [o.d] [] fun _ =>
    let cx := vcx s
    .done (setD s.cur o.d (BitVec.ofNat 64 ((cx.active s o.mask).countP (cx.bit s o.a)))))

/-- MFIRST: the least such element, or all ones. -/
def execMfirst (o : MDo) (s : State) :=
  finish s o.form.len (issue s .execute 0 [] [o.d] [] fun _ =>
    let cx := vcx s
    .done (setD s.cur o.d (match (cx.active s o.mask).find? (cx.bit s o.a) with
      | some e => BitVec.ofNat 64 e
      | none => 0xFFFFFFFFFFFFFFFF)))

/-- The count operand of a c field of forms 01 and 10, where an immediate is not negative. -/
def countOf (c : VSrc) (x : Word) : Nat := match c with | .i k => k.toNat | _ => x.toNat

/-- VMSET. -/
def execVmset (o : VSo) (s : State) :=
  finish s o.form.len (issue s .execute 0 (vsrcs o.c) [] [] fun v =>
    let cx := vcx s
    .done (cx.putMask o.d ((List.range cx.vl).map fun e => (e, decide (e < countOf o.c (v 0))))))

/-- VIOTA: per part (R170), the active elements below e whose bit is 1. -/
def execViota (o : VUo) (s : State) :=
  finish s o.form.len (vecRun s (.v 0) Ty.isInt fun cx _ =>
    let es := cx.active s o.mask
    .done (cx.put o.d cx.w (es.map fun e =>
      (e, (es.countP fun i => decide ((cx.partOf e).1 ≤ i) && decide (i < e) && cx.bit s o.a i) % 2 ^ cx.w))))

/-! ### Conversions (R150, R188) -/

/-- The exact widenings of Table 6.8. -/
def widens (a b : Ty) : Bool :=
  match a with
  | .e2m1 => [Ty.e4m3, .e5m2, .f16, .bf16, .f32].contains b
  | .e4m3 => [Ty.f16, .bf16, .f32].contains b
  | .e5m2 => [Ty.f16, .bf16, .f32].contains b
  | .f16 => b == .f32
  | .bf16 => b == .f32
  | .i4 => [Ty.i8, .i16, .i32, .i64, .e4m3, .f16, .bf16, .f32].contains b
  | .i8 => [Ty.i16, .i32, .i64, .f16, .bf16, .f32].contains b
  | .i16 => [Ty.i32, .i64, .f32].contains b
  | .i32 => b == .i64
  | .n8 => [Ty.n16, .n32, .n64, .i16, .i32, .i64, .f16, .bf16, .f32].contains b
  | .n16 => [Ty.n32, .n64, .i32, .i64, .f32].contains b
  | .n32 => [Ty.n64, .i64].contains b
  | _ => false

/-- T is narrower than S (R173). -/
def narrower (src dst : Ty) : Bool :=
  ((src.isFloat && dst.isFloat) || (src.isInt && dst.isInt)) && !widens src dst && src != dst

/-- The value of a pattern converted exactly to a type that holds it (R150). -/
def widenBits (src dst : Ty) (v : Nat) : Nat :=
  if src == dst then v
  else if dst.isFloat then (roundF dst 1 false 0 (decodeV src v)).1
  else encodeI dst (decodeI src v)

/-- One element of a conversion that is not exact, rounded in a mode. -/
def convert (s : State) (mode : Nat) (src dst : Ty) (e v : Nat) : Nat × Flags :=
  if dst.isFloat then roundAt s mode dst e (decodeV src v)
  else if src.isFloat then roundIAt s mode dst e (decodeF src v)
  else narrowI dst (s.pSat != 2) (decodeI src v)

/-- A conversion instruction: accepted pairs, then elements of the source group (R169, R188). -/
def convAct (s : State) (o : VTo) (ok : Ty → Ty → Bool) (f : Ty → Nat → Nat → Nat × Flags) : Act :=
  vecRun s (.v 0) (fun t => ok o.ty t) fun cx _ =>
    if groupBad o.a (cx.groupN o.ty.bits) then .trap vectorShape else
    .done (writeResults s cx o.d ((cx.active s o.mask).map fun e => (e, f cx.ty e (cx.get s o.a o.ty.bits e))))

/-- Types that a conversion names: every type but the block types. -/
def plain (a b : Ty) : Bool := !a.isBlock && !b.isBlock

/-- A NaN as the canonical NaN (06 R139). -/
def canonF (t : Ty) (a : Nat) : Nat := if t.isFloat && (decodeF t a).isNaN then t.canonNaN else a

/-- VCVT. -/
def execVcvt (o : VTo) (s : State) :=
  finish s o.form.len (convAct s o (fun a b => plain a b && (a == b || widens a b)) fun t _ v => (canonF t (widenBits o.ty t v), 0))
/-- VNARROW. -/
def execVnarrow (o : VTo) (s : State) :=
  finish s o.form.len (convAct s o narrower fun t e v => convert s (dynMode s) o.ty t e v)
/-- VNARROW.chain: rto, raising only NV (R152; 07 Table 7.12). -/
def execVnarrowChain (o : VTo) (s : State) :=
  finish s o.form.len (convAct s o (fun a b => narrower a b && a.isFloat) fun t e v =>
    let r := convert s 5 o.ty t e v
    (r.1, r.2 &&& fNV))
/-- VFTOI. -/
def execVftoi (o : VTo) (s : State) :=
  finish s o.form.len (convAct s o (fun a b => a.isFloat && b.isInt) fun t e v => convert s (dynMode s) o.ty t e v)
/-- VITOF. -/
def execVitof (o : VTo) (s : State) :=
  finish s o.form.len (convAct s o (fun a b => a.isInt && b.isFloat) fun t e v => convert s (dynMode s) o.ty t e v)

end Sys2Proof.Machine
end

