-- ==== Sys2Proof/Machine/VecMove.lean ====
section
/-! DEFINITION. Sys2Proof/Machine/VecMove.lean: permutes, index compression, broadcast, extract, insert and the stair exchange
(07 R189 to R191, R439; 02 R39, R44). Slides, permutes, VCOMPR and VEXPAND work on each part as on a vector of its own
(R170). -/

namespace Sys2Proof.Machine

/-- Writes patterns to elements of vd. -/
def putPlain (cx : VCtx) (d : Nat) (rs : List (Nat × Nat)) : List Upd := cx.put d cx.w rs

/-- A slide: for each active element, its part's first element and length, its place in the part, and the amount. -/
def slideAct (s : State) (o : VVo) (f : VCtx → Nat → Nat → Nat → Nat → Option Nat) : Act :=
  issue s .execute 0 (vsrcs o.c) [] [] fun v =>
    let cx := vcx s
    let k := countOf o.c (v 0)
    .done (putPlain cx o.d ((cx.active s o.mask).filterMap fun e =>
      let p := cx.partOf e
      (f cx p.1 p.2 (e - p.1) k).map fun x => (e, x)))

/-- VSLIDEUP: elements below s are unchanged. -/
def execVslideup (o : VVo) (s : State) :=
  finish s o.form.len (slideAct s o fun cx lo _ i k => if k ≤ i then some (cx.get s o.a cx.w (lo + (i - k))) else none)
/-- VSLIDEDN. -/
def execVslidedn (o : VVo) (s : State) :=
  finish s o.form.len (slideAct s o fun cx lo n i k => some (if i + k < n then cx.get s o.a cx.w (lo + i + k) else 0))

/-- The register of a vector c operand. -/
def vregOf (c : VSrc) : Nat := match c with | .v r => r | _ => 0

/-- VPERM: an index that reaches the part's length selects 0. -/
def execVperm (o : VVo) (s : State) :=
  finish s o.form.len (vecRun s o.c anyTy fun cx _ =>
    let r := vregOf o.c
    if groupBad r (cx.groupN 32) then .trap vectorShape else
    .done (putPlain cx o.d ((cx.active s o.mask).map fun e =>
      let p := cx.partOf e
      let i := cx.get s r 32 e
      (e, if i < p.2 then cx.get s o.a cx.w (p.1 + i) else 0))))

/-- The active elements of each part, in ascending order: the part's first element and the list. -/
def activeParts (cx : VCtx) (s : State) (m : Mask) : List (Nat × List Nat) :=
  (List.range cx.hs.length).map fun p => (p * cx.part, (cx.active s m).filter fun e => e / cx.part == p)

/-- VCOMPR: the j-th active element of va goes to vd[j]. -/
def execVcompr (o : VUo) (s : State) :=
  finish s o.form.len (vecRun s (.v 0) anyTy fun cx _ =>
    .done (putPlain cx o.d ((activeParts cx s o.mask).flatMap fun p =>
      (List.range p.2.length).map fun j => (p.1 + j, cx.get s o.a cx.w (p.2.getD j 0)))))

/-- VEXPAND: the j-th active position of vd receives va[j]. -/
def execVexpand (o : VUo) (s : State) :=
  finish s o.form.len (vecRun s (.v 0) anyTy fun cx _ =>
    .done (putPlain cx o.d ((activeParts cx s o.mask).flatMap fun p =>
      (List.range p.2.length).map fun j => (p.2.getD j 0, cx.get s o.a cx.w (p.1 + j)))))

/-- VIDXC (R190): the active indices to the n32 group at vd, their count to the scalar c. -/
def execVidxc (o : VXo) (s : State) :=
  finish s o.form.len (issue s .execute 0 [] [.x o.c] [] fun _ =>
    let cx := vcx s
    if cx.hs.length ≠ 1 ∨ groupBad o.d (cx.groupN 32) then .trap vectorShape else
    let es := cx.active s o.mask
    .done (cx.put o.d 32 ((List.range es.length).map fun j => (j, es.getD j 0))
      ++ setD s.cur (.x o.c) (BitVec.ofNat 64 es.length)))

/-- The value of VBCAST at element e (R439): a pattern, or an immediate, rounded where the type asks for it. -/
def bcastVal (s : State) (t : Ty) (c : VSrc) (x : Word) (e : Nat) : Nat × Flags :=
  match c with
  | .i k => if t.isFloat then roundAt s (dynMode s) t e (mkVal k 1 false) else ((k % (2 ^ t.bits : Int)).toNat, 0)
  | _ => (x.toNat % 2 ^ t.bits, 0)

/-- VBCAST. -/
def execVbcast (o : VBo) (s : State) :=
  finish s o.form.len (issue s .execute 0 (vsrcs o.c) [] [] fun v =>
    let cx := vcx s
    .done (writeResults s cx o.d ((cx.active s o.mask).map fun e => (e, bcastVal s cx.ty o.c (v 0) e))))

/-- VEXTR: sign-extended for i types, 0 for an index of VL or more. -/
def execVextr (o : VEo) (s : State) :=
  finish s o.form.len (issue s .execute 0 (vsrcs o.c) [o.d] [] fun v =>
    let cx := vcx s
    let i := countOf o.c (v 0)
    let x := if i < cx.vl then cx.get s o.a cx.w i else 0
    .done (setD s.cur o.d (if cx.ty.isSigned then wrap (sgn cx.w x) else BitVec.ofNat 64 x)))

/-- VINS: the index register is read as a plain register; x0 in the base and literal forms. -/
def execVins (o : VIo) (s : State) :=
  finish s o.form.len (issue s .execute 0 [o.b] [] [o.e] fun v =>
    let cx := vcx s
    let i := (getX s.me o.e).toNat
    .done (if i < cx.vl then putPlain cx o.d [(i, (v 0).toNat % 2 ^ cx.w)] else []))

/-- STXS (R191): each part receives the part of the rank s further on. -/
def execStxs (o : VVo) (s : State) :=
  finish s o.form.len (issue s .execute 0 (vsrcs o.c) [] [] fun v =>
    let cx := vcx s
    let k := countOf o.c (v 0)
    .done (putPlain cx o.d ((cx.active s o.mask).map fun e =>
      let r := (e / cx.part + k) % cx.hs.length
      (e, cx.get s o.a cx.w (r * cx.part + e % cx.part)))))

/-- STXW (R191): the whole vector shifted down. -/
def execStxw (o : VVo) (s : State) :=
  finish s o.form.len (issue s .execute 0 (vsrcs o.c) [] [] fun v =>
    let cx := vcx s
    let k := countOf o.c (v 0)
    .done (putPlain cx o.d ((cx.active s o.mask).map fun e =>
      (e, if e + k < cx.vl then cx.get s o.a cx.w (e + k) else 0))))

end Sys2Proof.Machine
end

