-- ==== Sys2Proof/Machine/Aft.lean ====
section
/-! DEFINITION. Sys2Proof/Machine/Aft.lean: the aftermath queue: AFDEF, AFPOP and AFCNT (07 R195; 02 R41 to R43). Every record is
held in the state; the bytes of the spill area are not written, which R43 leaves to the device. -/

namespace Sys2Proof.Machine

/-- The path operand: an immediate, or xb, where a value above 255 is refused. -/
def pathOf (c : VSrc) (x : Word) : Option Nat :=
  let p := countOf c x
  if p < 256 then some p else none

/-- Records that fit: 1024 on chip and one for each 64 bytes of the spill area (R43). -/
def aftCapacity (h : Hart) : Nat := 1024 + h.aftSize.toNat / 64

/-- AFDEF. -/
def execAfdef (o : AFo) (s : State) :=
  finish s o.form.len (issue s .execute 0 (vsrcs o.p) [] [] fun v =>
    match pathOf o.p (v 0) with
    | none => .trap { code := 22 }
    | some p =>
      let cx := vcx s
      let es := cx.active s o.mask
      if aftCapacity s.myHart < s.myHart.aft.length + es.length then .trap { code := 21 } else
      let recs := es.map fun e =>
        { index := s.myHart.sbase + BitVec.ofNat 64 e, path := p,
          vals := (List.range o.n).map fun j => BitVec.ofNat 64 (cx.get s (o.a + j) cx.w e) : AftRec }
      .done [.hart s.h fun h => { h with aft := h.aft ++ recs }])

/-- Removes the first n records of a path. -/
def dropPath (p : Nat) : Nat → List AftRec → List AftRec
  | 0, l => l
  | _, [] => []
  | n + 1, r :: l => if r.path = p then dropPath p n l else r :: dropPath p (n + 1) l

/-- AFPOP. -/
def execAfpop (o : APo) (s : State) :=
  finish s o.form.len (issue s .execute 0 (vsrcs o.p) [] [] fun v =>
    match pathOf o.p (v 0) with
    | none => .trap { code := 22 }
    | some p =>
      let cx := vcx s
      let recs := (s.myHart.aft.filter fun r => r.path == p).take (vlMax s cx.w)
      let b := recs.length
      let cx := { cx with vl := b }
      let n0 := match recs with | r :: _ => r.vals.length | [] => 0
      let n := cx.groupN 32
      if groupBad o.d n || (n0 != 0 && decide (32 < o.a + n0))
          || (List.range n0).any (fun j => decide (o.d ≤ o.a + j) && decide (o.a + j < o.d + n)) then .trap vectorShape
      else
        let at_ := fun i => recs.getD i ⟨0, 0, []⟩
        .done (cx.put o.d 32 ((List.range b).map fun i => (i, (at_ i).index.toNat % 2 ^ 32))
          ++ (List.range n0).flatMap (fun j => cx.put (o.a + j) cx.w ((List.range b).map fun i =>
            (i, ((at_ i).vals.getD j 0).toNat % 2 ^ cx.w)))
          ++ [.hart s.h fun h => { h with vl := b, aft := dropPath p b h.aft }]))

/-- AFCNT: the records of a path, or of every path. -/
def execAfcnt (o : ACo) (s : State) :=
  finish s o.form.len (issue s .execute 0 (match o.p with | some c => vsrcs c | none => []) [o.d] [] fun v =>
    match o.p with
    | none => .done (setD s.cur o.d (BitVec.ofNat 64 s.myHart.aft.length))
    | some c =>
      match pathOf c (v 0) with
      | none => .trap { code := 22 }
      | some p => .done (setD s.cur o.d (BitVec.ofNat 64 (s.myHart.aft.countP fun r => r.path == p))))

end Sys2Proof.Machine
end

