-- ==== Sys2Proof/Machine/Operands.lean ====
section
/-! DEFINITION. Sys2Proof/Machine/Operands.lean: the memory operands of scalar instructions: effective addresses (R84), and
whole scalar loads and stores with their checks (R84 to R88, R47). -/

namespace Sys2Proof.Machine

/-- The bytes of a double. -/
def bytes64 (v : Word) : List Byte := leBytes 8 v.toNat
/-- The double of eight bytes. -/
def word64 (bs : List Byte) : Word := BitVec.ofNat 64 (ofLe bs)

/-- Translates within a computation; a failure is the trap with the address and the element (Table 20.3). -/
def xlateM (sp : Space) (va kind elem : Nat) : M Xl := fun r =>
  match translate r sp va kind with
  | .error e => .error (xlTrap e.1 (BitVec.ofNat 64 va) elem, e.2)
  | .ok p => .ok p

/-- The read of n bytes from a location on must not meet an uncorrectable error; one is reported at an address and an element. -/
def soundM (l : Loc) (n : Nat) (va : Word) (elem : Nat) : M Unit := fun r =>
  match badIn r.s l n with | some k => .error (badData k va elem, r) | none => .ok ((), r)

/-- Performs the held stores of strand n. -/
def flushOwn (n : Nat) : M Unit := fun r => .ok ((), flushHeld r n)
/-- Performs the held stores of the strand that moves. -/
def flushMine (s : State) : M Unit := flushOwn s.cur

/-- The misaligned-access fault. -/
def misaligned (ea : Word) : TrapInfo := { code := 10, val := ea }
/-- The translation fault of a non-canonical address. -/
def nonCanon (ea : Word) : TrapInfo := { code := 11, sub := 1, val := ea }

/-- The checks of a scalar access in the order of R84 and R85. -/
def scalarAddr (ea : Word) (n : Nat) : M Unit := do
  M.check (canonical ea.toNat) (nonCanon ea)
  M.check (ea.toNat % n == 0) (misaligned ea)

/-- Bytes of a scalar load at a translated location; a strand sees its own held stores, and an execute strand its hart's strip
(R47, R88). An uncorrectable error is precise, with the effective address (R86). `old` has it performed before the writes whose
earlier values are kept (11 R291). -/
def readScalarAs (s : State) (old : Bool) (x : Xl) (ea : Word) (n : Nat) : M (List Byte) := do
  soundM x.loc n ea 0
  (fun r =>
    let (bs, r) := readBytes r (some s.c) x.loc n
    .ok (ownBytes s.myHart s.cur x.loc (if old then pastOver (s.myHart.pastOf s.cur) x.loc bs else bs),
      seenRead r s.cur x.loc n old) : M (List Byte))

/-- Bytes of a scalar load that is performed at its own step. -/
def readScalar (s : State) (x : Xl) (ea : Word) (n : Nat) : M (List Byte) := readScalarAs s false x ea n

/-- A whole scalar load of n bytes. -/
def scalarLoad (s : State) (ea : Word) (n : Nat) : M (List Byte) := do
  scalarAddr ea n
  let x ← xlateM (spaceOf s s.h) ea.toNat 0 0
  readScalar s x ea n

/-- Bits [t:0] of x, sign-extended. -/
def sextAt (x : Word) (t : Nat) : Word :=
  let v := x.toNat % 2 ^ (t + 1)
  wrap (if v < 2 ^ t then (v : Int) else (v : Int) - 2 ^ (t + 1))
/-- Bits [t:0] of x, zero-extended. -/
def zextAt (x : Word) (t : Nat) : Word := BitVec.ofNat 64 (x.toNat % 2 ^ (t + 1))

/-- A value of n bytes as a scalar load writes it, sign-extended where sg. -/
def loadVal (sg : Bool) (n : Nat) (bs : List Byte) : Word :=
  let w := word64 bs
  if sg then sextAt w (8 * n - 1) else w

/-- A load of LDB to LDWN into a destination. Where the part so chooses it was performed before the writes whose earlier values are
kept, or may be performed anew by a later turn, while nothing has named its register (11 R291); one of a SYNC or a DEV page is
performed at its own step (02 R33). -/
def plainLoad (s : State) (d : Dst) (sg : Bool) (ea : Word) (n : Nat) : M (List Byte) := do
  scalarAddr ea n
  let x ← xlateM (spaceOf s s.h) ea.toNat 0 0
  let free := !x.sync && x.cp == 0
  let bs ← readScalarAs s (free && s.choice.early.testBit 0) x ea n
  match d with
  | .x k =>
    if free && s.choice.late.testBit 0 && !s.choice.early.testBit 0 then
      (fun r => .ok (bs, r.add (.hart s.h fun h => { h with lateS := h.lateS ++ [⟨s.cur, k, x.loc, n, sg⟩] })) : M (List Byte))
    else pure bs
  | .q _ => pure bs

/-- The part holds a store that retires in this turn (R47, R88): the stores of a service hart's access strand, which its
commands to the part follow, are performed at once (log entry 10). -/
def State.holds (s : State) : Bool := s.choice.hold && (s.isExec || !isService s s.h)

/-- The strand that moves holds more stores. -/
def holdStores (s : State) (es : List Held) : Upd := .hart s.h fun h => setHeld s.cur (h.heldBy s.cur ++ es) h

/-- A scalar store at a translated location. It may stay held (R47, R88); one that is performed at once follows the held ones
and hides older strip bytes from the strand's loads. -/
def writeScalar (s : State) (x : Xl) (bs : List Byte) : M Unit := fun r =>
  if s.holds then
    .ok ((), r.add (holdStores s [{ loc := x.loc, bytes := bs, older := if s.isExec then s.myHart.strip.length else 0 }]))
  else
    let r := storeLoc (flushHeld r s.cur) s.cur x.loc bs
    .ok ((), if s.isExec && stripMeets s.myHart.strip x.loc bs.length
      then r.add (.hart s.h fun h => { h with strip := stripHide h.strip x.loc bs.length }) else r)

/-- The merging fill of a store must not meet an uncorrectable error; one is precise, with the effective address (R86). -/
def soundFill (c : Nat) (x : Xl) (ea : Word) (n : Nat) : M Unit := fun r =>
  match fillLine (r.s.core c) x.loc n with
  | some l => soundM l 64 ea 0 r
  | none => .ok ((), r)

/-- A whole scalar store. -/
def scalarStore (s : State) (ea : Word) (bs : List Byte) : M Unit := do
  scalarAddr ea bs.length
  let x ← xlateM (spaceOf s s.h) ea.toNat 1 0
  soundFill s.c x ea bs.length
  writeScalar s x bs

/-- Reads n bytes at a virtual address for the machine's own purposes (records and groups in memory), byte pages
translated one by one. -/
def loadBytesM (sp : Space) (core : Option Nat) (va : Nat) : Nat → M (List Byte)
  | 0 => pure []
  | n + 1 => do
    let x ← xlateM sp va 0 0
    soundM x.loc 1 (BitVec.ofNat 64 va) 0
    let b ← (fun r => .ok (readByte r core x.loc) : M Byte)
    let bs ← loadBytesM sp core ((va + 1) % 2 ^ 64) n
    pure (b :: bs)

/-- Writes bytes at a virtual address for the machine's own purposes. -/
def storeBytesM (sp : Space) (core : Option Nat) (va : Nat) : List Byte → M Unit
  | [] => pure ()
  | b :: bs => do
    let x ← xlateM sp va 1 0
    (fun r => .ok ((), writeLoc r core x.loc [b]) : M Unit)
    storeBytesM sp core ((va + 1) % 2 ^ 64) bs

/-- Double n of a byte string. -/
def dbl (bs : List Byte) (off : Nat) : Nat := ofLe ((bs.drop off).take 8)

/-- The registers of a group as values. -/
def groupVals (s : State) (a k : Nat) : List Nat := (groupRegs a k).map fun r => (getX s.me r).toNat

end Sys2Proof.Machine
end

