-- ==== Sys2Proof/Machine/Launch.lean ====
section
/-! DEFINITION. Sys2Proof/Machine/Launch.lean: LAUNCH and LAUNCHI, dispatch, placement and completion of launches (19 R352 to
R358), and the end of a strand (04 R109; 02 R38). -/

namespace Sys2Proof.Machine

/-- Sets a bit of `rlev` with the entry of the event (Table 19.3). -/
def rlevSet (p bit ent : Nat) : Upd :=
  .part p fun q => { q with rlev := q.rlev ||| BitVec.ofNat 6 (2 ^ bit), rlent := ent }

/-- A unit that acts for partition p meets an uncorrectable error (24 R424): the halt line of the partition rises. The dispatch unit
and the translation service are no sources of R378, and the mailbox unit stands for them (DESIGN CHOICE, log entry 127). -/
def serviceError (r : Run) (p : Nat) (t : TrapInfo) : Run := if t.code = 54 then r.addAll (engineFatal r.s p 6576 t 0) else r

/-- Writes bytes in the steward's address space of a partition, or meets a fault; an uncorrectable error is raised besides. -/
def stewardWrite (r : Run) (p va : Nat) (bs : List Byte) : Run × Option TrapInfo :=
  match storeBytesM (stewardSpace r.s p) none va bs r with
  | .ok ((), r) => (r, none)
  | .error e => (serviceError (r.failed e.2) p e.1, some e.1)

/-! ### The end of a strand -/

/-- Ends strand n with a status, with the ends that R38 adds in a spanned gang. A member's access strand that a fault ends (20 R382)
counts there as one that has executed GEXIT, which alone R37 and R38 name (DESIGN CHOICE, log entry 62). -/
def endStrand (s : State) (n : Nat) (status : Word) : List Upd :=
  let h := n / 2
  let base : List Upd := endOne n status
  match (s.hart h).gid with
  | none => base
  | some gid =>
    match s.gangs.find? fun p => p.1 == gid with
    | none => base
    | some (_, g) =>
      let span : List Upd :=
        if !g.span then []
        else if n % 2 = 0 then (if g.members.headD h = h then [] else endOne (2 * h + 1) 0)
        else if g.members.headD h = h then
          (g.members.drop 1).flatMap (fun m => endOne (2 * m + 1) 0) ++ [.gang gid fun g => { g with released := g.members }]
        else []
      base ++ span ++ [gangFinish gid]

/-! ### LAUNCH and LAUNCHI -/

/-- Bits [hi:lo] of a number. -/
def bits (v hi lo : Nat) : Nat := v / 2 ^ lo % 2 ^ (hi + 1 - lo)

/-- The initial-value list (Table 19.4, below it): register, strand and value of each entry; none where a zero field is
nonzero. -/
def initList (bs : List Byte) : Nat → Option (List (Nat × Nat × Word))
  | 0 => some []
  | k + 1 =>
    match initList bs k with
    | none => none
    | some l =>
      let a := dbl bs (16 * k)
      if 128 ≤ a then none else some (l ++ [(a % 64, a / 64, BitVec.ofNat 64 (dbl bs (16 * k + 8)))])

/-- The halls of a partition as a mask. -/
def partHalls (s : State) (p : Nat) : Nat := (s.part p).cfg.toNat % 2 ^ 40

/-- How many halls a mask holds. -/
def countBits (m : Nat) : Nat := (List.range 40).countP fun k => m.testBit k

/-- Checks a launch record against R353 and gives the launch, without its initial values; `id` is the next id. -/
def launchOf (s : State) (p : Nat) (indirect : Bool) (bs : List Byte) : Option Launch :=
  let q := s.part p
  let d := fun k => dbl bs (8 * k)
  let w0 := d 0
  let n := bits w0 3 0
  let mask := bits w0 55 16
  let halls := partHalls s p
  let ent := bits w0 13 8
  let use := if mask = 0 then halls else mask
  let deps := [d 10, d 11, d 12, d 13]
  let ok :=
    decide (bits w0 7 7 = 0) && decide (bits w0 15 14 = 0) && decide (bits w0 63 56 = 0)
    && decide (1 ≤ n) && decide (n ≤ 8) && decide (mask &&& halls = mask)
    && decide (n ≤ 16 * countBits use) && (tget {} q.rl ent).v
    && (if indirect then decide (d 1 % 4 = 0) && decide (1 ≤ d 2) && decide (d 2 < 2 ^ 32)
        else decide (d 1 < 2 ^ 32) && decide (d 2 = 0))
    && decide (d 3 % 4 = 0) && decide (d 4 % 4 = 0) && decide (d 5 % 8 = 0) && decide (d 6 ≤ 256)
    && decide (d 7 % 64 = 0) && decide (d 8 % 2 ^ 16 = 0) && decide (d 9 % 8 = 0)
    && deps.all (fun x => decide (x ≤ q.lastId)) && decide (d 15 = 0)
  if ok then
    some { id := q.lastId + 1, ent := ent, n := n, g := bits w0 5 4 + 1, span := w0.testBit 6, mask := use,
           indirect := indirect, count := BitVec.ofNat 64 (d 1), limit := d 2,
           entA := BitVec.ofNat 64 (d 3), entX := BitVec.ofNat 64 (d 4), inits := [],
           aftBase := BitVec.ofNat 64 (d 7), aftSize := BitVec.ofNat 64 (d 8), comp := BitVec.ofNat 64 (d 9),
           deps := deps.filter (· ≠ 0), sbase := BitVec.ofNat 64 (d 14) }
  else none

/-- The launch-value fault. -/
def launchValue : TrapInfo := { code := 50 }

/-- Reads and checks the record and its initial values (R352, R353; log entry 15). -/
def readLaunch (s : State) (a : Nat) (indirect : Bool) : M Launch := do
  M.check (a % 8 == 0) launchValue
  flushMine s
  let sp := spaceOf s s.h
  let bs ← loadBytesM sp (some s.c) a 128
  match launchOf s (partIx s s.h) indirect bs with
  | none => M.trap launchValue
  | some l =>
    let vs ← loadBytesM sp (some s.c) (dbl bs 40) (16 * dbl bs 48)
    match initList vs (dbl bs 48) with
    | none => M.trap launchValue
    | some i => pure { l with inits := i }

/-- LAUNCH and LAUNCHI; a full launch queue, and the steps after a reset, make it wait (R354, R414). -/
def launchAct (s : State) (o : DA) (indirect : Bool) : Act :=
  issue s .both 1 [.x o.a] [.x o.d] [] fun v =>
    Act.ofM s (readLaunch s (v 0).toNat indirect) fun l r =>
      let p := partIx s s.h
      if 256 ≤ (s.part p).lq.length ∨ s.dev.replay ≠ 0 then .wait false []
      else .done (r.out ++ [.part p fun q => { q with lq := q.lq ++ [l], lastId := l.id }]
        ++ setD s.cur (.x o.d) (BitVec.ofNat 64 (l.id % 2 ^ 48)))

/-- LAUNCH. -/
def execLaunch (o : DA) (s : State) := finish s 4 (launchAct s o false)
/-- LAUNCHI. -/
def execLaunchi (o : DA) (s : State) := finish s 4 (launchAct s o true)

/-! ### Completion (R357) -/

/-- Completes launch id of partition p with a status and a count of gangs: the completion double, the record that it is
complete, and the launch queue's event bit. -/
def completeLaunch (r : Run) (p : Nat) (l : Launch) (st count : Nat) : Run :=
  let (r, e) := if l.comp = 0 then (r, none)
    else stewardWrite r p l.comp.toNat (leBytes 8 (st * 2 ^ 60 + count % 2 ^ 32))
  let r := if e.isNone then r else r.add (rlevSet p 5 l.ent)
  let r := if (r.s.part p).lq.length = 256 then r.add (rlevSet p 4 l.ent) else r
  (r.add (.part p fun q => { q with lq := q.lq.filter fun x => x.id != l.id })).add
    (.gangs fun t => t.filter fun x => !(x.2.part == p && x.2.launch == l.id))

/-- A launch of the queue. -/
def launchIn (s : State) (p id : Nat) : Option Launch := (s.part p).lq.find? (·.id == id)

/-- The dependences of a launch are complete: each id is older than the 4096 most recent launches or no longer in the queue
(R354, R355). -/
def depsDone (s : State) (p : Nat) (l : Launch) : Bool :=
  l.deps.all fun d => decide (d + 4096 ≤ (s.part p).lastId) || !(s.part p).lq.any (·.id == d)

/-- The count of a LAUNCHI, read in the steward's address space (R358), or the trap of the read, with the run. -/
def readCount (s : State) (p va : Nat) : Except TrapInfo Nat × Run :=
  match loadBytesM (stewardSpace s p) none va 4 (Run.start s) with
  | .ok (bs, r) => (.ok (ofLe bs), r)
  | .error e => (.error e.1, (Run.start s).failed e.2)

/-- LAUNCH_DISPATCH (R355, R358). A count with an uncorrectable error raises the halt line too; the dispatch unit is no source of
R378, and the mailbox unit stands for it (24 R424; DESIGN CHOICE, log entry 127). -/
def execLaunchDispatch (p id : Nat) (s : State) : Host.Outcome State Fault Refusal :=
  event s <|
    match launchIn s p id with
    | none => none
    | some l =>
      if l.dispatched || !depsDone s p l || (s.part p).cur != some l.ent || (s.part p).halt.st != 0 then none else
      let go := fun (r : Run) (n st : Nat) => some (r.add (Upd.part p fun q => { q with lq := q.lq.map fun x =>
        if x.id = id then { x with dispatched := true, gangs := n, st := st } else x })).out
      if !l.indirect then go (Run.start s) l.count.toNat 0 else
      match readCount s p l.count.toNat with
      | (.error t, r) => some (completeLaunch (serviceError r p t) p l 2 0).out
      | (.ok 0, r) => some (completeLaunch r p l 0 0).out
      | (.ok n, r) => if l.limit < n then go r l.limit 1 else go r n 0

/-- A hart is occupied by a gang member that has not finished (R355). -/
def occupied (s : State) (h : Nat) : Bool :=
  match (s.hart h).gid with
  | none => false
  | some g => s.gangs.any fun x => x.1 == g && !x.2.fin.contains h

/-- A core is held by a scrub order (R411). -/
def coreHeld (s : State) (c : Nat) : Bool := s.dev.orders.any fun o => o.cores.contains c

/-- An island that is on lets its core run (R420). -/
def islandOn (s : State) (c : Nat) : Bool := (s.dev.island c).st == 1

/-- A hart that a member may take (R355). -/
def hartFree (s : State) (h : Nat) : Bool :=
  !isService s h && !occupied s h && !coreHeld s (h / 4) && islandOn s (h / 4)

/-- The lowest free hart of the halls of a mask on a core not in use; candidates are tried in order. -/
def pickHart (s : State) (mask : Nat) (used : List Nat) : Option Nat :=
  ((List.range 40).filter fun k => mask.testBit k).findSome? fun k =>
    ((List.range 64).map (64 * k + ·)).find? fun h => hartFree s h && !used.contains (h / 4)

/-- Harts for n members. -/
def pickHarts (s : State) (mask : Nat) : Nat → List Nat → Option (List Nat)
  | 0, _ => some []
  | n + 1, used =>
    match pickHart s mask used with
    | none => none
    | some h => (pickHarts s mask n (h / 4 :: used)).map (h :: ·)

/-- The state register `gang` of a member (R356). -/
def gangReg (index rank n : Nat) : Word := BitVec.ofNat 64 (index % 2 ^ 32 * 2 ^ 32 + rank * 2 ^ 28 + n * 2 ^ 24)

/-- The new state of a member's strand (R356); entries for the same register apply in order. -/
def newStrand (l : Launch) (k : Nat) (parked : Bool) : Strand :=
  (l.inits.filter fun i => i.2.1 == k).foldl (fun st i => setX i.1 i.2.2 st)
    { pc := if k = 0 then l.entA else l.entX, life := .live, parked := parked }

/-- The new state of a member's hart. R37 samples the attached set at VSETL; before the leader's first one it is every member,
the model's choice (log entry 107). The port bindings that the steward has written for the hart stay: a launch has no other
way to give a member its ports (10 R252; log entry 113). -/
def newHart (l : Launch) (gid index rank : Nat) (members : List Nat) (epcfg : Tab Word) : Hart :=
  { sbase := l.sbase, gang := gangReg index rank l.n, gid := some gid, aftBase := l.aftBase, aftSize := l.aftSize,
    att := if l.span && rank == 0 then members else [], epcfg := epcfg }

/-- GANG_PLACEMENT: the next gang of a dispatched launch (R355, R356). -/
def execGangPlacement (p id : Nat) (s : State) : Host.Outcome State Fault Refusal :=
  event s <|
    match launchIn s p id with
    | none => none
    | some l =>
      if !l.dispatched || l.gangs ≤ l.placed || (s.part p).cur != some l.ent || (s.part p).halt.st != 0 || s.dev.replay != 0 then none else
      match pickHarts s l.mask l.n [] with
      | none => none
      | some hs =>
        let gid := s.nextGang
        some <|
          [.other fun s => { s with
              gangs := tput s.gangs gid { part := p, ent := l.ent, launch := l.id, index := l.placed, members := hs, g := l.g, span := l.span },
              nextGang := s.nextGang + 1 },
           .part p fun q => { q with lq := q.lq.map fun x => if x.id = id then { x with placed := x.placed + 1 } else x }]
          ++ (List.range hs.length).flatMap fun r =>
            let h := hs.getD r 0
            [.hart h fun k => newHart l gid l.placed r hs k.epcfg,
             .strand (2 * h) fun _ => newStrand l 0 false,
             .strand (2 * h + 1) fun _ => newStrand l 1 (l.span && r != 0)]

/-- Core c as the context of entry `ent` of partition p has it: in the active bank, in the loft, or saved. -/
def ctxCore (s : State) (p ent c : Nat) : Core :=
  if (s.part p).cur = some ent then s.core c else
  match (s.loft c).bank with
  | some b => if (s.loft c).save.ent = ent then b.core else (tget {} (tget [] (s.part p).saved ent) c).core
  | none => (tget {} (tget [] (s.part p).saved ent) c).core

/-- A member of a gang has a TMU run, an engine command of its strand (02 R33), that has not completed (R357). -/
def gangRuns (s : State) (g : Gang) : Bool :=
  g.members.any fun m => (ctxCore s g.part g.ent (coreOf m)).runs.any (·.hart == m)

/-- LAUNCH_COMPLETION (R357). -/
def execLaunchCompletion (p id : Nat) (s : State) : Host.Outcome State Fault Refusal :=
  event s <|
    match launchIn s p id with
    | none => none
    | some l =>
      let gs := s.gangs.filter fun x => x.2.part == p && x.2.launch == id
      if l.dispatched && l.placed == l.gangs && gs.all (fun x => x.2.members.all x.2.fin.contains)
          && !s.cmds.any (fun c => gs.any fun x => c.gid == some x.1) && !gs.any (fun x => gangRuns s x.2) then
        -- completion releases every write of the members, the held ones too (R232, R357)
        let r := gs.foldl (fun r x => x.2.members.foldl (fun r m => wcFlush (flushHart r m) (coreOf m)) r) (Run.start s)
        some (completeLaunch r p l l.st l.gangs).out
      else none

end Sys2Proof.Machine
end

