-- ==== Sys2Proof/Machine/Halt.lean ====
section
/-! DEFINITION. Sys2Proof/Machine/Halt.lean: the halt line's stops, records, resume and end (20 R378 to R383), the queue
deadlock (02 R31) and interrupts (20 R373). -/

namespace Sys2Proof.Machine

/-- Causes whose `tval` is an address (Table 20.3). -/
def addrCause (code : Nat) : Bool := [2, 3, 10, 11, 12, 13, 14, 15, 16, 17, 19, 27, 54].contains code

/-- The token value of a command stopped by the halt line (Table 9.4). -/
def haltToken (count : Nat) : Word := BitVec.ofNat 64 (4 * 2 ^ 60 + count % 2 ^ 48)

/-- The engine that a command belongs to: 0 the copy engine of its core, 1 the Threshers, 2 the mailbox unit, 3 a stash
command, which stands in no queue and stops with the copy engine (log entry 16). -/
def cmdEngine (w : Work) : Nat :=
  match w with
  | .stmap .. => 3
  | .stunmap .. => 3
  | .stflush .. => 3
  | .gath .. => 1
  | .scred .. => 1
  | .stepa .. => 2
  | .stepo .. => 2
  | _ => 0

/-- The source whose stop ends a command (R378). -/
def cmdSource (c : Cmd) : Nat :=
  match cmdEngine c.work with
  | 1 => 6560 + c.unit
  | 2 => 6576
  | _ => 5920 + c.hart / 4

/-- A command that a stop of source `src` of partition p ends. -/
def cmdStops (p src : Nat) (c : Cmd) : Bool := c.part == p && c.fin.isNone && cmdSource c == src

/-- The kind of a source (Table 20.5). -/
def srcKind (src : Nat) : Nat :=
  if src < 5120 then 1 else if src < 5760 then 2 else if src < 5920 then 3 else if src < 6560 then 4
  else if src < 6576 then 5 else 6

/-- The place of a command in a stop record: its hart and token register. -/
def cmdPlace (c : Cmd) : Word := BitVec.ofNat 64 (c.hart % 2 ^ 12 + c.tok * 2 ^ 12)
/-- The place of a run in a stop record: its tile and completed steps. -/
def runPlace (k : Core) (q : TmRun) : Word := BitVec.ofNat 64 (q.tile + (tget {} k.tst q.tile).steps.toNat * 2 ^ 32)

/-- Double 3 of a stop record: where the source's work continues (Table 20.5). -/
def stopNext (s : State) (p src : Nat) : Word :=
  match srcKind src with
  | 1 => (s.strand src).pc
  | 2 => (((List.range 4).map (4 * (src - 5120) + ·)).findSome? fun h => (s.hart h).red.map (·.at_.1)).getD 0
  | 3 => (((List.range 4).map (4 * (src - 5760) + ·)).findSome? fun c => ((s.core c).runs.head?).map (runPlace (s.core c))).getD 0
  | 6 => 0
  | _ => ((s.cmds.find? (cmdStops p src)).map cmdPlace).getD 0

/-- The fatal event that source src has detected: its trap, its stamp, and double 3 of its record (R380). -/
def fatalOf (s : State) (p src : Nat) : Option (TrapInfo × Nat × Word) :=
  if src < 5120 then (s.strand src).fatal.map fun f => (f.info, f.stamp, f.at_)
  else ((s.part p).halt.engs.find? fun e => e.src == src).map fun e => (e.info, e.stamp, e.next)

/-- Double 5 of a stop record of a source without a fatal event: the bursts drained by a Thresher, or the element, step, list
entry or chunk at which a vector unit's reduction, a TMU's run or an engine's command stands. -/
def stopElem (s : State) (p src : Nat) : Nat :=
  match srcKind src with
  | 1 => 0
  | 2 => (((List.range 4).map (4 * (src - 5120) + ·)).findSome? fun h => (s.hart h).red.map (·.pos)).getD 0
  | 3 => (((List.range 4).map (4 * (src - 5760) + ·)).findSome? fun c => ((s.core c).runs.head?).map fun q =>
      (tget {} (s.core c).tst q.tile).steps.toNat).getD 0
  | 5 => tget 0 (s.part p).halt.ops src
  | _ => ((s.cmds.find? (cmdStops p src)).map (·.step)).getD 0

/-- The stop record of a source (Table 20.5). -/
def stopRecord (s : State) (p src : Nat) : List Byte :=
  let q := s.part p
  let tag := match q.cur with | some k => (q.curEnt.getD (tget {} q.rl k)).tag.toNat | none => 0
  let sb := if src < 5120 then (s.hart (src / 2)).sbase.toNat else 0
  let (stamp, cause, next, val, elem) : Nat × Nat × Word × Nat × Nat := match fatalOf s p src with
    | some (t, stamp, next) =>
      (stamp, t.code, next, if addrCause t.code then t.val.toNat else 0,
       if srcKind src = 5 then tget 0 q.halt.ops src else t.elem.toNat)
    | none => (s.gtc.toNat, 0, stopNext s p src, 0, stopElem s p src)
  ([stamp, 2 ^ 63 + cause * 2 ^ 24 + srcKind src * 2 ^ 16 + src, tag, next.toNat, val, elem, sb, 0]).flatMap (leBytes 8)

/-- SOURCE_STOP: a source stops and writes its record; when every source has stopped the partition is halted (R379, R381). -/
def execSourceStop (p src : Nat) (s : State) : Host.Outcome State Fault Refusal :=
  event s <|
    let q := s.part p
    if q.halt.st ≠ 1 ∨ !q.halt.srcs.contains src ∨ q.halt.stopped.contains src then none else
    let base := q.stopbase.toNat
    let r := Run.start s
    let (r, ok) := if base = 0 then (r, false) else
      let w := stewardWrite r p (base + 64 * src) (stopRecord s p src)
      (w.1, w.2.isNone)
    let r := if base ≠ 0 ∧ !ok then r.add (rlevSet p 5 (q.cur.getD 0)) else r
    let r := if src < 5120 then
        ((flushHeld r src).add (.strand src fun st => { st with stopped := true })).add (noWait src)
      else r
    let r := r.add (.cmds fun l => l.map fun c => if cmdStops p src c then { c with fin := some (haltToken c.bytes) } else c)
    let stopped := src :: q.halt.stopped
    let all := q.halt.srcs.all stopped.contains
    some (r.add (.part p fun q =>
      { q with halt := { q.halt with cnt := q.halt.cnt + ok.toNat, stopped := stopped,
                                     st := if all then 2 else 1, irq := q.halt.irq || all } })).out

/-- Discards a hart's strip. -/
def dropStrip (h : Nat) : Upd := .hart h emptyStrip

/-- The exit status of a strand that its fault ends (R382). -/
def faultStatus (code : Nat) : Word := BitVec.ofNat 64 (2 ^ 63 + code)

/-- The halt's source strand enters its handler as though its trap were class D, with the `sbase` of that trap, or ends (R382). -/
def resumeSource (s : State) (n : Nat) (f : Fatal) : List Upd :=
  let st := s.strand n
  let drop : List Upd := if n % 2 = 1 then [dropStrip (n / 2)] else []
  if st.tvec >>> 2 == 0 || f.nested then drop ++ endStrand s n (faultStatus f.info.code)
  else
    let sd := f.info.code == 54
    let pre : List Upd := if sd then drop else []
    let t := applyAll pre s
    pre ++ [enterHandler t n f.info f.at_ f.at_ f.pf sd (trapWord s (n / 2) f.at_), .strand n fun st => { st with tsb := f.sbase }]

/-- Every stopped strand of the partition runs again; a reeve strand stays stopped until the next reset (R378). -/
def unstop (p : Nat) : Upd := .other fun s =>
  { s with strands := s.strands.map fun x =>
      if partIx s (x.1 / 2) = p ∧ !isReeve (x.1 / 2) then (x.1, { x.2 with stopped := false, fatal := none }) else x }

/-- haltst op 1 (R382). -/
def haltResume (s : State) (p : Nat) : List Upd :=
  let q := s.part p
  let go : List Upd := [unstop p, .part p fun q =>
    { q with halt := { q.halt with st := 0, irq := false, srcs := [], stopped := [], engs := [], ops := [] } }]
  let f := if q.halt.src < 5120 then (s.strand q.halt.src).fatal else none
  match f with
  | some f => go ++ resumeSource (applyAll go s) q.halt.src f
  | none => go

/-- Strands of the context that is in the active bank of partition p. -/
def ctxStrands (s : State) (p : Nat) : List Nat :=
  (s.strands.filter fun x => partIx s (x.1 / 2) == p && !isService s (x.1 / 2) && decide (x.2.life = .live)).map (·.1)

/-- haltst op 2 (R383): every strand of the context ends with its strip discarded, and its commands and runs end. Its launches
complete with st = 2, releasing the writes of their members (19 R357), and its run list entry takes N = 1 and loses what its code
objects bound (15 R322). The spec states no exit status for these strands: it is a free value (log entry 17). -/
def haltEnd (s : State) (p : Nat) : List Upd :=
  let q := s.part p
  let go : List Upd := [unstop p, .part p fun q => { q with halt := { q.halt with st := 0, irq := false, srcs := [], stopped := [], engs := [], ops := [] } }]
  let f := if q.halt.src < 5120 then (s.strand q.halt.src).fatal else none
  let svc : List Upd := match f with
    | some f => if isService s (q.halt.src / 2) then
        (if q.halt.src % 2 = 1 then [dropStrip (q.halt.src / 2)] else []) ++ endStrand s q.halt.src (faultStatus f.info.code) else []
    | none => []
  let free := Config.freeWord s.free
  let ends := (ctxStrands s p).flatMap fun n => dropStrip (n / 2) :: endOne n free
  let cores := s.cores.filter fun c => partOfHall s (c.1 / 16) == some p
  let runs : List Upd := cores.map fun c => .core c.1 fun k => { k with runs := [] }
  let cmds : List Upd := [.cmds fun l => l.filter fun c => !(c.part == p && c.ent.isSome && c.ent == q.cur)]
  let us := go ++ svc ++ ends ++ runs ++ cmds ++ [.tick]
  let r := (performAll (Run.start s) (partCores s p)).addAll us
  let mine := q.lq.filter fun l => some l.ent == q.cur
  let r := mine.foldl (fun r l => completeLaunch r p l 2 l.placed) r
  let r := match q.cur with
    | some k => r.add (.part p fun q =>
        let rl := tput q.rl k { (tget ({} : RlEnt) q.rl k) with n := true }
        { q with rl := rl, curEnt := q.curEnt.map fun (e : RlEnt) => { e with n := true }, emul := q.emul.filter fun e => e.1 != k })
    | none => r
  r.out

/-- HALT_RESUME: the steward's write of op 1 while halted. -/
def execHaltResume (p : Nat) (s : State) : Host.Outcome State Fault Refusal :=
  event s (if (s.part p).halt.st = 2 then some (haltResume s p) else none)

/-- HALT_END: the steward's write of op 2 while halted. -/
def execHaltEnd (p : Nat) (s : State) : Host.Outcome State Fault Refusal :=
  event s (if (s.part p).halt.st = 2 then some (haltEnd s p) else none)

/-! ### Queue deadlock -/

/-- Counts of q0 to q7 in 5-bit fields, q0 lowest (Table 20.3). -/
def queueCounts (h : Hart) : Word :=
  BitVec.ofNat 64 ((List.range 8).foldl (fun n q => n + (h.queue q).length * 2 ^ (5 * q)) 0)

/-- QUEUE_DEADLOCK of hart h: the trap is raised at the access strand's waiting instruction, or at the execute strand's where
only it waits (R31; log entry 18). -/
def execQueueDeadlock (h : Nat) (s : State) : Host.Outcome State Fault Refusal :=
  event s <|
    let t := s.hart h
    match t.dead with
    | none => none
    | some since =>
      if s.cycles (h / 4) < since + 2 ^ 20 ∨ (!t.waitA && !t.waitX) then none else
      let n := if t.waitA then 2 * h else 2 * h + 1
      let other := if t.waitA then 2 * h + 1 else 2 * h
      let st := s.strand n
      let pf := (match fetchWord s h st.pc.toNat with
        | some w => match decode [w] with | some (.mod _) => true | _ => false
        | none => false)
      some (trapUpds s n { code := 9, val := (s.strand other).pc, elem := queueCounts t } st.pc st.pc pf (trapWord s h st.pc)
        ++ [.hart h fun t => { t with waitA := false, waitX := false, dead := none }])

/-! ### Interrupts (R373) -/

/-- The pending interrupt sources of a service hart. -/
def pendingIrq (s : State) (h : Nat) : Nat :=
  if isReeve h then s.dev.rint.toNat
  else if isSteward s h then
    let q := s.part (partIx s h)
    (if q.rlev = 0 then 0 else 1) + (if q.halt.irq then 2 else 0)
  else 0

/-- INTERRUPT: the access strand of a service hart takes its pending interrupt. -/
def execInterrupt (n : Nat) (s : State) : Host.Outcome State Fault Refusal :=
  event s <|
    let st := s.strand n
    let irq := pendingIrq s (n / 2)
    let idle := match st.sleep with | some (.idle ..) => true | _ => false
    if n % 2 = 0 ∧ isService s (n / 2) ∧ irq ≠ 0 ∧ st.tvec.getLsbD 0 ∧ !st.tcause.getLsbD 63 ∧ !idle ∧ !st.stopped ∧ !hasEnded st then
      some (trapUpds s n { code := 64, val := BitVec.ofNat 64 irq } st.pc st.pc false 0
        ++ (if isReeve (n / 2) then [] else [.part (partIx s (n / 2)) fun q => { q with halt := { q.halt with irq := false } }]))
    else none

end Sys2Proof.Machine
end

