-- ==== Sys2Proof/Machine/Object.lean ====
section
/-! DEFINITION. Sys2Proof/Machine/Object.lean: code objects (15 R320 to R323): the header's fields, the checks of a load, and the
emulation routines that a load binds. Where an object's sections go is the loader's business; the first text section's address
is an argument. -/

namespace Sys2Proof.Machine

/-- A firmware bank. -/
def Dev.bank (d : Dev) (b : Nat) : Bank2 := d.banks.getD b {}
/-- The image of the running bank. -/
def Dev.image (d : Dev) : Nat := (d.bank d.active).image

/-- Double k of the device's feature mask (R321). -/
def featDouble (k : Nat) : Word := if k = 0 then 0x3FFFFFFFF else 0

/-- A code object (Table 15.5) with these doubles for req's first, the entries, the section, binding and symbol tables, and these
bytes after the header. -/
def codeHeader (req aent eent sect emul sym : Nat) (rest : List Byte) : List Byte :=
  ([0x0045444F434C4847, 128 + rest.length, req] ++ List.replicate 7 0 ++ [aent, eent, sect, emul, sym, 0]).flatMap (leBytes 8) ++ rest

/-- A table of n entries of k bytes passes the end of an object. -/
def objTableBad (b : List Byte) (w k : Nat) : Bool := decide (b.length < w % 2 ^ 32 + w / 2 ^ 32 * k)

/-- Why a load fails. -/
inductive LoadError where
  | badObject
  | missingFeature (bit : Nat)
deriving DecidableEq, Repr

/-- A section table entry is in order; the first is a text section, and no text section is writable. -/
def sectionOk (b : List Byte) (o : Nat) (first : Bool) : Bool :=
  let w := dbl b o
  let kind := w % 16
  let lg := w / 16 % 64
  decide (1 ≤ kind) && decide (kind ≤ 3) && decide (2 ≤ lg) && decide (lg ≤ 30) && decide (w < 2 ^ 14)
  && (kind != 1 || !w.testBit 11) && (!first || kind == 1) && dbl b (o + 24) == 0
  && (if kind = 3 then dbl b (o + 8) == 0 else decide (dbl b (o + 8) + dbl b (o + 16) ≤ b.length))

/-- The binding table: the bit, whether the routine is one of the firmware library, and its offset or number. -/
def bindingsOf (b : List Byte) : List (Nat × Bool × Nat) :=
  let w := dbl b 0x68
  (List.range (w / 2 ^ 32)).map fun i =>
    let o := w % 2 ^ 32 + 16 * i
    (dbl b o % 512, (dbl b o).testBit 9, dbl b (o + 8))

/-- An object is in order (R320). How long a symbol is the spec does not say, nor that a size, a section's bytes, a count, a kind or
an alignment out of its range fails the load (DESIGN CHOICE: a constant of the part of at least one byte, and bad-object, log
entry 142). -/
def objectOk (b : List Byte) : Bool :=
  let sect := dbl b 0x60
  let emul := dbl b 0x68
  let sym := dbl b 0x70
  decide (128 ≤ b.length) && dbl b 0 == 0x0045444F434C4847 && dbl b 8 == b.length && dbl b 0x78 == 0
  && decide (1 ≤ sect / 2 ^ 32) && decide (sect / 2 ^ 32 ≤ 64) && !objTableBad b sect 32
  && decide (emul / 2 ^ 32 ≤ 512) && !objTableBad b emul 16
  && (if sym / 2 ^ 32 = 0 then decide (sym % 2 ^ 32 ≤ b.length) else !objTableBad b sym (max 1 Config.symbolSize))
  && ((List.range (sect / 2 ^ 32)).all fun i => sectionOk b (sect % 2 ^ 32 + 32 * i) (i == 0))
  && (List.range (emul / 2 ^ 32)).all fun i => decide (dbl b (emul % 2 ^ 32 + 16 * i) < 2 ^ 10)

/-- The features that an object needs and the device lacks (R322). -/
def missingBits (b : List Byte) : List Nat :=
  (List.range 512).filter fun k => (dbl b (0x10 + 8 * (k / 64))).testBit (k % 64) && !(featDouble (k / 64)).getLsbD (k % 64)

/-- The routine that a binding names; the library is that of the firmware image that runs at the load (R323). A routine in the
object lies in its first text section (log entry 125). -/
def routineOf (image : Nat) (text : Word) (lib : Bool) (v : Nat) : Option Word :=
  if lib then Config.libRoutine image v else some (text + BitVec.ofNat 64 v)

/-- The routine bound to a missing feature, where the object binds one; bits 0 to 4 are never emulated. Of two bindings of one bit the
first counts, where R322 names none (DESIGN CHOICE, log entry 148). -/
def boundRoutine (image : Nat) (b : List Byte) (text : Word) (bit : Nat) : Option Word :=
  if bit < 5 then none else
  match (bindingsOf b).find? fun x => x.1 == bit with
  | some x => routineOf image text x.2.1 x.2.2
  | none => none

/-- Loads an object (R322): the missing features with their routines, or why it fails. The lowest bit without a routine is named, be it
one without a binding or one whose binding names a library routine that is not held (DESIGN CHOICE, log entry 148). -/
def loadObject (image : Nat) (b : List Byte) (text : Word) : Except LoadError (List (Nat × Word)) :=
  if !objectOk b then .error .badObject else
  let bits := missingBits b
  match bits.find? fun k => (boundRoutine image b text k).isNone with
  | some k => .error (.missingFeature k)
  | none => .ok (bits.filterMap fun k => (boundRoutine image b text k).map fun w => (k, w))

/-- The loader's turn: the routines of the object at an address are bound for the context of an entry; a load that fails binds
nothing, and the translations that its read has filled stay (09 R230). Where two objects of a context bind one bit, the routine of
the latest load serves the whole context (DESIGN CHOICE, log entry 148). -/
def loadTurn (p ent obj len : Nat) (text : Word) (s : State) : Host.Outcome State Fault Refusal :=
  event s <|
    match loadBytesM (ctxSpace s p (some ent) (16 * lowHall (s.part p).cfg)) none obj len (Run.start s) with
    | .error _ => none
    | .ok (bs, r) =>
      match loadObject s.dev.image bs text with
      | .error _ => some r.out
      | .ok l => some (r.add (.part p fun q => { q with emul := l.map (fun x => (ent, x.1, x.2)) ++ q.emul })).out

end Sys2Proof.Machine
end

