-- ==== Sys2Proof/Machine/Fetch.lean ====
section
/-! DEFINITION. Sys2Proof/Machine/Fetch.lean: which strand moves in a slot (19 R348), whether a strand can issue, and the
instruction it issues. -/

namespace Sys2Proof.Machine

/-- The events that the schedule may name. An illegal word and a failed fetch befall the strand that moves, so they are not
among them. -/
def isEvent (i : Instr) : Bool :=
  match i with
  | .branchMispredict _ => true
  | .queueDeadlock _ => true
  | .sourceStop _ _ => true
  | .haltResume _ => true
  | .haltEnd _ => true
  | .interrupt _ => true
  | .waitmWake _ => true
  | .waitmTimeout _ => true
  | .idleEnd _ _ => true
  | .barrierCredit _ => true
  | .barrierWaitReturn _ => true
  | .copyChunk _ => true
  | .copyComplete _ => true
  | .stashCommandComplete _ => true
  | .gatherRow _ => true
  | .scatterReduceUpdate _ => true
  | .fwalkRun _ => true
  | .engineCommandComplete _ => true
  | .completionStreamPush _ => true
  | .tmuKStep _ _ => true
  | .wcTimeout _ _ => true
  | .translationFill _ _ => true
  | .sliceEnd _ => true
  | .switchComplete _ => true
  | .latencyLimitMiss _ => true
  | .contextSpillDone _ => true
  | .contextFillDone _ => true
  | .spillStop _ _ => true
  | .fillStop _ _ => true
  | .launchDispatch _ _ => true
  | .gangPlacement _ _ => true
  | .launchCompletion _ _ => true
  | .hostRead _ _ => true
  | .hostWrite _ _ => true
  | .hostLineWrite _ _ => true
  | .linkTraining _ => true
  | .spdmMeasurementRequest => true
  | .xlateTranslate _ => true
  | .xlateLookup _ => true
  | .xlateInvalidateKey _ => true
  | .xlateInvalidateAll _ => true
  | .episodeStart _ => true
  | .episodeEndCommand _ => true
  | .imageCopyDone _ => true
  | .takeCall _ => true
  | .postCall _ => true
  | .stampCall _ => true
  | .actionRecordPlaced _ => true
  | .observationRecordPlaced _ => true
  | .watchdogExpiry _ => true
  | .croftFault _ _ _ => true
  | .kload _ _ => true
  | .winnowerOrderComplete => true
  | .partCfgWrite _ _ _ => true
  | .stgrpWrite _ _ _ => true
  | .islandControl _ _ => true
  | .islandPowerChangeDone _ => true
  | .throttleStep => true
  | .thermalShutdown => true
  | .softError _ _ _ => true
  | .fwStage _ _ => true
  | .fwStageDone _ _ _ _ => true
  | .fwCommit _ => true
  | .fwSelectBank _ => true
  | .coldReset _ => true
  | .warmReset _ => true
  | .croftUserInstruction _ => true
  | .winnowerUnitDone => true
  | .powerLoss => true
  | .keyRevocation _ => true
  | _ => false

/-- What a strand finds at its pc. -/
inductive Fetched where
  | fail (va : Word)
  | illegal
  | instr (i : Instr)
deriving DecidableEq, Repr

/-- The five rows of RLSET share one encoding; xb[7:0] tells them apart (19 R363). -/
def rlsetRow (s : State) (o : RLo) : Instr :=
  match (srcVal s.me s.myHart [o.b] 0).toNat % 256 with
  | 1 => .rlsetReadEntry o
  | 2 => .rlsetSwitch o
  | 3 => .rlsetResume o
  | 4 => .rlsetDiscard o
  | _ => .rlsetWriteEntry o

/-- The instruction that words hold for the strand that moves. -/
def resolve (s : State) (i : Instr) : Instr :=
  match i with
  | .rlsetWriteEntry o => rlsetRow s o
  | i => i

/-- Fetches and decodes at the pc of the strand that moves; the state keeps the translations that the fetch filled. -/
def fetchNext (s : State) : Fetched × State :=
  let f := fetchInstr (Run.start s) s.h s.me.pc
  let t := { s with dev := f.2.s.dev }
  match f.1 with
  | .error va => (.fail va, t)
  | .ok ws =>
    match decode ws with
    | none => (.illegal, t)
    | some i => (.instr (resolve t i), t)

/-- The instruction at an address of hart h, none where it cannot be fetched or decoded. -/
def instrAt (s : State) (h : Nat) (pc : Word) : Option Instr :=
  match (fetchInstr (Run.start s) h pc).1 with
  | .ok ws => decode ws
  | .error _ => none

/-- The instruction that strand n is at, the second of a pair after its MOD (R74). -/
def nextInstr (s : State) (n : Nat) : Option Instr :=
  match instrAt s (n / 2) (s.strand n).pc with
  | some (.mod _) => instrAt s (n / 2) ((s.strand n).pc + 4)
  | i => i

/-- The most retirements after the halt line rose (Table 20.4). -/
def skidBound (n : Nat) : Nat := if n % 2 = 0 then 8 else 32

/-- The core exists, has left reset and its island is on (01 R12, R23; 24 R420). -/
def coreOn (s : State) (c : Nat) : Bool := decide (c < 640) && !s.dev.off && s.dev.boot == 0 && (s.dev.island c).st == 1

/-- A strand has work and is not parked, stopped or past its skid bound (R36, R109, R378). -/
def awake (s : State) (n : Nat) : Bool :=
  let st := s.strand n
  let svc := isService s (n / 2)
  coreOn s (n / 8)
  && (match st.life with | .live => true | .vacant => svc | .ended _ => false)
  && !st.parked && !st.stopped
  && (svc || (s.part (partIx s (n / 2))).halt.st == 0 || ((s.part (partIx s (n / 2))).halt.st == 1 && st.skid < skidBound n))

/-! ### The slot table (19 R348) -/

/-- Slot table entry e of a core (Table 19.2). -/
def slotEntry (s : State) (c e : Nat) : Nat := (tget 0 (s.core c).slots (e / 8)).toNat / 256 ^ (e % 8) % 256

/-- The service hart that owns slot e of a core, if the core holds one (R348). -/
def serviceFor (s : State) (c e : Nat) : Option Nat :=
  let hs := [4 * c + 3, 4 * c + 2].filter (isService s)
  if e % 16 ≠ 15 then none else
  match hs with
  | [] => none
  | [h] => some h
  | reeve :: steward :: _ => some (if e = 15 ∨ e = 47 then reeve else steward)

/-- The entry that slot e goes by: a service hart's slots override the table (R348). -/
def entryAt (s : State) (c e : Nat) : Nat :=
  match serviceFor s c e with
  | some h => 0xC0 + h % 4
  | none => slotEntry s c e

/-- HoldsValidEntry: an entry of its core's table gives hart h a slot (R348, R356). -/
def holdsSlot (s : State) (h : Nat) : Bool :=
  (List.range 64).any fun e => entryAt s (coreOf h) e / 128 == 1 && entryAt s (coreOf h) e % 4 == h % 4

/-- The opcode of an instruction (03 Table 3.7). -/
def opcodeOf (i : Instr) : Nat := (encode i).headD 0 / 4 % 64

/-- The sources whose units an instruction of a hart needs: the vector units of the harts that it drives, for the opcodes 0x21 to
0x36, or its quad's TMU, for TMOP (02 R37; 03 Table 3.7; 20 R378). -/
def unitsOf (s : State) (h : Nat) (i : Instr) : List Nat :=
  if 0x21 ≤ opcodeOf i ∧ opcodeOf i ≤ 0x36 then
    (if (s.hart h).att.isEmpty then [h] else (s.hart h).att).map fun m => 5120 + coreOf m
  else match i with
    | .tmop _ => [5760 + coreOf h / 4]
    | _ => []

/-- A unit that strand n's next instruction needs has stopped for a halt (R378). A service hart runs on. -/
def unitStopped (s : State) (n : Nat) : Bool :=
  let x := (s.part (partIx s (n / 2))).halt.stopped
  !isService s (n / 2) && !x.isEmpty && match nextInstr s n with
    | some i => (unitsOf s (n / 2) i).any x.contains
    | none => false

/-- A strand may issue: it is awake, its hart holds a slot, no IDLE or WAITM keeps it (R105, R124, R356), and its vector unit has not
stopped under it. -/
def runnable (s : State) (n : Nat) : Bool :=
  awake s n && holdsSlot s (n / 2) && !unitStopped s n
  && (match (s.strand n).sleep with | none => true | some (.waitm _ w) => w | some (.idle ..) => false)

/-- The rotation of the slot table that core c is in. -/
def rotation (s : State) (c : Nat) : Nat := s.cycles c / 64

/-- The strands of hart h that may issue, the one that did not issue last first (R52). -/
def strandsOf (s : State) (h : Nat) : List Nat :=
  [2 * h + (1 - (s.hart h).last), 2 * h + (s.hart h).last].filter (runnable s)

/-- The strands that core c tries in the present slot, in order: those of the slot's hart, and where its entry or YIELD lends
the slot, those of the other harts with a valid entry (R348, R108). -/
def slotStrands (s : State) (c : Nat) : List Nat :=
  let e := entryAt s c (s.cycles c % 64)
  let h := 4 * c + e % 4
  if e / 128 = 0 then [] else
  strandsOf s h ++
  if e / 64 % 2 = 1 || (s.hart h).yielded == some (rotation s c) then
    [1, 2, 3].flatMap fun k => let u := 4 * c + (e % 4 + k) % 4; if holdsSlot s u then strandsOf s u else []
  else []

/-- Where the bytes of the next instruction of the strand that moves lie: its pc's physical address, if it is mapped. -/
def fetchPa (s : State) : Option Loc :=
  match translate (Run.start s) (spaceOf s s.h) s.me.pc.toNat 2 with
  | .ok (x, _) => some x.loc
  | .error _ => none

end Sys2Proof.Machine
end

