-- ==== Sys2Proof/Machine/Sha.lean ====
section
/-! DEFINITION. Sys2Proof/Machine/Sha.lean: SHA-256, which names translations (16 R334) and measures images (22 R415).
The spec names the digest; its definition (FIPS 180-4) is the standard's (log entry 11). -/

namespace Sys2Proof.Machine

/-- The first 64 primes. -/
def shaPrimes : List Nat :=
  (List.range 312).filter fun n => decide (2 ≤ n) && [2, 3, 5, 7, 11, 13, 17].all fun d => decide (n ≤ d) || n % d != 0

/-- The greatest x above y whose k-th power is at most n, sought bit by bit from bit i − 1 down. -/
def rootFrom (k n : Nat) : Nat → Nat → Nat
  | 0, y => y
  | i + 1, y => rootFrom k n i (if (y + 2 ^ i) ^ k ≤ n then y + 2 ^ i else y)

/-- The first 32 bits of the fraction of the k-th root of p. -/
def rootBits (k p : Nat) : Nat := rootFrom k (p * 2 ^ (32 * k)) 35 0 % 2 ^ 32

/-- The round constants: from the cube roots of the first 64 primes. -/
def shaK : List Nat := shaPrimes.map (rootBits 3)
/-- The initial hash: from the square roots of the first eight primes. -/
def shaInit : List (BitVec 32) := (shaPrimes.take 8).map fun p => BitVec.ofNat 32 (rootBits 2 p)

/-- Rotation right of a word. -/
def shaR (x : BitVec 32) (k : Nat) : BitVec 32 := (x >>> k) ||| (x <<< (32 - k))

/-- The number of four big-endian bytes. -/
def be32 (l : List Byte) : BitVec 32 := BitVec.ofNat 32 (l.foldl (fun a b => 256 * a + b.toNat) 0)

/-- Extends the sixteen last schedule words by k more. -/
def shaExtend : List (BitVec 32) → Nat → List (BitVec 32)
  | _, 0 => []
  | w, k + 1 =>
    let g := fun i => w.getD i 0
    let s0 := shaR (g 1) 7 ^^^ shaR (g 1) 18 ^^^ (g 1 >>> 3)
    let s1 := shaR (g 14) 17 ^^^ shaR (g 14) 19 ^^^ (g 14 >>> 10)
    let n := g 0 + s0 + g 9 + s1
    n :: shaExtend (w.drop 1 ++ [n]) k

/-- One round on the eight working words. -/
def shaRound (v : List (BitVec 32)) (kw : Nat × BitVec 32) : List (BitVec 32) :=
  let g := fun i => v.getD i 0
  let s1 := shaR (g 4) 6 ^^^ shaR (g 4) 11 ^^^ shaR (g 4) 25
  let ch := (g 4 &&& g 5) ^^^ (~~~(g 4) &&& g 6)
  let t1 := g 7 + s1 + ch + BitVec.ofNat 32 kw.1 + kw.2
  let s0 := shaR (g 0) 2 ^^^ shaR (g 0) 13 ^^^ shaR (g 0) 22
  let mj := (g 0 &&& g 1) ^^^ (g 0 &&& g 2) ^^^ (g 1 &&& g 2)
  [t1 + s0 + mj, g 0, g 1, g 2, g 3 + t1, g 4, g 5, g 6]

/-- One block. -/
def shaBlock (h : List (BitVec 32)) (b : List Byte) : List (BitVec 32) :=
  let w := (chunks 4 16 b).map be32
  List.zipWith (· + ·) h ((shaK.zip (w ++ shaExtend w 48)).foldl shaRound h)

/-- SHA-256 of a byte string. -/
def sha256 (m : List Byte) : List Byte :=
  let n := m.length
  let pad := (119 - n % 64) % 64
  let msg := m ++ [0x80] ++ List.replicate pad 0 ++ (leBytes 8 (8 * n)).reverse
  ((chunks 64 (msg.length / 64) msg).foldl shaBlock shaInit).flatMap fun w => (leBytes 4 w.toNat).reverse

end Sys2Proof.Machine
end

