-- ==== Sys2Proof/Machine/Protect.lean ====
section
/-! DEFINITION. Sys2Proof/Machine/Protect.lean: key slots, KEYZ, the Winnower and SCRUB (22 R407 to R412). -/

namespace Sys2Proof.Machine

/-- The state-value fault (Table 20.3). -/
def stateValue (n : Nat) : TrapInfo := { code := 20, val := BitVec.ofNat 64 n }
/-- The partition-state fault. -/
def partState : TrapInfo := { code := 51 }
/-- The privilege trap of a state register (R102). -/
def privTrap (n : Nat) : TrapInfo := { code := 5, val := BitVec.ofNat 64 n }

/-- Key slot k. -/
def Dev.key (d : Dev) (k : Nat) : KSlot := tget {} d.kslot k
/-- Changes key slot k. -/
def updKey (k : Nat) (f : KSlot → KSlot) : Upd := .dev fun d => { d with kslot := tput d.kslot k (f (d.key k)) }

/-- A computation that only reads: its value, or the trap t in place of any other but an uncorrectable data error; either with the
translations that it has filled (09 R230). -/
def readM {α : Type} (s : State) (t : TrapInfo) (m : M α) : Except (TrapInfo × List Upd) (α × List Upd) :=
  match m (Run.start s) with
  | .ok (a, r) => .ok (a, r.out)
  | .error (e, r) => .error (if e.code = 54 then e else t, r.kept)

/-! ### Loading a key (R408) -/

/-- The address of the record that a `kload` value names. -/
def keyAddr (v : Word) : Nat := v.toNat % 2 ^ 57 / 64 * 64
/-- A write of `kload` is refused before its record is read. -/
def keyRefused (s : State) (v : Word) : Bool :=
  decide (keyAddr v % 128 ≠ 0) || (s.dev.key (v.toNat % 64)).st != 0 || s.dev.replay != 0
/-- The read of a key record by strand n, whose own older stores are performed first (04 R88; 11 R292). -/
def readKey (s : State) (n : Nat) (v : Word) : Except (TrapInfo × List Upd) (List Byte × List Upd) :=
  readM s (stateValue 0x440) (do
    flushOwn n
    loadBytesM (spaceOf s (n / 2)) (some (n / 8)) (keyAddr v) 128)

/-- What the read of a key record leaves where the write is refused: the translations that it has filled (09 R230), and the
performed stores where it was read whole. -/
def keyFills (s : State) (n : Nat) (v : Word) : List Upd :=
  if keyRefused s v then [] else
  match readKey s n v with
  | .error e => e.2
  | .ok x => x.2

/-- Loads a key slot from a record: the write of `kload` by strand n. -/
def loadKey (s : State) (n : Nat) (v : Word) : Except TrapInfo (List Upd) :=
  let bad := stateValue 0x440
  let k := v.toNat % 64
  if keyRefused s v then .error bad else
  match readKey s n v with
  | .error t => .error t.1
  | .ok (bs, us) =>
    let own := dbl bs 64
    if own < 64 ∧ (bs.drop 72).all (· == 0) ∧ s.parts.any (fun p => p.2.cfg.toNat % 2 ^ 40 ≠ 0 && lowHall p.2.cfg == own) then
      .ok (us ++ [updKey k fun q =>
        { q with st := 1, own := own, data := BitVec.ofNat 256 (ofLe (bs.take 32)),
                 tweak := BitVec.ofNat 256 (ofLe ((bs.drop 32).take 32)) }])
    else .error bad

/-- A register write by strand n that an event makes: its updates, or the trap that refuses it, at the strand's pc, after `kept`. -/
def writeEvent (s : State) (n : Nat) (w : Except TrapInfo (List Upd)) (kept : List Upd) : Host.Outcome State Fault Refusal :=
  if !isService s (n / 2) || !awake s n then .fault .eventNotEnabled else
  match w with
  | .ok us => .next (applyAll us s)
  | .error t => .next (takeTrap (applyAll kept s) n t 4)

/-- A write of a register whose view below firmware privilege is Z (20 Table 20.1): there it raises the privilege trap (04 R102). -/
def firmwareEvent (s : State) (n reg : Nat) (w : Except TrapInfo (List Upd)) (kept : List Upd) : Host.Outcome State Fault Refusal :=
  if privOf s (n / 2) < 2 then writeEvent s n (.error (privTrap reg)) [] else writeEvent s n w kept

/-- A write of a register that is RO below firmware privilege: there it is ignored (04 R102; 00 Table 0.2). -/
def readOnlyEvent (s : State) (n : Nat) (w : Except TrapInfo (List Upd)) : Host.Outcome State Fault Refusal :=
  if privOf s (n / 2) < 2 then writeEvent s n (.ok []) [] else writeEvent s n w []

/-- KLOAD: strand n writes `kload`. -/
def execKload (n : Nat) (v : Word) (s : State) := firmwareEvent s n 0x440 (loadKey s n v) (keyFills s n v)

/-! ### KEYZ (R409) -/

/-- Drops the stash words of a core that meet a condition, without write-back. -/
def cutStash (p : StashWord → Bool) (k : Core) : Core := { k with stw := k.stw.filter fun w => !p w.2 }

/-- Drops every stash word, in both banks, that meets a condition. -/
def dropStash (p : StashWord → Bool) : Upd := .other fun s =>
  { s with cores := s.cores.map fun c => (c.1, cutStash p c.2),
           lofts := s.lofts.map fun l => (l.1, { l.2 with bank := l.2.bank.map fun b => { b with core := cutStash p b.core } }) }

/-- Drops the lines of the L1 caches and of the LLC that meet a condition on the device and the line's number. -/
def dropLines (p : Dev → Nat → Bool) : Upd := .other fun s =>
  let stays := fun (x : Nat) => !p s.dev x
  { s with cores := s.cores.map fun c => (c.1, { c.2 with l1d := c.2.l1d.filter fun e => stays e.line, l1i := c.2.l1i.filter stays }),
           dev := { s.dev with llc := s.dev.llc.filter stays } }

/-- Places of memory, by address and key slot, that accesses which are still to be performed have lost. -/
abbrev Cut := Nat → Option Nat → Bool

/-- A location lies in a lost place. -/
def Cut.hits (p : Cut) (l : Loc) : Bool := match l with | .mem _ pa ks => p pa ks | .pad .. => false

/-- Buffered stores to lost places have failed: they leave the strip. -/
def cutStrip (p : Cut) (h : Hart) : Hart :=
  if h.strip.any fun e => p.hits e.loc then
    { h with strip := h.strip.filter fun e => !p.hits e.loc, held := h.held.map fun e => { e with older := 0 } }
  else h

/-- Saved buffered stores to lost places have failed: key slot 64, which names none, marks them, and a fill drops them. -/
def markStrip (p : Cut) (h : Hart) : Hart :=
  { h with strip := h.strip.map fun e => match e.loc with
      | .mem va pa ks => if p pa ks then { e with loc := .mem va pa (some 64) } else e
      | .pad .. => e }

/-- The captured frames of an episode that are lost places can be accessed no more: key slot 64 names none. -/
def cutFrames (p : Cut) (t : Slot) : Slot :=
  let cut := fun (l : List (Nat × Option Nat)) => l.map fun f => if p f.1 f.2 then (f.1, some 64) else f
  { t with image := cut t.image, region := cut t.region }

/-- Accesses to lost places that are not performed have failed, in both banks (R409, R416; log entry 108). -/
def failAccesses (p : Cut) : Upd := .other fun s =>
  { s with harts := s.harts.map fun h => (h.1, cutStrip p h.2),
           lofts := s.lofts.map fun l => (l.1, { l.2 with bank := l.2.bank.map fun b =>
             { b with harts := b.harts.map fun h => (h.1, cutStrip p h.2) } }),
           parts := s.parts.map fun q => (q.1, { q.2 with saved := q.2.saved.map fun e => (e.1, e.2.map fun c =>
             (c.1, { c.2 with core := cutStash (fun w => p w.pa w.ks) c.2.core,
                              harts := c.2.harts.map fun h => (h.1, markStrip p h.2) })) }),
           slots := s.slots.map fun t => (t.1, cutFrames p t.2),
           cmds := s.cmds.map fun c => { c with mask := c.mask.filter fun m => !p.hits m.1 } }

/-- Drops cached translations. -/
def dropTlb (p : TlbEnt → Bool) : Upd := .dev fun d => { d with tlb := d.tlb.filter fun t => !p t }

/-- The updates that zeroise key slot k: the key pair is overwritten, and lines and translations under it are gone. -/
def zeroiseKey (k : Nat) : List Upd :=
  [updKey k fun q => { q with st := 2, ord := 0, data := 0, tweak := 0 },
   failAccesses fun _ ks => ks == some k,
   forgetPast,
   dropStash fun w => w.ks == some k,
   dropLines fun d x => tget 0 d.tags (x / 64) == k + 1,
   dropTlb fun t => pks t.pte == some k]

/-- KEYZ. -/
def execKeyz (o : DA) (s : State) :=
  finish s 4 (issue s .both 2 [.x o.a] [.x o.d] [] fun v =>
    let k := (v 0).toNat
    if 63 < k then .trap (stateValue 0)
    else match (s.dev.key k).st with
      | 0 => .done (setD s.cur (.x o.d) 1)
      | 2 => .done (setD s.cur (.x o.d) 2)
      | _ => .done ((performAll (Run.start s) (holdingCores s)).out ++ zeroiseKey k ++ setD s.cur (.x o.d) 0))

/-! ### SCRUB (R410, R411) -/

/-- A run list context of partition p is in the active bank: one whose entry the run list still holds with V = 1. What an
entry without V leaves there is none (23_program_teardown.md; log entry 93). -/
def ctxActive (s : State) (p : Nat) : Bool :=
  match (s.part p).cur with
  | some k => (tget {} (s.part p).rl k).v
  | none => false

/-- A core is quiet (R411). -/
def coreQuiet (s : State) (c : Nat) : Bool :=
  ((List.range 4).all fun t => !occupied s (4 * c + t))
  && (match partOfHall s (c / 16) with | some p => !ctxActive s p | none => true)
  && (s.loft c).save.st == 5

/-- n halves of a byte string. -/
def halves (bs : List Byte) (n : Nat) : List Nat := (List.range n).map fun i => ofLe ((bs.drop (2 * i)).take 2)
/-- n frame runs of a byte string: base and number of frames. -/
def frameRuns (bs : List Byte) (n : Nat) : List (Nat × Nat) := (List.range n).map fun i => (dbl bs (16 * i), dbl bs (16 * i + 8))

/-- The order's fixed fields are in order (Table 22.4). -/
def orderOk (d : List Nat) : Bool :=
  let w := d.getD 0 0
  decide (w / 2 ^ 13 = 0) && !w.testBit 7 && decide (w / 256 ≤ 16) && (w.testBit 6 || decide (w % 64 = 0))
  && decide (d.getD 1 0 % 2 = 0) && decide (d.getD 4 0 % 8 = 0)
  && decide (d.getD 2 0 % 4096 = 0) && decide (d.getD 2 0 < 2 ^ 19) && decide (d.getD 3 0 % 4096 = 0) && decide (d.getD 2 0 + d.getD 3 0 ≤ 2 ^ 19)
  && decide (d.getD 5 0 ≤ 4096) && decide (d.getD 6 0 = 0) && decide (d.getD 7 0 = 0)

/-- A list holds no value twice. -/
def distinct : List Nat → Bool
  | [] => true
  | a :: l => !l.contains a && distinct l

/-- A frame run is in order. -/
def runOk (r : Nat × Nat) : Bool := decide (r.1 % 4096 = 0) && decide (1 ≤ r.2) && decide (r.1 + 4096 * r.2 ≤ 2 ^ 40)

/-- Reads the scrub order at an address, with its lists (Table 22.4), after the strand's own older stores (04 R88; 11 R292). -/
def readOrder (s : State) (a : Nat) : M ScrubOrder := do
  let bad := stateValue 0
  let sp := spaceOf s s.h
  M.check (a % 64 == 0) bad
  flushMine s
  let bs ← loadBytesM sp (some s.c) a 64
  let d := (List.range 8).map fun k => dbl bs (8 * k)
  M.check (orderOk d) bad
  let w := d.getD 0 0
  let cl ← loadBytesM sp (some s.c) (d.getD 1 0) (2 * (w / 256))
  let rl ← loadBytesM sp (some s.c) (d.getD 4 0) (16 * d.getD 5 0)
  let cores := halves cl (w / 256)
  let runs := frameRuns rl (d.getD 5 0)
  M.check (cores.all (· < 640) && distinct cores && runs.all runOk) bad
  pure { id := 0, slot := if w.testBit 6 then some (w % 64) else none, cores := cores,
         off := d.getD 2 0, len := d.getD 3 0, runs := runs }

/-- Two frame runs meet. -/
def runsMeet (a b : Nat × Nat) : Bool := decide (a.1 < b.1 + 4096 * b.2) && decide (b.1 < a.1 + 4096 * a.2)

/-- The order meets no partition-state fault (R411). -/
def orderFree (s : State) (o : ScrubOrder) : Bool :=
  (match o.slot with | some k => (s.dev.key k).st == 2 && (s.dev.key k).ord == 0 | none => true)
  && o.cores.all (coreQuiet s)
  && s.dev.orders.all fun q => !q.cores.any o.cores.contains && !q.runs.any fun a => o.runs.any (runsMeet a)

/-- A cached translation maps a frame of the order. -/
def orderMaps (o : ScrubOrder) (t : TlbEnt) : Bool :=
  let fr := leafFrames t.pte t.size
  o.runs.any fun r => decide (r.1 / 4096 < fr.2) && decide (fr.1 < r.1 / 4096 + r.2)

/-- The bytes of a journal entry: its id and done flag, the fields of the order, and its lists (the arrangement is the model's,
log entry 109). -/
def journalBytes (o : ScrubOrder) (done : Bool) : List Byte :=
  leBytes 8 (o.id * 2 + done.toNat) ++ leBytes 8 (match o.slot with | some k => 64 + k | none => 0)
  ++ leBytes 8 o.cores.length ++ leBytes 8 o.off ++ leBytes 8 o.len ++ leBytes 8 o.runs.length
  ++ o.cores.flatMap (leBytes 2) ++ o.runs.flatMap fun r => leBytes 8 r.1 ++ leBytes 8 r.2

/-- A journal entry closed by its digest (R413). -/
def closeEnt (o : ScrubOrder) (done : Bool) : JEnt := ⟨o, done, sha256 (journalBytes o done)⟩
/-- The digest of an entry holds. -/
def JEnt.ok (j : JEnt) : Bool := j.digest == sha256 (journalBytes j.order j.done)
/-- Bytes that a journal takes. -/
def journalSize (l : List JEnt) : Nat := l.foldl (fun n j => n + (journalBytes j.order j.done).length + 32) 0

/-- Reclaims done entries in age order until the journal fits in its 64 MiB (R413). -/
def reclaim : Nat → List JEnt → List JEnt
  | 0, l => l
  | n + 1, l => if journalSize l ≤ 2 ^ 26 then l else reclaim n (l.eraseP (·.done))

/-- Adds an entry to the journal. -/
def logOrder (o : ScrubOrder) (l : List JEnt) : List JEnt := reclaim (l.length + 1) (l ++ [closeEnt o false])

/-- A place lies in a frame of the order. -/
def orderHolds (o : ScrubOrder) (pa : Nat) : Bool := o.runs.any fun r => decide (r.1 ≤ pa) && decide (pa < r.1 + 4096 * r.2)

/-- Accepts an order: it takes the next id, enters the journal and holds its frames, cores and slot. No translation of its frames
is left, and no buffered store and no captured frame that would write to them later (R411, R416; log entry 108). -/
def acceptOrder (o : ScrubOrder) : List Upd :=
  [.dev fun d => { d with lastOrder := o.id, orders := d.orders ++ [o], journal := logOrder o d.journal }]
  ++ (match o.slot with | some k => [updKey k fun q => { q with ord := o.id }] | none => [])
  ++ [dropTlb (orderMaps o), failAccesses fun pa _ => orderHolds o pa, forgetPast]

/-- SCRUB: the stores that are not performed yet come before the order's zeros. -/
def execScrub (o : DA) (s : State) :=
  finish s 4 (issue s .both 2 [.x o.a] [.x o.d] [] fun v =>
    if 8 ≤ s.dev.orders.length then .wait false []
    else match readM s (stateValue 0) (readOrder s (v 0).toNat) with
      | .error (t, us) => .part us t
      | .ok (q, us) =>
        if !orderFree s q then .part us partState else
        let q := { q with id := s.dev.lastOrder % 65535 + 1 }
        .done (us ++ (performAll (Run.start (applyAll us s)) (holdingCores s)).out ++ acceptOrder q ++ setD s.cur (.x o.d) (BitVec.ofNat 64 q.id)))

/-! ### The Winnower (R412) -/

/-- Units of an order. -/
def orderUnits (o : ScrubOrder) : Nat :=
  o.cores.length * (o.len / 4096) + o.cores.length * 1024 + o.runs.foldl (fun n r => n + r.2) 0

/-- Removes frame f from a claim. -/
def splitClaim (f : Nat) (c : Claim) : List Claim :=
  if c.lo ≤ f ∧ f < c.hi then
    (if c.lo < f then [{ c with hi := f }] else []) ++ (if f + 1 < c.hi then [{ c with lo := f + 1 }] else [])
  else [c]

/-- Makes a frame unclaimed and clears its tag (R230, R412). -/
def unclaim (f : Nat) : Upd := .dev fun d => { d with claims := d.claims.flatMap (splitClaim f), tags := tset 0 d.tags f 0 }

/-- Drops every cached copy of a frame and writes zeros to it. -/
def zeroFrame (r : Run) (f : Nat) : Run :=
  let r := breakResv r (4096 * f) 4096
  r.addAll [dropStash fun w => w.pa / 4096 == f, dropLines fun _ x => x / 64 == f,
    .other fun s => { s with cores := s.cores.map fun c => (c.1, { c.2 with wc := c.2.wc.filter fun b => b.pa / 4096 != f }) },
    .zero (4096 * f) (4096 * f + 4096), unclaim f]

/-- Changes a core in both banks, and what is left of it for the commands of contexts that have been given up. -/
def bothBanks (c : Nat) (f : Core → Core) : List Upd :=
  [.core c f, updLoftCore c f,
   .other fun s => { s with cores := s.cores.map fun k => if 1024 ≤ k.1 ∧ k.1 % 1024 = c then (k.1, f k.2) else k }]

/-- Zeroes 4 KiB of a core's scratchpad, and its stash valid bits. -/
def scrubPad (off : Nat) (c : Core) : Core :=
  { c with pad := tclear c.pad off (off + 4096), stale := freshen off 4096 c.stale, stw := [] }

/-- Zeroes 4 KiB of a core's accumulator store: four rows of a tile, with the tile's status and step count. -/
def scrubAcc (u : Nat) (c : Core) : Core :=
  let lo := 1024 * (u % 32)
  { c with tiles := tput c.tiles (u / 32) (tclear (tget ([] : Tab (BitVec 32)) c.tiles (u / 32)) lo (lo + 1024)),
           tst := tput c.tst (u / 32) {}, stw := [] }

/-- The frame of unit u of the frame runs. -/
def unitFrame : List (Nat × Nat) → Nat → Nat
  | [], _ => 0
  | r :: rs, u => if u < r.2 then r.1 / 4096 + u else unitFrame rs (u - r.2)

/-- Unit u of an order. -/
def scrubUnit (r : Run) (o : ScrubOrder) (u : Nat) : Run :=
  let pads := o.len / 4096
  let a := o.cores.length * pads
  if u < a then r.addAll (bothBanks (o.cores.getD (u / pads) 0) (scrubPad (o.off + 4096 * (u % pads))))
  else if u < a + o.cores.length * 1024 then
    r.addAll (bothBanks (o.cores.getD ((u - a) / 1024) 0) (scrubAcc ((u - a) % 1024)))
  else zeroFrame r (unitFrame o.runs (u - a - o.cores.length * 1024))

/-- WINNOWER_UNIT_DONE. -/
def execWinnowerUnitDone (s : State) : Host.Outcome State Fault Refusal :=
  event s <|
    match s.dev.orders with
    | [] => none
    | o :: _ =>
      if orderUnits o ≤ s.dev.units then none
      else some ((scrubUnit (Run.start s) o s.dev.units).add (.dev fun d => { d with units := d.units + 1 })).out

/-- WINNOWER_ORDER_COMPLETE: the order is marked done, its holds end, and its slot is empty. -/
def execWinnowerOrderComplete (s : State) : Host.Outcome State Fault Refusal :=
  event s <|
    match s.dev.orders with
    | [] => none
    | o :: rest =>
      if s.dev.units < orderUnits o then none
      else some ([Upd.dev fun d =>
          { d with orders := rest, units := 0, lastDone := o.id, replay := d.replay - 1,
                   journal := d.journal.map fun j => if j.order.id = o.id then closeEnt j.order true else j }]
        ++ (match o.slot with | some k => [updKey k fun q => { q with st := 0, ord := 0, own := 0 }] | none => []))

/-- `wnprog` (Table 22.5). -/
def wnprog (d : Dev) : Nat :=
  (if d.replay ≠ 0 then 2 else if d.orders.isEmpty then 0 else 1) * 2 ^ 62
  + (match d.orders with | o :: _ => o.id | [] => 0) * 2 ^ 32 + d.units % 2 ^ 32
/-- `wntot` (Table 22.6). -/
def wntot (d : Dev) : Nat :=
  d.orders.length * 2 ^ 60 + d.lastDone * 2 ^ 32 + (match d.orders with | o :: _ => orderUnits o % 2 ^ 32 | [] => 0)
/-- `kslot.k` (Table 22.2). -/
def kslotReg (q : KSlot) : Nat := q.st * 2 ^ 62 + q.ord * 2 ^ 32 + q.own

end Sys2Proof.Machine
end

