-- ==== Sys2Proof/Machine/Sign.lean ====
section
/-! DEFINITION. Sys2Proof/Machine/Sign.lean: RSASSA-PKCS1-v1_5 with SHA-256, a modulus of 3072 bits and the exponent 65537 (22
R415). The spec names the scheme; its arithmetic (RFC 8017) is the standard's (log entry 11). -/

namespace Sys2Proof.Machine

/-- The number of big-endian bytes. -/
def ofBe (l : List Byte) : Nat := l.foldl (fun a b => 256 * a + b.toNat) 0

/-- x to the power 2^k modulo n. -/
def powTwo (n : Nat) : Nat → Nat → Nat
  | 0, x => x % n
  | k + 1, x => powTwo n k (x * x % n)

/-- The encoded message of a digest, 384 bytes: 0, 1, 255s, 0, the digest's algorithm identifier, and the digest. -/
def pkcsNat (digest : List Byte) : Nat :=
  let id := 0x3031300D060960864801650304020105000420
  (2 ^ (8 * 382) - 1) / 2 ^ (8 * 52) * 2 ^ (8 * 52) + 2 ^ (8 * 382) + id * 2 ^ (8 * 32) + ofBe digest

/-- A signature of a digest holds under a modulus of 3072 bits: its 65537-th power is the encoded message. -/
def rsaOk (n sig : Nat) (digest : List Byte) : Bool :=
  decide (2 ^ 3071 ≤ n) && decide (n < 2 ^ 3072) && decide (sig < n) && powTwo n 16 sig * sig % n == pkcsNat digest

/-- The hash that names a key: SHA-256 of its modulus. -/
def keyHash (n : Nat) : Nat := ofBe (sha256 ((leBytes 384 n).reverse))

/-- A signature of what has a digest holds under one of these keys, none of them revoked (R415). -/
def signedDigest (keys revoked : List Nat) (g : Signature) (digest : List Byte) : Bool :=
  keys.contains (keyHash g.modulus) && !revoked.contains (keyHash g.modulus) && rsaOk g.modulus g.sig digest
/-- A signature of bytes holds under one of these keys, none of them revoked. -/
def signedBy (keys revoked : List Nat) (g : Signature) (bs : List Byte) : Bool := signedDigest keys revoked g (sha256 bs)

/-! ### Images (R415): the digest of each is the root of trust's measurement of it -/

/-- The digest of the firmware of an image: a staged image is named by its digest, plus two. -/
def firmwareDigest (n : Nat) : List Byte := if n < 2 then sha256 (Config.firmwareImage n) else (leBytes 32 (n - 2)).reverse
/-- The identity of an image's translator (16 R334). -/
def translatorId (n : Nat) : List Byte := sha256 (Config.translatorImage n)
/-- The digest of an image's croft monitor. -/
def monitorDigest (n : Nat) : List Byte := sha256 (Config.monitorImage n)

/-- A measurement register that has been extended with the digests of images, in order (R415). -/
def measReg (digest : Nat → List Byte) (images : List Nat) : List Byte :=
  images.foldl (fun old i => sha256 (old ++ digest i)) (List.replicate 32 0)

end Sys2Proof.Machine
end

