-- ==== Sys2Proof/Machine/Block.lean ====
section
/-! DEFINITION. Sys2Proof/Machine/Block.lean: the selectable block formats: headers, decoding, and the choice of the quantising
store (06 R153 to R163). -/

namespace Sys2Proof.Machine

/-! ### Headers -/

/-- Field of a header word. -/
def hdrF (h lo len : Nat) : Nat := h / 2 ^ lo % 2 ^ len
/-- One bits of a 32-bit word. -/
def ones32 (h : Nat) : Nat := (List.range 32).countP fun i => h.testBit i

/-- The check of R154 for a header of type sb4 or sb8. -/
def headerOk (t : Ty) (h : Nat) : Bool :=
  let sel := hdrF h 0 2
  ones32 h % 2 == 0 && hdrF h 20 11 == 0
  && (hdrF h 10 8 == 0 || sel == 3)
  && (hdrF h 18 2 == 0 || (t == .sb4 && sel == 2))

/-- A header with its parity (Table 6.9). -/
def makeHeader (sel ea eb lt : Nat) : Nat :=
  let h := lt * 2 ^ 18 + eb * 2 ^ 10 + ea * 4 + sel
  if ones32 h % 2 = 0 then h else h + 2 ^ 31

/-! ### Decoding -/

/-- Level c of level table k (R158). -/
def levelCode (lt : Tab Word) (k c : Nat) : Nat := (tget 0 lt (4 * k + c / 4)).toNat / 2 ^ (16 * (c % 4)) % 2 ^ 16
/-- Its value. -/
def levelVal (lt : Tab Word) (k c : Nat) : Val := decodeF .bf16 (levelCode lt k c)

/-- v times 2^e. -/
def scaleV (v : Val) (e : Int) : Val :=
  match v with
  | .num n d => .num (scaleQ n d e).1 (scaleQ n d e).2
  | v => v

/-- The exact value of a code under a header (Table 6.10). -/
def blockVal (t : Ty) (lt : Tab Word) (h code : Nat) : Val :=
  let a : Int := (hdrF h 2 8 : Int) - 127
  let b : Int := (hdrF h 10 8 : Int) - 127
  let w := t.bits
  match hdrF h 0 2 with
  | 0 => scaleV (mkVal (sgn w (code % 2 ^ w)) 1 false) a
  | 1 => scaleV (decodeF (if t == .sb4 then .e2m1 else .e4m3) code) a
  | 2 => if t == .sb4 then scaleV (levelVal lt (hdrF h 18 2) (code % 16)) a else scaleV (decodeF .e5m2 code) a
  | _ =>
    let neg := code.testBit (w - 2)
    let m : Nat := code % 2 ^ (w - 2)
    scaleV (mkVal (if neg then -(m : Int) else m) 1 neg) (if code.testBit (w - 1) then b else a)

/-! ### The quantising choice (R160 to R163) -/

/-- A candidate: selector, level table, and the largest code magnitude as a fraction. -/
structure Cand where
  sel : Nat
  lt : Nat
  mx : Int × Nat

/-- A fraction is less than another. -/
def ltQ (a b : Int × Nat) : Bool := decide (a.1 * b.2 < b.1 * a.2)
/-- Magnitude of a fraction. -/
def absQ (a : Int × Nat) : Int × Nat := (a.1.natAbs, a.2)
/-- The greater fraction. -/
def maxQ (a b : Int × Nat) : Int × Nat := if ltQ a b then b else a

/-- The candidates in order (R160). -/
def candidates (t : Ty) (ctl : Nat) (lt : Tab Word) : List Cand :=
  (List.range 4).flatMap fun sel =>
    if !ctl.testBit (13 + sel) then []
    else if sel = 2 && t == .sb4 then
      ((List.range 4).filter fun k => ctl.testBit (17 + k)).map fun k =>
        ⟨2, k, (List.range 16).foldl (fun m c => maxQ m (absQ (levelVal lt k c).frac)) (0, 1)⟩
    else
      let m := if t == .sb4 then [7, 6, 0, 3].getD sel 0 else [127, 448, 57344, 63].getD sel 0
      [⟨sel, 0, ((m : Nat), 1)⟩]

/-- The exponents of a candidate (R161) for the largest magnitude of the block. -/
def exponents (t : Ty) (c : Cand) (amax : Int × Nat) : Nat × Nat :=
  let ea :=
    if amax.1 = 0 ∨ c.mx.1 = 0 then 0 else
    let n := amax.1.toNat * c.mx.2
    let d := amax.2 * c.mx.1.toNat
    let fl := floorLog2 n d
    let q := scaleQ n d (-fl)
    let e := if q.1 = q.2 then fl else fl + 1
    (max 0 (min 255 (e + 127))).toNat
  (ea, if c.sel = 3 then ea - (if t == .sb4 then 2 else 6) else 0)

/-- The lowest code in 0 to 15 that minimises a measure. -/
def bestCode (f : Nat → Int × Nat) (cs : List Nat) : Option Nat :=
  cs.foldl (fun b c => match b with | none => some c | some k => if ltQ (f c) (f k) then some c else some k) none

/-- The difference of two fractions. -/
def subQ (a b : Int × Nat) : Int × Nat := addQ a.1 a.2 (-b.1) b.2

/-- Encodes under a level table (R162): the code, and whether the value lies beyond the extreme levels. -/
def encLevel (lt : Tab Word) (k : Nat) (rst : Bool) (r : Nat) (x : Int × Nat) : Nat × Flags :=
  let lv := fun c => (levelVal lt k c).frac
  let cs := List.range 16
  let below := cs.filter fun c => !ltQ x (lv c)
  let above := cs.filter fun c => !ltQ (lv c) x
  let neg := fun c => (-(lv c).1, (lv c).2)
  let fl : Flags := if below.isEmpty || above.isEmpty then fOF ||| fST else 0
  if !rst then ((bestCode (fun c => absQ (subQ x (lv c))) cs).getD 0, fl)
  else
    match bestCode neg below, bestCode lv above with
    | some a, some b =>
      let lo := lv a
      let hi := lv b
      if !ltQ lo hi then (a, fl)
      else
        let p := subQ x lo
        let g := subQ hi lo
        (if ltQ ((r : Int) * g.1, g.2) (p.1 * 2 ^ 32, p.2) then b else a, fl)
    | some a, none => (a, fl)
    | none, some b => (b, fl)
    | none, none => (0, fl)

/-- Encodes one element under a candidate with its exponents (R162): the code and the flags of clamping (R163). -/
def encElem (t : Ty) (lt : Tab Word) (c : Cand) (ea eb : Nat) (rst : Bool) (r : Nat) (v : Val) : Nat × Flags :=
  let w := t.bits
  let top := 2 ^ (w - 2) - 1
  let mode := if rst then 6 else 1
  let float : Option Ty := if c.sel = 1 then some (if t == .sb4 then .e2m1 else .e4m3)
    else if c.sel = 2 && t == .sb8 then some .e5m2 else none
  match v with
  | .nan => if t == .sb8 && (c.sel = 1 || c.sel = 2) then ((float.getD .e4m3).canonNaN, 0) else (0, fNV)
  | .inf neg =>
    match c.sel, float with
    | 0, _ => (if neg then 2 ^ (w - 1) else 2 ^ (w - 1) - 1, fOF ||| fST)
    | 3, _ => ((if neg then 2 ^ (w - 2) else 0) + top, fOF ||| fST)
    | _, some f => if f == .e5m2 then ((if neg then 0xFC else 0x7C), 0) else (signCode f neg + f.maxCode, fOF ||| fST)
    | _, none =>
      let lv := fun k => (levelVal lt c.lt k).frac
      let m := fun k => if neg then lv k else (-(lv k).1, (lv k).2)
      ((bestCode m (List.range 16)).getD 0, fOF ||| fST)
  | v =>
    let x := v.frac
    let pick := c.sel = 3 && !ltQ (scaleQ top 1 ((eb : Int) - 127)) (absQ x)
    let s := scaleQ x.1 x.2 (127 - ((if pick then eb else ea : Nat) : Int))
    match c.sel, float with
    | 0, _ =>
      let q := roundInt mode r s.1 s.2
      let k := max (-(2 ^ (w - 1) : Int)) (min (2 ^ (w - 1) - 1) q)
      ((k % (2 ^ w : Int)).toNat, if k = q then 0 else fOF ||| fST)
    | 3, _ =>
      let q := roundInt mode r s.1 s.2
      let k := max (-(top : Int)) (min top q)
      ((if pick then 2 ^ (w - 1) else 0) + (if q < 0 then 2 ^ (w - 2) else 0) + k.natAbs, if k = q then 0 else fOF ||| fST)
    | _, some f =>
      let q := roundF f mode true r (mkVal s.1 s.2 v.neg)
      (q.1, if q.2 &&& fOF = 0 then 0 else fOF ||| fST)
    | _, none => encLevel lt c.lt rst r s

/-- What a candidate makes of a block: header, codes, flags, and its score. -/
structure Encoded where
  hdr : Nat
  codes : List Nat
  flags : Flags
  bad : Nat
  err : Int × Nat

/-- One element's part of the score and of the flags (R163). -/
def scoreElem (t : Ty) (lt : Tab Word) (hdr : Nat) (v : Val) (c : Nat × Flags) : Nat × (Int × Nat) × Flags :=
  let y := blockVal t lt hdr c.1
  if v.isFin then
    let d := subQ v.frac y.frac
    let nx : Flags := if d.1 = 0 then 0 else fNX
    let uf : Flags := if !v.isZero && y.isFin && y.frac.1 = 0 then fUF else 0
    (0, (d.1 * d.1, d.2 * d.2), c.2 ||| nx ||| uf)
  else
    let same := match v, y with | .nan, .nan => true | .inf a, .inf b => a == b | _, _ => false
    (if same then 0 else 1, (0, 1), c.2)

/-- A block under one candidate. -/
def encBlock (t : Ty) (lt : Tab Word) (rst : Bool) (vs : List (Val × Nat)) (amax : Int × Nat) (c : Cand) : Encoded :=
  let ex := exponents t c amax
  let hdr := makeHeader c.sel ex.1 ex.2 c.lt
  let cs := vs.map fun v => (v.1, encElem t lt c ex.1 ex.2 rst v.2 v.1)
  let sc := cs.map fun p => scoreElem t lt hdr p.1 p.2
  ⟨hdr, cs.map (·.2.1), orFlags (sc.map (·.2.2)), (sc.map (·.1)).sum,
   sc.foldl (fun e p => addQ e.1 e.2 p.2.1.1 p.2.1.2) (0, 1)⟩

/-- One candidate is strictly better than another: less bad, then less err. -/
def betterEnc (a b : Encoded) : Bool := decide (a.bad < b.bad) || (a.bad == b.bad && ltQ a.err b.err)

/-- The choice for a block of values with their draws (R163): ties keep the earlier candidate. Of an all-zero block R163 says also that
it is stored under the lowest enabled selector; where that is an sb4 candidate whose level table has no zero level, its error is not
0, and the least error decides (DESIGN CHOICE, log entry 153). -/
def quantise (t : Ty) (ctl : Nat) (lt : Tab Word) (vs : List (Val × Nat)) : Option Encoded :=
  let amax := vs.foldl (fun m v => if v.1.isFin then maxQ m (absQ v.1.frac) else m) (0, 1)
  ((candidates t ctl lt).map (encBlock t lt (ctl.testBit 21) vs amax)).foldl
    (fun b e => match b with | none => some e | some k => if betterEnc e k then some e else some k) none

end Sys2Proof.Machine
end

