-- ==== Sys2Proof/Machine/VecMem.lean ====
section
/-! DEFINITION. Sys2Proof/Machine/VecMem.lean: vector loads and stores, the quantising store, and the strip's commit and abort
(07 R172 to R182, R196; 02 R45 to R47). -/

namespace Sys2Proof.Machine

/-- The memory-format fault. -/
def memFormat : TrapInfo := { code := 25 }

/-- The memory element type (R172). -/
def memTy (s : State) : Ty := tyOf (s.myHart.mfcCtl.toNat % 32)

/-- Bytes of one memory element; a 4-bit element is read in its byte. -/
def memSize (t : Ty) : Nat := max 1 (t.bits / 8)

/-- How element addresses are formed (R172). -/
inductive Stride where
  | unit
  | strided (x : Word)
  | indexed (r : Nat)

/-- The address of element e, and whether it is the high nibble of its byte. -/
def elemAddr (s : State) (cx : VCtx) (t : Ty) (b : Word) (k : Stride) (e : Nat) : Word × Bool :=
  let at_ := fun (i : Nat) =>
    if t.bits = 4 then (b + BitVec.ofNat 64 (i / 2), i % 2 == 1) else (b + BitVec.ofNat 64 (i * (t.bits / 8)), false)
  match k with
  | .unit => at_ e
  | .strided x => (wrap (uval b + (e : Int) * sval x), false)
  | .indexed r => at_ (cx.get s r 32 e)

/-- The misaligned-access fault of an element. -/
def misalignedAt (a : Word) (e : Nat) : TrapInfo := { code := 10, val := a, elem := BitVec.ofNat 64 e }

/-- Alignment and translation of an element access of n bytes (R172, R178). -/
def elemXlate (s : State) (a : Word) (n kind e : Nat) : M Xl := do
  M.check (n == 1 || a.toNat % n == 0) (misalignedAt a e)
  xlateM (spaceOf s s.h) a.toNat kind e

/-! ### Headers in h registers -/

/-- Header k of header register v. -/
def VCtx.hdr (cx : VCtx) (s : State) (v k : Nat) : Nat :=
  (tget 0 (s.hart (cx.home (32 * k))).h v).toNat / 2 ^ (32 * (32 * k % cx.part / 32)) % 2 ^ 32

/-- Writes one header of one hart. -/
def putHdr (v : Nat) (h : Hart) (p : Nat × Nat) : Hart :=
  { h with h := tset 0 h.h v (BitVec.ofNat 1024 (putBits (tget 0 h.h v).toNat (32 * (p.1 / 32)) 32 p.2)) }

/-- Writes headers (block, header) into header register v. In spanned mode the header of block k stands in the h register of the
member that holds element 32k, at the block's place in that member's part, which the spec leaves open (DESIGN CHOICE, log
entry 138). -/
def VCtx.putHdrs (cx : VCtx) (v : Nat) (hs : List (Nat × Nat)) : List Upd :=
  cx.byPart (hs.map fun p => (32 * p.1, p.2)) (putHdr v)

/-- Blocks that meet the elements below n. -/
def blocksOf (n : Nat) : Nat := (n + 31) / 32

/-! ### Loads -/

/-- An element lies outside the load's scope (R180). -/
def outside (s : State) (sc : Scope) (x : Xl) : Bool :=
  match x.loc with
  | .pad .. => false
  | .mem _ pa _ =>
    x.sync && (match sc with
      | .floor => homeFloor pa != s.c / 80
      | .dev => decide (2 ^ 51 ≤ pa)
      | _ => false)

/-- What a load or a store does: its data, header base and addressing, a load's scope, and the number of a VSTXO (R177). -/
structure LoadArgs where
  v : Nat
  mask : Mask
  base : Word
  xc : Word
  kind : Stride
  sc : Scope
  ord : Nat := 0

/-- A load in progress: the elements read, latest first; the elements that missed their scope; the headers read, latest
first; and the fault with the element at which it stopped. -/
structure Loading where
  run : Run
  got : List (Nat × Nat × Flags) := []
  miss : List Nat := []
  hdrs : List (Nat × Nat) := []
  fault : Option (Nat × TrapInfo) := none

/-- The load stops at element e with a fault; the translations filled on the way stay. -/
def Loading.fails (l : Loading) (e : Nat) (t : TrapInfo × Run) : Loading :=
  { l with run := l.run.failed t.2, fault := some (e, t.1) }

/-- Bytes of a vector load's element at a translated location: the buffered and committed stores and the performed scalar stores
of the strand, but not its held ones (02 R47); where the part so chooses, the element was performed before later writes of
others (11 R293). An uncorrectable error is the element's fault (20 R371). -/
def readVec (s : State) (x : Xl) (a : Word) (n e : Nat) : M (List Byte) := do
  soundM x.loc n a e
  (fun r =>
    let (bs, r) := readBytes r (some s.c) x.loc n
    .ok (vecBytes s.myHart x.loc (if s.choice.early.testBit e then pastOver s.myHart.past x.loc bs else bs), r) : M (List Byte))


/-- The value of a loaded element in the register type (Table 7.3). -/
def loadConv (s : State) (mt vt : Ty) (hdr e raw : Nat) : Nat × Flags :=
  if mt == vt then (raw, 0)
  else if mt.isBlock then roundAt s (fixedMode s 1) vt e (blockVal mt s.myHart.mfcLt hdr raw)
  else (widenBits mt vt raw, 0)

/-- The element that lies in some bytes: a 4-bit one is a nibble of its byte. -/
def rawElem (mt : Ty) (high : Bool) (bs : List Byte) : Nat :=
  let v := ofLe bs
  if mt.bits = 4 then (if high then v / 16 else v % 16) else v

/-- Where the part so chooses, an element or a header that a load has read may be performed anew by a later turn (11 R293): bit k of
the choice stands for it. A conversion that draws is not made anew (DESIGN CHOICE, log entry 10). -/
def mayBeLate (s : State) (k : Nat) (e : Late) : M Unit := fun r =>
  if s.choice.late.testBit k && fixedMode s 1 != 6 then
    .ok ((), r.add (.hart s.h fun h => { h with late := h.late ++ [{ e with pfx := s.me.pfx }] }))
  else .ok ((), r)

/-- The element at its address, in the register type: none where it misses the load's scope. -/
def loadElem (s : State) (cx : VCtx) (mt : Ty) (g : LoadArgs) (hdr e : Nat) : M (Option (Nat × Flags)) := do
  let a := elemAddr s cx mt g.base g.kind e
  let x ← elemXlate s a.1 (memSize mt) 0 e
  if outside s g.sc x then pure none else
  let bs ← readVec s x a.1 (memSize mt) e
  let q := loadConv s mt cx.ty hdr e (rawElem mt a.2 bs)
  mayBeLate s e { hart := cx.home e, reg := g.v, wd := cx.w, pos := e % cx.part, loc := x.loc, high := a.2, mt := mt.code,
                  vt := cx.ty.code, hdr := hdr, fl := q.2 }
  pure (some q)

/-- A header of a load, checked (R154). R180 gives a load's scope to its elements only: a header is read whatever the scope
(DEDUCED, log entry 116). One that goes into an h register `into` may be performed late, as an element may. -/
def loadHeader (s : State) (cx : VCtx) (mt : Ty) (into : Option Nat) (a : Word) (k elem : Nat) : M Nat := do
  let x ← elemXlate s a 4 0 elem
  let bs ← readVec s x a 4 elem
  M.check (headerOk mt (ofLe bs)) { code := 27, val := a, elem := BitVec.ofNat 64 k }
  match into with
  | none => pure (ofLe bs)
  | some v =>
    mayBeLate s (4096 + k) { hart := cx.home (32 * k), reg := v, wd := 32, pos := 32 * k % cx.part, loc := x.loc, high := false,
                             mt := mt.code, vt := cx.ty.code, isHdr := true }
    pure (ofLe bs)

/-- Loads the elements of a list in order, up to the first fault. -/
def loadElems (s : State) (cx : VCtx) (mt : Ty) (g : LoadArgs) : List Nat → Loading → Loading
  | [], l => l
  | e :: es, l =>
    let hdr : Except (TrapInfo × Run) Loading :=
      if mt.isBlock && e % 32 == 0 then
        match loadHeader s cx mt (if mt == cx.ty then some g.v else none) (g.xc + BitVec.ofNat 64 (4 * (e / 32))) (e / 32) e l.run with
        | .ok (h, r) => .ok { l with run := r, hdrs := (e / 32, h) :: l.hdrs }
        | .error t => .error t
      else .ok l
    match hdr with
    | .error t => l.fails e t
    | .ok k =>
      if !cx.on s g.mask e then loadElems s cx mt g es k else
      match loadElem s cx mt g (k.hdrs.headD (0, 0)).2 e k.run with
      | .error t => l.fails e t
      | .ok (none, r) => loadElems s cx mt g es { k with run := r, miss := e :: k.miss }
      | .ok (some q, r) => loadElems s cx mt g es { k with run := r, got := (e, q) :: k.got }

/-- One bit of `smiss` of one hart. -/
def putMiss (h : Hart) (p : Nat × Nat) : Hart :=
  let k := p.1 / 64
  { h with smiss := tset 0 h.smiss k (BitVec.ofNat 64 (putBits (tget 0 h.smiss k).toNat (p.1 % 64) 1 p.2)) }

/-- The updates of the elements that a load has read: data, and headers where vt is the block type. -/
def loadedUpds (cx : VCtx) (mt : Ty) (v n : Nat) (l : Loading) : List Upd :=
  cx.put v cx.w (l.got.reverse.map fun p => (p.1, p.2.1))
  ++ (if mt.isBlock && mt == cx.ty then cx.putHdrs v (l.hdrs.filter fun p => decide (p.1 < blocksOf n)) else [])

/-- `smiss` and flags at a load's retirement (R180, R148). -/
def loadedFlags (s : State) (cx : VCtx) (l : Loading) : List Upd :=
  cx.byPart ((l.got.map fun p => (p.1, 0)) ++ l.miss.map fun e => (e, 1)) putMiss ++ setFlags s (orFlags (l.got.map (·.2.2)))

/-- The load's checks before its elements: memory format (R173, R174), sub-byte stride (R172) and shapes (R169, R178). A strided
access of an sb type is the memory-format fault, also of sb4 (DEDUCED, log entry 57). -/
def loadChecks (cx : VCtx) (mt : Ty) (g : LoadArgs) (c : Nat) : Option TrapInfo :=
  let pairOk := mt == cx.ty || (!mt.isBlock && widens mt cx.ty) || (mt.isBlock && halfTy cx.ty)
  match g.kind with
  | .strided _ =>
    if mt.isBlock then some memFormat
    else if mt.bits = 4 then some { code := 26 }
    else if !pairOk then some memFormat else none
  | .indexed r =>
    if mt.isBlock || !pairOk then some memFormat
    else if groupBad r (cx.groupN 32) || (decide (r ≤ g.v) && decide (g.v < r + cx.groupN 32)) then some vectorShape
    else none
  | .unit =>
    if !pairOk || (!mt.isBlock && c != 0) then some memFormat
    else if mt.isBlock && cx.vl != 0 then
      if g.base.toNat % (if mt == .sb8 then 32 else 16) != 0 then some (misalignedAt g.base 0)
      else if g.xc.toNat % 4 != 0 then some (misalignedAt g.xc 0) else none
    else none

/-- A vector load; first marks VLDF (R178). -/
def loadAll (s : State) (g : LoadArgs) (c : Nat) (first : Bool) : Act :=
  let cx := vcx s
  let mt := memTy s
  match loadChecks cx mt g c with
  | some t => .trap t
  | none =>
    let l := loadElems s cx mt g (List.range cx.vl) { run := Run.start s }
    match l.fault with
    | none => .done (l.run.out ++ loadedUpds cx mt g.v cx.vl l ++ loadedFlags s cx l)
    | some (e, t) =>
      if first && e != 0 then
        .done (l.run.out ++ loadedUpds cx mt g.v e l ++ loadedFlags s cx l ++ [.hart s.h fun h => { h with vl := e }])
      else .part (l.run.out ++ loadedUpds cx mt g.v e l) t

/-- VLD and VLDF; xc is read where the memory type is a block type. -/
def loadUnit (s : State) (o : VMo) (first : Bool) : Act :=
  issue s .execute 0 [o.a] [] [o.c] fun v => loadAll s ⟨o.v, o.mask, v 0, getX s.me o.c, .unit, o.sc, 0⟩ o.c first

/-- VLD. -/
def execVld (o : VMo) (s : State) := finish s o.form.len (loadUnit s o false)
/-- VLDF. -/
def execVldf (o : VMo) (s : State) := finish s o.form.len (loadUnit s o true)
/-- VLDS. -/
def execVlds (o : VMo) (s : State) :=
  finish s o.form.len (issue s .execute 0 [o.a] [] [o.c] fun v =>
    loadAll s ⟨o.v, o.mask, v 0, 0, .strided (getX s.me o.c), o.sc, 0⟩ 0 false)
/-- VLDX. -/
def execVldx (o : VMo) (s : State) :=
  finish s o.form.len (issue s .execute 0 [o.a] [] [] fun v =>
    loadAll s ⟨o.v, o.mask, v 0, 0, .indexed o.c, o.sc, 0⟩ 0 false)

/-- Loads and checks n headers from an address on, up to the first fault (R176). -/
def loadHdrs (s : State) (cx : VCtx) (mt : Ty) (v : Nat) (a : Word) (n : Nat) : Nat → Loading → Loading
  | 0, l => l
  | k + 1, l =>
    let j := n - (k + 1)
    match loadHeader s cx mt (some v) (a + BitVec.ofNat 64 (4 * j)) j j l.run with
    | .ok (h, r) => loadHdrs s cx mt v a n k { l with run := r, hdrs := (j, h) :: l.hdrs }
    | .error t => l.fails j t

/-- VLDH (R176). -/
def execVldh (o : VMo) (s : State) :=
  finish s o.form.len (issue s .execute 0 [o.a] [] [] fun v =>
    let cx := vcx s
    let mt := memTy s
    if !mt.isBlock then .trap memFormat else
    let n := blocksOf cx.vl
    let l := loadHdrs s cx mt o.v (v 0) n n { run := Run.start s }
    let us := l.run.out ++ cx.putHdrs o.v l.hdrs
    match l.fault with
    | none => .done us
    | some (_, t) => .part us t)

/-! ### Stores -/

/-- A store in progress: its run and the strip entries so far, latest first. -/
structure Storing where
  run : Run
  ents : List StripEnt := []
  flags : Flags := 0
  blocks : List Nat := []

/-- The entry that holds a byte of the present store, the latest first. -/
def nibAt (l : List StripEnt) (loc : Loc) : Option StripEnt := l.find? fun e => e.loc.key == loc.key && e.nib != 0

/-- Adds a nibble to the entries of a 4-bit store, the latest first: the two nibbles of a byte share an entry (20 R384). A
nibble that an indexed store writes again takes an entry of its own, so that every element counts (R46; 15 Table 15.4); so does
one of a VSTXO, unless it follows the other in element order, so that its entries are performed in that order (R177). -/
def addNib (l : List StripEnt) (loc : Loc) (hi : Bool) (x : Nat) (ordered : Bool) : List StripEnt :=
  let n := if hi then 2 else 1
  let put := fun (old : Nat) => if hi then old % 16 + x * 16 else old / 16 * 16 + x
  match nibAt (if ordered then l.take 1 else l) loc with
  | some e =>
    if e.nib + n = 3 then l.replace e { e with nib := 3, bytes := [BitVec.ofNat 8 (put (byteAt e.bytes 0).toNat)] }
    else { loc := loc, bytes := [BitVec.ofNat 8 (put 0)], nib := n } :: l
  | none => { loc := loc, bytes := [BitVec.ofNat 8 (put 0)], nib := n } :: l

/-- The memory pattern of an element (Table 7.3). -/
def storeConv (s : State) (mt vt : Ty) (e v : Nat) : Nat × Flags :=
  if mt == vt then (v, 0)
  else if widens vt mt then (widenBits vt mt v, 0)
  else convert s (dynMode s) vt mt e v

/-- The header entry of the block of element e, once per block (R175). -/
def storeHeader (s : State) (cx : VCtx) (g : LoadArgs) (e : Nat) (l : Storing) : Except (TrapInfo × Run) Storing :=
  let k := e / 32
  if l.blocks.contains k then .ok l else
  match elemXlate s (g.xc + BitVec.ofNat 64 (4 * k)) 4 1 e l.run with
  | .error t => .error t
  | .ok (x, r) => .ok { l with run := r, blocks := k :: l.blocks,
                               ents := { loc := x.loc, bytes := leBytes 4 (cx.hdr s g.v k) } :: l.ents }

/-- Prepares the elements of a list in order, up to the first fault (R179). -/
def storeElems (s : State) (cx : VCtx) (mt : Ty) (g : LoadArgs) : List Nat → Storing → Except (TrapInfo × Run) Storing
  | [], l => .ok l
  | e :: es, l =>
    match (if mt.isBlock then storeHeader s cx g e l else .ok l) with
    | .error t => .error t
    | .ok l =>
      let a := elemAddr s cx mt g.base g.kind e
      match elemXlate s a.1 (memSize mt) 1 e l.run with
      | .error t => .error t
      | .ok (x, r) =>
        let q := storeConv s mt cx.ty e (cx.get s g.v cx.w e)
        let ents := if mt.bits = 4 then addNib l.ents x.loc a.2 q.1 (g.ord != 0)
          else { loc := x.loc, bytes := leBytes (memSize mt) q.1 } :: l.ents
        storeElems s cx mt g es { l with run := r, ents := ents, flags := l.flags ||| q.2 }

/-- The strip-pending trap: a vector store, SCOMMIT or SABORT while a handler runs (20 R370). -/
def stripPending : TrapInfo := { code := 18 }
/-- A handler runs on the strand. -/
def inHandler (s : State) : Bool := s.me.tcause.getLsbD 63

/-- The entries of one store, the first marked. -/
def markFirst (l : List StripEnt) : List StripEnt :=
  match l with
  | [] => []
  | e :: es => { e with first := true } :: es

/-- A store's entries enter the strip, unless they overflow it (R46). -/
def bufferStore (s : State) (r : Run) (ents : List StripEnt) (us : List Upd) : Act :=
  let strip := s.myHart.strip ++ markFirst ents
  if 16384 < stripBytes strip then .part r.kept { code := 17 }
  else .done (r.out ++ [.hart s.h fun h => { h with strip := h.strip ++ markFirst ents }] ++ us)

/-- A store's checks before its elements. -/
def storeChecks (cx : VCtx) (mt : Ty) (g : LoadArgs) (c : Nat) : Option TrapInfo :=
  let pairOk := mt == cx.ty || (!mt.isBlock && !cx.ty.isBlock)
  match g.kind with
  | .strided _ =>
    if mt.isBlock then some memFormat
    else if mt.bits = 4 then some { code := 26 }
    else if !pairOk then some memFormat else none
  | .indexed r =>
    if mt.isBlock || !pairOk then some memFormat
    else if groupBad r (cx.groupN 32) then some vectorShape else none
  | .unit =>
    if !pairOk || (!mt.isBlock && c != 0) then some memFormat
    else if mt.isBlock && cx.vl != 0 then
      if g.base.toNat % (if mt == .sb8 then 32 else 16) != 0 then some (misalignedAt g.base 0)
      else if g.xc.toNat % 4 != 0 then some (misalignedAt g.xc 0) else none
    else none

/-- A vector store (R179). In a handler the strip-pending trap of 20 R370 comes before the store's own faults; the spec gives
no order between them (DESIGN CHOICE, log entry 115). -/
def storeAll (s : State) (g : LoadArgs) (c : Nat) : Act :=
  let cx := vcx s
  let mt := memTy s
  if inHandler s then .trap stripPending else
  match storeChecks cx mt g c with
  | some t => .trap t
  | none =>
    match storeElems s cx mt g (cx.active s g.mask) { run := Run.start s } with
    | .error t => .part t.2.kept t.1
    | .ok l => bufferStore s l.run (l.ents.reverse.map fun e => { e with ord := g.ord }) (setFlags s l.flags)

/-- VST. -/
def execVst (o : VMo) (s : State) :=
  finish s o.form.len (issue s .execute 0 [o.a] [] [o.c] fun v =>
    storeAll s ⟨o.v, o.mask, v 0, getX s.me o.c, .unit, .floor, 0⟩ o.c)
/-- VSTS. -/
def execVsts (o : VMo) (s : State) :=
  finish s o.form.len (issue s .execute 0 [o.a] [] [o.c] fun v =>
    storeAll s ⟨o.v, o.mask, v 0, 0, .strided (getX s.me o.c), .floor, 0⟩ 0)
/-- VSTX: entries in ascending element order, so the highest index wins (R177). -/
def execVstx (o : VMo) (s : State) :=
  finish s o.form.len (issue s .execute 0 [o.a] [] [] fun v =>
    storeAll s ⟨o.v, o.mask, v 0, 0, .indexed o.c, .floor, 0⟩ 0)
/-- The number of the next VSTXO of a hart: no store that waits to be performed bears it. -/
def nextOrd (h : Hart) : Nat := (h.strip.map (·.ord) ++ h.held.map (·.ord)).foldl max 0 + 1
/-- VSTXO: SCOMMIT performs its stores in ascending element order (R177). -/
def execVstxo (o : VMo) (s : State) :=
  finish s o.form.len (issue s .execute 0 [o.a] [] [] fun v =>
    storeAll s ⟨o.v, o.mask, v 0, 0, .indexed o.c, .floor, nextOrd s.myHart⟩ 0)

/-- The entries of n header words from an address on. -/
def storeHdrs (s : State) (cx : VCtx) (v : Nat) (a : Word) : List Nat → Storing → Except (TrapInfo × Run) Storing
  | [], l => .ok l
  | j :: js, l =>
    match elemXlate s (a + BitVec.ofNat 64 (4 * j)) 4 1 j l.run with
    | .error t => .error t
    | .ok (x, r) => storeHdrs s cx v a js { l with run := r, ents := { loc := x.loc, bytes := leBytes 4 (cx.hdr s v j) } :: l.ents }

/-- VSTH (R176). -/
def execVsth (o : VMo) (s : State) :=
  finish s o.form.len (issue s .execute 0 [o.a] [] [] fun v =>
    if inHandler s then .trap stripPending else
    let cx := vcx s
    match storeHdrs s cx o.v (v 0) (List.range (blocksOf cx.vl)) { run := Run.start s } with
    | .error t => .part t.2.kept t.1
    | .ok l => bufferStore s l.run l.ents.reverse [])

/-! ### The quantising store (R182) -/

/-- The values of block k with their draws. -/
def blockVals (s : State) (cx : VCtx) (v k : Nat) : List (Val × Nat) :=
  (List.range 32).map fun i => (decodeF cx.ty (cx.get s v cx.w (32 * k + i)), drawAt s (32 * k + i))

/-- The entries of a block's codes from a location on: one per byte. -/
def codeEnts (mt : Ty) (loc : Loc) (cs : List Nat) : List StripEnt :=
  if mt == .sb4 then
    (List.range 16).map fun i =>
      { loc := loc.plus i, bytes := [BitVec.ofNat 8 (cs.getD (2 * i) 0 + cs.getD (2 * i + 1) 0 * 16)], nib := 3 }
  else (List.range 32).map fun i => { loc := loc.plus i, bytes := [BitVec.ofNat 8 (cs.getD i 0)] }

/-- Prepares the blocks of a list: entries (latest first), flags, and the headers. -/
def quantBlocks (s : State) (cx : VCtx) (mt : Ty) (v : Nat) (base xc : Word) :
    List Nat → Storing → List (Nat × Nat) → Except (TrapInfo × Run) (Storing × List (Nat × Nat))
  | [], l, hs => .ok (l, hs)
  | k :: ks, l, hs =>
    match quantise mt s.myHart.mfcCtl.toNat s.myHart.mfcLt (blockVals s cx v k) with
    | none => .error (memFormat, l.run)
    | some q =>
      let size := if mt == .sb8 then 32 else 16
      match elemXlate s (base + BitVec.ofNat 64 (size * k)) 1 1 (32 * k) l.run with
      | .error t => .error t
      | .ok (x, r) =>
        match elemXlate s (xc + BitVec.ofNat 64 (4 * k)) 4 1 (32 * k) r with
        | .error t => .error t
        | .ok (y, r) =>
          quantBlocks s cx mt v base xc ks
            { l with run := r, flags := l.flags ||| q.flags,
                     ents := { loc := y.loc, bytes := leBytes 4 q.hdr } :: (codeEnts mt x.loc q.codes).reverse ++ l.ents }
            (hs ++ [(k, q.hdr)])

/-- VSTQ (R182), with the order of its strip-pending trap as in `storeAll` (log entry 115). -/
def execVstq (o : VMo) (s : State) :=
  finish s o.form.len (issue s .execute 0 [o.a] [] [o.c] fun v =>
    let cx := vcx s
    let mt := memTy s
    let xc := getX s.me o.c
    if inHandler s then .trap stripPending
    else if !halfTy cx.ty then .trap vectorType
    else if !mt.isBlock || (candidates mt s.myHart.mfcCtl.toNat s.myHart.mfcLt).isEmpty then .trap memFormat
    else if cx.vl % 32 ≠ 0 then .trap vectorShape
    else if cx.vl ≠ 0 ∧ (v 0).toNat % (if mt == .sb8 then 32 else 16) ≠ 0 then .trap (misalignedAt (v 0) 0)
    else if cx.vl ≠ 0 ∧ xc.toNat % 4 ≠ 0 then .trap (misalignedAt xc 0)
    else
      match quantBlocks s cx mt o.v (v 0) xc (List.range (cx.vl / 32)) { run := Run.start s } [] with
      | .error t => .part t.2.kept t.1
      | .ok (l, hs) => bufferStore s l.run l.ents.reverse (cx.putHdrs o.v hs ++ setFlags s l.flags))

/-! ### SCOMMIT and SABORT (R196) -/

/-- A buffered store as a SCOMMIT makes it. -/
def StripEnt.committed (e : StripEnt) : Held := { loc := e.loc, bytes := e.bytes, nib := e.nib, vec := true, ord := e.ord }

/-- The strip of hart h is performed in program order: the held stores, which are older than its SCOMMIT, come first
(02 R45, R47), and the wait of held writes ends. -/
def commitStrip (r : Run) (h : Nat) : Run :=
  let r := flushHeld r (2 * h + 1)
  wcFlush ((r.s.hart h).strip.foldl (fun r e => storeHeld (2 * h + 1) r e.committed) r) (coreOf h)

/-- SCOMMIT: performs the strip and moves `sbase`. The part may hold the stores (11 R293): they are performed by later turns, in
program order where they meet, and at the latest when something orders them. -/
def execScommit (o : RA) (s : State) :=
  finish s o.form.len (issue s .execute 0 [o.a] [] [] fun v =>
    if inHandler s then .trap stripPending else
    let close := fun (h : Hart) => { emptyStrip h with sbase := h.sbase + v 0 }
    if s.holds then .done [.hart s.h fun h => let k := close h; { k with held := k.held ++ h.strip.map (·.committed) }]
    else .done ((commitStrip (Run.start s) s.h).out ++ [.hart s.h close]))

/-- SABORT. -/
def execSabort (f : Form) (s : State) :=
  finish s f.len (issue s .execute 0 [] [] [] fun _ =>
    if inHandler s then .trap stripPending else .done [.hart s.h emptyStrip])

end Sys2Proof.Machine
end

