-- ==== Sys2Proof/Machine/Tmu.lean ====
section
/-! DEFINITION. Sys2Proof/Machine/Tmu.lean: the tuple matrix unit (08): grants, the algebra table, K steps, TMOP, runs, and access to
tiles. A tile is a table of f32 codes at row * 256 + column. -/

namespace Sys2Proof.Machine

/-- The matrix faults: shape 33, state 34, value 35, busy 36, algebra table 37, run descriptor 38. -/
def tmFault (code tile : Nat) : TrapInfo := { code := code, val := BitVec.ofNat 64 tile }

/-- The core of the strand that moves. -/
def State.myCore (s : State) : Core := s.core s.c
/-- A run owns the tile (R216). -/
def ownsTile (c : Core) (t : Nat) : Bool := c.runs.any fun r => r.tile == t
/-- A tile's contents. -/
def Core.tile (c : Core) (t : Nat) : Tab (BitVec 32) := tget [] c.tiles t
/-- A tile's status. -/
def Core.tst' (c : Core) (t : Nat) : TileSt := tget {} c.tst t
/-- Changes a tile's status. -/
def Core.setTst (c : Core) (t : Nat) (f : TileSt → TileSt) : Core := { c with tst := tput c.tst t (f (c.tst' t)) }
/-- Replaces a tile's contents. -/
def Core.setTile (c : Core) (t : Nat) (v : Tab (BitVec 32)) : Core := { c with tiles := tput c.tiles t v }

/-! ### Grants (R197 to R199) -/

/-- Rows of the quad that the other three cores hold. -/
def otherRows (s : State) (c : Nat) : Nat :=
  (((List.range 4).map (4 * (c / 4) + ·)).filter (· ≠ c)).foldl (fun n k => n + (s.core k).rows) 0

/-- Rows of the quad that no core holds. -/
def freeRows (s : State) (c : Nat) : Nat := 128 - otherRows s c - (s.core c).rows

/-- A core after a grant of g rows: newly visible rows are +0 and rows no longer visible lose their contents. -/
def grantRows (g : Nat) (c : Core) : Core :=
  let keep := min c.ext g
  { c with tiles := c.tiles.map fun t => (t.1, t.2.filter fun p => decide (p.1 < 256 * keep)), rows := g, ext := g }

/-- TMATT (R198). It names no tile: tval of its faults is 0 (DESIGN CHOICE, log entry 147). -/
def execTmatt (o : RB) (s : State) :=
  finish s o.form.len (issue s .execute 0 [o.b] [o.d] [] fun v =>
    let r := (v 0).toNat
    if r ≠ 32 ∧ r ≠ 64 ∧ r ≠ 96 ∧ r ≠ 128 then .trap (tmFault 35 0)
    else if !s.myCore.runs.isEmpty then .trap (tmFault 36 0)
    else
      let g := 32 * (min r (128 - otherRows s s.c) / 32)
      .done ([.core s.c fun c => { (if g = 0 then c else grantRows g c) with req := r }]
        ++ setD s.cur o.d (BitVec.ofNat 64 g)))

/-- TMDET (R199). It names no tile: tval of its fault is 0 (DESIGN CHOICE, log entry 147). -/
def execTmdet (f : Form) (s : State) :=
  finish s f.len (issue s .execute 0 [] [] [] fun _ =>
    if !s.myCore.runs.isEmpty then .trap (tmFault 36 0) else .done [.core s.c fun c => { c with rows := 0 }])

/-! ### The algebra table (R201 to R204) -/

/-- The tuple dimension. -/
def AlgTab.d (a : AlgTab) : Nat := 2 ^ a.dc
/-- The constant c(i, j, k). -/
def AlgTab.c (a : AlgTab) (i j k : Nat) : Val :=
  decodeF .f16 (a.cs.getD (i * a.d * a.d + j * a.d + k) 0).toNat
/-- s_i is −1. -/
def AlgTab.minus (a : AlgTab) (i : Nat) : Bool := a.sgn.testBit i
/-- The header double of the image (Table 8.2). -/
def AlgTab.header (a : AlgTab) : Nat := a.aa.toNat * 2 ^ 16 + a.sgn * 256 + a.dc
/-- The memory image. -/
def AlgTab.image (a : AlgTab) : List Byte := leBytes 8 a.header ++ a.cs.flatMap fun c => leBytes 2 c.toNat

/-- v with its sign changed by the product of signs. -/
def flipIf (b : Bool) (v : Val) : Val := if b then v.negate else v

/-- Two finite values are equal, zeros of either sign included. -/
def eqVal (a b : Val) : Bool := decide (a.frac.1 * b.frac.2 = b.frac.1 * a.frac.2)

/-- The anti-automorphism condition of R203. -/
def algAntiOk (a : AlgTab) : Bool :=
  (List.range a.d).all fun i => (List.range a.d).all fun j => (List.range a.d).all fun k =>
    eqVal (flipIf (a.minus k) (a.c i j k)) (flipIf (a.minus i != a.minus j) (a.c j i k))

/-- A table from its header double and constants, checked (R203). -/
def algOf (hd : Nat) (cs : List (BitVec 16)) : Option AlgTab :=
  let a : AlgTab := ⟨hd % 4, hd / 256 % 256, hd.testBit 16, cs⟩
  if hd / 2 ^ 17 = 0 ∧ hd / 4 % 64 = 0 ∧ a.sgn / 2 ^ a.d = 0 ∧ cs.all (fun c => (decodeF .f16 c.toNat).isFin) = true
      ∧ (!a.aa || algAntiOk a) = true then some a else none

/-- Loads n halves at ascending addresses. -/
def loadHalves (s : State) (a : Word) : Nat → M (List (BitVec 16))
  | 0 => pure []
  | n + 1 => do
    let bs ← scalarLoad s a 2
    let rest ← loadHalves s (a + 2) n
    pure (BitVec.ofNat 16 (ofLe bs) :: rest)

/-- TMALG: loads and checks a table (R203). It names no tile: tval of the algebra-table fault is 0 (DESIGN CHOICE, log entry 147). -/
def execTmalg (o : RA) (s : State) :=
  finish s o.form.len (issue s .execute 0 [o.a] [] [] fun v =>
    Act.ofM s (do
      M.check ((v 0).toNat % 8 == 0) (misaligned (v 0))
      let hd ← scalarLoad s (v 0) 8
      let d := 2 ^ (ofLe hd % 4)
      let cs ← loadHalves s (v 0 + 8) (d * d * d)
      match algOf (ofLe hd) cs with
      | some a => pure a
      | none => M.trap (tmFault 37 0)) fun a r => .done (r.out ++ [.core s.c fun c => { c with alg := a }]))

/-- Stores bytes as scalar stores; n bounds their number. R203 does not give their sizes: they are of 8 bytes, and the last one is of what
remains (DESIGN CHOICE, log entry 154). -/
def storePieces (s : State) : Nat → Word → List Byte → M Unit
  | 0, _, _ => pure ()
  | n + 1, a, bs => if bs.isEmpty then pure () else do
    scalarStore s a (bs.take 8)
    storePieces s n (a + 8) (bs.drop 8)

/-- TMALGS: stores the table's image (R203). -/
def execTmalgs (o : RA) (s : State) :=
  finish s o.form.len (issue s .execute 0 [o.a] [] [] fun v =>
    Act.run s (do
      M.check ((v 0).toNat % 8 == 0) (misaligned (v 0))
      storePieces s 200 (v 0) s.myCore.alg.image))

/-! ### K steps (R206 to R208) -/

/-- The exact and special parts of one component's sum. -/
structure KSum where
  n : Int := 0
  d : Nat := 1
  pinf : Bool := false
  ninf : Bool := false
  nan : Bool := false
  nv : Bool := false

/-- Adds the term c x y (R208); c is nonzero. -/
def kTerm (t : KSum) (c x y : Val) : KSum :=
  if x.isNaN || y.isNaN then { t with nan := true }
  else if x.isInf || y.isInf then
    if x.isZero || y.isZero then { t with nan := true, nv := true }
    else if (c.neg != x.neg) != y.neg then { t with ninf := true } else { t with pinf := true }
  else
    let a := c.frac
    let b := x.frac
    let e := y.frac
    if b.1 = 0 ∨ e.1 = 0 then t else
    let q := addQ t.n t.d (a.1 * b.1 * e.1) (a.2 * b.2 * e.2)
    { t with n := q.1, d := q.2 }

/-- The nonzero constants of component k, in row-major order over (i, j). -/
def algTerms (a : AlgTab) (k : Nat) : List (Nat × Nat × Val) :=
  (List.range a.d).flatMap fun i => (List.range a.d).filterMap fun j =>
    let c := a.c i j k
    if c.isZero then none else some (i, j, c)

/-- The sum of one component over the tuples of a block. -/
def kSum (d : Nat) (terms : List (Nat × Nat × Val)) (x y : List Val) : KSum :=
  (List.range (32 / d)).foldl (fun t u =>
    terms.foldl (fun t q => kTerm t q.2.2 (x.getD (d * u + q.1) .nan) (y.getD (d * u + q.2.1) .nan)) t) {}

/-- The new code of a component and its flags (R208). -/
def kNew (old : Nat) (t : KSum) : Nat × Flags :=
  let nan := t.nan || (t.pinf && t.ninf)
  let nv := t.nv || (t.pinf && t.ninf)
  let o := decodeF .f32 old
  let fl := nvIf nv
  if nan || o.isNaN then (Ty.canonNaN .f32, fl)
  else if t.pinf || t.ninf then
    if o.isInf && o.neg != t.ninf then (Ty.canonNaN .f32, fNV)
    else (if t.pinf then 0x7F800000 else 0xFF800000, fl)
  else if o.isInf || t.n = 0 then (old, fl)
  else
    let r := roundF .f32 1 false 0 (addV 1 o (.num t.n t.d)).1
    (r.1, fl ||| r.2)

/-- One row of a tile after a K step: the new entries of the first d·N columns and the rest of the row, with the flags. -/
def kRow (a : AlgTab) (n r : Nat) (old : Tab (BitVec 32)) (x : List Val) (ys : List (List Val)) : Tab (BitVec 32) × Flags :=
  let row := old.filter fun p => p.1 / 256 == r
  let d := a.d
  let terms := (List.range d).map (algTerms a)
  let new := (List.range (d * n)).map fun c =>
    (256 * r + c, kNew (tget 0 row (256 * r + c)).toNat (kSum d (terms.getD (c % d) []) x (ys.getD (c / d) [])))
  ((new.filterMap fun p => if p.2.1 = 0 then none else some (p.1, BitVec.ofNat 32 p.2.1))
    ++ row.filter (fun p => decide (d * n ≤ p.1 % 256)),
   orFlags (new.map (·.2.2)))

/-- Conjugates the elements of one block. -/
def conjRow (a : AlgTab) (x : List Val) : List Val :=
  (List.range x.length).map fun e => flipIf (a.minus (e % a.d)) (x.getD e .nan)

/-- A K step on a tile (R208): xs are the rows of A and ys those of B. -/
def kStep (a : AlgTab) (ca cb : Bool) (tile : Tab (BitVec 32)) (xs ys : List (List Val)) : Tab (BitVec 32) × Flags :=
  let xs := if ca then xs.map (conjRow a) else xs
  let ys := if cb then ys.map (conjRow a) else ys
  let m := xs.length
  let rows := (List.range m).map fun r => kRow a ys.length r tile (xs.getD r []) ys
  (rows.flatMap (·.1) ++ tile.filter (fun p => decide (256 * m ≤ p.1)), orFlags (rows.map (·.2)))

/-- The operand types (R207). -/
def tmType (code : Nat) : Option Ty := if [0, 1, 5, 2, 14, 12, 13, 10, 11, 9, 15, 16].contains code then Ty.ofCode code else none

/-- The exact value of an operand code, under its header for block types (R207). -/
def tmVal (t : Ty) (lt : Tab Word) (hdr code : Nat) : Val := if t.isBlock then blockVal t lt hdr code else decodeV t code

/-! ### TMOP (R212) -/

/-- M is within the grant; without a grant the missing grant is reported later (R199; log entry 23). -/
def rowsOk (rows m : Nat) : Bool := decide (1 ≤ m) && decide (m ≤ if rows = 0 then 128 else rows)

/-- Registers of an operand group. -/
def tmGroup (rows : Nat) (t : Ty) : Nat := (32 * rows * t.bits + 4095) / 4096

/-- The header of block b of a register operand. -/
def tmHdr (h : Hart) (r : Nat) (t : Ty) (b : Nat) : Nat :=
  let p := if t == .sb8 then 16 else 32
  (tget 0 h.h (r + b / p)).toNat / 2 ^ (32 * (b % p)) % 2 ^ 32

/-- The first block of a register operand whose header fails. -/
def badBlock (h : Hart) (r rows : Nat) (t : Ty) : Option Nat :=
  if t.isBlock then (List.range rows).find? fun b => !headerOk t (tmHdr h r t b) else none

/-- The rows of a register operand. -/
def regRows (h : Hart) (r rows : Nat) (t : Ty) : List (List Val) :=
  (List.range rows).map fun i => (List.range 32).map fun e => tmVal t h.mfcLt (tmHdr h r t i) (regElem h r t.bits (32 * i + e))

/-- `mfc.ctl.axis`. -/
def axisSet (h : Hart) : Bool := h.mfcCtl.getLsbD 22

/-- The block-header fault of operand `sub` (1 A, 2 B) of a TMOP. Table 20.3 gives tval the header's address, and a header in an h
register has none: it is 0 (DESIGN CHOICE, log entry 147). -/
def blockHeader (sub b : Nat) : TrapInfo := { code := 27, sub := sub, elem := BitVec.ofNat 64 b }

/-- TMOP. It is sent when it retires, and a TMOP behind queued runs waits (R211, R212). The spec leaves open when the waiting
TMOP counts as sent: the model makes its checks again at each try, so that work of other harts that retires meanwhile comes
first (DESIGN CHOICE, log entry 110); and which of two bad headers is reported: the one of A (DESIGN CHOICE, log entry 139). -/
def execTmop (o : TOo) (s : State) :=
  finish s o.form.len (issue s .execute 0 [o.b] [] [] fun v =>
    let w := (v 0).toNat
    let h := s.myHart
    let c := s.myCore
    let m := w % 256
    let n := w / 256 % 512
    match tmType (w / 2 ^ 17 % 32), tmType (w / 2 ^ 22 % 32) with
    | some ta, some tb =>
      if w / 2 ^ 27 ≠ 0 ∨ !rowsOk c.rows m ∨ n = 0 ∨ 256 / c.alg.d < n
          ∨ groupBad o.a (tmGroup m ta) ∨ groupBad o.vb (tmGroup n tb) then .trap (tmFault 33 o.t)
      else if (ta.isBlock || tb.isBlock) && axisSet h then .trap { code := 28 }
      else match badBlock h o.a m ta, badBlock h o.vb n tb with
        | some b, _ => .trap (blockHeader 1 b)
        | none, some b => .trap (blockHeader 2 b)
        | none, none =>
          if ownsTile c o.t then .trap (tmFault 36 o.t)
          else if c.rows = 0 then .trap (tmFault 34 o.t)
          else if !c.runs.isEmpty then .wait false []
          else
            let r := kStep c.alg o.ca o.cb (c.tile o.t) (regRows h o.a m ta) (regRows h o.vb n tb)
            .done ([.core s.c fun c => (c.setTile o.t r.1).setTst o.t fun t => { t with steps := t.steps + 1 }]
              ++ setFlags s r.2)
    | _, _ => .trap (tmFault 33 o.t))

/-! ### TMRUN (R213 to R219) -/

/-- The scratchpad that an address names, as the core and the offset (R214). -/
def spAddr (c a : Nat) : Option (Nat × Nat) :=
  let hc := a / 2 ^ 20 % 16
  if a / 2 ^ 25 ≠ 0 ∨ a / 2 ^ 19 % 2 ≠ 0 then none
  else if a / 2 ^ 24 % 2 = 1 then (if hc = 0 then some (c, a % 2 ^ 19) else none)
  else if hc = c % 16 then none else some (c / 16 * 16 + hc, a % 2 ^ 19)

/-- An operand of a run: bases, strides, type. -/
structure TmOpd where
  base : Nat
  hbase : Nat
  ks : Int
  rs : Int
  ty : Ty

/-- The strides of a descriptor double: K stride and row stride. -/
def strides (v : Nat) : Int × Int := ((BitVec.ofNat 32 (v / 2 ^ 32)).toInt, (BitVec.ofNat 32 v).toInt)

/-- The operand that three descriptor doubles and a type name. -/
def tmOpd (b h st : Nat) (t : Ty) : TmOpd := ⟨b, h, (strides st).1, (strides st).2, t⟩

/-- The least and the greatest element offset of rows × steps blocks. -/
def offRange (o : TmOpd) (rows steps : Nat) : Int × Int :=
  let r := ((rows : Int) - 1) * o.rs
  let k := (32 * (steps : Int) - 1) * o.ks
  (min 0 r + min 0 k, max 0 r + max 0 k)

/-- The descriptor checks of one operand that need its type (R213, R215). A header base that is no multiple of 4 fails them:
the spec names no fault for it, and the model takes a header as an element of 4 bytes (DEDUCED, log entry 111). -/
def opdOk (c : Nat) (o : TmOpd) (rows steps : Nat) : Bool :=
  let rg := offRange o rows steps
  match spAddr c o.base with
  | none => false
  | some (_, off) =>
    let inPad := if o.ty.bits = 4 then decide (0 ≤ (off : Int) + rg.1 / 2) && decide ((off : Int) + rg.2 / 2 < 2 ^ 19)
      else
        let z : Int := (o.ty.bits / 8 : Nat)
        decide (0 ≤ off + rg.1 * z) && decide (off + rg.2 * z + z ≤ 2 ^ 19) && off % (o.ty.bits / 8) == 0
    inPad && (if o.ty.isBlock then
        match spAddr c o.hbase with
        | none => false
        | some (_, ho) => o.ks == 1 && o.rs % 32 == 0 && ho % 4 == 0
            && decide (0 ≤ (ho : Int) + 4 * (rg.1 / 32)) && decide ((ho : Int) + 4 * (rg.2 / 32) + 4 ≤ 2 ^ 19)
      else o.hbase == 0)

/-- A 4-bit operand with a stride that splits bytes (R215). -/
def subByte (o : TmOpd) : Bool := o.ty.bits == 4 && (o.rs % 2 != 0 || (o.ks % 2 != 0 && o.ks != 1))

/-- The shape fields of a descriptor: M, N and K. -/
def runShape (d : List Word) : Nat × Nat × Nat :=
  let w := (d.getD 6 0).toNat
  (w % 256, w / 256 % 512, w / 2 ^ 32)

/-- The operands of a checked descriptor. -/
def runOpds (d : List Word) : TmOpd × TmOpd :=
  let g := fun k => (d.getD k 0).toNat
  let ty := fun k => ((Ty.ofCode k).getD .i8)
  (tmOpd (g 0) (g 1) (g 2) (ty (g 7 % 32)), tmOpd (g 3) (g 4) (g 5) (ty (g 7 / 32 % 32)))

/-- The checks of a descriptor in the order in which R215 lists them (03 R71). An operand whose type code is outside R207 is
checked with that type's elements, or with bytes where the code names no type (log entry 23). -/
def runFault (s : State) (t : Nat) (d : List Word) : Option TrapInfo :=
  let c := s.myCore
  let g := fun k => (d.getD k 0).toNat
  let sh := runShape d
  let ops := runOpds d
  if g 7 / 2 ^ 18 ≠ 0 ∨ g 6 / 2 ^ 17 % 2 ^ 15 ≠ 0 ∨ !rowsOk c.rows sh.1 ∨ sh.2.1 = 0 ∨ 256 / c.alg.d < sh.2.1 ∨ sh.2.2 = 0
      ∨ !opdOk s.c ops.1 sh.1 sh.2.2 ∨ !opdOk s.c ops.2 sh.2.1 sh.2.2 then some (tmFault 38 t)
  else if subByte ops.1 ∨ subByte ops.2 then some { code := 26 }
  else if (ops.1.ty.isBlock || ops.2.ty.isBlock) && axisSet s.myHart then some { code := 28 }
  else if (tmType (g 7 % 32)).isNone ∨ (tmType (g 7 / 32 % 32)).isNone then some (tmFault 33 t)
  else if ownsTile c t then some (tmFault 36 t)
  else if c.rows = 0 then some (tmFault 34 t)
  else none

/-- TMRUN: sends a run with what it captures (R216); a core that holds four makes it wait. The stores of the hart's older SCOMMITs
are performed first, for the run observes them (R217). -/
def execTmrun (o : TRo) (s : State) :=
  finish s o.form.len (issue s .execute 0 [] [] (groupRegs o.a 8) fun _ =>
    let d := (groupRegs o.a 8).map (getX s.me)
    match runFault s o.t d with
    | some t => .trap t
    | none =>
      if 4 ≤ s.myCore.runs.length then .wait false []
      else .done ((flushCommitted (Run.start s) s.cur).out ++ [.core s.c fun c => { c with runs := c.runs ++
        [{ tile := o.t, desc := d, ca := o.ca, cb := o.cb, noflags := s.pFs, alg := c.alg, lt := s.myHart.mfcLt,
           steps := 0, hart := s.h }] }]))

/-- What reading a block can meet (R219): a header that fails, bytes that the stash cannot serve (R239), or an uncorrectable
error at an address, in the bytes or in a table entry that the stash's fill reads. -/
inductive RunFault where
  | header
  | stash
  | data (key va : Nat)
deriving DecidableEq, Repr

/-- A computation of a run; a failure keeps the run in which it was met. -/
abbrev R (α : Type) := Run → Except (RunFault × Run) (α × Run)

/-- The byte of a scratchpad that a run of core b reads: where no ordering stands between a copy of the run's own core and the
run, and the part so chooses, the byte that the copy has overwritten (17 R341; log entry 152). -/
def runByte (b : Nat) (r : Run) (l : Loc) : Byte × Run :=
  match l with
  | .pad _ c off =>
    match (if r.s.choice.hold && c == b && Config.runsSeeOld then (r.s.core c).stale.find? fun p => p.1 == off else none) with
    | some p => (p.2, r)
    | none => readByte r (some c) l
  | .mem .. => readByte r none l

/-- Reads n bytes of a run's operand: another core's scratchpad, or the own one, where a stash serves mapped offsets (R238). Of the
values that a byte had since the run was sent, R217 leaves open which one a step reads: it is the one at the step's own instant
(DESIGN CHOICE, log entry 136). -/
def runRead (h core off n : Nat) : R Nat := fun r =>
  let place : Except (RunFault × Run) (Loc × Run) :=
    if core = coreOf h then
      match translate r (spaceOf r.s h) (windowBase + off) 0 with
      | .error e => .error (if e.1.1 = 54 then .data e.1.2 (windowBase + off) else .stash, e.2)
      | .ok (x, r) => .ok (x.loc, r)
    else .ok (.pad (windowBase + (hallCore core + 1) * 2 ^ 20 + off) core off, r)
  match place with
  | .error e => .error e
  | .ok (l, r) =>
    if let some k := badIn r.s l n then .error (.data k l.va, r) else
    match l with
    | .mem .. => let p := readBytes r (some core) l n; .ok (ofLe p.1, p.2)
    | .pad .. => .ok (ofLe ((List.range n).map fun i => (runByte (coreOf h) r (l.plus i)).1), r)

/-- The codes of one block of an operand row: the elements from e on. -/
def runElems (h : Nat) (o : TmOpd) (core off : Nat) (x0 : Int) (lt : Tab Word) (hdr : Nat) : Nat → R (List Val)
  | 0 => fun r => .ok ([], r)
  | k + 1 => fun r =>
    let x := x0 + (31 - (k : Int)) * o.ks
    let z := memSize o.ty
    let at_ := if o.ty.bits = 4 then ((off : Int) + x / 2).toNat else ((off : Int) + x * z).toNat
    match runRead h core at_ z r with
    | .error e => .error e
    | .ok (v, r) =>
      let code := if o.ty.bits = 4 then (if x % 2 = 0 then v % 16 else v / 16) else v
      match runElems h o core off x0 lt hdr k r with
      | .error e => .error e
      | .ok (vs, r) => .ok (tmVal o.ty lt hdr code :: vs, r)

/-- The header of the block of an operand that starts at element offset x0, zero for a type without headers. -/
def runHdr (h c : Nat) (o : TmOpd) (x0 : Int) : R Nat := fun r =>
  if !o.ty.isBlock then .ok (0, r) else
  match spAddr c o.hbase with
  | none => .error (.stash, r)
  | some (hc, ho) =>
    match runRead h hc ((ho : Int) + 4 * (x0 / 32)).toNat 4 r with
    | .error e => .error e
    | .ok (v, r) => if headerOk o.ty v then .ok (v, r) else .error (.header, r)

/-- Rows of an operand at a step: rows remaining count down. -/
def runRows (h c : Nat) (o : TmOpd) (step rows : Nat) (lt : Tab Word) : Nat → R (List (List Val))
  | 0 => fun r => .ok ([], r)
  | k + 1 => fun r =>
    let row : Int := (rows : Int) - (k + 1)
    let x0 := row * o.rs + 32 * (step : Int) * o.ks
    match spAddr c o.base with
    | none => .error (.stash, r)
    | some (core, off) =>
      match runHdr h c o x0 r with
      | .error e => .error e
      | .ok (hd, r) =>
        match runElems h o core off x0 lt hd 32 r with
        | .error e => .error e
        | .ok (vs, r) =>
          match runRows h c o step rows lt k r with
          | .error e => .error e
          | .ok (rest, r) => .ok (vs :: rest, r)

/-- The rows of A and of B that a run's next step reads. A step that meets several faults records the first: the rows of A come before
those of B, and a block's header before its elements (DESIGN CHOICE, log entry 140). -/
def runOperands (c : Nat) (q : TmRun) : R (List (List Val) × List (List Val)) := fun r =>
  let ops := runOpds q.desc
  let sh := runShape q.desc
  match runRows q.hart c ops.1 q.steps sh.1 q.lt sh.1 r with
  | .error e => .error e
  | .ok (xs, r) =>
    match runRows q.hart c ops.2 q.steps sh.2.1 q.lt sh.2.1 r with
    | .error e => .error e
    | .ok (ys, r) => .ok ((xs, ys), r)

/-- Records a run's fault unless an earlier one stands (R220), and ends the run. -/
def faultRun (cause : Nat) (c : Core) : Core :=
  match c.runs with
  | [] => c
  | q :: rest =>
    let c := { c with runs := rest }
    c.setTst q.tile fun t => if t.flt then t else { t with flt := true, cause := cause, fstep := BitVec.ofNat 32 q.steps }

/-- An uncorrectable error at an address stops the oldest run of core c: the tile status records it, and the halt line rises
with the quad's TMU as its source (R219; 20 R378). -/
def runData (r : Run) (c : Nat) (q : TmRun) (key va : Nat) : Run :=
  let r := r.addAll (hartFatal r.s q.hart (5760 + c / 4) (badData key (BitVec.ofNat 64 va) q.steps) (runPlace (r.s.core c) q))
  r.add (.core c (faultRun 2))

/-- The step is applied to its tile and counted; the last one ends the run. -/
def applyStep (q : TmRun) (xs ys : List (List Val)) (c : Core) : Core :=
  let k := kStep q.alg q.ca q.cb (c.tile q.tile) xs ys
  let c := (c.setTile q.tile k.1).setTst q.tile fun t =>
    { t with steps := t.steps + 1, fl := if q.noflags then t.fl else t.fl ||| k.2 }
  match c.runs with
  | [] => c
  | q :: rest => if q.steps + 1 = (runShape q.desc).2.2 then { c with runs := rest }
    else { c with runs := { q with steps := q.steps + 1 } :: rest }

/-- One K step of the oldest run of core c, or the fault that stops it. What the stash cannot serve is recorded as a data error
(R239) and raises no halt line: the spec does not say that it does (DESIGN CHOICE, log entry 112). -/
def runStep (r : Run) (c : Nat) (q : TmRun) : Run :=
  match runOperands c q r with
  | .error (.header, e) => (r.failed e).add (.core c (faultRun 1))
  | .error (.stash, e) => (r.failed e).add (.core c (faultRun 2))
  | .error (.data k va, e) => runData (r.failed e) c q k va
  | .ok ((xs, ys), r) => r.add (.core c (applyStep q xs ys))

/-- TMU_K_STEP: the oldest run of core c, on tile t (R211, R216); after the halt line has risen at most the step in progress
(20 Table 20.4). -/
def execTmuKStep (c t : Nat) (s : State) :=
  event s <|
    match (s.core c).runs with
    | [] => none
    | q :: _ =>
      let p := partIx s q.hart
      if q.tile ≠ t ∨ !engineGoes s p (5760 + c / 4) 1 1 then none
      else
        let r := Run.start s
        let r := if (s.part p).halt.st = 0 then r else r.add (countOps p (5760 + c / 4) 1)
        some (runStep r c q).out

/-! ### Tiles (R209, R220 to R222) -/

/-- TMZERO. -/
def execTmzero (f : Form) (t : Nat) (s : State) :=
  finish s f.len (issue s .execute 0 [] [] [] fun _ =>
    if ownsTile s.myCore t then .trap (tmFault 36 t)
    else .done [.core s.c fun c => (c.setTile t []).setTst t fun q => { q with steps := 0 }])

/-- A row number that the extent holds. -/
def rowOf (c : Core) (x : Word) : Option Nat := if x.toNat < 256 ∧ x.toNat < c.ext then some x.toNat else none

/-- TMRD: one row and the step count. -/
def execTmrd (o : TDo) (s : State) :=
  finish s o.form.len (issue s .execute 0 [o.b] [.x o.e] [] fun v =>
    let c := s.myCore
    match rowOf c (v 0) with
    | none => .trap (tmFault 33 o.t)
    | some r =>
      let row := (c.tile o.t).filter fun p => p.1 / 256 == r
      let vals := (List.range 256).map fun k => (k, (tget 0 row (256 * r + k)).toNat)
      .done ([.hart s.h fun h => vals.foldl (putElem o.v 32) h]
        ++ setD s.cur (.x o.e) (BitVec.ofNat 64 (c.tst' o.t).steps.toNat)))

/-- TMWR. -/
def execTmwr (o : TWo) (s : State) :=
  finish s o.form.len (issue s .execute 0 [o.b] [] [] fun v =>
    let c := s.myCore
    let h := s.myHart
    if ownsTile c o.t then .trap (tmFault 36 o.t) else
    match rowOf c (v 0) with
    | none => .trap (tmFault 33 o.t)
    | some r =>
      let new := (List.range 256).filterMap fun k =>
        let x := regElem h o.v 32 k
        if x = 0 then none else some (256 * r + k, BitVec.ofNat 32 x)
      .done [.core s.c fun c =>
        let t := c.tile o.t
        c.setTile o.t (t.filter (fun p => decide (p.1 < 256 * r)) ++ new ++ t.filter (fun p => decide (256 * r + 256 ≤ p.1)))])

/-- The status of a tile (Table 8.11). -/
def tileStatus (c : Core) (t : Nat) : Nat :=
  let q := c.tst' t
  (ownsTile c t).toNat * 2 ^ 63 + q.flt.toNat * 2 ^ 62 + q.cause % 64 * 2 ^ 56 + c.runs.length % 8 * 2 ^ 53
    + q.fl.toNat * 2 ^ 32 + q.steps.toNat

/-- TMWAIT (R220). The delivery of a fault clears flt and fl; R220 does not say what cause and the failing step hold afterwards: they
stay until a later fault is recorded (DESIGN CHOICE, log entry 141). A fault that raises the halt line, without a handler or within
one, counts as delivered too (DESIGN CHOICE, log entry 141). -/
def execTmwait (o : TSo) (s : State) :=
  finish s o.form.len (issue s .execute 0 [] [o.d] [] fun _ =>
    let c := s.myCore
    let q := c.tst' o.t
    if ownsTile c o.t then .wait false []
    else if q.flt then
      .part [.core s.c fun c => c.setTst o.t fun q => { q with flt := false, fl := 0 }]
        { code := 39, val := BitVec.ofNat 64 q.cause, elem := BitVec.ofNat 64 q.fstep.toNat }
    else .done ([.core s.c fun c => c.setTst o.t fun q => { q with fl := 0 }]
      ++ setD s.cur o.d (BitVec.ofNat 64 (tileStatus c o.t)) ++ setFlags s q.fl))

/-- TMSTAT. -/
def execTmstat (o : TSo) (s : State) :=
  finish s o.form.len (issue s .execute 0 [] [o.d] [] fun _ => .done (setD s.cur o.d (BitVec.ofNat 64 (tileStatus s.myCore o.t))))

end Sys2Proof.Machine
end

