-- ==== Sys2Proof/Machine/Fleet.lean ====
section
/-! DEFINITION. Sys2Proof/Machine/Fleet.lean: islands, throttling, the counts of soft errors, and firmware banks (24 R419 to
R428). -/

namespace Sys2Proof.Machine

/-! ### Islands (R419 to R421) -/

/-- Changes an island at a time in nanoseconds; its cycle count goes on (R421). -/
def updIsland (ns i : Nat) (f : Island → Island) : Upd := .dev fun d => { d with isl := tput d.isl i ((d.island i).change ns f) }

/-- Partitions: the records that own a hall. -/
def partsOf (s : State) : List (Nat × Part) := s.parts.filter fun p => p.2.cfg.toNat % 2 ^ 40 != 0

/-- A slot is idle or ended. -/
def slotIdle (t : Slot) : Bool := t.state == 0 || t.state == 3

/-- Every unit of the island is quiet (R420); a core that SCRUB holds is not (Table 24.3), and neither is a tuple matrix unit of such a core. -/
def islandQuiet (s : State) (i : Nat) : Bool :=
  if i < 640 then coreQuiet s i && !coreHeld s i
  else if i < 800 then (List.range 4).all fun c => coreQuiet s (4 * (i - 640) + c) && !coreHeld s (4 * (i - 640) + c)
  else if i < 880 then (partOfHall s ((i - 800) / 2)).isNone
  else if i < 944 then (partsOf s).isEmpty
  else if i < 960 then (partsOf s).all fun p => p.2.cfg.toNat / 2 ^ 51 % 256 == 0
  else if i < 992 then (List.range 128).all fun k => slotIdle (s.slot (128 * (i - 960) + k))
  else false

/-- `isl` (Table 24.1). -/
def islandReg (x : Island) : Nat := x.st * 2 ^ 62 + x.on.toNat * 2 ^ 61 + x.mhz

/-- A write of `isl` (R420). -/
def writeIsland (s : State) (v : Word) : Except TrapInfo (List Upd) :=
  let i := s.dev.isel
  let x := s.dev.island i
  let mhz := v.toNat % 4096
  let on := v.getLsbD 61
  if 992 ≤ i ∨ mhzOk i mhz = false then .error (stateValue 0x501)
  else if x.on ∧ !on ∧ !islandQuiet s i then .error partState
  else .ok [updIsland s.ns i fun x =>
    { x with mhz := mhz, on := on, st := if x.on == on then x.st else 2, low := min x.low (mhz - 200) }]

/-- ISLAND_CONTROL: strand n writes `isl`. -/
def execIslandControl (n : Nat) (v : Word) (s : State) := firmwareEvent s n 0x501 (writeIsland s v) []

/-- A core with its SRAM zeroed. -/
def clearCore (c : Nat) : List Upd :=
  [.core c fun _ => {}, .loft c fun l => { l with bank := l.bank.map fun _ => {} }]
  ++ (List.range 4).flatMap (fun t => [Upd.hart (4 * c + t) fun _ => {}])
  ++ (List.range 8).map fun k => Upd.strand (8 * c + k) fun _ => {}

/-- An episode slot with the SRAM of its group zeroed: the croft core's local memory and registers, and the mailbox's records
and the slot's state in it. -/
def clearSlot (_ : Slot) : Slot := {}

/-- What an island loses without power (R420): the registers and arrays of a core, the lines of an LLC bank group, which stand for
those of its floor, and the croft and mailbox SRAM of a croft group. A TMU's accumulator stores lie in its cores (01 Table 1.1);
network and memory channels hold no state of this model. -/
def islandClear (i : Nat) : List Upd :=
  if i < 640 then clearCore i
  else if 880 ≤ i ∧ i < 944 then [.dev fun d => { d with llc := d.llc.filter fun x => homeFloor (64 * x) != (i - 880) / 8 }]
  else if 960 ≤ i ∧ i < 992 then (List.range 128).map fun k => Upd.slot (128 * (i - 960) + k) clearSlot
  else []

/-- ISLAND_POWER_CHANGE_DONE: an island has been switched on, its SRAM zero, or off, its SRAM lost (log entry 24). -/
def execIslandPowerChangeDone (i : Nat) (s : State) :=
  event s <|
    let x := s.dev.island i
    if x.st ≠ 2 then none
    else some (islandClear i ++ [updIsland s.ns i fun x => { x with st := if x.on then 1 else 0 }])

/-! ### Power and cooling (R422, R423) -/

/-- The temperature of an island's hottest sensor. -/
def tempOf (d : Dev) (i : Nat) : Nat := (tget 0 d.itel i).toNat / 2 ^ 52
/-- A sensor reads more than t. -/
def hotter (d : Dev) (t : Nat) : Bool := d.itel.any fun p => decide (t < p.2.toNat / 2 ^ 52)
/-- A power or temperature condition of R422 holds; a low flow is a temperature condition (R423). -/
def throttleDue (d : Dev) : Bool :=
  decide (d.lim < d.watts) || hotter d 840 || decide (d.cool.toNat / 2 ^ 32 % 2 ^ 16 < 200)

/-- The telemetry of an island after 100 µs: its next reading, and the count of throttled periods. -/
def nextTel (old : Word) (reading : Word) (more : Bool) : Word :=
  BitVec.ofNat 64 (reading.toNat / 2 ^ 32 * 2 ^ 32 + (old.toNat + more.toNat) % 2 ^ 32)

/-- The fields of `cool` (R423). What bits that no field names read, the rules of `modpwr`, `cool`, `barnw` and `fwst` leave open:
zero (DESIGN CHOICE, log entry 25). -/
def coolMask : Word := 0x0000FFFF0FFF0FFF

/-- The sensors are read again (log entry 25); a period in which an island's clock stood below its mhz is throttled. -/
def sample (n : Nat) (d : Dev) : Dev :=
  { d with
    itel := (List.range 1024).map fun i => (i, nextTel (tget 0 d.itel i) (Config.sensor i n) ((d.island i).low != 0))
    watts := (Config.sensor 1024 n).toNat % 2 ^ 16
    cool := Config.sensor 1025 n &&& coolMask }

/-- Some sensor that read at most t before reads more now. -/
def passed (old new : Dev) (t : Nat) : Bool :=
  (List.range 1024).any fun i => decide (tempOf old i ≤ t) && decide (t < tempOf new i)

/-- Interrupt bits for a rise of the throttle bit and for a temp that passes 105 °C (R426). -/
def riseBits (old new : Dev) : BitVec 6 :=
  (if new.throttled && !old.throttled then 1 else 0) ||| (if passed old new 840 then 2 else 0)

/-- One step of 10 MHz of an island's clock: down, not below 200 MHz, while a condition holds, else back toward its mhz (R422). -/
def throttleIsland (due : Bool) (x : Island) : Island :=
  { x with low := if due then (if 210 ≤ x.mhz - x.low then x.low + 10 else x.low) else x.low - 10 }

/-- The step of every core and TMU island. -/
def throttleAll (ns : Nat) (due : Bool) (d : Dev) : Dev :=
  { d with isl := (List.range 800).foldl (fun t i =>
      let x := d.island i
      let y := throttleIsland due x
      if y = x then t else tput t i (x.change ns (throttleIsland due))) d.isl }

/-- THROTTLE_STEP: one step of 10 MHz down while a condition holds, or up again, then the next readings; the device throttles
while a condition holds or a clock is lowered. -/
def execThrottleStep (s : State) :=
  event s <|
    let due := throttleDue s.dev
    some [.dev fun d =>
        let e := throttleAll s.ns due (sample s.free d)
        let e := { e with throttled := due || e.isl.any fun i => i.2.low != 0 }
        { e with rint := e.rint ||| riseBits d e }, .tick]

/-- Power is gone: a bank that was being written is not whole (R335, R428). -/
def powerOff : Upd := .dev fun d =>
  { d with off := true,
           banks := if d.stage = 1 then (List.range 2).map fun b => let k := d.banks.getD b {}; if b = d.active then k else { k with ok := false }
                    else d.banks }

/-- THERMAL_SHUTDOWN: a sensor has reached 120 °C. -/
def execThermalShutdown (s : State) := event s (if hotter s.dev 959 then some [powerOff] else none)

/-- POWER_LOSS. -/
def execPowerLoss (s : State) := event s (some [powerOff])

/-! ### Soft errors (R424) -/

/-- One more corrected or uncorrectable error; each field stops at all ones. -/
def countErr (uncorr : Bool) (v : Word) : Word :=
  let c := v.toNat / 2 ^ 32
  let u := v.toNat % 2 ^ 32
  if uncorr then BitVec.ofNat 64 (c * 2 ^ 32 + min (2 ^ 32 - 1) (u + 1)) else BitVec.ofNat 64 (min (2 ^ 32 - 1) (c + 1) * 2 ^ 32 + u)

/-- The count of class k, and bit 2 of `rint` at each multiple of 65 536 corrected errors. -/
def countUpd (k : Nat) (uncorr : Bool) : Upd := .dev fun d =>
  let old := tget 0 d.serr k
  let new := countErr uncorr old
  { d with serr := tset 0 d.serr k new,
           rint := if new.toNat / 2 ^ 48 ≠ old.toNat / 2 ^ 48 then d.rint ||| 4 else d.rint }

/-! ### Firmware banks (R428) -/

/-- The translator (1) or the croft monitor (2) was loaded at the last reset (22 R415). -/
def Dev.loaded (d : Dev) (j : Nat) : Bool := !(d.meas.getD j []).isEmpty
/-- Changes bank b. -/
def Dev.setBank (d : Dev) (b : Nat) (f : Bank2 → Bank2) : Dev :=
  { d with banks := (List.range 2).map fun k => if k = b then f (d.bank k) else d.bank k }

/-- `barnw` (R425): the spare blocks, and the highest and lowest of the erase counts of the translation cache's blocks, which the
machine holds, and of the other blocks, which a sensor gives (log entry 28). -/
def barnReg (d : Dev) : Word :=
  let w := d.barnw.toNat
  let es := (List.range Config.barnBlocks).map (tget 0 d.erases)
  BitVec.ofNat 64 (w / 2 ^ 56 * 2 ^ 56 + min (2 ^ 24 - 1) (es.foldl max (w / 2 ^ 32 % 2 ^ 24)) * 2 ^ 32
    + es.foldl min (w / 2 ^ 8 % 2 ^ 24) * 2 ^ 8)

/-- Barn wear after a write to the Barn (R425), with bit 3 of `rint` when the spare falls below 10 percent. -/
def barnWrite (n : Nat) (d : Dev) : Dev :=
  let new := Config.sensor 1026 n
  { d with barnw := new,
           rint := if new.toNat / 2 ^ 56 < 10 ∧ 10 ≤ d.barnw.toNat / 2 ^ 56 then d.rint ||| 8 else d.rint }

/-- fwctl op 1: staging begins into the inactive bank, which is not whole until it is done. -/
def stageUpd (v : Word) : List Upd :=
  [.dev fun d => { d.setBank (1 - d.active) (fun k => { k with ok := false }) with stage := 1, fwAddr := v.toNat % 2 ^ 57 / 64 * 64 }]

/-- fwctl op 2: the running bank is committed, and the minimum version is at least its own. -/
def commitUpd : List Upd :=
  [.dev fun d => { d.setBank d.active (fun k => { k with com := true }) with minVer := max d.minVer (d.bank d.active).ver }]

/-- fwctl op 3: the other bank boots next, unless its version is below the minimum. -/
def selectUpd : List Upd :=
  [.dev fun d => if (d.bank (1 - d.active)).ver < d.minVer then { d with stage := 3 } else { d with nextBank := 1 - d.active }]

/-- A write of `fwctl`; an op that the register does not list changes nothing (log entry 26). -/
def writeFwctl (v : Word) : Except TrapInfo (List Upd) :=
  match v.toNat / 2 ^ 61 with
  | 1 => .ok (stageUpd v)
  | 2 => .ok commitUpd
  | 3 => .ok selectUpd
  | _ => .ok []

/-- FW_STAGE: strand n writes `fwctl` with op 1. -/
def execFwStage (n : Nat) (v : Word) (s : State) := firmwareEvent s n 0x511 (.ok (stageUpd v)) []
/-- FW_COMMIT. -/
def execFwCommit (n : Nat) (s : State) := firmwareEvent s n 0x511 (.ok commitUpd) []
/-- FW_SELECT_BANK. -/
def execFwSelectBank (n : Nat) (s : State) := firmwareEvent s n 0x511 (.ok selectUpd) []

/-- The bytes that are staged, read from the image's address in the address space of the reeve harts. -/
def stagedBytes (s : State) (len : Nat) : Option (List Byte) :=
  match loadBytesM (spaceOf s 3) none s.dev.fwAddr len (Run.start s) with
  | .ok (bs, _) => some bs
  | .error _ => none

/-- The keys of a manifest that a key of the boot ROM, not revoked, has signed; of any other, none (22 R415). -/
def manifestKeys (revoked : List Nat) (c : CfgRec) : List Nat :=
  if signedBy Config.romKeys revoked c.manifestSign (Config.manifestImage c.manifest) then c.manifest else []

/-- The keys that the root of trust accepts, but for revoked ones: those of the boot ROM, and those of the manifest of the last
reset while the key that signed it is not revoked (22 R415). -/
def trustedKeys (d : Dev) : List Nat :=
  Config.romKeys ++ if d.revoked.contains (keyHash d.record.manifestSign.modulus) then [] else d.record.manifest

/-- A key that the root of trust accepts. -/
def keyTrusted (d : Dev) (k : Nat) : Bool := (trustedKeys d).contains k && !d.revoked.contains k

/-- FW_STAGE_DONE: the root of trust has checked the staged image: `len` bytes at the image's address, with the modulus of the
key, the signature and the security version that the image carries (log entry 27). The image is named by its digest. -/
def execFwStageDone (len modulus sig ver : Nat) (s : State) :=
  event s <|
    if s.dev.stage ≠ 1 ∨ 2 ^ 16 ≤ ver then none else
    let digest := (stagedBytes s len).map sha256
    let good := (match digest with | some g => rsaOk modulus sig g | none => false)
      && keyTrusted s.dev (keyHash modulus) && decide (s.dev.minVer ≤ ver)
    let image := ofBe (digest.getD []) + 2
    some [.dev fun d =>
      let d := if good then
          { d.setBank (1 - d.active) (fun _ => { image := image, sign := some (modulus, sig), ver := ver, ok := true, com := false }) with
              stage := 2, nextBank := 1 - d.active }
        else { d with stage := 3 }
      barnWrite s.free { d with rint := d.rint ||| 0x10 }, .tick]

/-- The signature of a bank's image: the one that it was staged with, or that of the image that came with the part. -/
def Bank2.signature (k : Bank2) : Signature := let g := k.sign.getD (Config.firmwareSign k.image); ⟨g.1, g.2⟩

/-- A bank that may boot: it is whole, and the root of trust verifies its image (22 R415). -/
def bankBoots (d : Dev) (b : Nat) : Bool :=
  (d.bank b).ok && signedDigest (trustedKeys d) d.revoked (d.bank b).signature (firmwareDigest (d.bank b).image)

/-- The bank that the next reset boots: a bank that ran without a commit is abandoned, a bank that is not whole does not boot
(R428). -/
def bootBank (d : Dev) : Nat :=
  let other := 1 - d.active
  if !(d.bank d.active).com && bankBoots d other then other
  else if bankBoots d d.nextBank then d.nextBank
  else if bankBoots d d.active then d.active else other

/-- `fwst`. -/
def fwst (d : Dev) : Nat :=
  d.stage * 2 ^ 62 + d.active * 2 ^ 61 + bootBank d * 2 ^ 60 + (!(d.bank d.active).com).toNat * 2 ^ 59
  + (d.bank d.active).ver % 2 ^ 16 * 2 ^ 32 + d.minVer % 2 ^ 16 * 2 ^ 16
/-- `modpwr`. -/
def modpwr (d : Dev) : Nat := d.throttled.toNat * 2 ^ 63 + d.watts % 2 ^ 16 * 2 ^ 32 + d.lim

/-- Erases cached translations, with the blocks that held them (16 R335). -/
def dropBarn (f : BarnEnt → Bool) (d : Dev) : Dev :=
  { d with barn := d.barn.filter fun e => !f e
           erases := ((d.barn.filter f).flatMap (·.blocks)).foldl (fun t b => tput t b (tget 0 t b + 1)) d.erases }

/-- A revocation record that lists one more key is signed with a trusted key (22 R415). -/
def revocationOk (d : Dev) (v : Revocation) : Bool :=
  signedBy (trustedKeys d) d.revoked v.sign (Config.revocationImage (d.revoked ++ [v.key]))

/-- KEY_REVOCATION: the signed revocation record in the Barn lists one more key (22 R415), and every cached translation that a
translator signed with it made is erased (16 R336). A record whose signature fails revokes nothing. -/
def execKeyRevocation (v : Revocation) (s : State) :=
  event s (some (if !revocationOk s.dev v then [] else
    [.dev fun d => barnWrite s.free (dropBarn (fun e => e.signer == v.key) { d with revoked := d.revoked ++ [v.key] }), .tick]))

end Sys2Proof.Machine
end

