-- ==== Sys2Proof/Machine/Cache.lean ====
section
/-! DEFINITION. Sys2Proof/Machine/Cache.lean: TLBINV, CINV and CWB (20 R375 to R377), the walkers' fills (09 R229) and the timeouts of
held writes (09 R232). -/

namespace Sys2Proof.Machine

/-! ### TLBINV (R376) -/

/-- The translations that TLBINV removes: kind 0 those of a page of entry k, 1 those of entry k, 2 those of partition p. -/
def tlbHit (p k kind : Nat) (va : Nat) (t : TlbEnt) : Bool :=
  match kind with
  | 0 => t.tag == 64 * p + k && t.va == va % 2 ^ 57 / 2 ^ t.size && canonical va
  | 1 => t.tag == 64 * p + k
  | _ => t.tag / 64 == p && decide (t.tag < 4096) || t.tag == 4096 + p

/-- TLBINV: accesses under the removed translations are performed, the held ones and the early loads too. -/
def execTlbinv (o : RAB) (s : State) :=
  finish s o.form.len (issue s .both 1 [o.a, o.b] [] [] fun v =>
    let b := (v 1).toNat
    let p := partIx s s.h
    if b % 4 = 3 ∨ b / 4 % 64 ≠ 0 ∨ 2 ^ 14 ≤ b then .trap (stateValue 0)
    else .done ((performAll (Run.start s) (partCores s p)).out ++ [forgetPast, dropTlb (tlbHit p (b / 256) (b % 4) (v 0).toNat)]))

/-! ### CINV and CWB (R377) -/

/-- The frame of a page, whatever its permissions, or none where it has no translation. A walk that meets an uncorrectable error
is the only failure (24 R424). -/
def pageFrame (sp : Space) (va : Nat) : M (Option Nat) := fun r =>
  if !canonical va || (decide (windowBase ≤ va) && decide (va < 2 ^ 56)) then .ok (none, r)
  else if sp.root = 0 && !sp.user then .ok (if paMapped (va % 2 ^ 57) then some (va / 4096 * 4096) else none, r)
  else match leafOf r sp va with
    | .ok (e, size, r) => .ok (some (pframe e + va % 2 ^ size / 4096 * 4096), r)
    | .error x => if x.1.1 = 54 then .error (xlTrap x.1 (BitVec.ofNat 64 va) 0, x.2) else .ok (none, x.2)

/-- The physical pieces of a range, page by page: base and length. -/
def rangePieces (sp : Space) : Nat → Nat → Nat → M (List (Nat × Nat))
  | 0, _, _ => pure []
  | n + 1, va, len =>
    if len = 0 then pure [] else do
    let k := min len (4096 - va % 4096)
    let f ← pageFrame sp va
    let l ← rangePieces sp n (va + k) (len - k)
    pure (match f with
      | some f => (f + va % 4096, k) :: l
      | none => l)

/-- A unit of `z` bytes at pa lies in a 64-byte line that meets a piece. -/
def meetsPiece (ps : List (Nat × Nat)) (pa z : Nat) : Bool :=
  ps.any fun p => decide (p.1 / 64 * 64 < pa + z) && decide (pa < (p.1 + p.2 + 63) / 64 * 64)

/-- Writes the dirty words of core c in the pieces back; they stay valid and clean. -/
def writeBack (r : Run) (c : Nat) (ps : List (Nat × Nat)) : Run :=
  let k := r.s.core c
  let r := (k.stw.filter fun w => meetsPiece ps w.2.pa 4).foldl (fun r w => backWord r k.pad w) r
  r.add (.core c fun k => { k with stw := k.stw.map fun w => if meetsPiece ps w.2.pa 4 then (w.1, { w.2 with dirty := false }) else w })

/-- The lines of a range of the issuing core: held writes end their wait, dirty words are written back, and with `drop` the
words become invalid. -/
def cacheOp (s : State) (va len : Nat) (drop : Bool) : M Unit := do
  let ps ← rangePieces (spaceOf s s.h) (len / 4096 + 2) va len
  fun r =>
    let r := ((r.s.core s.c).wc.filter fun b => meetsPiece ps b.pa 256).foldl (fun r b => wcFlushBlock r s.c b) r
    let r := writeBack r s.c ps
    .ok ((), if drop then r.add (.core s.c fun k =>
      { k with stw := k.stw.filter fun w => !meetsPiece ps w.2.pa 4, l1d := k.l1d.filter fun e => !meetsPiece ps (64 * e.line) 64 }) else r)

/-- CINV and CWB. -/
def cacheAct (s : State) (o : RAB) (priv : Nat) (drop : Bool) : Act :=
  issue s .both priv [o.a, o.b] [] [] fun v =>
    let b := (v 1).toNat
    if 2 ^ 41 ≤ b then .trap (stateValue 0) else .run s (cacheOp s (v 0).toNat (b % 2 ^ 40) drop)

/-- CINV. -/
def execCinv (o : RAB) (s : State) := finish s o.form.len (cacheAct s o 1 true)
/-- CWB. -/
def execCwb (o : RAB) (s : State) := finish s o.form.len (cacheAct s o 0 false)

/-! ### The lines of the caches (01 R14; 09 R227, R233, R234) -/

/-- A line of memory that a cache may hold: its address is mapped, and no order holds its frame (22 R411). -/
def lineOk (s : State) (line : Nat) : Bool := paMapped (64 * line) && !frameHeld s (line / 64) (line / 64 + 1)

/-- A line enters the L1 data cache of core c with these valid words, or leaves it with none: one of 256 sets of 8 ways takes it, and a
stashed line is in no L1 (R238). Which lines an access leaves there, and when one goes, is the schedule's (log entry 103). -/
def moveL1d (c line : Nat) (valid : BitVec 16) (s : State) : Host.Outcome State Fault Refusal :=
  let k := s.core c
  let rest := k.l1d.filter (·.line != line)
  if valid = 0 then .next (applyAll [.core c fun k => { k with l1d := rest }] s)
  else if coreOn s c && lineOk s line && decide ((rest.filter fun e => e.line % 256 == line % 256).length < 8)
      && !k.stw.any (fun w => w.2.pa / 64 == line) then
    .next (applyAll [.core c fun k => { k with l1d := rest ++ [⟨line, valid⟩] }] s)
  else .fault .eventNotEnabled

/-- A line enters or leaves the L1 instruction cache of core c, 64 KiB. -/
def moveL1i (c line : Nat) (s : State) : Host.Outcome State Fault Refusal :=
  let l := (s.core c).l1i
  if l.contains line then .next (applyAll [.core c fun k => { k with l1i := k.l1i.filter (· != line) }] s)
  else if coreOn s c && lineOk s line && decide (l.length < 1024) then
    .next (applyAll [.core c fun k => { k with l1i := k.l1i ++ [line] }] s)
  else .fault .eventNotEnabled

/-- A line enters or leaves the LLC: the slice of its home floor, 768 MiB, takes it. -/
def moveLlc (line : Nat) (s : State) : Host.Outcome State Fault Refusal :=
  let l := s.dev.llc
  if l.contains line then .next (applyAll [.dev fun d => { d with llc := d.llc.filter (· != line) }] s)
  else if lineOk s line && decide ((l.filter fun x => homeFloor (64 * x) == homeFloor (64 * line)).length < 12582912) then
    .next (applyAll [.dev fun d => { d with llc := d.llc ++ [line] }] s)
  else .fault .eventNotEnabled

/-! ### Events -/

/-- TRANSLATION_FILL: a walker completes a walk for hart h; a walk that meets a fault caches nothing (R229, R374). -/
def execTranslationFill (h : Nat) (va : Word) (s : State) :=
  event s <|
    let sp := spaceOf s h
    let a := va.toNat
    if !canonical a || (decide (windowBase ≤ a) && decide (a < 2 ^ 56)) || (sp.root == 0 && !sp.user)
        || (tlbFind s sp a).isSome then none
    else match fillTlb (Run.start s) sp (a % 2 ^ 57) with
      | .ok (_, _, r) => some r.out
      | .error x => some x.2.out

/-- WC_TIMEOUT: the block at physical address blk of core c has been held for `wcwait` cycles. -/
def execWcTimeout (c blk : Nat) (s : State) :=
  event s <|
    match (s.core c).wc.find? fun b => b.pa == blk && decide (b.since + (s.core c).wcwait ≤ s.cycles c) with
    | some b => some (wcFlushBlock (Run.start s) c b).out
    | none => none

end Sys2Proof.Machine
end

