-- ==== Sys2Proof/Machine/Late.lean ====
section
/-! DEFINITION. Sys2Proof/Machine/Late.lean: loads that are performed after they have retired (11 R291, R293): which instructions
let them wait, which have older loads end and newer ones read anew, and how a late one is performed. -/

namespace Sys2Proof.Machine

/-! ### Vector loads (11 R293) -/

/-- The vector registers from r on. -/
def fromReg (r : Nat) : List Nat := (List.range (32 - r)).map (r + ·)

/-- The vector register that the c field of format V names. -/
def VSrc.regs (c : VSrc) : List Nat :=
  match c with
  | .v r => [r]
  | .s _ | .i _ => []

/-- The vector registers, or the first registers of the groups, that an instruction reads or writes; none of VSYNC and the arrivals,
which order vector loads (05 R122, R129), and of the instructions that end a strand or maintain a core. -/
def vecOperands (i : Instr) : Option (List Nat) :=
  match i with
  | .vld o | .vldf o | .vlds o | .vst o | .vsts o | .vstq o => some [o.v]
  | .vldx o | .vstx o | .vstxo o => some [o.v, o.c]
  | .vldh _ | .vsth _ => some []
  | .vadd o | .vsub o | .vmul o | .vmulh o | .vmac o | .vmin o | .vmax o | .vminn o | .vmaxn o | .vand o | .vor o | .vxor o
  | .vshl o | .vshr o | .vsha o | .vsadd o | .vssub o | .vfadd o | .vfsub o | .vfmul o | .vfma o | .vfnma o | .vfdiv o
  | .vfmin o | .vfmax o | .vslideup o | .vslidedn o | .vperm o | .stxs o | .stxw o | .vredadd o | .vredaddo o | .vredmax o
  | .vredmin o | .vfredadd o | .vfredaddo o | .vfredmax o | .vfredmin o => some ([o.d, o.a] ++ VSrc.regs o.c)
  | .vabs o | .vfsqrt o | .vfrece o | .vfabs o | .vfneg o | .vfclass o | .vfexp2 o | .vcompr o | .vexpand o => some [o.d, o.a]
  | .vfrcpp o => some [o.d, o.a]
  | .vcmp o => some (o.a :: VSrc.regs o.c)
  | .vfcmp o => some (o.a :: VSrc.regs o.c)
  | .vcvt o | .vnarrow o | .vnarrowChain o | .vftoi o | .vitof o => some [o.d, o.a]
  | .viota o => some [o.d]
  | .vidxc o => some [o.d]
  | .vbcast o => some (o.d :: VSrc.regs o.c)
  | .vextr o => some (o.a :: VSrc.regs o.c)
  | .vins o => some [o.d]
  | .mand _ | .mor _ | .mxor _ | .mnot .. | .mpopc _ | .mfirst _ | .vmset _ => some []
  | .afdef o => some ((List.range o.n).map (o.a + ·) ++ VSrc.regs o.p)
  | .afpop o => some (fromReg o.d ++ fromReg o.a)
  | .epopv o | .shpush o | .shins o => some [o.v]
  | .shpopb _ v _ => some (fromReg v)
  | .tmop o => some (fromReg o.a ++ fromReg o.vb)
  | .tmrd o => some [o.v, o.v + 1]
  | .tmwr o => some [o.v, o.v + 1]
  | .add _ | .sub _ | .mul _ | .mulh _ | .mulhn _ | .div _ | .divn _ | .rem _ | .remn _ | .and _ | .or _ | .xor _ | .andn _
  | .shl _ | .shr _ | .sha _ | .rot _ | .min _ | .max _ | .minn _ | .maxn _ | .slt _ | .sltn _ | .clz _ | .ctz _ | .popc _
  | .sext _ | .zext _ | .addsh .. | .addi _ | .li _ | .bfx _ | .bfi _ => some []
  | .beq _ | .bne _ | .blt _ | .bge _ | .bltn _ | .bgen _ | .jal _ | .j _ | .jr _ | .jtab _ | .loopbrk _ | .loop _
  | .brqNz _ | .brqZ _ => some []
  | .ldb _ | .ldh _ | .ldw _ | .ldd _ | .ldbn _ | .ldhn _ | .ldwn _ | .pref _ | .stb _ | .sth _ | .stw _ | .std _
  | .qpeek _ | .qcnt _ => some []
  | .amoadd _ | .amoand _ | .amoor _ | .amoxor _ | .amomin _ | .amomax _ | .amominn _ | .amomaxn _ | .amoswp _ | .amocas _
  | .lda _ | .stl _ | .fence _ | .waitm _ | .bari _ | .barw _ | .barx _ => some []
  | .trap _ | .eret _ | .idle _ | .rdgtc _ | .feat _ | .yield _ | .gets _ | .mod _ => some []
  | .epush _ | .epop _ | .shinit .. | .shclr _ | .shcnt _ | .cmarm .. | .cmref _ | .cmchk .. | .cmrd _ | .cmoff .. => some []
  | .afcnt o => some (match o.p with | some p => VSrc.regs p | none => [])
  | .scommit _ | .sabort _ | .vgetg _ => some []
  | .tmatt _ | .tmdet _ | .tmalg _ | .tmalgs _ | .tmzero .. | .tmrun _ | .tmwait _ | .tmstat _ => some []
  | _ => none

/-- The groups that begin at some vector registers hold no late element of the hart, whatever the width of their elements. -/
def apartFrom (s : State) (rs : List Nat) : Bool :=
  let n := max 1 ((vcx s).groupN 64)
  s.myHart.late.all fun e =>
    let k := e.reg + (if e.isHdr then 0 else e.pos * e.wd / 4096)
    rs.all fun r => decide (k < r) || decide (r + n ≤ k)

/-- Instruction i of the execute strand leaves its hart's late elements as they are. VLDH and VSTH look at h registers only; a switch of
VL or of the type waits for them where it may change the attached set (02 R37), and a write of a state register where an element goes
by the block format's registers. -/
def keepsLate (s : State) (i : Instr) : Bool :=
  match i with
  | .vldh o | .vsth o => s.myHart.late.all fun e => !e.isHdr || e.reg != o.v
  | .vsetl _ | .vsett _ | .vsetm _ => s.myHart.att.isEmpty
  | .sets _ | .swaps _ => s.myHart.late.all fun e => !(tyOf e.mt).isBlock
  | i => match vecOperands i with | some rs => apartFrom s rs | none => false

/-- The late element number k of hart h is performed: it takes what lies at its location now. One that a store of the hart meets,
in the strip or held, that would meet an uncorrectable error, or that would raise other flags than it has raised, stays as it has
read; so does a header that is none. -/
def landLate (h k : Nat) (s : State) : Host.Outcome State Fault Refusal :=
  let q := s.hart h
  match q.late[k]? with
  | none => .fault .eventNotEnabled
  | some e =>
    let mt := tyOf e.mt
    let n := if e.isHdr then 4 else memSize mt
    if stripMeets q.strip e.loc n || q.held.any (fun x => e.meets x.loc x.bytes.length) || meetsBad s e.loc n then
      .fault .eventNotEnabled
    else
      let x := readBytes (Run.start s) (some (h / 4)) e.loc n
      let done : Upd := .hart h fun q => { q with late := q.late.eraseIdx k }
      if e.isHdr then
        if headerOk mt (ofLe x.1) then
          .next (applyAll (x.2.out ++ [.hart e.hart fun q => putHdr e.reg q (e.pos, ofLe x.1), done]) s)
        else .fault .eventNotEnabled
      else
        let t := applyAll [.strand (2 * h + 1) fun st => { st with pfx := e.pfx }] { s with cur := 2 * h + 1 }
        let val := loadConv t mt (tyOf e.vt) e.hdr 0 (rawElem mt e.high x.1)
        if val.2 = e.fl then .next (applyAll (x.2.out ++ [.hart e.hart fun q => putElem e.reg e.wd q (e.pos, val.1), done]) s)
        else .fault .eventNotEnabled

/-! ### Scalar loads (11 R291, R292) -/

/-- The scalar operands of the instructions that order no scalar load: those of scalar arithmetic, control flow, plain loads and
stores, LDA, SCOMMIT, and the vector loads, stores and arithmetic. -/
def scalarOperands (i : Instr) : Option (List Src × List Dst) :=
  match i with
  | .add o | .sub o | .mul o | .mulh o | .mulhn o | .div o | .divn o | .rem o | .remn o | .and o | .or o | .xor o | .andn o
  | .shl o | .shr o | .sha o | .rot o | .min o | .max o | .minn o | .maxn o | .slt o | .sltn o | .sext o | .zext o
  | .addsh _ o | .jtab o => some ([o.a, o.b], [o.d])
  | .clz o | .ctz o | .popc o | .feat o => some ([o.a], [o.d])
  | .addi o | .jr o => some ([o.a], [o.d])
  | .li o => some ([], [o.d])
  | .bfx o | .bfi o => some ([o.a], [o.d])
  | .beq o | .bne o | .blt o | .bge o | .bltn o | .bgen o => some ([o.a, o.b], [])
  | .jal o => some ([], [o.d])
  | .j _ | .loopbrk _ | .brqNz _ | .brqZ _ | .mod _ => some ([], [])
  | .loop o => some ([o.a], [])
  | .ldb o | .ldh o | .ldw o | .ldd o | .ldbn o | .ldhn o | .ldwn o => some ([o.a], [o.d])
  | .pref o => some ([o.a], [])
  | .stb o | .sth o | .stw o | .std o => some ([o.d, o.a], [])
  | .qpeek o | .qcnt o => some ([], [o.d])
  | .lda o => some ([o.a], [o.d])
  | .rdgtc o => some ([], [o.d])
  | .scommit o => some ([o.a], [])
  | .vld o | .vldf o | .vldh o | .vlds o | .vldx o | .vst o | .vstq o | .vsth o | .vsts o | .vstx o | .vstxo o =>
    some ([o.a, .x o.c], [])
  | .vadd o | .vsub o | .vmul o | .vmulh o | .vmac o | .vmin o | .vmax o | .vminn o | .vmaxn o | .vand o | .vor o | .vxor o
  | .vshl o | .vshr o | .vsha o | .vsadd o | .vssub o | .vfadd o | .vfsub o | .vfmul o | .vfma o | .vfnma o | .vfdiv o
  | .vfmin o | .vfmax o => some (vsrcs o.c, [])
  | .fence o => if o.pr || o.eng then none else some ([], [])
  | _ => none

/-- The instruction has every later scalar load of its strand performed after it: an acquire (05 R118, R124), a FENCE before later
loads (R120), VSYNC and the barrier instructions (R122, R129, R133), the pop of a queue or of a port (11 Table 11.1), and any that this
model does not let a load pass. STL, a FENCE before later stores only, and the vector instructions of the opcodes 0x20 to 0x36 but EPOPV
let later loads be performed early. -/
def acquires (i : Instr) : Bool :=
  let pops := fun (l : List Src) => l.any fun x => match x with | .q _ => true | _ => false
  match i with
  | .lda _ | .epopv _ => true
  | .fence o => o.sr
  | .stl o => pops [o.d, o.a]
  | i => match scalarOperands i with
    | some (srcs, _) => pops srcs
    | none => !decide (0x20 ≤ opcodeOf i ∧ opcodeOf i ≤ 0x36)

/-- A late scalar load that waits on while its strand issues instruction i: its register is not named. -/
def LateS.passes (e : LateS) (i : Instr) : Bool :=
  match scalarOperands i with
  | some (srcs, dsts) => !srcs.contains (.x e.reg) && !dsts.contains (.x e.reg)
  | none => false

/-- The loads that instruction i of the strand that moves finds done: what it names or orders is performed as it has read, and an
acquire's later loads read anew. -/
def settledBy (s : State) (i : Instr) (h : Hart) : Hart :=
  let h := { h with lateS := h.lateS.filter fun e => e.strand != s.cur || e.passes i }
  let h := if acquires i then setPast s.cur [] h else h
  if s.isExec && !keepsLate s i then { h with late := [] } else h

/-- Before an instruction that may look at late loads, or that orders them, they are performed as they have read. -/
def settle (i : Instr) (s : State) : State :=
  if s.myHart.loadsDone then s else applyAll [.hart s.h (settledBy s i)] s

/-- The late scalar load number k of hart h is performed: its register takes what lies at its location now, and no later load returns
anything older (11 R292). One that a store of its strand meets that is not performed, or that would meet an uncorrectable error, stays
as it has read; so does one whose strand has stopped. -/
def landScalar (h k : Nat) (s : State) : Host.Outcome State Fault Refusal :=
  let q := s.hart h
  match q.lateS[k]? with
  | none => .fault .eventNotEnabled
  | some e =>
    if !awake s e.strand || (e.strand % 2 == 1 && stripMeets q.strip e.loc e.n)
        || (q.heldBy e.strand).any (fun x => e.meets x.loc x.bytes.length) || meetsBad s e.loc e.n then
      .fault .eventNotEnabled
    else
      let x := readBytes (Run.start s) (some (h / 4)) e.loc e.n
      .next (applyAll (x.2.out ++ [.strand e.strand (setX e.reg (loadVal e.sg e.n x.1)),
        .hart h fun q => { setPast e.strand (freshAt e.loc e.n (q.pastOf e.strand)) q with lateS := q.lateS.eraseIdx k }]) s)

end Sys2Proof.Machine
end

