-- ==== Sys2Proof/Machine/Monitor.lean ====
section
/-! DEFINITION. Sys2Proof/Machine/Monitor.lean: conservation monitors: CMARM, CMREF, CMCHK, CMRD and CMOFF (10 R280 to R284). What
they count, Access.lean says (R282). -/

namespace Sys2Proof.Machine

/-- The monitor-value fault. -/
def monitorValue : TrapInfo := { code := 48 }

/-- A monitor of a core. -/
def monOf (c : Core) (m : Nat) : Monitor := tget {} c.mon m

/-- An update of monitor m of the core of the strand that moves. -/
def updMon (s : State) (m : Nat) (f : Monitor → Monitor) : Upd :=
  .core s.c fun c => { c with mon := tput c.mon m (f (monOf c m)) }

/-- Formats that a monitor counts, with their sizes (R281). -/
def monFmtOk (f : Nat) : Bool := [9, 10, 11, 3, 4, 7].contains f

/-- The checks of CMARM (R281) on its group. -/
def armOk (g : List Nat) : Bool :=
  let stride := g.getD 1 0 / 2 ^ 32
  let off := g.getD 1 0 % 2 ^ 32
  let n := g.getD 2 0
  let w := g.getD 3 0
  let fmt := w % 32
  let x := (BitVec.ofNat 8 (w / 256)).toInt
  monFmtOk fmt && decide (w / 32 % 8 = 0) && decide (w / 2 ^ 16 % 2 ^ 16 = 0)
  && decide (-64 ≤ x) && decide (x ≤ 64)
  && decide (1 ≤ n) && decide (n ≤ 2 ^ 40)
  && decide (stride % monSize fmt = 0) && decide (monSize fmt ≤ stride) && decide (off < stride)

/-- CMARM (R281). -/
def execCmarm (f : Form) (m a : Nat) (s : State) :=
  finish s f.len (issue s .both 0 [] [] (groupRegs a 4) fun _ =>
    let g := groupVals s a 4
    if armOk g then
      .done [updMon s m fun t =>
        { t with sum := 0, nf := false, ov := false, tr := false, pw := false, arm := true,
                 nom := g.map (BitVec.ofNat 64), fmt := g.getD 3 0 % 32 }]
    else .trap monitorValue)

/-- Loads n doubles at ascending addresses as scalar loads. -/
def loadDoubles (s : State) (a : Word) : Nat → M (List Byte)
  | 0 => pure []
  | n + 1 => do
    let bs ← scalarLoad s a 8
    let rest ← loadDoubles s (a + 8) n
    pure (bs ++ rest)

/-- CMREF (Table 10.10). -/
def execCmref (o : CRo) (s : State) :=
  finish s o.form.len (issue s .both 0 [o.a] [] [] fun v =>
    Act.ofM s (do M.check ((v 0).toNat % 8 == 0) (misaligned (v 0)); loadDoubles s (v 0) 10) fun bs r =>
      let bound := BitVec.ofNat 320 (ofLe (bs.drop 40))
      if bound.msb then .part r.kept monitorValue
      else .done (r.out ++ [updMon s o.m fun t => { t with ref := BitVec.ofNat 320 (ofLe (bs.take 40)), bound := bound }]))

/-- The check of an armed monitor fails (R284). -/
def monDrift (m : Monitor) : Bool :=
  m.arm && (m.nf || m.ov || decide (m.bound.toInt < ((m.sum.toInt - m.ref.toInt).natAbs : Int)))

/-- The conservation-drift trap of monitor m. -/
def driftTrap (m : Nat) : TrapInfo := { code := 32, elem := BitVec.ofNat 64 m }

/-- CMCHK and CMCHK.clr (R284): the hart's earlier stores are counted first, those of its SCOMMITs too. -/
def execCmchk (f : Form) (m : Nat) (clr : Bool) (s : State) :=
  finish s f.len (issue s .both 0 [] [] [] fun _ =>
    let r := flushHart (Run.start s) s.h
    if monDrift (monOf (r.s.core s.c) m) then .part r.out (driftTrap m)
    else .done (r.out ++ if clr then [updMon s m fun t => { t with sum := 0 }] else []))

/-- The status double (Table 10.9). -/
def monStatus (m : Monitor) : Nat :=
  m.arm.toNat * 2 ^ 63 + m.nf.toNat * 2 ^ 62 + m.ov.toNat * 2 ^ 61 + m.tr.toNat * 2 ^ 60 + m.pw.toNat * 2 ^ 59 + m.fmt % 32

/-- Double k of a monitor as CMRD numbers them. -/
def monDouble (m : Monitor) (k : Nat) : Option Word :=
  if k < 5 then some (BitVec.ofNat 64 (m.sum.toNat / 2 ^ (64 * k)))
  else if k < 10 then some (BitVec.ofNat 64 (m.ref.toNat / 2 ^ (64 * (k - 5))))
  else if k < 15 then some (BitVec.ofNat 64 (m.bound.toNat / 2 ^ (64 * (k - 10))))
  else if k = 15 then some (BitVec.ofNat 64 (monStatus m))
  else none

/-- CMRD (Table 10.10). -/
def execCmrd (o : CDo) (s : State) :=
  finish s o.form.len (issue s .both 0 [o.b] [o.d] [] fun v =>
    match monDouble (monOf (s.core s.c) o.m) (v 0).toNat with
    | some w => .done (setD s.cur o.d w)
    | none => .trap monitorValue)

/-- CMOFF (Table 10.10). -/
def execCmoff (f : Form) (m : Nat) (s : State) :=
  finish s f.len (issue s .both 0 [] [] [] fun _ => .done [updMon s m fun t => { t with arm := false }])

end Sys2Proof.Machine
end

