-- ==== Sys2Proof/Machine/Sync.lean ====
section
/-! DEFINITION. Sys2Proof/Machine/Sync.lean: atomics, LDA, STL, FENCE, VSYNC, WAITM and the gang barriers (05). One access is
performed whole at one instant, so scopes and orders ask for nothing more here than the end of held writes (log entry
10; 09 R232). -/

namespace Sys2Proof.Machine

/-! ### Atomics (R113 to R119) -/

/-- The access of an atomic, LDA, STL or WAITM: alignment, translation with the permissions, and the atomic-attribute
fault, in the order of R119; an atomic's strip-conflict comes next. The stash-attribute fault of 09 R239 comes after the
instruction's own (03 R71). -/
def syncAddr (s : State) (a : Word) (rd wr : Bool) : M Xl := do
  M.check (a.toNat % 8 == 0) (misaligned a)
  let x ← anyM a (if rd then 0 else 1)
  if rd && wr then let _ ← anyM a 1
  M.check (x.cp == 0) { code := 15, val := a }
  M.check (!(rd && wr) || !stripMeets s.myHart.strip x.loc 8) { code := 19, val := a }
  M.check (!stashBad s s.c x) { code := 14, val := a }
  pure x
where
  /-- Translates without the test of the stash attribute. -/
  anyM (a : Word) (kind : Nat) : M Xl := fun r =>
    match translateAny r (spaceOf s s.h) a.toNat kind with
    | .error e => .error (xlTrap e.1 a 0, e.2)
    | .ok p => .ok p

/-- The ordering instruction performs the strand's held scalar stores and ends the wait of its core's held writes (09 R232; 02
R47). -/
def flushM (s : State) : M Unit := fun r => .ok ((), wcFlush (flushScalars r s.cur) s.c)

/-- As `flushM`, for an atomic on the double at a location: what the strand's SCOMMITs have stored there precedes it (02 R45). -/
def flushAtM (s : State) (l : Loc) : M Unit := fun r => .ok ((), wcFlush (flushFor l 8 r s.cur) s.c)

/-- One atomic on the double at a: `f old` is the new value, none for no write; the old value is the result. The write is
performed at once for every party (R111, R113). -/
def atomicM (s : State) (a : Word) (f : Word → Option Word) : M Word := do
  let x ← syncAddr s a true true
  soundM x.loc 8 a 0
  flushAtM s x.loc
  let bs ← (fun r => .ok (readBytes r (some s.c) x.loc 8) : M (List Byte))
  let old := word64 bs
  match f old with
  | none => pure old
  | some new =>
    (fun r => .ok ((), seenOwn (monCount (writeNow r s.c x.loc (bytes64 new)) s.c x.loc.va (bytes64 new)) s.cur x.loc 8) : M Unit)
    pure old

/-- An atomic of opcode 0x0F, or AMOSWP. -/
def amoAct (s : State) (o : AMo) (f : Word → Word → Word) : Act :=
  issue s .both 0 [o.a, o.b] [o.d] [] fun v =>
    Act.ofM s (atomicM s (v 0) fun old => some (f old (v 1))) fun old r => .done (r.out ++ setD s.cur o.d old)

/-- AMOADD. -/
def execAmoadd (o : AMo) (s : State) := finish s o.form.len (amoAct s o fun old b => old + b)
/-- AMOAND. -/
def execAmoand (o : AMo) (s : State) := finish s o.form.len (amoAct s o fun old b => old &&& b)
/-- AMOOR. -/
def execAmoor (o : AMo) (s : State) := finish s o.form.len (amoAct s o fun old b => old ||| b)
/-- AMOXOR. -/
def execAmoxor (o : AMo) (s : State) := finish s o.form.len (amoAct s o fun old b => old ^^^ b)
/-- AMOMIN. -/
def execAmomin (o : AMo) (s : State) := finish s o.form.len (amoAct s o fun old b => if sval b < sval old then b else old)
/-- AMOMAX. -/
def execAmomax (o : AMo) (s : State) := finish s o.form.len (amoAct s o fun old b => if sval old < sval b then b else old)
/-- AMOMINN. -/
def execAmominn (o : AMo) (s : State) := finish s o.form.len (amoAct s o fun old b => if uval b < uval old then b else old)
/-- AMOMAXN. -/
def execAmomaxn (o : AMo) (s : State) := finish s o.form.len (amoAct s o fun old b => if uval old < uval b then b else old)
/-- AMOSWP (R116). -/
def execAmoswp (o : AMo) (s : State) := finish s o.form.len (amoAct s o fun _ b => b)

/-- AMOCAS (R116): xd is the compare value and the destination. -/
def execAmocas (o : CASo) (s : State) :=
  finish s o.form.len (issue s .both 0 [o.a, o.b] [.x o.d] [] fun v =>
    let cmp := getX s.me o.d
    Act.ofM s (atomicM s (v 0) fun old => if old = cmp then some (v 1) else none) fun old r =>
      .done (r.out ++ setD s.cur (.x o.d) old))

/-- LDA (R118): it returns bytes of the strip as a scalar load does (R119). -/
def execLda (o : LAo) (s : State) :=
  finish s o.form.len (issue s .both 0 [o.a] [o.d] [] fun v =>
    Act.ofM s (do let x ← syncAddr s (v 0) true false; readScalar s x (v 0) 8) fun bs r =>
      .done (r.out ++ setD s.cur o.d (word64 bs)))

/-- STL (R118): a release, so held writes end their wait; xd is the data. -/
def execStl (o : SLo) (s : State) :=
  finish s o.form.len (issue s .both 0 [o.d, o.a] [] [] fun v =>
    Act.run s (do
      let x ← syncAddr s (v 1) false true
      flushM s
      writeScalar s x (bytes64 (v 0))))

/-! ### FENCE and VSYNC (R120 to R123) -/

/-- A command of the strand that has not completed: an access strand's copies and engine commands, an execute strand's TMU
runs (02 R33). -/
def hasCommand (s : State) : Bool :=
  if s.isExec then (s.core s.c).runs.any (·.hart == s.h)
  else s.cmds.any fun c => c.hart == s.h && c.part == partIx s s.h && c.ent == entOf s s.h && c.gid == s.myHart.gid

/-- FENCE: with .eng it waits for the strand's commands; a predecessor set with w performs what is held. -/
def execFence (o : FNo) (s : State) :=
  finish s o.form.len (issue s .both 0 [] [] [] fun _ =>
    if o.eng && hasCommand s then .wait false []
    else if o.pw && (o.sr || o.sw) || o.eng then Act.run s (flushM s)
    else .done [])

/-- Ends the wait of the held writes of the cores of several harts. -/
def flushHarts (hs : List Nat) : M Unit := fun r => .ok ((), hs.foldl (fun r h => wcFlush r (coreOf h)) r)

/-- VSYNC (R122, R123): held scalar stores are performed before younger vector accesses, the stores of older SCOMMITs before
younger scalar accesses, and younger vector loads after all that came before. -/
def execVsync (f : Form) (_sc : Scope) (s : State) :=
  finish s f.len (issue s .execute 0 [] [] [] fun _ =>
    Act.run s (do
      flushMine s
      flushHarts [s.h]
      flushHarts (vecHarts s)
      (fun r => .ok ((), endLoads r s.h) : M Unit)))

/-! ### WAITM (R124, R125) -/

/-- WAITM: done when the double differs from xb or the limit has passed; else the strand sleeps until WAITM_WAKE or
WAITM_TIMEOUT. -/
def execWaitm (o : WMo) (s : State) :=
  finish s o.form.len (issue s .both 0 [o.a, o.b] [o.d] (if o.form.hasExt then [o.e] else []) fun v =>
    Act.ofM s (do let x ← syncAddr s (v 0) true false; readScalar s x (v 0) 8) fun bs r =>
      let w := word64 bs
      let limit := if o.form.hasExt then (getX s.me o.e).toNat else 0
      let now := s.cycles s.c
      let start := match s.me.sleep with | some (.waitm t _) => t | _ => now
      if w ≠ v 1 ∨ (limit ≠ 0 ∧ start + limit ≤ now) then .done (r.out ++ setD s.cur o.d w)
      else .wait false (r.out ++ [.strand s.cur fun st => { st with sleep := some (.waitm start false) }]))

/-- A strand asleep in WAITM reads again at its next turn. -/
def wakeWaitm (s : State) (n : Nat) : Option (List Upd) :=
  match (s.strand n).sleep with
  | some (.waitm start false) => some [.strand n fun st => { st with sleep := some (.waitm start true) }]
  | _ => none

/-- WAITM_WAKE: the line's ownership is lost; a value that still equals xb sleeps again. -/
def execWaitmWake (n : Nat) (s : State) := event s (wakeWaitm s n)

/-- The WAITM operands at the pc of strand n. -/
def waitmAt (s : State) (n : Nat) : Option WMo :=
  match nextInstr s n with
  | some (.waitm o) => some o
  | _ => none

/-- WAITM_TIMEOUT: the limit has passed since the wait began. -/
def execWaitmTimeout (n : Nat) (s : State) :=
  event s <|
    match (s.strand n).sleep, waitmAt s n with
    | some (.waitm start _), some o =>
      let limit := (getX (s.strand n) o.e).toNat
      if o.form.hasExt ∧ limit ≠ 0 ∧ start + limit ≤ s.cycles (n / 8) then
        some [.strand n fun st => { st with sleep := some (.waitm start true) }]
      else none
    | _, _ => none

/-! ### Barriers (R126 to R135) -/

/-- The barrier-value fault. -/
def barValue (n : Nat) : TrapInfo := { code := 29, val := BitVec.ofNat 64 n }
/-- The barrier-state fault. -/
def barState (n : Nat) : TrapInfo := { code := 30, val := BitVec.ofNat 64 n }
/-- The barrier-overrun fault. -/
def barOverrun (n : Nat) : TrapInfo := { code := 31, val := BitVec.ofNat 64 n }

/-- A barrier of a gang. -/
def barOf (g : Gang) (n : Nat) : Barrier := tget {} g.bars n

/-- The monitors that owe a drift trap when a phase with K completes (R135). -/
def driftsOf (s : State) (g : Gang) : List (Nat × Nat) :=
  g.members.flatMap fun m =>
    match (List.range 4).find? fun k => monDrift (monOf (s.core (coreOf m)) k) with
    | some k => [(m, k)]
    | none => []

/-- The phase test of R132 after a change of a barrier. -/
def barTest (drifts : List (Nat × Nat)) (b : Barrier) : Barrier :=
  if !b.v || b.arr != b.count || b.o || (b.b && !b.x) then b
  else if b.pend = 0 then
    { b with phase := (b.phase + 1) % 16, arr := 0, x := false, k := false,
             drift := if b.k then (b.drift.filter fun d => !drifts.any fun e => e.1 == d.1) ++ drifts else b.drift }
  else if b.x && decide (b.pend < 0) then { b with o := true }
  else b

/-- Changes barrier n of gang gid and tests its phase. -/
def updBar (gid n : Nat) (f : Barrier → Barrier) : Upd := .other fun s =>
  { s with gangs := s.gangs.map fun p =>
      if p.1 = gid then (p.1, { p.2 with bars := tput p.2.bars n (barTest (driftsOf s p.2) (f (barOf p.2 n))) }) else p }

/-- A credit of k bytes (R131). -/
def creditBar (k : Nat) (b : Barrier) : Barrier :=
  if b.pend - (k : Int) < -(2 ^ 46) then { b with o := true } else { b with pend := b.pend - k }

/-- BARI (R128). -/
def execBari (o : BBo) (s : State) :=
  finish s o.form.len (issue s .execute 0 [o.b] [] [] fun v =>
    match gangOf s s.h with
    | none => .trap (barState o.n)
    | some (gid, g) =>
      let w := (v 0).toNat
      let b := barOf g o.n
      if w % 16 = 0 ∨ 8 < w % 16 ∨ 32 ≤ w then .trap (barValue o.n)
      else if (b.arr = 0 ∧ b.x = false ∧ b.pend = 0) ∨ b.o = true then
        .done [updBar gid o.n fun b =>
          { v := true, b := w / 16 == 1, count := w % 16, phase := b.phase, drift := b.drift }]
      else .trap (barState o.n))

/-- BARX (R130). -/
def execBarx (o : BBo) (s : State) :=
  finish s o.form.len (issue s .execute 0 [o.b] [] [] fun v =>
    match gangOf s s.h with
    | none => .trap (barState o.n)
    | some (gid, g) =>
      let k := (v 0).toNat
      let b := barOf g o.n
      if !b.v ∨ !b.b ∨ b.o then .trap (barState o.n)
      else if 2 ^ 46 ≤ k ∨ (2 ^ 46 : Int) ≤ b.pend + k then .trap (barValue o.n)
      else .done [updBar gid o.n fun b => { b with pend := b.pend + k, x := true }])

/-- The drift trap that hart h is owed at a barrier (R135). -/
def owedDrift (b : Barrier) (h : Nat) : Option Nat := (b.drift.find? fun d => d.1 == h).map (·.2)

/-- The owed drift trap is delivered. -/
def paidDrift (gid n h : Nat) : Upd := .gang gid fun g =>
  let b := barOf g n
  { g with bars := tput g.bars n { b with drift := b.drift.filter fun d => d.1 != h } }

/-- The refusals of an arrival (R129). -/
def arriveTrap (s : State) (n : Nat) : Option TrapInfo :=
  if !s.myHart.strip.isEmpty then some { code := 18 } else
  match gangOf s s.h with
  | none => some (barState n)
  | some (_, g) => if !(barOf g n).v || (barOf g n).arr == (barOf g n).count then some (barState n) else none

/-- An arrival (R129): held stores, those of the vector units too, are performed, then the arrival counts; the hart's earlier vector
loads come before it, its later ones after it (11 R293). -/
def arriveUpds (s : State) (gid n : Nat) (chk : Bool) : List Upd :=
  (endLoads ((vecHarts s).foldl (fun r h => wcFlush r (coreOf h)) (flushHeld (Run.start s) s.cur)) s.h).out
  ++ [updBar gid n fun b => { b with arr := b.arr + 1, k := b.k || chk }]

/-- BARA (R129). -/
def execBara (o : BAo) (s : State) :=
  finish s o.form.len (issue s .execute 0 [] [o.d] [] fun _ =>
    match arriveTrap s o.n, gangOf s s.h with
    | none, some (gid, g) =>
      .done (setD s.cur o.d (BitVec.ofNat 64 (barOf g o.n).phase) ++ arriveUpds s gid o.n o.chk)
    | some t, _ => .trap t
    | none, none => .trap (barState o.n))

/-- The wait of BARW and BARR for a phase: the overrun fault, an owed drift trap, or the return (R133, R135). `us` are the
updates so far, s the state after them, and `fin` the updates of the return, an acquire. -/
def barWait (s : State) (n phase : Nat) (us fin : List Upd) : Act :=
  match gangOf s s.h with
  | none => .trap (barState n)
  | some (gid, g) =>
    let b := barOf g n
    if b.o then .part us (barOverrun n)
    else match owedDrift b s.h with
      | some m => .part (us ++ [paidDrift gid n s.h]) (driftTrap m)
      | none => if b.phase = phase then .wait false us else .done (us ++ (acquireAll s).out ++ fin)

/-- BARW (R133): the overrun comes before the state of the register (03 R71). -/
def execBarw (o : BBo) (s : State) :=
  finish s o.form.len (issue s .execute 0 [o.b] [] [] fun v =>
    match gangOf s s.h with
    | none => .trap (barState o.n)
    | some (_, g) =>
      if (barOf g o.n).o then .trap (barOverrun o.n)
      else if !(barOf g o.n).v then .trap (barState o.n)
      else barWait s o.n ((v 0).toNat % 16) [] [])

/-- BARR (R129, R133, R134): an arrival that is recorded, then the wait; once arrived it only waits. A register xd is written
at the arrival, a queue at the return (02 R28). -/
def execBarr (o : BAo) (s : State) :=
  finish s o.form.len (issue s .execute 0 [] [o.d] [] fun _ =>
    match recordAt (site s.me) s.me.arrived with
    | some (n, phase) => if n = o.n then barWait s n phase [] (back phase) else fresh
    | none => fresh)
where
  /-- The updates of the return: the record of the arrival is gone, and a queue receives the phase. -/
  back (phase : Nat) : List Upd :=
    .strand s.cur (fun st => { st with arrived := recordsNotAt (site s.me) st.arrived })
      :: match o.d with | .q k => setD s.cur (.q k) (BitVec.ofNat 64 phase) | .x _ => []
  /-- The first turn of a BARR: its refusals, an overrun or an owed drift trap of the register, or the arrival. -/
  fresh : Act :=
    match arriveTrap s o.n, gangOf s s.h with
    | none, some (gid, g) =>
      let b := barOf g o.n
      if b.o then .trap (barOverrun o.n) else
      match owedDrift b s.h with
      | some m => .part [paidDrift gid o.n s.h] (driftTrap m)
      | none =>
        let us := (match o.d with | .x r => setD s.cur (.x r) (BitVec.ofNat 64 b.phase) | .q _ => [])
          ++ arriveUpds s gid o.n o.chk
          ++ [.strand s.cur fun st => { st with arrived := (o.n, b.phase, site s.me) :: recordsNotAt (site s.me) st.arrived }]
        barWait (applyAll us s) o.n b.phase us (back b.phase)
    | some t, _ => .trap t
    | none, none => .trap (barState o.n)

/-- BARRIER_WAIT_RETURN: a strand whose BARW or BARR no longer waits takes its turn; the turn itself is the strand's, and
returns past the phase or raises the fault (R133). -/
def execBarrierWaitReturn (n : Nat) (s : State) : Host.Outcome State Fault Refusal :=
  let s := { s with cur := n }
  if !runnable s n then .fault .eventNotEnabled else
  let t := match instrAt s s.h s.me.pc with | some (.mod m) => execPrefix m s | _ => s
  match nextInstr s n with
  | some (.barw o) => execBarw o (settle (.barw o) t)
  | some (.barr o) => execBarr o (settle (.barr o) t)
  | _ => .fault .eventNotEnabled
where
  /-- The state with the prefix of a pair in force. -/
  execPrefix (m : Pfx) (s : State) : State := applyAll [.strand s.cur fun st => { st with pfx := some m, pc := st.pc + 4 }] s

end Sys2Proof.Machine
end

