-- ==== Sys2Proof/Machine/Bank.lean ====
section
/-! DEFINITION. Sys2Proof/Machine/Bank.lean: the two banks of a core (19 R361), and commands that run for a context wherever it is
held (09 R240): queues, tokens and credits. -/

namespace Sys2Proof.Machine

/-! ### Banks (R359, R361) -/

/-- Entries of a table whose numbers meet a condition. -/
def tpick {α : Type} (t : Tab α) (p : Nat → Bool) : Tab α := t.filter fun x => p x.1
/-- Replaces the entries of t that meet p by those of u. -/
def treplace {α : Type} (t u : Tab α) (p : Nat → Bool) : Tab α := u.foldl (fun t x => tput t x.1 x.2) (tpick t fun n => !p n)

/-- Hart h lies on core c and is no service hart. -/
def userOf (s : State) (c h : Nat) : Bool := h / 4 == c && !isService s h

/-- The active bank of core c, without its service harts and without the L1 caches, which are no context's. -/
def bankOf (s : State) (c : Nat) : Bank :=
  { core := { s.core c with l1d := [], l1i := [] }, harts := tpick s.harts (userOf s c), strands := tpick s.strands fun n => userOf s c (n / 2) }

/-- Puts a bank into core c. -/
def putBank (c : Nat) (b : Bank) (s : State) : State :=
  { s with cores := tput s.cores c b.core, harts := treplace s.harts b.harts (userOf s c),
           strands := treplace s.strands b.strands fun n => userOf s c (n / 2) }

/-- Swaps the banks of core c where its loft holds one. -/
def swapCore (c : Nat) (s : State) : State :=
  match (s.loft c).bank with
  | none => s
  | some b => putBank c b { s with lofts := tput s.lofts c { (s.loft c) with bank := some (bankOf s c) } }

/-- Swaps the banks of several cores. -/
def swapCores (cs : List Nat) : Upd := .other fun s => cs.foldl (fun s c => swapCore c s) s

/-! ### Work for a context that may be swapped out (09 R240) -/

/-- The number under which the scratchpad of core c is kept after loss n for the commands of the context that is gone. -/
def lostCore (n c : Nat) : Nat := 1024 * (n + 1) + c

/-- The core whose scratchpads and stash a command reaches: that of its hart, or what is left of it. -/
def cmdCore (c : Cmd) : Nat := match c.lost with | some n => lostCore n (coreOf c.hart) | none => coreOf c.hart

/-- The context of partition p's entry k is given up: its commands run on to their completion (02 R53), with the scratchpads that
`pads` gives for the cores (log entry 94). -/
def loseCmds (p k : Nat) (pads : State → Nat → Tab Byte) : Upd := .other fun s =>
  let mine := fun (d : Cmd) => d.part == p && d.ent == some k && d.lost.isNone
  if !s.cmds.any mine then s else
  { s with cmds := s.cmds.map fun d => if mine d then { d with lost := some s.nextCmd } else d
           nextCmd := s.nextCmd + 1
           cores := (partCores s p).foldl (fun t c => tput t (lostCore s.nextCmd c) { pad := pads s c }) s.cores }

/-- The scratchpad of core c in its loft, where that holds entry k. -/
def loftPad (k : Nat) (s : State) (c : Nat) : Tab Byte :=
  match (s.loft c).bank with
  | some b => if (s.loft c).save.ent = k then b.core.pad else []
  | none => []

/-- A command's context is held in the lofts. -/
def cmdAway (s : State) (c : Cmd) : Bool := c.lost.isNone && c.ent.isSome && (s.part c.part).cur != c.ent

/-- Makes changes with the bank of a command's context in place, where they can be made. -/
def tryCtx (s : State) (c : Cmd) (f : Run → Option Run) : Option (List Upd) :=
  let swap := fun (r : Run) => if cmdAway s c then r.add (swapCores (partCores s c.part)) else r
  (f (swap (Run.start s))).map fun r => (swap r).out

/-- Makes changes with the bank of a command's context in place. -/
def withCtx (s : State) (c : Cmd) (f : Run → Run) : List Upd := (tryCtx s c fun r => some (f r)).getD []

/-- The address space of a command's context. -/
def cmdSpace (s : State) (c : Cmd) : Space :=
  match c.ent with
  | none => spaceOf s c.hart
  | some k => { ctxSpace s c.part (some k) (coreOf c.hart) with core := cmdCore c }

/-- The context that issues a command. -/
def newCmd (s : State) (w : Work) (tok eq : Nat) (be pe : Option Nat) : Cmd :=
  { id := s.nextCmd, work := w, hart := s.h, part := partIx s s.h, ent := entOf s s.h, tok := tok, eq := eq, be := be, pe := pe,
    gid := s.myHart.gid }

/-- Accepts a command after the updates of a run; its token is pending from then on (R240). -/
def acceptAfter (r : Run) (s : State) (c : Cmd) : List Upd :=
  r.out ++ .other (fun s => { s with cmds := s.cmds ++ [c], nextCmd := s.nextCmd + 1 })
  :: (if c.tok = 0 then [] else [.strand s.cur fun st => { st with pend := c.tok :: st.pend }])

/-- Accepts a command: its reads observe every earlier store of the strand, so those that are held are performed (R243). -/
def acceptCmd (s : State) (c : Cmd) : List Upd := acceptAfter (flushHeld (Run.start s) s.cur) s c

/-- Two commands share an engine queue (R244, R260). -/
def sameQueue (a b : Cmd) : Bool := a.hart == b.hart && a.part == b.part && a.ent == b.ent && a.lost == b.lost && a.eq == b.eq

/-- A command is the oldest of its queue; stash commands stand in no queue. -/
def queueHead (s : State) (c : Cmd) : Bool :=
  match s.cmds.find? fun d => cmdEngine d.work != 3 && sameQueue c d with
  | some d => d.id == c.id
  | none => false

/-- The stack of a physical address (R226). -/
def stackOf (pa : Nat) : Nat := (pa / 2 ^ 12 % 16) ^^^ (pa / 2 ^ 16 % 16)

/-- The units of work that an engine may still do after the halt line has risen: chunks, bursts, posts (Table 20.4). -/
def cmdBound (c : Cmd) : Nat := if cmdEngine c.work = 1 then 512 else 1

/-- The command with an id. -/
def cmdOf (s : State) (id : Nat) : Option Cmd := s.cmds.find? fun c => c.id == id

/-- Work of n units can be done for a command: it is its queue's oldest and not finished, and its engine goes (R260, R378). -/
def cmdRuns (s : State) (c : Cmd) (n : Nat) : Bool :=
  c.fin.isNone && queueHead s c && engineGoes s c.part (cmdSource c) n (cmdBound c)

/-- The work is done: it counts while the halt line is up. -/
def didWork (c : Cmd) (n : Nat) (r : Run) : Run :=
  if (r.s.part c.part).halt.st = 0 then r else r.add (countOps c.part (cmdSource c) n)

/-- Writes a token into the strand that issued the command, if that strand still is the command's own; a token of x0 is
discarded, and no IDLE ends for it (R240, R105). The strand's later loads return nothing older than what the command has performed
(11 Table 11.1). Every engine command's token counts as the copy token of code 3 (DESIGN CHOICE, log
entry 132). -/
def writeToken (c : Cmd) (v : Word) (r : Run) : Run :=
  if (r.s.hart c.hart).gid ≠ c.gid ∨ c.tok = 0 then r else
  (if (r.s.hart c.hart).pastA.isEmpty then r else r.add (.hart c.hart fun h => { h with pastA := [] })).add
    (.strand (2 * c.hart) fun st =>
      { setX c.tok v st with
        pend := st.pend.filter (· != c.tok)
        sleep := match st.sleep with | some (.idle o a b _) => some (.idle o a b true) | x => x })

/-- Removes a command. -/
def dropCmd (id : Nat) : Upd := .cmds fun l => l.filter fun c => c.id != id

/-- Completes a command: the token, then it is gone. -/
def completeCmd (s : State) (c : Cmd) (v : Word) : List Upd := withCtx s c fun r => (writeToken c v r).add (dropCmd c.id)

/-- A token value of Table 9.4. -/
def tokenVal (st cause count : Nat) : Word := BitVec.ofNat 64 (st * 2 ^ 60 + cause * 2 ^ 54 + count % 2 ^ 48)

/-- The cause of Table 9.4 of a failed access. -/
def tokenCause (t : TrapInfo) : Nat :=
  match t.code with
  | 12 => 2
  | 13 => 3
  | 14 => 4
  | _ => if t.sub = 4 then 5 else 1

/-- Credits k bytes to a command's barrier (05 R131). -/
def creditCmd (c : Cmd) (k : Nat) (r : Run) : Run :=
  match c.be, c.gid with
  | some n, some g => if k = 0 then r else r.add (updBar g n (creditBar k))
  | _, _ => r

/-- A credit of k bytes is owed from now on. -/
def Cmd.owe (k : Nat) (c : Cmd) : Cmd := if k = 0 then c else { c with owed := c.owed ++ [k] }
/-- n credits of k bytes each are owed from now on. -/
def Cmd.oweEach (n k : Nat) (c : Cmd) : Cmd := { c with owed := c.owed ++ List.replicate n k }

/-- BARRIER_CREDIT: the oldest credit that an engine still owes for bytes that it has performed (R131, R267). A phase that
completes while the gang's context is swapped out checks the monitors of that context (R135). -/
def execBarrierCredit (id : Nat) (s : State) :=
  event s <|
    match cmdOf s id with
    | none => none
    | some c =>
      match c.owed, c.be with
      | k :: rest, some _ => some (withCtx s c fun r => (creditCmd c k r).add (.cmd id fun c => { c with owed := rest }))
      | _, _ => none

/-! ### Checks at issue -/

/-- Both ends of a range are canonical (R246, R258). -/
def rangeOk (a n : Nat) : Bool :=
  canonical a && (decide (n = 0) || (decide (a + n ≤ 2 ^ 64) && canonical (a + n - 1)))

/-- The barrier that a control double names (Table 10.3): none, or an initialised byte-counted one; the outer none is a
failed check. -/
def ctlBarrier (s : State) (w : Nat) : Option (Option Nat) :=
  if !w.testBit 2 then some none else
  match gangOf s s.h with
  | none => none
  | some (_, g) =>
    let b := barOf g (w / 8 % 8)
    if b.v && b.b then some (some (w / 8 % 8)) else none

/-! ### Bytes that an engine reads and writes -/

/-- Ends the wait of the held block of core c that holds pa (R232). -/
def flushAt (r : Run) (c pa : Nat) : Run :=
  match (r.s.core c).wc.find? fun b => b.pa == pa / 256 * 256 with
  | some b => wcFlushBlock r c b
  | none => r

/-- A computation of an engine: over a run, with a failed access and the run it was met in as its error. -/
abbrev E (α : Type) := Run → Except (TrapInfo × Run) (α × Run)

/-- Translates for an engine. -/
def engXlate (sp : Space) (va kind : Nat) : E Loc := fun r =>
  match translate r sp va kind with
  | .error e => .error (xlTrap e.1 (BitVec.ofNat 64 va) 0, e.2)
  | .ok (x, r) => .ok (x.loc, r)

/-- Reads a byte for an engine; a held block that it needs is written first. -/
def engRead (sp : Space) (va : Nat) : E Byte := fun r =>
  match engXlate sp (va % 2 ^ 64) 0 r with
  | .error e => .error e
  | .ok (l, r) =>
    if let some k := badIn r.s l 1 then .error (badData k (BitVec.ofNat 64 va) 0, r) else
    let r := match l with | .mem _ pa _ => flushAt r sp.core pa | .pad .. => r
    .ok (readByte r (some sp.core) l)

/-- Reads n bytes for an engine, in ascending order. -/
def engReads (sp : Space) : Nat → Nat → E (List Byte)
  | 0, _ => fun r => .ok ([], r)
  | n + 1, va => fun r =>
    match engRead sp va r with
    | .error e => .error e
    | .ok (b, r) =>
      match engReads sp n (va + 1) r with
      | .error e => .error e
      | .ok (bs, r) => .ok (b :: bs, r)

/-- Writes located bytes at once: a scratchpad, a stash, or memory. -/
def engWriteLoc (r : Run) (c : Nat) (l : Loc) (bs : List Byte) : Run :=
  match l with
  | .pad .. => writeLoc r (some c) l bs
  | .mem va pa ks =>
    match stashSlotOf (r.s.core c) va with
    | some t => stashWrite r c t va pa ks bs
    | none => putHome (flushAt r c pa) ks pa bs

/-- The locations of n bytes, or the first failure. -/
def engLocs (sp : Space) (kind : Nat) : Nat → Nat → E (List Loc)
  | 0, _ => fun r => .ok ([], r)
  | n + 1, va => fun r =>
    match engXlate sp (va % 2 ^ 64) kind r with
    | .error e => .error e
    | .ok (l, r) =>
      match engLocs sp kind n (va + 1) r with
      | .error e => .error e
      | .ok (ls, r) => .ok (l :: ls, r)

/-- Located bytes gathered into pieces, each of consecutive bytes of one 64-byte line (09 R238, R294). -/
def pieces : List (Loc × Byte) → List (Loc × List Byte)
  | [] => []
  | (l, b) :: t =>
    match pieces t with
    | [] => [(l, [b])]
    | (m, bs) :: ps => if m = l.plus 1 && m.key / 64 == l.key / 64 then (l, b :: bs) :: ps else (l, [b]) :: (m, bs) :: ps

/-- Writes bytes at locations. -/
def engPut (c : Nat) (ls : List Loc) (bs : List Byte) (r : Run) : Run :=
  (pieces (ls.zip bs)).foldl (fun r p => engWriteLoc r c p.1 p.2) r

/-- Writes bytes at a virtual address: every byte is translated before the first is written. -/
def engWrites (sp : Space) (va : Nat) (bs : List Byte) : E Unit := fun r =>
  match engLocs sp 1 bs.length va r with
  | .error e => .error e
  | .ok (ls, r) => .ok ((), engPut sp.core ls bs r)

/-- The 64-byte granules of locations (R244). -/
def granules (ls : List Loc) : List Nat := (ls.map fun l => l.key / 64).eraseDups

/-- A command of another queue or hart has written a part of one of these granules and is not done with it: the present
command's write waits (R244, R260). -/
def granuleHeld (s : State) (c : Cmd) (gs : List Nat) : Bool :=
  s.cmds.any fun d => !sameQueue c d && d.fin.isNone && d.open_.any gs.contains

/-- Two ranges share a byte. -/
def rangesMeet (a n b k : Nat) : Bool := decide (0 < n) && decide (0 < k) && decide (a < b + k) && decide (b < a + n)

/-- The destinations, as ranges of addresses, of a command that writes them in many parts: none of another (10 R263 to R288). -/
def manyWrites (w : Work) : List (Nat × Nat) :=
  match w with
  | .gath _ n _ _ rb dst _ mask => (dst, n * rb) :: (match mask with | some m => [(m, (n + 7) / 8)] | none => [])
  | .scred _ _ table bound rb _ _ _ _ => [(table, bound * rb)]
  | .fwalk _ dst cap mem _ _ => if mem then [(dst, 4 * cap)] else []
  | .stepo _ n base stride => [(base, (n - 1) * stride + 4096)]
  | _ => []

/-- The places of a range of a command's addresses, page by page: where each piece that the command may write lies, by its key, and
its length. -/
def rangeKeys (s : State) (c : Cmd) (x : Nat × Nat) : List (Nat × Nat) :=
  let page := x.1 / 4096 * 4096
  (List.range ((x.1 % 4096 + x.2 + 4095) / 4096)).filterMap fun i =>
    let lo := max x.1 (page + 4096 * i)
    match engXlate (cmdSpace s c) (lo % 2 ^ 64) 1 (Run.start s) with
    | .ok (l, _) => some (l.key, min (x.1 + x.2) (page + 4096 * (i + 1)) - lo)
    | .error _ => none

/-- Two ranges of keys meet in a granule of 64 bytes. -/
def granulesMeet (x y : Nat × Nat) : Bool :=
  decide (x.2 ≠ 0) && decide (y.2 ≠ 0)
    && rangesMeet (x.1 / 64) ((x.1 + x.2 - 1) / 64 - x.1 / 64 + 1) (y.1 / 64) ((y.1 + y.2 - 1) / 64 - y.1 / 64 + 1)

/-- A command has begun its writes and has some left. -/
def midWrites (d : Cmd) : Bool := (decide (d.step ≠ 0) && d.fin.isNone) || !d.mask.isEmpty

/-- Another command, of whichever context, that no order ranks against this one is in the middle of its writes to these ranges: a
write to them waits until it is done, so that one of the two leaves the whole granule (R244, R260). -/
def rangeHeld (s : State) (c : Cmd) (rs : List (Nat × Nat)) : Bool :=
  s.cmds.any fun d =>
    !sameQueue c d && midWrites d
      && (manyWrites d.work).any fun x => (rangeKeys s d x).any fun k => rs.any fun y => (rangeKeys s c y).any (granulesMeet k)

/-- A command that writes in many parts may go on, or may begin: one that has begun waits for no other. -/
def writeTurn (s : State) (c : Cmd) : Bool := midWrites c || !rangeHeld s c (manyWrites c.work)

/-- Reports a failed access of a command: an uncorrectable error raises the halt line, and the token has st = 4; any other
gives st = 3 with its cause (R242, R264). `count` is the token's count. -/
def stopCmd (c : Cmd) (e : TrapInfo) (count : Nat) (r : Run) : Run :=
  if e.code = 54 then
    let stack := match e.soft with | some k => stackOf k | none => c.unit
    let src := if cmdEngine c.work = 1 then 6560 + stack else cmdSource c
    (r.addAll (hartFatal r.s c.hart src { e with elem := BitVec.ofNat 64 c.step } (cmdPlace c))).add
      (.cmd c.id fun c => { c with fin := some (haltToken count) })
  else r.add (.cmd c.id fun c => { c with fin := some (tokenVal 3 (tokenCause e) count) })

/-- Why a command stops: with a cause of R259, or at a failed access. -/
inductive Stop where
  | cause (n : Nat)
  | access (t : TrapInfo)

/-- A step of a command that may stop it. -/
abbrev S (α : Type) := Run → Except (Stop × Run) (α × Run)

/-- A step that only an access can stop. -/
def E.stop {α : Type} (f : E α) : S α := fun r =>
  match f r with
  | .ok x => .ok x
  | .error e => .error (.access e.1, e.2)

/-- Stops a command; `count` is its token's count. -/
def stopWith (c : Cmd) (count : Nat) (x : Stop × Run) : Run :=
  match x.1 with
  | .cause n => x.2.add (.cmd c.id fun c => { c with fin := some (tokenVal 3 n count) })
  | .access t => stopCmd c t count x.2

end Sys2Proof.Machine
end

