-- ==== Sys2Proof/Machine/Save.lean ====
section
/-! DEFINITION. Sys2Proof/Machine/Save.lean: the save record of a core's context (20 R384, R385): its doubles by offset, and a bank
read back from them. Within a block the fields stand in the order in which Tables 20.10 and 20.11 list them, a double
each (log entry 34). -/

namespace Sys2Proof.Machine

/-- Bytes of a core part. -/
def corePart : Nat := 5 * 2 ^ 20
/-- Bytes of a record: the core part and four hart parts. -/
def recordLen : Nat := 7 * 2 ^ 20
/-- The offset of a core part's completion word. -/
def doneOff : Nat := 0x480000

/-- Double k of a list of doubles, zero past its end. -/
def nthD (l : List Nat) (k : Nat) : Nat := l.getD k 0 % 2 ^ 64
/-- Double k of a byte string that is zero past its end. -/
def dblOf (bs : List Byte) (k : Nat) : Nat := ofLe ((bs.drop (8 * k)).take 8)

/-! ### The core part -/

/-- Word w of the tiles: tile w / 2^15, row and column below it; rows at or past ext are zero. -/
def tileWord (k : Core) (w : Nat) : Nat :=
  if w / 256 % 128 < k.ext then (tget 0 (k.tile (w / 2 ^ 15)) (w % 2 ^ 15)).toNat else 0

/-- A stash slot's two doubles. -/
def stashDbl (k : Core) (j : Nat) : Nat :=
  match k.stash.find? fun t => t.1 == j / 2 with
  | none => 0
  | some (_, t) => if j % 2 = 0 then t.va else t.len / 4096 * 2 ^ 44 + 2 ^ 43 + t.off

/-- The doubles of a monitor: sum, reference, bound, nomination, status. -/
def monRec (m : Monitor) : List Nat :=
  ((List.range 5).map fun k => m.sum.toNat / 2 ^ (64 * k)) ++ ((List.range 5).map fun k => m.ref.toNat / 2 ^ (64 * k))
  ++ ((List.range 5).map fun k => m.bound.toNat / 2 ^ (64 * k)) ++ ((List.range 4).map fun k => (m.nom.getD k 0).toNat)
  ++ [monStatus m]

/-- The doubles of a run: descriptor, tile, cj, captured level tables, captured table image, completed steps. -/
def runRec (q : TmRun) : List Nat :=
  ((List.range 8).map fun k => (q.desc.getD k 0).toNat) ++ [q.tile, q.ca.toNat + 2 * q.cb.toNat]
  ++ ((List.range 16).map fun k => (tget 0 q.lt k).toNat) ++ ((List.range 129).map (dblOf q.alg.image)) ++ [q.steps]

/-- The saved fields of `tmgrant` (08 Table 8.1). -/
def grantRec (k : Core) : Nat := k.ext * 2 ^ 32 + k.req * 2 ^ 24 + k.rows

/-- The stash valid bits of words 64 j and up. -/
def validBits (k : Core) (j : Nat) : Nat :=
  (List.range 64).foldl (fun n i => if k.stw.any fun w => w.1 == 64 * j + i then n + 2 ^ i else n) 0

/-- The double at offset o of a core part (Table 20.10); the completion word is written apart. -/
def coreDbl (k : Core) (tag o : Nat) : Nat :=
  if o < 0x400000 then tileWord k (o / 4) + tileWord k (o / 4 + 1) * 2 ^ 32
  else if o < 0x480000 then ofLe ((List.range 8).map fun i => tget 0 k.pad (o - 0x400000 + i))
  else if o < 0x480008 then 0
  else if o < 0x480020 then nthD [tag, grantRec k, k.wcwait] ((o - 0x480008) / 8)
  else if o < 0x480060 then (tget 0 k.slots ((o - 0x480020) / 8)).toNat
  else if o < 0x4800E0 then stashDbl k ((o - 0x480060) / 8)
  else if o < 0x480100 then 0
  else if o < 0x480600 then dblOf k.alg.image ((o - 0x480100) / 8)
  else if o < 0x480880 then nthD (monRec (monOf k ((o - 0x480600) / 160))) ((o - 0x480600) % 160 / 8)
  else if o < 0x480900 then 0
  else if o < 0x480A00 then tileStatus k ((o - 0x480900) / 8)
  else if o < 0x480A80 then
    let t := (o - 0x480A00) / 4
    (k.tst' t).fstep.toNat + (k.tst' (t + 1)).fstep.toNat * 2 ^ 32
  else if o < 0x482000 then 0
  else if o < 0x484000 then
    match k.runs[(o - 0x482000) / 2048]? with
    | some q => nthD (runRec q) ((o - 0x482000) % 2048 / 8)
    | none => 0
  else if o < 0x488000 then validBits k ((o - 0x484000) / 8)
  else 0

/-! ### The hart part -/

/-- The three doubles of each active loop, innermost first: counter, start, end. -/
def loopRec (l : List Loop) : List Nat :=
  (List.range 4).flatMap fun i =>
    match l[i]? with
    | some p => [2 ^ 63 + p.lc, p.start.toNat, p.stop.toNat]
    | none => [0, 0, 0]

/-- The wait record (R385): the latest arrival and the latest EPOPV, each of which may have stopped while waiting, one of them
beneath a handler. What further instructions beneath a handler have recorded is kept beside the entry (log entry 33). -/
def waitRec (st : Strand) : List Nat :=
  let a := match st.arrived with | (n, phase, _) :: _ => 2 ^ 63 + n * 2 ^ 8 + phase | [] => 0
  match st.popv with
  | (n, k, _) :: _ => [a + 2 ^ 62 + n * 2 ^ 16, k]
  | [] => [a, 0]

/-- Records over those that the rest keeps: the latest is the record's, at the site that the rest keeps for it, or at the strand's
own. -/
def recordOver (new : Option (Nat × Nat)) (at_ : Word × Bool) (old : List (Nat × Nat × Word × Bool)) : List (Nat × Nat × Word × Bool) :=
  match new with
  | some p => (p.1, p.2, (old.head?.map (·.2.2)).getD at_) :: old.drop 1
  | none => old.drop 1

/-- A strand block. -/
def strandRec (st : Strand) : List Nat :=
  ((List.range 64).map fun r => (getX st r).toNat) ++ [st.pc.toNat] ++ ((List.range 4).map fun k => (tget 0 st.lc k).toNat)
  ++ loopRec st.loops ++ [st.fpf.toNat, st.fpm.toNat]
  ++ [st.tvec.toNat, st.tpc.toNat, st.tfpc.toNat, st.tcause.toNat, st.tval.toNat, st.telem.toNat, st.tword.toNat, st.tsb.toNat,
      st.tscr0.toNat, st.tscr1.toNat]
  ++ waitRec st

/-- The six doubles of a sheaf. -/
def sheafRec (t : Sheaf) : List Nat := [t.ents.length, t.sb, t.ss, t.seen, t.u, t.init.toNat]

/-- The hart block. -/
def hartRec (h : Hart) (x : Strand) : List Nat :=
  [h.vl, h.vt, h.sbase.toNat, h.seed.toNat, h.mfcCtl.toNat] ++ ((List.range 16).map fun k => (tget 0 h.mfcLt k).toNat)
  ++ ((List.range 16).map fun k => (tget 0 h.smiss k).toNat) ++ [h.smsel.toNat, h.pivtol.toNat, h.pivreg.toNat]
  ++ ((List.range 8).map fun k => (tget 0 h.epcfg k).toNat) ++ [h.gang.toNat]
  ++ ((List.range 4).flatMap fun k => sheafRec (tget {} h.sheaf k))
  ++ [h.aft.length, h.aftBase.toNat, h.aftSize.toNat]
  ++ ((List.range 8).map fun k => (tget [] h.fifo k).length) ++ [match x.popv with | p :: _ => p.2.1 | [] => 0]

/-- An aftermath record's doubles (02 Table 2.4). -/
def aftDbl (a : AftRec) (k : Nat) : Nat :=
  if k = 0 then a.index.toNat
  else if k = 1 then a.vals.length * 256 + a.path
  else if k < 6 then (a.vals.getD (k - 2) 0).toNat else 0

/-- The physical address that a strip log entry holds; a scratchpad byte has none, and its place is written as an address
between device and host memory (log entry 34). -/
def logAddr (l : Loc) : Nat :=
  match l with
  | .pad _ c off => 2 ^ 50 + c * 2 ^ 20 + off
  | .mem _ pa _ => pa

/-- A strip log entry. -/
def logDbl (e : StripEnt) : Nat := e.first.toNat * 2 ^ 63 + e.nib * 2 ^ 56 + e.bytes.length.log2 * 2 ^ 52 + logAddr e.loc

/-- Pairs of 32-bit values as doubles. -/
def pairDbls : List Nat → List Nat
  | a :: b :: t => (a % 2 ^ 32 + b % 2 ^ 32 * 2 ^ 32) :: pairDbls t
  | [a] => [a % 2 ^ 32]
  | [] => []

/-- Double j of the reduction record: the position, then the partial values, as doubles up to four and as pairs above, and last the
unmerged flags with a mark and the number of values (log entry 123). -/
def redRec (r : Option Red) (j : Nat) : Nat :=
  match r with
  | none => 0
  | some r =>
    if j = 0 then r.pos % 2 ^ 16
    else if j = 1023 then 2 ^ 63 + r.flags.toNat * 2 ^ 16 + r.vals.length
    else nthD (if r.vals.length ≤ 4 then r.vals else pairDbls r.vals) (j - 1)

/-- The double at offset o of a hart part (Table 20.11). -/
def hartDbl (h : Hart) (a x : Strand) (o : Nat) : Nat :=
  let j := o / 8
  if o < 0x400 then nthD (strandRec a) j
  else if o < 0x800 then nthD (strandRec x) (j - 128)
  else if o < 0x1000 then nthD (hartRec h x) (j - 256)
  else if o < 0x1400 then ((h.queue ((j - 512) / 16)).getD ((j - 512) % 16) 0).toNat
  else if o < 0x1440 then (h.queue (j - 640)).length
  else if o < 0x1800 then 0
  else if o < 0x2000 then ((tget [] h.fifo ((j - 768) / 32)).getD ((j - 768) % 32) 0).toNat
  else if o < 0x4000 then redRec h.red (j - 1024)
  else if o < 0x8000 then (tget 0 h.v ((j - 2048) / 64)).toNat / 2 ^ (64 * ((j - 2048) % 64)) % 2 ^ 64
  else if o < 0x9000 then (tget 0 h.h ((j - 4096) / 16)).toNat / 2 ^ (64 * ((j - 4096) % 16)) % 2 ^ 64
  else if o < 0x9400 then (tget 0 h.m ((j - 4608) / 16)).toNat / 2 ^ (64 * ((j - 4608) % 16)) % 2 ^ 64
  else if o < 0xA000 then 0
  else if o < 0xE000 then dblOf (h.strip.flatMap (·.bytes)) (j - 5120)
  else if o < 0x10000 then 0
  else if o < 0x30000 then match h.strip[j - 8192]? with | some e => logDbl e | none => 0
  else if o < 0x40000 then match h.aft[(j - 24576) / 8]? with | some r => aftDbl r ((j - 24576) % 8) | none => 0
  else if o < 0x50000 then
    let t : Sheaf := tget {} h.sheaf ((o - 0x40000) / 2 ^ 14)
    let k := (o - 0x40000) % 2 ^ 14 / 4
    (t.ents.getD k 0).toNat + (t.ents.getD (k + 1) 0).toNat * 2 ^ 32
  else 0

/-- The double at offset o of core c's record. -/
def recordDbl (b : Bank) (c tag o : Nat) : Nat :=
  if o < corePart then coreDbl b.core tag o
  else
    let t := (o - corePart) / 2 ^ 19
    let h := 4 * c + t
    hartDbl (tget {} b.harts h) (tget {} b.strands (2 * h)) (tget {} b.strands (2 * h + 1)) ((o - corePart) % 2 ^ 19)

/-! ### Reading a record back -/

/-- A sparse table of n values. -/
def tabOf {α : Type} [DecidableEq α] (d : α) (n : Nat) (f : Nat → α) : Tab α :=
  (List.range n).filterMap fun i => if f i = d then none else some (i, f i)

/-- The word at offset o of a record whose doubles are f. -/
def word32 (f : Nat → Nat) (o : Nat) : Nat := f (o / 8 * 8) / 2 ^ (8 * (o % 8)) % 2 ^ 32
/-- The byte at offset o. -/
def byteOf (f : Nat → Nat) (o : Nat) : Byte := BitVec.ofNat 8 (f (o / 8 * 8) / 2 ^ (8 * (o % 8)))
/-- n doubles from offset o as one number. -/
def wideOf (f : Nat → Nat) (o n : Nat) : Nat := (List.range n).foldl (fun v k => v + f (o + 8 * k) * 2 ^ (64 * k)) 0

/-- A stash slot of a record. -/
def stashOf (f : Nat → Nat) (n : Nat) : Option (Nat × StashSlot) :=
  let w := f (0x480068 + 16 * n)
  if w.testBit 43 then some (n, ⟨f (0x480060 + 16 * n), w / 2 ^ 44 * 4096, w % 2 ^ 19⟩) else none

/-- A monitor of a record. -/
def monOfRec (f : Nat → Nat) (n : Nat) : Monitor :=
  let o := 0x480600 + 160 * n
  let st := f (o + 152)
  { sum := BitVec.ofNat 320 (wideOf f o 5), ref := BitVec.ofNat 320 (wideOf f (o + 40) 5), bound := BitVec.ofNat 320 (wideOf f (o + 80) 5),
    nom := (List.range 4).map fun k => BitVec.ofNat 64 (f (o + 120 + 8 * k)),
    arm := st.testBit 63, nf := st.testBit 62, ov := st.testBit 61, tr := st.testBit 60, pw := st.testBit 59, fmt := st % 32 }

/-- A table image at offset o. -/
def algOfRec (f : Nat → Nat) (o : Nat) : AlgTab :=
  let hd := f o
  let d := 2 ^ (hd % 4)
  ⟨hd % 4, hd / 256 % 256, hd.testBit 16, (List.range (d * d * d)).map fun k => BitVec.ofNat 16 (f ((o + 8 + 2 * k) / 8 * 8) / 2 ^ (8 * ((2 * k) % 8)))⟩

/-- Run n of a record, over the run that the rest keeps. -/
def runOfRec (f : Nat → Nat) (n : Nat) (q : TmRun) : TmRun :=
  let o := 0x482000 + 2048 * n
  { q with
    desc := (List.range 8).map fun k => BitVec.ofNat 64 (f (o + 8 * k)), tile := f (o + 64) % 32,
    ca := (f (o + 72)).testBit 0, cb := (f (o + 72)).testBit 1, lt := tabOf 0 16 fun k => BitVec.ofNat 64 (f (o + 80 + 8 * k)),
    alg := algOfRec f (o + 208), steps := f (o + 1240) }

/-- The status of tile t of a record. -/
def tstOfRec (f : Nat → Nat) (t : Nat) : TileSt :=
  let w := f (0x480900 + 8 * t)
  { steps := BitVec.ofNat 32 w, flt := w.testBit 62, cause := w / 2 ^ 56 % 64, fl := BitVec.ofNat 6 (w / 2 ^ 32),
    fstep := BitVec.ofNat 32 (word32 f (0x480A00 + 4 * t)) }

/-- The core of a record, over what the rest keeps: a fill asks for the saved grant again (08 R200). The fill rejects only
grants that sum to more than 128 rows in a quad (19 R361); what a record whose grant is no band of 32 rows gives, 01 R15
leaves open, and the model takes rows, ext and req as they stand in the record (DESIGN CHOICE, log entry 114). -/
def coreOfRec (f : Nat → Nat) (k : Core) : Core :=
  let grant := f 0x480010
  let ext := grant / 2 ^ 32 % 2 ^ 8
  { k with
    tiles := (List.range 32).filterMap fun t =>
      let v := tabOf 0 (256 * min 128 ext) fun w => BitVec.ofNat 32 (word32 f (2 ^ 17 * t + 4 * w))
      if v.isEmpty then none else some (t, v)
    pad := tabOf 0 (2 ^ 19) fun i => byteOf f (0x400000 + i)
    rows := grant % 2 ^ 8
    ext := ext
    req := grant / 2 ^ 24 % 2 ^ 8
    wcwait := f 0x480018 % 4096
    slots := tabOf 0 8 fun i => BitVec.ofNat 64 (f (0x480020 + 8 * i)) &&& slotMask
    stash := (List.range 8).filterMap (stashOf f)
    alg := algOfRec f 0x480100
    mon := tabOf {} 4 (monOfRec f)
    tst := tabOf {} 32 (tstOfRec f)
    runs := (List.range k.runs.length).filterMap fun n => k.runs[n]?.map (runOfRec f n)
    stw := k.stw.filter fun w => (f (0x484000 + 8 * (w.1 / 64))).testBit (w.1 % 64) }

/-- The active loops of a strand block. -/
def loopsOf (f : Nat → Nat) (o : Nat) : List Loop :=
  (List.range 4).filterMap fun i =>
    if (f (o + 24 * i)).testBit 63 then
      some ⟨f (o + 24 * i) % 4, BitVec.ofNat 64 (f (o + 24 * i + 8)), BitVec.ofNat 64 (f (o + 24 * i + 16))⟩ else none

/-- A strand of a strand block at offset o. Bits that a register's table gives to no field read zero (00 R6). A value that a write
would refuse is taken as it stands: an `fpm` of 0 or 7 rounds as rne (R147; DESIGN CHOICE, log entry 133). -/
def strandOf (f : Nat → Nat) (o : Nat) (st : Strand) : Strand :=
  let d := fun (k : Nat) => BitVec.ofNat 64 (f (o + 8 * k))
  let w := f (o + 8 * 93)
  { st with
    x := tabOf 0 64 fun r => if r = 0 then 0 else d r
    pc := d 64, lc := tabOf 0 4 fun k => d (65 + k), loops := loopsOf f (o + 8 * 69), fpf := (d 81).setWidth 6, fpm := (d 82).setWidth 3,
    tvec := d 83 &&& tvecMask, tpc := d 84, tfpc := d 85, tcause := d 86 &&& causeMask, tval := d 87, telem := d 88, tword := d 89, tsb := d 90,
    tscr0 := d 91, tscr1 := d 92,
    arrived := recordOver (if w.testBit 63 then some (w / 256 % 8, w % 16) else none) (d 64, (d 86).getLsbD 63) st.arrived
    popv := recordOver (if w.testBit 62 then some (w / 2 ^ 16 % 8, f (o + 8 * 94)) else none) (d 64, (d 86).getLsbD 63) st.popv }

/-- Entry n of the strip of a record, over the entry that the rest keeps there. -/
def stripOf (f : Nat → Nat) (o : Nat) (n at_ : Nat) (old : Option StripEnt) : StripEnt :=
  let w := f (o + 0x10000 + 8 * n)
  let a := w % 2 ^ 52
  let loc := if a / 2 ^ 50 = 1 then Loc.pad 0 (a % 2 ^ 50 / 2 ^ 20) (a % 2 ^ 20) else Loc.mem a a none
  let e : StripEnt := { loc := loc, bytes := (List.range (2 ^ (w / 2 ^ 52 % 16))).map fun i => byteOf f (o + 0xA000 + at_ + i),
                        nib := w / 2 ^ 56 % 4, first := w.testBit 63 }
  match old with
  | some q => if logAddr q.loc = a then { e with loc := q.loc, hidden := q.hidden, ord := q.ord } else e
  | none => e

/-- The strip of a record: n entries. Stores of single nibbles may fill more than the record's 16 384 entries and bytes (R46
counts their bits): those past its end are kept beside the entry (log entry 33). -/
def stripsOf (f : Nat → Nat) (o : Nat) (old : List StripEnt) : Nat → Nat → Nat → List StripEnt
  | 0, _, _ => []
  | n + 1, i, at_ =>
    let e := stripOf f o i at_ old[i]?
    let e := if i < 16384 ∧ at_ + e.bytes.length ≤ 0x4000 then e else old[i]?.getD e
    e :: stripsOf f o old n (i + 1) (at_ + e.bytes.length)

/-- Entry n of a list, or a default. -/
def aftOf (f : Nat → Nat) (o n : Nat) : AftRec :=
  let d := fun (k : Nat) => f (o + 0x30000 + 64 * n + 8 * k)
  ⟨BitVec.ofNat 64 (d 0), d 1 % 256, (List.range (d 1 / 256 % 8)).map fun i => BitVec.ofNat 64 (d (2 + i))⟩

/-- The reduction record of a hart part at offset o, over the one that the rest keeps. -/
def redOf (f : Nat → Nat) (o : Nat) (old : Option Red) : Option Red :=
  let n := f (o + 0x3FF8)
  if !n.testBit 63 then none else
  let k := min (n % 2 ^ 16) 1024
  some ⟨(old.map (·.at_)).getD (0, false), f (o + 0x2000) % 2 ^ 16,
    (List.range k).map fun i => if k ≤ 4 then f (o + 0x2008 + 8 * i) else f (o + 0x2008 + i / 2 * 8) / 2 ^ (32 * (i % 2)) % 2 ^ 32,
    BitVec.ofNat 6 (n / 2 ^ 16)⟩

/-- A hart of a hart part at offset o, over what the rest keeps: entries that have spilled stay there. Bits that a register's table
gives to no field read zero (00 R6); a value that a write would refuse, such as one of `mfc`, is taken as it stands (R159;
DESIGN CHOICE, log entry 133). -/
def hartOf (f : Nat → Nat) (o : Nat) (h : Hart) : Hart :=
  let d := fun (k : Nat) => BitVec.ofNat 64 (f (o + 0x800 + 8 * k))
  let n := fun (k : Nat) => f (o + 0x800 + 8 * k)
  let sheaf := fun (k : Nat) =>
    let t : Sheaf := tget {} h.sheaf k
    let b := 49 + 6 * k
    let ents := ((List.range (min (n b) 4096)).map fun i => BitVec.ofNat 32 (word32 f (o + 0x40000 + 2 ^ 14 * k + 4 * i))) ++ t.ents.drop 4096
    ({ ents := ents.take (n b), rd := t.rd, sb := n (b + 1), ss := n (b + 2), seen := n (b + 3), u := n (b + 4), init := n (b + 5) == 1 } : Sheaf)
  { h with
    vl := n 0, vt := n 1 % 32, sbase := d 2, seed := d 3, mfcCtl := d 4 &&& mfcMask, mfcLt := tabOf 0 16 fun k => d (5 + k),
    smiss := tabOf 0 16 fun k => d (21 + k), smsel := (d 37).setWidth 4, pivtol := (d 38).setWidth 32, pivreg := d 39 &&& pivMask,
    epcfg := tabOf 0 8 fun k => d (40 + k) &&& epMask, gang := d 48 &&& gangMask, sheaf := tabOf {} 4 sheaf,
    aft := ((List.range (min (n 73) 1024)).map (aftOf f o) ++ h.aft.drop 1024).take (n 73), aftBase := d 74, aftSize := d 75,
    fifo := tabOf [] 8 fun k => (List.range (min 32 (n (76 + k)))).map fun i => BitVec.ofNat 64 (f (o + 0x1800 + 256 * k + 8 * i)),
    q := tabOf [] 8 fun k => (List.range (min 16 (f (o + 0x1400 + 8 * k)))).map fun i => BitVec.ofNat 64 (f (o + 0x1000 + 128 * k + 8 * i)),
    v := tabOf 0 32 fun k => BitVec.ofNat 4096 (wideOf f (o + 0x4000 + 512 * k) 64),
    h := tabOf 0 32 fun k => BitVec.ofNat 1024 (wideOf f (o + 0x8000 + 128 * k) 16),
    m := tabOf 0 8 fun k => BitVec.ofNat 1024 (wideOf f (o + 0x9000 + 128 * k) 16),
    strip := (stripsOf f o h.strip h.strip.length 0 0).filter fun e => match e.loc with | .mem _ _ ks => ks != some 64 | .pad .. => true,
    red := redOf f o h.red }

/-- The bank of core c that a record with doubles f holds, over what the rest keeps. -/
def bankOfRec (f : Nat → Nat) (c : Nat) (b : Bank) : Bank :=
  let hs := (List.range 4).map fun t => (4 * c + t, corePart + 2 ^ 19 * t)
  { core := coreOfRec f b.core
    harts := hs.map fun p => (p.1, hartOf f p.2 (tget {} b.harts p.1))
    strands := hs.flatMap fun p =>
      [(2 * p.1, strandOf f p.2 (tget {} b.strands (2 * p.1))),
       (2 * p.1 + 1, strandOf f (p.2 + 0x400) (tget {} b.strands (2 * p.1 + 1)))] }

end Sys2Proof.Machine
end

