-- ==== Sys2Proof/Machine/Context.lean ====
section
/-! DEFINITION. Sys2Proof/Machine/Context.lean: the run list, RLSET, slices and switches, and the context save engines (19 R359 to
R364). -/

namespace Sys2Proof.Machine

/-! ### The run list -/

/-- Entry k of a run list. -/
def Part.ent (q : Part) (k : Nat) : RlEnt := tget {} q.rl k

/-- The first entry with V = 1 of n entries from k on, in circular order. -/
def nextFrom (q : Part) : Nat → Nat → Option Nat
  | 0, _ => none
  | n + 1, k => if (q.ent (k % 64)).v then some (k % 64) else nextFrom q n (k + 1)

/-- The entry of the context in the active bank as it stood when its slice began: what op 0 writes over it takes effect at its
next switch (R363). -/
def Part.curOf (q : Part) (k : Nat) : RlEnt := if q.cur = some k then q.curEnt.getD (q.ent k) else q.ent k

/-- The entry to which a partition switches next (R360, R363). -/
def nextEnt (q : Part) : Option Nat :=
  match q.want with
  | some k => if (q.ent k).v then some k else circ
  | none => circ
where
  /-- The next entry in circular order. -/
  circ : Option Nat := nextFrom q 64 (match q.cur with | some k => k + 1 | none => 0)

/-- The save engine of a core after a change of plan: an idle loft that holds another context than the next begins to
spill, and an empty one to fill (R361). -/
def planLoft (k : Nat) (l : Loft) : Loft :=
  if l.save.st = 0 ∧ l.save.ent ≠ k then { l with save := { l.save with st := 1, off := 0, cause := 0 } }
  else if l.save.st = 5 then { l with save := { st := 2, ent := k } }
  else l

/-- Every core of the partition makes for the next entry. -/
def planLofts (p : Nat) : Upd := .other fun s =>
  let q := s.part p
  match nextEnt q with
  | none => s
  | some k => if q.cur = some k then s else
    (partCores s p).foldl (fun s c => { s with lofts := tput s.lofts c (planLoft k (s.loft c)) }) s

/-! ### RLSET (R363) -/

/-- The image of an entry (Table 19.6). -/
def entImage (e : RlEnt) : List Byte :=
  leBytes 8 (e.v.toNat * 2 ^ 63 + e.n.toNat * 2 ^ 62 + e.lat * 2 ^ 32 + e.slice)
  ++ leBytes 8 e.base.toNat ++ leBytes 8 e.size.toNat ++ leBytes 8 e.tag.toNat

/-- The entry of an image, unless it breaks Table 19.6. -/
def entOfImage (bs : List Byte) : Option RlEnt :=
  let w := dbl bs 0
  if w / 2 ^ 48 % 2 ^ 14 = 0 ∧ w / 2 ^ 16 % 2 ^ 16 = 0 ∧ w % 2 ^ 16 ≠ 0 ∧ dbl bs 8 % 4096 = 0 ∧ dbl bs 16 % 4096 = 0 then
    some { v := w.testBit 63, n := w.testBit 62, lat := w / 2 ^ 32 % 2 ^ 16, slice := w % 2 ^ 16,
           base := BitVec.ofNat 64 (dbl bs 8), size := BitVec.ofNat 64 (dbl bs 16), tag := BitVec.ofNat 64 (dbl bs 24) }
  else none

/-- The run-list fault. -/
def runListFault : TrapInfo := { code := 52 }

/-- RLSET with op `op`: k is given the partition, the entry and N(xa). -/
def rlsetAct (s : State) (o : RLo) (op : Nat) (k : Nat → Nat → Nat → Act) : Act :=
  issue s .both 1 [o.b] [.x o.d] [o.a] fun v =>
    let w := (v 0).toNat
    if w % 256 ≠ op ∨ 2 ^ 14 ≤ w then .trap runListFault
    else k (partIx s s.h) (w / 256) (getX s.me o.a).toNat

/-- The status of RLSET. -/
def rlStatus (s : State) (o : RLo) (us : List Upd) (st : Nat) : Act := .done (us ++ setD s.cur (.x o.d) (BitVec.ofNat 64 st))

/-- A computation whose address faults are the run-list fault; an uncorrectable data error is no address fault and stays itself
(20 R369). -/
def rlAccess {α : Type} (s : State) (m : M α) (k : α → Run → Act) : Act :=
  match m (Run.start s) with
  | .ok (a, r) => k a r
  | .error (t, r) => .part r.kept (if t.code = 54 then t else runListFault)

/-- An idle loft that holds entry k, now a new context, is empty (R361). -/
def emptyLoft (k : Nat) (l : Loft) : Loft := if l.save.st = 0 ∧ l.save.ent = k then {} else l

/-- What an entry's context has bound is gone with it (15 R322). -/
def dropEmul (k : Nat) (l : List (Nat × Nat × Word)) : List (Nat × Nat × Word) := l.filter fun x => x.1 != k

/-- RLSET op 0. An entry that becomes a new context keeps nothing that an earlier context's code objects bound (15 R322); where its
context is the running one, that goes on as it is until its next switch. -/
def execRlsetWriteEntry (o : RLo) (s : State) :=
  finish s o.form.len (rlsetAct s o 0 fun p k a =>
    rlAccess s (do flushMine s; loadBytesM (spaceOf s s.h) (some s.c) a 32) fun bs r =>
      match entOfImage bs with
      | none => rlStatus s o r.out 1
      | some e => rlStatus s o (r.out ++ [.part p fun q =>
            { q with rl := tput q.rl k e, emul := if e.n && q.cur != some k then dropEmul k q.emul else q.emul }]
          ++ (if e.n then (if (s.part p).cur = some k then [] else [loseCmds p k (loftPad k)])
                ++ (partCores s p).map fun c => .loft c (emptyLoft k) else []) ++ [planLofts p]) 0)

/-- RLSET op 1. The strand's own older stores are performed before its access, here as in op 0 (11 R292). -/
def execRlsetReadEntry (o : RLo) (s : State) :=
  finish s o.form.len (rlsetAct s o 1 fun p k a =>
    rlAccess s (do flushMine s; storeBytesM (spaceOf s s.h) (some s.c) a (entImage ((s.part p).ent k))) fun _ r => rlStatus s o r.out 0)

/-- The current entry's slice starts (R360). -/
def startSlice (now : Nat) (q : Part) : Part :=
  { q with sliceEnd := now + 1000 * (match q.cur with | some k => (q.curOf k).slice | none => 0), due := none, missed := false }

/-- Entry k becomes the current one, as the run list holds it then. -/
def enterEnt (k : Nat) (q : Part) : Part := { q with cur := some k, curEnt := some (q.ent k) }

/-- RLSET op 2. -/
def execRlsetSwitch (o : RLo) (s : State) :=
  finish s o.form.len (rlsetAct s o 2 fun p k _ =>
    let q := s.part p
    if !(q.ent k).v then rlStatus s o [] 2
    else if q.cur = some k then rlStatus s o [.part p fun q => startSlice s.gtc.toNat { q with want := none }] 0
    else rlStatus s o [.part p (fun q => { q with want := some k, due := some (q.due.getD s.gtc.toNat) }), planLofts p] 0)

/-- The stopped save engines of a partition. -/
def stoppedCores (s : State) (p : Nat) : List Nat := (partCores s p).filter fun c => (s.loft c).save.st == 3 || (s.loft c).save.st == 4

/-- RLSET op 3. -/
def execRlsetResume (o : RLo) (s : State) :=
  finish s o.form.len (rlsetAct s o 3 fun p _ _ =>
    let cs := stoppedCores s p
    if cs.isEmpty then rlStatus s o [] 3
    else rlStatus s o (cs.map fun c => .loft c fun l => { l with save := { l.save with st := l.save.st - 2, cause := 0 } }) 0)

/-- Entry k of partition p loses its context: its launches complete with st = 2, its commands run on without it (02 R53), and what
its loaded code objects bound is gone (15 R322). -/
def loseContext (p k : Nat) (r : Run) : Run :=
  let r := r.add (loseCmds p k (loftPad k))
  let r := ((r.s.part p).lq.filter fun l => l.ent == k).foldl (fun r l => completeLaunch r p l 2 l.placed) r
  r.add (.part p fun q =>
    { q with rl := tput q.rl k { q.ent k with v := false }, saved := q.saved.filter fun x => x.1 != k,
             emul := dropEmul k q.emul })

/-- RLSET op 4. -/
def execRlsetDiscard (o : RLo) (s : State) :=
  finish s o.form.len (rlsetAct s o 4 fun p _ _ =>
    let cs := stoppedCores s p
    if cs.isEmpty then rlStatus s o [] 3
    else
      let r := cs.foldl (fun r c =>
        (loseContext p (s.loft c).save.ent r).add (.loft c fun _ => {})) (Run.start s)
      rlStatus s o (r.out ++ [planLofts p]) 0)

/-! ### Slices and switches (R360) -/

/-- SLICE_END: the current entry's slice expires; the partition begins a switch, or the slice starts again. A switch that is
due and whose target has lost V, so that the next entry is the current one, starts the slice again too. -/
def execSliceEnd (p : Nat) (s : State) : Host.Outcome State Fault Refusal :=
  event s <|
    let q := s.part p
    match q.cur, nextEnt q with
    | some c, some k =>
      match q.due with
      | some _ => if c = k then some [.part p (startSlice s.gtc.toNat)] else none
      | none =>
        if s.gtc.toNat < q.sliceEnd then none
        else if c = k then some [.part p (startSlice q.sliceEnd)]
        else some [.part p (fun q => { q with due := some q.sliceEnd }), planLofts p]
    | _, _ => none

/-- A loft holds the context of entry k. -/
def loftReady (s : State) (k c : Nat) : Bool :=
  let l := s.loft c
  l.bank.isSome && l.save.st == 0 && l.save.ent == k

/-- A strand that comes into the active bank waits anew at its instruction, a WAITM or an IDLE (20 R385; Table 19.9). -/
def restartStrand (st : Strand) : Strand := { st with sleep := none }

/-- What a swap does to the harts and strands of a bank. -/
def restartBank (b : Bank) : Bank :=
  { b with
    harts := b.harts.map fun h => (h.1, { h.2 with waitA := false, waitX := false, dead := none })
    strands := b.strands.map fun x => (x.1, restartStrand x.2) }

/-- The outgoing context of a partition; an entry that has become a new context has none. -/
def outgoing (q : Part) : Option Nat := q.cur.bind fun k => if (q.ent k).n then none else some k

/-- After the swap, the loft of a core: the outgoing context, or none. -/
def loftAfter (old : Option Nat) (l : Loft) : Loft :=
  match old with
  | some k => { bank := l.bank, save := { st := 0, ent := k } }
  | none => {}

/-- SWITCH_COMPLETE: every core swaps; held writes and held scalar stores of the outgoing context are performed first. -/
def execSwitchComplete (p : Nat) (s : State) : Host.Outcome State Fault Refusal :=
  event s <|
    let q := s.part p
    let cs := partCores s p
    match nextEnt q with
    | none => none
    | some k =>
      if q.cur = some k || (q.cur.isSome && q.due.isNone) || q.halt.st != 0 || cs.isEmpty || !cs.all (loftReady s k) then none
      else
        let r := performAll (Run.start s) cs
        -- a halt that these stores raise comes before the swap, which is not begun then (20 R378)
        if (r.s.part p).halt.st != 0 then some r.out else
        let r := r.add forgetPast
        let r := match q.cur with
          | some o => if outgoing q = none then (r.add (loseCmds p o fun s c => (s.core c).pad)).add
              (.part p fun q => { q with emul := dropEmul o q.emul }) else r
          | none => r
        let r := r.addAll (cs.map fun c => .loft c fun l => { l with bank := l.bank.map restartBank })
        let r := r.add (swapCores cs)
        let r := r.addAll (cs.map fun c => .loft c (loftAfter (outgoing q)))
        let r := r.add (.part p fun q =>
          startSlice s.gtc.toNat (enterEnt k { q with want := if q.want = some k then none else q.want }))
        some ((r.add (rlevSet p 0 k)).add (planLofts p)).out

/-- LATENCY_LIMIT_MISS: a switch is late. -/
def execLatencyLimitMiss (p : Nat) (s : State) : Host.Outcome State Fault Refusal :=
  event s <|
    let q := s.part p
    match q.cur, q.due with
    | some k, some t =>
      let lat := (q.curOf k).lat
      if q.missed || lat == 0 || nextEnt q == some k || decide (s.gtc.toNat < t + 1000 * lat) then none
      else some [.part p (fun q => { q with missed := true }), rlevSet p 1 k]
    | _, _ => none

/-! ### Spills and fills (R361, R362) -/

/-- The offset in the save area of offset o of the record of a partition's core i of n (R384). -/
def areaOff (i n o : Nat) : Nat :=
  if o < corePart then corePart * i + o else corePart * n + 2 ^ 19 * 4 * i + (o - corePart)

/-- The address of the page of a record at offset o. -/
def pageAddr (e : RlEnt) (i n o : Nat) : Nat := (e.base.toNat + areaOff i n o) % 2 ^ 64

/-- The page of a record at offset o: its location, or the cause of Table 19.7. -/
def recordPage (sp : Space) (e : RlEnt) (i n kind o : Nat) (r : Run) : Except Nat (Loc × Run) :=
  let a := areaOff i n o
  if e.size.toNat < a + 4096 then .error 3 else
  match translate r sp (pageAddr e i n o) kind with
  | .error x => .error (if x.1.1 = 12 then 2 else if x.1.1 = 54 then 4 else 1)
  | .ok (x, r) => .ok (x.loc, r)

/-- The uncorrectable error on the way to the page of a record at offset o or, where it is read, in it (24 R424). -/
def pageTrap (sp : Space) (e : RlEnt) (i n kind o : Nat) (r : Run) : Option TrapInfo :=
  let va := BitVec.ofNat 64 (pageAddr e i n o)
  match translate r sp (pageAddr e i n o) kind with
  | .error x => if x.1.1 = 54 then some (xlTrap x.1 va 0) else none
  | .ok (x, r) => if kind = 0 then (badIn r.s x.loc 4096).map fun k => badData k va 0 else none

/-- The pages of a record from offset o on, n of them: their locations, and the offset and cause of the first that has
none. -/
def recordPages (sp : Space) (e : RlEnt) (i cores kind : Nat) : Nat → Nat → Run → List Loc × Option (Nat × Nat) × Run
  | 0, _, r => ([], none, r)
  | n + 1, o, r =>
    match recordPage sp e i cores kind o r with
    | .error cause => ([], some (o, cause), r)
    | .ok (l, r) =>
      let (ls, f, r) := recordPages sp e i cores kind n (o + 4096) r
      (l :: ls, f, r)

/-- Writes bytes at a location for the save engine. -/
def putLoc (r : Run) (l : Loc) (bs : List Byte) : Run := writeLoc r none l bs

/-- Writes the pages of a record from offset o on, but for the completion word. -/
def writePages (f : Nat → Nat) : Nat → List Loc → Run → Run
  | _, [], r => r
  | o, l :: ls, r =>
    let bytes := fun (a n : Nat) => (List.range n).map fun i => byteOf f (a + i)
    let r := if o = doneOff then putLoc r (l.plus 8) (bytes (o + 8) 4088) else putLoc r l (bytes o 4096)
    writePages f (o + 4096) ls r

/-- A core's place among its partition's cores. -/
def coreIx (s : State) (p c : Nat) : Nat := (partCores s p).idxOf c

/-- A command of the context of entry k is in flight: on whichever core it runs, it may write this core's record (09 R240). -/
def loftBusy (s : State) (p k : Nat) : Bool := s.cmds.any fun d => d.part == p && d.ent == some k && d.lost.isNone

/-- The record of a bank. -/
def recordOf (s : State) (p c k : Nat) (b : Bank) : Nat → Nat := recordDbl b c ((s.part p).ent k).tag.toNat

/-- Writes back every dirty stash word of the loft of core c (09 R237). -/
def flushLoft (r : Run) (c : Nat) : Run :=
  match (r.s.loft c).bank with
  | none => r
  | some b =>
    (b.core.stw.foldl (fun r w => backWord r b.core.pad w) r).add
      (updLoftCore c fun k => { k with stw := k.stw.map fun w => (w.1, { w.2 with dirty := false }) })

/-- CONTEXT_SPILL_DONE: the rest of the record is written, then its completion word; the loft is empty and starts to fill.
Bytes that were written before a stop follow the context's last tokens. -/
def execContextSpillDone (c : Nat) (s : State) : Host.Outcome State Fault Refusal :=
  event s <|
    let l := s.loft c
    match partOfHall s (c / 16), l.bank with
    | some p, some _ =>
      let k := l.save.ent
      if l.save.st ≠ 1 || loftBusy s p k then none else
      let r := flushLoft (Run.start s) c
      let e := (s.part p).ent k
      let i := coreIx s p c
      let n := (partCores s p).length
      let sp := stewardSpace s p
      match recordPages sp e i n 1 ((recordLen - l.save.off) / 4096) l.save.off r with
      | (_, some _, _) => none
      | (ls, none, r) =>
        let b := (r.s.loft c).bank.getD {}
        let f := recordOf s p c k b
        let early := (recordPages sp e i n 1 (l.save.off / 4096) 0 r)
        let r := writePages f 0 early.1 early.2.2
        let r := writePages f l.save.off ls r
        let r := match recordPage sp e i n 1 doneOff r with
          | .ok (w, r) => putLoc r w (leBytes 8 (2 ^ 63 + s.gtc.toNat % 2 ^ 48))
          | .error _ => r
        let r := r.add (.part p fun q => { q with saved := tput q.saved k (tput (tget [] q.saved k) c b) })
        some ((r.add (.loft c fun _ => {})).add (planLofts p)).out
    | _, _ => none

/-- The save engine of core c, at work on entry k, stops at offset o with cause 4: the halt line rises too, as for any engine (20
R378; 24 R424). A save engine has no number among the sources, and the mailbox unit stands for it (DESIGN CHOICE, log entry 71). -/
def saveError (s : State) (p k c kind o : Nat) : List Upd :=
  match pageTrap (stewardSpace s p) ((s.part p).ent k) (coreIx s p c) (partCores s p).length kind o (Run.start s) with
  | some t => engineFatal s p 6576 t 0
  | none => []

/-- SPILL_STOP: the spill stops at the first page that it cannot write; the stash has been written back before it began (09 R237). -/
def execSpillStop (c off : Nat) (s : State) : Host.Outcome State Fault Refusal :=
  event s <|
    let l := s.loft c
    match partOfHall s (c / 16), l.bank with
    | some p, some _ =>
      let k := l.save.ent
      if l.save.st ≠ 1 then none else
      let r := flushLoft (Run.start s) c
      let b := (r.s.loft c).bank.getD {}
      match recordPages (stewardSpace s p) ((s.part p).ent k) (coreIx s p c) (partCores s p).length 1
          ((recordLen - l.save.off) / 4096) l.save.off r with
      | (ls, some (o, cause), r) =>
        if o ≠ off then none else
        let r := writePages (recordOf s p c k b) l.save.off ls r
        let r := r.addAll (if cause = 4 then saveError s p k c 1 off else [])
        some ((r.add (.loft c fun l => { l with save := { l.save with st := 3, cause := cause, off := off } })).add (rlevSet p 2 k)).out
      | _ => none
    | _, _ => none

/-- The double at offset o of a record whose pages are at these locations. -/
def pageDbl (s : State) (ls : List Loc) (o : Nat) : Nat :=
  match ls[o / 4096]? with
  | some l => ofLe ((List.range 8).map fun i => (readByte (Run.start s) none (l.plus (o % 4096 + i))).1)
  | none => 0

/-- The rows of the grant in a core's record, zero where they cannot be read. -/
def savedGrant (s : State) (p k c : Nat) : Nat :=
  match recordPage (stewardSpace s p) ((s.part p).ent k) (coreIx s p c) (partCores s p).length 0 doneOff (Run.start s) with
  | .ok (l, r) => pageDbl r.s [l] 16 % 2 ^ 8
  | .error _ => 0

/-- The rows that core d of the quad of core c brings: those of its loft where that holds entry k already, else those of its
record. -/
def fillGrant (s : State) (p k c d : Nat) : Nat :=
  match (s.loft d).bank with
  | some b => if d ≠ c ∧ loftReady s k d then b.core.rows else savedGrant s p k d
  | none => savedGrant s p k d

/-- The saved grants of a core's quad sum to more than 128 rows (R361; 01 R16). -/
def badGrants (s : State) (p k c : Nat) : Bool :=
  decide (128 < ((List.range 4).map fun i => fillGrant s p k c (c / 4 * 4 + i)).foldl (· + ·) 0)

/-- The first offset at which a fill from offset o on cannot go on, with the cause, an uncorrectable error among them (Table 19.7),
and the locations of the whole record. -/
def fillPages (s : State) (p k c off : Nat) : List Loc × Option (Nat × Nat) × Run :=
  let e := (s.part p).ent k
  let i := coreIx s p c
  let n := (partCores s p).length
  let sp := stewardSpace s p
  let early := recordPages sp e i n 0 (off / 4096) 0 (Run.start s)
  let (ls, f, r) := recordPages sp e i n 0 ((recordLen - off) / 4096) off early.2.2
  let f := match ls.findIdx? fun l => meetsBad r.s l 4096 with
    | some j => some (off + 4096 * j, 4)
    | none => f
  let f := match f with
    | some (o, cause) => if o ≤ doneOff then some (o, cause) else if badGrants s p k c then some (doneOff, 5) else some (o, cause)
    | none => if badGrants s p k c then some (doneOff, 5) else none
  (early.1 ++ ls, f, r)

/-- A loft that holds entry k. -/
def filledLoft (k : Nat) (b : Bank) : Loft := { bank := some b, save := { st := 0, ent := k } }

/-- Entry k of a partition has been filled as a new context: its N is clear. -/
def takeNew (k : Nat) (q : Part) : Part := { q with rl := tput q.rl k { q.ent k with n := false } }

/-- The last core of a partition to take a new context clears the entry's N (R361). -/
def clearNew (p k : Nat) : Upd := .other fun s =>
  if (partCores s p).all (loftReady s k) then { s with parts := tput s.parts p (takeNew k (s.part p)) } else s

/-- A valid word of a stash as a fill restores it: other stashes give up its line, and it takes the bytes that its home holds,
which may have changed since the spill (09 R238; 11 R294; log entry 96). -/
def refreshWord (r : Run) (k : Core) (w : Nat × StashWord) : Run × Core :=
  let r := evictOthers r none w.2.pa
  (r, { k with pad := tsetAll 0 k.pad ((List.range 4).map fun i => (4 * w.1 + i, homeByte r.s w.2.ks (w.2.pa + i))),
               stw := tput k.stw w.1 { w.2 with dirty := false } })

/-- The valid words of a restored core. -/
def refreshStash (r : Run) (k : Core) : Run × Core := k.stw.foldl (fun p w => refreshWord p.1 p.2 w) (r, k)

/-- CONTEXT_FILL_DONE: a new context where N = 1, else the record's. -/
def execContextFillDone (c : Nat) (s : State) : Host.Outcome State Fault Refusal :=
  event s <|
    let l := s.loft c
    match partOfHall s (c / 16) with
    | none => none
    | some p =>
      let k := l.save.ent
      let q := s.part p
      if l.save.st ≠ 2 then none
      else if (q.ent k).n then some [.loft c fun _ => filledLoft k {}, clearNew p k, planLofts p]
      else
        match fillPages s p k c l.save.off with
        | (_, some _, _) => none
        | (ls, none, r) =>
          let rest := tget {} (tget [] q.saved k) c
          let b := bankOfRec (pageDbl r.s ls) c rest
          let (r, core) := refreshStash r b.core
          let b := { b with core := core, harts := b.harts.filter fun h => !isService s h.1, strands := b.strands.filter fun x => !isService s (x.1 / 2) }
          let r := r.add (.part p fun q => { q with saved := tput q.saved k ((tget [] q.saved k).filter fun x => x.1 != c) })
          some ((r.add (.loft c fun _ => filledLoft k b)).add (planLofts p)).out

/-- The save engine of core c meets uncorrectable data at offset off of the record (Table 19.7, cause 4): a spill has written the
pages below it, and either stops there and raises the halt line (log entry 71). -/
def badSave (s : State) (c off : Nat) : Option (List Upd) :=
  let l := s.loft c
  match partOfHall s (c / 16) with
  | none => none
  | some p =>
    let k := l.save.ent
    let stop := fun (st : Nat) => Upd.loft c fun l => { l with save := { l.save with st := st, cause := 4, off := off } }
    let va := pageAddr ((s.part p).ent k) (coreIx s p c) (partCores s p).length off
    let raise := engineFatal s p 6576 { code := 54, val := BitVec.ofNat 64 va } 0
    if off % 4096 ≠ 0 ∨ off < l.save.off ∨ recordLen ≤ off then none
    else if l.save.st = 1 then
      let r := flushLoft (Run.start s) c
      match (r.s.loft c).bank, recordPages (stewardSpace s p) ((s.part p).ent k) (coreIx s p c) (partCores s p).length 1
          ((off - l.save.off) / 4096) l.save.off r with
      | some b, (ls, none, r) =>
        some ((((writePages (recordOf s p c k b) l.save.off ls r).add (stop 3)).add (rlevSet p 2 k)).addAll raise).out
      | _, _ => none
    else if l.save.st = 2 ∧ !((s.part p).ent k).n then some ([stop 4, rlevSet p 3 k] ++ raise)
    else none

/-- FILL_STOP: the fill stops at the first page that it cannot read, or at a bad record. -/
def execFillStop (c off : Nat) (s : State) : Host.Outcome State Fault Refusal :=
  event s <|
    let l := s.loft c
    match partOfHall s (c / 16) with
    | none => none
    | some p =>
      let k := l.save.ent
      if l.save.st ≠ 2 || ((s.part p).ent k).n then none else
      match fillPages s p k c l.save.off with
      | (_, some (o, cause), r) =>
        if o ≠ off then none
        else some (r.out ++ (if cause = 4 then saveError s p k c 0 off else [])
          ++ [.loft c (fun l => { l with save := { l.save with st := 4, cause := cause, off := off } }), rlevSet p 3 k])
      | _ => none

end Sys2Proof.Machine
end

