-- ==== Sys2Proof/Machine/Control.lean ====
section
/-! DEFINITION. Sys2Proof/Machine/Control.lean: branches, jumps, jump tables, hardware loops and branches on queues (04 R89 to
R99), and the prefix MOD (03 R72 to R75). -/

namespace Sys2Proof.Machine

/-- The address after the present instruction. -/
def nextPc (s : State) (len : Nat) : Word := s.me.pc + BitVec.ofNat 64 len

/-- The target of a transfer with an offset in words, or in bytes in the literal forms. -/
def relTarget (s : State) (f : Form) (off : Int) : Word := wrap (uval s.me.pc + (if f.hasLit then off else 4 * off))

/-- A conditional branch (R89). -/
def branchAct (s : State) (o : BRo) (p : Word → Word → Bool) : Act :=
  issue s .both 0 [o.a, o.b] [] [] fun v => if p (v 0) (v 1) then .jump [] (relTarget s o.form o.off) else .done []

/-- BEQ. -/
def execBeq (o : BRo) (s : State) := finish s o.form.len (branchAct s o fun a b => a == b)
/-- BNE. -/
def execBne (o : BRo) (s : State) := finish s o.form.len (branchAct s o fun a b => a != b)
/-- BLT. -/
def execBlt (o : BRo) (s : State) := finish s o.form.len (branchAct s o fun a b => decide (sval a < sval b))
/-- BGE. -/
def execBge (o : BRo) (s : State) := finish s o.form.len (branchAct s o fun a b => decide (sval b ≤ sval a))
/-- BLTN. -/
def execBltn (o : BRo) (s : State) := finish s o.form.len (branchAct s o fun a b => decide (uval a < uval b))
/-- BGEN. -/
def execBgen (o : BRo) (s : State) := finish s o.form.len (branchAct s o fun a b => decide (uval b ≤ uval a))

/-- JAL (R90): the link is the address after the instruction. -/
def execJal (o : JLo) (s : State) :=
  finish s o.form.len (issue s .both 0 [] [o.d] [] fun _ =>
    .jump (setD s.cur o.d (nextPc s o.form.len)) (relTarget s o.form o.off))

/-- J: JAL without a link. -/
def execJ (o : JO) (s : State) :=
  finish s o.form.len (issue s .both 0 [] [] [] fun _ => .jump [] (relTarget s o.form o.off))

/-- JR (R90): the target is computed from the old xa. -/
def execJr (o : RI) (s : State) :=
  finish s o.form.len (issue s .both 0 [o.a] [o.d] [] fun v =>
    .jump (setD s.cur o.d (nextPc s o.form.len)) (wrap (uval (v 0) + o.imm)))

/-- A table fetch of JTAB: a double, or the table-fetch fault with its address (R93). R93 lists translation, protection and
data errors; an attribute-alias or stash-attribute failure is reported as table-fetch too (log entry 105). -/
def tableFetch (s : State) (a : Word) : M Word := fun r =>
  match scalarLoad s a 8 r with
  | .ok (bs, r) => .ok (word64 bs, r)
  | .error (t, r) => .error ({ code := 16, val := a, soft := t.soft }, r)
/-- The two fetches of JTAB (R92): the length, then the entry of the index or the default entry. -/
def jumpTable (s : State) (a b : Word) : M Word := do
  let l ← tableFetch s a
  let i := if uval b < uval l then uval b else uval l
  tableFetch s (wrap (uval a + 8 * (1 + i)))

/-- JTAB (R92, R93); a misaligned entry traps with the translation fills made (R91; 09 R230). -/
def execJtab (o : R3) (s : State) :=
  finish s o.form.len (issue s .both 0 [o.a, o.b] [o.d] [] fun v =>
    Act.ofM s (jumpTable s (v 0) (v 1)) fun t r =>
      if t.toNat % 4 = 0 then .jump (r.out ++ setD s.cur o.d (nextPc s o.form.len)) t
      else .part r.kept { code := 3, val := t })

/-- The active loops after LOOP names counter lc: that loop and every loop inside it are gone (R96). -/
def dropLoops (lc : Nat) (ls : List Loop) : List Loop :=
  if ls.any (·.lc == lc) then (ls.dropWhile fun l => l.lc != lc).drop 1 else ls

/-- LOOP (R94 to R96): with count 0 too, it ends an active loop of its counter. -/
def execLoop (o : LPo) (s : State) :=
  finish s o.form.len (issue s .both 0 [o.a] [] [] fun v =>
    let start := nextPc s o.form.len
    let stop := wrap (uval start + 4 * (o.stop : Int))
    if v 0 = 0 then
      match afterEnd (Run.start s) s.h stop with
      | (.ok t, r) => .jump (r.kept ++ [.strand s.cur fun st => { st with loops := dropLoops o.lc st.loops }]) t
      | (.error a, r) => .part r.kept (fetchTrap s s.h a)
    else .done [.strand s.cur fun st =>
      { st with lc := tset 0 st.lc o.lc (v 0), loops := ⟨o.lc, start, stop⟩ :: dropLoops o.lc st.loops }])

/-- LOOPBRK (R97). -/
def execLoopbrk (f : Form) (s : State) :=
  finish s f.len (issue s .both 0 [] [] [] fun _ =>
    match s.me.loops with
    | [] => .trap { code := 8 }
    | l :: ls =>
      match afterEnd (Run.start s) s.h l.stop with
      | (.ok t, r) => .jump (r.kept ++ [.strand s.cur fun st => { st with loops := ls }]) t
      | (.error a, r) => .part r.kept (fetchTrap s s.h a))

/-- BRQ (R99): pops one entry. -/
def brqAct (s : State) (o : BQo) (nz : Bool) : Act :=
  issue s .both 0 [.q o.q] [] [] fun v =>
    if (v 0 != 0) == nz then .jump [] (relTarget s o.form o.off) else .done []

/-- BRQ.nz. -/
def execBrqNz (o : BQo) (s : State) := finish s o.form.len (brqAct s o true)
/-- BRQ.z. -/
def execBrqZ (o : BQo) (s : State) := finish s o.form.len (brqAct s o false)

/-- The checks of a MOD on what the fetch of the following instruction gave: it is fetched, legal and prefixable (R73). -/
def modTrap (s : State) (f : Except Word (List Nat)) : Option TrapInfo :=
  match f with
  | .error a => some (fetchTrap s s.h a)
  | .ok ws =>
    if (decode ws).isNone then some { code := 1 }
    else if !prefixableWord (ws.headD 0) then some { code := 6 }
    else none

/-- MOD: the prefix is in force for the instruction after it, which `step` runs in the same step (R74). Where the word after it fails
its fetch or its checks there is no pair, and the trap at the MOD's address reports pf = 0 (R73; DESIGN CHOICE, log entry 131). -/
def execMod (m : Pfx) (s : State) : Host.Outcome State Fault Refusal :=
  let f := fetchInstr (Run.start s) s.h (s.me.pc + 4)
  match modTrap s f.1 with
  | some t => finish s 4 (.part f.2.kept t)
  | none => .next (applyAll (f.2.kept ++ [.strand s.cur fun st => { st with pfx := some m, pc := st.pc + 4 }]) s)

end Sys2Proof.Machine
end

