-- ==== Sys2Proof/Machine/Compress.lean ====
section
/-! DEFINITION. Sys2Proof/Machine/Compress.lean: the stored form of the blocks of a compressed frame (09 R231). State holds a block's
bytes; its raw flag and its stored form are functions of them. -/

namespace Sys2Proof.Machine

/-- The words of a block of n words. -/
def wordsOf : Nat → List Byte → List (List Byte)
  | 0, _ => []
  | n + 1, bs => bs.take 4 :: wordsOf n (bs.drop 4)

/-- A word has a bit that is 1. -/
def nonzeroWord (w : List Byte) : Bool := w.any (· != 0)
/-- The mask over words: bit i is 1 when word i is nonzero. -/
def maskOf : List (List Byte) → Nat
  | [] => 0
  | w :: ws => (nonzeroWord w).toNat + 2 * maskOf ws
/-- The number p of nonzero words of a block. -/
def nonzeroWords (b : List Byte) : Nat := (wordsOf 64 b).countP nonzeroWord
/-- Sectors of 32 bytes for p nonzero words. -/
def sectorsFor (p : Nat) : Nat := (8 + 4 * p + 31) / 32
/-- The raw flag of a block: no compressed form of it is shorter than the block. -/
def rawFlag (b : List Byte) : Bool := decide (8 ≤ sectorsFor (nonzeroWords b))
/-- The compressed form of a block. -/
def compressBlock (b : List Byte) : List Byte :=
  let ws := wordsOf 64 b
  let form := leBytes 8 (maskOf ws) ++ (ws.filter nonzeroWord).flatten
  form ++ List.replicate (32 * sectorsFor (nonzeroWords b) - form.length) 0

/-- The words that a mask and the nonzero words stand for. -/
def expandWords : Nat → Nat → List Byte → List Byte
  | 0, _, _ => []
  | n + 1, mask, ws =>
    if mask % 2 = 1 then ws.take 4 ++ expandWords n (mask / 2) (ws.drop 4)
    else [0, 0, 0, 0] ++ expandWords n (mask / 2) ws

/-- The block that a compressed form stands for. -/
def expandBlock (x : List Byte) : List Byte := expandWords 64 (ofLe (x.take 8)) (x.drop 8)

/-- How a block is stored, and the block that a stored form with its raw flag stands for. -/
def storeBlock (b : List Byte) : Bool × List Byte := (rawFlag b, if rawFlag b then b else compressBlock b)
/-- Reads a stored block. -/
def fetchBlock (x : Bool × List Byte) : List Byte := if x.1 then x.2 else expandBlock x.2

/-- The stored form of the block of a compressed frame at a physical address. -/
def storedBlock (s : State) (ks : Option Nat) (pa : Nat) : Bool × List Byte :=
  storeBlock ((List.range 256).map fun i => homeByte s ks (pa / 256 * 256 + i))

end Sys2Proof.Machine
end

