-- ==== Sys2Proof/Machine/Copy.lean ====
section
/-! DEFINITION. Sys2Proof/Machine/Copy.lean: copies and stash commands (09 R240 to R251). -/

namespace Sys2Proof.Machine

/-- The copy-value fault. -/
def copyValue : TrapInfo := { code := 40 }
/-- The stash-state fault. -/
def stashState : TrapInfo := { code := 41 }

/-! ### Issue (R245 to R249) -/

/-- Bytes that n elements of a type occupy, packed (06 R136). -/
def packed (n : Nat) (t : Ty) : Nat := (n * t.bits + 7) / 8

/-- The checks that copies share (R246): the control double's unassigned bits, the two ranges, and the barrier. -/
def copyChecks (s : State) (w own dst nd src ns : Nat) : Option (Option Nat) :=
  if own ≤ w ∨ !rangeOk dst nd ∨ !rangeOk src ns ∨ rangesMeet dst nd src ns then none else ctlBarrier s w

/-- A copy, once its group is in order: one of no bytes completes at once (R246). -/
def startCopy (s : State) (d w nd : Nat) (be : Option Nat) (k : Work) : Act :=
  if nd = 0 then .done [.strand s.cur (setX d (tokenVal 0 0 0))]
  else .done (acceptCmd s (newCmd s k d (w % 4) be none))

/-- The issue of a command with a group of k registers. -/
def issueCmd (s : State) (o : DA) (k : Nat) (f : List Nat → Act) : Act :=
  issue s .access 0 [] [] (o.d :: groupRegs o.a k) fun _ => f (groupVals s o.a k)

/-- CPYA (R247). -/
def execCpya (o : DA) (s : State) :=
  finish s 4 (issueCmd s o 4 fun x =>
    let (dst, src, len, w) := (x.getD 0 0, x.getD 1 0, x.getD 2 0, x.getD 3 0)
    if 2 ^ 40 ≤ len then .trap copyValue else
    match copyChecks s w 64 dst len src len with
    | none => .trap copyValue
    | some be => startCopy s o.d w len be (.cpya dst src len))

/-- The element types of a CPYW, where the pair is accepted (R248). -/
def copyTypes (w : Nat) : Option (Ty × Ty) :=
  match Ty.ofCode (w / 64 % 32), Ty.ofCode (w / 2048 % 32) with
  | some a, some b => if plain a b && (a == b || widens a b) then some (a, b) else none
  | _, _ => none

/-- CPYW (R248). -/
def execCpyw (o : DA) (s : State) :=
  finish s 4 (issueCmd s o 4 fun x =>
    let (dst, src, n, w) := (x.getD 0 0, x.getD 1 0, x.getD 2 0, x.getD 3 0)
    match copyTypes w with
    | none => .trap copyValue
    | some (a, b) =>
      if 2 ^ 36 ≤ n ∨ src % max 1 (a.bits / 8) ≠ 0 ∨ dst % max 1 (b.bits / 8) ≠ 0 then .trap copyValue else
      match copyChecks s w (2 ^ 16) dst (packed n b) src (packed n a) with
      | none => .trap copyValue
      | some be => startCopy s o.d w (packed n b) be (.cpyw dst src n a b))

/-- CPYX (R249): a declared length of zero reads nothing, whatever the source length. -/
def execCpyx (o : DA) (s : State) :=
  finish s 4 (issueCmd s o 5 fun x =>
    let (dst, src, len, slen, w) := (x.getD 0 0, x.getD 1 0, x.getD 2 0, x.getD 3 0, x.getD 4 0)
    if len % 256 ≠ 0 ∨ dst % 4 ≠ 0 ∨ src % 32 ≠ 0 then .trap copyValue else
    match copyChecks s w 64 dst len src (if len = 0 then 0 else slen) with
    | none => .trap copyValue
    | some be => startCopy s o.d w len be (.cpyx dst src len slen))

/-! ### Chunks (R241, R242) -/

/-- A computed destination byte, or why it has none. -/
abbrev Got := Except TrapInfo Byte

/-- Bytes at offsets from lo on. -/
def tryBytes (f : Nat → E Byte) : Nat → Nat → Run → List Got × Run
  | 0, _, r => ([], r)
  | n + 1, lo, r =>
    let (g, r) : Got × Run := match f lo r with
      | .ok (b, r) => (.ok b, r)
      | .error e => (.error e.1, e.2)
    let (gs, r) := tryBytes f n (lo + 1) r
    (g :: gs, r)

/-- The pattern of source element i of a CPYW. -/
def copyElem (sp : Space) (src : Nat) (t : Ty) (i : Nat) : E Nat := fun r =>
  if t.bits = 4 then
    match engRead sp (src + i / 2) r with
    | .error e => .error e
    | .ok (b, r) => .ok (b.toNat / 16 ^ (i % 2) % 16, r)
  else
    match engReads sp (t.bits / 8) (src + i * (t.bits / 8)) r with
    | .error e => .error e
    | .ok (bs, r) => .ok (ofLe bs, r)

/-- Destination byte i of a CPYW; the upper half of a last byte that holds one 4-bit element keeps its value. -/
def wideByte (sp : Space) (dst src n : Nat) (a b : Ty) (i : Nat) : E Byte := fun r =>
  if b.bits = 4 then
    match copyElem sp src a (2 * i) r with
    | .error e => .error e
    | .ok (lo, r) =>
      match (if 2 * i + 1 < n then copyElem sp src a (2 * i + 1) r
             else match engRead sp (dst + i) r with
               | .error e => .error e
               | .ok (old, r) => .ok (old.toNat / 16, r)) with
      | .error e => .error e
      | .ok (hi, r) => .ok (BitVec.ofNat 8 (lo + 16 * hi), r)
  else
    let z := b.bits / 8
    match copyElem sp src a (i / z) r with
    | .error e => .error e
    | .ok (v, r) => .ok (BitVec.ofNat 8 (widenBits a b v / 256 ^ (i % z)), r)

/-- The one bits of a mask of n bits. -/
def maskOnes : Nat → Nat → Nat
  | 0, _ => 0
  | n + 1, mask => mask % 2 + maskOnes n (mask / 2)

/-- One block of a compressed stream at a position: its bytes and the next position, or the end of the stream (R249). -/
def streamBlock (sp : Space) (src slen pos : Nat) : E (Option (List Byte × Nat)) := fun r =>
  if slen < pos + 8 then .ok (none, r) else
  match engReads sp 8 (src + pos) r with
  | .error e => .error e
  | .ok (mb, r) =>
    let mask := ofLe mb
    let n := 8 + 4 * maskOnes 64 mask
    if slen < pos + n then .ok (none, r) else
    match engReads sp (n - 8) (src + pos + 8) r with
    | .error e => .error e
    | .ok (ws, r) =>
      .ok (some (expandWords 64 mask ws, pos + 32 * ((n + 31) / 32)), r)

/-- What a chunk of a copy writes: its bytes from the chunk's first offset on; of a compressed stream, the position of the next block,
the bytes of the last block that lie past the chunk, and whether the stream ended. -/
structure ChunkGot where
  got : List Got
  pos : Nat := 0
  rest : List Byte := []
  ended : Bool := false

/-- The blocks of a compressed stream that offsets [out, hi) need: their bytes, the position of the next block, and whether the stream
ended. A block is read whole for the chunk in which it begins, and a failure of any of its words stops the copy at that chunk, whose
bytes R242 leaves open (DESIGN CHOICE, log entry 143). -/
def streamChunk (sp : Space) (src slen hi : Nat) : Nat → Nat → Nat → Run → (List Got × Nat × Bool) × Run
  | 0, _, pos, r => (([], pos, false), r)
  | n + 1, out, pos, r =>
    if hi ≤ out then (([], pos, false), r) else
    match streamBlock sp src slen pos r with
    | .error e => ((List.replicate 256 (.error e.1), pos, false), e.2)
    | .ok (none, r) => (([], pos, true), r)
    | .ok (some (bs, next), r) =>
      let (g, r) := streamChunk sp src slen hi n (out + 256) next r
      ((bs.map .ok ++ g.1, g.2), r)

/-- Destination, total bytes and the compressed source's length of a copy; none for another command. -/
def copyShape (w : Work) : Option (Nat × Nat × Option Nat) :=
  match w with
  | .cpya dst _ len => some (dst, len, none)
  | .cpyw dst _ n _ b => some (dst, packed n b, none)
  | .cpyx dst _ len slen => some (dst, len, some slen)
  | _ => none

/-- The destination bytes [lo, hi) of a copy; `pos` is the position of the next block of a compressed stream, and `rest` are the bytes
from lo on of the block before it, which is read once however many chunks it meets. A source byte has the value of the chunk's own
instant: which of its values since the issue a copy takes the spec leaves open (DESIGN CHOICE, log entry 143). -/
def chunkGot (sp : Space) (w : Work) (pos : Nat) (rest : List Byte) (lo hi : Nat) (r : Run) : ChunkGot × Run :=
  match w with
  | .cpya _ src _ => let (g, r) := tryBytes (fun i => engRead sp (src + i)) (hi - lo) lo r; ({ got := g }, r)
  | .cpyw dst src n a b => let (g, r) := tryBytes (wideByte sp dst src n a b) (hi - lo) lo r; ({ got := g }, r)
  | .cpyx _ src _ slen =>
    let base := lo + rest.length
    let (g, r) := streamChunk sp src slen hi ((hi - base) / 256 + 2) base pos r
    let all := rest.map .ok ++ g.1
    (⟨all.take (hi - lo), g.2.1, (all.drop (hi - lo)).filterMap Except.toOption, g.2.2⟩, r)
  | _ => ({ got := [] }, r)

/-- The locations of n destination bytes, each found or not. -/
def tryLocs (sp : Space) : Nat → Nat → Run → List (Except TrapInfo Loc) × Run
  | 0, _, r => ([], r)
  | n + 1, va, r =>
    let (g, r) : Except TrapInfo Loc × Run := match engXlate sp (va % 2 ^ 64) 1 r with
      | .ok (l, r) => (.ok l, r)
      | .error e => (.error e.1, e.2)
    let (gs, r) := tryLocs sp n (va + 1) r
    (g :: gs, r)

/-- The first failure among bytes and locations, the source's before the destination's (log entry 30). -/
def firstBad : List Got → List (Except TrapInfo Loc) → Option TrapInfo
  | .error e :: _, _ => some e
  | _ :: _, .error e :: _ => some e
  | _ :: gs, _ :: ls => firstBad gs ls
  | _, _ => none

/-- The found bytes with their found locations whose index a predicate lets through. -/
def foundBytes (p : Nat → Bool) : Nat → List Got → List (Except TrapInfo Loc) → List (Loc × Byte)
  | i, .ok b :: gs, .ok l :: ls => if p i then (l, b) :: foundBytes p (i + 1) gs ls else foundBytes p (i + 1) gs ls
  | i, _ :: gs, _ :: ls => foundBytes p (i + 1) gs ls
  | _, _, _ => []

/-- Where the part so chooses, what stood in the core's own scratchpad, in k, under the bytes that a copy has written may still be
read by its TMU runs, until something orders them (17 R341). -/
def keepStale (c : Nat) (k : Core) (bs : List (Loc × Byte)) (r : Run) : Run :=
  let keep := fun (t : Tab Byte) (p : Loc × Byte) =>
    match p.1 with
    | .pad _ d off => if d = c then tput t off (tget 0 k.pad off) else t
    | .mem .. => t
  if r.s.choice.hold then r.add (.core c fun q => { q with stale := bs.foldl keep q.stale }) else r

/-- Writes located bytes of a copy. -/
def putFound (c : Nat) (bs : List (Loc × Byte)) (r : Run) : Run :=
  keepStale c (r.s.core c) bs ((pieces bs).foldl (fun r p => engWriteLoc r c p.1 p.2) r)

/-- The granules that found locations meet. -/
def foundGranules (ls : List (Except TrapInfo Loc)) : List Nat :=
  granules (ls.filterMap fun l => match l with | .ok l => some l | .error _ => none)

/-- One chunk of a copy: it is written whole and credited, or stops the copy (R242), and the last one ends it. It waits for a
command that is in the middle of its own writes there (R244). -/
def copyChunk (c : Cmd) (r : Run) : Option Run :=
  match copyShape c.work with
  | none => none
  | some (dst, total, slen) =>
    let sp := cmdSpace r.s c
    let lo := c.bytes
    let hi := min total (lo + (4096 - (dst + lo) % 4096))
    if rangeHeld r.s c [(dst + lo, hi - lo)] then none else
    let (g, r) := chunkGot sp c.work c.pos c.rest lo hi r
    let (ls, r) := tryLocs sp g.got.length (dst + lo) r
    if granuleHeld r.s c (foundGranules ls) then none else
    match firstBad g.got ls with
    | some t =>
      let n := r.s.free
      some (stopCmd c t lo ((putFound sp.core (foundBytes (Config.freeBit n) 0 g.got ls) r).add .tick))
    | none =>
      let r := putFound sp.core (foundBytes (fun _ => true) 0 g.got ls) r
      let out := lo + g.got.length
      let fin := if g.ended then some (tokenVal 1 0 out)
        else if out < total then none
        else match slen with
          | some n => some (tokenVal (if g.pos < n then 2 else 0) 0 total)
          | none => some (tokenVal 0 0 total)
      some (creditCmd c (out - lo) (r.add (.cmd c.id fun c => { c with bytes := out, pos := g.pos, rest := g.rest, step := c.step + 1, fin := fin })))

/-- COPY_CHUNK. -/
def execCopyChunk (id : Nat) (s : State) :=
  event s <|
    match cmdOf s id with
    | some c => if cmdRuns s c 1 then tryCtx s c fun r => (copyChunk c r).map (didWork c 1) else none
    | none => none

/-- COPY_COMPLETE: the token of a finished copy. -/
def execCopyComplete (id : Nat) (s : State) :=
  event s <|
    match cmdOf s id with
    | some c => match copyShape c.work, c.fin with
      | some _, some v => some (completeCmd s c v)
      | _, _ => none
    | none => none

/-! ### Stash commands (R251) -/

/-- Two stash slots meet, in addresses or in offsets. -/
def slotsMeet (a b : StashSlot) : Bool := rangesMeet a.va a.len b.va b.len || rangesMeet a.off a.len b.off b.len

/-- STMAP: the mapping is in force at once; its token follows (log entry 31). The faults come in the order in which R251 names
them (03 R71). -/
def execStmap (o : DA) (s : State) :=
  finish s 4 (issueCmd s o 3 fun x =>
    let (va, len, d) := (x.getD 0 0, x.getD 1 0, x.getD 2 0)
    let off := d % 2 ^ 19
    let k := d / 2 ^ 20 % 8
    let t : StashSlot := ⟨va, len, off⟩
    if s.myCore.stash.any (fun q => q.1 == k || slotsMeet q.2 t) then .trap stashState
    else if va % 4096 ≠ 0 ∨ off % 4096 ≠ 0 ∨ len % 4096 ≠ 0 ∨ len = 0 ∨ 2 ^ 19 < len ∨ 2 ^ 19 < off + len
        ∨ d / 2 ^ 19 % 2 ≠ 0 ∨ 2 ^ 23 ≤ d then .trap copyValue
    else .done (Upd.core s.c (fun c => { c with
        stash := tput c.stash k t
        stale := freshen off len c.stale
        stw := c.stw.filter fun w => !(decide (off ≤ 4 * w.1) && decide (4 * w.1 < off + len)) })
      :: acceptCmd s (newCmd s (.stmap va len off k) o.d 0 none none)))

/-- A slot of the core. -/
def slotAt (c : Core) (k : Nat) : Option StashSlot := (c.stash.find? fun q => q.1 == k).map (·.2)

/-- A window range names offsets of core c, as core b sees them. -/
def windowMeets (b c va len : Nat) (t : StashSlot) : Bool :=
  let j := if b = c then 0 else hallCore c + 1
  b / 16 == c / 16 && rangesMeet va len (windowBase + j * 2 ^ 20 + t.off) t.len

/-- A copy in flight reads or writes a slot's range: at its addresses, in the running context, whose addresses the slots of the core
map (R237), or at its offsets through the window, in any context whose scratchpads are in place. A copy counts with the whole of its
ranges until it completes (DESIGN CHOICE, log entry 151). -/
def copyUses (s : State) (t : StashSlot) (d : Cmd) : Bool :=
  let uses := fun (va len : Nat) =>
    (d.part == partIx s s.h && d.ent.isSome && d.ent == (s.part d.part).cur && rangesMeet va len t.va t.len)
    || (!cmdAway s d && windowMeets (coreOf d.hart) s.c va len t)
  d.fin.isNone && d.lost.isNone &&
  match d.work with
  | .cpya dst src len => uses dst len || uses src len
  | .cpyw dst src n a b => uses dst (packed n b) || uses src (packed n a)
  | .cpyx dst src len slen => uses dst len || uses src slen
  | _ => false

/-- Some x0 + k × d with k below n lies from lo to hi. -/
def stepsMeet (x0 d : Int) (n : Nat) (lo hi : Int) : Bool :=
  if n = 0 then false
  else if d = 0 then decide (lo ≤ x0) && decide (x0 ≤ hi)
  else
    let (a, b) := if 0 < d then (lo - x0, hi - x0) else (x0 - hi, x0 - lo)
    let m : Int := d.natAbs
    decide (max 0 (-(-a / m)) ≤ min ((n : Int) - 1) (b / m))

/-- Elements of `bits` bits at offsets r × rs + k × ks from a base, r below rows and k below n, meet the bytes of a slot. -/
def gridMeets (base bits rows n : Nat) (rs ks : Int) (t : StashSlot) : Bool :=
  let lo := 8 * ((t.off : Int) - base) / bits
  let hi := (8 * ((t.off : Int) + t.len - base) - 1) / bits
  (List.range rows).any fun r => stepsMeet (r * rs) ks n lo hi

/-- A run of the core reads scratchpad bytes of a slot: of its elements, or of its headers. It counts with all its steps until it
completes (DESIGN CHOICE, log entry 151). -/
def runUses (s : State) (t : StashSlot) (q : TmRun) : Bool :=
  let sh := runShape q.desc
  let ops := runOpds q.desc
  let own := fun (base : Nat) (meets : Nat → Bool) =>
    match spAddr s.c base with | some (c, off) => c == s.c && meets off | none => false
  let uses := fun (o : TmOpd) (rows : Nat) =>
    own o.base (fun off => gridMeets off o.ty.bits rows (32 * sh.2.2) o.rs o.ks t)
    || (o.ty.isBlock && own o.hbase fun off => gridMeets off 32 rows sh.2.2 (o.rs / 32) 1 t)
  uses ops.1 sh.1 || uses ops.2 sh.2.1

/-- STFLUSH: the write-back is done when its token is written. -/
def execStflush (o : DA) (s : State) :=
  finish s 4 (issue s .access 0 [.x o.a] [] [o.d] fun v =>
    let k := (v 0).toNat % 8
    if (slotAt s.myCore k).isNone then .trap stashState
    else .done (acceptCmd s (newCmd s (.stflush k) o.d 0 none none)))

/-- STUNMAP. -/
def execStunmap (o : DA) (s : State) :=
  finish s 4 (issue s .access 0 [.x o.a] [] [o.d] fun v =>
    let k := (v 0).toNat % 8
    match slotAt s.myCore k with
    | none => .trap stashState
    | some t =>
      if s.cmds.any (copyUses s t) || s.myCore.runs.any (runUses s t) then .trap stashState
      else .done (acceptCmd s (newCmd s (.stunmap k) o.d 0 none none)))

/-- Writes the dirty words of a slot of core c back: the run, with the words clean, and the bytes written. -/
def flushSlot (r : Run) (c : Nat) (t : StashSlot) : Run × Nat :=
  let k := r.s.core c
  let ws := k.stw.filter fun w => wordIn t w.1 && w.2.dirty
  let r := ws.foldl (fun r w => backWord r k.pad w) r
  (r.add (.core c fun k => { k with stw := k.stw.map fun w => if wordIn t w.1 then (w.1, { w.2 with dirty := false }) else w }),
   4 * ws.length)

/-- Removes a slot: words that are valid keep their values and words that were never valid become zero. What becomes of a word
that was valid and that another party's request or a CINV has taken away R251 leaves open: the model zeroes it too (DESIGN
CHOICE, log entry 117). -/
def unmapSlot (k : Nat) (t : StashSlot) (c : Core) : Core :=
  { c with
    pad := c.pad.filter fun b => !(wordIn t (b.1 / 4)) || (c.stw.find? fun w => w.1 == b.1 / 4).isSome
    stash := c.stash.filter fun q => q.1 != k
    stw := c.stw.filter fun w => !wordIn t w.1 }

/-- The effect of a stash command at its completion, and its token. -/
def stashDone (c : Cmd) (r : Run) : Run :=
  let core := cmdCore c
  match c.work with
  | .stflush k => match slotAt (r.s.core core) k with
    | some t => let (r, n) := flushSlot r core t; writeToken c (tokenVal 0 0 n) r
    | none => writeToken c (tokenVal 0 0 0) r
  | .stunmap k => match slotAt (r.s.core core) k with
    | some t => let (r, n) := flushSlot r core t; writeToken c (tokenVal 0 0 n) (r.add (.core core (unmapSlot k t)))
    | none => writeToken c (tokenVal 0 0 0) r
  | _ => writeToken c (tokenVal 0 0 0) r

/-- STASH_COMMAND_COMPLETE: stash commands of a hart complete in the order of their issue; one that the halt line has stopped
does nothing more than write its token. -/
def execStashCommandComplete (id : Nat) (s : State) :=
  event s <|
    match cmdOf s id with
    | some c =>
      if cmdEngine c.work = 3
          ∧ (s.cmds.find? fun d => cmdEngine d.work == 3 && d.hart == c.hart && d.part == c.part && d.ent == c.ent && d.lost == c.lost).map (·.id) = some id then
        match c.fin with
        | some v => some (completeCmd s c v)
        | none => if engineGoes s c.part (cmdSource c) 1 1 then
            some (withCtx s c fun r => didWork c 1 ((stashDone c r).add (dropCmd id))) else none
      else none
    | none => none

end Sys2Proof.Machine
end

