-- ==== Sys2Proof/Machine/RvFloat.lean ====
section
/-! DEFINITION. Sys2Proof/Machine/RvFloat.lean: the binary32 and binary64 arithmetic of the croft cores (21 R386). The spec takes it from
the RISC-V unprivileged ISA 20191213, chapters F and D (log entry 35): subnormals are kept, NaN results are canonical, and
underflow is judged after rounding. Flags are in the order of `fcsr`: NV 16, DZ 8, OF 4, UF 2, NX 1. -/

namespace Sys2Proof.Machine

/-- A binary format: exponent and fraction bits. -/
structure RvFmt where
  eb : Nat
  fb : Nat
deriving DecidableEq, Repr

/-- binary32. -/
def rvS : RvFmt := ⟨8, 23⟩
/-- binary64. -/
def rvD : RvFmt := ⟨11, 52⟩

/-- Width in bits. -/
def RvFmt.width (f : RvFmt) : Nat := f.eb + f.fb + 1
/-- Exponent bias. -/
def RvFmt.bias (f : RvFmt) : Nat := 2 ^ (f.eb - 1) - 1
/-- Exponent of the smallest normal. -/
def RvFmt.emin (f : RvFmt) : Int := 1 - (f.bias : Int)
/-- The code of infinity. -/
def RvFmt.inf (f : RvFmt) : Nat := (2 ^ f.eb - 1) * 2 ^ f.fb
/-- The canonical NaN. -/
def RvFmt.canon (f : RvFmt) : Nat := f.inf + 2 ^ (f.fb - 1)
/-- A code with a sign. -/
def RvFmt.signed (f : RvFmt) (neg : Bool) (v : Nat) : Nat := (if neg then 2 ^ (f.eb + f.fb) else 0) + v
/-- The sign of a code. -/
def RvFmt.sign (f : RvFmt) (v : Nat) : Bool := v.testBit (f.eb + f.fb)
/-- A code without its sign. -/
def RvFmt.mag (f : RvFmt) (v : Nat) : Nat := v % 2 ^ (f.eb + f.fb)

/-- The exact value of a code. -/
def rvDecode (f : RvFmt) (v : Nat) : Val :=
  let m := v % 2 ^ f.fb
  let e := v / 2 ^ f.fb % 2 ^ f.eb
  let neg := f.sign v
  let sg : Int := if neg then -1 else 1
  if e = 2 ^ f.eb - 1 then (if m = 0 then .inf neg else .nan)
  else
    let sig := if e = 0 then m else 2 ^ f.fb + m
    if sig = 0 then .zero neg else
    let q := scaleQ (sg * sig) 1 ((if e = 0 then f.emin else (e : Int) - f.bias) - f.fb)
    .num q.1 q.2

/-- A signalling NaN. -/
def rvSnan (f : RvFmt) (v : Nat) : Bool := (rvDecode f v).isNaN && !v.testBit (f.fb - 1)

/-- The neighbour of n / d above lo that a rounding mode chooses: 0 RNE, 1 RTZ, 2 RDN, 3 RUP, 4 RMM. -/
def rvChoose (rm : Nat) (n : Int) (d : Nat) (lo : Int) : Int :=
  let frac := n - lo * d
  if frac = 0 then lo else
  match rm with
  | 1 => if 0 ≤ n then lo else lo + 1
  | 2 => lo
  | 3 => lo + 1
  | 4 => if 2 * frac < d then lo else if 2 * frac > d then lo + 1 else if 0 ≤ n then lo + 1 else lo
  | _ => if 2 * frac < d then lo else if 2 * frac > d then lo + 1 else if lo % 2 = 0 then lo else lo + 1

/-- n / d rounded to an integer. -/
def rvRoundInt (rm : Nat) (n : Int) (d : Nat) : Int := rvChoose rm n d (n / (d : Int))

/-- Rounds a value into a format: the code and the flags. -/
def rvRound (f : RvFmt) (rm : Nat) (v : Val) : Nat × Nat :=
  match v with
  | .nan => (f.canon, 0)
  | .inf neg => (f.signed neg f.inf, 0)
  | .zero neg => (f.signed neg 0, 0)
  | .num n d =>
    let neg := decide (n < 0)
    let fl := floorLog2 n.natAbs d
    let s := max fl f.emin - f.fb
    let q := scaleQ n d (-s)
    let y := rvRoundInt rm q.1 q.2
    let mag := (s - (f.emin - f.fb)).toNat * 2 ^ f.fb + y.natAbs
    let exact := decide (y * q.2 = q.1)
    if f.inf ≤ mag then
      let toInf := rm = 0 ∨ rm = 4 ∨ (rm = 2 ∧ neg = true) ∨ (rm = 3 ∧ neg = false)
      (f.signed neg (if toInf then f.inf else f.inf - 1), 5)
    else
      let q2 := scaleQ n d (-(fl - f.fb))
      let y2 := rvRoundInt rm q2.1 q2.2
      let tiny := decide (fl < f.emin) && !(fl + 1 == f.emin && y2.natAbs == 2 ^ (f.fb + 1))
      (f.signed neg mag, if exact then 0 else if tiny then 3 else 1)

/-- The sign rule of an exact zero sum: RDN gives −0. -/
def rvZeroMode (rm : Nat) : Nat := if rm = 2 then 4 else 1

/-- NV for a signalling operand. -/
def rvInvalid (f : RvFmt) (vs : List Nat) : Nat := if vs.any (rvSnan f) then 16 else 0

/-- Sum. -/
def rvAdd (f : RvFmt) (rm a b : Nat) : Nat × Nat :=
  let x := addV (rvZeroMode rm) (rvDecode f a) (rvDecode f b)
  let r := rvRound f rm x.1
  (r.1, r.2 ||| rvInvalid f [a, b] ||| (if x.2 then 16 else 0))
/-- A code with its sign changed. -/
def rvNeg (f : RvFmt) (a : Nat) : Nat := f.signed (!f.sign a) (f.mag a)
/-- Difference. -/
def rvSub (f : RvFmt) (rm a b : Nat) : Nat × Nat :=
  let x := addV (rvZeroMode rm) (rvDecode f a) (rvDecode f b).negate
  let r := rvRound f rm x.1
  (r.1, r.2 ||| rvInvalid f [a, b] ||| (if x.2 then 16 else 0))
/-- Product. -/
def rvMul (f : RvFmt) (rm a b : Nat) : Nat × Nat :=
  let x := mulV (rvDecode f a) (rvDecode f b)
  let r := rvRound f rm x.1
  (r.1, r.2 ||| rvInvalid f [a, b] ||| (if x.2 then 16 else 0))
/-- Quotient. -/
def rvDiv (f : RvFmt) (rm a b : Nat) : Nat × Nat :=
  let x := divV (rvDecode f a) (rvDecode f b)
  let r := rvRound f rm x.1
  (r.1, r.2 ||| rvInvalid f [a, b] ||| (x.2.toNat % 32))

/-- Square root of a value: a fraction on the same side of every rounding boundary. -/
def rvSqrtV (v : Val) : Val × Nat :=
  match v with
  | .num n d =>
    if n < 0 then (.nan, 16) else
    let k := n.toNat * d * 2 ^ 256
    let q := isqrt k
    (.num (2 * q + if q * q = k then 0 else 1) (2 * d * 2 ^ 128), 0)
  | .inf true => (.nan, 16)
  | v => (v, 0)
/-- Square root. -/
def rvSqrt (f : RvFmt) (rm a : Nat) : Nat × Nat :=
  let x := rvSqrtV (rvDecode f a)
  let r := rvRound f rm x.1
  (r.1, r.2 ||| rvInvalid f [a] ||| x.2)

/-- ±(a b) ± c with one rounding. -/
def rvFma (f : RvFmt) (rm : Nat) (np nc : Bool) (a b c : Nat) : Nat × Nat :=
  let p := mulV (rvDecode f a) (rvDecode f b)
  let neg := fun (x : Bool) (v : Val) => if x then v.negate else v
  let x := addV (rvZeroMode rm) (neg np p.1) (neg nc (rvDecode f c))
  let r := rvRound f rm x.1
  (r.1, r.2 ||| rvInvalid f [a, b, c] ||| (if p.2 || x.2 then 16 else 0))

/-- Minimum or maximum; −0 is below +0, and a NaN gives way to the other operand. -/
def rvMinMax (f : RvFmt) (mx : Bool) (a b : Nat) : Nat × Nat :=
  let x := rvDecode f a
  let y := rvDecode f b
  let r := if x.isNaN && y.isNaN then f.canon else if x.isNaN then b else if y.isNaN then a
    else if (if mx then beforeF x y else beforeF y x) then b else a
  (r, rvInvalid f [a, b])

/-- FLE, FLT, FEQ (funct3 0, 1, 2). -/
def rvCompare (f : RvFmt) (k a b : Nat) : Nat × Nat :=
  let x := rvDecode f a
  let y := rvDecode f b
  if x.isNaN || y.isNaN then (0, if k = 2 then rvInvalid f [a, b] else 16)
  else
    let c := cmpV x y
    ((match k with | 0 => c != Ordering.gt | 1 => c == Ordering.lt | _ => c == Ordering.eq).toNat, 0)

/-- FCLASS. -/
def rvClass (f : RvFmt) (a : Nat) : Nat :=
  let neg := f.sign a
  let m := f.mag a
  if (rvDecode f a).isNaN then (if rvSnan f a then 2 ^ 8 else 2 ^ 9)
  else if m = f.inf then (if neg then 2 ^ 0 else 2 ^ 7)
  else if m = 0 then (if neg then 2 ^ 3 else 2 ^ 4)
  else if m < 2 ^ f.fb then (if neg then 2 ^ 2 else 2 ^ 5)
  else if neg then 2 ^ 1 else 2 ^ 6

/-- Conversion to an integer in [lo, hi]. -/
def rvToInt (f : RvFmt) (rm : Nat) (lo hi : Int) (a : Nat) : Int × Nat :=
  match rvDecode f a with
  | .nan => (hi, 16)
  | .inf neg => (if neg then lo else hi, 16)
  | .zero _ => (0, 0)
  | .num n d =>
    let y := rvRoundInt rm n d
    if y < lo then (lo, 16) else if hi < y then (hi, 16) else (y, if y * d = n then 0 else 1)

/-- Conversion between the formats. -/
def rvConvert (f g : RvFmt) (rm a : Nat) : Nat × Nat :=
  let r := rvRound g rm (rvDecode f a)
  (r.1, r.2 ||| rvInvalid f [a])

end Sys2Proof.Machine
end

