-- ==== Sys2Proof/Machine/StateRegs.lean ====
section
/-! DEFINITION. Sys2Proof/Machine/StateRegs.lean: the state registers and their three views (04 R101 to R103; 20 Table 20.1, R365 to
R368; 21 Table 21.4; 22 Tables 22.2 to 22.7; 24), and GETS, SETS and SWAPS. A read is the view of the strand that moves;
a write is its updates or the trap that refuses it. -/

namespace Sys2Proof.Machine

/-- Bits lo to lo + n − 1 of a double, in place. -/
def keep (v : Word) (lo n : Nat) : Word := BitVec.ofNat 64 (v.toNat / 2 ^ lo % 2 ^ n * 2 ^ lo)

/-! ### Views -/

/-- The fields of the Steading's registers (21 Tables 21.5 to 21.11). -/
def steadFields (n : Nat) : Word :=
  match n with
  | 0x280 => 0x00000000FFFFFFFF
  | 0x281 => 0x01FFFFFFFFFC0000
  | 0x282 => 0xC000000000000FFF
  | 0x283 => 0x000000000FFFFF7F
  | 0x284 => 0x0000000000000FFF
  | _ => 0xFF00FFFFFFFFFFFF

/-- The user view of the Steading's registers: it reads zero, and only a nonzero value of a field is refused (R102; 21 R392). -/
def steadView (priv n : Nat) : Bool := priv == 0 && decide (0x280 ≤ n) && decide (n ≤ 0x285)

/-- A register whose view at a privilege reads zero and refuses every write (R102, Table 20.1). -/
def zView (priv n : Nat) : Bool :=
  if priv = 0 then n == 0x101 || n == 0x102 || (decide (0x200 ≤ n) && !steadView priv n)
  else if priv = 1 then decide (0x400 ≤ n) && decide (n ≤ 0x440)
  else false

/-- A register whose write raises the privilege trap (R102; 22 R412; 24). -/
def noWrite (priv n : Nat) : Bool :=
  zView priv n || (decide (0x448 ≤ n) && decide (n ≤ 0x44A)) || (decide (priv < 2) && decide (0x500 ≤ n))

/-- The registers of 24 that the steward reads as zero: the telemetry registers are `itel`, `modpwr`, `cool`, `serr` and
`barnw` (log entry 28). -/
def fleetHidden (priv n : Nat) : Bool := decide (priv < 2) && (n == 0x500 || n == 0x501 || n == 0x511 || n == 0x512 || n == 0x513)

/-! ### Barriers (05 Table 5.3) -/

/-- A barrier register's value. -/
def barReg (b : Barrier) : Word :=
  BitVec.ofNat 64 (b.v.toNat * 2 ^ 63 + b.b.toNat * 2 ^ 62 + b.x.toNat * 2 ^ 61 + b.k.toNat * 2 ^ 60
    + b.count % 16 * 2 ^ 56 + b.arr % 16 * 2 ^ 52 + b.phase % 16 * 2 ^ 48 + b.o.toNat * 2 ^ 47 + (b.pend % 2 ^ 47).toNat)

/-! ### The hart whose `smiss` the numbers name (07 R181) -/

/-- The hart that `smiss.k` names: the attached member at pos, counted in ascending rank. Where the attached set has shrunk
below pos, which R181 leaves open, it is the hart itself (log entry 106). -/
def missHart (s : State) : Nat :=
  let h := s.myHart
  if h.smsel.getLsbD 3 then (attOf s s.h).getD (h.smsel.toNat % 8) s.h else s.h

/-! ### Reads -/

/-- A trap-record register of a strand (Table 20.2). -/
def trapReg (st : Strand) (n : Nat) : Word :=
  match n with
  | 0x010 => st.tvec
  | 0x011 => st.tpc
  | 0x012 => st.tfpc
  | 0x013 => st.tcause
  | 0x014 => st.tval
  | 0x015 => st.telem
  | 0x016 => st.tword
  | 0x017 => st.tsb
  | 0x018 => st.tscr0
  | _ => st.tscr1

/-- A hart register below 0x080. -/
def hartReg (s : State) (n : Nat) : Word :=
  let h := s.myHart
  if n = 0x040 then h.sbase
  else if n = 0x041 then h.seed
  else if n = 0x042 then h.pivtol.setWidth 64
  else if n = 0x043 then h.pivreg
  else if n = 0x044 then (if isService s s.h then 0 else h.gang)
  else if n = 0x045 then h.smsel.setWidth 64
  else if n = 0x048 then h.mfcCtl
  else if n < 0x060 then tget 0 h.mfcLt (n - 0x050)
  else if n < 0x070 then tget 0 (s.hart (missHart s)).smiss (n - 0x060)
  else tget 0 h.epcfg (n - 0x070) ||| BitVec.ofNat 64 ((tget [] h.fifo (n - 0x070)).length * 2 ^ 8)

/-- `tmgrant` (08 Table 8.1). -/
def tmgrant (s : State) (c : Nat) : Nat :=
  freeRows s c * 2 ^ 40 + (s.core c).ext * 2 ^ 32 + (s.core c).req * 2 ^ 24 + (s.core c).rows

/-- `ctxsave` (19 Table 19.7). -/
def ctxsaveReg (x : CtxSave) : Nat := x.st * 2 ^ 60 + x.cause * 2 ^ 54 + x.ent * 2 ^ 48 + x.off

/-- `haltst`, whose op reads zero (20 Table 20.7). -/
def haltstReg (x : Halt) : Nat := x.st * 2 ^ 62 + x.cause * 2 ^ 48 + x.src * 2 ^ 32 + x.cnt * 2 ^ 16

/-- Cells that a list of records takes (21 R397). -/
def cellsOf (l : List Rec) : Nat := l.foldl (fun n r => n + (r.bytes.length + 63) / 64) 0

/-- The partition owns a slot (21 R392). -/
def slotOwned (q : Part) (k : Nat) : Bool := q.stgrp.getLsbD (k / 128)

/-- `stslot` (21 Table 21.11). -/
def stslotReg (t : Slot) : Nat :=
  t.state * 2 ^ 61 + t.fol.toNat * 2 ^ 60 + t.end_ * 2 ^ 56 + cellsOf t.acts * 2 ^ 40 + cellsOf t.obs * 2 ^ 32 + t.ver % 2 ^ 32

/-- A partition register. -/
def partReg (s : State) (n : Nat) : Word :=
  let q := s.part (partIx s s.h)
  if n = 0x200 then q.cfg
  else if n = 0x201 then BitVec.ofNat 64 (q.rlent * 2 ^ 8 + q.rlev.toNat)
  else if n = 0x202 then q.xlring
  else if n = 0x203 then BitVec.ofNat 64 (haltstReg q.halt)
  else if n = 0x204 then q.stopbase
  else if n < 0x280 then tget 0 q.rlroot (n - 0x240)
  else if n = 0x280 then q.stgrp.setWidth 64
  else if n = 0x281 then q.sttab
  else if n = 0x282 then 0
  else if n = 0x283 then BitVec.ofNat 64 (q.steslot * 2 ^ 16 + q.sterr * 2 ^ 8 + q.stcmds.length)
  else if n = 0x284 then BitVec.ofNat 64 q.stsel
  else if slotOwned q q.stsel then BitVec.ofNat 64 (stslotReg (s.slot q.stsel)) else 0

/-- A register of the module. -/
def devReg (d : Dev) (n : Nat) : Word :=
  if n < 0x440 then BitVec.ofNat 64 (kslotReg (d.key (n - 0x400)))
  else if n = 0x440 then 0
  else if n = 0x448 then BitVec.ofNat 64 (wnprog d)
  else if n = 0x449 then BitVec.ofNat 64 (wntot d)
  else if n = 0x44A then d.hrej
  else if n = 0x500 then BitVec.ofNat 64 d.isel
  else if n = 0x501 then BitVec.ofNat 64 (islandReg (d.island d.isel))
  else if n = 0x502 then tget 0 d.itel d.isel
  else if n = 0x503 then BitVec.ofNat 64 (modpwr d)
  else if n = 0x504 then d.cool
  else if n < 0x510 then tget 0 d.serr (n - 0x508)
  else if n = 0x510 then barnReg d
  else if n = 0x511 then 0
  else if n = 0x512 then BitVec.ofNat 64 (fwst d)
  else d.rint.setWidth 64

/-- The value of a state register, without regard to privilege. -/
def rawReg (s : State) (n : Nat) : Word :=
  if n = 0 then s.me.fpf.setWidth 64
  else if n = 1 then s.me.fpm.setWidth 64
  else if n < 0x010 then tget 0 s.me.lc (n - 4)
  else if n < 0x040 then trapReg s.me n
  else if n < 0x080 then hartReg s n
  else if n < 0x100 then match gangOf s s.h with
    | some (_, g) => barReg (barOf g (n - 0x080))
    | none => 0
  else if n = 0x100 then BitVec.ofNat 64 (tmgrant s s.c)
  else if n = 0x101 then BitVec.ofNat 64 s.myCore.wcwait
  else if n = 0x102 then BitVec.ofNat 64 (ctxsaveReg (s.loft s.c).save)
  else if n < 0x200 then tget 0 s.myCore.slots (n - 0x108)
  else if n < 0x400 then partReg s n
  else devReg s.dev n

/-- The view of a state register at the privilege of the strand that moves. -/
def readReg (s : State) (n : Nat) : Word :=
  let p := privOf s s.h
  if zView p n || steadView p n || fleetHidden p n then 0 else rawReg s n

/-! ### Writes -/

/-- A write that the register's fields accept or not. -/
def accept (ok : Bool) (n : Nat) (us : List Upd) : Except TrapInfo (List Upd) := if ok then .ok us else .error (stateValue n)

/-- Update of the strand that moves. -/
def updMe (s : State) (f : Strand → Strand) : List Upd := [.strand s.cur f]
/-- Update of its hart. -/
def updHart (s : State) (f : Hart → Hart) : List Upd := [.hart s.h f]
/-- Update of its partition record. -/
def updPart (s : State) (f : Part → Part) : List Upd := [.part (partIx s s.h) f]

/-- Writes a trap-record register; the user view writes four of them (Table 20.2). -/
def writeTrapReg (s : State) (n : Nat) (v : Word) : Except TrapInfo (List Upd) :=
  if privOf s s.h = 0 ∧ n ≠ 0x010 ∧ n ≠ 0x011 ∧ n ≠ 0x018 ∧ n ≠ 0x019 then .ok [] else
  match n with
  | 0x010 => accept (!v.getLsbD 1) n (updMe s fun st => { st with tvec := v })
  | 0x011 => .ok (updMe s fun st => { st with tpc := v })
  | 0x012 => .ok (updMe s fun st => { st with tfpc := v })
  | 0x013 => .ok (updMe s fun st => { st with tcause := v &&& causeMask })
  | 0x014 => .ok (updMe s fun st => { st with tval := v })
  | 0x015 => .ok (updMe s fun st => { st with telem := v })
  | 0x016 => .ok (updMe s fun st => { st with tword := v })
  | 0x017 => .ok (updMe s fun st => { st with tsb := v })
  | 0x018 => .ok (updMe s fun st => { st with tscr0 := v })
  | _ => .ok (updMe s fun st => { st with tscr1 := v })

/-- `pivtol` accepts every finite value of at least zero, −0 included (Table 7.9). -/
def tolOk (v : Word) : Bool :=
  let x := decodeF .f32 (v.toNat % 2 ^ 32)
  x.isFin && (!x.neg || x.isZero)
/-- `pivreg` accepts a finite value above zero (Table 7.10). -/
def regOk (v : Word) : Bool :=
  let x := decodeF .f32 (v.toNat % 2 ^ 32)
  x.isFin && !x.neg && !x.isZero
/-- No level is a NaN or an infinity (06 R158). -/
def levelsOk (v : Word) : Bool := (List.range 4).all fun c => (decodeF .bf16 (v.toNat / 2 ^ (16 * c) % 2 ^ 16)).isFin
/-- `mfc.ctl` accepts the type and selectors (06 R159). -/
def mfcOk (v : Word) : Bool := decide (v.toNat % 32 ≤ 16) && decide (v.toNat / 2 ^ 13 % 16 ≠ 0)
/-- `smsel` accepts en = 1 only with an attached position (07 R181). -/
def smselOk (s : State) (v : Word) : Bool := !v.getLsbD 3 || decide (v.toNat % 8 < (attOf s s.h).length)
/-- Writes a hart register. -/
def writeHartReg (s : State) (n : Nat) (v : Word) : Except TrapInfo (List Upd) :=
  if n = 0x040 then .ok (updHart s fun h => { h with sbase := v })
  else if n = 0x041 then .ok (updHart s fun h => { h with seed := v })
  else if n = 0x042 then accept (tolOk v) n (updHart s fun h => { h with pivtol := v.setWidth 32 })
  else if n = 0x043 then accept (regOk v) n (updHart s fun h => { h with pivreg := v &&& pivMask })
  else if n = 0x044 then .ok []
  else if n = 0x045 then accept (smselOk s v) n (updHart s fun h => { h with smsel := v.setWidth 4 })
  else if n = 0x048 then accept (mfcOk v) n (updHart s fun h => { h with mfcCtl := v &&& mfcMask })
  else if n < 0x060 then accept (levelsOk v) n (updHart s fun h => { h with mfcLt := tset 0 h.mfcLt (n - 0x050) v })
  else if n < 0x070 then .ok [.hart (missHart s) fun h => { h with smiss := tset 0 h.smiss (n - 0x060) v }]
  else if privOf s s.h = 0 then .ok []
  else if (tget [] s.myHart.fifo (n - 0x070)).isEmpty then
    .ok (updHart s fun h => { h with epcfg := tset 0 h.epcfg (n - 0x070) (v &&& epMask) })
  else .error { code := 42 }

/-- A core that a scrub order holds lies in a hall of the mask. -/
def movesHeld (s : State) (moved : Nat) : Bool := s.dev.orders.any fun o => o.cores.any fun c => moved.testBit (c / 16)

/-- No context of partition p is resident: none is in the active bank, no gang member runs there, as one of an entry that has lost
V may, and every loft of its cores is empty (log entry 29). -/
def noContext (s : State) (p : Nat) : Bool :=
  !ctxActive s p && ((partCores s p).all fun c => (List.range 4).all fun t => !occupied s (4 * c + t)) && s.lofts.all fun l => partOfHall s (l.1 / 16) != some p || l.2.save.st == 5

/-- The sums and halls of R345 with partition p set to v. -/
def cfgOk (s : State) (p : Nat) (v : Word) : Bool :=
  let others := ((partsOf s).filter fun q => q.1 != p).map fun q => q.2.cfg.toNat
  let all := if v.toNat % 2 ^ 40 = 0 then others else v.toNat :: others
  let sum := fun (f : Nat → Nat) => all.foldl (fun n c => n + f c) 0
  others.all (fun c => (c % 2 ^ 40) &&& (v.toNat % 2 ^ 40) == 0)
  && decide (sum (fun c => c / 2 ^ 59 + 1) ≤ 32) && decide (sum (fun c => c / 2 ^ 51 % 256) ≤ 256)
  && decide (sum (fun c => c / 2 ^ 43 % 256) ≤ 256)

/-- A firmware write of `part.cfg` of partition p (19 R345; 22 R411, R414). -/
def writeCfg (s : State) (p : Nat) (v : Word) : Except TrapInfo (List Upd) :=
  let moved := (v.toNat ^^^ (s.part p).cfg.toNat) % 2 ^ 40
  let new := keep v 43 21 ||| keep v 0 40
  if !noContext s p || s.dev.replay != 0 || movesHeld s moved then .error partState
  else accept (cfgOk s p v) 0x200 [.part p fun q => { q with cfg := new }]

/-- PART_CFG_WRITE: strand n writes `part.cfg` of partition p; the steward view writes no field (19 R345). -/
def execPartCfgWrite (n p : Nat) (v : Word) (s : State) := readOnlyEvent s n (writeCfg s p v)

/-- Every slot of a group is idle or ended. -/
def groupIdle (s : State) (g : Nat) : Bool := s.slots.all fun t => t.1 / 128 != g || slotIdle t.2

/-- A firmware write of `stgrp` of partition p (21 R392). -/
def writeStgrp (s : State) (p : Nat) (v : Word) : Except TrapInfo (List Upd) :=
  let new := v.setWidth 32
  let old := (s.part p).stgrp
  let idle := (List.range 32).all fun g => new.getLsbD g == old.getLsbD g || groupIdle s g
  if idle && s.parts.all (fun q => q.1 == p || q.2.stgrp &&& new == 0) then .ok [.part p fun q => { q with stgrp := new }]
  else .error partState

/-- STGRP_WRITE: strand n writes `stgrp` of partition p, which is RO in the steward view (21 Table 21.4). -/
def execStgrpWrite (n p : Nat) (v : Word) (s : State) := readOnlyEvent s n (writeStgrp s p v)

/-- Writes `haltst` (20 R381). -/
def writeHaltst (s : State) (v : Word) : Except TrapInfo (List Upd) :=
  let p := partIx s s.h
  let op := v.toNat % 4
  if op = 0 ∨ op = 3 then .error (stateValue 0x203)
  else if (s.part p).halt.st ≠ 2 then .error partState
  else .ok (if op = 1 then haltResume s p else haltEnd s p)

/-- Writes `stcmd` (21 R394). -/
def writeStcmd (s : State) (v : Word) : Except TrapInfo (List Upd) :=
  let op := v.toNat / 2 ^ 62
  accept (decide (op = 1 ∨ op = 2) && decide ((s.part (partIx s s.h)).stcmds.length < 64)) 0x282
    (updPart s fun q => { q with stcmds := q.stcmds ++ [(op, v.toNat % 4096)] })

/-- Writes a partition register; the steward view writes neither `part.cfg` nor `stgrp`. -/
def writePartReg (s : State) (n : Nat) (v : Word) : Except TrapInfo (List Upd) :=
  let fw := privOf s s.h == 2
  if n = 0x200 then (if fw then writeCfg s (partIx s s.h) v else .ok [])
  else if n = 0x201 then .ok (updPart s fun q => { q with rlev := q.rlev &&& ~~~(v.setWidth 6) })
  else if n = 0x202 then accept (decide (2 ≤ v.toNat % 16) && decide (v.toNat % 16 ≤ 10)) n
    (updPart s fun q => { q with xlring := keep v 12 45 ||| keep v 0 4 })
  else if n = 0x203 then writeHaltst s v
  else if n = 0x204 then .ok (updPart s fun q => { q with stopbase := keep v 19 38 })
  else if n < 0x280 then accept (v == keep v 12 40 ||| keep v 0 1) n
    (updPart s fun q => { q with rlroot := tset 0 q.rlroot (n - 0x240) v })
  else if n = 0x280 then (if fw then writeStgrp s (partIx s s.h) v else .ok [])
  else if n = 0x281 then .ok (updPart s fun q => { q with sttab := keep v 18 39 })
  else if n = 0x282 then writeStcmd s v
  else if n = 0x284 then .ok (updPart s fun q => { q with stsel := v.toNat % 4096 })
  else .ok []

/-- Writes a register of the module: firmware only. -/
def writeDevReg (s : State) (n : Nat) (v : Word) : Except TrapInfo (List Upd) :=
  if n = 0x440 then loadKey s s.cur v
  else if n = 0x500 then .ok [.dev fun d => { d with isel := v.toNat % 1024 }]
  else if n = 0x501 then writeIsland s v
  else if n = 0x503 then accept (decide (500 ≤ v.toNat % 2 ^ 16) && decide (v.toNat % 2 ^ 16 ≤ 3400)) n
    [.dev fun d => { d with lim := v.toNat % 2 ^ 16 }]
  else if 0x508 ≤ n ∧ n < 0x510 then .ok [.dev fun d => { d with serr := tset 0 d.serr (n - 0x508) v }]
  else if n = 0x511 then writeFwctl v
  else if n = 0x513 then .ok [.dev fun d => { d with rint := d.rint &&& ~~~(v.setWidth 6) }]
  else .ok []

/-- A write of a state register by the strand that moves (R101, R102). -/
def writeReg (s : State) (n : Nat) (v : Word) : Except TrapInfo (List Upd) :=
  if noWrite (privOf s s.h) n then .error (privTrap n)
  else if steadView (privOf s s.h) n then (if v &&& steadFields n = 0 then .ok [] else .error (privTrap n))
  else if n = 0 then .ok (updMe s fun st => { st with fpf := v.setWidth 6 })
  else if n = 1 then accept (v.toNat % 8 != 0 && v.toNat % 8 != 7) n (updMe s fun st => { st with fpm := v.setWidth 3 })
  else if n < 0x010 then .ok (updMe s fun st => { st with lc := tset 0 st.lc (n - 4) v })
  else if n < 0x040 then writeTrapReg s n v
  else if n < 0x080 then writeHartReg s n v
  else if n = 0x101 then .ok [.core s.c fun c => { c with wcwait := v.toNat % 4096 }]
  else if 0x108 ≤ n ∧ n < 0x200 then
    .ok (if privOf s s.h = 0 then [] else [.core s.c fun c => { c with slots := tset 0 c.slots (n - 0x108) (v &&& slotMask) }])
  else if n < 0x200 then .ok []
  else if n < 0x400 then writePartReg s n v
  else writeDevReg s n v

/-! ### The instructions (R101 to R103) -/

/-- What stays of a refused write: the translations that the read of a key record has filled (09 R230). -/
def refusedFills (s : State) (n : Nat) (v : Word) : List Upd :=
  if n = 0x440 ∧ noWrite (privOf s s.h) n = false then keyFills s s.cur v else []

/-- GETS. -/
def execGets (o : GSo) (s : State) :=
  finish s o.form.len (issue s .both 0 [] [o.d] [] fun _ => .done (setD s.cur o.d (readReg s o.n)))

/-- SETS. -/
def execSets (o : SSo) (s : State) :=
  finish s o.form.len (issue s .both 0 [o.a] [] [] fun v =>
    match writeReg s o.n (v 0) with
    | .ok us => .done us
    | .error t => .part (refusedFills s o.n (v 0)) t)

/-- SWAPS: the old view to xd, and xa to the register. -/
def execSwaps (o : SWo) (s : State) :=
  finish s o.form.len (issue s .both 0 [o.a] [o.d] [] fun v =>
    match writeReg s o.n (v 0) with
    | .ok us => .done (us ++ setD s.cur o.d (readReg s o.n))
    | .error t => .part (refusedFills s o.n (v 0)) t)

end Sys2Proof.Machine
end

