-- ==== Sys2Proof/Machine/Mail.lean ====
section
/-! DEFINITION. Sys2Proof/Machine/Mail.lean: the mailbox unit: the records of a slot, their placement and the end of an episode
(10 R285 to R289; 21 R395 to R399). -/

namespace Sys2Proof.Machine

/-- Cells that a record takes (R397). -/
def Rec.cells (r : Rec) : Nat := (r.bytes.length + 63) / 64
/-- Free cells of a slot (R398). -/
def Slot.room (t : Slot) : Nat := 64 - cellsOf t.acts - cellsOf t.obs
/-- A record with its sequence number. -/
def Rec.withSeq (r : Rec) (n : Nat) : Rec := ⟨leBytes 4 n ++ r.bytes.drop 4⟩
/-- The policy version of an action record. -/
def Rec.ver (r : Rec) : Nat := dbl r.bytes 0 / 2 ^ 32

/-- An observation record (Table 10.12), its sequence number still to be assigned. -/
def obsRec (status reward : Nat) (payload : List Byte) : Rec :=
  ⟨leBytes 8 (status * 2 ^ 32) ++ leBytes 8 (payload.length * 2 ^ 32 + reward % 2 ^ 32) ++ payload⟩

/-- Places an observation record; its sequence number is assigned now. -/
def placeObs (r : Rec) (t : Slot) : Slot :=
  { t with obs := t.obs ++ [r.withSeq t.oseq], oseq := (t.oseq + 1) % 2 ^ 32 }
/-- Places an action record. -/
def placeAct (r : Rec) (t : Slot) : Slot :=
  { t with acts := t.acts ++ [r.withSeq t.aseq], aseq := (t.aseq + 1) % 2 ^ 32 }
/-- The device posts an observation record of its own: it waits for its placement (R396). -/
def postObs (r : Rec) (t : Slot) : Slot := { t with heldObs := t.heldObs ++ [r] }

/-- A slot whose episode is starting or running. -/
def Slot.active (t : Slot) : Bool := t.state == 1 || t.state == 2

/-- The end of an episode with an end status (R395): its action records, captured frames and waiting call are gone. -/
def endSlot (code : Nat) (t : Slot) : Slot :=
  { t with state := 3, end_ := code, acts := [], held := [], image := [], imageAt := 0, imageLen := 0, region := [], ram := [],
           cpu := {}, call := .none, step := none, runs := false }

/-! ### Placement events (R398, R399) -/

/-- The slot's version admits an action record (R399). -/
def Slot.admits (t : Slot) (r : Rec) : Bool := if t.fol then decide (t.ver ≤ r.ver) else r.ver == t.ver

/-- An action record can be placed now (R398). -/
def actFits (t : Slot) (r : Rec) : Bool := decide (r.cells + t.orsv ≤ t.room) || (t.acts.isEmpty && t.obs.isEmpty)

/-- ACTION_RECORD_PLACED: the oldest held record is placed, or answered by a status 3 record. -/
def execActionRecordPlaced (k : Nat) (s : State) : Host.Outcome State Fault Refusal :=
  event s <|
    let t := s.slot k
    match t.held with
    | [] => none
    | r :: rest =>
      if !t.active || !actFits t r then none
      else if t.admits r then
        some [.slot k fun t => placeAct r { t with held := rest, ver := if t.fol then r.ver else t.ver }]
      else some [.slot k fun t => postObs (obsRec 3 0 []) { t with held := rest }]

/-- One device record fewer stands ahead of a waiting post. -/
def Call.advance (c : Call) : Call :=
  match c with
  | .post off st (some (n + 1)) => .post off st (some n)
  | c => c

/-- A waiting post call is next. -/
def Call.isNext (c : Call) : Bool :=
  match c with
  | .post _ _ (some 0) => true
  | _ => false

/-- OBSERVATION_RECORD_PLACED: the oldest waiting record of the device is placed; records keep their order (R396). -/
def execObservationRecordPlaced (k : Nat) (s : State) : Host.Outcome State Fault Refusal :=
  event s <|
    let t := s.slot k
    match t.heldObs with
    | [] => none
    | r :: rest =>
      if t.call.isNext || decide (t.room < r.cells) then none
      else some [.slot k fun t => placeObs r { t with heldObs := rest, call := t.call.advance }]

/-! ### The policy side (R286 to R289) -/

/-- The payload length of an action record's header, where the header and the length are in order (Table 10.11). -/
def actLen (hdr : List Byte) : Option Nat :=
  let n := dbl hdr 8
  if n ≤ 4080 ∧ n % 8 = 0 then some n else none

/-- Posts an action record to a slot (R287): a slot that is idle or ended answers with a status 1 record (R395). -/
def postAct (r : Rec) (t : Slot) : Slot :=
  if t.active then { t with held := t.held ++ [r] } else postObs (obsRec 1 0 []) t

/-- The slot number of list entry i of a mailbox command: cause 8 where the partition does not own the slot. -/
def listSlot (sp : Space) (p list i : Nat) : S Nat := fun r =>
  match (engReads sp 2 (list + 2 * i)).stop r with
  | .error x => .error x
  | .ok (kb, r) => if 4096 ≤ ofLe kb ∨ !slotOwned (r.s.part p) (ofLe kb) then .error (.cause 8, r) else .ok (ofLe kb, r)

/-- The action record at an address (Table 10.11): cause 7 where its header is out of order. -/
def actAt (sp : Space) (a : Nat) : S Rec := fun r =>
  match (engReads sp 16 a).stop r with
  | .error x => .error x
  | .ok (hdr, r) =>
    match actLen hdr with
    | none => .error (.cause 7, r)
    | some len =>
      match (engReads sp len (a + 16)).stop r with
      | .error x => .error x
      | .ok (bs, r) => .ok (⟨hdr ++ bs⟩, r)

/-- An entry of a mailbox command of n entries is done, with k bytes. -/
def nextStep (c : Cmd) (n k : Nat) (r : Run) : Run :=
  r.add (.cmd c.id fun c =>
    { c.owe k with step := c.step + 1, bytes := c.bytes + k,
                   fin := if c.step + 1 < n then none else some (tokenVal 0 0 (c.bytes + k)) })

/-- The post of a STEPA's next entry (R287). -/
def stepaEntry (c : Cmd) (list n base stride : Nat) (r : Run) : Run :=
  let sp := cmdSpace r.s c
  match listSlot sp c.part list c.step r with
  | .error x => stopWith c c.bytes x
  | .ok (k, r) =>
    match actAt sp (base + c.step * stride) r with
    | .error x => stopWith c c.bytes x
    | .ok (t, r) => nextStep c n t.bytes.length (r.add (.slot k (postAct t)))

/-- The record that STEPO takes from a slot: its oldest, or the header of status 255 (R288). -/
def oldestObs (t : Slot) : List Byte :=
  match t.obs with
  | r :: _ => r.bytes
  | [] => leBytes 8 (255 * 2 ^ 32) ++ leBytes 8 0

/-- The take of a STEPO's next entry: a record leaves its mailbox only when it can be written (R288). -/
def stepoEntry (c : Cmd) (list n base stride : Nat) (r : Run) : Option Run :=
  let sp := cmdSpace r.s c
  match listSlot sp c.part list c.step r with
  | .error x => some (stopWith c c.bytes x)
  | .ok (k, r) =>
    let bs := oldestObs (r.s.slot k)
    match (engLocs sp 1 bs.length (base + c.step * stride)).stop r with
    | .error x => some (stopWith c c.bytes x)
    | .ok (ls, r) =>
      if granuleHeld r.s c (granules ls) then none else
      some (nextStep c n bs.length ((engPut sp.core ls bs r).add (.slot k fun t => { t with obs := t.obs.drop 1 })))

/-- The step-value fault. -/
def stepValue : TrapInfo := { code := 49 }

/-- The pinned episodes of partition p that hold version v (R289, R396). -/
def holders (s : State) (p v : Nat) : Nat :=
  s.slots.countP fun t => t.2.active && !t.2.fol && t.2.part == p && t.2.ver == v

/-- A version argument: no nonzero upper half and no version 0. -/
def versionOk (v : Word) : Bool := decide (v.toNat < 2 ^ 32) && v != 0

/-- EPVER (R289). -/
def execEpver (o : R2) (s : State) :=
  finish s o.form.len (issue s .access 0 [o.a] [o.d] [] fun v =>
    let p := partIx s s.h
    if !versionOk (v 0) then .trap stepValue
    else .done (.part p (fun q => { q with ver := (v 0).toNat }) :: setD s.cur o.d (BitVec.ofNat 64 (s.part p).ver)))

/-- EPRET (R289). -/
def execEpret (o : R2) (s : State) :=
  finish s o.form.len (issue s .access 0 [o.a] [o.d] [] fun v =>
    let p := partIx s s.h
    let k := (v 0).toNat
    if !versionOk (v 0) ∨ k = (s.part p).ver then .trap stepValue
    else
      let n := holders s p k
      let us : List Upd := if n = 0 then [.part p fun q => { q with retired := if q.retired.contains k then q.retired else k :: q.retired }] else []
      .done (us ++ setD s.cur o.d (BitVec.ofNat 64 n)))

end Sys2Proof.Machine
end

