-- ==== Sys2Proof/Machine/RvDecode.lean ====
section
/-! DEFINITION. Sys2Proof/Machine/RvDecode.lean: fields of RISC-V instructions and the 32-bit instruction that a compressed one stands
for (21 R386; RISC-V unprivileged ISA 20191213, chapters 2 and 16, which the spec names; log entry 35). -/

namespace Sys2Proof.Machine

/-- Bits [hi:lo] of an instruction. -/
def fld (w hi lo : Nat) : Nat := w / 2 ^ lo % 2 ^ (hi + 1 - lo)
/-- The low `n` bits of v as a signed number. -/
def sxt (v n : Nat) : Int := (BitVec.ofNat n v).toInt

/-- Immediate of format I. -/
def immI (w : Nat) : Int := sxt (fld w 31 20) 12
/-- Immediate of format S. -/
def immS (w : Nat) : Int := sxt (fld w 31 25 * 32 + fld w 11 7) 12
/-- Immediate of format B. -/
def immB (w : Nat) : Int := sxt (fld w 31 31 * 2 ^ 12 + fld w 7 7 * 2 ^ 11 + fld w 30 25 * 32 + fld w 11 8 * 2) 13
/-- Immediate of format U. -/
def immU (w : Nat) : Int := sxt (fld w 31 12 * 2 ^ 12) 32
/-- Immediate of format J. -/
def immJ (w : Nat) : Int := sxt (fld w 31 31 * 2 ^ 20 + fld w 19 12 * 2 ^ 12 + fld w 20 20 * 2 ^ 11 + fld w 30 21 * 2) 21

/-- An instruction of format R. -/
def encR (op f3 f7 rd a b : Nat) : Nat := f7 * 2 ^ 25 + b * 2 ^ 20 + a * 2 ^ 15 + f3 * 2 ^ 12 + rd * 2 ^ 7 + op
/-- An instruction of format I. -/
def encI (op f3 rd a : Nat) (imm : Int) : Nat := (imm % 2 ^ 12).toNat * 2 ^ 20 + a * 2 ^ 15 + f3 * 2 ^ 12 + rd * 2 ^ 7 + op
/-- An instruction of format S. -/
def encS (op f3 a b imm : Nat) : Nat :=
  imm / 32 % 128 * 2 ^ 25 + b * 2 ^ 20 + a * 2 ^ 15 + f3 * 2 ^ 12 + imm % 32 * 2 ^ 7 + op
/-- A branch. -/
def encB (f3 a b : Nat) (imm : Int) : Nat :=
  let i := (imm % 2 ^ 13).toNat
  i / 2 ^ 12 * 2 ^ 31 + i / 32 % 64 * 2 ^ 25 + b * 2 ^ 20 + a * 2 ^ 15 + f3 * 2 ^ 12 + i / 2 % 16 * 2 ^ 8 + i / 2 ^ 11 % 2 * 2 ^ 7 + 0x63
/-- JAL. -/
def encJ (rd : Nat) (imm : Int) : Nat :=
  let i := (imm % 2 ^ 21).toNat
  i / 2 ^ 20 * 2 ^ 31 + i / 2 % 2 ^ 10 * 2 ^ 21 + i / 2 ^ 11 % 2 * 2 ^ 20 + i / 2 ^ 12 % 256 * 2 ^ 12 + rd * 2 ^ 7 + 0x6F

/-- Offset of C.LW and C.SW. -/
def cOffW (h : Nat) : Nat := fld h 12 10 * 8 + fld h 6 6 * 4 + fld h 5 5 * 64
/-- Offset of C.LD, C.SD, C.FLD and C.FSD. -/
def cOffD (h : Nat) : Nat := fld h 12 10 * 8 + fld h 6 5 * 64
/-- The 6-bit signed immediate. -/
def cImm (h : Nat) : Int := sxt (fld h 12 12 * 32 + fld h 6 2) 6
/-- The shift amount. -/
def cShamt (h : Nat) : Nat := fld h 12 12 * 32 + fld h 6 2
/-- Offset of C.J. -/
def cJump (h : Nat) : Int :=
  sxt (fld h 12 12 * 2 ^ 11 + fld h 8 8 * 2 ^ 10 + fld h 10 9 * 2 ^ 8 + fld h 6 6 * 2 ^ 7 + fld h 7 7 * 2 ^ 6 + fld h 2 2 * 32
    + fld h 11 11 * 16 + fld h 5 3 * 2) 12
/-- Offset of C.BEQZ and C.BNEZ. -/
def cBranch (h : Nat) : Int :=
  sxt (fld h 12 12 * 256 + fld h 6 5 * 64 + fld h 2 2 * 32 + fld h 11 10 * 8 + fld h 4 3 * 2) 9

/-- Quadrant 0. -/
def expand0 (h : Nat) : Option Nat :=
  let d := 8 + fld h 4 2
  let a := 8 + fld h 9 7
  match fld h 15 13 with
  | 0 =>
    let imm := fld h 12 11 * 16 + fld h 10 7 * 64 + fld h 6 6 * 4 + fld h 5 5 * 8
    if imm = 0 then none else some (encI 0x13 0 d 2 imm)
  | 1 => some (encI 0x07 3 d a (cOffD h))
  | 2 => some (encI 0x03 2 d a (cOffW h))
  | 3 => some (encI 0x03 3 d a (cOffD h))
  | 5 => some (encS 0x27 3 a d (cOffD h))
  | 6 => some (encS 0x23 2 a d (cOffW h))
  | 7 => some (encS 0x23 3 a d (cOffD h))
  | _ => none

/-- The arithmetic row of quadrant 1. -/
def expandAlu (h : Nat) : Option Nat :=
  let d := 8 + fld h 9 7
  let b := 8 + fld h 4 2
  match fld h 11 10 with
  | 0 => some (encI 0x13 5 d d (cShamt h))
  | 1 => some (encI 0x13 5 d d (cShamt h + 0x400))
  | 2 => some (encI 0x13 7 d d (cImm h))
  | _ =>
    match fld h 12 12, fld h 6 5 with
    | 0, 0 => some (encR 0x33 0 0x20 d d b)
    | 0, 1 => some (encR 0x33 4 0 d d b)
    | 0, 2 => some (encR 0x33 6 0 d d b)
    | 0, _ => some (encR 0x33 7 0 d d b)
    | _, 0 => some (encR 0x3B 0 0x20 d d b)
    | _, 1 => some (encR 0x3B 0 0 d d b)
    | _, _ => none

/-- Quadrant 1. -/
def expand1 (h : Nat) : Option Nat :=
  let d := fld h 11 7
  match fld h 15 13 with
  | 0 => some (encI 0x13 0 d d (cImm h))
  | 1 => if d = 0 then none else some (encI 0x1B 0 d d (cImm h))
  | 2 => some (encI 0x13 0 d 0 (cImm h))
  | 3 =>
    if d = 2 then
      let imm := sxt (fld h 12 12 * 512 + fld h 4 3 * 128 + fld h 5 5 * 64 + fld h 2 2 * 32 + fld h 6 6 * 16) 10
      if imm = 0 then none else some (encI 0x13 0 2 2 imm)
    else if cImm h = 0 then none
    else some ((cImm h % 2 ^ 20).toNat * 2 ^ 12 + d * 2 ^ 7 + 0x37)
  | 4 => expandAlu h
  | 5 => some (encJ 0 (cJump h))
  | 6 => some (encB 0 (8 + fld h 9 7) 0 (cBranch h))
  | _ => some (encB 1 (8 + fld h 9 7) 0 (cBranch h))

/-- Quadrant 2. -/
def expand2 (h : Nat) : Option Nat :=
  let d := fld h 11 7
  let b := fld h 6 2
  match fld h 15 13 with
  | 0 => some (encI 0x13 1 d d (cShamt h))
  | 1 => some (encI 0x07 3 d 2 (fld h 12 12 * 32 + fld h 6 5 * 8 + fld h 4 2 * 64))
  | 2 => if d = 0 then none else some (encI 0x03 2 d 2 (fld h 12 12 * 32 + fld h 6 4 * 4 + fld h 3 2 * 64))
  | 3 => if d = 0 then none else some (encI 0x03 3 d 2 (fld h 12 12 * 32 + fld h 6 5 * 8 + fld h 4 2 * 64))
  | 4 =>
    if fld h 12 12 = 0 then
      if b = 0 then (if d = 0 then none else some (encI 0x67 0 0 d 0)) else some (encR 0x33 0 0 d 0 b)
    else if b = 0 then (if d = 0 then some 0x00100073 else some (encI 0x67 0 1 d 0))
    else some (encR 0x33 0 0 d d b)
  | 5 => some (encS 0x27 3 2 b (fld h 12 10 * 8 + fld h 9 7 * 64))
  | 6 => some (encS 0x23 2 2 b (fld h 12 9 * 4 + fld h 8 7 * 64))
  | _ => some (encS 0x23 3 2 b (fld h 12 10 * 8 + fld h 9 7 * 64))

/-- The instruction that a halfword stands for, none for a reserved one. -/
def rvExpand (h : Nat) : Option Nat :=
  match h % 4 with
  | 0 => expand0 h
  | 1 => expand1 h
  | 2 => expand2 h
  | _ => none

end Sys2Proof.Machine
end

