-- ==== Sys2Proof/Machine/RvHart.lean ====
section
/-! DEFINITION. Sys2Proof/Machine/RvHart.lean: the privileged side of a croft core's hart (21 R386, R387, R389): machine and user
mode, trap entry and MRET, the machine-mode CSRs and the PMP, as the RISC-V privileged architecture 20211203 gives them (log
entry 35). The monitor's own instructions are those of an image that the spec does not give; what they do to an episode is
in the calls. -/

namespace Sys2Proof.Machine

/-- An exception that an instruction may raise: the mcause and the mtval values that the RISC-V privileged architecture leaves a
core to choose from. -/
abbrev RvExc := List (Nat × List Nat)

/-- An exception with an address, or zero, in mtval. -/
def excAt (cause a : Nat) : RvExc := [(cause, [a, 0])]
/-- The illegal-instruction exception. -/
def excIllegal (w : Nat) : RvExc := excAt 2 w

/-- The hart of croft core c. -/
def State.croft (s : State) (c : Nat) : Croft := tget {} s.dev.crofts c
/-- FS is Off: float instructions and `fcsr` are illegal (R386). -/
def Croft.floatsOff (h : Croft) : Bool := h.mstatus.toNat / 2 ^ 13 % 4 == 0
/-- The hart as its loads and stores see it: with MPRV set, machine mode accesses data in the mode of MPP. -/
def Croft.forData (h : Croft) : Croft :=
  if !h.user && h.mstatus.getLsbD 17 then { h with user := h.mstatus.toNat / 2 ^ 11 % 4 == 0 } else h
/-- Changes the hart of croft core c. -/
def updCroft (c : Nat) (f : Croft → Croft) : Upd := .dev fun d => { d with crofts := tset {} d.crofts c (f (tget {} d.crofts c)) }

/-! ### Modes -/

/-- `mstatus` with MIE, MPIE and MPP replaced. -/
def setStatus (v : Word) (mie mpie : Bool) (mpp : Nat) : Word :=
  v &&& ~~~0x1888 ||| BitVec.ofNat 64 (mie.toNat * 8 + mpie.toNat * 2 ^ 7 + mpp * 2 ^ 11)

/-- Trap entry into machine mode from an instruction at pc: the hart goes on at the base of `mtvec`, an exception in either mode
of it. -/
def Croft.trap (cause tval : Nat) (pc : Word) (h : Croft) : Croft :=
  { h with user := false, pc := h.mtvec &&& ~~~3, mepc := pc, mcause := BitVec.ofNat 64 cause, mtval := BitVec.ofNat 64 tval,
           mstatus := setStatus h.mstatus false (h.mstatus.getLsbD 3) (if h.user then 0 else 3) }

/-- MRET: the mode of MPP and the pc of `mepc`, with MIE from MPIE; MPRV ends on the way to user mode. -/
def Croft.mret (h : Croft) : Croft :=
  let user := decide (h.mstatus.toNat / 2 ^ 11 % 4 = 0)
  let v := setStatus h.mstatus (h.mstatus.getLsbD 7) true 0
  { h with user := user, pc := h.mepc, mstatus := if user then v &&& ~~~0x20000 else v }

/-! ### PMP -/

/-- The number of low one bits of a number, up to a limit. -/
def lowOnes : Nat → Nat → Nat
  | 0, _ => 0
  | n + 1, a => if a % 2 = 1 then lowOnes n (a / 2) + 1 else 0

/-- The bytes [lo, hi) that PMP entry i covers: none, those from the address before to its own (TOR), four, or a power of two. -/
def pmpRange (h : Croft) (i : Nat) : Nat × Nat :=
  let e := h.pmp.getD i (0, 0)
  let a := e.2.toNat % 2 ^ 54
  match e.1.toNat / 8 % 4 with
  | 0 => (0, 0)
  | 1 => (if i = 0 then 0 else 4 * ((h.pmp.getD (i - 1) (0, 0)).2.toNat % 2 ^ 54), 4 * a)
  | 2 => (4 * a, 4 * a + 4)
  | _ =>
    let z := 2 ^ (lowOnes 54 a + 3)
    (4 * a / z * z, 4 * a / z * z + z)

/-- An access of n bytes at a, with its permission bit (1 read, 2 write, 4 execute), passes the PMP: the first entry that covers
any of its bytes covers them all and grants it; where none does, machine mode alone may go on. -/
def pmpAllows (h : Croft) (perm a n : Nat) : Bool :=
  match (List.range 16).find? fun i => decide (a < (pmpRange h i).2) && decide ((pmpRange h i).1 < a + n)
      && decide ((pmpRange h i).1 < (pmpRange h i).2) with
  | none => !h.user
  | some i =>
    let cfg := (h.pmp.getD i (0, 0)).1.toNat
    decide ((pmpRange h i).1 ≤ a) && decide (a + n ≤ (pmpRange h i).2)
    && ((!h.user && decide (cfg < 128)) || decide (cfg / perm % 2 = 1))

/-- The PMP entries that the monitor sets for a region of a size (R389, Table 21.2): entry 0 the local partition with every
permission, entries 1 and 2 the region with read and write (which entries it takes is a DESIGN CHOICE, log entry 35). -/
def episodePmp (size : Nat) : List (BitVec 8 × Word) :=
  [(0x1F, 0x1FFF), (0, 0x40000000), (0x0B, BitVec.ofNat 64 (2 ^ 30 + size / 4))] ++ List.replicate 13 (0, 0)

/-- The monitor hands the hart to slot k: into user mode with FS on and the counters readable (R386, R388, R390). -/
def Croft.enter (k size : Nat) (pc : Word) (h : Croft) : Croft :=
  Croft.mret { h with last := k % 16, pmp := episodePmp size, mepc := pc, mcounteren := 7,
                      mstatus := setStatus (h.mstatus ||| 0x6000) false false 0 }

/-! ### CSRs -/

/-- The cycles that the core of croft core c has counted, in its own clock (R386). -/
def croftCycles (s : State) (c : Nat) : Word :=
  BitVec.ofNat 64 ((s.dev.island (960 + c / 8)).count s.ns / 1000) + (s.croft c).cycOff

/-- `misa`: RV64IMAFDC with user mode. -/
def misa : Word := 0x8000000000000000 ||| BitVec.ofNat 64 (2 ^ 20 + 2 ^ 12 + 2 ^ 8 + 2 ^ 5 + 2 ^ 3 + 2 ^ 2 + 1)

/-- `pmpcfg` k: the configuration bytes of eight entries. -/
def pmpCfg (h : Croft) (k : Nat) : Word :=
  BitVec.ofNat 64 (ofLe ((List.range 8).map fun i => (h.pmp.getD (8 * k + i) (0, 0)).1))

/-- `mstatus` as it is read: SD follows a dirty FS. -/
def statusSeen (v : Word) : Word := if v.getLsbD 13 && v.getLsbD 14 then v ||| 0x8000000000000000 else v

/-- A machine-mode CSR of croft core c. No interrupt reaches the core, and `mie` and `mip` read zero, as do `menvcfg`, whose
fields all belong to parts that the core lacks, and `mconfigptr`. -/
def machineCsr (s : State) (c n : Nat) : Option Word :=
  let h := s.croft c
  if n = 0x300 then some (statusSeen h.mstatus)
  else if n = 0x301 then some misa
  else if n = 0x304 ∨ n = 0x344 ∨ n = 0x30A ∨ n = 0xF15 then some 0
  else if n = 0x305 then some h.mtvec
  else if n = 0x306 then some (h.mcounteren.setWidth 64)
  else if n = 0x340 then some h.mscratch
  else if n = 0x341 then some h.mepc
  else if n = 0x342 then some h.mcause
  else if n = 0x343 then some h.mtval
  else if n = 0x3A0 then some (pmpCfg h 0)
  else if n = 0x3A2 then some (pmpCfg h 1)
  else if 0x3B0 ≤ n ∧ n < 0x3C0 then some (h.pmp.getD (n - 0x3B0) (0, 0)).2
  else if n = 0xB00 then some (croftCycles s c)
  else if n = 0xB02 then some h.instret
  else if 0xF11 ≤ n ∧ n ≤ 0xF13 then some 0
  else if n = 0xF14 then some (BitVec.ofNat 64 c)
  else none

/-- PMP entry i is locked: by its own L, or as the base of a locked TOR entry. -/
def pmpLocked (h : Croft) (i : Nat) (addr : Bool) : Bool :=
  let cfg := fun (j : Nat) => (h.pmp.getD j (0, 0)).1.toNat
  decide (128 ≤ cfg i) || (addr && decide (128 ≤ cfg (i + 1)) && decide (cfg (i + 1) / 8 % 4 = 1))

/-- The hart after machine mode has written a CSR; the fields that RISC-V lets only legal values into keep one. A written
`minstret` is what the counter holds once the write itself has retired. -/
def setMachineCsr (s : State) (c n : Nat) (v : Word) (h : Croft) : Croft :=
  if n = 0x300 then { h with mstatus := (v &&& 0x26088) ||| 0x200000000 ||| (if v.getLsbD 11 && v.getLsbD 12 then 0x1800 else 0) }
  else if n = 0x305 then { h with mtvec := v &&& ~~~2 }
  else if n = 0x306 then { h with mcounteren := v.setWidth 3 }
  else if n = 0x340 then { h with mscratch := v }
  else if n = 0x341 then { h with mepc := v &&& ~~~1 }
  else if n = 0x342 then { h with mcause := v }
  else if n = 0x343 then { h with mtval := v }
  else if n = 0x3A0 ∨ n = 0x3A2 then
    let k := 4 * (n - 0x3A0)
    { h with pmp := (List.range 16).map fun i =>
        let e := h.pmp.getD i (0, 0)
        let b : BitVec 8 := BitVec.ofNat 8 (v.toNat / 256 ^ (i - k))
        if k ≤ i ∧ i < k + 8 ∧ !pmpLocked h i false ∧ b.toNat % 4 ≠ 2 then (b &&& 0x9F, e.2) else e }
  else if 0x3B0 ≤ n ∧ n < 0x3C0 then
    { h with pmp := (List.range 16).map fun i =>
        let e := h.pmp.getD i (0, 0)
        if i = n - 0x3B0 ∧ !pmpLocked h i true then (e.1, v &&& 0x3FFFFFFFFFFFFF) else e }
  else if n = 0xB00 then { h with cycOff := h.cycOff + (v - croftCycles s c) }
  else if n = 0xB02 then { h with instret := v - 1 }
  else h

/-- The monitor has the hart of slot k back, where the slot still had it: in machine mode, at a place in the monitor that the spec does
not give (log entry 35). -/
def takeBack (s : State) (k : Nat) : List Upd :=
  if (s.slot k).runs && (s.croft (k / 16)).user then
    [updCroft (k / 16) fun h => { h with user := false, pc := Config.freeWord s.free }, .tick]
  else []

/-- The counters that user code can read (Table 21.1), where `mcounteren` or machine mode admits them. -/
def counterCsr (s : State) (c n : Nat) : Option Word :=
  let h := s.croft c
  if n < 0xC00 ∨ 0xC02 < n ∨ (h.user ∧ !h.mcounteren.getLsbD (n - 0xC00)) then none
  else if n = 0xC00 then some (croftCycles s c)
  else if n = 0xC01 then some s.gtc
  else some h.instret

end Sys2Proof.Machine
end

