-- ==== Sys2Proof/Machine/Steading.lean ====
section
/-! DEFINITION. Sys2Proof/Machine/Steading.lean: the steward's commands and the start of an episode (21 R390 to R395). -/

namespace Sys2Proof.Machine

/-- An episode table entry (21 Table 21.7). -/
structure EpEnt where
  orsv : Nat
  fol : Bool
  image : Nat
  ilen : Nat
  region : Nat
  size : Nat
  budget : Nat
  wall : Nat
deriving DecidableEq, Repr

/-- The entry of 64 bytes, where it is in order. -/
def epEntOf (bs : List Byte) : Option EpEnt :=
  let d := fun (k : Nat) => dbl bs (8 * k)
  let orsv := d 0 % 64
  let fol := (d 0).testBit 8
  if d 0 = orsv + fol.toNat * 256 ∧ d 1 % 8 = 0 ∧ 8 ≤ d 2 ∧ d 2 ≤ 65536 ∧ d 2 % 8 = 0 ∧ d 3 % 4096 = 0
      ∧ d 4 % 4096 = 0 ∧ d 4 ≤ 2 ^ 26 ∧ d 5 < 2 ^ 48 ∧ d 6 < 2 ^ 32 ∧ d 7 = 0 then
    some ⟨orsv, fol, d 1, d 2, d 3, d 4, d 5, d 6⟩
  else none

/-- Why a start cannot be made: an error of Table 21.9, or the trap of an uncorrectable data error. -/
abbrev StartErr := Except TrapInfo Nat

/-- The failure of an access at a start. -/
def startErr (t : TrapInfo) : StartErr := if t.code = 54 then .error t else .ok 5

/-- Captures the pages at n page addresses from va on (R393): physical address and key slot of each, or an error where a page
cannot be read, or is no page of the region's kind. -/
def capture (sp : Space) (region : Bool) : Nat → Nat → Run → Except (StartErr × Run) (List (Nat × Option Nat) × Run)
  | 0, _, r => .ok ([], r)
  | n + 1, va, r =>
    match translate r sp (va % 2 ^ 64) 0 with
    | .error e => .error (startErr (xlTrap e.1 (BitVec.ofNat 64 va) 0), e.2)
    | .ok (x, r) =>
      match x.loc, (if region then (translate r sp (va % 2 ^ 64) 1).toOption.isSome else true) with
      | .mem _ pa ks, true =>
        if region && (x.cp != 0 || x.zc || !isDevPa pa) then .error (.ok 5, r) else
        match capture sp region n (va + 4096) r with
        | .error e => .error e
        | .ok p => .ok ((pa, ks) :: p.1, p.2)
      | _, _ => .error (.ok 5, r)

/-- The command at the head of a partition's queue is processed. -/
def takeCommand (p : Nat) : Upd := .part p fun q => { q with stcmds := q.stcmds.drop 1 }

/-- The command is refused with an error (Table 21.9). -/
def refuseCommand (p k err : Nat) : List Upd := [takeCommand p, .part p fun q => { q with sterr := err, steslot := k }]

/-- The slot of a started episode (Table 21.12). -/
def startedSlot (p ver : Nat) (e : EpEnt) (image region : List (Nat × Option Nat)) : Slot :=
  { state := 1, fol := e.fol, ver := if e.fol then 0 else ver, orsv := e.orsv, budget := e.budget, wall := e.wall, part := p,
    image := image, imageAt := e.image % 4096, imageLen := e.ilen, region := region }

/-- Reads the table entry of a slot and captures its pages: the new slot, or the error. -/
def readEpisode (s : State) (p k : Nat) : Except (StartErr × Run) (Slot × Run) :=
  let q := s.part p
  let sp := stewardSpace s p
  match loadBytesM sp none (q.sttab.toNat + 64 * k) 64 (Run.start s) with
  | .error e => .error (startErr e.1, e.2)
  | .ok (bs, r) =>
    match epEntOf bs with
    | none => .error (.ok 4, r)
    | some e =>
      match capture sp false ((e.image % 4096 + e.ilen + 4095) / 4096) (e.image / 4096 * 4096) r with
      | .error x => .error x
      | .ok (im, r) =>
        match capture sp true (e.size / 4096) e.region r with
        | .error x => .error x
        | .ok (rg, r) => .ok (startedSlot p q.ver e im rg, r)

/-- The halt line of partition p rises for an uncorrectable error that the Steading met; its source is the mailbox unit, and k is
the slot (20 R378; 24 R424; log entry 127). -/
def steadingError (s : State) (p k : Nat) (t : TrapInfo) : List Upd := engineFatal s p 6576 t (BitVec.ofNat 64 k)

/-- EPISODE_START: the mailbox unit processes a start command (R393 to R395). A command whose reads meet an uncorrectable error
stays queued. -/
def execEpisodeStart (p : Nat) (s : State) : Host.Outcome State Fault Refusal :=
  event s <|
    let q := s.part p
    match q.stcmds with
    | (1, k) :: _ =>
      if !slotOwned q k then some (refuseCommand p k 1)
      else if (s.slot k).active then some (refuseCommand p k 2)
      else
        match readEpisode s p k with
        | .error (.ok e, r) => some (r.kept ++ refuseCommand p k e)
        | .error (.error t, r) => some (r.kept ++ steadingError s p k t)
        | .ok (t, r) => some (r.out ++ [takeCommand p, .slot k fun _ => t])
    | _ => none

/-- EPISODE_END_COMMAND: the mailbox unit processes an end command; the episode ends and the device posts a status 1
record. -/
def execEpisodeEndCommand (p : Nat) (s : State) : Host.Outcome State Fault Refusal :=
  event s <|
    let q := s.part p
    match q.stcmds with
    | (2, k) :: _ =>
      if !slotOwned q k then some (refuseCommand p k 1)
      else if !(s.slot k).active then some (refuseCommand p k 3)
      else some (takeCommand p :: takeBack s k ++ [.slot k fun t => postObs (obsRec 1 0 []) (endSlot 1 t)])
    | _ => none

/-- Byte i of an image whose pages were captured; one whose key slot has gone cannot be read, and gives a free value (22 R409; log
entry 108). -/
def imageByte (s : State) (t : Slot) (i : Nat) : Byte :=
  let a := t.imageAt + i
  match t.image[a / 4096]? with
  | some (pa, ks) => if ks = some 64 then Config.freeByte s.free i else homeByte s ks (pa + a % 4096)
  | none => 0

/-- The uncorrectable error that the image of a slot meets. -/
def imageBad (s : State) (t : Slot) : Option Nat :=
  (List.range t.image.length).findSome? fun j =>
    let lo := max t.imageAt (4096 * j)
    let hi := min (t.imageAt + t.imageLen) (4096 * (j + 1))
    match t.image[j]? with
    | some (pa, ks) => if ks = some 64 then none else badIn s (.mem 0 (pa + lo % 4096) ks) (hi - lo)
    | none => none

/-- IMAGE_COPY_DONE: local partition and region are zeroed, the image is copied, and the episode runs at address 0 (R390). Frames
whose key slot has gone take no write (22 R409). An uncorrectable error in the image raises the halt line, and the copy is made
again. -/
def execImageCopyDone (k : Nat) (s : State) : Host.Outcome State Fault Refusal :=
  event s <|
    let t := s.slot k
    if t.state ≠ 1 then none
    else if let some b := imageBad s t then some (steadingError s t.part k (badData b (BitVec.ofNat 64 b) 0)) else
    let r := (t.region.filter fun f => f.2 != some 64).foldl (fun r f => putHome r f.2 f.1 (List.replicate 4096 0)) (Run.start s)
    let ram := (List.range t.imageLen).filterMap fun i =>
      let b := imageByte r.s t i
      if b = 0 then none else some (i, b)
    some ((r.add (.slot k fun t => { t with state := 2, ram := ram, cpu := { x := [(2, 0x10000)] } })).add .tick).out

end Sys2Proof.Machine
end

