-- ==== Sys2Proof/Machine/Croft.lean ====
section
/-! DEFINITION. Sys2Proof/Machine/Croft.lean: execution on a croft core and the episode's calls (21 R386 to R391, R397 to R400):
RV64IMAFDC with Zicsr, Zifencei and Zicntr, whose instructions the spec takes from the RISC-V unprivileged ISA 20191213
and the exceptions from the privileged architecture 20211203 (log entry 35). -/

namespace Sys2Proof.Machine

/-! ### Memory (R389, R390) -/

/-- Where an address of an episode lies: in the local partition, or in a captured frame. -/
inductive RvLoc where
  | ram (off : Nat)
  | frame (pa : Nat) (ks : Option Nat)
deriving DecidableEq, Repr

/-- The place of n bytes at an address (Table 21.2) in slot t of a hart whose PMP lets the access pass; a captured frame whose
key is gone fails (22 R409). -/
def rvPlace (h : Croft) (t : Slot) (perm a n : Nat) : Option RvLoc :=
  if !pmpAllows h perm a n then none
  else if a + n ≤ 0x10000 then some (.ram a)
  else if 2 ^ 32 ≤ a then
    match t.region[(a - 2 ^ 32) / 4096]? with
    | some (pa, ks) => if ks = some 64 then none else some (.frame (pa + (a - 2 ^ 32) % 4096) ks)
    | none => none
  else none

/-- A data access of n bytes: its place, or its exception: misaligned wherever its address is (Table 21.1), else an access
fault. -/
def rvAccess (h : Croft) (t : Slot) (store : Bool) (a n : Nat) : Except RvExc RvLoc :=
  if a % n ≠ 0 then .error (excAt (if store then 6 else 4) a) else
  match rvPlace h.forData t (if store then 2 else 1) a n with
  | some l => .ok l
  | none => .error (excAt (if store then 7 else 5) a)

/-- Bytes at a place as a number. -/
def rvRead (s : State) (t : Slot) (l : RvLoc) (n : Nat) : Nat :=
  ofLe ((List.range n).map fun i =>
    match l with
    | .ram off => tget 0 t.ram (off + i)
    | .frame pa ks => homeByte s ks (pa + i))

/-- The double that a reservation names: a device address, or a place in the local partition. -/
def rvResv (l : RvLoc) : Nat :=
  match l with
  | .ram off => 2 ^ 60 + off
  | .frame pa _ => pa

/-- Writes bytes at a place of slot k. -/
def rvWrite (k : Nat) (l : RvLoc) (bs : List Byte) (r : Run) : Run :=
  match l with
  | .ram off => r.add (.slot k fun t => { t with ram := tsetAll 0 t.ram ((List.range bs.length).map fun i => (off + i, byteAt bs i)) })
  | .frame pa ks => putHome r ks pa bs

/-! ### Effects -/

/-- What an instruction does. -/
structure RvEff where
  pc : Word
  rd : Option (Nat × Word) := none
  fd : Option (Nat × Word) := none
  store : Option (RvLoc × List Byte) := none
  flags : Nat := 0
  fcsr : Option (BitVec 8) := none
  hart : Option Croft := none
  resv : Option (Option Nat) := none

/-- An integer register. -/
def Rv.get (c : Rv) (r : Nat) : Word := if r = 0 then 0 else tget 0 c.x r
/-- A float register. -/
def Rv.fget (c : Rv) (r : Nat) : Word := tget 0 c.f r
/-- A binary32 operand: a value that is not NaN-boxed is the canonical NaN. -/
def Rv.fgetS (c : Rv) (r : Nat) : Nat :=
  let v := (c.fget r).toNat
  if v / 2 ^ 32 = 2 ^ 32 - 1 then v % 2 ^ 32 else rvS.canon
/-- An operand of a format. -/
def Rv.fop (c : Rv) (f : RvFmt) (r : Nat) : Nat := if f = rvS then c.fgetS r else (c.fget r).toNat
/-- A result of a format, NaN-boxed. -/
def rvBox (f : RvFmt) (v : Nat) : Word := BitVec.ofNat 64 (if f = rvS then (2 ^ 32 - 1) * 2 ^ 32 + v % 2 ^ 32 else v)
/-- The low 32 bits, sign-extended. -/
def sext32 (v : Nat) : Word := BitVec.ofInt 64 (sxt v 32)

/-- A CSR as the hart of croft core h can read it in its mode: the float registers, the counters, and in machine mode the
others (Table 21.1). -/
def rvCsr (s : State) (h : Nat) (c : Rv) (n : Nat) : Option Word :=
  let float := fun (v : Word) => if (s.croft h).floatsOff then none else some v
  match n with
  | 1 => float (BitVec.ofNat 64 (c.fcsr.toNat % 32))
  | 2 => float (BitVec.ofNat 64 (c.fcsr.toNat / 32))
  | 3 => float (c.fcsr.setWidth 64)
  | _ =>
    match counterCsr s h n with
    | some v => some v
    | none => if (s.croft h).user then none else machineCsr s h n

/-- `fcsr` after a write of one of its three views. -/
def rvCsrSet (c : Rv) (n : Nat) (v : Nat) : BitVec 8 :=
  match n with
  | 1 => BitVec.ofNat 8 (c.fcsr.toNat / 32 * 32 + v % 32)
  | 2 => BitVec.ofNat 8 (c.fcsr.toNat % 32 + v % 8 * 32)
  | _ => BitVec.ofNat 8 v

/-- A write of a CSR: `fcsr` in the episode's registers, or one of the hart's. -/
def rvCsrWrite (s : State) (h : Nat) (c : Rv) (n : Nat) (v : Word) (e : RvEff) : RvEff :=
  if n ≤ 3 then { e with fcsr := some (rvCsrSet c n v.toNat) } else { e with hart := some (setMachineCsr s h n v (s.croft h)) }

/-- The SYSTEM instructions: WFI, MRET in machine mode, and the CSR instructions (Zicsr), whose operand is a register or a
5-bit immediate. CSR numbers from 0xC00 on are read-only. -/
def rvSystem (s : State) (h : Nat) (c : Rv) (w : Nat) (next : Word) : Except RvExc RvEff :=
  let f3 := fld w 14 12
  let n := fld w 31 20
  let a := fld w 19 15
  if f3 = 0 then
    if w = 0x10500073 then .ok { pc := next }
    else if w = 0x30200073 ∧ !(s.croft h).user then .ok { pc := (s.croft h).mepc, hart := some (s.croft h).mret }
    else .error (excIllegal w)
  else if f3 = 4 then .error (excIllegal w)
  else
    match rvCsr s h c n with
    | none => .error (excIllegal w)
    | some old =>
      let x := if f3 < 4 then c.get a else BitVec.ofNat 64 a
      let writes := f3 % 4 = 1 ∨ a ≠ 0
      if writes ∧ 0xC00 ≤ n then .error (excIllegal w) else
      let new := match f3 % 4 with | 1 => x | 2 => old ||| x | _ => old &&& ~~~x
      let e : RvEff := { pc := next, rd := some (fld w 11 7, old) }
      .ok (if writes then rvCsrWrite s h c n new e else e)

/-- Quotient and remainder of M, for signed or unsigned numbers of a width. -/
def rvDivRem (signed rem : Bool) (n a b : Nat) : Nat :=
  if b % 2 ^ n = 0 then (if rem then a % 2 ^ n else 2 ^ n - 1)
  else if signed then
    let x := sxt a n
    let y := sxt b n
    ((if rem then x.tmod y else x.tdiv y) % (2 ^ n : Int)).toNat
  else if rem then a % 2 ^ n % (b % 2 ^ n) else a % 2 ^ n / (b % 2 ^ n)

/-- An operation of opcodes 0x33 and 0x13 on 64 bits; none for an undefined one. -/
def rvOp (f7 f3 : Nat) (a b : Word) : Option Word :=
  match f7, f3 with
  | 0, 0 => some (a + b)
  | 0, 1 => some (a <<< (b.toNat % 64))
  | 0, 2 => some (if a.toInt < b.toInt then 1 else 0)
  | 0, 3 => some (if a.toNat < b.toNat then 1 else 0)
  | 0, 4 => some (a ^^^ b)
  | 0, 5 => some (a >>> (b.toNat % 64))
  | 0, 6 => some (a ||| b)
  | 0, 7 => some (a &&& b)
  | 0x20, 0 => some (a - b)
  | 0x20, 5 => some (a.sshiftRight (b.toNat % 64))
  | 1, 0 => some (a * b)
  | 1, 1 => some (BitVec.ofInt 64 (a.toInt * b.toInt / 2 ^ 64))
  | 1, 2 => some (BitVec.ofInt 64 (a.toInt * b.toNat / 2 ^ 64))
  | 1, 3 => some (BitVec.ofNat 64 (a.toNat * b.toNat / 2 ^ 64))
  | 1, 4 => some (BitVec.ofNat 64 (rvDivRem true false 64 a.toNat b.toNat))
  | 1, 5 => some (BitVec.ofNat 64 (rvDivRem false false 64 a.toNat b.toNat))
  | 1, 6 => some (BitVec.ofNat 64 (rvDivRem true true 64 a.toNat b.toNat))
  | 1, 7 => some (BitVec.ofNat 64 (rvDivRem false true 64 a.toNat b.toNat))
  | _, _ => none

/-- An operation of opcodes 0x3B and 0x1B on the low 32 bits. -/
def rvOp32 (f7 f3 : Nat) (a b : Word) : Option Word :=
  let x := a.toNat % 2 ^ 32
  let y := b.toNat % 2 ^ 32
  match f7, f3 with
  | 0, 0 => some (sext32 (x + y))
  | 0, 1 => some (sext32 (x * 2 ^ (y % 32)))
  | 0, 5 => some (sext32 (x / 2 ^ (y % 32)))
  | 0x20, 0 => some (sext32 (x + 2 ^ 32 - y))
  | 0x20, 5 => some (BitVec.ofInt 64 (sxt x 32 / 2 ^ (y % 32)))
  | 1, 0 => some (sext32 (x * y))
  | 1, 4 => some (sext32 (rvDivRem true false 32 x y))
  | 1, 5 => some (sext32 (rvDivRem false false 32 x y))
  | 1, 6 => some (sext32 (rvDivRem true true 32 x y))
  | 1, 7 => some (sext32 (rvDivRem false true 32 x y))
  | _, _ => none

/-- The value of a load by funct3. -/
def rvLoadVal (f3 v : Nat) : Word :=
  if f3 < 4 then BitVec.ofInt 64 (sxt v (8 * 2 ^ f3)) else BitVec.ofNat 64 v

/-- The result of an AMO; none for an undefined one. -/
def rvAmo (f5 n : Nat) (old b : Nat) : Option Nat :=
  let x := sxt old (8 * n)
  let y := sxt b (8 * n)
  let bn := b % 2 ^ (8 * n)
  match f5 with
  | 0 => some (old + bn)
  | 1 => some bn
  | 4 => some (old ^^^ bn)
  | 8 => some (old ||| bn)
  | 12 => some (old &&& bn)
  | 16 => some (if y < x then bn else old)
  | 20 => some (if x < y then bn else old)
  | 24 => some (min old bn)
  | 28 => some (max old bn)
  | _ => none

/-- LR, SC and the AMOs: a reservation covers one aligned double, and an SC succeeds exactly while it holds (log entry 36). -/
def rvAtomic (s : State) (h : Nat) (t : Slot) (w : Nat) (next : Word) : Except RvExc RvEff :=
  let c := t.cpu
  let f3 := fld w 14 12
  let f5 := fld w 31 27
  let rd := fld w 11 7
  let n := 2 ^ f3
  let a := (c.get (fld w 19 15)).toNat
  let b := (c.get (fld w 24 20)).toNat
  if f3 ≠ 2 ∧ f3 ≠ 3 then .error (excIllegal w)
  else if f5 = 2 then
    if fld w 24 20 ≠ 0 then .error (excIllegal w) else
    match rvAccess (s.croft h) t false a n with
    | .error e => .error e
    | .ok l => .ok { pc := next, rd := some (rd, rvLoadVal f3 (rvRead s t l n)), resv := some (some (rvResv l)) }
  else if f5 = 3 then
    match rvAccess (s.croft h) t true a n with
    | .error e => .error e
    | .ok l =>
      let hit := match c.resv with | some q => q / 8 == rvResv l / 8 | none => false
      .ok { pc := next, rd := some (rd, if hit then 0 else 1), store := if hit then some (l, leBytes n b) else none, resv := some none }
  else
    match rvAmo f5 n 0 b with
    | none => .error (excIllegal w)
    | some _ =>
      match rvAccess (s.croft h) t true a n with
      | .error e => .error e
      | .ok l =>
        let old := rvRead s t l n
        .ok { pc := next, rd := some (rd, rvLoadVal f3 old), store := (rvAmo f5 n old b).map fun v => (l, leBytes n v) }

/-- The rounding mode of a float instruction: its own, or that of `fcsr`; none for a reserved one. -/
def rvMode (c : Rv) (w : Nat) : Option Nat :=
  let rm := fld w 14 12
  let rm := if rm = 7 then c.fcsr.toNat / 32 else rm
  if rm ≤ 4 then some rm else none

/-- The integer ranges of FCVT: W, WU, L, LU. -/
def rvRange (k : Nat) : Int × Int :=
  match k with
  | 0 => (-(2 ^ 31), 2 ^ 31 - 1)
  | 1 => (0, 2 ^ 32 - 1)
  | 2 => (-(2 ^ 63), 2 ^ 63 - 1)
  | _ => (0, 2 ^ 64 - 1)

/-- The integer operand of FCVT to a float. -/
def rvIntOf (k : Nat) (v : Word) : Int :=
  match k with
  | 0 => sxt v.toNat 32
  | 1 => v.toNat % 2 ^ 32
  | 2 => v.toInt
  | _ => v.toNat

/-- The format of a float instruction; none for one that the core lacks. -/
def rvFmtOf (k : Nat) : Option RvFmt := match k with | 0 => some rvS | 1 => some rvD | _ => none

/-- The sign-injected code (funct3 0, 1, 2). -/
def rvInject (f : RvFmt) (k a b : Nat) : Option Nat :=
  match k with
  | 0 => some (f.signed (f.sign b) (f.mag a))
  | 1 => some (f.signed (!f.sign b) (f.mag a))
  | 2 => some (f.signed (f.sign a != f.sign b) (f.mag a))
  | _ => none

/-- OP-FP. -/
def rvFloat (c : Rv) (w : Nat) (next : Word) : Except RvExc RvEff :=
  let rd := fld w 11 7
  let f3 := fld w 14 12
  let rs2 := fld w 24 20
  let ill : Except RvExc RvEff := .error (excIllegal w)
  match rvFmtOf (fld w 26 25) with
  | none => ill
  | some f =>
    let a := c.fop f (fld w 19 15)
    let b := c.fop f rs2
    let fres := fun (x : Nat × Nat) => (.ok { pc := next, fd := some (rd, rvBox f x.1), flags := x.2 } : Except RvExc RvEff)
    let ires := fun (x : Word) (fl : Nat) => (.ok { pc := next, rd := some (rd, x), flags := fl } : Except RvExc RvEff)
    let round := fun (k : Nat → Except RvExc RvEff) => match rvMode c w with | some rm => k rm | none => ill
    match fld w 31 27 with
    | 0 => round fun rm => fres (rvAdd f rm a b)
    | 1 => round fun rm => fres (rvSub f rm a b)
    | 2 => round fun rm => fres (rvMul f rm a b)
    | 3 => round fun rm => fres (rvDiv f rm a b)
    | 0xB => if rs2 ≠ 0 then ill else round fun rm => fres (rvSqrt f rm a)
    | 4 => match rvInject f f3 a b with | some v => fres (v, 0) | none => ill
    | 5 => if f3 = 0 then fres (rvMinMax f false a b) else if f3 = 1 then fres (rvMinMax f true a b) else ill
    | 8 =>
      let g := if f = rvS then rvD else rvS
      if rs2 ≠ (if f = rvS then 1 else 0) then ill
      else round fun rm => fres (rvConvert g f rm (c.fop g (fld w 19 15)))
    | 0x14 => if 2 < f3 then ill else let x := rvCompare f f3 a b; ires (BitVec.ofNat 64 x.1) x.2
    | 0x18 => if 3 < rs2 then ill else round fun rm =>
        let x := rvToInt f rm (rvRange rs2).1 (rvRange rs2).2 a
        ires (if rs2 < 2 then BitVec.ofInt 64 (BitVec.ofInt 32 x.1).toInt else BitVec.ofInt 64 x.1) x.2
    | 0x1A => if 3 < rs2 then ill else round fun rm => fres (rvRound f rm (mkVal (rvIntOf rs2 (c.get (fld w 19 15))) 1 false))
    | 0x1C =>
      if rs2 ≠ 0 then ill
      else if f3 = 0 then ires (if f = rvS then sext32 (c.fget (fld w 19 15)).toNat else c.fget (fld w 19 15)) 0
      else if f3 = 1 then ires (BitVec.ofNat 64 (rvClass f a)) 0 else ill
    | 0x1E => if rs2 ≠ 0 ∨ f3 ≠ 0 then ill
        else .ok { pc := next, fd := some (rd, if f = rvS then rvBox rvS (c.get (fld w 19 15)).toNat else c.get (fld w 19 15)) }
    | _ => ill

/-- The fused multiply-adds: FMADD, FMSUB, FNMSUB, FNMADD. -/
def rvFused (c : Rv) (w : Nat) (next : Word) : Except RvExc RvEff :=
  match rvFmtOf (fld w 26 25), rvMode c w with
  | some f, some rm =>
    let k := fld w 3 2
    let x := rvFma f rm (decide (2 ≤ k)) (k == 1 || k == 3) (c.fop f (fld w 19 15)) (c.fop f (fld w 24 20)) (c.fop f (fld w 31 27))
    .ok { pc := next, fd := some (fld w 11 7, rvBox f x.1), flags := x.2 }
  | _, _ => .error (excIllegal w)

/-- A branch is taken; none for an undefined one. -/
def rvTaken (f3 : Nat) (a b : Word) : Option Bool :=
  match f3 with
  | 0 => some (a == b)
  | 1 => some (a != b)
  | 4 => some (decide (a.toInt < b.toInt))
  | 5 => some (decide (b.toInt ≤ a.toInt))
  | 6 => some (decide (a.toNat < b.toNat))
  | 7 => some (decide (b.toNat ≤ a.toNat))
  | _ => none

/-- A 32-bit instruction of F or D. -/
def rvIsFloat (w : Nat) : Bool := [0x07, 0x27, 0x43, 0x47, 0x4B, 0x4F, 0x53].contains (w % 128)

/-- The effect of the 32-bit instruction w at the pc of slot t on croft core h; len is its own length. ECALL and EBREAK are not among
these. -/
def rvEffect (s : State) (h : Nat) (t : Slot) (w len : Nat) : Except RvExc RvEff :=
  let c := t.cpu
  let next := c.pc + BitVec.ofNat 64 len
  let rd := fld w 11 7
  let f3 := fld w 14 12
  let a := c.get (fld w 19 15)
  let b := c.get (fld w 24 20)
  let ill : Except RvExc RvEff := .error (excIllegal w)
  if rvIsFloat w && (s.croft h).floatsOff then ill else
  let res := fun (v : Option Word) => match v with | some v => .ok { pc := next, rd := some (rd, v) } | none => ill
  let imm := BitVec.ofInt 64 (immI w)
  match w % 128 with
  | 0x37 => res (some (BitVec.ofInt 64 (immU w)))
  | 0x17 => res (some (c.pc + BitVec.ofInt 64 (immU w)))
  | 0x6F => .ok { pc := c.pc + BitVec.ofInt 64 (immJ w), rd := some (rd, next) }
  | 0x67 => if f3 ≠ 0 then ill else .ok { pc := (a + imm) &&& ~~~1, rd := some (rd, next) }
  | 0x63 =>
    match rvTaken f3 a b with
    | some tk => .ok { pc := if tk then c.pc + BitVec.ofInt 64 (immB w) else next }
    | none => ill
  | 0x03 =>
    if f3 = 7 then ill else
    match rvAccess (s.croft h) t false (a + imm).toNat (2 ^ (f3 % 4)) with
    | .error e => .error e
    | .ok l => res (some (rvLoadVal f3 (rvRead s t l (2 ^ (f3 % 4)))))
  | 0x23 =>
    if 3 < f3 then ill else
    match rvAccess (s.croft h) t true (a + BitVec.ofInt 64 (immS w)).toNat (2 ^ f3) with
    | .error e => .error e
    | .ok l => .ok { pc := next, store := some (l, leBytes (2 ^ f3) b.toNat) }
  | 0x07 =>
    if f3 ≠ 2 ∧ f3 ≠ 3 then ill else
    match rvAccess (s.croft h) t false (a + imm).toNat (2 ^ f3) with
    | .error e => .error e
    | .ok l => .ok { pc := next, fd := some (rd, rvBox (if f3 = 2 then rvS else rvD) (rvRead s t l (2 ^ f3))) }
  | 0x27 =>
    if f3 ≠ 2 ∧ f3 ≠ 3 then ill else
    match rvAccess (s.croft h) t true (a + BitVec.ofInt 64 (immS w)).toNat (2 ^ f3) with
    | .error e => .error e
    | .ok l => .ok { pc := next, store := some (l, leBytes (2 ^ f3) (c.fget (fld w 24 20)).toNat) }
  | 0x13 =>
    if f3 = 1 then (if fld w 31 26 = 0 then res (rvOp 0 1 a (BitVec.ofNat 64 (fld w 25 20))) else ill)
    else if f3 = 5 then (if fld w 31 26 = 0 ∨ fld w 31 26 = 16 then res (rvOp (2 * fld w 31 26) 5 a (BitVec.ofNat 64 (fld w 25 20))) else ill)
    else res (rvOp 0 f3 a imm)
  | 0x1B =>
    if f3 = 0 then res (rvOp32 0 0 a imm)
    else if f3 = 1 ∧ fld w 31 25 = 0 then res (rvOp32 0 1 a (BitVec.ofNat 64 (fld w 24 20)))
    else if f3 = 5 ∧ (fld w 31 25 = 0 ∨ fld w 31 25 = 0x20) then res (rvOp32 (fld w 31 25) 5 a (BitVec.ofNat 64 (fld w 24 20)))
    else ill
  | 0x33 => res (rvOp (fld w 31 25) f3 a b)
  | 0x3B => res (rvOp32 (fld w 31 25) f3 a b)
  | 0x0F => if f3 ≤ 1 then .ok { pc := next } else ill
  | 0x73 => rvSystem s h c w next
  | 0x2F => rvAtomic s h t w next
  | 0x43 => rvFused c w next
  | 0x47 => rvFused c w next
  | 0x4B => rvFused c w next
  | 0x4F => rvFused c w next
  | 0x53 => rvFloat c w next
  | _ => ill

/-- Applies an effect to a slot's core. -/
def rvApply (e : RvEff) (c : Rv) : Rv :=
  let c := match e.rd with | some (r, v) => if r = 0 then c else { c with x := tset 0 c.x r v } | none => c
  let c := match e.fd with | some (r, v) => { c with f := tset 0 c.f r v } | none => c
  let c := match e.fcsr with | some v => { c with fcsr := v } | none => { c with fcsr := c.fcsr ||| BitVec.ofNat 8 (e.flags % 32) }
  let c := match e.resv with | some q => { c with resv := q } | none => c
  { c with pc := e.pc, instret := c.instret + 1 }

/-! ### Fetch -/

/-- The instruction at the pc of a slot, as 32 bits, with its length and the bits as fetched; only the local partition can
be executed (Table 21.2). -/
def rvFetch (h : Croft) (t : Slot) : Except RvExc (Nat × Nat × Nat) :=
  let pc := t.cpu.pc.toNat
  let half := fun (a : Nat) => ofLe ((List.range 2).map fun i => tget 0 t.ram (a + i))
  if !pmpAllows h 4 pc 2 then .error (excAt 1 pc)
  else
    let x := half pc
    if x % 4 ≠ 3 then
      match rvExpand x with
      | some w => .ok (w, 2, x)
      | none => .error (excIllegal x)
    else if !pmpAllows h 4 (pc + 2) 2 then .error (excAt 1 (pc + 2))
    else .ok (x + half (pc + 2) * 2 ^ 16, 4, x + half (pc + 2) * 2 ^ 16)

/-! ### Calls (R391) -/

/-- The record that a post call names. -/
def postBytes (t : Slot) (off : Nat) : List Byte :=
  let len := ofLe ((List.range 2).map fun i => tget 0 t.ram (off + 12 + i))
  (List.range (16 + len)).map fun i => tget 0 t.ram (off + i)

/-- The call of an ECALL with the registers of a slot: none for a number outside Table 21.3 or an argument outside its
limits. -/
def callOf (t : Slot) : Option Call :=
  let a0 := (t.cpu.get 10).toNat
  let a1 := (t.cpu.get 11).toNat
  match (t.cpu.get 17).toNat with
  | 1 => if a0 % 8 = 0 ∧ a0 + 4096 ≤ 0x10000 then some (.take a0) else none
  | 2 =>
    if a0 % 8 ≠ 0 ∨ 0x10000 < a0 + 16 ∨ 1 < a1 then none else
    let len := (postBytes t a0).length - 16
    if len % 8 = 0 ∧ len ≤ 4080 ∧ a0 + 16 + len ≤ 0x10000 then some (.post a0 a1 none) else none
  | 3 => some .stamp
  | _ => none

/-- What the next instruction of a slot does: a call, an exception, or an effect. -/
inductive RvNext where
  | call (c : Call) (len : Nat)
  | exc (e : RvExc)
  | eff (e : RvEff)

/-- The next instruction of slot t on croft core h. -/
def rvNext (s : State) (h : Nat) (t : Slot) : RvNext :=
  match rvFetch (s.croft h) t with
  | .error e => .exc e
  | .ok (w, len, raw) =>
    if w = 0x00000073 then
      match callOf t with
      | some c => .call c len
      | none => .exc [(8, [0])]
    else if w = 0x00100073 then .exc (excAt 3 t.cpu.pc.toNat)
    else
      match rvEffect s h t w len with
      | .ok e => .eff e
      | .error e => .exc (e.map fun x => (x.1, if x.1 = 2 then [raw, 0] else x.2))

/-! ### Who runs (R388) -/

/-- The instant at which the present step expires (R400): the budget is passed, or the wall-time limit ends. -/
def expiry (t : Slot) : Option Nat :=
  match t.step with
  | none => none
  | some p =>
    let wall := if t.wall = 0 then none else some (p.since + 1000 * t.wall)
    match p.passed, wall with
    | some a, some b => some (min a b)
    | some a, none => some a
    | none, w => w

/-- The present step has passed its expiry instant: a post may still be placed in that instant (R400). -/
def expired (s : State) (t : Slot) : Bool :=
  match expiry t with
  | some i => decide (i < s.ns)
  | none => false

/-- The step after the episode's count has become n at a time: the first count past the budget sets the expiry instant. -/
def stepCount (s : State) (t : Slot) (n : Nat) : Option StepRec :=
  t.step.map fun p => if t.budget ≠ 0 ∧ t.budget < n - p.instret ∧ p.passed.isNone then { p with passed := some s.ns } else p

/-- The observation record of a post call. -/
def postRec (t : Slot) (off status : Nat) : Rec :=
  let bs := postBytes t off
  obsRec status (dbl bs 8 % 2 ^ 32) (bs.drop 16)

/-- A post call can place its record (R396, R398). -/
def postFits (t : Slot) (off status : Nat) (ahead : Option Nat) : Bool :=
  decide ((postRec t off status).cells ≤ t.room) && (match ahead with | none => t.heldObs.isEmpty | some n => n == 0)

/-- A slot's episode waits in its take or post call. -/
def Slot.waits (t : Slot) : Bool :=
  match t.call with
  | .take _ => t.acts.isEmpty
  | .post off st ahead => !postFits t off st ahead
  | _ => false

/-- A slot that its croft core can run. -/
def slotReady (t : Slot) : Bool := t.state == 2 && !t.waits

/-- The slot that croft core c runs: the one that it has chosen, until it waits or ends, then the first ready one after the one
that last ran. -/
def runner (s : State) (c : Nat) : Option Nat :=
  match ((List.range 16).map (16 * c + ·)).find? fun k => (s.slot k).runs && slotReady (s.slot k) with
  | some k => some k
  | none => ((List.range 16).map fun i => 16 * c + ((s.croft c).last + 1 + i) % 16).find? fun k => slotReady (s.slot k)

/-- The croft core of a slot runs: it has left reset with its monitor, and its island is on (R387; 22 R415; 24 R420). -/
def croftOn (s : State) (k : Nat) : Bool := s.dev.boot == 0 && s.dev.loaded 2 && (s.dev.island (960 + k / 128)).st == 1

/-- A slot's episode can move now. -/
def mayRun (s : State) (k : Nat) : Bool := croftOn s k && runner s (k / 16) == some k && !expired s (s.slot k)

/-- The monitor's own instructions, of which the spec states no number, are retired by the core's hart (R386). -/
def monitorRan (s : State) (c : Nat) : List Upd :=
  [updCroft c fun h => { h with instret := h.instret + Config.freeWord s.free }, .tick]

/-- The monitor gives the core to slot k, unless it runs it already (R388). -/
def resumeUpds (s : State) (k : Nat) : List Upd :=
  let t := s.slot k
  if t.runs then [] else
  ((List.range 16).map fun i => Upd.slot (16 * (k / 16) + i) fun t => { t with runs := decide (16 * (k / 16) + i = k) })
  ++ updCroft (k / 16) (Croft.enter k (4096 * t.region.length) t.cpu.pc) :: monitorRan s (k / 16)

/-- An ECALL of slot k: a trap into the monitor, which changes episodes where the call waits (R388, R391). -/
def callUpds (k len : Nat) (c : Call) (s : State) : List Upd :=
  [updCroft (k / 16) (Croft.trap 8 0 (s.slot k).cpu.pc),
   .slot k fun t =>
    let t := { t with call := c, cpu := { t.cpu with pc := t.cpu.pc + BitVec.ofNat 64 len, resv := none } }
    { t with runs := !t.waits }]

/-- An instruction has changed the float state, and FS becomes Dirty. -/
def RvEff.dirties (e : RvEff) : Bool := e.fd.isSome || e.fcsr.isSome || e.flags != 0

/-- The effect of a user-mode instruction of slot k. -/
def effUpds (k : Nat) (e : RvEff) (s : State) : List Upd :=
  let r := match e.store with
    | some (l, bs) => rvWrite k l bs (Run.start s)
    | none => Run.start s
  let h : Croft → Croft := fun h =>
    let h := e.hart.getD h
    { h with instret := h.instret + 1, mstatus := if e.dirties then h.mstatus ||| 0x6000 else h.mstatus }
  r.out ++ [updCroft (k / 16) h,
    .slot k fun t => { t with cpu := rvApply e t.cpu, step := stepCount s t (t.cpu.instret + 1) }]

/-- The episode of slot k ends as a croft fault: a trap into the monitor, and the device posts a status 4 record with mcause and
mtval (R395, R396). -/
def croftFault (k mcause mtval : Nat) (s : State) : List Upd :=
  [updCroft (k / 16) (Croft.trap mcause mtval (s.slot k).cpu.pc),
   .slot k fun t => postObs (obsRec 4 0 (leBytes 8 mcause ++ leBytes 8 mtval)) (endSlot 4 t)]

/-- The bytes of memory that the next instruction of an episode reads. -/
def rvReads (s : State) (h : Nat) (t : Slot) : List (RvLoc × Nat) :=
  match rvFetch (s.croft h) t with
  | .error _ => []
  | .ok (w, len, _) =>
    let c := t.cpu
    let a := c.get (fld w 19 15)
    let n := 2 ^ (fld w 14 12 % 4)
    let read := fun (a : Word) => match rvAccess (s.croft h) t false a.toNat n with | .ok l => [(l, n)] | .error _ => []
    (RvLoc.ram c.pc.toNat, len) ::
    match w % 128 with
    | 0x03 => read (a + BitVec.ofInt 64 (immI w))
    | 0x07 => if (s.croft h).floatsOff then [] else read (a + BitVec.ofInt 64 (immI w))
    | 0x2F => if fld w 31 27 = 3 then [] else read a
    | _ => []

/-- The uncorrectable error in a byte that the next instruction of an episode reads (24 R424). -/
def rvMeetsBad (s : State) (h : Nat) (t : Slot) : Option Nat :=
  (rvReads s h t).findSome? fun x => match x.1 with
    | .ram _ => none
    | .frame pa ks => badIn s (.mem 0 pa ks) x.2

/-- The halt line of a slot's partition rises for an uncorrectable error that its episode met. -/
def croftError (s : State) (k : Nat) (t : TrapInfo) : List Upd := steadingError s (s.slot k).part k t

/-- What the next move of slot k does, with the monitor's part in it; none where the slot cannot move. -/
def croftMove (k : Nat) (s : State) : Option (List Upd × RvNext) :=
  if !mayRun s k || (s.slot k).call != .none then none else
  let us := resumeUpds s k
  let s := applyAll us s
  match rvMeetsBad s (k / 16) (s.slot k) with
  | some b => some (us ++ croftError s k (badData b (BitVec.ofNat 64 b) 0), .exc [(5, [0])])
  | none => some (us, rvNext s (k / 16) (s.slot k))

/-- CROFT_USER_INSTRUCTION: one user-mode instruction of an episode; an ECALL hands over to its call's event. -/
def execCroftUserInstruction (k : Nat) (s : State) : Host.Outcome State Fault Refusal :=
  event s <|
    match croftMove k s with
    | some (us, .call c len) => some (us ++ callUpds k len c (applyAll us s))
    | some (us, .eff e) => some (us ++ effUpds k e (applyAll us s))
    | _ => none

/-- CROFT_FAULT: the next instruction raises an exception, or makes a bad call: the episode ends (R389, R395). -/
def execCroftFault (k : Nat) (mcause mtval : Word) (s : State) : Host.Outcome State Fault Refusal :=
  event s <|
    match croftMove k s with
    | some (us, .exc e) =>
      if e.any fun x => x.1 == mcause.toNat && x.2.contains mtval.toNat then
        some (us ++ croftFault k mcause.toNat mtval.toNat (applyAll us s))
      else none
    | _ => none

/-- Sets a0 and ends the call. -/
def retCall (v : Word) (t : Slot) : Slot := { t with call := .none, cpu := { t.cpu with x := tset 0 t.cpu.x 10 v } }

/-- The monitor returns from a call to slot k (R391): MRET past the ECALL where the core still runs the slot; else the slot goes on
when it is chosen again. -/
def returnUpds (s : State) (k : Nat) : List Upd :=
  monitorRan s (k / 16)
  ++ (if (s.slot k).runs then [updCroft (k / 16) fun h => Croft.mret { h with mepc := (s.slot k).cpu.pc }] else [])

/-- The monitor's part in a post: a status of 1 ends the episode, and the monitor keeps the core (R391, R395). -/
def postUpds (s : State) (k status : Nat) : List Upd := if status = 1 then monitorRan s (k / 16) else returnUpds s k

/-- TAKE_CALL: the oldest action record is removed and copied, and a step begins where none is in progress (R391, R400). -/
def execTakeCall (k : Nat) (s : State) : Host.Outcome State Fault Refusal :=
  event s <|
    let t := s.slot k
    match t.call, t.acts with
    | .take off, a :: rest =>
      if t.state ≠ 2 ∨ !croftOn s k ∨ expired s t then none else
      some (returnUpds s k ++ [.slot k fun t => retCall (BitVec.ofNat 64 (a.bytes.length - 16))
        { t with acts := rest, ram := tsetAll 0 t.ram ((List.range a.bytes.length).map fun i => (off + i, byteAt a.bytes i)),
                 step := some (t.step.getD { instret := t.cpu.instret, since := s.ns }) }])
    | _, _ => none

/-- A record posted by the episode is placed: the step ends, and status 1 ends the episode (R391). -/
def placePost (off status : Nat) (t : Slot) : Slot :=
  let seq := t.oseq
  let t := { placeObs (postRec t off status) (retCall (BitVec.ofNat 64 seq) t) with step := none }
  if status = 1 then endSlot 1 t else t

/-- POST_CALL: the record is placed, also in the instant of the step's expiry (R400), or begins to wait for room behind the
records that already wait. -/
def execPostCall (k : Nat) (s : State) : Host.Outcome State Fault Refusal :=
  event s <|
    let t := s.slot k
    match t.call with
    | .post off status ahead =>
      if t.state ≠ 2 ∨ !croftOn s k ∨ expired s t then none
      else if postFits t off status ahead then some (postUpds s k status ++ [.slot k (placePost off status)])
      else if ahead.isNone then some [.slot k fun t => { t with call := .post off status (some t.heldObs.length), runs := false }]
      else none
    | _ => none

/-- STAMP_CALL. -/
def execStampCall (k : Nat) (s : State) : Host.Outcome State Fault Refusal :=
  event s <| if (s.slot k).call = .stamp ∧ mayRun s k then some (returnUpds s k ++ [.slot k (retCall s.gtc)]) else none

/-- WATCHDOG_EXPIRY: the episode ends as a timeout and the device posts a status 2 record (R395, R400). -/
def execWatchdogExpiry (k : Nat) (s : State) : Host.Outcome State Fault Refusal :=
  event s <|
    let t := s.slot k
    if t.state = 2 ∧ expired s t then some (takeBack s k ++ [.slot k fun t => postObs (obsRec 2 0 []) (endSlot 2 t)])
    else none

end Sys2Proof.Machine
end

