-- ==== Sys2Proof/Machine/Port.lean ====
section
/-! DEFINITION. Sys2Proof/Machine/Port.lean: engine ports (10 R252 to R256). -/

namespace Sys2Proof.Machine

/-- The engine-port fault. -/
def portFault : TrapInfo := { code := 42 }

/-- `epcfg.n` of a hart. -/
def Hart.port (h : Hart) (n : Nat) : Word := tget 0 h.epcfg n
/-- The entries of a port's receive FIFO, head first. -/
def Hart.fifoOf (h : Hart) (n : Nat) : List Word := tget [] h.fifo n
/-- Appends an entry to a port's FIFO. -/
def pushFifo (n : Nat) (v : Word) (h : Hart) : Hart := { h with fifo := tput h.fifo n (h.fifoOf n ++ [v]) }
/-- Removes entries at the head of a port's FIFO. -/
def popFifo (n k : Nat) (h : Hart) : Hart := { h with fifo := tput h.fifo n ((h.fifoOf n).drop k) }

/-- The kind of a bound port: 1 peer, 2 completion stream, 0 none (Table 10.1). -/
def portKind (w : Word) : Nat :=
  let k := w.toNat / 2 ^ 60 % 8
  if w.getLsbD 63 && (k == 1 || k == 2) then k else 0
/-- The strand that reads a port. -/
def portReader (w : Word) : Nat := w.toNat / 2 ^ 59 % 2
/-- The peer's port and hart. -/
def portPeer (w : Word) : Nat × Nat := (w.toNat / 2 ^ 44 % 8, w.toNat / 2 ^ 32 % 4096)

/-- A peer binding is mutual (R252). -/
def mutualPort (s : State) (h n : Nat) : Bool :=
  let q := portPeer ((s.hart h).port n)
  let w := (s.hart q.2).port q.1
  portKind w == 1 && portPeer w == (n, h)
  && (partOfHall s (hallOf h)).isSome && partOfHall s (hallOf h) == partOfHall s (hallOf q.2)

/-- A port that EPOP and EPOPV can read: a completion stream or a mutual peer. -/
def readable (s : State) (n : Nat) : Bool :=
  match portKind (s.myHart.port n) with
  | 1 => mutualPort s s.h n
  | 2 => true
  | _ => false

/-- EPUSH (R253, R254): a release, so the strand's held stores are performed and held writes end their wait (R256). -/
def execEpush (o : EPo) (s : State) :=
  finish s o.form.len (issue s .access 0 [o.a] [] [] fun v =>
    if portKind (s.myHart.port o.p) ≠ 1 ∨ !mutualPort s s.h o.p then .trap portFault
    else
      let q := portPeer (s.myHart.port o.p)
      if 32 ≤ ((s.hart q.2).fifoOf q.1).length then .wait false []
      else .done ((wcFlush (flushScalars (Run.start s) s.cur) s.c).out ++ [.hart q.2 (pushFifo q.1 (v 0))]))

/-- EPOP (R253, R254): an acquire (R256). -/
def execEpop (o : QPo) (s : State) :=
  finish s o.form.len (issue s .access 0 [] [o.d] [] fun _ =>
    if !readable s o.q then .trap portFault
    else if portReader (s.myHart.port o.q) ≠ 0 then .trap { code := 4 }
    else
      match s.myHart.fifoOf o.q with
      | [] => .wait false []
      | w :: _ => .done (.hart s.h (popFifo o.q 1) :: setD s.cur o.d w))

/-- Elements that the interrupted EPOPV of port n at the strand's pc has filled. -/
def filled (st : Strand) (n : Nat) : Nat :=
  match recordAt (site st) st.popv with
  | some (k, c) => if k = n then c else 0
  | none => 0

/-- EPOPV (R255): it takes the entries that are there, and waits for the others with the count of elements filled. -/
def execEpopv (o : VNo) (s : State) :=
  finish s o.form.len (vecRun s (.v 0) anyTy fun cx _ =>
    if !readable s o.n then .trap portFault
    else if portReader (s.myHart.port o.n) ≠ 1 then .trap { code := 4 }
    else
      let k := filled s.me o.n
      let rest := (cx.active s o.mask).drop k
      let got := (rest.zip (s.myHart.fifoOf o.n)).map fun p => (p.1, p.2.toNat % 2 ^ cx.w)
      let us := (acquireAll s).out ++ Upd.hart s.h (popFifo o.n got.length) :: cx.put o.v cx.w got
      if got.length = rest.length then .done (us ++ [.strand s.cur fun st => { st with popv := recordsNotAt (site s.me) st.popv }])
      else .wait false (us ++ [.strand s.cur fun st =>
        { st with popv := (o.n, k + got.length, site s.me) :: recordsNotAt (site s.me) st.popv }]))

end Sys2Proof.Machine
end

