-- ==== Sys2Proof/Machine/Sheaf.lean ====
section
/-! DEFINITION. Sys2Proof/Machine/Sheaf.lean: sheaves (10 R269 to R275). The entries beyond the 4096 on chip stand in the spill area, a
ring of words that is written as they enter and read as they come on chip (log entry 32). -/

namespace Sys2Proof.Machine

/-- The sheaf-value fault. -/
def sheafValue : TrapInfo := { code := 44 }
/-- The sheaf-state fault. -/
def sheafState : TrapInfo := { code := 45 }
/-- The sheaf-range fault, at an element. -/
def sheafRange (e : Nat) : TrapInfo := { code := 46, elem := BitVec.ofNat 64 e }
/-- The sheaf-overflow fault, at the first element that does not fit. -/
def sheafOverflow (e : Nat) : TrapInfo := { code := 47, elem := BitVec.ofNat 64 e }

/-- Sheaf k of a hart. -/
def Hart.sheafOf (h : Hart) (k : Nat) : Sheaf := tget {} h.sheaf k
/-- Changes sheaf k of a hart. -/
def updSheaf (k : Nat) (f : Sheaf → Sheaf) (h : Hart) : Hart := { h with sheaf := tput h.sheaf k (f (h.sheafOf k)) }
/-- The capacity of a sheaf (R269). -/
def Sheaf.capacity (t : Sheaf) : Nat := 4096 + t.ss / 4
/-- Appends entries. -/
def Sheaf.append (t : Sheaf) (vs : List Nat) : Sheaf := { t with ents := t.ents ++ vs.map (BitVec.ofNat 32) }

/-- The address of the word of the spill area that holds the j-th of the entries that have spilled (R269). -/
def Sheaf.place (t : Sheaf) (j : Nat) : Nat := t.sb + 4 * ((t.rd + j) % (t.ss / 4))

/-- Entries enter the sheaf of a core's hart: those beyond the 4096 on chip are written into the ring (R269). One whose place has no
translation for writing stays in the sheaf alone, a case for which the spec names no fault (DESIGN CHOICE, log entry 32). -/
def spillRun (sp : Space) (core : Nat) (t : Sheaf) (vs : List Nat) (r : Run) : Run :=
  (List.range vs.length).foldl (fun r i =>
    let k := t.ents.length + i
    if k < 4096 then r else
    match translate r sp (t.place (k - 4096)) 1 with
    | .error e => r.failed e.2
    | .ok (x, r) => engWriteLoc r core x.loc (leBytes 4 (vs.getD i 0))) r

/-- The first n entries that have spilled, as they come on chip: each holds what stands at its place in the ring, or where the part so
chooses, or the place has no translation, what was pushed (R269; log entry 32). An uncorrectable error there is the instruction's fault. -/
def backOnChip (s : State) (t : Sheaf) : Nat → M (List (BitVec 32))
  | 0 => pure []
  | n + 1 => do
    let vs ← backOnChip s t n
    let old := t.ents.getD (4096 + n) 0
    let va := t.place n
    let v : BitVec 32 ← (fun r =>
      match translate r (spaceOf s s.h) va 0 with
      | .error e => .ok (old, r.failed e.2)
      | .ok (x, r) =>
        match soundM x.loc 4 (BitVec.ofNat 64 va) 0 r with
        | .error e => .error e
        | .ok (_, r) =>
          let b := readBytes r (some s.c) x.loc 4
          .ok (if s.choice.early.testBit n then old else BitVec.ofNat 32 (ofLe b.1), b.2) : M (BitVec 32))
    pure (vs ++ [v])

/-- The sheaf after the entries `back` have come on chip and b entries have left it. -/
def Sheaf.popped (t : Sheaf) (back : List (BitVec 32)) (b : Nat) : Sheaf :=
  { t with ents := (t.ents.take 4096 ++ back ++ t.ents.drop (4096 + back.length)).drop b, rd := (t.rd + back.length) % (t.ss / 4) }

/-- A FWALK of the present hart and context into sheaf k is in flight (R271). -/
def walkInto (s : State) (k : Nat) : Bool :=
  s.cmds.any fun c =>
    c.hart == s.h && c.part == partIx s s.h && c.ent == entOf s s.h && c.lost.isNone &&
    match c.work with
    | .fwalk _ _ _ mem sh _ => !mem && sh == k
    | _ => false

/-- The values that SHINIT accepts (Table 10.6, Table 10.7): the 57-bit addresses are unsigned numbers (DEDUCED, log entry 135). -/
def sheafOk (sb ss seen u : Nat) : Bool :=
  decide (sb % 64 = 0) && decide (sb < 2 ^ 57) && decide (ss % 2 ^ 16 = 0) && decide (ss ≤ 2 ^ 40) && decide (seen < 2 ^ 57)
  && (if seen = 0 then decide (u = 0) else decide (1 ≤ u) && decide (u ≤ 2 ^ 32))

/-- SHINIT (R271). -/
def execShinit (sh a : Nat) (s : State) :=
  finish s 4 (issue s .both 0 [] [] (groupRegs a 4) fun _ =>
    let x := groupVals s a 4
    let (sb, ss, seen, u) := (x.getD 0 0, x.getD 1 0, x.getD 2 0, x.getD 3 0)
    if !sheafOk sb ss seen u then .trap sheafValue
    else if walkInto s sh then .trap sheafState
    else .done [.hart s.h (updSheaf sh fun _ => { sb := sb, ss := ss, seen := seen, u := u, init := true })])

/-- SHCLR (R271). -/
def execShclr (sh : Nat) (s : State) :=
  finish s 4 (issue s .both 0 [] [] [] fun _ =>
    if walkInto s sh then .trap sheafState
    else .done [.hart s.h (updSheaf sh fun t => { t with ents := [], rd := 0 })])

/-- SHCNT (R271). -/
def execShcnt (o : QPo) (s : State) :=
  finish s o.form.len (issue s .both 0 [] [o.d] [] fun _ =>
    .done (setD s.cur o.d (BitVec.ofNat 64 (s.myHart.sheafOf o.q).ents.length)))

/-- The element types of the vector sheaf instructions (R272). -/
def coordTy (t : Ty) : Bool := t == .n32 || t == .i32

/-- The active elements of a source as (element, coordinate). -/
def activeCoords (s : State) (cx : VCtx) (o : VNo) : List (Nat × Nat) :=
  (cx.active s o.mask).map fun e => (e, cx.get s o.v cx.w e)

/-- The first element that would not fit (R274). -/
def noRoom (t : Sheaf) (es : List (Nat × Nat)) : Option Nat := (es[t.capacity - t.ents.length]?).map (·.1)

/-- SHPUSH (R272, R274). -/
def execShpush (o : VNo) (s : State) :=
  finish s o.form.len (vecRun s (.v 0) coordTy fun cx _ =>
    let t := s.myHart.sheafOf o.n
    let es := activeCoords s cx o
    if !t.init then .trap sheafState
    else match noRoom t es with
      | some e => .trap (sheafOverflow e)
      | none => .done ((spillRun (spaceOf s s.h) s.c t (es.map (·.2)) (Run.start s)).out
        ++ [.hart s.h (updSheaf o.n fun t => t.append (es.map (·.2)))]))

/-- Checks the coordinates of a SHINS in element order (R274; 03 R71), each against the bitmap's extent, its bitmap byte's
translations for reading and writing, and the room left: the places of their bitmap bytes. -/
def seenLocs (sp : Space) (t : Sheaf) : Nat → List (Nat × Nat) → M (List (Nat × Loc))
  | _, [] => pure []
  | room, (e, c) :: es => do
    M.check (decide (c < t.u)) (sheafRange e)
    let x ← xlateM sp (t.seen + c / 8) 0 e
    let _ ← xlateM sp (t.seen + c / 8) 1 e
    soundM x.loc 1 (BitVec.ofNat 64 (t.seen + c / 8)) e
    M.check (room != 0) (sheafOverflow e)
    let ls ← seenLocs sp t (room - 1) es
    pure ((c, x.loc) :: ls)

/-- Sets the bits of coordinates in order: the coordinates whose bit was clear (R272, R273). -/
def setSeen (core : Nat) : List (Nat × Loc) → Run → List Nat × Run
  | [], r => ([], r)
  | (c, l) :: ls, r =>
    let r := match l with | .mem _ pa _ => flushAt r core pa | .pad .. => r
    let (b, r) := readByte r (some core) l
    if b.toNat.testBit (c % 8) then setSeen core ls r
    else
      let (cs, r) := setSeen core ls (engWriteLoc r core l [b ||| BitVec.ofNat 8 (2 ^ (c % 8))])
      (c :: cs, r)

/-- SHINS (R272 to R274). -/
def execShins (o : VNo) (s : State) :=
  finish s o.form.len (vecRun s (.v 0) coordTy fun cx _ =>
    let t := s.myHart.sheafOf o.n
    let es := activeCoords s cx o
    if !t.init ∨ t.seen = 0 then .trap sheafState
    else Act.ofM s (seenLocs (spaceOf s s.h) t (t.capacity - t.ents.length) es) fun ls r =>
      let (cs, r) := setSeen s.c ls r
      .done ((spillRun (spaceOf s s.h) s.c t cs r).out ++ [.hart s.h (updSheaf o.n fun t => t.append cs)]))

/-- SHPOPB (R272, R274). The entries of the b oldest that have not spilled are on chip; as many of the others come on chip. -/
def execShpopb (f : Form) (v sh : Nat) (s : State) :=
  finish s f.len (vecRun s (.v 0) coordTy fun cx _ =>
    let t := s.myHart.sheafOf sh
    if !t.init then .trap sheafState
    else
      let b := min (vlMax s cx.w) t.ents.length
      Act.ofM s (backOnChip s t (min b (t.ents.length - 4096))) fun back r =>
        let vs := (List.range b).map fun e => (e, ((t.ents.take 4096 ++ back).getD e 0).toNat)
        .done (r.out ++ (cx.put v cx.w vs
          ++ [.hart s.h fun h => { updSheaf sh (fun t => t.popped back b) h with vl := b }])))

end Sys2Proof.Machine
end

