-- ==== Sys2Proof/Machine/Engine.lean ====
section
/-! DEFINITION. Sys2Proof/Machine/Engine.lean: the engine commands GATH, SCRED, STEPA and STEPO, and the completion of every engine
command (10 R257 to R268, R286 to R288). A command that writes in many parts begins only where no unordered command is in the
middle of its writes to the same granules (R244, R260). -/

namespace Sys2Proof.Machine

/-- The engine-value fault. -/
def engineValue : TrapInfo := { code := 43 }

/-- The common control fields (Table 10.3) of a control double whose own bits are `own`: the barrier and the port, or none
where a check of R258 fails. -/
def engCtl (s : State) (w own : Nat) : Option (Option Nat × Option Nat) :=
  if w ||| own ||| 0x3FF ≠ own ||| 0x3FF then none else
  match ctlBarrier s w with
  | none => none
  | some be =>
    if !w.testBit 6 then some (be, none)
    else if portKind (s.myHart.port (w / 128 % 8)) = 2 then some (be, some (w / 128 % 8)) else none

/-- Accepts an engine command whose checks have passed. -/
def startEng (s : State) (d w : Nat) (c : Option Nat × Option Nat) (k : Work) : Act :=
  .done (acceptCmd s (newCmd s k d (w % 4) c.1 c.2))

/-! ### GATH and SCRED at issue (R262, R266) -/

/-- The row table of Table 10.4: list, count, table, bound and row bytes, where they are in order. -/
def rowTable (x : List Nat) : Option (Nat × Nat × Nat × Nat × Nat) :=
  let (list, n, table, nr) := (x.getD 0 0, x.getD 1 0, x.getD 2 0, x.getD 3 0)
  let (bound, rb) := (nr / 2 ^ 32, nr % 2 ^ 32)
  if list % 4 = 0 ∧ n < 2 ^ 32 ∧ bound ≠ 0 ∧ rb % 4 = 0 ∧ 4 ≤ rb ∧ rb ≤ 65536
      ∧ rangeOk list (4 * n) ∧ rangeOk table (bound * rb) then some (list, n, table, bound, rb) else none

/-- A range lies within one scratchpad window that a core may name. -/
def inWindow (c va n : Nat) : Bool :=
  let w := va - windowBase
  let j := w / 2 ^ 20
  decide (windowBase ≤ va) && decide (j ≤ 16) && decide (j ≠ hallCore c + 1) && decide (w % 2 ^ 20 + n ≤ 2 ^ 19)

/-- A gather's destination (R262): one window, or one stash slot of the issuing core. -/
def gathDest (s : State) (va n : Nat) : Bool :=
  inWindow s.c va n || s.myCore.stash.any fun t => decide (t.2.va ≤ va) && decide (va + n ≤ t.2.va + t.2.len)

/-- GATH. -/
def execGath (o : DA) (s : State) :=
  let me := (getX s.me (o.a + 5)).getLsbD 17
  finish s 4 (issue s .access 0 [] [] (o.d :: groupRegs o.a 6 ++ if me then [o.a + 6] else []) fun _ =>
    let x := groupVals s o.a 6
    let (dst, w) := (x.getD 4 0, x.getD 5 0)
    let mask := if me then some (getX s.me (o.a + 6)).toNat else none
    match rowTable x, engCtl s w 0x30000 with
    | some (list, n, table, bound, rb), some c =>
      if (me ∧ o.a = 58) ∨ dst % 64 ≠ 0 ∨ !rangeOk dst (n * rb) ∨ !gathDest s dst (n * rb)
          ∨ !(mask.all fun m => rangeOk m ((n + 7) / 8)) then .trap engineValue
      else startEng s o.d w c (.gath list n table bound rb dst (w.testBit 16) mask)
    | _, _ => .trap engineValue)

/-- The element types of SCRED (R266). -/
def reduceTy (t : Ty) : Bool := [Ty.f32, .bf16, .f16, .i32, .i64, .n32, .n64].contains t

/-- SCRED. -/
def execScred (o : DA) (s : State) :=
  finish s 4 (issueCmd s o 6 fun x =>
    let (src, w) := (x.getD 4 0, x.getD 5 0)
    match rowTable x, engCtl s w 0xFF0000, Ty.ofCode (w / 2 ^ 18 % 32) with
    | some (list, n, table, bound, rb), some c, some ty =>
      if w / 2 ^ 16 % 4 = 3 ∨ !reduceTy ty ∨ rb % (ty.bits / 8) ≠ 0 ∨ !rangeOk src (n * rb) then .trap engineValue
      else startEng s o.d w c (.scred list n table bound rb src (w / 2 ^ 16 % 4) ty (w.testBit 23))
    | _, _, _ => .trap engineValue)

/-! ### Rows (R263 to R268) -/

/-- The locations of n bytes that a Thresher reads. -/
def rowLocs (sp : Space) (n va : Nat) : E (List Loc) := fun r =>
  match engLocs sp 0 n va r with
  | .error e => .error e
  | .ok (ls, r) =>
    match ls.zipIdx.findSome? fun x => (badIn r.s x.1 1).map fun k => (x.2, k) with
    | some (i, k) => .error (badData k (BitVec.ofNat 64 (va + i)) 0, r)
    | none => .ok (ls, r)

/-- Reads located bytes at their home; a held block of core c that the read needs is written first. -/
def readLocs (c : Nat) : List Loc → Run → List Byte × Run
  | [], r => ([], r)
  | l :: ls, r =>
    let r := match l with | .mem _ pa _ => flushAt r c pa | .pad .. => r
    let (b, r) := readByte r none l
    let (bs, r) := readLocs c ls r
    (b :: bs, r)

/-- Reads bytes for a Thresher. -/
def rowReads (sp : Space) (n va : Nat) : E (List Byte) := fun r =>
  match rowLocs sp n va r with
  | .error e => .error e
  | .ok (ls, r) => .ok (readLocs sp.core ls r)

/-- Ends a command's work with a token value. -/
def endWork (c : Cmd) (v : Word) (r : Run) : Run := r.add (.cmd c.id fun c => { c with fin := some v })

/-- The entry at i of an index list: none for a sentinel, or an index. -/
def listEntry (sp : Space) (list i : Nat) : E (Option Nat) := fun r =>
  match rowReads sp 4 (list + 4 * i) r with
  | .error e => .error e
  | .ok (bs, r) => .ok (if ofLe bs = 2 ^ 32 - 1 then none else some (ofLe bs), r)

/-- The stack whose Thresher serves a row: that of its first byte in memory. -/
def rowUnit (old : Nat) (ls : List Loc) : Nat :=
  match ls.find? fun l => match l with | .mem .. => true | .pad .. => false with
  | some (.mem _ pa _) => stackOf pa
  | _ => old

/-- The bursts of 64 bytes of a row. -/
def bursts (rb : Nat) : Nat := (rb + 63) / 64

/-- A row as a gather delivers it: its bytes, its report bit and the Thresher that served it. -/
structure Row where
  bytes : List Byte
  bad : Bool
  unit : Nat

/-- The row of a gather for an index (R263). -/
def gatherBytes (sp : Space) (c : Cmd) (table bound rb : Nat) (pol : Bool) (x : Option Nat) : S Row := fun r =>
  match x with
  | none => .ok (⟨List.replicate rb 0, false, c.unit⟩, r)
  | some x =>
    if bound ≤ x then (if pol then .error (.cause 6, r) else .ok (⟨List.replicate rb 0, true, c.unit⟩, r))
    else match (rowLocs sp rb (table + x * rb)).stop r with
      | .error e => .error e
      | .ok (ls, r) =>
        let (bs, r) := readLocs sp.core ls r
        .ok (⟨bs, false, rowUnit c.unit ls⟩, r)

/-- The place of the mask byte of row i, translated before the row is written (R264). -/
def maskLoc (sp : Space) (mask : Option Nat) (i : Nat) : E (Option Loc) := fun r =>
  match mask with
  | none => .ok (none, r)
  | some m =>
    match engXlate sp ((m + i / 8) % 2 ^ 64) 1 r with
    | .error e => .error e
    | .ok (l, r) => .ok (some l, r)

/-- The result mask with bit i added; its bits above are zero. -/
def maskBit (i : Nat) (bad : Bool) (l : Loc) (m : List (Loc × Byte)) : List (Loc × Byte) :=
  let bit : Byte := if bad then BitVec.ofNat 8 (2 ^ (i % 8)) else 0
  if i % 8 = 0 then m ++ [(l, bit)]
  else m.dropLast ++ [(l, (match m.getLast? with | some p => p.2 | none => 0) ||| bit)]

/-- The granule that a command which has written up to a location and goes on at the next address has written in part. -/
def lastGranule (next : Nat) (ls : List Loc) : List Nat :=
  if next % 64 = 0 then [] else match ls.getLast? with | some l => [l.key / 64] | none => []

/-- One row of a gather, or its stop. Which of the values of its window a byte delivers R265 leaves open: here it is the value at
the instant at which the row is written (DESIGN CHOICE, log entry 118). The result mask is written when the rows are done. Where the
table row, the destination and the mask byte of one entry fail, the first of them in this order gives the cause (DESIGN CHOICE, log
entry 155). -/
def gatherRow (c : Cmd) (r : Run) : Option Run :=
  match c.work with
  | .gath list n table bound rb dst pol mask =>
    let sp := cmdSpace r.s c
    let i := c.step
    match (listEntry sp list i).stop r with
    | .error e => some (stopWith c (i * rb) e)
    | .ok (x, r) =>
      match gatherBytes sp c table bound rb pol x r with
      | .error e => some (stopWith c (i * rb) e)
      | .ok (row, r) =>
        match (engLocs sp 1 rb (dst + i * rb)).stop r with
        | .error e => some (stopWith c (i * rb) e)
        | .ok (ls, r) =>
          match (maskLoc sp mask i).stop r with
          | .error e => some (stopWith c (i * rb) e)
          | .ok (m, r) =>
            if granuleHeld r.s c (granules ls) then none else
            some (creditCmd c rb ((engPut sp.core ls row.bytes r).add (.cmd c.id fun c =>
              { c with
                step := i + 1
                bytes := c.bytes + rb
                unit := row.unit
                open_ := lastGranule (dst + (i + 1) * rb) ls
                mask := match m with | some l => maskBit i row.bad l c.mask | none => []
                fin := if i + 1 = n then some (tokenVal 0 0 (n * rb)) else none })))
  | _ => none

/-- The bursts of the row that a gather or a reduction has left to do. -/
def rowLeft (c : Cmd) : Option Nat :=
  match c.work with
  | .gath _ n _ _ rb _ _ _ => if c.step < n then some (bursts rb) else none
  | _ => none

/-- GATHER_ROW. -/
def execGatherRow (id : Nat) (s : State) :=
  event s <|
    match cmdOf s id with
    | some c => match rowLeft c with
      | some k => if cmdRuns s c k && writeTurn s c then tryCtx s c fun r => (gatherRow c r).map (didWork c k) else none
      | none => none
    | none => none

/-- `Op` of R267 on two element patterns: the old value and the contribution. -/
def reduceOp (t : Ty) (op a b : Nat) : Nat :=
  if t.isFloat then
    match op with
    | 0 => (roundF t 1 false 0 (addV 1 (decodeF t a) (decodeF t b)).1).1
    | 1 => minmaxF t true a b
    | _ => minmaxF t false a b
  else
    let x := decodeI t a
    let y := decodeI t b
    encodeI t (match op with | 0 => x + y | 1 => max x y | _ => min x y)

/-- Every byte lies in device memory. -/
def allDev (ls : List Loc) : Bool :=
  ls.all fun l => match l with
    | .mem _ pa _ => isDevPa pa
    | .pad .. => false

/-- Writes located bytes at their home. -/
def homePut (c : Nat) (ls : List Loc) (bs : List Byte) (r : Run) : Run :=
  (pieces (ls.zip bs)).foldl (fun r p => match p.1 with
    | .mem _ pa ks => putHome (flushAt r c pa) ks pa p.2
    | .pad .. => r) r

/-- The updates of n elements of a row, one after another: the source element is read as its own update is made (R267). -/
def reduceElems (c : Nat) (t : Ty) (op : Nat) : Nat → List Loc → List Loc → Run → Run
  | 0, _, _, r => r
  | n + 1, src, dst, r =>
    let z := t.bits / 8
    let (new, r) := readLocs c (src.take z) r
    let (old, r) := readLocs c (dst.take z) r
    reduceElems c t op n (src.drop z) (dst.drop z) (homePut c (dst.take z) (leBytes z (reduceOp t op (ofLe old) (ofLe new))) r)

/-- A range meets the scratchpad window. -/
def meetsWindow (a n : Nat) : Bool := decide (windowBase < a + n) && decide (a < 2 ^ 56)

/-- The locations of a row of a SCRED's table, which its updates read and write: cause 7 where it does not lie in device memory
(R267). -/
def reduceRow (sp : Space) (rb t : Nat) : S (List Loc) := fun r =>
  if meetsWindow t rb then .error (.cause 7, r) else
  match (rowLocs sp rb t).stop r with
  | .error e => .error e
  | .ok (ls, r) =>
    match (engLocs sp 1 rb t).stop r with
    | .error e => .error e
    | .ok (_, r) => if allDev ls then .ok (ls, r) else .error (.cause 7, r)

/-- One contribution of a SCRED, or its stop. Where the table row and the source row of one entry fail, the table row gives the cause
(DESIGN CHOICE, log entry 155). -/
def reduceEntry (c : Cmd) (r : Run) : Option Run :=
  match c.work with
  | .scred list n table bound rb src op ty pol =>
    let sp := cmdSpace r.s c
    let i := c.step
    let stop := fun (e : Stop × Run) => some (stopWith c c.bytes e)
    let next := fun (k unit : Nat) (r : Run) => some (r.add (.cmd c.id fun c =>
      { c.owe k with step := i + 1, bytes := c.bytes + k, unit := unit,
                     fin := if i + 1 = n then some (tokenVal 0 0 (c.bytes + k)) else none }))
    match (listEntry sp list i).stop r with
    | .error e => stop e
    | .ok (none, r) => next 0 c.unit r
    | .ok (some x, r) =>
      if bound ≤ x then (if pol then stop (.cause 6, r) else next 0 c.unit r) else
      match reduceRow sp rb (table + x * rb) r with
      | .error e => stop e
      | .ok (ls, r) =>
        match (rowLocs sp rb (src + i * rb)).stop r with
        | .error e => stop e
        | .ok (ss, r) =>
          if granuleHeld r.s c (granules ls) then none
          else next rb (rowUnit c.unit ls) (reduceElems sp.core ty op (rb / (ty.bits / 8)) ss ls r)
  | _ => none

/-- The bursts of a contribution that a reduction has left. -/
def entryLeft (c : Cmd) : Option Nat :=
  match c.work with
  | .scred _ n _ _ rb _ _ _ _ => if c.step < n then some (bursts rb) else none
  | _ => none

/-- A SCRED that has begun and is not done goes before every other that no order ranks against it: all its contributions to an
element then precede all of the other's (R268; log entry 120). -/
def reduceTurn (s : State) (c : Cmd) : Bool :=
  s.cmds.all fun d => d.id == c.id || sameQueue c d || d.fin.isSome || d.step == 0 || (entryLeft d).isNone

/-- SCATTER_REDUCE_UPDATE. -/
def execScatterReduceUpdate (id : Nat) (s : State) :=
  event s <|
    match cmdOf s id with
    | some c => match entryLeft c with
      | some k => if cmdRuns s c k && reduceTurn s c && writeTurn s c then tryCtx s c fun r => (reduceEntry c r).map (didWork c k) else none
      | none => none
    | none => none

/-! ### STEPA and STEPO at issue (R286) -/

/-- The slot numbers of a list name slots; a list that cannot be read now is judged when the command reads it. The
translations that the read fills stay (09 R230). -/
def slotsOk (sp : Space) (list n : Nat) (r : Run) : Bool × Run :=
  match engReads sp (2 * n) list r with
  | .error e => (true, r.failed e.2)
  | .ok (bs, r) => ((halves bs n).all fun k => decide (k < 4096), r)

/-- The checks of STEPA and STEPO; k makes the work from list, count, base and stride, and `rel` is what the issue does once
the strand's held stores are performed and the checks have passed. -/
def stepAct (s : State) (o : DA) (rel : Run → Run) (k : Nat → Nat → Nat → Nat → Work) : Act :=
  issueCmd s o 5 fun x =>
    let (list, n, base, stride, w) := (x.getD 0 0, x.getD 1 0, x.getD 2 0, x.getD 3 0, x.getD 4 0)
    match engCtl s w 0 with
    | none => .trap engineValue
    | some c =>
      if list % 2 ≠ 0 ∨ n = 0 ∨ 4096 < n ∨ base % 8 ≠ 0 ∨ stride % 8 ≠ 0 ∨ stride < 4096
          ∨ !rangeOk list (2 * n) ∨ !rangeOk base ((n - 1) * stride + 4096) then .trap engineValue
      else
        let (ok, r) := slotsOk (spaceOf s s.h) list n (flushHeld (Run.start s) s.cur)
        if !ok then .part r.kept engineValue
        else .done (acceptAfter (rel r) s (newCmd s (k list n base stride) o.d (w % 4) c.1 c.2))

/-- STEPA: its posts are releases, so what the strand has written is performed before the first (R287, R256). -/
def execStepa (o : DA) (s : State) := finish s 4 (stepAct s o (fun r => wcFlush r s.c) .stepa)
/-- STEPO. -/
def execStepo (o : DA) (s : State) := finish s 4 (stepAct s o id .stepo)

/-! ### Completion (R259, R261) -/

/-- An engine command of this chapter. -/
def isEngWork (w : Work) : Bool :=
  match w with
  | .gath .. => true
  | .scred .. => true
  | .fwalk .. => true
  | .stepa .. => true
  | .stepo .. => true
  | _ => false

/-- Work that is done at a command's completion: the next entry of a mailbox command, the end of a list of no entries, and
the result mask of a gather whose rows are done. -/
def lastWork (c : Cmd) (r : Run) : Option Run :=
  match c.fin with
  | some _ =>
    if c.mask.isEmpty ∨ granuleHeld r.s c (granules (c.mask.map (·.1))) then none
    else some ((engPut (cmdCore c) (c.mask.map (·.1)) (c.mask.map (·.2)) r).add (.cmd c.id fun c => { c with mask := [] }))
  | none =>
    match c.work with
    | .stepa list n base stride => some (didWork c 1 (stepaEntry c list n base stride r))
    | .stepo list n base stride => if writeTurn r.s c then (stepoEntry c list n base stride r).map (didWork c 1) else none
    | .gath _ 0 _ _ _ _ _ _ => some (endWork c (tokenVal 0 0 0) r)
    | .scred _ 0 _ _ _ _ _ _ _ => some (endWork c (tokenVal 0 0 0) r)
    | _ => none

/-- The units of an engine that a command's work at its completion takes. -/
def lastUnits (c : Cmd) : Nat :=
  match c.work with
  | .stepa .. => 1
  | .stepo .. => 1
  | _ => 0

/-- Nothing is left to credit. -/
def credited (c : Cmd) : Bool := c.owed.isEmpty || c.be.isNone

/-- Nothing of a finished command is left to write, credit or push. -/
def allDone (c : Cmd) : Bool := c.mask.isEmpty && credited c

/-- ENGINE_COMMAND_COMPLETE: what is left to do, then the token. -/
def execEngineCommandComplete (id : Nat) (s : State) :=
  event s <|
    match cmdOf s id with
    | none => none
    | some c =>
      if !isEngWork c.work || !queueHead s c then none else
      match c.fin with
      | some v => if allDone c then (if c.pe.isNone then some (completeCmd s c v) else none) else tryCtx s c (lastWork c)
      | none => if cmdRuns s c (lastUnits c) then tryCtx s c (lastWork c) else none

/-- COMPLETION_STREAM_PUSH: the token value enters the port's FIFO once there is room. -/
def execCompletionStreamPush (id : Nat) (s : State) :=
  event s <|
    match cmdOf s id with
    | none => none
    | some c =>
      match c.fin, c.pe with
      | some v, some n =>
        if !isEngWork c.work || !queueHead s c || !allDone c then none else
        tryCtx s c fun r =>
          let gone := c.lost.isSome || (r.s.hart c.hart).gid != c.gid
          if !gone && 32 ≤ ((r.s.hart c.hart).fifoOf n).length then none
          else
            let r := if gone then r else r.add (.hart c.hart (pushFifo n v))
            some (r.add (.cmd id fun c => { c with pe := none }))
      | _, _ => none

end Sys2Proof.Machine
end

