-- ==== Sys2Proof/Machine/LoopForm.lean ====
section
/-! DEFINITION. Sys2Proof/Machine/LoopForm.lean: the Skelurn Loop Form (16 R324 to R333): the first faulty field of a module, the
reference order of its instances, what a call computes, and the orders that a translator may choose. Memory is seen through
the virtual addresses of the context that makes the call. -/

namespace Sys2Proof.Machine

/-! ### Modules (R329 to R333): the offsets of faulty fields -/

/-- A fault at an offset where a check fails. -/
def faultIf (b : Bool) (o : Nat) : List Nat := if b then [o] else []
/-- Word k of an affine row, as i32. -/
def rowWord (m : List Byte) (o k : Nat) : Int := (BitVec.ofNat 32 (ofLe ((m.drop (o + 4 * k)).take 4))).toInt

/-- The counts of a header. -/
structure ModHead where
  np : Nat
  na : Nat
  ns : Nat
  nn : Nat
  arr : Nat
  stm : Nat
  sch : Nat

/-- The header's fields. -/
def headOf (m : List Byte) : ModHead :=
  let w := dbl m 0x10
  ⟨w % 256, w / 256 % 256, w / 2 ^ 16 % 256, w / 2 ^ 32 % 2 ^ 16, dbl m 0x18, dbl m 0x20, dbl m 0x28⟩

/-- A table of n entries of k bytes at an offset is misplaced or passes the end of the module. -/
def tableBad (m : List Byte) (o n k : Nat) : Bool := o % 8 != 0 || decide (m.length < o + n * k)

/-- Faults of the header (Table 16.2). -/
def headFaults (m : List Byte) : List Nat :=
  let h := headOf m
  let w := dbl m 0x10
  faultIf (dbl m 0 != 0x00464C534C454B53) 0 ++ faultIf (dbl m 8 != m.length) 8
  ++ faultIf (w / 2 ^ 24 % 256 != 0 || w / 2 ^ 48 != 0 || h.na == 0 || decide (32 < h.na) || h.ns == 0 || decide (64 < h.ns)
      || h.nn == 0 || decide (1024 < h.nn) || decide (8 < h.na + h.np)) 0x10
  ++ faultIf (tableBad m h.arr h.na 40) 0x18 ++ faultIf (tableBad m h.stm h.ns 16) 0x20 ++ faultIf (tableBad m h.sch 1 8) 0x28
  ++ faultIf (dbl m 0x30 != 0) 0x30 ++ faultIf (dbl m 0x38 != 0) 0x38

/-- The rank of array k. -/
def arrRank (m : List Byte) (h : ModHead) (k : Nat) : Nat := dbl m (h.arr + 40 * k) / 32 % 8
/-- The element type of array k. -/
def arrTy (m : List Byte) (h : ModHead) (k : Nat) : Option Ty := Ty.ofCode (dbl m (h.arr + 40 * k) % 32)

/-- Faults of array entry k (R330). -/
def arrFaults (m : List Byte) (h : ModHead) (k : Nat) : List Nat :=
  let o := h.arr + 40 * k
  let w := dbl m o
  let r := w / 32 % 8
  faultIf (decide (256 ≤ w) || decide (14 < w % 32) || r == 0 || decide (4 < r)) o
  ++ (List.range 4).flatMap fun d =>
    let x := dbl m (o + 8 + 8 * d)
    let bad := if r ≤ d then x != 0
      else if x.testBit 63 then x / 8 % 2 ^ 60 != 0 || decide (h.np ≤ x % 8)
      else x == 0 || decide (2 ^ 31 ≤ x)
    faultIf bad (o + 8 + 8 * d)

/-- Faults of the affine row at an offset for a statement of a depth (R331). -/
def rowFaults (m : List Byte) (h : ModHead) (depth : Nat) (expr : Bool) (o : Nat) : List Nat :=
  let k := rowWord m o 0
  faultIf (if expr then k != 2 else k != 0 && k != 1) o
  ++ ((List.range 8).flatMap fun i => faultIf (decide (depth ≤ i) && rowWord m o (1 + i) != 0) (o + 4 * (1 + i)))
  ++ (List.range 8).flatMap fun i => faultIf (decide (h.np ≤ i) && rowWord m o (9 + i) != 0) (o + 4 * (9 + i))

/-- Reads of an operation (Table 16.1). -/
def opReads (op : Nat) : Option Nat :=
  match op with
  | 0 => some 1
  | 4 => some 3
  | 1 => some 2
  | 2 => some 2
  | 3 => some 2
  | 5 => some 2
  | 6 => some 2
  | _ => none

/-- Double 0 of statement k. -/
def stmDbl (m : List Byte) (h : ModHead) (k : Nat) : Nat := dbl m (h.stm + 16 * k)
/-- The depth of a statement. -/
def stmDepth (w : Nat) : Nat := w % 16
/-- The constraints of a statement. -/
def stmRows (w : Nat) : Nat := w / 16 % 256
/-- The arrays that a statement names: the one it writes, then those of its reads in order. -/
def stmArrays (w : Nat) : List Nat := w / 2 ^ 32 % 256 :: (List.range (w / 2 ^ 12 % 4)).map fun i => w / 2 ^ (40 + 8 * i) % 256

/-- Faults of a statement's double 0 (R325, R332). Its bits [15:14], to which R332 gives no field, are faulty unless they are zero
(DESIGN CHOICE, log entry 157). -/
def stmHeadBad (m : List Byte) (h : ModHead) (w : Nat) : Bool :=
  let n := w / 2 ^ 12 % 4
  let wr := w / 2 ^ 32 % 256
  let rd := fun (i : Nat) => w / 2 ^ (40 + 8 * i) % 256
  stmDepth w == 0 || decide (8 < stmDepth w) || stmRows w == 0 || decide (64 < stmRows w) || w / 2 ^ 14 % 4 != 0
  || w / 2 ^ 19 % 2 ^ 13 != 0 || opReads (w / 2 ^ 16 % 8) != some n || decide (h.na ≤ wr)
  || (List.range 3).any fun i =>
    if n ≤ i then rd i != 0
    else decide (h.na ≤ rd i) ||
      (match arrTy m h (rd i), arrTy m h wr with
       | some a, some b => !(a == b || widens a b)
       | _, _ => false)

/-- Iterator i has a bound from above and from below (R332). -/
def iterBound (m : List Byte) (o c i : Nat) : Bool :=
  let co := fun (j : Nat) => rowWord m (o + 72 * j) (1 + i)
  let eq := fun (j : Nat) => rowWord m (o + 72 * j) 0 == 1
  ((List.range c).any fun j => decide (0 < co j) || (eq j && co j != 0))
  && (List.range c).any fun j => decide (co j < 0) || (eq j && co j != 0)

/-- The depth that the rows of a statement may use; a faulty depth puts no bound on them. -/
def rowDepth (w : Nat) : Nat := if stmDepth w = 0 ∨ 8 < stmDepth w then 8 else stmDepth w

/-- Faults of statement k with its row block, which may lie before it. Each field is judged as far as the others tell what it holds:
a faulty depth, constraint count, operation or array leaves unknown only what rests on it. An iterator without a bound is no field of
its own: the statement's double 0 is reported (DESIGN CHOICE, log entry 157). -/
def stmFaults (m : List Byte) (h : ModHead) (k : Nat) : List Nat :=
  let o := h.stm + 16 * k
  let w := stmDbl m h k
  let c := if 64 < stmRows w then 0 else stmRows w
  let known := c ≠ 0 && opReads (w / 2 ^ 16 % 8) == some (w / 2 ^ 12 % 4)
    && (stmArrays w).all fun a => decide (a < h.na) && (arrFaults m h a).isEmpty
  let maps := if known then (stmArrays w).foldl (fun n a => n + arrRank m h a) 0 else 0
  let b := dbl m (o + 8)
  faultIf (stmHeadBad m h w) o ++
  if tableBad m b (c + maps) 72 then [o + 8] else
  let rows := (List.range c).flatMap fun j => rowFaults m h (rowDepth w) false (b + 72 * j)
  rows ++ ((List.range maps).flatMap fun j => rowFaults m h (rowDepth w) true (b + 72 * (c + j)))
  ++ faultIf (rows.isEmpty && !(List.range (stmDepth w)).all fun i => iterBound m b c i) o

/-! ### The schedule tree (R333) -/

/-- A node that is still to come: its active set, and where it is a child of a sequence what its siblings before it have left
of the sequence's set, and how many children come after it. -/
structure Pending where
  act : List Nat
  seq : Option (List Nat × Nat) := none

/-- The statements of a band's rows, in the order of the rows. -/
def bandStms (act : List Nat) (members : Nat) : List Nat := act.flatMap fun s => List.replicate members s

/-- What follows a node: the offset after its record, the nodes that come next, and the statements that it is a leaf of; or
the offset of a fault. A hint outside the values and the bits that Table 16.3 gives it is one (DESIGN CHOICE, log entry 157). -/
def nodeStep (m : List Byte) (h : ModHead) (o : Nat) (p : Pending) (rest : List Pending) : Except Nat (Nat × List Pending × List Nat) :=
  let w := dbl m o
  let kids := w / 16 % 256
  let ms := w / 2 ^ 12 % 16
  let perm := w.testBit 16
  let plain := ms == 0 && !perm
  if tableBad m o 1 8 ∨ 2 ^ 17 ≤ w then .error o else
  match w % 16 with
  | 1 =>
    let rows := bandStms p.act ms
    if p.seq.isSome ∨ kids ≠ 1 ∨ ms = 0 ∨ 8 < ms ∨ tableBad m (o + 8) rows.length 72 then .error o else
    match ((List.range rows.length).flatMap fun j => rowFaults m h (rowDepth (stmDbl m h (rows.getD j 0))) true (o + 8 + 72 * j)).min? with
    | some f => .error f
    | none => .ok (o + 8 + 72 * rows.length, { act := p.act } :: rest, [])
  | 2 =>
    if p.seq.isSome ∨ !plain ∨ kids < 2 ∨ 64 < kids then .error o
    else .ok (o + 8, { act := p.act, seq := some (p.act, kids - 1) } :: rest, [])
  | 3 =>
    if !plain ∨ kids ≠ 1 ∨ tableBad m (o + 8) 1 8 then .error o else
    let mask := dbl m (o + 8)
    let set := p.act.filter fun s => mask.testBit s
    if set.isEmpty then .error (o + 8) else
    match p.seq with
    | none => .ok (o + 16, { act := set } :: rest, [])
    | some (left, more) =>
      let after := left.filter fun s => !set.contains s
      if !(set.all left.contains) ∨ (more = 0 ∧ !after.isEmpty) then .error (o + 8)
      else .ok (o + 16, { act := set } :: (if more = 0 then rest else { act := p.act, seq := some (after, more - 1) } :: rest), [])
  | 4 =>
    if p.seq.isSome ∨ !plain ∨ kids ≠ 1 ∨ tableBad m (o + 8) 1 8 then .error o else
    let hint := dbl m (o + 8)
    if 2 ^ 16 ≤ hint ∨ 2 < hint % 256 ∨ (hint % 256 ≠ 1 ∧ 256 ≤ hint) then .error (o + 8)
    else .ok (o + 16, { act := p.act } :: rest, [])
  | 5 => if p.seq.isSome ∨ !plain ∨ kids ≠ 0 ∨ p.act.isEmpty then .error o else .ok (o + 8, rest, p.act)
  | _ => .error o

/-- n more nodes of the tree from an offset on; `hit` are the statements that have reached a leaf. Records that do not account for the
nodes are reported at the offset after the last one, and a statement that reaches no leaf at the tree's offset (DESIGN CHOICE, log
entry 157). -/
def treeFaults (m : List Byte) (h : ModHead) : Nat → Nat → List Pending → List Nat → List Nat
  | 0, o, stack, hit => faultIf (!stack.isEmpty) o ++ faultIf (!(List.range h.ns).all hit.contains) h.sch
  | n + 1, o, stack, hit =>
    match stack with
    | [] => [o]
    | p :: rest =>
      match nodeStep m h o p rest with
      | .error f => [f]
      | .ok (o, stack, leaf) => treeFaults m h n o stack (leaf ++ hit)

/-- The root of a module's tree: every statement is active. -/
def treeRoot (h : ModHead) : List Pending := [{ act := List.range h.ns }]

/-- The offset of the first faulty field of a module, over the header and every table that the header places. -/
def moduleFault (m : List Byte) : Option Nat :=
  let h := headOf m
  (headFaults m
    ++ (if tableBad m h.arr h.na 40 then [] else (List.range h.na).flatMap (arrFaults m h))
    ++ (if tableBad m h.stm h.ns 16 then [] else (List.range h.ns).flatMap (stmFaults m h))
    ++ if tableBad m h.sch 1 8 then [] else treeFaults m h h.nn h.sch (treeRoot h) []).min?

/-! ### A call (R324, R330) -/

/-- The arguments of a call: the arrays' bases, then the integer parameters, from x4 on (15 R312). -/
structure Args where
  bases : List Word
  params : List Word

/-- The arguments that the registers hold. -/
def argsOf (h : ModHead) (x : Nat → Word) : Args :=
  ⟨(List.range h.na).map fun k => x (4 + k), (List.range h.np).map fun k => x (4 + h.na + k)⟩

/-- Parameter k, as a signed number (log entry 124). -/
def Args.param (a : Args) (k : Nat) : Int := (a.params.getD k 0).toInt

/-- The extent of dimension d of array k. -/
def extent (m : List Byte) (h : ModHead) (a : Args) (k d : Nat) : Int :=
  let x := dbl m (h.arr + 40 * k + 8 + 8 * d)
  if x.testBit 63 then a.param (x % 8) else (x % 2 ^ 31 : Nat)

/-- Every extent that a parameter gives is at least 1; the code otherwise returns at once with x4 = 1. -/
def callRuns (m : List Byte) (a : Args) : Bool :=
  let h := headOf m
  (List.range h.na).all fun k => (List.range (arrRank m h k)).all fun d => decide (1 ≤ extent m h a k d)

/-- The value of an affine row for iterators and parameters (R331). -/
def rowVal (m : List Byte) (a : Args) (it : List Int) (o : Nat) : Int :=
  ((List.range 8).foldl (fun (n : Int) i => n + rowWord m o (1 + i) * it.getD i 0 + rowWord m o (9 + i) * a.param i) 0) + rowWord m o 17

/-! ### Instances and their reference order (R326, R332, R333) -/

/-- An instance: a statement and its iterators. -/
structure Inst where
  stm : Nat
  it : List Int
deriving DecidableEq, Repr

/-- The instance belongs to its statement's domain for a call. -/
def inDomain (m : List Byte) (a : Args) (i : Inst) : Bool :=
  let h := headOf m
  let w := stmDbl m h i.stm
  let b := dbl m (h.stm + 16 * i.stm + 8)
  decide (i.stm < h.ns) && i.it.length == stmDepth w
  && (List.range (stmRows w)).all fun j =>
    let e := rowVal m a i.it (b + 72 * j)
    if rowWord m (b + 72 * j) 0 = 1 then e == 0 else decide (0 ≤ e)

/-- What a node whose active set holds the instance's statement adds to its place: its band values, or the position of the
sequence's child in which it stands. -/
def nodeKey (m : List Byte) (a : Args) (i : Inst) (o : Nat) (p : Pending) : List Int :=
  let w := dbl m o
  match w % 16 with
  | 1 =>
    let rows := bandStms p.act (w / 2 ^ 12 % 16)
    ((List.range rows.length).filter fun j => rows.getD j 0 == i.stm).map fun j => rowVal m a i.it (o + 8 + 72 * j)
  | 3 => if p.seq.isSome ∧ (dbl m (o + 8)).testBit i.stm then [(o : Int)] else []
  | _ => []

/-- The place of an instance in the tree, over n more nodes in preorder: the nodes that hold its statement lie on one path. -/
def treeKey (m : List Byte) (h : ModHead) (a : Args) (i : Inst) : Nat → Nat → List Pending → List Int
  | 0, _, _ => []
  | n + 1, o, stack =>
    match stack with
    | [] => []
    | p :: rest =>
      match nodeStep m h o p rest with
      | .error _ => []
      | .ok (next, stack, _) => (if p.act.contains i.stm then nodeKey m a i o p else []) ++ treeKey m h a i n next stack

/-- The lexicographic order. -/
def lexBefore : List Int → List Int → Bool
  | [], [] => false
  | [], _ :: _ => true
  | _ :: _, [] => false
  | x :: xs, y :: ys => decide (x < y) || (x == y && lexBefore xs ys)

/-- The place of an instance in the reference order; the tree's ties go by statement and then by iterators. -/
def instKey (m : List Byte) (a : Args) (i : Inst) : List Int :=
  let h := headOf m
  treeKey m h a i h.nn h.sch (treeRoot h) ++ (i.stm : Int) :: i.it

/-- Instance i comes before instance j in the reference order. -/
def runsBefore (m : List Byte) (a : Args) (i j : Inst) : Bool := lexBefore (instKey m a i) (instKey m a j)

/-- The instances of a call, one by one in the reference order. -/
def IsReference (m : List Byte) (a : Args) (l : List Inst) : Prop :=
  l.Nodup ∧ (∀ i, i ∈ l ↔ inDomain m a i = true) ∧ l.Pairwise fun i j => runsBefore m a i j = true

/-! ### What an instance computes (R324, R325) -/

/-- Memory as the calling context sees it, and the flags so far. -/
structure View where
  mem : Nat → Byte
  fpf : Flags

/-- The place of an element: its address in units of nibbles, modulo 2^65. -/
def elemPlace (m : List Byte) (h : ModHead) (a : Args) (k : Nat) (idx : List Int) : Nat :=
  let n := (List.range idx.length).foldl (fun (n : Int) d => n * extent m h a k d + idx.getD d 0) 0
  let z : Int := ((arrTy m h k).getD .f32).bits / 4
  (((2 * (a.bases.getD k 0).toNat : Nat) + n * z) % (2 ^ 65 : Int)).toNat

/-- The pattern of type t at a place. -/
def readPlace (v : View) (t : Ty) (n : Nat) : Nat :=
  if t.bits = 4 then (v.mem (n / 2 % 2 ^ 64)).toNat / 16 ^ (n % 2) % 16
  else ofLe ((List.range (t.bits / 8)).map fun i => v.mem ((n / 2 + i) % 2 ^ 64))

/-- Writes a pattern of type t at a place. -/
def writePlace (v : View) (t : Ty) (n x : Nat) : View :=
  let a := n / 2 % 2 ^ 64
  if t.bits = 4 then
    let old := (v.mem a).toNat
    let b : Byte := BitVec.ofNat 8 (if n % 2 = 0 then old / 16 * 16 + x % 16 else old % 16 + x % 16 * 16)
    { v with mem := fun i => if i = a then b else v.mem i }
  else
    { v with mem := fun i => let k := (i + 2 ^ 64 - a) % 2 ^ 64; if k < t.bits / 8 then BitVec.ofNat 8 (x / 256 ^ k) else v.mem i }

/-- The value of an operation on patterns of type t, rounded once, with its flags (Table 16.1). -/
def loopOp (t : Ty) (op : Nat) (x y z : Nat) : Nat × Flags :=
  if t.isFloat then
    let a := decodeF t x
    let b := decodeF t y
    let r : Val × Flags := match op with
      | 0 => (a, 0)
      | 1 => sumF 1 a b
      | 2 => sumF 1 a b.negate
      | 3 => prodF a b
      | _ => fusedF 1 false a b (decodeF t z)
    if op = 5 then (minmaxF t true x y, 0) else if op = 6 then (minmaxF t false x y, 0) else
    let q := roundF t 1 (satOn t 2) 0 r.1
    (q.1, q.2 ||| r.2)
  else
    let a := decodeI t x
    let b := decodeI t y
    (encodeI t (match op with
      | 0 => a
      | 1 => a + b
      | 2 => a - b
      | 3 => a * b
      | 4 => a * b + decodeI t z
      | 5 => max a b
      | _ => min a b), 0)

/-- The array and the place of each access of an instance: its write, then its reads in order. -/
def accesses (m : List Byte) (a : Args) (i : Inst) : List (Nat × Nat) :=
  let h := headOf m
  let w := stmDbl m h i.stm
  let b := dbl m (h.stm + 16 * i.stm + 8)
  ((stmArrays w).foldl (fun (p : List (Nat × Nat) × Nat) k =>
    let r := arrRank m h k
    let idx := (List.range r).map fun d => rowVal m a i.it (b + 72 * (p.2 + d))
    (p.1 ++ [(k, elemPlace m h a k idx)], p.2 + r)) ([], stmRows w)).1

/-- One instance. -/
def runInst (m : List Byte) (a : Args) (v : View) (i : Inst) : View :=
  let h := headOf m
  match accesses m a i with
  | [] => v
  | (k, n) :: reads =>
    let t := (arrTy m h k).getD .f32
    let xs := reads.map fun p => let u := (arrTy m h p.1).getD .f32; widenBits u t (readPlace v u p.2)
    let r := loopOp t (stmDbl m h i.stm / 2 ^ 16 % 8) (xs.getD 0 0) (xs.getD 1 0) (xs.getD 2 0)
    let v := writePlace v t n r.1
    { v with fpf := v.fpf ||| r.2 }

/-- Several instances, one after another. -/
def runInsts (m : List Byte) (a : Args) (v : View) (l : List Inst) : View := l.foldl (runInst m a) v

/-! ### What a translated call gives (R326 to R328) -/

/-- The bytes of array k, by the bases and extents of the call: the first and the count. -/
def arrBytes (m : List Byte) (a : Args) (k : Nat) : Nat × Nat :=
  let h := headOf m
  let n := (List.range (arrRank m h k)).foldl (fun (n : Int) d => n * extent m h a k d) 1
  ((a.bases.getD k 0).toNat, (n.toNat * ((arrTy m h k).getD .f32).bits + 7) / 8)

/-- Some statement writes array k. -/
def written (m : List Byte) (k : Nat) : Bool :=
  let h := headOf m
  (List.range h.ns).any fun s => (stmArrays (stmDbl m h s)).head? == some k

/-- Two ranges of bytes, which wrap modulo 2^64, share one. -/
def wrapMeets (p q : Nat × Nat) : Bool :=
  decide (p.2 ≠ 0) && decide (q.2 ≠ 0)
  && (decide ((q.1 + 2 ^ 64 - p.1) % 2 ^ 64 < p.2) || decide ((p.1 + 2 ^ 64 - q.1) % 2 ^ 64 < q.2))

/-- A written array overlaps another array (R327). -/
def overlaps (m : List Byte) (a : Args) : Bool :=
  let h := headOf m
  (List.range h.na).any fun k => written m k && (List.range h.na).any fun j => j != k && wrapMeets (arrBytes m a k) (arrBytes m a j)

/-- Two instances touch one array element and one of them writes it (R328). -/
def depends (m : List Byte) (a : Args) (i j : Inst) : Bool :=
  match accesses m a i, accesses m a j with
  | w :: rs, x :: ss => (x :: ss).contains w || (w :: rs).contains x
  | _, _ => false

/-- An order in which translated code may run the instances of the reference order l (R328): any that keeps the order of every
two that depend on each other; with arrays that overlap, the reference order itself (R327). -/
def AllowedOrder (m : List Byte) (a : Args) (l l' : List Inst) : Prop :=
  if overlaps m a then l' = l
  else l'.Perm l ∧ ∀ i j, depends m a i j = true → [i, j].Sublist l → [i, j].Sublist l'

/-- A place that some instance of a call writes. -/
def WrittenPlace (m : List Byte) (a : Args) (t : Ty) (n : Nat) : Prop :=
  ∃ i k, inDomain m a i = true ∧ (accesses m a i).head? = some (k, n) ∧ arrTy m (headOf m) k = some t

/-- The bytes of an access to array k at a place: the first and the count. -/
def placeBytes (m : List Byte) (k n : Nat) : Nat × Nat :=
  (n / 2 % 2 ^ 64, max 1 (((arrTy m (headOf m) k).getD .f32).bits / 8))

/-- What a call of translated code leaves, from what it found: x4, every element that the module writes, and the flags (R326,
R330). The code has run the instances in an order that it may choose (R327, R328). `fault` says that an access, a write or not,
to some bytes meets a fault: a call that comes back has met none (R324). -/
def CallGives (m : List Byte) (a : Args) (fault : Bool → Nat × Nat → Prop) (v w : View) (x4 : Word) : Prop :=
  if callRuns m a = true then
    ∃ l l', IsReference m a l ∧ AllowedOrder m a l l' ∧ x4 = 0
      ∧ w.fpf = (runInsts m a v l).fpf ∧ (runInsts m a v l').fpf = (runInsts m a v l).fpf
      ∧ (∀ t n, WrittenPlace m a t n → readPlace w t n = readPlace (runInsts m a v l') t n
          ∧ readPlace (runInsts m a v l') t n = readPlace (runInsts m a v l) t n)
      ∧ ∀ i ∈ l, ∀ p ∈ (accesses m a i).zipIdx, ¬ fault (p.2 == 0) (placeBytes m p.1.1 p.1.2)
  else x4 = 1 ∧ w.fpf = v.fpf ∧ ∀ n, w.mem n = v.mem n

/-- A call that traps at an address has met a fault there, of an instance's access (R324). -/
def CallTraps (m : List Byte) (a : Args) (fault : Bool → Nat × Nat → Prop) (at_ : Nat) : Prop :=
  callRuns m a = true ∧ ∃ i, inDomain m a i = true ∧ ∃ p ∈ (accesses m a i).zipIdx,
    fault (p.2 == 0) (placeBytes m p.1.1 p.1.2)
      ∧ (at_ + 2 ^ 64 - (placeBytes m p.1.1 p.1.2).1) % 2 ^ 64 < (placeBytes m p.1.1 p.1.2).2

end Sys2Proof.Machine
end

