-- ==== Sys2Proof/Machine/Xlate.lean ====
section
/-! DEFINITION. Sys2Proof/Machine/Xlate.lean: the translation service and its cache in the Barn (16 R334 to R339). -/

namespace Sys2Proof.Machine

/-! ### The cache in the Barn (R334, R335) -/


/-- The key of a module (R334). -/
def moduleKey (d : Dev) (m : List Byte) : List Byte :=
  sha256 (m ++ ((List.range 8).flatMap fun k => leBytes 8 (featDouble k).toNat) ++ translatorId d.image)

/-- An object that loads with no binding (15 R320, R322; R334). -/
def loadsPlain (o : List Byte) : Bool := objectOk o && (missingBits o).isEmpty

/-- The least object that loads: one empty text section. -/
def leastObject : List Byte := codeHeader 0 0 0 (2 ^ 32 + 128) 0 0 ([1 + 2 * 2 ^ 4 + 2 ^ 10 + 2 ^ 12, 160, 0, 0].flatMap (leBytes 8))

/-- The code object that the running translator makes of a module: a header in order (15 R320) whose req lies within the device
mask, so that it loads with no binding needed (R334); its fields and its sections are the translator's. Bytes that the translator
left out of order would be no translation, and the least object stands in their place. That the object computes the module
(R326) is `TranslatorRight`. -/
def codeObject (d : Dev) (m : List Byte) : List Byte :=
  let b := Config.codeBody m (translatorId d.image)
  let o := codeHeader (dbl b 0 &&& (featDouble 0).toNat) (dbl b 8) (dbl b 16) (dbl b 24) (dbl b 32) (dbl b 40) (b.drop 48)
  if loadsPlain o then o else leastObject

/-- Bytes of an entry: key, digest and object. -/
def entryBytes (obj : List Byte) : Nat := obj.length + 64

/-- Erase blocks that an entry takes of the 32 GiB region. -/
def entryBlocks (obj : List Byte) : Nat := (entryBytes obj * Config.barnBlocks + 2 ^ 35 - 1) / 2 ^ 35

/-- The most recently used entries that leave room. -/
def barnFit : Nat → List BarnEnt → List BarnEnt
  | _, [] => []
  | room, e :: es => if e.blocks.length ≤ room then e :: barnFit (room - e.blocks.length) es else []

/-- Puts a block among blocks with rising erase counts. -/
def insertBlock (d : Dev) (b : Nat) : List Nat → List Nat
  | [] => [b]
  | c :: cs => if tget 0 d.erases b ≤ tget 0 d.erases c then b :: c :: cs else c :: insertBlock d b cs

/-- The n blocks with the lowest erase counts that no entry holds (R335). -/
def freshBlocks (d : Dev) (n : Nat) : List Nat :=
  (((List.range Config.barnBlocks).filter fun b => !d.barn.any fun e => e.blocks.contains b).foldr (insertBlock d) []).take n

/-- A cached entry that is read becomes the most recently used. -/
def touchBarn (key : List Byte) (d : Dev) : Dev :=
  { d with barn := (d.barn.filter fun e => e.key == key) ++ d.barn.filter fun e => e.key != key }

/-- An entry whose digest fails is as good as absent (R335). -/
def BarnEnt.sound (e : BarnEnt) : Bool := e.digest == sha256 e.obj

/-- The cached translation with a key. -/
def barnFind (d : Dev) (key : List Byte) : Option BarnEnt := d.barn.find? fun e => e.key == key && e.sound

/-- Erases the unsound entries with a key. -/
def barnScreen (key : List Byte) (d : Dev) : Dev := dropBarn (fun e => e.key == key && !e.sound) d

/-- Caches a translation (R335): the least recently used entries make room. One longer than 64 MiB is not cached, nor is any where
the Barn has no spare block left, and the request is answered with status 2 all the same: for the spare blocks 24 R425 says so,
for the length the spec gives no status (DESIGN CHOICE, log entry 144). -/
def cacheBarn (n : Nat) (key obj : List Byte) (d : Dev) : Dev :=
  if 2 ^ 26 < entryBytes obj ∨ d.barnw.toNat / 2 ^ 56 = 0 then d
  else
    let kept := barnFit (Config.barnBlocks - entryBlocks obj) d.barn
    let d := dropBarn (fun e => !kept.any fun k => k.key == e.key) d
    let e : BarnEnt := ⟨key, sha256 obj, obj, d.image, keyHash (Config.translatorSign d.image).1, freshBlocks d (entryBlocks obj)⟩
    barnWrite n { d with barn := e :: d.barn }

/-! ### The request ring (R337 to R339) -/

/-- A request that is due: the address of its record, its bytes, the head, the ring, and the run that has read them. -/
structure Request where
  at_ : Nat
  bytes : List Byte
  head : Nat
  base : Nat
  run : Run

/-- Reads the next request of a partition's ring, which a loaded translator serves. -/
def readRequest (s : State) (p : Nat) : M (Option Request) :=
  let x := (s.part p).xlring.toNat
  let base := x / 4096 * 4096
  let read := loadBytesM (stewardSpace s p) none
  if base = 0 ∨ s.dev.boot ≠ 0 ∨ !s.dev.loaded 1 then pure none else do
  let tail ← read base 8
  let head ← read (base + 8) 8
  if ofLe tail = ofLe head then pure none else do
  let a := base + 64 + 128 * (ofLe head % 2 ^ (x % 16))
  let bs ← read a 128
  fun r => .ok (some ⟨a, bs, ofLe head, base, r⟩, r)

/-- The next request of a partition's ring. -/
def nextRequest (s : State) (p : Nat) : Option Request :=
  match readRequest s p (Run.start s) with
  | .ok (q, _) => q
  | .error _ => none

/-- The request's module, none where it cannot be read, with the run. -/
def requestModule (s : State) (p : Nat) (q : Request) : Option (List Byte) × Run :=
  match loadBytesM (stewardSpace s p) none (dbl q.bytes 8) (dbl q.bytes 0x10) q.run with
  | .ok (bs, r) => (some bs, r)
  | .error e => (none, serviceError (q.run.failed e.2) p e.1)

/-- The result of a request. -/
structure Reply where
  key : List Byte
  status : Nat
  detail : Nat := 0
  rsize : Nat := 0

/-- Writes the results, then the status, then the head. A ring whose tail, head or record cannot be read or written is not served:
no status is written and the head stays (DESIGN CHOICE, log entry 144); an uncorrectable error on the way is raised. -/
def answer (p : Nat) (q : Request) (a : Reply) (r : Run) : Option (List Upd) :=
  let fails := fun (e : TrapInfo) (r : Run) => if e.code = 54 then some r.out else none
  match stewardWrite r p (q.at_ + 0x28) (a.key ++ leBytes 8 (a.detail * 2 ^ 32 + a.status) ++ leBytes 8 a.rsize) with
  | (r, none) =>
    match stewardWrite r p (q.base + 8) (leBytes 8 ((q.head + 1) % 2 ^ 64)) with
    | (r, none) => some r.out
    | (r, some e) => fails e r
  | (r, some e) => fails e r

/-- Delivers an object to the request's destination. -/
def deliver (p : Nat) (q : Request) (key obj : List Byte) (status : Nat) (r : Run) : Option (List Upd) :=
  if dbl q.bytes 0x20 < obj.length then answer p q { key := key, status := 5, rsize := obj.length } r else
  match stewardWrite r p (dbl q.bytes 0x18) obj with
  | (r, none) => answer p q { key := key, status := status, rsize := obj.length } r
  | (r, some _) => answer p q { key := key, status := 7 } r

/-- The key field of a request. -/
def requestKey (q : Request) : List Byte := (q.bytes.drop 0x28).take 32

/-- Serves a translate or lookup request. A size outside 64 to 2^30 is a bad request, status 6, and nonzero bytes 0x58 to 0x7F
are ignored (DESIGN CHOICE, log entry 144). -/
def serveModule (s : State) (p : Nat) (q : Request) (translate : Bool) : Option (List Upd) :=
  let n := dbl q.bytes 0x10
  if n < 64 ∨ 2 ^ 30 < n then answer p q { key := requestKey q, status := 6 } q.run else
  match requestModule s p q with
  | (none, r) => answer p q { key := requestKey q, status := 7 } r
  | (some m, r) =>
    let key := moduleKey s.dev m
    match barnFind s.dev key with
    | some e => deliver p q key e.obj 1 (r.add (.dev (touchBarn key)))
    | none =>
      let r := r.add (.dev (barnScreen key))
      if !translate then answer p q { key := key, status := 3 } r else
      match moduleFault m with
      | some o => answer p q { key := key, status := 4, detail := o } r
      | none =>
        let obj := codeObject s.dev m
        deliver p q key obj 2 ((r.add (.dev (cacheBarn s.free key obj))).add .tick)

/-- Serves the next request of partition p when its op meets a condition. A ring that cannot be read for an uncorrectable error
raises the halt line, as the event of op 0. -/
def serve (p : Nat) (s : State) (op : Nat → Bool) (k : Request → Option (List Upd)) : Host.Outcome State Fault Refusal :=
  event s <|
    match readRequest s p (Run.start s) with
    | .ok (some q, _) => if op (dbl q.bytes 0) then k q else none
    | .ok (none, _) => none
    | .error e => if e.1.code = 54 ∧ op 0 then some (serviceError ((Run.start s).failed e.2) p e.1).out else none

/-- XLATE_TRANSLATE; an op that Table 16.6 does not list is a bad request, answered here. -/
def execXlateTranslate (p : Nat) (s : State) :=
  serve p s (fun op => op == 1 || op == 0 || decide (4 < op)) fun q =>
    if dbl q.bytes 0 = 1 then serveModule s p q true
    else answer p q { key := requestKey q, status := 6 } q.run

/-- XLATE_LOOKUP. -/
def execXlateLookup (p : Nat) (s : State) := serve p s (· == 2) fun q => serveModule s p q false

/-- Removes cached entries: how many, and the run. -/
def eraseBarn (s : State) (r : Run) (f : BarnEnt → Bool) : Nat × Run :=
  let n := s.dev.barn.countP f
  (n, if n = 0 then r else (r.add (.dev fun d => barnWrite s.free (dropBarn f d))).add .tick)

/-- XLATE_INVALIDATE_KEY: status 1, with the number of entries removed (log entry 37). -/
def execXlateInvalidateKey (p : Nat) (s : State) :=
  serve p s (· == 3) fun q =>
    let x := eraseBarn s q.run fun e => e.key == requestKey q
    answer p q { key := requestKey q, status := 1, rsize := x.1 } x.2

/-- XLATE_INVALIDATE_ALL. -/
def execXlateInvalidateAll (p : Nat) (s : State) :=
  serve p s (· == 4) fun q =>
    let x := eraseBarn s q.run fun _ => true
    answer p q { key := requestKey q, status := 1, rsize := x.1 } x.2

end Sys2Proof.Machine
end

