-- ==== Sys2Proof/Machine/HostPort.lean ====
section
/-! DEFINITION. Sys2Proof/Machine/HostPort.lean: what the host and its peers do at the CXL port (22 R403 to R406, R415; 05 R124). The
host sees device address a at B + a, where B is the decoder's base (R404). -/

namespace Sys2Proof.Machine

/-- The options of Table 22.1 that the part implements. The port refuses any other, and its capability structure is absent. -/
def supported (o : LinkOpt) : Bool := [LinkOpt.hdmDb, .cacheHost, .p2pMem, .ideContain, .doeSpdm].contains o

/-- A link that trains (Table 22.1). -/
def trains (o : LinkOffer) : Bool := [16, 8, 4].contains o.width && [64, 32].contains o.speed && o.flit256

/-- LINK_TRAINING: with a width, speed or flit that Table 22.1 lacks the link does not train; of the options those are
negotiated that the part implements. The host's decoder is placed with it (log entry 126). -/
def execLinkTraining (o : LinkOffer) (s : State) :=
  event s (some [.dev fun d => { d with link := if trains o then some ⟨o.width, o.speed, o.opts.filter supported, o.base⟩ else none }])

/-- The link has trained (R403). -/
def linkUp (s : State) : Bool := s.dev.link.isSome

/-- The device address of a host access (R404); an address below the base is none of the part's. -/
def hostAddr (s : State) (addr : Nat) : Option Nat :=
  match s.dev.link with
  | some l => if l.base ≤ addr then some (addr - l.base) else none
  | none => none

/-- A device frame is shielded (R405): it has a key-slot tag or a scrub order holds it. -/
def shielded (s : State) (fr : Nat) : Bool := tget 0 s.dev.tags fr != 0 || frameHeld s fr (fr + 1)

/-- An access that the device refuses. -/
def refuseHost : Upd := .dev fun d => { d with hrej := d.hrej + 1 }

/-- A host access of n bytes at a device address: within one line of 64 bytes of the HDM range (R404). -/
def hostLine (addr n : Nat) : Bool := decide (1 ≤ n) && decide (addr % 64 + n ≤ 64) && decide (addr + n ≤ 2 ^ 40)

/-- The answer to a host read: the data, or zeros with poison from a shielded frame (R405). -/
def hostData (s : State) (a n : Nat) : List Byte × Bool :=
  if shielded s (a / 4096) then (List.replicate n 0, true) else ((List.range n).map fun i => homeByte s none (a + i), false)

/-- HOST_READ: coherent, so held stash lines answer; a refused read is counted. -/
def execHostRead (addr len : Nat) (s : State) :=
  event s <|
    match hostAddr s addr with
    | none => none
    | some a =>
      if !hostLine a len then none
      else some ((if shielded s (a / 4096) then [refuseHost] else []) ++ [.dev fun d => { d with answer := some (hostData s a len) }])

/-- Strands asleep in WAITM read again once the host takes a line (R124). -/
def wakeAll : Upd := .other fun s =>
  { s with strands := s.strands.map fun x =>
      (x.1, { x.2 with sleep := match x.2.sleep with | some (.waitm t false) => some (.waitm t true) | y => y }) }

/-- HOST_WRITE: a write of device memory, dropped where the frame is shielded. -/
def execHostWrite (addr : Nat) (data : List Byte) (s : State) :=
  event s <|
    match hostAddr s addr with
    | none => none
    | some a =>
      if !hostLine a data.length then none
      else if shielded s (a / 4096) then some [refuseHost]
      else some ((putHome (Run.start s) none a data).out ++ [wakeAll])

/-- HOST_LINE_WRITE: the host takes a line of its own memory from the device and writes it. -/
def execHostLineWrite (addr : Nat) (data : List Byte) (s : State) :=
  event s <|
    if !linkUp s || addr < 2 ^ 51 || 2 ^ 52 < addr + data.length || data.isEmpty || 64 < addr % 64 + data.length then none
    else some ((putHome (Run.start s) none addr data).out ++ [wakeAll])

/-- The measurement registers: firmware, translator, croft monitor (R415). -/
def measurements (d : Dev) : List (List Byte) :=
  [measReg firmwareDigest (d.meas.getD 0 []), measReg translatorId (d.meas.getD 1 []), measReg monitorDigest (d.meas.getD 2 [])]

/-- SPDM_MEASUREMENT_REQUEST: the answer reports the registers, signed with the module's key. -/
def execSpdmMeasurementRequest (s : State) :=
  event s <|
    if !linkUp s then none
    else some [.dev fun d => { d with spdm := measurements d ++ [Config.identitySign (measurements d).flatten] }]

end Sys2Proof.Machine
end

