-- ==== Sys2Proof/Machine/Reset.lean ====
section
/-! DEFINITION. Sys2Proof/Machine/Reset.lean: cold and warm resets (22 R414; 24 R427, R428; 16 R336; 01 R23). -/

namespace Sys2Proof.Machine

/-- The banks after a reset: the abandoned one is no longer whole. -/
def bootBanks (d : Dev) : List Bank2 :=
  if bootBank d ≠ d.active ∧ !(d.bank d.active).com then (d.setBank d.active fun k => { k with ok := false }).banks else d.banks

/-- The key slots that replayed orders hold (R414). -/
def replaySlots (os : List ScrubOrder) : Tab KSlot :=
  os.foldl (fun t o => match o.slot with | some k => tput t k { st := 2, ord := o.id } | none => t) []

/-- The bytes of a configuration record that are signed. -/
def signedRecord (c : CfgRec) : List Byte :=
  Config.recordImage [c.lim, c.core, c.tmu, c.hall, c.llc, c.thresher, c.steading, c.io, c.minVer]

/-- The power limit by the configuration record: the greatest one where the record names none that R422 admits (DESIGN CHOICE, log
entry 145). -/
def recordLim (c : CfgRec) : Nat := if 500 ≤ c.lim ∧ c.lim ≤ 3400 then c.lim else 3400
/-- The minimum security version by the configuration record, in the sixteen bits that `fwst` gives it (R428; DESIGN CHOICE, log
entry 145). -/
def recordVer (c : CfgRec) : Nat := min c.minVer 0xFFFF

/-- What a reset accepts of the Barn's records: a manifest that a ROM key signed (22 R415), and with its keys the configuration
record; the boot status double is 2 for a missing record and 1 for a bad signature, and then the record gives nothing (R427). -/
def acceptRecord (c : CfgRec) (d : Dev) : Nat × CfgRec :=
  let keys := manifestKeys d.revoked c
  let good := signedBy (Config.romKeys ++ keys) d.revoked c.sign (signedRecord c)
  let c := { c with manifest := keys }
  if !c.present then (2, { present := false, manifest := keys, manifestSign := c.manifestSign })
  else if good then (0, c)
  else (1, { sign := c.sign, manifest := keys, manifestSign := c.manifestSign })

/-- The images that the root of trust loads at a boot from bank b, register by register: one that fails its own signature is not
loaded (22 R415). -/
def loadedImages (d : Dev) (b : Nat) : List (List Nat) :=
  let i := (d.bank b).image
  let own := fun (g : Nat × Nat) (bs : List Byte) => signedBy (trustedKeys d) d.revoked ⟨g.1, g.2⟩ bs
  [if bankBoots d b then [i] else [],
   if own (Config.translatorSign i) (Config.translatorImage i) then [i] else [],
   if own (Config.monitorSign i) (Config.monitorImage i) then [i] else []]

/-- The module after a reset that finds the records c: what the Barn keeps, with the orders of the journal to run again; an entry
whose digest fails was never written (22 R413). Registers are zero or hold their reset values. Where a translator is loaded,
translations that another translator identity made are erased (16 R336), and each image that is loaded is measured (22 R415). -/
def resetDev (c : CfgRec) (d : Dev) : Dev :=
  let status := (acceptRecord c d).1
  let c := (acceptRecord c d).2
  let d := { d with record := c }
  let journal := d.journal.filter JEnt.ok
  let os := (journal.filter fun j => !j.done).map (·.order)
  let b := bootBank d
  let image := (d.bank b).image
  let d := if ((loadedImages d b).getD 1 []).isEmpty then d else dropBarn (fun e => translatorId e.image != translatorId image) d
  { orders := os, replay := os.length, kslot := replaySlots os, journal := journal, lastOrder := d.lastOrder, barnw := d.barnw,
    banks := bootBanks d, active := b, nextBank := b, minVer := max d.minVer (recordVer c), lim := recordLim c, revoked := d.revoked,
    boot := if status ≠ 0 then status else if bankBoots d b then 0 else 1, record := c, meas := loadedImages d b,
    barn := d.barn, erases := d.erases }

/-- The machine after a reset with this memory, these claims and no tags: all SRAM, registers, work in flight and
partitions are as at reset. The schedule and the counter of free values are the model's own. -/
def resetState (c : CfgRec) (s : State) (claims : List Claim) : State :=
  { mem := s.mem, dev := { resetDev c s.dev with claims := claims }, sched := s.sched, choice := s.choice, free := s.free }

/-- COLD_RESET: all device memory is zeroed and every frame is unclaimed; it also starts a module that had no power. -/
def execColdReset (c : CfgRec) (s : State) : Host.Outcome State Fault Refusal :=
  .next (applyAll [.zero 0 (2 ^ 40), .other fun s => resetState c s []] s)

/-- The frames with a key-slot tag. -/
def taggedFrames (s : State) : List Nat := (s.dev.tags.filter fun t => decide (t.2 ≠ 0)).map (·.1)

/-- WARM_RESET: every frame with a key-slot tag is zeroed and unclaimed. -/
def execWarmReset (c : CfgRec) (s : State) : Host.Outcome State Fault Refusal :=
  event s <|
    let fs := taggedFrames s
    let claims := s.dev.claims.flatMap fun c => fs.foldl (fun l f => l.flatMap (splitClaim f)) [c]
    some (fs.map (fun f => Upd.zero (4096 * f) (4096 * f + 4096)) ++ [.other fun s => resetState c s claims])

end Sys2Proof.Machine
end

