-- ==== Sys2Proof/Machine/Scalar.lean ====
section
/-! DEFINITION. Sys2Proof/Machine/Scalar.lean: integer and address arithmetic, bit fields, scalar loads, stores and prefetch,
and queue inspection (04 R78 to R88, R100). -/

namespace Sys2Proof.Machine

/-! ### Results -/

/-- SatS: clamps to the i64 range (04, notation). -/
def satS (v : Int) : Word := wrap (max (-(2 ^ 63)) (min (2 ^ 63 - 1) v))

/-- An exact result, wrapped, or saturated under a MOD with sat = 01 (R80). -/
def narrow (s : State) (v : Int) : Word := if s.pSat = 1 then satS v else wrap v

/-- The rounding mode of DIV, REM, SHR and SHA: the MOD field, else the default; rst acts as the default (R81). -/
def intMode (s : State) (dflt : Nat) : Nat := if s.pRnd = 0 ∨ s.pRnd = 6 then dflt else s.pRnd

/-- Shift amount and bit position (R79). -/
def shAmt (b : Word) : Nat := b.toNat % 64

/-- a / b rounded, with a sign carried into the numerator. -/
def divRound (mode : Nat) (a b : Int) : Int := roundInt mode 0 (if b < 0 then -a else a) b.natAbs

/-- The quotient of DIV and DIVN (R81). -/
def quot (mode : Nat) (a b : Int) : Int := if b = 0 then -1 else divRound mode a b
/-- The remainder of REM and REMN (R81). -/
def remd (mode : Nat) (a b : Int) : Int := if b = 0 then a else a - divRound mode a b * b

/-- Leading zero bits. -/
def clz64 (x : Word) : Nat := if x.toNat = 0 then 64 else 63 - x.toNat.log2
/-- Trailing zero bits. -/
def ctz64 (x : Word) : Nat := ((List.range 64).find? fun i => x.getLsbD i).getD 64
/-- One bits. -/
def popc64 (x : Word) : Nat := (List.range 64).countP fun i => x.getLsbD i

/-- An operation on two sources. -/
def alu3 (s : State) (o : R3) (f : Word → Word → Word) : Act :=
  issue s .both 0 [o.a, o.b] [o.d] [] fun v => .done (setD s.cur o.d (f (v 0) (v 1)))

/-- An operation on one source. -/
def alu2 (s : State) (o : R2) (f : Word → Word) : Act :=
  issue s .both 0 [o.a] [o.d] [] fun v => .done (setD s.cur o.d (f (v 0)))

/-! ### Integer and address arithmetic (Table 4.1) -/

/-- ADD. -/
def execAdd (o : R3) (s : State) := finish s o.form.len (alu3 s o fun a b => narrow s (sval a + sval b))
/-- SUB. -/
def execSub (o : R3) (s : State) := finish s o.form.len (alu3 s o fun a b => narrow s (sval a - sval b))
/-- MUL. -/
def execMul (o : R3) (s : State) := finish s o.form.len (alu3 s o fun a b => narrow s (sval a * sval b))
/-- MULH. -/
def execMulh (o : R3) (s : State) := finish s o.form.len (alu3 s o fun a b => wrap (sval a * sval b / 2 ^ 64))
/-- MULHN. -/
def execMulhn (o : R3) (s : State) :=
  finish s o.form.len (alu3 s o fun a b => BitVec.ofNat 64 (uval a * uval b / 2 ^ 64))
/-- DIV. -/
def execDiv (o : R3) (s : State) :=
  finish s o.form.len (alu3 s o fun a b => narrow s (quot (intMode s 2) (sval a) (sval b)))
/-- DIVN. -/
def execDivn (o : R3) (s : State) :=
  finish s o.form.len (alu3 s o fun a b => wrap (quot (intMode s 2) (uval a) (uval b)))
/-- REM. -/
def execRem (o : R3) (s : State) :=
  finish s o.form.len (alu3 s o fun a b => wrap (remd (intMode s 2) (sval a) (sval b)))
/-- REMN. -/
def execRemn (o : R3) (s : State) :=
  finish s o.form.len (alu3 s o fun a b => wrap (remd (intMode s 2) (uval a) (uval b)))
/-- AND. -/
def execAnd (o : R3) (s : State) := finish s o.form.len (alu3 s o fun a b => a &&& b)
/-- OR. -/
def execOr (o : R3) (s : State) := finish s o.form.len (alu3 s o fun a b => a ||| b)
/-- XOR. -/
def execXor (o : R3) (s : State) := finish s o.form.len (alu3 s o fun a b => a ^^^ b)
/-- ANDN. -/
def execAndn (o : R3) (s : State) := finish s o.form.len (alu3 s o fun a b => a &&& ~~~b)
/-- SHL; saturating it shifts the signed value (R80). -/
def execShl (o : R3) (s : State) := finish s o.form.len (alu3 s o fun a b => narrow s (sval a * 2 ^ shAmt b))
/-- SHR. -/
def execShr (o : R3) (s : State) :=
  finish s o.form.len (alu3 s o fun a b => wrap (roundInt (intMode s 4) 0 (uval a) (2 ^ shAmt b)))
/-- SHA. -/
def execSha (o : R3) (s : State) :=
  finish s o.form.len (alu3 s o fun a b => wrap (roundInt (intMode s 4) 0 (sval a) (2 ^ shAmt b)))
/-- ROT: left rotation. -/
def execRot (o : R3) (s : State) := finish s o.form.len (alu3 s o fun a b => a.rotateLeft (shAmt b))
/-- MIN. -/
def execMin (o : R3) (s : State) := finish s o.form.len (alu3 s o fun a b => if sval b < sval a then b else a)
/-- MAX. -/
def execMax (o : R3) (s : State) := finish s o.form.len (alu3 s o fun a b => if sval a < sval b then b else a)
/-- MINN. -/
def execMinn (o : R3) (s : State) := finish s o.form.len (alu3 s o fun a b => if uval b < uval a then b else a)
/-- MAXN. -/
def execMaxn (o : R3) (s : State) := finish s o.form.len (alu3 s o fun a b => if uval a < uval b then b else a)
/-- SLT. -/
def execSlt (o : R3) (s : State) := finish s o.form.len (alu3 s o fun a b => if sval a < sval b then 1 else 0)
/-- SLTN. -/
def execSltn (o : R3) (s : State) := finish s o.form.len (alu3 s o fun a b => if uval a < uval b then 1 else 0)
/-- CLZ. -/
def execClz (o : R2) (s : State) := finish s o.form.len (alu2 s o fun a => BitVec.ofNat 64 (clz64 a))
/-- CTZ. -/
def execCtz (o : R2) (s : State) := finish s o.form.len (alu2 s o fun a => BitVec.ofNat 64 (ctz64 a))
/-- POPC. -/
def execPopc (o : R2) (s : State) := finish s o.form.len (alu2 s o fun a => BitVec.ofNat 64 (popc64 a))
/-- SEXT. -/
def execSext (o : R3) (s : State) := finish s o.form.len (alu3 s o fun a b => sextAt a (shAmt b))
/-- ZEXT. -/
def execZext (o : R3) (s : State) := finish s o.form.len (alu3 s o fun a b => zextAt a (shAmt b))
/-- ADDSH. -/
def execAddsh (k : Nat) (o : R3) (s : State) :=
  finish s o.form.len (alu3 s o fun a b => narrow s (sval a * 2 ^ k + sval b))
/-- ADDI (R82). -/
def execAddi (o : RI) (s : State) :=
  finish s o.form.len (issue s .both 0 [o.a] [o.d] [] fun v => .done (setD s.cur o.d (narrow s (sval (v 0) + o.imm))))
/-- LI (R82). -/
def execLi (o : LIo) (s : State) :=
  finish s o.form.len (issue s .both 0 [] [o.d] [] fun _ => .done (setD s.cur o.d (wrap o.imm)))

/-! ### Bit fields (R83) -/

/-- BFX. -/
def execBfx (o : BFo) (s : State) :=
  finish s o.form.len (issue s .both 0 [o.a] [o.d] [] fun v =>
    .done (setD s.cur o.d (BitVec.ofNat 64 (uval (v 0) / 2 ^ o.pos % 2 ^ (o.len1 + 1)))))

/-- xd with its field replaced by the low bits of xa. -/
def insertField (d a : Word) (pos w : Nat) : Word :=
  BitVec.ofNat 64 (d.toNat % 2 ^ pos + a.toNat % 2 ^ w * 2 ^ pos + d.toNat / 2 ^ (pos + w) * 2 ^ (pos + w))

/-- The destination as a source operand. -/
def Dst.asSrc' : Dst → Src
  | .x r => .x r
  | .q n => .q n

/-- BFI. -/
def execBfi (o : BFo) (s : State) :=
  finish s o.form.len (issue s .both 0 [Dst.asSrc' o.d, o.a] [o.d] [] fun v =>
    .done (setD s.cur o.d (insertField (v 0) (v 1) o.pos (o.len1 + 1))))

/-! ### Loads, stores and prefetch -/

/-- The effective address: the offset counts access sizes, or bytes in the literal forms (R84). -/
def effAddr (f : Form) (a : Word) (off : Int) (size : Nat) : Word :=
  wrap (uval a + (if f.hasLit then off else off * size))

/-- A load of n bytes, sign-extended where sg. -/
def loadAct (s : State) (o : LDo) (n : Nat) (sg : Bool) : Act :=
  issue s .both 0 [o.a] [o.d] [] fun v =>
    Act.ofM s (plainLoad s o.d sg (effAddr o.form (v 0) o.off n) n) fun bs r =>
      .done (r.out ++ setD s.cur o.d (loadVal sg n bs))

/-- A store of the low n bytes of xd; the data register is the first operand (R28, R84). -/
def storeAct (s : State) (o : STo) (n : Nat) : Act :=
  issue s .both 0 [o.d, o.a] [] [] fun v =>
    Act.run s (scalarStore s (effAddr o.form (v 1) o.off n) ((bytes64 (v 0)).take n))

/-- LDB. -/
def execLdb (o : LDo) (s : State) := finish s o.form.len (loadAct s o 1 true)
/-- LDH. -/
def execLdh (o : LDo) (s : State) := finish s o.form.len (loadAct s o 2 true)
/-- LDW. -/
def execLdw (o : LDo) (s : State) := finish s o.form.len (loadAct s o 4 true)
/-- LDD. -/
def execLdd (o : LDo) (s : State) := finish s o.form.len (loadAct s o 8 false)
/-- LDBN. -/
def execLdbn (o : LDo) (s : State) := finish s o.form.len (loadAct s o 1 false)
/-- LDHN. -/
def execLdhn (o : LDo) (s : State) := finish s o.form.len (loadAct s o 2 false)
/-- LDWN. -/
def execLdwn (o : LDo) (s : State) := finish s o.form.len (loadAct s o 4 false)
/-- PREF changes no architectural state and never faults (R87). -/
def execPref (o : PFo) (s : State) := finish s o.form.len (issue s .both 0 [o.a] [] [] fun _ => .done [])
/-- STB. -/
def execStb (o : STo) (s : State) := finish s o.form.len (storeAct s o 1)
/-- STH. -/
def execSth (o : STo) (s : State) := finish s o.form.len (storeAct s o 2)
/-- STW. -/
def execStw (o : STo) (s : State) := finish s o.form.len (storeAct s o 4)
/-- STD. -/
def execStd (o : STo) (s : State) := finish s o.form.len (storeAct s o 8)

/-! ### Queue inspection (R100) -/

/-- QPEEK: the head entry, not popped; it waits under R29 while there is none. -/
def execQpeek (o : QPo) (s : State) :=
  finish s o.form.len (if qReader o.q ≠ s.cur % 2 then .trap { code := 4 } else
    issue s .both 0 [] [o.d] [] fun _ =>
      match s.myHart.queue o.q with
      | [] => .wait true []
      | w :: _ => .done (setD s.cur o.d w))

/-- QCNT: entries for the reader, room for the writer. -/
def execQcnt (o : QPo) (s : State) :=
  finish s o.form.len (issue s .both 0 [] [o.d] [] fun _ =>
    let n := (s.myHart.queue o.q).length
    .done (setD s.cur o.d (BitVec.ofNat 64 (if qReader o.q = s.cur % 2 then n else 16 - n))))

end Sys2Proof.Machine
end

