-- ==== Sys2Proof/Machine/Soft.lean ====
section
/-! DEFINITION. Sys2Proof/Machine/Soft.lean: the event of a soft error (24 R424): it is counted in its class, and an uncorrectable one is
raised as cause 54 in the partition that owns the access it strikes (20 R378; log entry 104). -/

namespace Sys2Proof.Machine

/-- A register or tile that the present instruction of strand n reads has an uncorrectable error: the trap is raised at the
instruction. It has no address, and `tval` is a free value. -/
def softStrand (k n : Nat) (s : State) : List Upd :=
  let st := s.strand n
  let a := trapAddr st
  let mod := match instrAt s (n / 2) st.pc with | some (.mod _) => true | _ => false
  countUpd k true :: trapUpds s n { code := 54, val := Config.freeWord s.free } a a (st.pfx.isSome || mod) (trapWord s (n / 2) a)
  ++ [.tick]

/-- The oldest run of core c stops on tile t (08 R219). -/
def softRun (c t : Nat) (s : State) : Option (List Upd) :=
  match (s.core c).runs with
  | [] => none
  | q :: _ =>
    if q.tile ≠ t then none else
    some (hartFatal s q.hart (5760 + c / 4) { code := 54, elem := BitVec.ofNat 64 q.steps } (runPlace (s.core c) q)
      ++ [.core c (faultRun 2)])

/-- Command id stops (09 R242; 10 R264). -/
def softCmd (id : Nat) (s : State) : Option (List Upd) :=
  match s.cmds.find? fun c => c.id == id && c.fin.isNone with
  | some c =>
    some (hartFatal s c.hart (cmdSource c) { code := 54, elem := BitVec.ofNat 64 c.step } (cmdPlace c)
      ++ [.cmd id fun c => { c with fin := some (haltToken c.bytes) }])
  | none => none

/-- The present move of episode slot k meets the error: the episode ends as a croft fault (log entry 127). -/
def softCroft (k : Nat) (s : State) : Option (List Upd) :=
  if !mayRun s k then none else some (croftError s k { code := 54 } ++ croftFault k 5 0 s)

/-- The digest of a Barn entry no longer holds. -/
def spoil (d : List Byte) : List Byte :=
  match d with
  | [] => [1]
  | b :: bs => (b ^^^ 1) :: bs

/-- What an uncorrectable error of class k does where it strikes, with its count; none where there is nothing to strike. -/
def softUpds (k : Nat) (hit : Struck) (s : State) : Option (List Upd) :=
  match hit with
  | .none => some [countUpd k true]
  | .strand n => if awake s n then some (softStrand k n s) else none
  | .data key => some [countUpd k true, .other fun s => { s with bad := if s.bad.contains key then s.bad else s.bad ++ [key] }]
  | .run c t => (softRun c t s).map (countUpd k true :: ·)
  | .cmd id => (softCmd id s).map (countUpd k true :: ·)
  | .save c off => (badSave s c off).map (countUpd k true :: ·)
  | .croft t => (softCroft t s).map (countUpd k true :: ·)
  | .barn i => if i < s.dev.barn.length then some [countUpd k true, .dev fun d =>
      { d with barn := (List.range d.barn.length).zip d.barn |>.map fun p => if p.1 = i then { p.2 with digest := spoil p.2.digest } else p.2 }]
    else none
  | .journal i => if i < s.dev.journal.length then some [countUpd k true, .dev fun d =>
      { d with journal := (List.range d.journal.length).zip d.journal |>.map fun p => if p.1 = i then { p.2 with digest := spoil p.2.digest } else p.2 }]
    else none

/-- SOFT_ERROR of class k: a corrected error is counted and changes nothing else; an uncorrectable one is also raised where it
strikes. -/
def execSoftError (k : Nat) (uncorr : Bool) (hit : Struck) (s : State) : Host.Outcome State Fault Refusal :=
  event s (if 8 ≤ k then none else if uncorr then softUpds k hit s else some [countUpd k false])

end Sys2Proof.Machine
end

