-- ==== Sys2Proof/Machine/System.lean ====
section
/-! DEFINITION. Sys2Proof/Machine/System.lean: TRAP, ERET, IDLE, RDGTC, FEAT, YIELD and GEXIT (04 R104 to R109; 20 R372), and
what befalls a strand that cannot fetch or decode (R57, R70), or mispredicts (02 R32). -/

namespace Sys2Proof.Machine

/-- TRAP (R104): the software trap with xa; it resumes after the TRAP. -/
def execTrap (o : RA) (s : State) :=
  finish s o.form.len (issue s .both 0 [o.a] [] [] fun v => .soft [] { code := 7, val := v 0 })

/-- The reduction of hart h that was interrupted at a site is given up. -/
def dropRed (h : Nat) (at_ : Word × Bool) : Upd := .hart h fun t =>
  { t with red := t.red.filter fun r => r.at_ != at_ }

/-- ERET (R372). A handler that does not resume the faulting instruction also gives up what that instruction had recorded
(R134, R194, R255; log entry 20). -/
def execEret (f : Form) (s : State) :=
  finish s f.len (issue s .both 0 [] [] [] fun _ =>
    let st := s.me
    if !st.tcause.getLsbD 63 then .trap { code := 53 } else
    let drop := st.tcause.getLsbD 61 && st.tpc != st.tfpc && !st.tcause.getLsbD 60
    let cause := (st.tcause ||| (if drop then 0x1000000000000000 else 0)) &&& 0x7FFFFFFFFFFFFFFF
    .jump ((if drop && s.isExec then [dropStrip s.h] else []) ++ [.strand s.cur fun st =>
      if st.tpc = st.tfpc then { st with tcause := cause }
      else { st with tcause := cause, arrived := recordsNotAt (st.tfpc, false) st.arrived, popv := recordsNotAt (st.tfpc, false) st.popv }]
      ++ if s.isExec && st.tpc != st.tfpc then [dropRed s.h (st.tfpc, false)] else [])
      st.tpc)

/-! ### IDLE (R105) -/

/-- The pushes counted for the queues that strand n reads. -/
def pushesOf (h : Hart) (n : Nat) : Nat := if n % 2 = 0 then h.pushA else h.pushX

/-- IDLE: the strand issues nothing until IDLE_END. -/
def execIdle (o : R2) (s : State) :=
  finish s o.form.len (issue s .both 0 [o.a] [o.d] [] fun _ =>
    .wait false [.strand s.cur fun st => { st with sleep := some (.idle o (s.cycles s.c) (pushesOf s.myHart s.cur) false) }])

/-- The event of a code has occurred for a sleeping strand. -/
def idleOver (s : State) (n code : Nat) (limit : Word) (start pushes : Nat) (token : Bool) : Bool :=
  match code with
  | 0 => limit != 0 && decide (start + limit.toNat ≤ s.cycles (n / 8))
  | 1 => pendingIrq s (n / 2) != 0
  | 2 => pushesOf (s.hart (n / 2)) n != pushes
  | 3 => token
  | _ => false

/-- IDLE_END: the IDLE retires with the code. -/
def execIdleEnd (n code : Nat) (s : State) : Host.Outcome State Fault Refusal :=
  match (s.strand n).sleep with
  | some (.idle o start pushes token) =>
    let s := { s with cur := n }
    let limit := srcVal s.me s.myHart [o.a] 0
    if awake s n && idleOver s n code limit start pushes token then
      finish s o.form.len (.done (popAll s.h [o.a] ++ setD n o.d (BitVec.ofNat 64 code)))
    else .fault .eventNotEnabled
  | _ => .fault .eventNotEnabled

/-- RDGTC (R106). -/
def execRdgtc (o : RD) (s : State) :=
  finish s o.form.len (issue s .both 0 [] [o.d] [] fun _ => .done (setD s.cur o.d s.gtc))

/-- FEAT (R107). -/
def execFeat (o : R2) (s : State) :=
  finish s o.form.len (issue s .both 0 [o.a] [o.d] [] fun v => .done (setD s.cur o.d (featDouble (v 0).toNat)))

/-- YIELD (R108): no architectural effect; the hart's slots of the present rotation become lendable (19 R348). -/
def execYield (f : Form) (s : State) :=
  finish s f.len (issue s .both 0 [] [] [] fun _ =>
    .done [.hart s.h fun h => { h with yielded := some (rotation s s.c) }])

/-- GEXIT (R109): ends the strand with status N(xa), whose held stores are performed; an execute strand with stores in its strip
traps instead. -/
def execGexit (o : RA) (s : State) :=
  finish s o.form.len (issue s .both 0 [o.a] [] [] fun v =>
    if stripHeld s s.cur then .trap { code := 18 }
    else .done ((flushHeld (Run.start s) s.cur).out ++ endStrand s s.cur (v 0)))

/-- An illegal encoding at the pc (R70, R71). -/
def execIllegalInstruction (s : State) := finish s 4 (.trap { code := 1 })

/-- A word of the instruction at the pc cannot be fetched (R57). -/
def execFetchFault (va : Word) (s : State) := finish s 4 (.trap (fetchTrap s s.h va))

/-- BRANCH_MISPREDICT: what was speculated is squashed and leaves nothing (02 R32, R33). -/
def execBranchMispredict (n : Nat) (s : State) := event s (if n < 5120 then some [] else none)

end Sys2Proof.Machine
end

