-- ==== Sys2Proof/Machine/VecRed.lean ====
section
/-! DEFINITION. Sys2Proof/Machine/VecRed.lean: reductions (07 R192 to R194). A reduction goes step by step, by elements or by the levels
of the tree; where the part so chooses it stops after some steps for an interrupt, and goes on from its record. -/

namespace Sys2Proof.Machine

/-- A reduction: its steps, the values it starts with, one step, which gives the values and the flags it raises, and the result. -/
structure Reduction where
  n : Nat
  init : List Nat
  step : Nat → List Nat → List Nat × Flags
  result : List Nat → Nat × Flags

/-- n steps of a reduction from step i on, over the values and flags so far. -/
def redSteps (q : Reduction) : Nat → Nat → List Nat × Flags → List Nat × Flags
  | 0, _, a => a
  | n + 1, i, a =>
    let r := q.step i a.1
    redSteps q n (i + 1) (r.1, a.2 ||| r.2)

/-- The record of an interrupted reduction at the present instruction, if the hart holds one (R194). -/
def heldRed (s : State) : Option Red :=
  match s.myHart.red with
  | some r => if r.at_ = site s.me then some r else none
  | none => none

/-- Where a reduction stands: the step, the values and the flags so far. -/
def redStart (s : State) (q : Reduction) : Nat × List Nat × Flags :=
  match heldRed s with
  | some r => (r.pos, r.vals, r.flags)
  | none => (0, q.init, 0)

/-- The end of a reduction: vd[0], the flags merged once, and no record left. -/
def redEnd (s : State) (cx : VCtx) (d : Nat) (q : Reduction) (a : List Nat × Flags) : List Upd :=
  let r := q.result a.1
  (if s.myHart.red.isSome then [Upd.hart s.h fun h => { h with red := none }] else [])
  ++ cx.put d cx.w [(0, r.1)] ++ setFlags s (a.2 ||| r.2)

/-- A reduction's turn: to its end, or for as many steps as the part chooses. -/
def redAct (s : State) (cx : VCtx) (d : Nat) (q : Reduction) : Act :=
  let (i, a) := redStart s q
  let whole := Act.done (redEnd s cx d q (redSteps q (q.n - i) i a))
  match s.choice.stop with
  | none => whole
  | some k =>
    if q.n ≤ i + k then whole
    else if i + k = 0 then .wait false []
    else
      let b := redSteps q k i a
      .wait false [.hart s.h fun h => { h with red := some ⟨site s.me, i + k, b.1, b.2⟩ }]

/-- A reduction over the active elements in ascending order, with one value: `f` takes the value, the element and its pattern. -/
def scanRed (s : State) (cx : VCtx) (o : VVo) (init : Nat) (f : Nat → Nat → Nat → Nat × Flags) (result : Nat → Nat × Flags) : Reduction :=
  { n := cx.vl
    init := [init]
    step := fun e vs =>
      if cx.on s o.mask e then
        let r := f (vs.headD 0) e (cx.get s o.a cx.w e)
        ([r.1], r.2)
      else (vs, 0)
    result := fun vs => result (vs.headD 0) }

/-- The turn of a scan. -/
def scanAct (s : State) (o : VVo) (ok : Ty → Bool) (f : VCtx → Nat → Nat → Nat → Nat × Flags) (result : Ty → Nat → Nat × Flags) : Act :=
  vecRun s o.c ok fun cx b => redAct s cx o.d (scanRed s cx o (b 0) (f cx) (result cx.ty))

/-- The value of two doubles in two's complement. -/
def wideVal (vs : List Nat) : Int := (BitVec.ofNat 128 (vs.getD 0 0 + vs.getD 1 0 * 2 ^ 64)).toInt

/-- The exact sum of VREDADD with one more element, as two doubles in two's complement. -/
def sumStep (t : Ty) (vs : List Nat) (x : Nat) : List Nat :=
  let n := (BitVec.ofInt 128 (wideVal vs + decodeI t x)).toNat
  [n % 2 ^ 64, n / 2 ^ 64]

/-- VREDADD: saturated once at the end under MOD sat. -/
def execVredadd (o : VVo) (s : State) :=
  finish s o.form.len (vecRun s o.c Ty.isInt fun cx b =>
    redAct s cx o.d
      { n := cx.vl
        init := sumStep cx.ty [0, 0] (b 0)
        step := fun e vs => (if cx.on s o.mask e then sumStep cx.ty vs (cx.get s o.a cx.w e) else vs, 0)
        result := fun vs => narrowI cx.ty (s.pSat == 1) (wideVal vs) })

/-- VREDADDO: saturated at each step under MOD sat. -/
def execVredaddo (o : VVo) (s : State) :=
  finish s o.form.len (scanAct s o Ty.isInt
    (fun cx a _ x => narrowI cx.ty (s.pSat == 1) (decodeI cx.ty a + decodeI cx.ty x)) fun _ a => (a, 0))

/-- VREDMAX. -/
def execVredmax (o : VVo) (s : State) :=
  finish s o.form.len (scanAct s o Ty.isInt
    (fun cx a _ x => (encodeI cx.ty (max (decodeI cx.ty a) (decodeI cx.ty x)), 0)) fun _ a => (a, 0))

/-- VREDMIN. -/
def execVredmin (o : VVo) (s : State) :=
  finish s o.form.len (scanAct s o Ty.isInt
    (fun cx a _ x => (encodeI cx.ty (min (decodeI cx.ty a) (decodeI cx.ty x)), 0)) fun _ a => (a, 0))

/-- One rounded addition of a float reduction, whose draw is that of index i (R193). -/
def redStep (s : State) (t : Ty) (i a b : Nat) : Nat × Flags :=
  let r := sumF (dynMode s) (decodeF t a) (decodeF t b)
  let q := roundAt s (dynMode s) t i r.1
  (q.1, q.2 ||| r.2)

/-- One level of the tree: pairs are added, pair p of level L with the index 2^L p + 2^(L-1). -/
def treeLevel (s : State) (t : Ty) (lvl : Nat) : Nat → List Nat → List Nat × Flags
  | p, a :: b :: rest =>
    let x := redStep s t (2 ^ lvl * p + 2 ^ (lvl - 1)) a b
    let q := treeLevel s t lvl (p + 1) rest
    (x.1 :: q.1, x.2 ||| q.2)
  | _, l => (l, 0)

/-- The levels of the tree over VL leaves: the least k with VL ≤ 2^k, from k on; fuel bounds the search. -/
def levelsFrom (n : Nat) : Nat → Nat → Nat
  | 0, k => k
  | fuel + 1, k => if n ≤ 2 ^ k then k else levelsFrom n fuel (k + 1)

/-- The leaves of the tree: the elements, −0 in inactive positions and in the padding. -/
def treeLeaves (cx : VCtx) (s : State) (o : VVo) (p : Nat) : List Nat :=
  (List.range p).map fun e => if e < cx.vl && cx.on s o.mask e then cx.get s o.a cx.w e else 2 ^ (cx.w - 1)

/-- The tree of R193, and the final rounding with vb[0]. -/
def treeRed (s : State) (cx : VCtx) (o : VVo) (b : Nat) : Reduction :=
  let k := levelsFrom cx.vl 20 0
  { n := k
    init := treeLeaves cx s o (2 ^ k)
    step := fun i vs => treeLevel s cx.ty (i + 1) 0 vs
    result := fun vs => redStep s cx.ty 0 b (vs.headD 0) }

/-- VFREDADD. -/
def execVfredadd (o : VVo) (s : State) :=
  finish s o.form.len (vecRun s o.c halfTy fun cx b => redAct s cx o.d (treeRed s cx o (b 0)))

/-- VFREDADDO. -/
def execVfredaddo (o : VVo) (s : State) :=
  finish s o.form.len (scanAct s o halfTy (fun cx a e x => redStep s cx.ty e a x) fun t a => (canonF t a, 0))

/-- VFREDMAX. -/
def execVfredmax (o : VVo) (s : State) :=
  finish s o.form.len (scanAct s o halfTy (fun cx a _ x => (minmaxF cx.ty true a x, 0)) fun t a => (canonF t a, 0))

/-- VFREDMIN. -/
def execVfredmin (o : VVo) (s : State) :=
  finish s o.form.len (scanAct s o halfTy (fun cx a _ x => (minmaxF cx.ty false a x, 0)) fun t a => (canonF t a, 0))

end Sys2Proof.Machine
end

