-- ==== Sys2Proof/Machine/Walk.lean ====
section
/-! DEFINITION. Sys2Proof/Machine/Walk.lean: fibre trees and FWALK (10 R275 to R279). The record is walked once, at the command's first
run: which value of its window a source byte gives 09 R243 leaves open (DESIGN CHOICE, log entry 121). -/

namespace Sys2Proof.Machine

/-! ### Records (R276) -/

/-- A level of a record. -/
structure Level where
  kind : Nat
  extent : Nat
  pos : Nat
  crd : Nat
deriving DecidableEq, Repr

/-- Level j of a record's bytes, where its fields are in order. R276 aligns the n32 arrays to 4 and says nothing of a bitmap:
the model accepts any bitmap base (DESIGN CHOICE, log entry 119). -/
def levelOf (bs : List Byte) (j : Nat) : Option Level :=
  let d := fun k => dbl bs (8 + 32 * j + 8 * k)
  let kind := d 0 % 8
  let uses := fun (k : Nat) (pos : Bool) => if pos then k == 1 || k == 2 || k == 4 else k == 1 || k == 3 || k == 4
  if d 0 / 8 % 2 ^ 29 = 0 ∧ kind < 5 ∧ d 0 / 2 ^ 32 ≠ 0 ∧ d 3 = 0 ∧ d 1 % (if kind = 2 then 1 else 4) = 0 ∧ d 2 % 4 = 0
      ∧ (uses kind true ∨ d 1 = 0) ∧ (uses kind false ∨ d 2 = 0) then
    some ⟨kind, d 0 / 2 ^ 32, d 1, d 2⟩
  else none

/-- The levels of a record, or none for a bad one. -/
def levelsOf (bs : List Byte) : Nat → Nat → Option (List Level)
  | 0, _ => some []
  | n + 1, j =>
    match levelOf bs j, levelsOf bs n (j + 1) with
    | some l, some ls => some (l :: ls)
    | _, _ => none

/-- Why a walk ends at a failed access: at an uncorrectable error, or as a bad record (R277). -/
def walkStop (t : TrapInfo) : Stop := if t.code = 54 then .access t else .cause 7

/-- Reads n bytes of a record or its arrays. -/
def walkReads (sp : Space) (n a : Nat) : S (List Byte) := fun r =>
  match engReads sp n a r with
  | .error e => .error (walkStop e.1, e.2)
  | .ok x => .ok x

/-- Reads a record. -/
def readRecord (sp : Space) (a : Nat) : S (List Level) := fun r =>
  match walkReads sp 8 a r with
  | .error e => .error e
  | .ok (h, r) =>
    let n := ofLe h
    if n = 0 ∨ 3 < n then .error (.cause 7, r) else
    match walkReads sp (8 + 32 * n) a r with
    | .error e => .error e
    | .ok (bs, r) =>
      match levelsOf bs n 0 with
      | some ls => .ok (ls, r)
      | none => .error (.cause 7, r)

/-! ### The walk (R277) -/

/-- A walk in progress: values still wanted, the values so far with the latest first, and why it has stopped: with leaves
remaining, or at a failure. -/
structure Walk where
  need : Nat
  out : List Nat := []
  more : Bool := false
  bad : Option Stop := none

/-- The walk has stopped. -/
def Walk.stopped (w : Walk) : Bool := w.more || w.bad.isSome

/-- A leaf (R277): a value of 2^32 or more is a bad record. A walk that has all its values looks for the next leaf, and a bad record
met there ends it with st 3 (R279; DESIGN CHOICE, log entry 129). -/
def Walk.leaf (v : Nat) (w : Walk) : Walk :=
  if 2 ^ 32 ≤ v then { w with bad := some (.cause 7) }
  else if w.need = 0 then { w with more := true }
  else { w with need := w.need - 1, out := v :: w.out }

/-- A walk with its run. -/
abbrev Walking := Walk × Run

/-- The walk meets a bad record. -/
def badWalk (a : Walking) : Walking := ({ a.1 with bad := some (.cause 7) }, a.2)

/-- Goes on with what a step gives; its stop ends the walk. -/
def walkBy {α : Type} (f : S α) (a : Walking) (k : α → Walking → Walking) : Walking :=
  match f a.2 with
  | .error e => ({ a.1 with bad := some e.1 }, e.2)
  | .ok (x, r) => k x (a.1, r)

/-- n rounds from i on, ended by a stop. -/
def walkRounds (f : Nat → Walking → Walking) : Nat → Nat → Walking → Walking
  | 0, _, a => a
  | n + 1, i, a => if a.1.stopped then a else walkRounds f n (i + 1) (f i a)

/-- Entry i of an n32 array. -/
def withEntry (sp : Space) (base i : Nat) (a : Walking) (k : Nat → Walking → Walking) : Walking :=
  walkBy (walkReads sp 4 (base + 4 * i)) a fun bs => k (ofLe bs)

/-- Bit b of a bitmap. -/
def readBit (sp : Space) (base b : Nat) : S Bool := fun r =>
  match walkReads sp 1 (base + b / 8) r with
  | .error e => .error e
  | .ok (bs, r) => .ok ((ofLe bs).testBit (b % 8), r)

/-- Set bits of a bitmap below bit b. -/
def rankOf (sp : Space) (base : Nat) : Nat → S Nat
  | 0 => fun r => .ok (0, r)
  | b + 1 => fun r =>
    match rankOf sp base b r with
    | .error e => .error e
    | .ok (n, r) =>
      match readBit sp base b r with
      | .error e => .error e
      | .ok (x, r) => .ok (n + x.toNat, r)

/-- Child c at position q of a parent with linear coordinate lin; `k` goes on with the position and the coordinate. -/
def childOf (l : Level) (k : Nat → Nat → Walking → Walking) (lin q c : Nat) (a : Walking) : Walking :=
  if a.1.stopped then a
  else if l.extent ≤ c then badWalk a
  else k q (lin * l.extent + c) a

/-- The children of position p at a level. -/
def walkKind (sp : Space) (l : Level) (child : Nat → Nat → Walking → Walking) (p : Nat) (a : Walking) : Walking :=
  let span := fun (k : Nat → Nat → Walking → Walking) =>
    withEntry sp l.pos p a fun lo a => withEntry sp l.pos (p + 1) a fun hi a => if hi < lo then badWalk a else k lo (hi - lo) a
  match l.kind with
  | 0 => walkRounds (fun c => child (p * l.extent + c) c) l.extent 0 a
  | 1 => span fun lo n => walkRounds (fun q a => withEntry sp l.crd q a fun c => child q c) n lo
  | 2 => walkRounds (fun c a =>
      let b := p * l.extent + c
      walkBy (readBit sp l.pos b) a fun on a =>
        if !on then a else walkBy (rankOf sp l.pos b) a fun q => child q c) l.extent 0 a
  | 3 => withEntry sp l.crd p a fun c => child p c
  | _ => span fun lo n => walkRounds (fun q a =>
      withEntry sp l.crd (3 * q) a fun st a => withEntry sp l.crd (3 * q + 1) a fun len a =>
        withEntry sp l.crd (3 * q + 2) a fun fp => walkRounds (fun k => child (fp + k) (st + k)) len 0) n lo

/-- Walk (R277): a leaf's value is its linear coordinate, or its position where `pos` is set. -/
def walkFrom (sp : Space) (pos : Bool) : List Level → Nat → Nat → Walking → Walking
  | [], _, _, a => a
  | l :: ls, p, lin, a =>
    walkKind sp l (childOf l (fun q v a =>
      if ls.isEmpty then (a.1.leaf (if pos then q else v), a.2) else walkFrom sp pos ls q v a) lin) p a

/-- The walk of a record: up to `cap` values and the token's st at their end (R279), or an uncorrectable error. -/
def walkRecord (sp : Space) (rec cap : Nat) (pos : Bool) (r : Run) : Except (TrapInfo × Run) ((List Nat × Nat) × Run) :=
  match readRecord sp rec r with
  | .error (.access t, r) => .error (t, r)
  | .error (.cause _, r) => .ok (([], 3), r)
  | .ok (ls, r) =>
    let (w, r) := walkFrom sp pos ls 0 0 ({ need := cap }, r)
    match w.bad with
    | some (.access t) => .error (t, r)
    | some (.cause _) => .ok ((w.out.reverse, 3), r)
    | none => .ok ((w.out.reverse, if w.more then 2 else 0), r)

/-! ### FWALK at issue (R278) -/

/-- A record that can be read now has a bad number of levels or a bad kind. The translations that the reads fill stay
(09 R230). -/
def badShape (sp : Space) (a : Nat) (r : Run) : Bool × Run :=
  match engReads sp 8 a r with
  | .error e => (false, r.failed e.2)
  | .ok (h, r) =>
    let n := ofLe h
    if n = 0 ∨ 3 < n then (true, r) else
    match engReads sp (8 + 32 * n) a r with
    | .error e => (false, r.failed e.2)
    | .ok (bs, r) => ((List.range n).any fun j => decide (4 < dbl bs (8 + 32 * j) % 8), r)

/-- FWALK. Of the record's range only the first double, which says how many levels it has, is checked for canonical ends, and a
record base that is no multiple of 8 is an engine-value fault at issue (R258, R278; DESIGN CHOICE, log entry 128). -/
def execFwalk (o : DA) (s : State) :=
  finish s 4 (issueCmd s o 4 fun x =>
    let (rec, dst, cap, w) := (x.getD 0 0, x.getD 1 0, x.getD 2 0, x.getD 3 0)
    let mem := w.testBit 16
    let sh := w / 2 ^ 17 % 4
    match engCtl s w 0xF0000 with
    | none => .trap engineValue
    | some c =>
      if rec % 8 ≠ 0 ∨ cap = 0 ∨ 2 ^ 32 < cap ∨ (if mem then dst % 4 ≠ 0 ∨ !rangeOk dst (4 * cap) else dst ≠ 0)
          ∨ (!mem ∧ !(s.myHart.sheafOf sh).init) ∨ !rangeOk rec 8 then .trap engineValue
      else
        let (bad, r) := badShape (spaceOf s s.h) rec (flushHeld (Run.start s) s.cur)
        if bad then .part r.kept engineValue
        else .done (acceptAfter r s (newCmd s (.fwalk rec dst cap mem sh (w.testBit 19)) o.d (w % 4) c.1 c.2)))

/-! ### Runs (R275, R279) -/

/-- The places of n values from value k on, up to the first failure. -/
def valueLocs (sp : Space) (dst : Nat) : Nat → Nat → Run → List (List Loc) × Option TrapInfo × Run
  | 0, _, r => ([], none, r)
  | n + 1, k, r =>
    match engLocs sp 1 4 (dst + 4 * k) r with
    | .error e => ([], some e.1, e.2)
    | .ok (ls, r) => let (t, e, r) := valueLocs sp dst n (k + 1) r; (ls :: t, e, r)

/-- The values of a FWALK that are left, found at its first run. -/
def valuesLeft (c : Cmd) (sp : Space) (rec cap : Nat) (pos : Bool) (r : Run) : Except (TrapInfo × Run) ((List Nat × Nat) × Run) :=
  match c.walk with
  | some w => .ok (w, r)
  | none => walkRecord sp rec cap pos r

/-- One run of a FWALK: up to 64 values, the end of the walk with the last. -/
def walkRun (c : Cmd) (r : Run) : Option Run :=
  match c.work with
  | .fwalk rec dst cap mem sh out =>
    let sp := cmdSpace r.s c
    let n := c.step
    match valuesLeft c sp rec cap out r with
    | .error e => some (stopCmd c e.1 (4 * n) e.2)
    | .ok ((vs, st), r) =>
      let now := vs.take 64
      let rest := vs.drop 64
      let k := n + now.length
      let fin := if rest.isEmpty then some (tokenVal st (if st = 3 then 7 else 0) (4 * k)) else none
      let go := fun (k : Nat) (part : List Nat) (fin : Option Word) (r : Run) => r.add (.cmd c.id fun c =>
        { c.oweEach (k - n) 4 with step := k, bytes := 4 * k, walk := some (rest, st), open_ := part, fin := fin })
      if mem then
        let (ls, e, r) := valueLocs sp dst now.length n r
        let at_ := ls.flatten
        if granuleHeld r.s c (granules at_) then none else
        let r := engPut sp.core at_ (now.flatMap (leBytes 4)) r
        match e with
        | some t => some (stopCmd c t (4 * (n + ls.length)) (go (n + ls.length) [] none r))
        | none => some (go k (lastGranule (dst + 4 * k) at_) fin r)
      else
        let t := (r.s.hart c.hart).sheafOf sh
        if c.lost.isNone ∧ t.capacity < t.ents.length + now.length then some (stopWith c (4 * n) (.cause 7, r))
        else some (go k [] fin (if c.lost.isSome then r
          else (spillRun sp sp.core t now r).add (.hart c.hart (updSheaf sh fun t => t.append now))))
  | _ => none

/-- FWALK_RUN. -/
def execFwalkRun (id : Nat) (s : State) :=
  event s <|
    match cmdOf s id with
    | some c =>
      match c.work with
      | .fwalk .. => if cmdRuns s c 1 && writeTurn s c then tryCtx s c fun r => (walkRun c r).map (didWork c 1) else none
      | _ => none
    | none => none

end Sys2Proof.Machine
end

