-- ==== Sys2Proof/Machine/Dispatch.lean ====
section
/-! DEFINITION. Sys2Proof/Machine/Dispatch.lean: one arm per instruction and event, each one call of its meaning. -/

namespace Sys2Proof.Machine

/-- What the machine does with one instruction of the strand that moves, or with one event. -/
def exec (i : Instr) (s : State) : Host.Outcome State Fault Refusal :=
  match i with
  | .add o => Sys2Proof.Machine.execAdd o s
  | .sub o => Sys2Proof.Machine.execSub o s
  | .mul o => Sys2Proof.Machine.execMul o s
  | .mulh o => Sys2Proof.Machine.execMulh o s
  | .mulhn o => Sys2Proof.Machine.execMulhn o s
  | .div o => Sys2Proof.Machine.execDiv o s
  | .divn o => Sys2Proof.Machine.execDivn o s
  | .rem o => Sys2Proof.Machine.execRem o s
  | .remn o => Sys2Proof.Machine.execRemn o s
  | .and o => Sys2Proof.Machine.execAnd o s
  | .or o => Sys2Proof.Machine.execOr o s
  | .xor o => Sys2Proof.Machine.execXor o s
  | .andn o => Sys2Proof.Machine.execAndn o s
  | .shl o => Sys2Proof.Machine.execShl o s
  | .shr o => Sys2Proof.Machine.execShr o s
  | .sha o => Sys2Proof.Machine.execSha o s
  | .rot o => Sys2Proof.Machine.execRot o s
  | .min o => Sys2Proof.Machine.execMin o s
  | .max o => Sys2Proof.Machine.execMax o s
  | .minn o => Sys2Proof.Machine.execMinn o s
  | .maxn o => Sys2Proof.Machine.execMaxn o s
  | .slt o => Sys2Proof.Machine.execSlt o s
  | .sltn o => Sys2Proof.Machine.execSltn o s
  | .clz o => Sys2Proof.Machine.execClz o s
  | .ctz o => Sys2Proof.Machine.execCtz o s
  | .popc o => Sys2Proof.Machine.execPopc o s
  | .sext o => Sys2Proof.Machine.execSext o s
  | .zext o => Sys2Proof.Machine.execZext o s
  | .addsh k o => Sys2Proof.Machine.execAddsh k o s
  | .addi o => Sys2Proof.Machine.execAddi o s
  | .li o => Sys2Proof.Machine.execLi o s
  | .bfx o => Sys2Proof.Machine.execBfx o s
  | .bfi o => Sys2Proof.Machine.execBfi o s
  | .beq o => Sys2Proof.Machine.execBeq o s
  | .bne o => Sys2Proof.Machine.execBne o s
  | .blt o => Sys2Proof.Machine.execBlt o s
  | .bge o => Sys2Proof.Machine.execBge o s
  | .bltn o => Sys2Proof.Machine.execBltn o s
  | .bgen o => Sys2Proof.Machine.execBgen o s
  | .jal o => Sys2Proof.Machine.execJal o s
  | .j o => Sys2Proof.Machine.execJ o s
  | .jr o => Sys2Proof.Machine.execJr o s
  | .jtab o => Sys2Proof.Machine.execJtab o s
  | .loopbrk f => Sys2Proof.Machine.execLoopbrk f s
  | .loop o => Sys2Proof.Machine.execLoop o s
  | .brqNz o => Sys2Proof.Machine.execBrqNz o s
  | .brqZ o => Sys2Proof.Machine.execBrqZ o s
  | .ldb o => Sys2Proof.Machine.execLdb o s
  | .ldh o => Sys2Proof.Machine.execLdh o s
  | .ldw o => Sys2Proof.Machine.execLdw o s
  | .ldd o => Sys2Proof.Machine.execLdd o s
  | .ldbn o => Sys2Proof.Machine.execLdbn o s
  | .ldhn o => Sys2Proof.Machine.execLdhn o s
  | .ldwn o => Sys2Proof.Machine.execLdwn o s
  | .pref o => Sys2Proof.Machine.execPref o s
  | .stb o => Sys2Proof.Machine.execStb o s
  | .sth o => Sys2Proof.Machine.execSth o s
  | .stw o => Sys2Proof.Machine.execStw o s
  | .std o => Sys2Proof.Machine.execStd o s
  | .qpeek o => Sys2Proof.Machine.execQpeek o s
  | .qcnt o => Sys2Proof.Machine.execQcnt o s
  | .amoadd o => Sys2Proof.Machine.execAmoadd o s
  | .amoand o => Sys2Proof.Machine.execAmoand o s
  | .amoor o => Sys2Proof.Machine.execAmoor o s
  | .amoxor o => Sys2Proof.Machine.execAmoxor o s
  | .amomin o => Sys2Proof.Machine.execAmomin o s
  | .amomax o => Sys2Proof.Machine.execAmomax o s
  | .amominn o => Sys2Proof.Machine.execAmominn o s
  | .amomaxn o => Sys2Proof.Machine.execAmomaxn o s
  | .amoswp o => Sys2Proof.Machine.execAmoswp o s
  | .amocas o => Sys2Proof.Machine.execAmocas o s
  | .lda o => Sys2Proof.Machine.execLda o s
  | .stl o => Sys2Proof.Machine.execStl o s
  | .fence o => Sys2Proof.Machine.execFence o s
  | .vsync f sc => Sys2Proof.Machine.execVsync f sc s
  | .bari o => Sys2Proof.Machine.execBari o s
  | .bara o => Sys2Proof.Machine.execBara o s
  | .barw o => Sys2Proof.Machine.execBarw o s
  | .barr o => Sys2Proof.Machine.execBarr o s
  | .barx o => Sys2Proof.Machine.execBarx o s
  | .waitm o => Sys2Proof.Machine.execWaitm o s
  | .trap o => Sys2Proof.Machine.execTrap o s
  | .eret f => Sys2Proof.Machine.execEret f s
  | .idle o => Sys2Proof.Machine.execIdle o s
  | .rdgtc o => Sys2Proof.Machine.execRdgtc o s
  | .feat o => Sys2Proof.Machine.execFeat o s
  | .yield f => Sys2Proof.Machine.execYield f s
  | .gexit o => Sys2Proof.Machine.execGexit o s
  | .gets o => Sys2Proof.Machine.execGets o s
  | .sets o => Sys2Proof.Machine.execSets o s
  | .swaps o => Sys2Proof.Machine.execSwaps o s
  | .mod m => Sys2Proof.Machine.execMod m s
  | .tlbinv o => Sys2Proof.Machine.execTlbinv o s
  | .cinv o => Sys2Proof.Machine.execCinv o s
  | .cwb o => Sys2Proof.Machine.execCwb o s
  | .keyz o => Sys2Proof.Machine.execKeyz o s
  | .scrub o => Sys2Proof.Machine.execScrub o s
  | .rlsetWriteEntry o => Sys2Proof.Machine.execRlsetWriteEntry o s
  | .rlsetReadEntry o => Sys2Proof.Machine.execRlsetReadEntry o s
  | .rlsetSwitch o => Sys2Proof.Machine.execRlsetSwitch o s
  | .rlsetResume o => Sys2Proof.Machine.execRlsetResume o s
  | .rlsetDiscard o => Sys2Proof.Machine.execRlsetDiscard o s
  | .launch o => Sys2Proof.Machine.execLaunch o s
  | .launchi o => Sys2Proof.Machine.execLaunchi o s
  | .cpya o => Sys2Proof.Machine.execCpya o s
  | .cpyw o => Sys2Proof.Machine.execCpyw o s
  | .cpyx o => Sys2Proof.Machine.execCpyx o s
  | .gath o => Sys2Proof.Machine.execGath o s
  | .scred o => Sys2Proof.Machine.execScred o s
  | .epush o => Sys2Proof.Machine.execEpush o s
  | .epop o => Sys2Proof.Machine.execEpop o s
  | .fwalk o => Sys2Proof.Machine.execFwalk o s
  | .stmap o => Sys2Proof.Machine.execStmap o s
  | .stunmap o => Sys2Proof.Machine.execStunmap o s
  | .stflush o => Sys2Proof.Machine.execStflush o s
  | .shinit sh a => Sys2Proof.Machine.execShinit sh a s
  | .shclr sh => Sys2Proof.Machine.execShclr sh s
  | .shcnt o => Sys2Proof.Machine.execShcnt o s
  | .cmarm f m a => Sys2Proof.Machine.execCmarm f m a s
  | .cmref o => Sys2Proof.Machine.execCmref o s
  | .cmchk f m clr => Sys2Proof.Machine.execCmchk f m clr s
  | .cmrd o => Sys2Proof.Machine.execCmrd o s
  | .cmoff f m => Sys2Proof.Machine.execCmoff f m s
  | .stepa o => Sys2Proof.Machine.execStepa o s
  | .stepo o => Sys2Proof.Machine.execStepo o s
  | .epver o => Sys2Proof.Machine.execEpver o s
  | .epret o => Sys2Proof.Machine.execEpret o s
  | .scommit o => Sys2Proof.Machine.execScommit o s
  | .sabort f => Sys2Proof.Machine.execSabort f s
  | .vsetl o => Sys2Proof.Machine.execVsetl o s
  | .vsett o => Sys2Proof.Machine.execVsett o s
  | .vsetm o => Sys2Proof.Machine.execVsetm o s
  | .vgetg o => Sys2Proof.Machine.execVgetg o s
  | .vld o => Sys2Proof.Machine.execVld o s
  | .vldf o => Sys2Proof.Machine.execVldf o s
  | .vldh o => Sys2Proof.Machine.execVldh o s
  | .vlds o => Sys2Proof.Machine.execVlds o s
  | .vldx o => Sys2Proof.Machine.execVldx o s
  | .vst o => Sys2Proof.Machine.execVst o s
  | .vstq o => Sys2Proof.Machine.execVstq o s
  | .vsth o => Sys2Proof.Machine.execVsth o s
  | .vsts o => Sys2Proof.Machine.execVsts o s
  | .vstx o => Sys2Proof.Machine.execVstx o s
  | .vstxo o => Sys2Proof.Machine.execVstxo o s
  | .vadd o => Sys2Proof.Machine.execVadd o s
  | .vsub o => Sys2Proof.Machine.execVsub o s
  | .vmul o => Sys2Proof.Machine.execVmul o s
  | .vmulh o => Sys2Proof.Machine.execVmulh o s
  | .vmac o => Sys2Proof.Machine.execVmac o s
  | .vmin o => Sys2Proof.Machine.execVmin o s
  | .vmax o => Sys2Proof.Machine.execVmax o s
  | .vminn o => Sys2Proof.Machine.execVminn o s
  | .vmaxn o => Sys2Proof.Machine.execVmaxn o s
  | .vand o => Sys2Proof.Machine.execVand o s
  | .vor o => Sys2Proof.Machine.execVor o s
  | .vxor o => Sys2Proof.Machine.execVxor o s
  | .vshl o => Sys2Proof.Machine.execVshl o s
  | .vshr o => Sys2Proof.Machine.execVshr o s
  | .vsha o => Sys2Proof.Machine.execVsha o s
  | .vabs o => Sys2Proof.Machine.execVabs o s
  | .vsadd o => Sys2Proof.Machine.execVsadd o s
  | .vssub o => Sys2Proof.Machine.execVssub o s
  | .vfadd o => Sys2Proof.Machine.execVfadd o s
  | .vfsub o => Sys2Proof.Machine.execVfsub o s
  | .vfmul o => Sys2Proof.Machine.execVfmul o s
  | .vfma o => Sys2Proof.Machine.execVfma o s
  | .vfnma o => Sys2Proof.Machine.execVfnma o s
  | .vfdiv o => Sys2Proof.Machine.execVfdiv o s
  | .vfmin o => Sys2Proof.Machine.execVfmin o s
  | .vfmax o => Sys2Proof.Machine.execVfmax o s
  | .vfsqrt o => Sys2Proof.Machine.execVfsqrt o s
  | .vfrece o => Sys2Proof.Machine.execVfrece o s
  | .vfabs o => Sys2Proof.Machine.execVfabs o s
  | .vfneg o => Sys2Proof.Machine.execVfneg o s
  | .vfclass o => Sys2Proof.Machine.execVfclass o s
  | .vfexp2 o => Sys2Proof.Machine.execVfexp2 o s
  | .vfrcpp o => Sys2Proof.Machine.execVfrcpp o s
  | .vcmp o => Sys2Proof.Machine.execVcmp o s
  | .vfcmp o => Sys2Proof.Machine.execVfcmp o s
  | .mand o => Sys2Proof.Machine.execMand o s
  | .mor o => Sys2Proof.Machine.execMor o s
  | .mxor o => Sys2Proof.Machine.execMxor o s
  | .mnot f d a => Sys2Proof.Machine.execMnot f d a s
  | .mpopc o => Sys2Proof.Machine.execMpopc o s
  | .mfirst o => Sys2Proof.Machine.execMfirst o s
  | .vmset o => Sys2Proof.Machine.execVmset o s
  | .viota o => Sys2Proof.Machine.execViota o s
  | .vcvt o => Sys2Proof.Machine.execVcvt o s
  | .vnarrow o => Sys2Proof.Machine.execVnarrow o s
  | .vnarrowChain o => Sys2Proof.Machine.execVnarrowChain o s
  | .vftoi o => Sys2Proof.Machine.execVftoi o s
  | .vitof o => Sys2Proof.Machine.execVitof o s
  | .vslideup o => Sys2Proof.Machine.execVslideup o s
  | .vslidedn o => Sys2Proof.Machine.execVslidedn o s
  | .vperm o => Sys2Proof.Machine.execVperm o s
  | .vcompr o => Sys2Proof.Machine.execVcompr o s
  | .vexpand o => Sys2Proof.Machine.execVexpand o s
  | .vidxc o => Sys2Proof.Machine.execVidxc o s
  | .vbcast o => Sys2Proof.Machine.execVbcast o s
  | .vextr o => Sys2Proof.Machine.execVextr o s
  | .vins o => Sys2Proof.Machine.execVins o s
  | .stxs o => Sys2Proof.Machine.execStxs o s
  | .stxw o => Sys2Proof.Machine.execStxw o s
  | .vredadd o => Sys2Proof.Machine.execVredadd o s
  | .vredaddo o => Sys2Proof.Machine.execVredaddo o s
  | .vredmax o => Sys2Proof.Machine.execVredmax o s
  | .vredmin o => Sys2Proof.Machine.execVredmin o s
  | .vfredadd o => Sys2Proof.Machine.execVfredadd o s
  | .vfredaddo o => Sys2Proof.Machine.execVfredaddo o s
  | .vfredmax o => Sys2Proof.Machine.execVfredmax o s
  | .vfredmin o => Sys2Proof.Machine.execVfredmin o s
  | .afdef o => Sys2Proof.Machine.execAfdef o s
  | .afpop o => Sys2Proof.Machine.execAfpop o s
  | .afcnt o => Sys2Proof.Machine.execAfcnt o s
  | .epopv o => Sys2Proof.Machine.execEpopv o s
  | .shpush o => Sys2Proof.Machine.execShpush o s
  | .shins o => Sys2Proof.Machine.execShins o s
  | .shpopb f v sh => Sys2Proof.Machine.execShpopb f v sh s
  | .tmatt o => Sys2Proof.Machine.execTmatt o s
  | .tmdet f => Sys2Proof.Machine.execTmdet f s
  | .tmalg o => Sys2Proof.Machine.execTmalg o s
  | .tmalgs o => Sys2Proof.Machine.execTmalgs o s
  | .tmzero f t => Sys2Proof.Machine.execTmzero f t s
  | .tmop o => Sys2Proof.Machine.execTmop o s
  | .tmrun o => Sys2Proof.Machine.execTmrun o s
  | .tmrd o => Sys2Proof.Machine.execTmrd o s
  | .tmwr o => Sys2Proof.Machine.execTmwr o s
  | .tmwait o => Sys2Proof.Machine.execTmwait o s
  | .tmstat o => Sys2Proof.Machine.execTmstat o s
  | .illegalInstruction => Sys2Proof.Machine.execIllegalInstruction s
  | .fetchFault va => Sys2Proof.Machine.execFetchFault va s
  | .branchMispredict n => Sys2Proof.Machine.execBranchMispredict n s
  | .queueDeadlock h => Sys2Proof.Machine.execQueueDeadlock h s
  | .sourceStop p src => Sys2Proof.Machine.execSourceStop p src s
  | .haltResume p => Sys2Proof.Machine.execHaltResume p s
  | .haltEnd p => Sys2Proof.Machine.execHaltEnd p s
  | .interrupt n => Sys2Proof.Machine.execInterrupt n s
  | .waitmWake n => Sys2Proof.Machine.execWaitmWake n s
  | .waitmTimeout n => Sys2Proof.Machine.execWaitmTimeout n s
  | .idleEnd n code => Sys2Proof.Machine.execIdleEnd n code s
  | .barrierCredit id => Sys2Proof.Machine.execBarrierCredit id s
  | .barrierWaitReturn n => Sys2Proof.Machine.execBarrierWaitReturn n s
  | .copyChunk id => Sys2Proof.Machine.execCopyChunk id s
  | .copyComplete id => Sys2Proof.Machine.execCopyComplete id s
  | .stashCommandComplete id => Sys2Proof.Machine.execStashCommandComplete id s
  | .gatherRow id => Sys2Proof.Machine.execGatherRow id s
  | .scatterReduceUpdate id => Sys2Proof.Machine.execScatterReduceUpdate id s
  | .fwalkRun id => Sys2Proof.Machine.execFwalkRun id s
  | .engineCommandComplete id => Sys2Proof.Machine.execEngineCommandComplete id s
  | .completionStreamPush id => Sys2Proof.Machine.execCompletionStreamPush id s
  | .tmuKStep c t => Sys2Proof.Machine.execTmuKStep c t s
  | .wcTimeout c blk => Sys2Proof.Machine.execWcTimeout c blk s
  | .translationFill h va => Sys2Proof.Machine.execTranslationFill h va s
  | .sliceEnd p => Sys2Proof.Machine.execSliceEnd p s
  | .switchComplete p => Sys2Proof.Machine.execSwitchComplete p s
  | .latencyLimitMiss p => Sys2Proof.Machine.execLatencyLimitMiss p s
  | .contextSpillDone c => Sys2Proof.Machine.execContextSpillDone c s
  | .contextFillDone c => Sys2Proof.Machine.execContextFillDone c s
  | .spillStop c off => Sys2Proof.Machine.execSpillStop c off s
  | .fillStop c off => Sys2Proof.Machine.execFillStop c off s
  | .launchDispatch p id => Sys2Proof.Machine.execLaunchDispatch p id s
  | .gangPlacement p id => Sys2Proof.Machine.execGangPlacement p id s
  | .launchCompletion p id => Sys2Proof.Machine.execLaunchCompletion p id s
  | .hostRead addr len => Sys2Proof.Machine.execHostRead addr len s
  | .hostWrite addr data => Sys2Proof.Machine.execHostWrite addr data s
  | .hostLineWrite addr data => Sys2Proof.Machine.execHostLineWrite addr data s
  | .linkTraining o => Sys2Proof.Machine.execLinkTraining o s
  | .spdmMeasurementRequest => Sys2Proof.Machine.execSpdmMeasurementRequest s
  | .xlateTranslate p => Sys2Proof.Machine.execXlateTranslate p s
  | .xlateLookup p => Sys2Proof.Machine.execXlateLookup p s
  | .xlateInvalidateKey p => Sys2Proof.Machine.execXlateInvalidateKey p s
  | .xlateInvalidateAll p => Sys2Proof.Machine.execXlateInvalidateAll p s
  | .episodeStart p => Sys2Proof.Machine.execEpisodeStart p s
  | .episodeEndCommand p => Sys2Proof.Machine.execEpisodeEndCommand p s
  | .imageCopyDone slot => Sys2Proof.Machine.execImageCopyDone slot s
  | .takeCall slot => Sys2Proof.Machine.execTakeCall slot s
  | .postCall slot => Sys2Proof.Machine.execPostCall slot s
  | .stampCall slot => Sys2Proof.Machine.execStampCall slot s
  | .actionRecordPlaced slot => Sys2Proof.Machine.execActionRecordPlaced slot s
  | .observationRecordPlaced slot => Sys2Proof.Machine.execObservationRecordPlaced slot s
  | .watchdogExpiry slot => Sys2Proof.Machine.execWatchdogExpiry slot s
  | .croftFault slot mcause mtval => Sys2Proof.Machine.execCroftFault slot mcause mtval s
  | .kload n v => Sys2Proof.Machine.execKload n v s
  | .winnowerOrderComplete => Sys2Proof.Machine.execWinnowerOrderComplete s
  | .partCfgWrite n p v => Sys2Proof.Machine.execPartCfgWrite n p v s
  | .stgrpWrite n p v => Sys2Proof.Machine.execStgrpWrite n p v s
  | .islandControl n v => Sys2Proof.Machine.execIslandControl n v s
  | .islandPowerChangeDone k => Sys2Proof.Machine.execIslandPowerChangeDone k s
  | .throttleStep => Sys2Proof.Machine.execThrottleStep s
  | .thermalShutdown => Sys2Proof.Machine.execThermalShutdown s
  | .softError k uncorr hit => Sys2Proof.Machine.execSoftError k uncorr hit s
  | .fwStage n v => Sys2Proof.Machine.execFwStage n v s
  | .fwStageDone len modulus sig ver => Sys2Proof.Machine.execFwStageDone len modulus sig ver s
  | .fwCommit n => Sys2Proof.Machine.execFwCommit n s
  | .fwSelectBank n => Sys2Proof.Machine.execFwSelectBank n s
  | .coldReset c => Sys2Proof.Machine.execColdReset c s
  | .warmReset c => Sys2Proof.Machine.execWarmReset c s
  | .croftUserInstruction slot => Sys2Proof.Machine.execCroftUserInstruction slot s
  | .winnowerUnitDone => Sys2Proof.Machine.execWinnowerUnitDone s
  | .powerLoss => Sys2Proof.Machine.execPowerLoss s
  | .keyRevocation v => Sys2Proof.Machine.execKeyRevocation v s

end Sys2Proof.Machine
end

