-- ==== Sys2Proof/Machine/Step.lean ====
section
/-! DEFINITION. Sys2Proof/Machine/Step.lean: one step of the machine: the next turn of the schedule, or the strand `cur` when
the schedule is empty (log entries 1 to 3). -/

namespace Sys2Proof.Machine

/-- Runs what was fetched; an instruction that may look at late loads finds them performed (11 R291, R293), and so does an illegal word,
whose emulation routine looks at registers (15 R322). -/
def execFetched (f : Fetched) (s : State) : Host.Outcome State Fault Refusal :=
  match f with
  | .fail va => exec (.fetchFault va) s
  | .illegal => exec .illegalInstruction (settle .illegalInstruction s)
  | .instr i => exec i (settle i s)

/-- The instruction at the pc of the strand that moves. After a MOD whose prefix is in force the second instruction of the
pair runs in the same step (R74). -/
def execNext (s : State) : Host.Outcome State Fault Refusal :=
  let f := fetchNext s
  match execFetched f.1 f.2 with
  | .next t =>
    if s.me.pfx.isNone && (t.strand s.cur).pfx.isSome then execFetched (fetchNext t).1 (fetchNext t).2 else .next t
  | o => o

/-- A turn of strand n: nothing happens where it cannot issue. -/
def stepStrand (s : State) (n : Nat) : Host.Outcome State Fault Refusal :=
  if runnable s n then execNext { s with cur := n } else .next { s with cur := n }

/-- Strand n only waits at issue from s to t: nothing of it or its hart changes but the counts of R31 (R348). -/
def onlyWaits (s t : State) (n : Nat) : Bool :=
  let count := fun (h : Hart) => { h.endAll with waitA := false, waitX := false, dead := none }
  t.strand n == s.strand n && count (t.hart (n / 2)) == count (s.hart (n / 2))

/-- A slot of a core: the first of its strands that does not wait at issue issues (R348), and the slot is its own, whether the
instruction retires, traps or stops (R52). -/
def stepSlot : List Nat → State → Host.Outcome State Fault Refusal
  | [], s => .next s
  | n :: ns, s =>
    match stepStrand s n with
    | .next t => if onlyWaits s t n then stepSlot ns t else .next (applyAll [.hart (n / 2) fun h => { h with last := n % 2 }] t)
    | o => o

/-- The store number k that strand n holds is performed, on a core that is on; a store waits for the older ones to its bytes
(R47, R88) and for the older elements of its VSTXO (07 R177). -/
def stepPerform (s : State) (n k : Nat) : Host.Outcome State Fault Refusal :=
  let l := (s.hart (n / 2)).heldBy n
  match l[k]? with
  | some e =>
    if coreOn s (n / 8) && !(l.take k).any (·.before e)
    then .next (applyAll ((performHeld (Run.start s) n e).out ++ [.hart (n / 2) (setHeld n (l.eraseIdx k))]) s)
    else .fault .eventNotEnabled
  | none => .fault .eventNotEnabled

/-- One turn. -/
def stepTurn (s : State) (t : Turn) : Host.Outcome State Fault Refusal :=
  match t with
  | .strand n => stepStrand s n
  | .core c => stepSlot (slotStrands s c) s
  | .event i => if isEvent i then exec i s else .fault .eventNotEnabled
  | .perform n k => stepPerform s n k
  | .land h k => if coreOn s (h / 4) then landLate h k s else .fault .eventNotEnabled
  | .landScalar h k => landScalar h k s
  | .l1d c line valid => moveL1d c line valid s
  | .l1i c line => moveL1i c line s
  | .llc line => moveLlc line s
  | .load p ent obj len text => loadTurn p ent obj len text s

/-- One step. -/
def step (s : State) : Host.Outcome State Fault Refusal :=
  match s.sched with
  | [] => stepStrand { s with choice := {} } s.cur
  | t :: rest => stepTurn { s with sched := rest, ns := s.ns + t.ns, choice := t.choice } t.turn

/-- The bytes of the instruction of nbits bits w and the bytes above it, twenty in all. -/
def tableBytes (nbits w : Nat) : List Byte := (tableWords nbits w).flatMap bytesOfWord

/-- s with an instruction stored where `step` fetches next: at the location of the pc of strand `cur`, with an empty
schedule, so that this strand moves. -/
def State.withFetchWord (s : State) (nbits w : Nat) : State :=
  match fetchPa { s with sched := [] } with
  | some (.mem _ pa _) => { s with sched := [], mem := writeBytes s.mem pa (tableBytes nbits w) }
  | _ => { s with sched := [] }

end Sys2Proof.Machine
end

