-- ==== Sys2Proof/Machine/Translated.lean ====
section
/-! DEFINITION. Sys2Proof/Machine/Translated.lean: what a translated code object computes when a hart calls it, or the harts of a gang
to which the translator has assigned its instances (16 R324 to R330), tied to the steps of the machine. The premises of a call are the
conventions of 15 R312 to R316 and harts that nothing else disturbs (log entry 8). -/

namespace Sys2Proof.Machine

/-! ### What the calling harts see -/

/-- Memory of state s as the context of the harts sees it once their held stores are performed, and the flags of their execute
strands together. The frames carry the attributes that they have in state s₀, the entry of the call: a claim that the call makes (R230)
hides no byte from the comparison. -/
def viewOf (s₀ s : State) (hs : List Nat) : View :=
  let r := performAll (Run.start { s with dev := { s.dev with claims := s₀.dev.claims, tlb := s₀.dev.tlb } }) (hs.map (· / 4))
  { mem := fun va =>
      match loadBytesM (spaceOf s (hs.headD 0)) none va 1 r with
      | .ok (b :: _, _) => b
      | _ => 0
    fpf := hs.foldl (fun f h => f ||| (s.strand (2 * h + 1)).fpf) 0 }

/-- An access of hart h to some bytes meets an ordinary fault of its address in state s: it is misaligned, or some byte of it has no
translation or no permission, or its frame carries the other attribute (04 R85; 09 R225 to R239). -/
def accessFault (s : State) (h : Nat) (write : Bool) (p : Nat × Nat) : Prop :=
  p.1 % p.2 ≠ 0 ∨ ∃ i < p.2, ∃ e, translate (Run.start s) (spaceOf s h) ((p.1 + i) % 2 ^ 64) (if write then 1 else 0) = .error e

/-- A trap of the ordinary faults of an address (Table 20.3). -/
def addressTrap (code : Nat) : Bool := [10, 11, 12, 13, 14].contains code

/-- The trap that a strand has taken or at which it has stopped: its code and its address. -/
def trapOf (st : Strand) : Option (Nat × Nat) :=
  match st.fatal with
  | some f => some (f.info.code, f.info.val.toNat)
  | none => if st.tcause.getLsbD 63 then some (st.tcause.toNat % 256, st.tval.toNat) else none

/-! ### The run of a call -/

/-- The strands that call: both of the first hart, and of the others the access strand and, where R36 does not park it, the execute
strand. -/
def callStrands (s : State) (hs : List Nat) : List Nat :=
  hs.flatMap fun h => if h ≠ hs.headD 0 ∧ (s.strand (2 * h + 1)).parked then [2 * h] else [2 * h, 2 * h + 1]

/-- An event of the calling harts' own work: of their commands, their cores' runs and held blocks, and their strands' sleeps and waits.
The translations of a call are filled by its accesses: a fill at another address is none of its work and might claim a frame of the
call (R230). -/
def ownEvent (hs : List Nat) (i : Instr) : Bool :=
  match i with
  | .branchMispredict n => hs.contains (n / 2)
  | .waitmWake n => hs.contains (n / 2)
  | .waitmTimeout n => hs.contains (n / 2)
  | .idleEnd n _ => hs.contains (n / 2)
  | .copyChunk _ => true
  | .copyComplete _ => true
  | .stashCommandComplete _ => true
  | .gatherRow _ => true
  | .scatterReduceUpdate _ => true
  | .fwalkRun _ => true
  | .engineCommandComplete _ => true
  | .completionStreamPush _ => true
  | .barrierCredit _ => true
  | .barrierWaitReturn n => hs.contains (n / 2)
  | .tmuKStep .. => true
  | .wcTimeout c _ => (hs.map (· / 4)).contains c
  | _ => false

/-- A strand has come back to its return address. -/
def cameBack (s : State) (n : Nat) (ra : Nat → Word) : Bool := (s.strand n).pc == ra n

/-- One of the strands has trapped. -/
def hasTrapped (s : State) (ns : List Nat) : Bool := ns.any fun n => (trapOf (s.strand n)).isSome

/-- The call has ended: every strand has come back, or one has trapped. -/
def callEnded (s : State) (ns : List Nat) (ra : Nat → Word) : Bool := hasTrapped s ns || ns.all fun n => cameBack s n ra

/-- The next turn belongs to the call: it moves a strand that has not come back, by itself or through the slot table of its core, performs
a store or a load of a calling hart, or is an event of the harts' own work. -/
def ownTurn (s : State) (hs ns : List Nat) (ra : Nat → Word) : Bool :=
  let goes := fun n => ns.contains n && !cameBack s n ra
  match s.sched with
  | [] => false
  | t :: _ => match t.turn with
    | .strand n => goes n
    | .core c => (slotStrands { s with ns := s.ns + t.ns } c).all goes
    | .perform n _ => hs.contains (n / 2)
    | .land h _ => hs.contains h
    | .landScalar h _ => hs.contains h
    | .event i => ownEvent hs i
    | .l1d .. => true
    | .l1i .. => true
    | .llc _ => true
    | .load .. => false

/-- A state that the call reaches from s before it ends or as it ends. -/
inductive CallPath (hs ns : List Nat) (ra : Nat → Word) (s : State) : State → Prop where
  | start : CallPath hs ns ra s s
  | next {t u : State} : CallPath hs ns ra s t → callEnded t ns ra = false → ownTurn t hs ns ra = true → step t = .next u →
      CallPath hs ns ra s u

/-- A run of a call from s to t, at which it has ended. -/
def CallRun (hs ns : List Nat) (ra : Nat → Word) (s t : State) : Prop := CallPath hs ns ra s t ∧ callEnded t ns ra = true

/-- The first text section of an object: the offset of its bytes and its size. -/
def textOf (b : List Byte) : Nat × Nat := let o := dbl b 0x60 % 2 ^ 32; (dbl b (o + 8), dbl b (o + 16))

/-- An address lies in the object's text, which is loaded at `text`. -/
def inText (b : List Byte) (text : Word) (a : Nat) : Prop := (a + 2 ^ 64 - text.toNat) % 2 ^ 64 < (textOf b).2

/-- A strand stands at its entry, live and undisturbed: no trap, no wait, no prefix, a return address at which an instruction may
stand (03 R56), no active loop but the caller's on lc0 and lc1, which end outside the object (15 R312, R315), and it gets slots (19
R348). -/
def strandCalls (s : State) (n : Nat) (b : List Byte) (text : Word) (entry : Nat) : Prop :=
  let st := s.strand n
  st.pc = text + BitVec.ofNat 64 entry ∧ st.life = .live ∧ st.stopped = false ∧ st.parked = false ∧ st.pfx = none ∧ st.sleep = none
  ∧ st.pend = [] ∧ trapOf st = none ∧ (∀ l ∈ st.loops, l.lc < 2 ∧ ¬ inText b text l.stop.toNat)
  ∧ ¬ inText b text (getX st 1).toNat ∧ (getX st 1).toNat % 4 = 0 ∧ (getX st 2).toNat % 64 = 0
  ∧ awake s n = true ∧ holdsSlot s (n / 2) = true

/-- Nothing else of the machine touches what the call touches: no command, run or store is in flight, nothing is halted, and the
hart is no service hart, which interrupts reach (20 R373). -/
def undisturbed (s : State) (h : Nat) : Prop :=
  s.cmds = [] ∧ (∀ c ∈ s.cores, c.2.runs = []) ∧ (∀ x ∈ s.harts, x.2.held = [] ∧ x.2.heldA = []) ∧ (∀ c ∈ s.cores, c.2.wc = [])
  ∧ s.bad = [] ∧ privOf s h = 0 ∧ (s.part (partIx s h)).halt.st = 0 ∧ (s.hart h).strip = [] ∧ (s.hart h).red = none
  ∧ (s.hart h).loadsDone = true

/-- An address lies in the stack of strand n, for which a mebibyte below x2 stands. -/
def inStack (s : State) (n x : Nat) : Prop := ((getX (s.strand n) 2).toNat + 2 ^ 64 - 1 - x) % 2 ^ 64 < 2 ^ 20

/-- An address lies in an element that an instance of a call touches. -/
def inArrays (m : List Byte) (a : Args) (x : Nat) : Prop :=
  ∃ i p, inDomain m a i = true ∧ p ∈ accesses m a i ∧ (x + 2 ^ 64 - (placeBytes m p.1 p.2).1) % 2 ^ 64 < (placeBytes m p.1 p.2).2

/-- Where an access of hart h to an address lands, by kind (0 load, 1 store, 2 fetch). -/
def placeOf (r : Run) (h x kind : Nat) : Option Loc := (translate r (spaceOf r.s h) x kind).toOption.map (·.1.loc)

/-- The elements of a call of the strands ns of hart h lie apart from the object's text and from the stacks, by address and in memory, and
no two addresses that the call uses name one byte. The access to an address of the call takes no frame from the text and the stacks
(R230), and a store to an element moves none of these addresses: the arrays hold no page table of theirs. The stacks can be read and
written, and lie apart from one another. -/
def arraysApart (s : State) (h : Nat) (ns : List Nat) (m : List Byte) (a : Args) (b : List Byte) (text : Word) : Prop :=
  let stack := fun (x : Nat) => ∃ n ∈ ns, inStack s n x
  let own := fun (x : Nat) => inText b text x ∨ stack x
  let uses := fun (x : Nat) => x < 2 ^ 64 ∧ (inArrays m a x ∨ own x)
  let r := Run.start s
  (∀ x, inArrays m a x → ¬ own x)
  ∧ (∀ x k, stack x → k < 2 → (placeOf r h x k).isSome = true)
  ∧ (∀ x, ∀ n ∈ ns, ∀ k ∈ ns, inStack s n x → inStack s k x → n = k)
  ∧ (∀ x y j k l q, uses x → uses y → placeOf r h x j = some l → placeOf r h y k = some q → l.key = q.key → x = y)
  ∧ (∀ x y j k z q, uses x → uses y → own x → translate r (spaceOf s h) y k = .ok (z, q) → placeOf q h x j = placeOf r h x j)
  ∧ ∀ x y j l v, uses x → uses y → inArrays m a y → placeOf r h y 1 = some l →
      placeOf (storeLoc r (2 * h + 1) l [v]) h x j = placeOf r h x j

/-- The harts that call: one, or all the members of one gang in rank order, of whom none drives another hart's vector unit (02 R37). -/
def calling (s : State) (hs : List Nat) : Prop :=
  hs ≠ [] ∧ (∀ h ∈ hs, ∀ k ∈ (s.hart h).att, k ∈ hs)
  ∧ (hs.length = 1 ∨ ∃ g, gangOf s (hs.headD 0) = some g ∧ g.2.members = hs)

/-- The calling harts call the function of code object b, whose first text section is loaded, executable, at the aligned address `text`: their
strands stand at its entries (15 Table 15.5, R316) with the call's arguments a in their registers, between strips (15 R314), and the
arrays' elements are the same bytes to all of them. -/
def callsObject (s : State) (hs : List Nat) (m b : List Byte) (a : Args) (text : Word) : Prop :=
  let ns := callStrands s hs
  text.toNat % 4 = 0 ∧ calling s hs
  ∧ (∀ n ∈ ns, strandCalls s n b text (dbl b (if n % 2 = 0 then 0x50 else 0x58)) ∧ argsOf (headOf m) (getX (s.strand n)) = a)
  ∧ (∀ h ∈ hs, undisturbed s h ∧ arraysApart s h ns m a b text)
  ∧ (∀ h ∈ hs, ∀ x k, inArrays m a x → placeOf (Run.start s) h x k = placeOf (Run.start s) (hs.headD 0) x k)
  ∧ ∀ i, i < (textOf b).2 → (viewOf s s hs).mem ((text.toNat + i) % 2 ^ 64) = b.getD ((textOf b).1 + i) 0
      ∧ (i % 4 = 0 → ∀ h ∈ hs, (fetchWord s h ((text.toNat + i) % 2 ^ 64)).isSome = true)

/-- The harts that call the object that the translator makes of a module: one at least (R328). -/
def objectHarts (d : Dev) (m : List Byte) : Nat := max 1 (Config.codeHarts m (translatorId d.image))

/-- The translator is right for a module (R326): wherever its harts call the object that it makes of the module, the call can always
still end, and as it ends it has come back with what the module's instances give, or has trapped at an address at which an
instance's access faults (R324): as the call found it, or by the attribute of a frame that an earlier access of the call has claimed
(R230). It is what the spec says of every translator that the firmware may hold; the model's machine takes its object from
`Config.codeBody`, of which nothing is known but this (log entry 8). -/
def TranslatorRight (d : Dev) (m : List Byte) : Prop :=
  moduleFault m = none → ∀ (s : State) (hs : List Nat) (a : Args) (text : Word),
    let ns := callStrands s hs
    let ra := fun n => getX (s.strand n) 1
    hs.length = objectHarts d m → callsObject s hs m (codeObject d m) a text →
    (∀ t, CallPath hs ns ra s t → ∃ l u, CallRun hs ns ra { t with sched := l } u)
    ∧ ∀ t, CallRun hs ns ra s t →
      if hasTrapped t ns = true then
        ∃ n ∈ ns, ∃ code va, trapOf (t.strand n) = some (code, va) ∧ addressTrap code = true ∧
          CallTraps m a (fun w p => accessFault s (n / 2) w p ∨ accessFault t (n / 2) w p) va
      else ∀ n ∈ ns, n % 2 = 1 →
        CallGives m a (accessFault s (n / 2)) (viewOf s s hs) (viewOf s t hs) (getX (t.strand n) 4)

end Sys2Proof.Machine
end

