-- ==== Sys2Proof/Safety.lean ====
section
/-! DEFINITION. Sys2Proof/Safety.lean: the terms in which statements speak of a run: how an instruction ends, what it leaves
alone, and the invariants. Nothing here is used by the machine. -/

namespace Sys2Proof.Machine

/-! ### How an instruction ends -/

/-- The state after the strand that moves has made the updates `us` with an instruction of `len` bytes and gone on: at the
next instruction, or at a loop's start (R50). -/
def State.after (s : State) (len : Nat) (us : List Upd) : State := retired (applyAll us s) s.cur len none

/-- The state after it has made the updates and transferred control. -/
def State.jumped (s : State) (len : Nat) (us : List Upd) (target : Word) : State :=
  retired (applyAll us s) s.cur len (some target)

/-- No loop that ends at this instruction returns to a misaligned address (R58). -/
def endsWell (s : State) (us : List Upd) : Prop := badReturn (applyAll us s) s.cur = none

/-- Every active loop of the strand that moves starts at an aligned address, as LOOP makes it (R94). -/
def State.loopsAligned (s : State) : Prop := ∀ l ∈ s.me.loops, l.start.toNat % 4 = 0

/-- The instruction retires with the effects `us`. -/
def Completes (i : Instr) (s : State) (len : Nat) (us : List Upd) : Prop :=
  endsWell s us → exec i s = .next (s.after len us)

/-- The instruction retires with the effects `us` and goes to `target`, which is aligned. -/
def Goes (i : Instr) (s : State) (len : Nat) (us : List Upd) (target : Word) : Prop :=
  target.toNat % 4 = 0 → exec i s = .next (s.jumped len us target)

/-- The instruction raises this trap, with no effect of its own (R370). -/
def Traps (i : Instr) (s : State) (len : Nat) (t : TrapInfo) : Prop := exec i s = .next (takeTrap s s.cur t len)

/-- The instruction raises this trap after the updates `us`: those of the elements below a fault, or the translation fills that
were made (R178; 09 R230). -/
def TrapsAfter (i : Instr) (s : State) (len : Nat) (us : List Upd) (t : TrapInfo) : Prop :=
  exec i s = .next (takeTrap (applyAll us s) s.cur t len)

/-- The event takes place with these updates. -/
def Happens (i : Instr) (s : State) (us : List Upd) : Prop := exec i s = .next (applyAll us s)

/-- The effects of a scalar instruction: its sources' pops, then its result. -/
def writes (s : State) (srcs : List Src) (d : Dst) (w : Word) : List Upd := popAll s.h srcs ++ setD s.cur d w

/-- Source j of the sources. -/
def srcOf (s : State) (srcs : List Src) (j : Nat) : Word := srcVal s.me s.myHart srcs j

/-! ### What stays as it was -/

/-- The units other than strand n, its hart, and memory. -/
def sameUnits (s t : State) (n : Nat) : Prop :=
  t.cores = s.cores ∧ t.lofts = s.lofts ∧ t.gangs = s.gangs ∧ t.parts = s.parts ∧ t.dev = s.dev ∧ t.slots = s.slots
  ∧ t.cmds = s.cmds ∧ t.ns = s.ns ∧ t.sched = s.sched ∧ t.cur = s.cur
  ∧ t.bad = s.bad ∧ t.choice = s.choice
  ∧ (∀ m, m ≠ n → t.strand m = s.strand m) ∧ (∀ h, h ≠ n / 2 → t.hart h = s.hart h)

/-- The registers of a strand but its scalar registers, pc, loops and counters: flags, modes and trap registers. -/
def sameControl (a b : Strand) : Prop :=
  b.fpf = a.fpf ∧ b.fpm = a.fpm ∧ b.tvec = a.tvec ∧ b.tpc = a.tpc ∧ b.tfpc = a.tfpc ∧ b.tcause = a.tcause ∧ b.tval = a.tval
  ∧ b.telem = a.telem ∧ b.tword = a.tword ∧ b.tsb = a.tsb ∧ b.tscr0 = a.tscr0 ∧ b.tscr1 = a.tscr1

/-- The vector, mask and hart registers. -/
def sameVector (a b : Hart) : Prop :=
  b.v = a.v ∧ b.h = a.h ∧ b.m = a.m ∧ b.vl = a.vl ∧ b.vt = a.vt ∧ b.fifo = a.fifo ∧ b.sheaf = a.sheaf ∧ b.aft = a.aft
  ∧ b.strip = a.strip ∧ b.held = a.held ∧ b.heldA = a.heldA ∧ b.sbase = a.sbase ∧ b.seed = a.seed ∧ b.smiss = a.smiss

/-- Whether a source or a destination names queue q. -/
def namesQueue (q : Nat) (srcs : List Src) (d : Option Dst) : Prop := .q q ∈ srcs ∨ d = some (.q q)

/-- What an instruction on scalar registers leaves alone: memory, every unit but its strand and hart, every register of its
strand but its destination, and every queue that it does not name. -/
def scalarFrame (s t : State) (srcs : List Src) (d : Option Dst) : Prop :=
  t.mem = s.mem ∧ sameUnits s t s.cur ∧ sameControl s.me (t.strand s.cur) ∧ sameVector s.myHart (t.hart s.h)
  ∧ (∀ r, d ≠ some (.x r) → getX (t.strand s.cur) r = getX s.me r)
  ∧ (∀ q, ¬ namesQueue q srcs d → (t.hart s.h).queue q = s.myHart.queue q)

/-- No stash maps or holds anything, no core's lanes hold a write, and no loft holds a context: every byte is at its home. -/
def State.unheld (s : State) : Prop :=
  (∀ k ∈ s.cores, k.2.stw = [] ∧ k.2.stash = [] ∧ k.2.wc = []) ∧ ∀ l ∈ s.lofts, l.2.bank = none

/-! ### Invariants -/

/-- Memory is in canonical form. -/
def State.memOk (s : State) : Prop := Memory.wf s.mem = true

end Sys2Proof.Machine
end

