-- ==== Sys2Proof/Certificates/Slice0/Obligations.lean ====
section
/-! DEFINITION. Sys2Proof/Certificates/Slice0/Obligations.lean: the statements for the provers, each a proposition about
the machine; OBLIGATIONS.json lists them. `Completes`, `Goes`, `Traps` and `Happens` (Sys2Proof/Safety.lean) say that `exec`
answers one next state and which. -/

open Sys2Proof Sys2Proof.Machine

/-- Scalar arithmetic instructions retire with the result of Table 4.1, saturated under a MOD with sat = 01 (R79, R80,
R81, R22, R28). For a negative quotient the bit that rto sets is that of its two's complement, which is the model's
reading (log entry 13). -/
def Obligations.ScalarArithmetic : Prop :=
  ∀ (s : State) (o : R3), canIssue s .both 0 [o.a, o.b] [o.d] [] →
    let a := srcOf s [o.a, o.b] 0
    let b := srcOf s [o.a, o.b] 1
    let gives := fun (i : Instr) (w : Word) => Completes i s o.form.len (writes s [o.a, o.b] o.d w)
    let sat := fun (exact : Int) (w : Word) => if s.pSat = 1 then satS exact else w
    let mode := if s.pRnd = 0 ∨ s.pRnd = 6 then 2 else s.pRnd
    let q := fun (x y : Int) => if y = 0 then -1 else roundInt mode 0 (if y < 0 then -x else x) y.natAbs
    gives (.add o) (sat (a.toInt + b.toInt) (a + b))
    ∧ gives (.sub o) (sat (a.toInt - b.toInt) (a - b))
    ∧ gives (.mul o) (sat (a.toInt * b.toInt) (a * b))
    ∧ gives (.mulh o) ((a.signExtend 128 * b.signExtend 128).extractLsb' 64 64)
    ∧ gives (.mulhn o) ((a.setWidth 128 * b.setWidth 128).extractLsb' 64 64)
    ∧ gives (.div o) (sat (q a.toInt b.toInt) (wrap (q a.toInt b.toInt)))
    ∧ gives (.divn o) (wrap (q a.toNat b.toNat))
    ∧ gives (.rem o) (if b = 0 then a else wrap (a.toInt - q a.toInt b.toInt * b.toInt))
    ∧ gives (.remn o) (if b = 0 then a else wrap ((a.toNat : Int) - q a.toNat b.toNat * b.toNat))
    ∧ ∀ k, gives (.addsh k o) (sat (a.toInt * 2 ^ k + b.toInt) ((a <<< k) + b))

/-- Without a MOD, division truncates and the right shifts floor (R81, 04 Table 4.1). -/
def Obligations.DivisionAndShiftDefaults : Prop :=
  ∀ (s : State) (o : R3), canIssue s .both 0 [o.a, o.b] [o.d] [] → s.me.pfx = none →
    let a := srcOf s [o.a, o.b] 0
    let b := srcOf s [o.a, o.b] 1
    let gives := fun (i : Instr) (w : Word) => Completes i s o.form.len (writes s [o.a, o.b] o.d w)
    gives (.div o) (if b = 0 then -1 else a.sdiv b)
    ∧ gives (.divn o) (if b = 0 then -1 else a / b)
    ∧ gives (.rem o) (if b = 0 then a else a.srem b)
    ∧ gives (.remn o) (if b = 0 then a else a % b)
    ∧ gives (.shr o) (a >>> (b.toNat % 64))
    ∧ gives (.sha o) (a.sshiftRight (b.toNat % 64))

/-- Scalar logic, shifts, comparisons, bit counts and extensions retire with the result of Table 4.1 (R79, R80, R81,
04 Table 4.1). For a negative value the bit that rto sets is that of its two's complement, which is the model's
reading of R81 (log entry 13). -/
def Obligations.ScalarLogicAndShifts : Prop :=
  (∀ (s : State) (o : R3), canIssue s .both 0 [o.a, o.b] [o.d] [] →
    let a := srcOf s [o.a, o.b] 0
    let b := srcOf s [o.a, o.b] 1
    let n := b.toNat % 64
    let gives := fun (i : Instr) (w : Word) => Completes i s o.form.len (writes s [o.a, o.b] o.d w)
    let mode := if s.pRnd = 0 ∨ s.pRnd = 6 then 4 else s.pRnd
    gives (.and o) (a &&& b) ∧ gives (.or o) (a ||| b) ∧ gives (.xor o) (a ^^^ b) ∧ gives (.andn o) (a &&& ~~~b)
    ∧ gives (.shl o) (if s.pSat = 1 then satS (a.toInt * 2 ^ n) else a <<< n)
    ∧ gives (.shr o) (wrap (roundInt mode 0 a.toNat (2 ^ n)))
    ∧ gives (.sha o) (wrap (roundInt mode 0 a.toInt (2 ^ n)))
    ∧ gives (.rot o) (a <<< n ||| a >>> (64 - n))
    ∧ gives (.min o) (if a.slt b then a else b) ∧ gives (.max o) (if b.slt a then a else b)
    ∧ gives (.minn o) (if a.ult b then a else b) ∧ gives (.maxn o) (if b.ult a then a else b)
    ∧ gives (.slt o) (if a.slt b then 1 else 0) ∧ gives (.sltn o) (if a.ult b then 1 else 0)
    ∧ gives (.sext o) ((a <<< (63 - n)).sshiftRight (63 - n)) ∧ gives (.zext o) ((a <<< (63 - n)) >>> (63 - n)))
  ∧ ∀ (s : State) (o : R2), canIssue s .both 0 [o.a] [o.d] [] →
    let a := srcOf s [o.a] 0
    let gives := fun (i : Instr) (w : Word) => Completes i s o.form.len (writes s [o.a] o.d w)
    gives (.clz o) a.clz ∧ gives (.ctz o) a.ctz ∧ gives (.popc o) a.cpop

/-- ADDI, LI, BFX and BFI retire with the results of R82 and R83 (R82, R83, R80). -/
def Obligations.ImmediatesAndBitFields : Prop :=
  (∀ (s : State) (o : RI), canIssue s .both 0 [o.a] [o.d] [] →
    let a := srcOf s [o.a] 0
    Completes (.addi o) s o.form.len (writes s [o.a] o.d (if s.pSat = 1 then satS (a.toInt + o.imm) else a + wrap o.imm)))
  ∧ (∀ (s : State) (o : LIo), canIssue s .both 0 [] [o.d] [] →
    Completes (.li o) s o.form.len (writes s [] o.d (wrap o.imm)))
  ∧ (∀ (s : State) (o : BFo), (Instr.bfx o).wf = true → canIssue s .both 0 [o.a] [o.d] [] →
    let a := srcOf s [o.a] 0
    Completes (.bfx o) s o.form.len (writes s [o.a] o.d ((a >>> o.pos) &&& (BitVec.allOnes 64 >>> (63 - o.len1)))))
  ∧ ∀ (s : State) (o : BFo) (r : Nat), o.d = .x r → (Instr.bfi o).wf = true →
    canIssue s .both 0 [.x r, o.a] [o.d] [] →
    let d := srcOf s [.x r, o.a] 0
    let a := srcOf s [.x r, o.a] 1
    let field := (BitVec.allOnes 64 >>> (63 - o.len1)) <<< o.pos
    Completes (.bfi o) s o.form.len (writes s [.x r, o.a] o.d ((d &&& ~~~field) ||| ((a <<< o.pos) &&& field)))

/-- A scalar register instruction changes nothing but its destination, its queues and its strand's place (R78, R79,
R22, R28, R50). -/
def Obligations.ScalarFrame : Prop :=
  ∀ (s t : State), s.loopsAligned →
    (∀ (o : R3) (i : Instr), i ∈ ([.add o, .sub o, .mul o, .mulh o, .mulhn o, .div o, .divn o, .rem o, .remn o, .and o,
        .or o, .xor o, .andn o, .shl o, .shr o, .sha o, .rot o, .min o, .max o, .minn o, .maxn o, .slt o, .sltn o,
        .sext o, .zext o] ++ (List.range 5).map (Instr.addsh · o) : List Instr) →
      canIssue s .both 0 [o.a, o.b] [o.d] [] → exec i s = .next t →
      scalarFrame s t [o.a, o.b] (some o.d))
    ∧ (∀ (o : R2) (i : Instr), i ∈ ([.clz o, .ctz o, .popc o] : List Instr) → canIssue s .both 0 [o.a] [o.d] [] →
      exec i s = .next t → scalarFrame s t [o.a] (some o.d))
    ∧ (∀ (o : RI), canIssue s .both 0 [o.a] [o.d] [] →
      exec (.addi o) s = .next t → scalarFrame s t [o.a] (some o.d))
    ∧ (∀ (o : LIo), canIssue s .both 0 [] [o.d] [] →
      exec (.li o) s = .next t → scalarFrame s t [] (some o.d))
    ∧ (∀ (o : BFo), canIssue s .both 0 [o.a] [o.d] [] →
      exec (.bfx o) s = .next t → scalarFrame s t [o.a] (some o.d))

/-- A scalar result is readable in its register, x0 stays zero, and a pushed result is last in its queue (R22, R27,
R28, 01 Table 1.6). -/
def Obligations.ScalarResultReadsBack : Prop :=
  ∀ (s : State) (len : Nat) (srcs : List Src) (w : Word),
    (∀ r, r ≠ 0 → getX ((s.after len (writes s srcs (.x r) w)).strand s.cur) r = w)
    ∧ (∀ d, getX ((s.after len (writes s srcs d w)).strand s.cur) 0 = 0)
    ∧ ∀ q, ((s.after len (writes s srcs (.q q) w)).hart s.h).queue q
        = (s.myHart.queue q).drop (popsOf q srcs) ++ [w]

/-- Conditional branches go to their target when their comparison holds, and on to the next instruction when it does
not (R89). -/
def Obligations.ConditionalBranches : Prop :=
  (∀ (w : Nat) (ws : List Nat), Sys2Proof.fld w 2 6 = 0x06 → 6 ≤ Sys2Proof.fld w 8 3 → decode (w :: ws) = none)
  ∧ ∀ (s : State) (o : BRo), canIssue s .both 0 [o.a, o.b] [] [] →
    let a := srcOf s [o.a, o.b] 0
    let b := srcOf s [o.a, o.b] 1
    let target := s.me.pc + (if o.form.hasLit then wrap o.off else wrap o.off * 4)
    let pops := popAll s.h [o.a, o.b]
    let when_ := fun (i : Instr) (p : Bool) =>
      (p = true → Goes i s o.form.len pops target
        ∧ (target.toNat % 4 ≠ 0 → Traps i s o.form.len { code := 3, val := target }))
      ∧ (p = false → Completes i s o.form.len pops)
    when_ (.beq o) (a == b) ∧ when_ (.bne o) (a != b) ∧ when_ (.blt o) (a.slt b) ∧ when_ (.bge o) (!a.slt b)
    ∧ when_ (.bltn o) (a.ult b) ∧ when_ (.bgen o) (!a.ult b)

/-- JAL, J and JR link and jump; JTAB jumps through its table (R90, R91, R92, R93). That a misaligned table entry
leaves the translations that its fetches filled is the model's reading (log entry 38). -/
def Obligations.JumpsAndTables : Prop :=
  (∀ (s : State) (o : JLo), canIssue s .both 0 [] [o.d] [] →
    let target := s.me.pc + (if o.form.hasLit then wrap o.off else wrap o.off * 4)
    Goes (.jal o) s o.form.len (writes s [] o.d (s.me.pc + BitVec.ofNat 64 o.form.len)) target
    ∧ (target.toNat % 4 ≠ 0 → Traps (.jal o) s o.form.len { code := 3, val := target }))
  ∧ (∀ (s : State) (o : JO), canIssue s .both 0 [] [] [] →
    let target := s.me.pc + (if o.form.hasLit then wrap o.off else wrap o.off * 4)
    Goes (.j o) s o.form.len [] target
    ∧ (target.toNat % 4 ≠ 0 → Traps (.j o) s o.form.len { code := 3, val := target }))
  ∧ (∀ (s : State) (o : RI), canIssue s .both 0 [o.a] [o.d] [] →
    let target := srcOf s [o.a] 0 + wrap o.imm
    Goes (.jr o) s o.form.len (writes s [o.a] o.d (s.me.pc + BitVec.ofNat 64 o.form.len)) target
    ∧ (target.toNat % 4 ≠ 0 → Traps (.jr o) s o.form.len { code := 3, val := target }))
  ∧ ∀ (s : State) (o : R3) (lenBytes entry : List Byte) (r1 r2 : Run), canIssue s .both 0 [o.a, o.b] [o.d] [] →
    let a := srcOf s [o.a, o.b] 0
    let b := srcOf s [o.a, o.b] 1
    scalarLoad s a 8 (Run.start s) = .ok (lenBytes, r1) →
    let i := if b.ult (word64 lenBytes) then b else word64 lenBytes
    scalarLoad s (a + 8 * (1 + i)) 8 r1 = .ok (entry, r2) →
    Goes (.jtab o) s o.form.len
      (popAll s.h [o.a, o.b] ++ (r2.out ++ setD s.cur o.d (s.me.pc + BitVec.ofNat 64 o.form.len))) (word64 entry)
    ∧ ((word64 entry).toNat % 4 ≠ 0 → TrapsAfter (.jtab o) s o.form.len r2.kept { code := 3, val := word64 entry })

/-- LOOP starts a loop or skips its body, LOOPBRK leaves the innermost loop, and BRQ branches on the entry it pops
(R94, R95, R96, R97, R99). That LOOP with a count of zero and LOOPBRK are transfers, and that a fetch fault leaves the
translations filled, are the model's reading (log entries 48 and 38). -/
def Obligations.LoopsAndQueueBranches : Prop :=
  (∀ (s : State) (o : LPo), canIssue s .both 0 [o.a] [] [] →
    let n := srcOf s [o.a] 0
    let start := s.me.pc + BitVec.ofNat 64 o.form.len
    let stop := start + 4 * BitVec.ofNat 64 o.stop
    let after := afterEnd (Run.start s) s.h stop
    (n ≠ 0 → Completes (.loop o) s o.form.len (popAll s.h [o.a] ++ [.strand s.cur fun st =>
      { st with lc := tset 0 st.lc o.lc n, loops := ⟨o.lc, start, stop⟩ :: dropLoops o.lc st.loops }]))
    ∧ (n = 0 → ∀ t, after.1 = .ok t → Goes (.loop o) s o.form.len (popAll s.h [o.a] ++ (after.2.kept
      ++ [.strand s.cur fun st => { st with loops := dropLoops o.lc st.loops }])) t)
    ∧ (n = 0 → ∀ a, after.1 = .error a → TrapsAfter (.loop o) s o.form.len after.2.kept (fetchTrap s s.h a)))
  ∧ (∀ (s : State) (f : Form), canIssue s .both 0 [] [] [] →
    (s.me.loops = [] → Traps (.loopbrk f) s f.len { code := 8 })
    ∧ ∀ l ls, s.me.loops = l :: ls →
      let after := afterEnd (Run.start s) s.h l.stop
      (∀ t, after.1 = .ok t →
        Goes (.loopbrk f) s f.len (after.2.kept ++ [.strand s.cur fun st => { st with loops := ls }]) t)
      ∧ ∀ a, after.1 = .error a → TrapsAfter (.loopbrk f) s f.len after.2.kept (fetchTrap s s.h a))
  ∧ (∀ (s : State) (a : Word), s.bad = [] → fetchTrap s s.h a = { code := 2, val := a })
  ∧ ∀ (s : State) (o : BQo), canIssue s .both 0 [.q o.q] [] [] →
    let e := srcOf s [.q o.q] 0
    let target := s.me.pc + (if o.form.hasLit then wrap o.off else wrap o.off * 4)
    let pop := popAll s.h [.q o.q]
    (e ≠ 0 → Goes (.brqNz o) s o.form.len pop target ∧ Completes (.brqZ o) s o.form.len pop)
    ∧ (e = 0 → Completes (.brqNz o) s o.form.len pop ∧ Goes (.brqZ o) s o.form.len pop target)

/-- A loop's end instruction decrements its counter and returns to the start, or leaves the loop (R50, R51). -/
def Obligations.LoopEnds : Prop :=
  ∀ (s : State) (n len : Nat) (l : Loop) (ls : List Loop), (s.strand n).loops = l :: ls →
    (l.stop = (s.strand n).pc ∨ (s.strand n).pfx.isSome = true ∧ l.stop = (s.strand n).pc - 4) →
    let v := tget 0 (s.strand n).lc l.lc - 1
    let t := (retired s n len none).strand n
    (v ≠ 0 → tget 0 t.lc l.lc = v ∧ t.pc = l.start ∧ t.loops = l :: ls ∧ t.pfx = none)
    ∧ (v = 0 → (∀ m ∈ ls.head?, m.stop ≠ (s.strand n).pc ∧ m.stop ≠ (s.strand n).pc - 4) →
      tget 0 t.lc l.lc = 0 ∧ t.pc = (s.strand n).pc + BitVec.ofNat 64 len ∧ t.loops = ls)

/-- Scalar loads retire with the loaded value, extended as Table 4.3 says (R84, R85, R87, 04 Table 4.3). Which plain
loads are performed before or after their own step is a choice of their turn (log entry 10). -/
def Obligations.ScalarLoads : Prop :=
  (∀ (s : State) (o : LDo) (n : Nat) (x : Xl) (r : Run), canIssue s .both 0 [o.a] [o.d] [] → n ∈ [1, 2, 4, 8] →
    let ea := srcOf s [o.a] 0 + (if o.form.hasLit then wrap o.off else wrap o.off * BitVec.ofNat 64 n)
    canonical ea.toNat = true → ea.toNat % n = 0 → translate (Run.start s) (spaceOf s s.h) ea.toNat 0 = .ok (x, r) →
    meetsBad r.s x.loc n = false →
    let free := !x.sync && x.cp == 0
    let early := free && s.choice.early.testBit 0
    let got := readBytes r (some s.c) x.loc n
    let bytes := if early then pastOver (s.myHart.pastOf s.cur) x.loc got.1 else got.1
    let run := seenRead got.2 s.cur x.loc n early
    let again := fun (sg : Bool) => match o.d with
      | .x k => if free && s.choice.late.testBit 0 && !s.choice.early.testBit 0 then
          run.add (.hart s.h fun h => { h with lateS := h.lateS ++ [(⟨s.cur, k, x.loc, n, sg⟩ : LateS)] }) else run
      | .q _ => run
    let v := word64 (ownBytes s.myHart s.cur x.loc bytes)
    let gives := fun (i : Instr) (sg : Bool) (w : Word) =>
      Completes i s o.form.len (popAll s.h [o.a] ++ ((again sg).out ++ setD s.cur o.d w))
    (n = 1 → gives (.ldb o) true (sextAt v 7) ∧ gives (.ldbn o) false v)
    ∧ (n = 2 → gives (.ldh o) true (sextAt v 15) ∧ gives (.ldhn o) false v)
    ∧ (n = 4 → gives (.ldw o) true (sextAt v 31) ∧ gives (.ldwn o) false v)
    ∧ (n = 8 → gives (.ldd o) false v))
  ∧ ∀ (s : State) (o : PFo), canIssue s .both 0 [o.a] [] [] → Completes (.pref o) s o.form.len (popAll s.h [o.a])

/-- Scalar stores retire with the low bytes of their data register stored (R84, R85, R86, R47, 04 Table 4.3). Whether
a store is held or performed whole is a choice of its turn, and which lines a merging fill reads is the model's
reading (log entries 1, 10 and 104). -/
def Obligations.ScalarStores : Prop :=
  ∀ (s : State) (o : STo) (n : Nat) (i : Instr), canIssue s .both 0 [o.d, o.a] [] [] →
    (n, i) ∈ [(1, Instr.stb o), (2, .sth o), (4, .stw o), (8, .std o)] →
    let ea := srcOf s [o.d, o.a] 1 + (if o.form.hasLit then wrap o.off else wrap o.off * BitVec.ofNat 64 n)
    let bytes := (bytes64 (srcOf s [o.d, o.a] 0)).take n
    (canonical ea.toNat = false → Traps i s o.form.len { code := 11, sub := 1, val := ea })
    ∧ (canonical ea.toNat = true → ea.toNat % n ≠ 0 → Traps i s o.form.len { code := 10, val := ea })
    ∧ ∀ (x : Xl) (r : Run), canonical ea.toNat = true → ea.toNat % n = 0 →
      translate (Run.start s) (spaceOf s s.h) ea.toNat 1 = .ok (x, r) →
      (∀ l k, fillLine (r.s.core s.c) x.loc n = some l → badIn r.s l 64 = some k →
        TrapsAfter i s o.form.len r.kept (badData k ea 0))
      ∧ ((∀ l, fillLine (r.s.core s.c) x.loc n = some l → badIn r.s l 64 = none) →
        let older := if s.isExec then s.myHart.strip.length else 0
        let done := storeLoc (flushHeld r s.cur) s.cur x.loc bytes
        let done := if s.isExec && stripMeets s.myHart.strip x.loc bytes.length
          then done.add (.hart s.h fun h => { h with strip := stripHide h.strip x.loc bytes.length }) else done
        (s.holds = true → Completes i s o.form.len (popAll s.h [o.d, o.a]
          ++ (r.add (holdStores s [{ loc := x.loc, bytes := bytes, older := older }])).out))
        ∧ (s.holds = false → Completes i s o.form.len (popAll s.h [o.d, o.a] ++ done.out)))

/-- A scalar store to plain memory changes the stored bytes and no other byte of memory (R84, R86, R225, 04 Table
4.3). The frame is that of the model, in which a store that its turn performs is performed whole at one instant, and
which lines a merging fill reads is the model's reading (log entries 1, 10 and 104). -/
def Obligations.StoreFrame : Prop :=
  ∀ (s t : State) (o : STo) (n : Nat) (i : Instr) (x : Xl) (r : Run) (va pa : Nat), canIssue s .both 0 [o.d, o.a] [] [] →
    (n, i) ∈ [(1, Instr.stb o), (2, .sth o), (4, .stw o), (8, .std o)] →
    let ea := srcOf s [o.d, o.a] 1 + (if o.form.hasLit then wrap o.off else wrap o.off * BitVec.ofNat 64 n)
    let bytes := (bytes64 (srcOf s [o.d, o.a] 0)).take n
    canonical ea.toNat = true → ea.toNat % n = 0 → translate (Run.start s) (spaceOf s s.h) ea.toNat 1 = .ok (x, r) →
    x.loc = .mem va pa none → pa % n = 0 → frameAttr r.s (pa / 4096) ≠ some true → s.unheld →
    s.myHart.heldBy s.cur = [] → s.holds = false →
    (∀ l, fillLine (r.s.core s.c) x.loc n = some l → badIn r.s l 64 = none) → s.loopsAligned → exec i s = .next t →
    (∀ a, a < pa ∨ pa + n ≤ a → t.byte a = s.byte a)
    ∧ (∀ k (h : k < bytes.length), t.byte (pa + k) = bytes[k])
    ∧ t.parts = s.parts ∧ t.lofts = s.lofts ∧ (∀ m, m ≠ s.cur → t.strand m = s.strand m)
    ∧ (∀ h, h ≠ s.h → { t.hart h with past := (s.hart h).past, pastA := (s.hart h).pastA, pastX := (s.hart h).pastX } = s.hart h) ∧ sameControl s.me (t.strand s.cur)
    ∧ (∀ q, getX (t.strand s.cur) q = getX s.me q)
    ∧ (∀ q, ¬ namesQueue q [o.d, o.a] none → (t.hart s.h).queue q = s.myHart.queue q)

/-- A load or fetch of plain memory reads memory's own bytes (R84, R225, R237). A read is performed whole at its
instruction, in this model (log entry 10). -/
def Obligations.PlainReads : Prop :=
  ∀ (s : State) (core : Option Nat) (va pa n : Nat), s.unheld →
    readBytes (Run.start s) core (.mem va pa none) n = ((List.range n).map fun i => s.byte (pa + i), Run.start s)

/-- QPEEK and QCNT inspect a queue without popping it (R100, R27). -/
def Obligations.QueueInspection : Prop :=
  ∀ (s : State) (o : QPo), canIssue s .both 0 [] [o.d] [] →
    (∀ w ws, qReader o.q = s.cur % 2 → s.myHart.queue o.q = w :: ws →
      Completes (.qpeek o) s o.form.len (writes s [] o.d w))
    ∧ (qReader o.q ≠ s.cur % 2 → Traps (.qpeek o) s o.form.len { code := 4 })
    ∧ (qReader o.q = s.cur % 2 →
      Completes (.qcnt o) s o.form.len (writes s [] o.d (BitVec.ofNat 64 (s.myHart.queue o.q).length)))
    ∧ (qReader o.q ≠ s.cur % 2 →
      Completes (.qcnt o) s o.form.len (writes s [] o.d (BitVec.ofNat 64 (16 - (s.myHart.queue o.q).length))))

/-- Atomics retire with the old value in xd and the new value stored (R113, R115, R116, R119, 05 Table 5.1). That an
atomic ends the core's held writes, and that AMOCAS needs both permissions, are the model's reading (log entries 10
and 52). -/
def Obligations.Atomics : Prop :=
  ∀ (s : State) (sc : Scope) (f : Form) (d : Dst) (sa sb : Src) (x y : Xl) (r1 r2 : Run),
    canIssue s .both 0 [sa, sb] [d] [] →
    let a := srcOf s [sa, sb] 0
    let b := srcOf s [sa, sb] 1
    a.toNat % 8 = 0 → translateAny (Run.start s) (spaceOf s s.h) a.toNat 0 = .ok (x, r1) →
    translateAny r1 (spaceOf s s.h) a.toNat 1 = .ok (y, r2) → x.cp = 0 → stripMeets s.myHart.strip x.loc 8 = false →
    stashBad s s.c x = false → meetsBad r2.s x.loc 8 = false →
    let got := readBytes (wcFlush (flushFor x.loc 8 r2 s.cur) s.c) (some s.c) x.loc 8
    let old := word64 got.1
    let stored := fun (new : Word) =>
      seenOwn (monCount (writeNow got.2 s.c x.loc (bytes64 new)) s.c x.loc.va (bytes64 new)) s.cur x.loc 8
    let gives := fun (i : Instr) (new : Word) =>
      Completes i s f.len (popAll s.h [sa, sb] ++ ((stored new).out ++ setD s.cur d old))
    let o : AMo := ⟨f, sc, d, sa, sb⟩
    gives (.amoadd o) (old + b) ∧ gives (.amoand o) (old &&& b) ∧ gives (.amoor o) (old ||| b)
    ∧ gives (.amoxor o) (old ^^^ b) ∧ gives (.amomin o) (if b.slt old then b else old)
    ∧ gives (.amomax o) (if old.slt b then b else old) ∧ gives (.amominn o) (if b.ult old then b else old)
    ∧ gives (.amomaxn o) (if old.ult b then b else old) ∧ gives (.amoswp o) b
    ∧ ∀ k, d = .x k →
      (old = getX s.me k → gives (.amocas ⟨f, sc, k, sa, sb⟩) b)
      ∧ (old ≠ getX s.me k → Completes (.amocas ⟨f, sc, k, sa, sb⟩) s f.len
          (popAll s.h [sa, sb] ++ (got.2.out ++ setD s.cur d old)))

/-- LDA, STL, FENCE and VSYNC retire with their access or with held writes performed (R118, R119, R120, R122, R232).
Which fences end held writes, and whether STL's store is held, are the model's reading (log entries 1, 10 and 55). -/
def Obligations.OrderedAccessesAndFences : Prop :=
  (∀ (s : State) (o : LAo) (x : Xl) (r : Run), canIssue s .both 0 [o.a] [o.d] [] →
    let a := srcOf s [o.a] 0
    a.toNat % 8 = 0 → translateAny (Run.start s) (spaceOf s s.h) a.toNat 0 = .ok (x, r) → x.cp = 0 →
    stashBad s s.c x = false → meetsBad r.s x.loc 8 = false →
    let got := readBytes r (some s.c) x.loc 8
    let bytes := ownBytes s.myHart s.cur x.loc got.1
    Completes (.lda o) s o.form.len
      (popAll s.h [o.a] ++ ((seenRead got.2 s.cur x.loc 8 false).out ++ setD s.cur o.d (word64 bytes))))
  ∧ (∀ (s : State) (o : SLo) (x : Xl) (r : Run), canIssue s .both 0 [o.d, o.a] [] [] →
    let a := srcOf s [o.d, o.a] 1
    let bytes := bytes64 (srcOf s [o.d, o.a] 0)
    a.toNat % 8 = 0 → translateAny (Run.start s) (spaceOf s s.h) a.toNat 1 = .ok (x, r) → x.cp = 0 →
    stashBad s s.c x = false →
    let first := wcFlush (flushScalars r s.cur) s.c
    let older := if s.isExec then s.myHart.strip.length else 0
    let done := storeLoc (flushHeld first s.cur) s.cur x.loc bytes
    let done := if s.isExec && stripMeets s.myHart.strip x.loc bytes.length
      then done.add (.hart s.h fun h => { h with strip := stripHide h.strip x.loc bytes.length }) else done
    (s.holds = true → Completes (.stl o) s o.form.len (popAll s.h [o.d, o.a]
      ++ (first.add (holdStores s [{ loc := x.loc, bytes := bytes, older := older }])).out))
    ∧ (s.holds = false → Completes (.stl o) s o.form.len (popAll s.h [o.d, o.a] ++ done.out)))
  ∧ (∀ (s : State) (o : FNo), canIssue s .both 0 [] [] [] →
    let start := flushScalars (Run.start s) s.cur
    (o.eng = true → hasCommand s = true → exec (.fence o) s = .next (waitAt s s.cur false))
    ∧ ((o.eng = false ∨ hasCommand s = false) →
      Completes (.fence o) s o.form.len (
        if o.pw && (o.sr || o.sw) || o.eng then (wcFlush start s.c).out else [])))
  ∧ ∀ (s : State) (f : Form) (sc : Scope), canIssue s .execute 0 [] [] [] →
    Completes (.vsync f sc) s f.len
      (endLoads ((vecHarts s).foldl (fun r h => wcFlush r (coreOf h)) (wcFlush (flushHeld (Run.start s) s.cur) (coreOf s.h))) s.h).out

/-- WAITM retires with a changed double or at its limit, sleeps otherwise, and is woken by its events (R124, R125).
That a sleeping WAITM may be woken at any time is the model's reading (log entry 56). -/
def Obligations.WaitOnMemory : Prop :=
  (∀ (s : State) (o : WMo) (x : Xl) (r : Run),
    canIssue s .both 0 [o.a, o.b] [o.d] (if o.form.hasExt then [o.e] else []) →
    let a := srcOf s [o.a, o.b] 0
    let b := srcOf s [o.a, o.b] 1
    a.toNat % 8 = 0 → translateAny (Run.start s) (spaceOf s s.h) a.toNat 0 = .ok (x, r) → x.cp = 0 →
    stashBad s s.c x = false → meetsBad r.s x.loc 8 = false →
    let got := readBytes r (some s.c) x.loc 8
    let run := seenRead got.2 s.cur x.loc 8 false
    let w := word64 (ownBytes s.myHart s.cur x.loc got.1)
    let limit := if o.form.hasExt then (getX s.me o.e).toNat else 0
    let now := s.cycles s.c
    let start := match s.me.sleep with | some (.waitm t _) => t | _ => now
    (w ≠ b ∨ limit ≠ 0 ∧ start + limit ≤ now →
      Completes (.waitm o) s o.form.len (popAll s.h [o.a, o.b] ++ (run.out ++ setD s.cur o.d w)))
    ∧ (w = b → (limit = 0 ∨ now < start + limit) → exec (.waitm o) s = .next (waitAt (applyAll (run.out ++
        [.strand s.cur fun st => { st with sleep := some (.waitm start false) }]) s) s.cur false)))
  ∧ (∀ (s : State) (n start : Nat), s.dev.off = false → (s.strand n).sleep = some (.waitm start false) →
    Happens (.waitmWake n) s [.strand n fun st => { st with sleep := some (.waitm start true) }])
  ∧ ∀ (s : State) (n start : Nat) (w : Bool) (o : WMo), s.dev.off = false →
    (s.strand n).sleep = some (.waitm start w) → nextInstr s n = some (.waitm o) → o.form.hasExt = true →
    getX (s.strand n) o.e ≠ 0 → start + (getX (s.strand n) o.e).toNat ≤ s.cycles (n / 8) →
    Happens (.waitmTimeout n) s [.strand n fun st => { st with sleep := some (.waitm start true) }]

/-- Barrier instructions of a gang member retire as R128 to R133 say, and refuse what those rules refuse (R128, R129,
R130, R133, R134, R135). BARR writes a register xd when it arrives, a service hart faults before the operand is
checked, a return orders the hart's vector loads, and its record is kept by address and trap level, by the model's
reading (log entries 53, 54, 10 and 137). -/
def Obligations.Barriers : Prop :=
  ∀ (s : State) (gid : Nat) (g : Gang), gangOf s s.h = some (gid, g) →
    let acquire := (acquireAll s).out
    (∀ (o : BBo), canIssue s .execute 0 [o.b] [] [] →
      let b := barOf g o.n
      let w := (srcOf s [o.b] 0).toNat
      ((w % 16 = 0 ∨ 8 < w % 16 ∨ 32 ≤ w) → Traps (.bari o) s o.form.len (barValue o.n))
      ∧ (1 ≤ w % 16 → w % 16 ≤ 8 → w < 32 → (b.arr = 0 ∧ b.x = false ∧ b.pend = 0 ∨ b.o = true) →
        Completes (.bari o) s o.form.len (popAll s.h [o.b] ++ [updBar gid o.n fun b =>
          { v := true, b := w / 16 == 1, count := w % 16, phase := b.phase, drift := b.drift }]))
      ∧ (1 ≤ w % 16 → w % 16 ≤ 8 → w < 32 → ¬ (b.arr = 0 ∧ b.x = false ∧ b.pend = 0) → b.o = false →
        Traps (.bari o) s o.form.len (barState o.n))
      ∧ (b.v = true → b.b = true → b.o = false → w < 2 ^ 46 → b.pend + w < 2 ^ 46 →
        Completes (.barx o) s o.form.len
          (popAll s.h [o.b] ++ [updBar gid o.n fun b => { b with pend := b.pend + w, x := true }]))
      ∧ ((b.v = false ∨ b.b = false ∨ b.o = true) → Traps (.barx o) s o.form.len (barState o.n))
      ∧ (b.v = true → b.b = true → b.o = false → (2 ^ 46 ≤ w ∨ 2 ^ 46 ≤ b.pend + w) →
        Traps (.barx o) s o.form.len (barValue o.n))
      ∧ (b.v = true → b.o = false → owedDrift b s.h = none → b.phase ≠ w % 16 →
        Completes (.barw o) s o.form.len (popAll s.h [o.b] ++ acquire))
      ∧ (b.v = true → b.o = false → owedDrift b s.h = none → b.phase = w % 16 →
        exec (.barw o) s = .next (waitAt s s.cur false))
      ∧ (b.v = false → b.o = false → Traps (.barw o) s o.form.len (barState o.n))
      ∧ (b.o = true → Traps (.barw o) s o.form.len (barOverrun o.n)))
    ∧ ∀ (o : BAo), canIssue s .execute 0 [] [o.d] [] →
      let b := barOf g o.n
      let fresh := ∀ p, recordAt (site s.me) s.me.arrived ≠ some (o.n, p)
      (s.myHart.strip = [] → b.v = true → b.arr ≠ b.count →
        Completes (.bara o) s o.form.len (setD s.cur o.d (BitVec.ofNat 64 b.phase) ++ arriveUpds s gid o.n o.chk)
        ∧ (fresh → b.o = true → Traps (.barr o) s o.form.len (barOverrun o.n)))
      ∧ (s.myHart.strip ≠ [] →
        Traps (.bara o) s o.form.len { code := 18 } ∧ (fresh → Traps (.barr o) s o.form.len { code := 18 }))
      ∧ (s.myHart.strip = [] → (b.v = false ∨ b.arr = b.count) →
        Traps (.bara o) s o.form.len (barState o.n) ∧ (fresh → Traps (.barr o) s o.form.len (barState o.n)))
      ∧ ∀ phase, recordAt (site s.me) s.me.arrived = some (o.n, phase) →
        (b.o = true → Traps (.barr o) s o.form.len (barOverrun o.n))
        ∧ (b.o = false → owedDrift b s.h = none → b.phase ≠ phase →
          Completes (.barr o) s o.form.len
            (acquire ++ .strand s.cur (fun st => { st with arrived := recordsNotAt (site s.me) st.arrived })
            :: match o.d with | .q k => setD s.cur (.q k) (BitVec.ofNat 64 phase) | .x _ => []))

/-- BARR arrives once, returns at once where its arrival completes the phase, and waits otherwise; BARRIER_WAIT_RETURN
lets a waiter return (R129, R133, R134, R28). BARR writes a register xd when it arrives, a return orders the hart's
vector loads, and the record is kept by address and trap level, by the model's reading (log entries 53, 10 and 137).
-/
def Obligations.BarrierRoundTrips : Prop :=
  (∀ (s : State) (gid : Nat) (g g2 : Gang) (o : BAo), gangOf s s.h = some (gid, g) → canIssue s .execute 0 [] [o.d] [] →
    (∀ p, recordAt (site s.me) s.me.arrived ≠ some (o.n, p)) → s.myHart.strip = [] → (barOf g o.n).v = true → (barOf g o.n).arr ≠ (barOf g o.n).count →
    (barOf g o.n).o = false → owedDrift (barOf g o.n) s.h = none →
    let phase := (barOf g o.n).phase
    let us := (match o.d with | .x r => setD s.cur (.x r) (BitVec.ofNat 64 phase) | .q _ => [])
      ++ arriveUpds s gid o.n o.chk ++ [.strand s.cur fun st =>
        { st with arrived := (o.n, phase, site s.me) :: recordsNotAt (site s.me) st.arrived }]
    let t := applyAll us s
    gangOf t t.h = some (gid, g2) → (barOf g2 o.n).o = false → owedDrift (barOf g2 o.n) t.h = none →
    ((barOf g2 o.n).phase ≠ phase →
      Completes (.barr o) s o.form.len (us ++ (acquireAll t).out
        ++ .strand s.cur (fun st => { st with arrived := recordsNotAt (site s.me) st.arrived })
          :: match o.d with | .q k => setD s.cur (.q k) (BitVec.ofNat 64 phase) | .x _ => []))
    ∧ ((barOf g2 o.n).phase = phase → exec (.barr o) s = .next (waitAt t s.cur false)))
  ∧ ∀ (s0 : State) (n gid : Nat) (g : Gang),
    let s1 : State := { s0 with cur := n }
    runnable s1 n = true → (∀ m, instrAt s1 s1.h s1.me.pc ≠ some (.mod m)) →
    (∀ (o : BBo), nextInstr s1 n = some (.barw o) →
      let s := settle (.barw o) s1
      gangOf s s.h = some (gid, g) → canIssue s .execute 0 [o.b] [] [] → (barOf g o.n).v = true →
      (barOf g o.n).o = false → owedDrift (barOf g o.n) s.h = none →
      (barOf g o.n).phase ≠ (srcOf s [o.b] 0).toNat % 16 →
      let us := popAll s.h [o.b] ++ (acquireAll s).out
      endsWell s us → exec (.barrierWaitReturn n) s0 = .next (s.after o.form.len us))
    ∧ ∀ (o : BAo) (phase : Nat), nextInstr s1 n = some (.barr o) →
      let s := settle (.barr o) s1
      gangOf s s.h = some (gid, g) → canIssue s .execute 0 [] [o.d] [] → recordAt (site s.me) s.me.arrived = some (o.n, phase) →
      (barOf g o.n).o = false → owedDrift (barOf g o.n) s.h = none → (barOf g o.n).phase ≠ phase →
      let us := (acquireAll s).out ++ .strand s.cur (fun st => { st with arrived := recordsNotAt (site s.me) st.arrived })
        :: match o.d with | .q k => setD s.cur (.q k) (BitVec.ofNat 64 phase) | .x _ => []
      endsWell s us → exec (.barrierWaitReturn n) s0 = .next (s.after o.form.len us)

/-- A trap with a handler writes the trap record and goes to the handler, and changes nothing else of the strand
(R370, R368, R369, 20 Table 20.2, R31). Which routine the trap of an instruction with a MOD enters, and that a trap
that reports an uncorrectable error takes that byte's from the state, are the model's reading (log entries 19 and
104). -/
def Obligations.TrapEntry : Prop :=
  ∀ (s : State) (n len : Nat) (t : TrapInfo), t.code ≠ 64 → classH t.code = false → (s.strand n).tvec >>> 2 ≠ 0 →
    (s.strand n).tcause.getLsbD 63 = false →
    (t.code ≠ 1 ∨ (s.strand n).pfx.isSome = true ∨ privOf s (n / 2) ≠ 0 ∨ boundEmulation s n (s.strand n).pc = none) →
    let st := s.strand n
    let u := takeTrap s n t len
    let v := u.strand n
    v.tfpc = (if st.pfx.isSome then st.pc - 4 else st.pc)
    ∧ v.tpc = (if t.code = 7 then st.pc + BitVec.ofNat 64 len else if st.pfx.isSome then st.pc - 4 else st.pc)
    ∧ v.tcause.getLsbD 63 = true ∧ v.tcause.getLsbD 62 = st.pfx.isSome ∧ v.tcause.getLsbD 61 = stripHeld s n
    ∧ v.tcause.getLsbD 60 = false ∧ v.tcause.toNat % 2 ^ 8 = t.code % 256 ∧ v.tcause.toNat / 2 ^ 16 % 2 ^ 8 = t.sub % 256
    ∧ v.tval = t.val ∧ v.telem = t.elem ∧ v.tsb = (s.hart (n / 2)).sbase
    ∧ (∀ w0, fetchWord s (n / 2) v.tfpc.toNat = some w0 →
        ((∀ m, decode [w0] ≠ some (.mod m)) → v.tword = BitVec.ofNat 64 w0)
        ∧ ∀ m w1, decode [w0] = some (.mod m) → fetchWord s (n / 2) (v.tfpc + 4).toNat = some w1 →
            v.tword = BitVec.ofNat 64 (w1 * 2 ^ 32 + w0))
    ∧ v.pc = st.tvec &&& ~~~3 ∧ v.pfx = none ∧ v.stopped = false
    ∧ v.x = st.x ∧ v.fpf = st.fpf ∧ v.fpm = st.fpm ∧ v.lc = st.lc ∧ v.loops = st.loops ∧ v.tvec = st.tvec
    ∧ v.tscr0 = st.tscr0 ∧ v.tscr1 = st.tscr1
    ∧ u.mem = s.mem ∧ u.cores = s.cores ∧ u.parts = s.parts ∧ u.dev = s.dev
    ∧ u.bad = t.leaves s.bad
    ∧ (let h := s.hart (n / 2)
       u.hart (n / 2) = if n % 2 = 0 then { h with waitA := false, dead := none } else { h with waitX := false, dead := none })
    ∧ (∀ h, h ≠ n / 2 → u.hart h = s.hart h)
    ∧ ∀ m, m ≠ n → u.strand m = s.strand m

/-- A trap without a usable handler stops the strand and raises its partition's halt line (R370, R378, R380). Which
routine the trap of an instruction with a MOD enters is the model's reading (log entry 19). -/
def Obligations.FatalTraps : Prop :=
  ∀ (s : State) (n len : Nat) (t : TrapInfo),
    (t.code ≠ 1 ∨ (s.strand n).pfx.isSome = true ∨ privOf s (n / 2) ≠ 0 ∨ boundEmulation s n (s.strand n).pc = none) →
    (classH t.code = true ∨ (s.strand n).tvec >>> 2 = 0 ∨ (s.strand n).tcause.getLsbD 63 = true) →
    let st := s.strand n
    let u := takeTrap s n t len
    let v := u.strand n
    let p := partIx s (n / 2)
    v.stopped = true ∧ v.pc = (if st.pfx.isSome then st.pc - 4 else st.pc)
    ∧ v.tfpc = st.tfpc ∧ v.tpc = st.tpc ∧ v.tcause = st.tcause ∧ v.tval = st.tval
    ∧ u.mem = s.mem
    ∧ (isReeve (n / 2) = false → (s.part p).halt.st = 0 →
        (u.part p).halt.st = 1 ∧ (u.part p).halt.cause = t.code ∧ (u.part p).halt.src = n)
    ∧ (isReeve (n / 2) = true → u.dev.rint = s.dev.rint ||| 0x20 ∧ u.parts = s.parts)

/-- TRAP raises the software trap with xa, and ERET returns from a trap (R104, R372). What ERET to another address
gives up, that an access strand's ERET drops no strip and no reduction, and that a record belongs to its address and
trap level, are the model's reading (log entries 20 and 137). -/
def Obligations.TrapAndReturn : Prop :=
  (∀ (s : State) (o : RA), canIssue s .both 0 [o.a] [] [] →
    exec (.trap o) s = .next (takeTrap (applyAll (popAll s.h [o.a]) s) s.cur { code := 7, val := srcOf s [o.a] 0 } o.form.len)
    ∧ (s.me.tvec >>> 2 ≠ 0 → s.me.tcause.getLsbD 63 = false → ∃ t, exec (.trap o) s = .next t
        ∧ (t.strand s.cur).tval = srcOf s [o.a] 0 ∧ (t.strand s.cur).tpc = s.me.pc + BitVec.ofNat 64 o.form.len
        ∧ (t.strand s.cur).pc = s.me.tvec >>> 2 <<< 2))
  ∧ ∀ (s : State) (f : Form), canIssue s .both 0 [] [] [] →
    let st := s.me
    (st.tcause.getLsbD 63 = false → Traps (.eret f) s f.len { code := 53 })
    ∧ (st.tcause.getLsbD 63 = true → st.tpc.toNat % 4 ≠ 0 → Traps (.eret f) s f.len { code := 3, val := st.tpc })
    ∧ (st.tcause.getLsbD 63 = true →
      let drop := st.tcause.getLsbD 61 && st.tpc != st.tfpc && !st.tcause.getLsbD 60
      let cause := (st.tcause ||| (if drop then 0x1000000000000000 else 0)) &&& 0x7FFFFFFFFFFFFFFF
      Goes (.eret f) s f.len
        ((if drop && s.isExec then [dropStrip s.h] else []) ++ [.strand s.cur fun st =>
          if st.tpc = st.tfpc then { st with tcause := cause } else
            { st with tcause := cause, arrived := recordsNotAt (st.tfpc, false) st.arrived, popv := recordsNotAt (st.tfpc, false) st.popv }]
          ++ if s.isExec && st.tpc != st.tfpc then [dropRed s.h (st.tfpc, false)] else [])
        st.tpc)

/-- RDGTC, YIELD and GEXIT retire with their effects; IDLE stops the strand's issue until an event of R105, which
completes it with the event's code (R105, R106, R108, R109). Which token ends an IDLE, and that GEXIT performs the
held stores, are the model's reading (log entries 132 and 10). -/
def Obligations.IdleAndItsEnds : Prop :=
  (∀ (s : State) (o : RD), canIssue s .both 0 [] [o.d] [] → Completes (.rdgtc o) s o.form.len (writes s [] o.d s.gtc))
  ∧ (∀ (s : State) (f : Form), canIssue s .both 0 [] [] [] →
    Completes (.yield f) s f.len [.hart s.h fun h => { h with yielded := some (rotation s s.c) }])
  ∧ (∀ (s : State) (o : RA), canIssue s .both 0 [o.a] [] [] →
    (s.isExec = false ∨ s.myHart.strip = [] → Completes (.gexit o) s o.form.len
      (popAll s.h [o.a] ++ ((flushHeld (Run.start s) s.cur).out ++ endStrand s s.cur (srcOf s [o.a] 0))))
    ∧ (s.isExec = true → s.myHart.strip ≠ [] → Traps (.gexit o) s o.form.len { code := 18 }))
  ∧ (∀ (s : State) (o : R2), canIssue s .both 0 [o.a] [o.d] [] → exec (.idle o) s = .next (waitAt (applyAll
    [.strand s.cur fun st => { st with sleep := some (.idle o (s.cycles s.c) (pushesOf s.myHart s.cur) false) }] s) s.cur false))
  ∧ ∀ (s0 : State) (n code start pushes : Nat) (token : Bool) (o : R2),
    let s : State := { s0 with cur := n }
    let limit := srcOf s [o.a] 0
    (s0.strand n).sleep = some (.idle o start pushes token) → awake s n = true →
    (code = 0 ∧ limit ≠ 0 ∧ start + limit.toNat ≤ s.cycles (n / 8) ∨ code = 1 ∧ pendingIrq s (n / 2) ≠ 0
      ∨ code = 2 ∧ pushesOf (s.hart (n / 2)) n ≠ pushes ∨ code = 3 ∧ token = true) →
    let us := popAll s.h [o.a] ++ setD n o.d (BitVec.ofNat 64 code)
    endsWell s us → exec (.idleEnd n code) s0 = .next (s.after o.form.len us)

/-- FEAT writes a double of the device's 512-bit feature mask (R107). The value of the mask is that of 15 R321. -/
def Obligations.FeatureMask : Prop :=
  let mask : BitVec 512 := 0x3FFFFFFFF
  ∀ (s : State) (o : R2), canIssue s .both 0 [o.a] [o.d] [] →
    let n := (srcOf s [o.a] 0).toNat
    Completes (.feat o) s o.form.len (writes s [o.a] o.d (if n < 8 then mask.extractLsb' (64 * n) 64 else 0))

/-- GETS, SETS and SWAPS read and write state registers through their view (R101, R102, R98, R365, 20 Table 20.2).
Which partition's registers a service hart reads and writes is the model's reading (log entry 12). -/
def Obligations.StateRegisterAccess : Prop :=
  (∀ (s : State) (o : GSo), canIssue s .both 0 [] [o.d] [] →
    Completes (.gets o) s o.form.len (writes s [] o.d (readReg s o.n)))
  ∧ (∀ (s : State) (o : SSo), canIssue s .both 0 [o.a] [] [] →
    let v := srcOf s [o.a] 0
    (∀ us, writeReg s o.n v = .ok us → Completes (.sets o) s o.form.len (popAll s.h [o.a] ++ us))
    ∧ (∀ t, writeReg s o.n v = .error t → TrapsAfter (.sets o) s o.form.len (refusedFills s o.n v) t)
    ∧ (privOf s s.h = 0 → 0x280 ≤ o.n → o.n ≤ 0x285 →
      (v &&& steadFields o.n = 0 → Completes (.sets o) s o.form.len (popAll s.h [o.a]))
      ∧ (v &&& steadFields o.n ≠ 0 → Traps (.sets o) s o.form.len { code := 5, val := BitVec.ofNat 64 o.n }))
    ∧ (noWrite (privOf s s.h) o.n = true → Traps (.sets o) s o.form.len { code := 5, val := BitVec.ofNat 64 o.n }))
  ∧ (∀ (s : State) (o : SWo), canIssue s .both 0 [o.a] [o.d] [] →
    let v := srcOf s [o.a] 0
    (∀ us, writeReg s o.n v = .ok us →
      Completes (.swaps o) s o.form.len (popAll s.h [o.a] ++ (us ++ setD s.cur o.d (readReg s o.n))))
    ∧ (∀ t, writeReg s o.n v = .error t → TrapsAfter (.swaps o) s o.form.len (refusedFills s o.n v) t))
  ∧ ∀ (s : State) (n : Nat) (v : Word),
    (n = 0 ∧ v.toNat < 64 ∨ 4 ≤ n ∧ n ≤ 7 ∨ n = 0x010 ∧ v.getLsbD 1 = false ∨ n ∈ [0x011, 0x018, 0x019, 0x040, 0x041]) →
    ∃ us, writeReg s n v = .ok us ∧ readReg (applyAll us s) n = v ∧ (applyAll us s).mem = s.mem

/-- MOD puts its prefix in force for the instruction after it, and refuses what R73 refuses (R72, R73, R74). That a
trap of the MOD reports no pair and leaves the translations that the fetch filled is the model's reading (log entries
131 and 38). -/
def Obligations.ModPrefix : Prop :=
  ∀ (s : State) (m : Pfx),
    let f := fetchInstr (Run.start s) s.h (s.me.pc + 4)
    (∀ ws, f.1 = .ok ws → (decode ws).isSome = true →
      (prefixableWord (ws.headD 0) = true →
        exec (.mod m) s = .next (applyAll (f.2.kept ++ [.strand s.cur fun st => { st with pfx := some m, pc := st.pc + 4 }]) s))
      ∧ (prefixableWord (ws.headD 0) = false → TrapsAfter (.mod m) s 4 f.2.kept { code := 6 }))
    ∧ (∀ ws, f.1 = .ok ws → decode ws = none → TrapsAfter (.mod m) s 4 f.2.kept { code := 1 })
    ∧ ∀ a, f.1 = .error a → TrapsAfter (.mod m) s 4 f.2.kept (fetchTrap s s.h a)

/-- An illegal encoding and a failed fetch raise their traps; a mispredict leaves nothing; a queue deadlock raises its
trap (R57, R70, R31, R32, 20 Table 20.3). The deadlock trap goes to the access strand where it waits, the model's
choice (log entry 18), a waiting strand reads its words as a load would (log entry 14), and how the uncorrectable
error of a fetch is reported is the model's reading (log entry 104). -/
def Obligations.StrandEvents : Prop :=
  (∀ (s : State), Traps .illegalInstruction s 4 { code := 1 })
  ∧ (∀ (s : State) (va : Word), Traps (.fetchFault va) s 4 (fetchTrap s s.h va)
    ∧ (s.bad = [] → fetchTrap s s.h va = { code := 2, val := va }))
  ∧ (∀ (s : State) (n : Nat), s.dev.off = false → n < 5120 → exec (.branchMispredict n) s = .next s)
  ∧ ∀ (s : State) (h since : Nat) (w : Nat), s.dev.off = false → (s.hart h).dead = some since →
    since + 2 ^ 20 ≤ s.cycles (h / 4) → (s.hart h).waitA = true → fetchWord s h (s.strand (2 * h)).pc.toNat = some w →
    (∀ m, decode [w] ≠ some (.mod m)) →
    let pc := (s.strand (2 * h)).pc
    Happens (.queueDeadlock h) s
      (trapUpds s (2 * h) { code := 9, val := (s.strand (2 * h + 1)).pc, elem := queueCounts (s.hart h) } pc pc false
        (trapWord s h pc) ++ [.hart h fun t => { t with waitA := false, waitX := false, dead := none }])

/-- TLBINV, CINV, CWB, KEYZ and SCRUB retire with their effects, and refuse a strand below their privilege (R376,
R377, R409, R410, R411, R71). TLBINV ends held writes, CWB and CINV leave the scratchpad window alone and report an
uncorrectable error of their walk, KEYZ and SCRUB perform the held stores first, and trap with tval 0, by the model's
reading (log entries 68, 69, 104, 108 and 70). -/
def Obligations.MaintenanceInstructions : Prop :=
  (∀ (s : State) (o : RAB), canIssue s .both 1 [o.a, o.b] [] [] →
    let b := (srcOf s [o.a, o.b] 1).toNat
    let p := partIx s s.h
    b % 4 ≠ 3 → b / 4 % 64 = 0 → b < 2 ^ 14 →
    Completes (.tlbinv o) s o.form.len (popAll s.h [o.a, o.b] ++
      ((performAll (Run.start s) (partCores s p)).out ++ [forgetPast, dropTlb (tlbHit p (b / 256) (b % 4) (srcOf s [o.a, o.b] 0).toNat)])))
  ∧ (∀ (s : State) (o : RAB),
    let a := (srcOf s [o.a, o.b] 0).toNat
    let b := (srcOf s [o.a, o.b] 1).toNat
    b < 2 ^ 41 →
    (canIssue s .both 1 [o.a, o.b] [] [] →
      (∀ r, cacheOp s a (b % 2 ^ 40) true (Run.start s) = .ok ((), r) →
        Completes (.cinv o) s o.form.len (popAll s.h [o.a, o.b] ++ r.out))
      ∧ ∀ t r, cacheOp s a (b % 2 ^ 40) true (Run.start s) = .error (t, r) → TrapsAfter (.cinv o) s o.form.len r.kept t)
    ∧ (canIssue s .both 0 [o.a, o.b] [] [] →
      (∀ r, cacheOp s a (b % 2 ^ 40) false (Run.start s) = .ok ((), r) →
        Completes (.cwb o) s o.form.len (popAll s.h [o.a, o.b] ++ r.out))
      ∧ ∀ t r, cacheOp s a (b % 2 ^ 40) false (Run.start s) = .error (t, r) → TrapsAfter (.cwb o) s o.form.len r.kept t))
  ∧ (∀ (s : State) (o : DA), canIssue s .both 2 [.x o.a] [.x o.d] [] →
    let k := (getX s.me o.a).toNat
    k < 64 →
    ((s.dev.key k).st = 0 → Completes (.keyz o) s 4 (setD s.cur (.x o.d) 1))
    ∧ ((s.dev.key k).st = 2 → Completes (.keyz o) s 4 (setD s.cur (.x o.d) 2))
    ∧ ((s.dev.key k).st = 1 → Completes (.keyz o) s 4
      ((performAll (Run.start s) (holdingCores s)).out ++ zeroiseKey k ++ setD s.cur (.x o.d) 0)))
  ∧ (∀ (s : State) (o : DA) (q : ScrubOrder) (us : List Upd), canIssue s .both 2 [.x o.a] [.x o.d] [] →
    s.dev.orders.length < 8 → readM s (stateValue 0) (readOrder s (getX s.me o.a).toNat) = .ok (q, us) →
    (orderFree s q = true →
      let q := { q with id := s.dev.lastOrder % 65535 + 1 }
      Completes (.scrub o) s 4 (us ++ (performAll (Run.start (applyAll us s)) (holdingCores s)).out ++ acceptOrder q
        ++ setD s.cur (.x o.d) (BitVec.ofNat 64 q.id)))
    ∧ (orderFree s q = false → TrapsAfter (.scrub o) s 4 us partState))
  ∧ (∀ (s : State) (o : RAB), dirOk s.cur [o.a, o.b] [] = true → privOf s s.h = 0 →
    Traps (.tlbinv o) s o.form.len { code := 5 } ∧ Traps (.cinv o) s o.form.len { code := 5 })
  ∧ (∀ (s : State) (o : DA), (privOf s s.h < 2 → Traps (.keyz o) s 4 { code := 5 } ∧ Traps (.scrub o) s 4 { code := 5 })
    ∧ (privOf s s.h = 0 → Traps (.launch o) s 4 { code := 5 } ∧ Traps (.launchi o) s 4 { code := 5 }))
  ∧ ∀ (s : State) (o : RLo) (i : Instr), i ∈ [Instr.rlsetWriteEntry o, .rlsetReadEntry o, .rlsetSwitch o, .rlsetResume o,
      .rlsetDiscard o] → dirOk s.cur [o.b] [.x o.d] = true → privOf s s.h = 0 → Traps i s o.form.len { code := 5 }

/-- The five operations of RLSET retire with their status (R363, R360, R361, 19 Table 19.6). An entry of a new
context, the commands of a discarded one, when the save engines set out, when a requested switch is due, and that a
refused image leaves the translations filled follow the model's reading (log entries 89, 94, 90, 92 and 38). -/
def Obligations.RunListOperations : Prop :=
  ∀ (s : State) (o : RLo), canIssue s .both 1 [o.b] [.x o.d] [o.a] →
    let w := (srcOf s [o.b] 0).toNat
    let p := partIx s s.h
    let k := w / 256
    let q := s.part p
    let a := (getX s.me o.a).toNat
    let cs := stoppedCores s p
    let rl := fun (us : List Upd) (st : Nat) => popAll s.h [o.b] ++ (us ++ setD s.cur (.x o.d) (BitVec.ofNat 64 st))
    let fault := fun (t : TrapInfo) => if t.code = 54 then t else runListFault
    let first := flushHeld (Run.start s) s.cur
    (∀ x ∈ [(0, Instr.rlsetWriteEntry o), (1, .rlsetReadEntry o), (2, .rlsetSwitch o), (3, .rlsetResume o), (4, .rlsetDiscard o)],
      (2 ^ 14 ≤ w ∨ w % 256 ≠ x.1) → Traps x.2 s o.form.len runListFault)
    ∧ (w < 2 ^ 14 →
      (w % 256 = 0 → ∀ t r, loadBytesM (spaceOf s s.h) (some s.c) a 32 first = .error (t, r) →
        TrapsAfter (.rlsetWriteEntry o) s o.form.len r.kept (fault t))
      ∧ (w % 256 = 1 → ∀ t r, storeBytesM (spaceOf s s.h) (some s.c) a (entImage (q.ent k)) first = .error (t, r) →
        TrapsAfter (.rlsetReadEntry o) s o.form.len r.kept (fault t))
      ∧ (w % 256 = 0 → ∀ bs r, loadBytesM (spaceOf s s.h) (some s.c) a 32 first = .ok (bs, r) →
        (entOfImage bs = none → Completes (.rlsetWriteEntry o) s o.form.len (rl r.out 1))
        ∧ ∀ e, entOfImage bs = some e → Completes (.rlsetWriteEntry o) s o.form.len (rl
          (r.out ++ [.part p fun q =>
              { q with rl := tput q.rl k e, emul := if e.n && q.cur != some k then dropEmul k q.emul else q.emul }]
            ++ (if e.n then (if q.cur = some k then [] else [loseCmds p k (loftPad k)])
                ++ (partCores s p).map fun c => .loft c (emptyLoft k) else []) ++ [planLofts p]) 0))
      ∧ (w % 256 = 1 → ∀ r, storeBytesM (spaceOf s s.h) (some s.c) a (entImage (q.ent k)) first = .ok ((), r) →
        Completes (.rlsetReadEntry o) s o.form.len (rl r.out 0))
      ∧ (w % 256 = 2 →
        ((q.ent k).v = false → Completes (.rlsetSwitch o) s o.form.len (rl [] 2))
        ∧ ((q.ent k).v = true → q.cur = some k → Completes (.rlsetSwitch o) s o.form.len
          (rl [.part p fun q => startSlice s.gtc.toNat { q with want := none }] 0))
        ∧ ((q.ent k).v = true → q.cur ≠ some k → Completes (.rlsetSwitch o) s o.form.len
          (rl [.part p fun q => { q with want := some k, due := some (q.due.getD s.gtc.toNat) }, planLofts p] 0)))
      ∧ (w % 256 = 3 → (cs = [] → Completes (.rlsetResume o) s o.form.len (rl [] 3))
        ∧ (cs ≠ [] → Completes (.rlsetResume o) s o.form.len
          (rl (cs.map fun c => .loft c fun l => { l with save := { l.save with st := l.save.st - 2, cause := 0 } }) 0)))
      ∧ (w % 256 = 4 → (cs = [] → Completes (.rlsetDiscard o) s o.form.len (rl [] 3))
        ∧ (cs ≠ [] → Completes (.rlsetDiscard o) s o.form.len (rl ((cs.foldl (fun r c =>
            (loseContext p (s.loft c).save.ent r).add (.loft c fun _ => {})) (Run.start s)).out ++ [planLofts p]) 0))))

/-- LAUNCH and LAUNCHI enter a well-formed launch with the next id, and refuse a malformed one (R352, R353, R354). The
initial values are checked when the record is read, the held stores are performed before that, and a refused record
leaves the translations filled, by the model's reading (log entries 15, 10 and 38). -/
def Obligations.Launching : Prop :=
  ∀ (s : State) (o : DA) (ind : Bool) (bs vs : List Byte) (r1 r2 : Run) (l : Launch) (inits : List (Nat × Nat × Word)),
    canIssue s .both 1 [.x o.a] [.x o.d] [] →
    let a := (getX s.me o.a).toNat
    let p := partIx s s.h
    let i := if ind then Instr.launchi o else .launch o
    (a % 8 ≠ 0 → Traps i s 4 launchValue)
    ∧ (a % 8 = 0 → loadBytesM (spaceOf s s.h) (some s.c) a 128 (flushHeld (Run.start s) s.cur) = .ok (bs, r1) →
      (launchOf s p ind bs = none → TrapsAfter i s 4 r1.kept launchValue)
      ∧ (launchOf s p ind bs = some l →
        loadBytesM (spaceOf s s.h) (some s.c) (dbl bs 40) (16 * dbl bs 48) r1 = .ok (vs, r2) →
        initList vs (dbl bs 48) = some inits →
        ((s.part p).lq.length < 256 → s.dev.replay = 0 →
          let l := { l with inits := inits }
          Completes i s 4 (r2.out ++ [.part p fun q => { q with lq := q.lq ++ [l], lastId := l.id }]
            ++ setD s.cur (.x o.d) (BitVec.ofNat 64 (l.id % 2 ^ 48))))
        ∧ (256 ≤ (s.part p).lq.length ∨ s.dev.replay ≠ 0 → exec i s = .next (waitAt s s.cur false))))

/-- Launches dispatch, place their gangs and complete as R355 to R358 say (R355, R356, R357, R358). That launches and
gangs move only while the partition is not halted, which harts are attached at first, that port bindings stay, and
which source an uncorrectable count has are the model's reading (log entries 51, 107, 113 and 127). -/
def Obligations.LaunchEvents : Prop :=
  ∀ (s : State) (p id : Nat) (l : Launch), s.dev.off = false → launchIn s p id = some l →
    (l.dispatched = false → depsDone s p l = true → (s.part p).cur = some l.ent → (s.part p).halt.st = 0 →
      let go := fun (r : Run) (n st : Nat) => Happens (.launchDispatch p id) s (r.add (.part p fun q =>
        { q with lq := q.lq.map fun x => if x.id = id then { x with dispatched := true, gangs := n, st := st } else x })).out
      (l.indirect = false → go (Run.start s) l.count.toNat 0)
      ∧ (l.indirect = true → ∀ r,
        (∀ t, readCount s p l.count.toNat = (.error t, r) →
          Happens (.launchDispatch p id) s (completeLaunch (serviceError r p t) p l 2 0).out)
        ∧ (readCount s p l.count.toNat = (.ok 0, r) → Happens (.launchDispatch p id) s (completeLaunch r p l 0 0).out)
        ∧ ∀ n, n ≠ 0 → readCount s p l.count.toNat = (.ok n, r) → (l.limit < n → go r l.limit 1) ∧ (n ≤ l.limit → go r n 0)))
    ∧ (∀ hs, l.dispatched = true → l.placed < l.gangs → (s.part p).cur = some l.ent → (s.part p).halt.st = 0 →
      s.dev.replay = 0 → pickHarts s l.mask l.n [] = some hs → ∃ t, exec (.gangPlacement p id) s = .next t
        ∧ t.nextGang = s.nextGang + 1 ∧ t.mem = s.mem ∧ t.cores = s.cores
        ∧ t.gangs = tput s.gangs s.nextGang (Gang.mk p l.ent l.id l.placed hs l.g l.span [] [] [])
        ∧ (t.part p).lq = (s.part p).lq.map (fun x => if x.id = id then { x with placed := x.placed + 1 } else x)
        ∧ (∀ r h, hs[r]? = some h → t.hart h = newHart l s.nextGang l.placed r hs (s.hart h).epcfg
          ∧ t.strand (2 * h) = newStrand l 0 false ∧ t.strand (2 * h + 1) = newStrand l 1 (l.span && r != 0)
          ∧ (t.hart h).sbase = l.sbase ∧ (t.hart h).gang = gangReg l.placed r l.n ∧ (t.hart h).vl = 0
          ∧ (t.strand (2 * h)).pc = l.entA ∧ (t.strand (2 * h + 1)).pc = l.entX)
        ∧ ∀ h, h ∉ hs → t.hart h = s.hart h ∧ t.strand (2 * h) = s.strand (2 * h)
          ∧ t.strand (2 * h + 1) = s.strand (2 * h + 1))
    ∧ (let gs := s.gangs.filter fun x => x.2.part == p && x.2.launch == id
      l.dispatched = true → (∀ x ∈ gs, gangRuns s x.2 = false) → l.placed = l.gangs → (∀ x ∈ gs, ∀ m ∈ x.2.members, m ∈ x.2.fin) →
      (∀ c ∈ s.cmds, ∀ x ∈ gs, c.gid ≠ some x.1) →
      Happens (.launchCompletion p id) s (completeLaunch (gs.foldl (fun r x => x.2.members.foldl (fun r m =>
        wcFlush (flushHart r m) (coreOf m)) r) (Run.start s)) p l l.st l.gangs).out)

/-- The halt line's sources stop, and the steward resumes or ends the halted context (R378, R381, R382, R383, R373).
The sources' numbers, the pending interrupt of a halt and what an interrupt leaves in the trap record are the model's
reading (log entries 16, 41, 42 and 102). -/
def Obligations.HaltAndInterrupts : Prop :=
  ∀ (s : State) (p : Nat), s.dev.off = false →
    (∀ src, (s.part p).halt.st = 1 → src ∈ (s.part p).halt.srcs → src ∉ (s.part p).halt.stopped →
      ∃ t, exec (.sourceStop p src) s = .next t ∧ (t.part p).halt.stopped = src :: (s.part p).halt.stopped
        ∧ (src < 5120 → (t.strand src).stopped = true)
        ∧ ((∀ x ∈ (s.part p).halt.srcs, x = src ∨ x ∈ (s.part p).halt.stopped) →
            (t.part p).halt.st = 2 ∧ (t.part p).halt.irq = true)
        ∧ ((∃ x ∈ (s.part p).halt.srcs, x ≠ src ∧ x ∉ (s.part p).halt.stopped) → (t.part p).halt.st = 1))
    ∧ ((s.part p).halt.st = 2 →
      Happens (.haltResume p) s (haltResume s p) ∧ Happens (.haltEnd p) s (haltEnd s p)
      ∧ ((applyAll (haltResume s p) s).part p).halt.st = 0 ∧ (applyAll (haltResume s p) s).mem = s.mem)
    ∧ ∀ n, n % 2 = 0 → isService s (n / 2) = true → pendingIrq s (n / 2) ≠ 0 → (s.strand n).tvec.getLsbD 0 = true →
      (s.strand n).tcause.getLsbD 63 = false → (s.strand n).sleep = none → (s.strand n).stopped = false →
      hasEnded (s.strand n) = false →
      let pc := (s.strand n).pc
      Happens (.interrupt n) s
        (trapUpds s n { code := 64, val := BitVec.ofNat 64 (pendingIrq s (n / 2)) } pc pc false 0
          ++ (if isReeve (n / 2) then [] else [.part (partIx s (n / 2)) fun q => { q with halt := { q.halt with irq := false } }]))

/-- Slices end, switches complete and limits are missed as R360 says (R360, R361, 19 Table 19.3). A slice that ends
with its own entry next restarts, a limit is missed when it is reached, and the save engines set out at the slice's
end, by the model's reading (log entries 91, 92 and 90). -/
def Obligations.SlicesAndSwitches : Prop :=
  ∀ (s : State) (p : Nat), s.dev.off = false →
    (∀ c k, (s.part p).cur = some c → nextEnt (s.part p) = some k → (s.part p).due = none →
      (s.part p).sliceEnd ≤ s.gtc.toNat →
      (c = k → Happens (.sliceEnd p) s [.part p (startSlice (s.part p).sliceEnd)])
      ∧ (c ≠ k → Happens (.sliceEnd p) s [.part p (fun q => { q with due := some (s.part p).sliceEnd }), planLofts p]))
    ∧ (∀ c, (s.part p).cur = some c → nextEnt (s.part p) = some c → (s.part p).due ≠ none →
      Happens (.sliceEnd p) s [.part p (startSlice s.gtc.toNat)])
    ∧ (∀ k, nextEnt (s.part p) = some k → (s.part p).cur ≠ some k → ((s.part p).cur = none ∨ (s.part p).due ≠ none) →
      (s.part p).halt.st = 0 → partCores s p ≠ [] → (∀ c ∈ partCores s p, loftReady s k c = true) →
      let held := performAll (Run.start s) (partCores s p)
      ((held.s.part p).halt.st ≠ 0 → Happens (.switchComplete p) s held.out)
      ∧ ((held.s.part p).halt.st = 0 → ∃ t, exec (.switchComplete p) s = .next t ∧ (t.part p).cur = some k ∧ (t.part p).rlev.getLsbD 0 = true
        ∧ (t.part p).rlent = k ∧ (t.part p).due = none ∧ (t.part p).missed = false
        ∧ (t.part p).sliceEnd = s.gtc.toNat + 1000 * ((t.part p).curOf k).slice))
    ∧ ∀ k since, (s.part p).cur = some k → (s.part p).due = some since → (s.part p).missed = false →
      nextEnt (s.part p) ≠ some k → ((s.part p).curOf k).lat ≠ 0 → since + 1000 * ((s.part p).curOf k).lat ≤ s.gtc.toNat →
      Happens (.latencyLimitMiss p) s [.part p (fun q => { q with missed := true }), rlevSet p 1 k]

/-- The save engines spill, fill and stop (R361, R362, R384, R238, 19 Table 19.7, 20 Table 20.11). The record is
written at once, its blocks' inner layout, what is kept beside it, the restored stash words, and the source that
stands for a save engine are the model's (log entries 33, 34, 95, 96 and 71). -/
def Obligations.ContextSaveEngines : Prop :=
  ∀ (s : State) (c p : Nat), s.dev.off = false → partOfHall s (c / 16) = some p →
    let l := s.loft c
    let k := l.save.ent
    let e := (s.part p).ent k
    let n := (partCores s p).length
    let i := coreIx s p c
    let sp := stewardSpace s p
    let flushed := flushLoft (Run.start s) c
    (l.save.st = 2 → e.n = true →
      exec (.contextFillDone c) s = .next (applyAll [.loft c fun _ => filledLoft k {}, clearNew p k, planLofts p] s))
    ∧ (∀ ls r, l.save.st = 2 → e.n = false → fillPages s p k c l.save.off = (ls, none, r) →
      let read := bankOfRec (pageDbl r.s ls) c (tget {} (tget [] (s.part p).saved k) c)
      let fresh := refreshStash r read.core
      let b : Bank := { core := fresh.2, harts := read.harts.filter fun h => !isService s h.1,
                        strands := read.strands.filter fun x => !isService s (x.1 / 2) }
      exec (.contextFillDone c) s = .next (applyAll (((fresh.1.add (.part p fun q =>
        { q with saved := tput q.saved k ((tget [] q.saved k).filter fun x => x.1 != c) })).add
          (.loft c fun _ => filledLoft k b)).add (planLofts p)).out s)
      ∧ ∀ h j, h / 4 = c → isService s h = false → j = 0 ∨ j = 1 →
        let o := corePart + 2 ^ 19 * (h % 4) + 0x400 * j
        let st := tget {} b.strands (2 * h + j)
        st.pc = BitVec.ofNat 64 (pageDbl r.s ls (o + 8 * 64)) ∧ ∀ q, 0 < q → q < 64 → getX st q = BitVec.ofNat 64 (pageDbl r.s ls (o + 8 * q)))
    ∧ (∀ ls off cause r, l.save.st = 2 → e.n = false → fillPages s p k c l.save.off = (ls, some (off, cause), r) →
      let t := applyAll (r.out ++ (if cause = 4 then saveError s p k c 0 off else [])
        ++ [.loft c (fun l => { l with save := { l.save with st := 4, cause := cause, off := off } }), rlevSet p 3 k]) s
      exec (.fillStop c off) s = .next t ∧ (t.loft c).save.st = 4 ∧ (t.loft c).save.cause = cause
        ∧ (t.loft c).save.off = off ∧ (t.part p).rlev.getLsbD 3 = true)
    ∧ (∀ ls off cause r, l.save.st = 1 → l.bank ≠ none →
      recordPages sp e i n 1 ((recordLen - l.save.off) / 4096) l.save.off flushed = (ls, some (off, cause), r) →
      let t := applyAll ((((writePages (recordOf s p c k ((flushed.s.loft c).bank.getD {})) l.save.off ls r).addAll
        (if cause = 4 then saveError s p k c 1 off else [])).add (.loft c fun l => { l with save := { l.save with st := 3, cause := cause, off := off } })).add (rlevSet p 2 k)).out s
      exec (.spillStop c off) s = .next t ∧ (t.loft c).save.st = 3 ∧ (t.loft c).save.cause = cause
        ∧ (t.loft c).save.off = off ∧ (t.part p).rlev.getLsbD 2 = true)
    ∧ (∀ ls r, l.save.st = 1 → l.bank ≠ none → loftBusy s p k = false →
      recordPages sp e i n 1 ((recordLen - l.save.off) / 4096) l.save.off flushed = (ls, none, r) →
      let b := (r.s.loft c).bank.getD {}
      let f := recordOf s p c k b
      let early := recordPages sp e i n 1 (l.save.off / 4096) 0 r
      let whole := writePages f l.save.off ls (writePages f 0 early.1 early.2.2)
      let last := match recordPage sp e i n 1 doneOff whole with
        | .ok (w, r) => putLoc r w (leBytes 8 (2 ^ 63 + s.gtc.toNat % 2 ^ 48))
        | .error _ => whole
      let t := applyAll (((last.add (.part p fun q => { q with saved := tput q.saved k (tput (tget [] q.saved k) c b) })).add
        (.loft c fun _ => {})).add (planLofts p)).out s
      exec (.contextSpillDone c) s = .next t ∧ (t.loft c).bank = none ∧ (t.part p).cur = (s.part p).cur
      ∧ ∀ h j q, h / 4 = c → j = 0 ∨ j = 1 → q < 64 →
        f (corePart + 2 ^ 19 * (h % 4) + 0x400 * j + 8 * q) = (getX (tget {} b.strands (2 * h + j)) q).toNat)

/-- The firmware's register writes and the events of islands, power, soft errors and firmware banks take place as 22
and 24 say (R408, R345, R392, R420, R422, R423, R424, R428, R412, R336, R415, R102). The events of the firmware
registers are register writes of a reeve strand, and the model chose what a switched-off island keeps, when sensors
are read, what of a staged image and of a revocation is an argument and what is signed, where a soft error strikes,
and that a clock stands while its island changes (log entries 5, 24, 25, 26, 27, 73, 104 and 150). -/
def Obligations.FirmwareAndFleetEvents : Prop :=
  (∀ (s : State) (n p : Nat) (v : Word), isService s (n / 2) = true → awake s n = true → privOf s (n / 2) = 2 →
    (∀ us, loadKey s n v = .ok us → exec (.kload n v) s = .next (applyAll us s))
    ∧ (∀ t, loadKey s n v = .error t → exec (.kload n v) s = .next (takeTrap (applyAll (keyFills s n v) s) n t 4))
    ∧ (∀ us, writeCfg s p v = .ok us → exec (.partCfgWrite n p v) s = .next (applyAll us s))
    ∧ (∀ t, writeCfg s p v = .error t → exec (.partCfgWrite n p v) s = .next (takeTrap s n t 4))
    ∧ (∀ us, writeStgrp s p v = .ok us → exec (.stgrpWrite n p v) s = .next (applyAll us s))
    ∧ (∀ t, writeStgrp s p v = .error t → exec (.stgrpWrite n p v) s = .next (takeTrap s n t 4))
    ∧ (∀ us, writeIsland s v = .ok us → exec (.islandControl n v) s = .next (applyAll us s))
    ∧ (∀ t, writeIsland s v = .error t → exec (.islandControl n v) s = .next (takeTrap s n t 4))
    ∧ exec (.fwStage n v) s = .next (applyAll (stageUpd v) s)
    ∧ exec (.fwCommit n) s = .next (applyAll commitUpd s)
    ∧ exec (.fwSelectBank n) s = .next (applyAll selectUpd s))
  ∧ (∀ (s : State) (n p : Nat) (v : Word), isService s (n / 2) = true → awake s n = true → privOf s (n / 2) < 2 →
    (∀ x ∈ [(Instr.kload n v, 0x440), (.islandControl n v, 0x501), (.fwStage n v, 0x511), (.fwCommit n, 0x511),
        (.fwSelectBank n, 0x511)],
      exec x.1 s = .next (takeTrap s n { code := 5, val := BitVec.ofNat 64 x.2 } 4))
    ∧ exec (.partCfgWrite n p v) s = .next s ∧ exec (.stgrpWrite n p v) s = .next s)
  ∧ ∀ (s : State), s.dev.off = false →
    (∀ i, (s.dev.island i).st = 2 → exec (.islandPowerChangeDone i) s = .next (applyAll
      (islandClear i ++ [updIsland s.ns i fun x => { x with st := if x.on then 1 else 0 }]) s))
    ∧ (∃ t, exec .throttleStep s = .next t ∧ t.free = s.free + 1 ∧ t.mem = s.mem ∧ t.strands = s.strands
      ∧ (throttleDue s.dev = true → t.dev.throttled = true)
      ∧ ∀ i, i < 800 → (t.dev.island i).low = (throttleIsland (throttleDue s.dev) (s.dev.island i)).low)
    ∧ (hotter s.dev 959 = true → exec .thermalShutdown s = .next (applyAll [powerOff] s))
    ∧ exec .powerLoss s = .next (applyAll [powerOff] s)
    ∧ (∀ k u, k < 8 → exec (.softError k u .none) s = .next (applyAll [countUpd k u] s))
    ∧ (∀ len modulus sig ver, s.dev.stage = 1 → ver < 2 ^ 16 → ∃ t, exec (.fwStageDone len modulus sig ver) s = .next t
      ∧ t.mem = s.mem ∧ t.dev.active = s.dev.active ∧ t.dev.rint.getLsbD 4 = true
      ∧ (∀ bs, stagedBytes s len = some bs → rsaOk modulus sig (sha256 bs) = true → keyTrusted s.dev (keyHash modulus) = true →
          s.dev.minVer ≤ ver → t.dev.stage = 2 ∧ t.dev.nextBank = 1 - s.dev.active)
      ∧ ((∀ bs, stagedBytes s len = some bs → rsaOk modulus sig (sha256 bs) = false) ∨ keyTrusted s.dev (keyHash modulus) = false
          ∨ ver < s.dev.minVer → t.dev.stage = 3 ∧ t.dev.banks = s.dev.banks))
    ∧ (∀ v, exec (.keyRevocation v) s = .next (applyAll (if revocationOk s.dev v then
        [.dev fun d => barnWrite s.free (dropBarn (fun e => e.signer == v.key) { d with revoked := d.revoked ++ [v.key] }), .tick]
      else []) s))
    ∧ ∀ o rest, s.dev.orders = o :: rest →
      (s.dev.units < orderUnits o → ∃ t, exec .winnowerUnitDone s = .next t ∧ t.dev.units = s.dev.units + 1)
      ∧ (orderUnits o ≤ s.dev.units → ∃ t, exec .winnowerOrderComplete s = .next t ∧ t.dev.orders = rest
        ∧ t.dev.lastDone = o.id ∧ t.dev.units = 0)

/-- EPUSH, EPOP and EPOPV move entries through bound ports, wait where there is no room or no entry, and refuse an
unbound port (R252, R253, R254, R255). That EPOPV needs a mutual peer, that its progress belongs to its address and
trap level, and that its pop orders the hart's vector loads are the model's reading (log entries 20, 10, 75 and 137).
-/
def Obligations.EnginePorts : Prop :=
  (∀ (s : State) (o : EPo), canIssue s .access 0 [o.a] [] [] →
    let q := portPeer (s.myHart.port o.p)
    (portKind (s.myHart.port o.p) ≠ 1 ∨ mutualPort s s.h o.p = false → Traps (.epush o) s o.form.len portFault)
    ∧ (portKind (s.myHart.port o.p) = 1 → mutualPort s s.h o.p = true →
      (((s.hart q.2).fifoOf q.1).length < 32 → Completes (.epush o) s o.form.len
        (popAll s.h [o.a] ++ ((wcFlush (flushScalars (Run.start s) s.cur) s.c).out ++ [.hart q.2 (pushFifo q.1 (srcOf s [o.a] 0))])))
      ∧ (32 ≤ ((s.hart q.2).fifoOf q.1).length → exec (.epush o) s = .next (waitAt s s.cur false))))
  ∧ (∀ (s : State) (o : QPo), canIssue s .access 0 [] [o.d] [] →
    (readable s o.q = false → Traps (.epop o) s o.form.len portFault)
    ∧ (readable s o.q = true → portReader (s.myHart.port o.q) = 0 →
      (∀ w ws, s.myHart.fifoOf o.q = w :: ws →
        Completes (.epop o) s o.form.len (.hart s.h (popFifo o.q 1) :: setD s.cur o.d w))
      ∧ (s.myHart.fifoOf o.q = [] → exec (.epop o) s = .next (waitAt s s.cur false))))
  ∧ ∀ (s : State) (o : VNo), canIssue s .execute 0 [] [] [] →
    let cx := vcx s
    let rest := (cx.active s o.mask).drop (filled s.me o.n)
    let entries := s.myHart.fifoOf o.n
    (readable s o.n = false → Traps (.epopv o) s o.form.len portFault)
    ∧ (readable s o.n = true → portReader (s.myHart.port o.n) = 1 → rest.length ≤ entries.length →
      Completes (.epopv o) s o.form.len
        ((acquireAll s).out ++ Upd.hart s.h (popFifo o.n rest.length)
          :: cx.put o.v cx.w ((rest.zip entries).map fun p => (p.1, p.2.toNat % 2 ^ cx.w))
          ++ [.strand s.cur fun st => { st with popv := recordsNotAt (site s.me) st.popv }]))

/-- Copy commands with a group in order are accepted with their token pending, copies of no bytes complete at once,
and refused groups raise the copy-value fault (R240, R245, R246, R247, R248, R249, R251). That a mapping is in force
from the issue of STMAP, that a held store is performed before a command, and that a run or copy uses its whole range
until it completes, are the model's reading (log entries 31, 10 and 151). -/
def Obligations.CopyAndStashCommands : Prop :=
  (∀ (s : State) (o : DA) (be : Option Nat), canIssue s .access 0 [] [] (o.d :: groupRegs o.a 4) →
    let x := groupVals s o.a 4
    let (dst, src, len, w) := (x.getD 0 0, x.getD 1 0, x.getD 2 0, x.getD 3 0)
    (len < 2 ^ 40 → copyChecks s w 64 dst len src len = some be →
      (len ≠ 0 → Completes (.cpya o) s 4 (acceptCmd s (newCmd s (.cpya dst src len) o.d (w % 4) be none)))
      ∧ (len = 0 → Completes (.cpya o) s 4 [.strand s.cur (setX o.d (tokenVal 0 0 0))]))
    ∧ ((2 ^ 40 ≤ len ∨ copyChecks s w 64 dst len src len = none) → Traps (.cpya o) s 4 copyValue))
  ∧ (∀ (s : State) (o : DA) (be : Option Nat), canIssue s .access 0 [] [] (o.d :: groupRegs o.a 4) →
    let x := groupVals s o.a 4
    let (dst, src, n, w) := (x.getD 0 0, x.getD 1 0, x.getD 2 0, x.getD 3 0)
    (∀ a b, copyTypes w = some (a, b) → n < 2 ^ 36 → src % max 1 (a.bits / 8) = 0 → dst % max 1 (b.bits / 8) = 0 →
      copyChecks s w (2 ^ 16) dst (packed n b) src (packed n a) = some be →
      (packed n b ≠ 0 → Completes (.cpyw o) s 4 (acceptCmd s (newCmd s (.cpyw dst src n a b) o.d (w % 4) be none)))
      ∧ (packed n b = 0 → Completes (.cpyw o) s 4 [.strand s.cur (setX o.d (tokenVal 0 0 0))]))
    ∧ (copyTypes w = none → Traps (.cpyw o) s 4 copyValue)
    ∧ (∀ a b, copyTypes w = some (a, b) → (2 ^ 36 ≤ n ∨ src % max 1 (a.bits / 8) ≠ 0 ∨ dst % max 1 (b.bits / 8) ≠ 0
      ∨ copyChecks s w (2 ^ 16) dst (packed n b) src (packed n a) = none) → Traps (.cpyw o) s 4 copyValue))
  ∧ (∀ (s : State) (o : DA) (be : Option Nat), canIssue s .access 0 [] [] (o.d :: groupRegs o.a 5) →
    let x := groupVals s o.a 5
    let (dst, src, len, slen, w) := (x.getD 0 0, x.getD 1 0, x.getD 2 0, x.getD 3 0, x.getD 4 0)
    (len % 256 = 0 → dst % 4 = 0 → src % 32 = 0 → copyChecks s w 64 dst len src (if len = 0 then 0 else slen) = some be →
      (len ≠ 0 → Completes (.cpyx o) s 4 (acceptCmd s (newCmd s (.cpyx dst src len slen) o.d (w % 4) be none)))
      ∧ (len = 0 → Completes (.cpyx o) s 4 [.strand s.cur (setX o.d (tokenVal 0 0 0))]))
    ∧ (len % 256 ≠ 0 ∨ dst % 4 ≠ 0 ∨ src % 32 ≠ 0 ∨ copyChecks s w 64 dst len src (if len = 0 then 0 else slen) = none →
      Traps (.cpyx o) s 4 copyValue))
  ∧ (∀ (s : State) (o : DA), canIssue s .access 0 [] [] (o.d :: groupRegs o.a 3) →
    let x := groupVals s o.a 3
    let (va, len, d) := (x.getD 0 0, x.getD 1 0, x.getD 2 0)
    let off := d % 2 ^ 19
    let k := d / 2 ^ 20 % 8
    (s.myCore.stash.any (fun q => q.1 == k || slotsMeet q.2 ⟨va, len, off⟩) = false →
      va % 4096 = 0 → off % 4096 = 0 → len % 4096 = 0 → len ≠ 0 → off + len ≤ 2 ^ 19 → d / 2 ^ 19 % 2 = 0 → d < 2 ^ 23 →
      Completes (.stmap o) s 4 (Upd.core s.c (fun c => { c with
          stash := tput c.stash k ⟨va, len, off⟩
          stale := freshen off len c.stale
          stw := c.stw.filter fun w => !(decide (off ≤ 4 * w.1) && decide (4 * w.1 < off + len)) })
        :: acceptCmd s (newCmd s (.stmap va len off k) o.d 0 none none)))
    ∧ (s.myCore.stash.any (fun q => q.1 == k || slotsMeet q.2 ⟨va, len, off⟩) = true → Traps (.stmap o) s 4 stashState)
    ∧ (s.myCore.stash.any (fun q => q.1 == k || slotsMeet q.2 ⟨va, len, off⟩) = false →
      (va % 4096 ≠ 0 ∨ off % 4096 ≠ 0 ∨ len % 4096 ≠ 0 ∨ len = 0 ∨ 2 ^ 19 < off + len ∨ d / 2 ^ 19 % 2 ≠ 0 ∨ 2 ^ 23 ≤ d) →
      Traps (.stmap o) s 4 copyValue))
  ∧ ∀ (s : State) (o : DA), canIssue s .access 0 [.x o.a] [] [o.d] →
    let k := (getX s.me o.a).toNat % 8
    (slotAt s.myCore k = none → Traps (.stflush o) s 4 stashState ∧ Traps (.stunmap o) s 4 stashState)
    ∧ ∀ t, slotAt s.myCore k = some t →
      Completes (.stflush o) s 4 (acceptCmd s (newCmd s (.stflush k) o.d 0 none none))
      ∧ (s.cmds.any (copyUses s t) = false → s.myCore.runs.any (runUses s t) = false →
        Completes (.stunmap o) s 4 (acceptCmd s (newCmd s (.stunmap k) o.d 0 none none)))

/-- Engine commands GATH, SCRED, FWALK, STEPA and STEPO with a group in order are accepted with their token pending
(R258, R262, R266, R278, R286, R287). Where STEPA, STEPO and FWALK look at their records at issue, that the look
leaves the translations filled, and that held stores are performed first are the model's reading (log entries 77, 79,
128, 38 and 10). -/
def Obligations.EngineCommands : Prop :=
  (∀ (s : State) (o : DA) (c : Option Nat × Option Nat) (list n table bound rb : Nat),
    let x := groupVals s o.a 6
    let (dst, w) := (x.getD 4 0, x.getD 5 0)
    rowTable x = some (list, n, table, bound, rb) → engCtl s w 0x30000 = some c → dst % 64 = 0 →
    rangeOk dst (n * rb) = true → gathDest s dst (n * rb) = true →
    ((getX s.me (o.a + 5)).getLsbD 17 = false → canIssue s .access 0 [] [] (o.d :: groupRegs o.a 6) →
      Completes (.gath o) s 4 (acceptCmd s (newCmd s (.gath list n table bound rb dst (w.testBit 16) none) o.d (w % 4) c.1 c.2)))
    ∧ ((getX s.me (o.a + 5)).getLsbD 17 = true → o.a ≠ 58 → canIssue s .access 0 [] [] (o.d :: groupRegs o.a 6 ++ [o.a + 6]) →
      let m := (getX s.me (o.a + 6)).toNat
      rangeOk m ((n + 7) / 8) = true →
      Completes (.gath o) s 4 (acceptCmd s (newCmd s (.gath list n table bound rb dst (w.testBit 16) (some m)) o.d (w % 4) c.1 c.2))))
  ∧ (∀ (s : State) (o : DA) (c : Option Nat × Option Nat) (list n table bound rb : Nat) (ty : Ty),
    canIssue s .access 0 [] [] (o.d :: groupRegs o.a 6) →
    let x := groupVals s o.a 6
    let (src, w) := (x.getD 4 0, x.getD 5 0)
    rowTable x = some (list, n, table, bound, rb) → engCtl s w 0xFF0000 = some c →
    Ty.ofCode (w / 2 ^ 18 % 32) = some ty → w / 2 ^ 16 % 4 ≠ 3 → reduceTy ty = true → rb % (ty.bits / 8) = 0 →
    rangeOk src (n * rb) = true →
    Completes (.scred o) s 4 (acceptCmd s (newCmd s
      (.scred list n table bound rb src (w / 2 ^ 16 % 4) ty (w.testBit 23)) o.d (w % 4) c.1 c.2)))
  ∧ (∀ (s : State) (o : DA) (c : Option Nat × Option Nat), canIssue s .access 0 [] [] (o.d :: groupRegs o.a 4) →
    let x := groupVals s o.a 4
    let (rec, dst, cap, v) := (x.getD 0 0, x.getD 1 0, x.getD 2 0, x.getD 3 0)
    let sh := v / 2 ^ 17 % 4
    engCtl s v 0xF0000 = some c → rec % 8 = 0 → 1 ≤ cap → cap ≤ 2 ^ 32 → rangeOk rec 8 = true →
    (v.testBit 16 = true ∧ dst % 4 = 0 ∧ rangeOk dst (4 * cap) = true
      ∨ v.testBit 16 = false ∧ dst = 0 ∧ (s.myHart.sheafOf sh).init = true) →
    let look := badShape (spaceOf s s.h) rec (flushHeld (Run.start s) s.cur)
    (look.1 = false → Completes (.fwalk o) s 4
      (acceptAfter look.2 s (newCmd s (.fwalk rec dst cap (v.testBit 16) sh (v.testBit 19)) o.d (v % 4) c.1 c.2)))
    ∧ (look.1 = true → TrapsAfter (.fwalk o) s 4 look.2.kept engineValue))
  ∧ (∀ (s : State) (o : DA) (c : Option Nat × Option Nat), canIssue s .access 0 [] [] (o.d :: groupRegs o.a 5) →
    let x := groupVals s o.a 5
    let (list, n, base, stride, v) := (x.getD 0 0, x.getD 1 0, x.getD 2 0, x.getD 3 0, x.getD 4 0)
    engCtl s v 0 = some c → list % 2 = 0 → 1 ≤ n → n ≤ 4096 → base % 8 = 0 → stride % 8 = 0 → 4096 ≤ stride →
    rangeOk list (2 * n) = true → rangeOk base ((n - 1) * stride + 4096) = true →
    let look := slotsOk (spaceOf s s.h) list n (flushHeld (Run.start s) s.cur)
    (look.1 = true →
      Completes (.stepa o) s 4 (acceptAfter (wcFlush look.2 s.c) s (newCmd s (.stepa list n base stride) o.d (v % 4) c.1 c.2))
      ∧ Completes (.stepo o) s 4 (acceptAfter look.2 s (newCmd s (.stepo list n base stride) o.d (v % 4) c.1 c.2)))
    ∧ (look.1 = false → TrapsAfter (.stepa o) s 4 look.2.kept engineValue ∧ TrapsAfter (.stepo o) s 4 look.2.kept engineValue))
  ∧ ∀ (s : State) (o : DA),
    let v := fun (k : Nat) => (groupVals s o.a (k + 1)).getD k 0
    (canIssue s .access 0 [] [] (o.d :: groupRegs o.a 6) → (getX s.me (o.a + 5)).getLsbD 17 = false →
      engCtl s (v 5) 0x30000 = none → Traps (.gath o) s 4 engineValue)
    ∧ (canIssue s .access 0 [] [] (o.d :: groupRegs o.a 6) → engCtl s (v 5) 0xFF0000 = none → Traps (.scred o) s 4 engineValue)
    ∧ (canIssue s .access 0 [] [] (o.d :: groupRegs o.a 4) → engCtl s (v 3) 0xF0000 = none → Traps (.fwalk o) s 4 engineValue)
    ∧ (canIssue s .access 0 [] [] (o.d :: groupRegs o.a 5) → engCtl s (v 4) 0 = none →
      Traps (.stepa o) s 4 engineValue ∧ Traps (.stepo o) s 4 engineValue)

/-- A command's work and its completion take place for the oldest unfinished command of its queue (R240, R241, R244,
R251, R257, R259, R261, R263, R267, R131). Which event credits a barrier, where a STEPA does its work, which byte of a
chunk fails, when a gathered byte and a copied one are read, that reductions apply one at a time, which commands
exclude one another, that a record is read once, which of an entry's two failures is reported and where a full sheaf's
values stand are the model's reading (log entries 30, 76, 78, 79, 80, 83, 118, 120, 121, 143, 155 and 32). -/
def Obligations.CommandEvents : Prop :=
  ∀ (s : State) (id : Nat) (c : Cmd), s.dev.off = false → cmdOf s id = some c →
    (∀ us, cmdRuns s c 1 = true → tryCtx s c (fun r => (copyChunk c r).map (didWork c 1)) = some us →
      exec (.copyChunk id) s = .next (applyAll us s))
    ∧ (∀ k us, rowLeft c = some k → cmdRuns s c k = true → writeTurn s c = true →
      tryCtx s c (fun r => (gatherRow c r).map (didWork c k)) = some us →
      exec (.gatherRow id) s = .next (applyAll us s))
    ∧ (∀ k us, entryLeft c = some k → cmdRuns s c k = true → reduceTurn s c = true → writeTurn s c = true →
      tryCtx s c (fun r => (reduceEntry c r).map (didWork c k)) = some us →
      exec (.scatterReduceUpdate id) s = .next (applyAll us s))
    ∧ (∀ rec dst cap mem sh out us, c.work = .fwalk rec dst cap mem sh out → cmdRuns s c 1 = true → writeTurn s c = true →
      tryCtx s c (fun r => (walkRun c r).map (didWork c 1)) = some us → exec (.fwalkRun id) s = .next (applyAll us s))
    ∧ (∀ list n base stride us, c.work = .stepa list n base stride → cmdRuns s c 1 = true →
      tryCtx s c (fun r => some (didWork c 1 (stepaEntry c list n base stride r))) = some us →
      exec (.engineCommandComplete id) s = .next (applyAll us s))
    ∧ (∀ list n base stride us, c.work = .stepo list n base stride → cmdRuns s c 1 = true →
      tryCtx s c (fun r => if writeTurn r.s c then (stepoEntry c list n base stride r).map (didWork c 1) else none) = some us →
      exec (.engineCommandComplete id) s = .next (applyAll us s))
    ∧ (∀ v, c.fin = some v → (copyShape c.work).isSome = true →
      exec (.copyComplete id) s = .next (applyAll (completeCmd s c v) s))
    ∧ (∀ v, c.fin = some v → isEngWork c.work = true → queueHead s c = true → allDone c = true → c.pe = none →
      exec (.engineCommandComplete id) s = .next (applyAll (completeCmd s c v) s))
    ∧ (∀ v n, c.fin = some v → isEngWork c.work = true → queueHead s c = true → allDone c = true → c.pe = some n →
      c.lost = none → (c.ent = none ∨ (s.part c.part).cur = c.ent) → (s.hart c.hart).gid = c.gid → ((s.hart c.hart).fifoOf n).length < 32 →
      ∃ t, exec (.completionStreamPush id) s = .next t
        ∧ (t.hart c.hart).fifoOf n = (s.hart c.hart).fifoOf n ++ [v] ∧ t.mem = s.mem)
    ∧ (∀ k rest, c.owed = k :: rest → c.be.isSome = true → exec (.barrierCredit id) s =
      .next (applyAll (withCtx s c fun r => (creditCmd c k r).add (.cmd id fun c => { c with owed := rest })) s))
    ∧ (cmdEngine c.work = 3 → (s.cmds.find? fun d => cmdEngine d.work == 3 && d.hart == c.hart && d.part == c.part
        && d.ent == c.ent && d.lost == c.lost) = some c →
      (c.fin = none → engineGoes s c.part (cmdSource c) 1 1 = true → exec (.stashCommandComplete id) s =
        .next (applyAll (withCtx s c fun r => didWork c 1 ((stashDone c r).add (dropCmd id))) s))
      ∧ ∀ v, c.fin = some v → exec (.stashCommandComplete id) s = .next (applyAll (completeCmd s c v) s))

/-- Sheaf instructions retire with their effect on the sheaf and refuse what R271 to R274 refuse (R271, R272, R273,
R274, R269). The element type is checked before the sheaf, SHINS goes through the core's stash, a fault leaves the
translations filled, a sheaf's base is 57 bits without a sign, and which word of the ring an entry takes and what
comes back from it are the model's reading (log entries 81, 82, 38, 135 and 32). -/
def Obligations.Sheaves : Prop :=
  (∀ (s : State) (sh a : Nat), canIssue s .both 0 [] [] (groupRegs a 4) →
    let x := groupVals s a 4
    let ok := sheafOk (x.getD 0 0) (x.getD 1 0) (x.getD 2 0) (x.getD 3 0)
    (ok = false → Traps (.shinit sh a) s 4 sheafValue)
    ∧ (ok = true → walkInto s sh = true → Traps (.shinit sh a) s 4 sheafState)
    ∧ (ok = true → walkInto s sh = false → Completes (.shinit sh a) s 4 [.hart s.h (updSheaf sh fun _ =>
      { sb := x.getD 0 0, ss := x.getD 1 0, seen := x.getD 2 0, u := x.getD 3 0, init := true })]))
  ∧ (∀ (s : State) (sh : Nat), canIssue s .both 0 [] [] [] →
    (walkInto s sh = false → Completes (.shclr sh) s 4 [.hart s.h (updSheaf sh fun t => { t with ents := [], rd := 0 })])
    ∧ (walkInto s sh = true → Traps (.shclr sh) s 4 sheafState))
  ∧ (∀ (s : State) (o : QPo), canIssue s .both 0 [] [o.d] [] →
    Completes (.shcnt o) s o.form.len (writes s [] o.d (BitVec.ofNat 64 (s.myHart.sheafOf o.q).ents.length)))
  ∧ ∀ (s : State) (o : VNo), canIssue s .execute 0 [] [] [] →
    let cx := vcx s
    let t := s.myHart.sheafOf o.n
    let es := activeCoords s cx o
    (coordTy cx.ty = false → Traps (.shpush o) s o.form.len vectorType ∧ Traps (.shins o) s o.form.len vectorType
      ∧ (∀ f : Form, Traps (.shpopb f o.v o.n) s f.len vectorType))
    ∧ (coordTy cx.ty = true →
      (t.init = false → Traps (.shpush o) s o.form.len sheafState ∧ Traps (.shins o) s o.form.len sheafState
        ∧ (∀ f : Form, Traps (.shpopb f o.v o.n) s f.len sheafState))
      ∧ (t.init = true →
        (t.ents.length + es.length ≤ t.capacity → Completes (.shpush o) s o.form.len
          ((spillRun (spaceOf s s.h) s.c t (es.map (·.2)) (Run.start s)).out
            ++ [.hart s.h (updSheaf o.n fun t => t.append (es.map (·.2)))]))
        ∧ (∀ e, noRoom t es = some e → Traps (.shpush o) s o.form.len (sheafOverflow e))
        ∧ (t.seen = 0 → Traps (.shins o) s o.form.len sheafState)
        ∧ (∀ ls r, t.seen ≠ 0 → seenLocs (spaceOf s s.h) t (t.capacity - t.ents.length) es (Run.start s) = .ok (ls, r) →
          let x := setSeen s.c ls r
          Completes (.shins o) s o.form.len ((spillRun (spaceOf s s.h) s.c t x.1 x.2).out
            ++ [.hart s.h (updSheaf o.n fun t => t.append x.1)]))
        ∧ (∀ e r, t.seen ≠ 0 → seenLocs (spaceOf s s.h) t (t.capacity - t.ents.length) es (Run.start s) = .error (e, r) →
          TrapsAfter (.shins o) s o.form.len r.kept e)
        ∧ (let b := min (vlMax s cx.w) t.ents.length
          let moved := backOnChip s t (min b (t.ents.length - 4096)) (Run.start s)
          (t.ents.length ≤ 4096 → moved = .ok ([], Run.start s))
          ∧ (∀ (f : Form) back r, moved = .ok (back, r) → Completes (.shpopb f o.v o.n) s f.len
            (r.out ++ (cx.put o.v cx.w ((List.range b).map fun e => (e, ((t.ents.take 4096 ++ back).getD e 0).toNat))
              ++ [.hart s.h fun h => { updSheaf o.n (fun t => t.popped back b) h with vl := b }])))
          ∧ ∀ (f : Form) e r, moved = .error (e, r) → TrapsAfter (.shpopb f o.v o.n) s f.len r.kept e)))

/-- Conservation monitors arm, take their reference, check, read and disarm (R280, R281, R284, 10 Table 10.10). CMREF
checks its address before it reads, a refused bound leaves the translations filled, and the drift trap names the
lowest drifting monitor, by the model's reading (log entries 65, 38 and 66). -/
def Obligations.ConservationMonitors : Prop :=
  (∀ (s : State) (f : Form) (m a : Nat), canIssue s .both 0 [] [] (groupRegs a 4) →
    let g := groupVals s a 4
    (armOk g = true → Completes (.cmarm f m a) s f.len [updMon s m fun t =>
      { t with sum := 0, nf := false, ov := false, tr := false, pw := false, arm := true,
               nom := g.map (BitVec.ofNat 64), fmt := g.getD 3 0 % 32 }])
    ∧ (armOk g = false → Traps (.cmarm f m a) s f.len monitorValue))
  ∧ (∀ (s : State) (o : CRo) (bs : List Byte) (r : Run), canIssue s .both 0 [o.a] [] [] →
    let a := srcOf s [o.a] 0
    (a.toNat % 8 ≠ 0 → Traps (.cmref o) s o.form.len { code := 10, val := a })
    ∧ (a.toNat % 8 = 0 → loadDoubles s a 10 (Run.start s) = .ok (bs, r) →
      let bound := BitVec.ofNat 320 (ofLe (bs.drop 40))
      (bound.msb = false → Completes (.cmref o) s o.form.len (popAll s.h [o.a] ++ (r.out ++ [updMon s o.m fun t =>
        { t with ref := BitVec.ofNat 320 (ofLe (bs.take 40)), bound := bound }])))
      ∧ (bound.msb = true → TrapsAfter (.cmref o) s o.form.len r.kept monitorValue)))
  ∧ (∀ (s : State) (f : Form) (m : Nat) (clr : Bool), canIssue s .both 0 [] [] [] →
    let r := flushHart (Run.start s) s.h
    (monDrift (monOf (r.s.core s.c) m) = false →
      Completes (.cmchk f m clr) s f.len (r.out ++ if clr then [updMon s m fun t => { t with sum := 0 }] else []))
    ∧ (monDrift (monOf (r.s.core s.c) m) = true →
      TrapsAfter (.cmchk f m clr) s f.len r.out { code := 32, elem := BitVec.ofNat 64 m })
    ∧ Completes (.cmoff f m) s f.len [updMon s m fun t => { t with arm := false }])
  ∧ ∀ (s : State) (o : CDo), canIssue s .both 0 [o.b] [o.d] [] →
    let k := (srcOf s [o.b] 0).toNat
    let m := monOf (s.core s.c) o.m
    let gives := fun (w : Word) => Completes (.cmrd o) s o.form.len (writes s [o.b] o.d w)
    (k < 5 → gives (m.sum.extractLsb' (64 * k) 64))
    ∧ (5 ≤ k → k < 10 → gives (m.ref.extractLsb' (64 * (k - 5)) 64))
    ∧ (10 ≤ k → k < 15 → gives (m.bound.extractLsb' (64 * (k - 10)) 64))
    ∧ (k = 15 → gives (BitVec.ofNat 64 (monStatus m)))
    ∧ (16 ≤ k → Traps (.cmrd o) s o.form.len monitorValue)

/-- EPVER and EPRET set and query policy versions (R289, R396). That only EPRET of the current version is refused is
the model's reading (log entry 84). -/
def Obligations.PolicyVersions : Prop :=
  ∀ (s : State) (o : R2), canIssue s .access 0 [o.a] [o.d] [] →
    let v := srcOf s [o.a] 0
    let p := partIx s s.h
    let n := holders s p v.toNat
    (v ≠ 0 → v.toNat < 2 ^ 32 →
      Completes (.epver o) s o.form.len (popAll s.h [o.a] ++
        (.part p (fun q => { q with ver := v.toNat }) :: setD s.cur o.d (BitVec.ofNat 64 (s.part p).ver)))
      ∧ (v.toNat ≠ (s.part p).ver → Completes (.epret o) s o.form.len (popAll s.h [o.a] ++
        ((if n = 0 then [.part p fun q => { q with retired := if q.retired.contains v.toNat then q.retired else v.toNat :: q.retired }]
          else []) ++ setD s.cur o.d (BitVec.ofNat 64 n))))
      ∧ (v.toNat = (s.part p).ver → Traps (.epret o) s o.form.len stepValue))
    ∧ (v = 0 ∨ 2 ^ 32 ≤ v.toNat → Traps (.epver o) s o.form.len stepValue ∧ Traps (.epret o) s o.form.len stepValue)

/-- The configuration instructions set VL and vt as Table 7.1 says, and VGETG reports them (R165, R166, R171, R36,
R37). A hart of no gang has the whole vector width, and every member is attached before the leader's first VSETL, by
the model's reading (log entries 21 and 107). -/
def Obligations.VectorConfiguration : Prop :=
  (∀ (s : State) (o : RB), canIssue s .execute 0 [o.b] [o.d] [] →
    let b := srcOf s [o.b] 0
    let u := applyAll (attachUpds s) s
    let vl := min b.toNat ((vecHarts u).length * (4096 / (tyOf (u.myHart.vt)).bits * grantOf u u.h / 4))
    Completes (.vsetl o) s o.form.len (popAll s.h [o.b] ++ (attachUpds s ++ [.hart s.h fun h => { h with vl := vl }]
      ++ setD s.cur o.d (BitVec.ofNat 64 vl)))
    ∧ (32 ≤ b.toNat ∨ Ty.ofCode b.toNat = none → Traps (.vsett o) s o.form.len { code := 20 })
    ∧ ∀ t, b.toNat < 32 → Ty.ofCode b.toNat = some t →
      let m := (vecHarts s).length * (4096 / t.bits * grantOf s s.h / 4)
      Completes (.vsett o) s o.form.len (popAll s.h [o.b]
        ++ ([.hart s.h fun h => { h with vt := b.toNat, vl := min h.vl m }] ++ setD s.cur o.d (BitVec.ofNat 64 m))))
  ∧ (∀ (s : State) (o : R3), canIssue s .execute 0 [o.a, o.b] [o.d] [] →
    let a := srcOf s [o.a, o.b] 0
    let b := srcOf s [o.a, o.b] 1
    (32 ≤ b.toNat ∨ Ty.ofCode b.toNat = none → Traps (.vsetm o) s o.form.len { code := 20 })
    ∧ ∀ t, b.toNat < 32 → Ty.ofCode b.toNat = some t →
      let vl := min a.toNat ((vecHarts s).length * (4096 / t.bits * grantOf s s.h / 4))
      Completes (.vsetm o) s o.form.len (popAll s.h [o.a, o.b]
        ++ ([.hart s.h fun h => { h with vt := b.toNat, vl := vl }] ++ setD s.cur o.d (BitVec.ofNat 64 vl))))
  ∧ ∀ (s : State) (o : RD), canIssue s .execute 0 [] [o.d] [] →
    Completes (.vgetg o) s o.form.len (writes s [] o.d (BitVec.ofNat 64 (vgetgVal s)))

/-- Vector integer arithmetic retires with the results of Table 7.6 in the active elements (R183, R167, R168, R148).
-/
def Obligations.VectorIntegerArithmetic : Prop :=
  (∀ (s : State) (o : VVo), canIssue s .execute 0 (vsrcs o.c) [] [] →
    let cx := vcx s
    let t := cx.ty
    let w := t.bits
    let x := srcOf s (vsrcs o.c) 0
    let fit := fun (sat : Bool) (v : Int) =>
      if sat ∧ (v < (rangeI t).1 ∨ (rangeI t).2 < v) then (encodeI t (max (rangeI t).1 (min (rangeI t).2 v)), fST)
      else (encodeI t v, 0)
    let gives := fun (i : Instr) (f : Nat → Nat → Nat → Nat × Flags) =>
      Completes i s o.form.len (popAll s.h (vsrcs o.c) ++ writeResults s cx o.d ((cx.active s o.mask).map fun e =>
        (e, f (cx.get s o.a w e) (vopnd s cx o.c x e) (cx.get s o.d w e))))
    let sat := s.pSat == 1
    let v := decodeI t
    (t.isInt = true →
      gives (.vadd o) (fun a b _ => fit sat (v a + v b)) ∧ gives (.vsub o) (fun a b _ => fit sat (v a - v b))
      ∧ gives (.vmul o) (fun a b _ => fit sat (v a * v b)) ∧ gives (.vmac o) (fun a b d => fit sat (v d + v a * v b))
      ∧ gives (.vmulh o) (fun a b _ => (encodeI t (v a * v b / 2 ^ w), 0))
      ∧ gives (.vmin o) (fun a b _ => (if sgn w a ≤ sgn w b then a else b, 0))
      ∧ gives (.vmax o) (fun a b _ => (if sgn w b ≤ sgn w a then a else b, 0))
      ∧ gives (.vminn o) (fun a b _ => (if a ≤ b then a else b, 0))
      ∧ gives (.vmaxn o) (fun a b _ => (if b ≤ a then a else b, 0))
      ∧ gives (.vand o) (fun a b _ => (a &&& b, 0)) ∧ gives (.vor o) (fun a b _ => (a ||| b, 0))
      ∧ gives (.vxor o) (fun a b _ => (a ^^^ b, 0))
      ∧ gives (.vshl o) (fun a b _ => fit sat (v a * 2 ^ (b % w))) ∧ gives (.vshr o) (fun a b _ => (a / 2 ^ (b % w), 0))
      ∧ gives (.vsha o) (fun a b _ => (encodeI t (sgn w a / 2 ^ (b % w)), 0))
      ∧ gives (.vsadd o) (fun a b _ => fit (s.pSat != 2) (v a + v b))
      ∧ gives (.vssub o) (fun a b _ => fit (s.pSat != 2) (v a - v b)))
    ∧ (t.isInt = false → ∀ i ∈ ([.vadd o, .vsub o, .vmul o, .vmulh o, .vmac o, .vmin o, .vmax o, .vminn o, .vmaxn o,
        .vand o, .vor o, .vxor o, .vshl o, .vshr o, .vsha o, .vsadd o, .vssub o] : List Instr),
        Traps i s o.form.len { code := 23 }))
  ∧ ∀ (s : State) (o : VUo), canIssue s .execute 0 [] [] [] →
    let cx := vcx s
    let t := cx.ty
    (t.isInt = false → Traps (.vabs o) s o.form.len { code := 23 })
    ∧ (t.isInt = true → Completes (.vabs o) s o.form.len (writeResults s cx o.d ((cx.active s o.mask).map fun e =>
      let m : Int := (sgn t.bits (cx.get s o.a t.bits e)).natAbs
      (e, if s.pSat = 1 ∧ (rangeI t).2 < m then (encodeI t (rangeI t).2, fST) else (encodeI t m, 0)))))

/-- Vector float arithmetic retires with exact results rounded once, in the active elements (R184, R185, R139, R149,
R167, R168). What stands for the exact root and power of VFSQRT and VFEXP2, and the draws of VFRECE under rst, are the
model's (log entries 64 and 122). -/
def Obligations.VectorFloatArithmetic : Prop :=
  (∀ (s : State) (o : VVo), canIssue s .execute 0 (vsrcs o.c) [] [] →
    let cx := vcx s
    let t := cx.ty
    let x := srcOf s (vsrcs o.c) 0
    let mode := dynMode s
    let gives := fun (i : Instr) (f : Nat → Nat → Nat → Nat → Nat × Flags) =>
      Completes i s o.form.len (popAll s.h (vsrcs o.c) ++ writeResults s cx o.d ((cx.active s o.mask).map fun e =>
        (e, f e (cx.get s o.a t.bits e) (vopnd s cx o.c x e) (cx.get s o.d t.bits e))))
    let v := decodeF t
    let rnd := fun (e : Nat) (r : Val) (nv : Bool) =>
      let q := roundAt s mode t e r
      (q.1, q.2 ||| if nv then fNV else 0)
    let fma := fun (e a b d : Nat) (neg : Bool) =>
      let p := mulV (v a) (v b)
      if p.2 then rnd e .nan true
      else let r := addV mode (v d) (if neg then p.1.negate else p.1); rnd e r.1 r.2
    (halfTy t = true →
      gives (.vfadd o) (fun e a b _ => let r := addV mode (v a) (v b); rnd e r.1 r.2)
      ∧ gives (.vfsub o) (fun e a b _ => let r := addV mode (v a) (v b).negate; rnd e r.1 r.2)
      ∧ gives (.vfmul o) (fun e a b _ => let r := mulV (v a) (v b); rnd e r.1 r.2)
      ∧ gives (.vfma o) (fun e a b d => fma e a b d false) ∧ gives (.vfnma o) (fun e a b d => fma e a b d true)
      ∧ gives (.vfdiv o) (fun e a b _ => let r := divV (v a) (v b); let q := roundAt s mode t e r.1; (q.1, q.2 ||| r.2))
      ∧ gives (.vfmin o) (fun _ a b _ => (minmaxF t false a b, 0))
      ∧ gives (.vfmax o) (fun _ a b _ => (minmaxF t true a b, 0)))
    ∧ (halfTy t = false → ∀ i ∈ ([.vfadd o, .vfsub o, .vfmul o, .vfma o, .vfnma o, .vfdiv o, .vfmin o, .vfmax o] :
        List Instr), Traps i s o.form.len { code := 23 }))
  ∧ (∀ (s : State) (o : VUo), canIssue s .execute 0 [] [] [] →
    let cx := vcx s
    let t := cx.ty
    let gives := fun (i : Instr) (f : Nat → Nat → Nat × Flags) =>
      Completes i s o.form.len (writeResults s cx o.d ((cx.active s o.mask).map fun e => (e, f e (cx.get s o.a t.bits e))))
    let rnd := fun (e : Nat) (r : Val × Flags) => let q := roundAt s (dynMode s) t e r.1; (q.1, q.2 ||| r.2)
    let isNan := fun (a : Nat) => (decodeF t a).isNaN = true
    (halfTy t = true →
      gives (.vfsqrt o) (fun e a => rnd e (sqrtV (decodeF t a))) ∧ gives (.vfrece o) (fun e a =>
        let m := fixedMode s 1
        rnd e (recip12 m (if m = 6 then drawAt s e else 0) (decodeF t a)))
      ∧ gives (.vfexp2 o) (fun e a => rnd e (exp2V (decodeF t a), 0))
      ∧ gives (.vfabs o) (fun _ a => (if isNan a then t.canonNaN else a % 2 ^ (t.bits - 1), 0))
      ∧ gives (.vfneg o) (fun _ a => (if isNan a then t.canonNaN else a ^^^ 2 ^ (t.bits - 1), 0))
      ∧ gives (.vfclass o) (fun _ a => (classF t a, 0)))
    ∧ (halfTy t = false → ∀ i ∈ ([.vfsqrt o, .vfrece o, .vfexp2 o, .vfabs o, .vfneg o, .vfclass o] : List Instr),
        Traps i s o.form.len { code := 23 }))
  ∧ (∀ (s : State) (o : VPo), canIssue s .execute 0 [] [] [] →
    let cx := vcx s
    let es := cx.active s o.mask
    let p := fun e => pivot s (decodeF cx.ty (cx.get s o.a cx.ty.bits e))
    (halfTy cx.ty = false → Traps (.vfrcpp o) s o.form.len { code := 23 })
    ∧ (halfTy cx.ty = true → Completes (.vfrcpp o) s o.form.len
      (writeResults s cx o.d (es.map fun e =>
          let r := divV (.num 1 1) (p e).2
          let q := roundAt s (dynMode s) cx.ty e r.1
          (e, q.1, q.2 ||| r.2))
        ++ cx.putMask o.mc (es.map fun e => (e, (p e).1)))))
  ∧ (∀ n k : Nat, 0 < n →
    let q := sqrtQ n (2 ^ k)
    let den := 2 ^ ((k + k % 2) / 2)
    q.2 = 2 ^ 200 * den ∧ q.1 ^ 2 * 2 ^ k = (n : Int) * q.2 ^ 2
      ∨ q.2 = 2 ^ 201 * den ∧ (∃ m : Nat, q.1 = 2 * m + 1)
        ∧ ∀ m : Nat, (m ^ 2 * 2 ^ k < n * (2 ^ 200 * den) ^ 2 ↔ 2 * (m : Int) < q.1) ∧ m ^ 2 * 2 ^ k ≠ n * (2 ^ 200 * den) ^ 2)
  ∧ (∀ neg : Bool, exp2V (.zero neg) = .num 1 1 ∧ exp2V (.inf neg) = if neg then .zero false else .inf false)
  ∧ ∀ (n : Int) (k : Nat),
    let i := n / 2 ^ k
    let f := (n % 2 ^ k).toNat
    let gives := fun (a d : Nat) => exp2V (.num n (2 ^ k)) = .num (scaleQ a d i).1 (scaleQ a d i).2
    (-200 : Int) ≤ i → i ≤ 200 →
    (f = 0 → gives 1 1)
    ∧ (f ≠ 0 → ∃ q : Nat, gives (2 * q + 1) (2 ^ 201)
      ∧ q ^ 2 ^ k ≤ 2 ^ f * (2 ^ 200) ^ 2 ^ k ∧ 2 ^ f * (2 ^ 200) ^ 2 ^ k < (q + 2) ^ 2 ^ k)

/-- Compares, mask instructions and conversions retire with the results of R186 to R188 (R186, R187, R188, R169, R173,
R150, R152). For a negative integer the bit that rto sets is that of its two's complement, and a misplaced group is
the vector-shape fault, by the model's reading (log entries 13 and 134). -/
def Obligations.ComparesMasksConversions : Prop :=
  (∀ (s : State) (cx : VCtx), cx = vcx s →
    (∀ o : VCo, canIssue s .execute 0 (vsrcs o.c) [] [] →
      (cx.ty.isInt = false → Traps (.vcmp o) s o.form.len { code := 23 })
      ∧ (cx.ty.isInt = true → Completes (.vcmp o) s o.form.len (popAll s.h (vsrcs o.c) ++ cx.putMask o.d
        ((cx.active s o.mask).map fun e =>
          (e, icond o.cond cx.ty.bits (cx.get s o.a cx.ty.bits e) (vopnd s cx o.c (srcOf s (vsrcs o.c) 0) e))))))
    ∧ (∀ o : VFCo, canIssue s .execute 0 (vsrcs o.c) [] [] →
      let r := fun e => fcond o.cond (decodeF cx.ty (cx.get s o.a cx.ty.bits e))
        (decodeF cx.ty (vopnd s cx o.c (srcOf s (vsrcs o.c) 0) e))
      (halfTy cx.ty = false → Traps (.vfcmp o) s o.form.len { code := 23 })
      ∧ (halfTy cx.ty = true → Completes (.vfcmp o) s o.form.len (popAll s.h (vsrcs o.c)
        ++ (cx.putMask o.d ((cx.active s o.mask).map fun e => (e, (r e).1))
          ++ setFlags s (orFlags ((cx.active s o.mask).map fun e => (r e).2))))))
    ∧ (canIssue s .execute 0 [] [] [] →
      let all := fun (d : Nat) (f : Nat → Bool) => cx.putMask d ((List.range cx.vl).map fun e => (e, f e))
      (∀ o : M3, Completes (.mand o) s o.form.len (all o.d fun e => cx.bit s o.a e && cx.bit s o.b e)
        ∧ Completes (.mor o) s o.form.len (all o.d fun e => cx.bit s o.a e || cx.bit s o.b e)
        ∧ Completes (.mxor o) s o.form.len (all o.d fun e => xor (cx.bit s o.a e) (cx.bit s o.b e)))
      ∧ (∀ (f : Form) (d a : Nat), Completes (.mnot f d a) s f.len (all d fun e => !cx.bit s a e))
      ∧ (∀ o : VUo, (cx.ty.isInt = false → Traps (.viota o) s o.form.len { code := 23 })
        ∧ (cx.ty.isInt = true → Completes (.viota o) s o.form.len (cx.put o.d cx.ty.bits ((cx.active s o.mask).map fun e =>
          (e, ((cx.active s o.mask).filter fun i => decide (e / cx.part * cx.part ≤ i) && decide (i < e)
            && cx.bit s o.a i).length % 2 ^ cx.ty.bits)))))
      ∧ (∀ (o : VTo) (i : Instr) (ok : Bool) (f : Nat → Nat → Nat × Flags),
        (i, ok, f) ∈ ([(.vcvt o, plain o.ty cx.ty && (o.ty == cx.ty || widens o.ty cx.ty),
              fun _ v => (canonF cx.ty (widenBits o.ty cx.ty v), 0)),
            (.vnarrow o, narrower o.ty cx.ty, convert s (dynMode s) o.ty cx.ty),
            (.vnarrowChain o, narrower o.ty cx.ty && o.ty.isFloat,
              fun e v => let r := convert s 5 o.ty cx.ty e v; (r.1, r.2 &&& fNV)),
            (.vftoi o, o.ty.isFloat && cx.ty.isInt, convert s (dynMode s) o.ty cx.ty),
            (.vitof o, o.ty.isInt && cx.ty.isFloat, convert s (dynMode s) o.ty cx.ty)] :
              List (Instr × Bool × (Nat → Nat → Nat × Flags))) →
        (ok = false → Traps i s o.form.len { code := 23 })
        ∧ (ok = true → groupBad o.a (cx.groupN o.ty.bits) = true → Traps i s o.form.len { code := 24 })
        ∧ (ok = true → groupBad o.a (cx.groupN o.ty.bits) = false → Completes i s o.form.len (writeResults s cx o.d
          ((cx.active s o.mask).map fun e => (e, f e (cx.get s o.a o.ty.bits e)))))))
    ∧ (∀ o : MDo, canIssue s .execute 0 [] [o.d] [] →
      let es := (cx.active s o.mask).filter fun e => cx.bit s o.a e
      Completes (.mpopc o) s o.form.len (writes s [] o.d (BitVec.ofNat 64 es.length))
      ∧ Completes (.mfirst o) s o.form.len (writes s [] o.d (match es with | [] => -1 | e :: _ => BitVec.ofNat 64 e))))
  ∧ ∀ (s : State) (o : VSo), canIssue s .execute 0 (vsrcs o.c) [] [] →
    let n := countOf o.c (srcOf s (vsrcs o.c) 0)
    Completes (.vmset o) s o.form.len (popAll s.h (vsrcs o.c) ++ (vcx s).putMask o.d
      ((List.range (vcx s).vl).map fun e => (e, decide (e < n))))

/-- Permutes, index compression, broadcast, extract, insert, the stair exchange and the reductions retire with their
results (R189, R190, R439, R191, R192, R193, R194, R170, R169). STXS reads its source part past VL too, a misplaced
group is the vector-shape fault, by the model's reading (log entries 63 and 134), and where a reduction stops is a
choice of its turn (log entry 1). -/
def Obligations.MovesAndReductions : Prop :=
  (∀ (s : State) (o : VVo) (cx : VCtx), cx = vcx s → canIssue s .execute 0 (vsrcs o.c) [] [] →
    let x := srcOf s (vsrcs o.c) 0
    let w := cx.ty.bits
    let k := countOf o.c x
    let es := cx.active s o.mask
    let moves := fun (i : Instr) (f : Nat → Nat) =>
      Completes i s o.form.len (popAll s.h (vsrcs o.c) ++ cx.put o.d w (es.map fun e => (e, f e)))
    let lo := fun e => e / cx.part * cx.part
    let n := fun e => min cx.part (cx.vl - lo e)
    let b := vopnd s cx o.c x 0
    let vals := es.map fun e => (e, cx.get s o.a w e)
    let ints := es.map fun e => decodeI cx.ty (cx.get s o.a w e)
    let total := ints.foldl (· + ·) (decodeI cx.ty b)
    let free : List Upd := if s.myHart.red.isSome then [.hart s.h fun h => { h with red := none }] else []
    let reduces := fun (i : Instr) (r : Nat × Flags) =>
      Completes i s o.form.len (popAll s.h (vsrcs o.c) ++ (free ++ cx.put o.d w [(0, r.1)] ++ setFlags s r.2))
    let levels := levelsFrom cx.vl 20 0
    let tree := (List.range levels).foldl (fun a i =>
      let r := treeLevel s cx.ty (i + 1) 0 a.1
      (r.1, a.2 ||| r.2)) (treeLeaves cx s o (2 ^ levels), (0 : Flags))
    let root := redStep s cx.ty 0 b (tree.1.headD 0)
    let redStep' := redStep s cx.ty
    let steps := fun (f : Nat → Nat → Nat → Nat × Flags) =>
      vals.foldl (fun t e => ((f e.1 t.1 e.2).1, t.2 ||| (f e.1 t.1 e.2).2)) (b, (0 : Flags))
    let canon := fun (a : Nat) => if (decodeF cx.ty a).isNaN then cx.ty.canonNaN else a
    Completes (.vslideup o) s o.form.len (popAll s.h (vsrcs o.c) ++ cx.put o.d w
      ((es.filter fun e => decide (lo e + k ≤ e)).map fun e => (e, cx.get s o.a w (e - k))))
    ∧ moves (.vslidedn o) (fun e => if e - lo e + k < n e then cx.get s o.a w (e + k) else 0)
    ∧ moves (.stxs o) (fun e => cx.get s o.a w ((e / cx.part + k) % cx.hs.length * cx.part + e % cx.part))
    ∧ moves (.stxw o) (fun e => if e + k < cx.vl then cx.get s o.a w (e + k) else 0)
    ∧ (groupBad (vregOf o.c) (cx.groupN 32) = true → Traps (.vperm o) s o.form.len { code := 24 })
    ∧ (groupBad (vregOf o.c) (cx.groupN 32) = false →
      moves (.vperm o) (fun e =>
        let i := cx.get s (vregOf o.c) 32 e
        if i < n e then cx.get s o.a w (lo e + i) else 0))
    ∧ (s.choice.stop = none → heldRed s = none → cx.ty.isInt = true → cx.vl ≤ 8192 →
      reduces (.vredadd o) (narrowI cx.ty (s.pSat == 1) total)
      ∧ (s.pSat ≠ 1 → reduces (.vredaddo o) (encodeI cx.ty total, 0))
      ∧ (s.pSat = 1 → reduces (.vredaddo o) (steps fun _ a e => narrowI cx.ty true (decodeI cx.ty a + decodeI cx.ty e)))
      ∧ reduces (.vredmax o) (encodeI cx.ty (ints.foldl max (decodeI cx.ty b)), 0)
      ∧ reduces (.vredmin o) (encodeI cx.ty (ints.foldl min (decodeI cx.ty b)), 0))
    ∧ (s.choice.stop = none → heldRed s = none → halfTy cx.ty = true →
      reduces (.vfredadd o) (root.1, tree.2 ||| root.2)
      ∧ reduces (.vfredaddo o) (canon (steps redStep').1, (steps redStep').2)
      ∧ reduces (.vfredmax o) (canon (vals.foldl (fun t e => minmaxF cx.ty true t e.2) b), 0)
      ∧ reduces (.vfredmin o) (canon (vals.foldl (fun t e => minmaxF cx.ty false t e.2) b), 0))
    ∧ (cx.ty.isInt = false → ∀ i ∈ ([.vredadd o, .vredaddo o, .vredmax o, .vredmin o] : List Instr),
      Traps i s o.form.len { code := 23 })
    ∧ (halfTy cx.ty = false → ∀ i ∈ ([.vfredadd o, .vfredaddo o, .vfredmax o, .vfredmin o] : List Instr),
      Traps i s o.form.len { code := 23 }))
  ∧ ∀ (s : State) (cx : VCtx), cx = vcx s →
    (∀ o : VUo, canIssue s .execute 0 [] [] [] →
      let parts := (List.range cx.hs.length).map fun p =>
        (p * cx.part, (cx.active s o.mask).filter fun e => decide (e / cx.part = p))
      Completes (.vcompr o) s o.form.len (cx.put o.d cx.ty.bits (parts.flatMap fun p =>
        (List.range p.2.length).map fun j => (p.1 + j, cx.get s o.a cx.ty.bits (p.2.getD j 0))))
      ∧ Completes (.vexpand o) s o.form.len (cx.put o.d cx.ty.bits (parts.flatMap fun p =>
        (List.range p.2.length).map fun j => (p.2.getD j 0, cx.get s o.a cx.ty.bits (p.1 + j)))))
    ∧ (∀ o : VXo, canIssue s .execute 0 [] [.x o.c] [] →
      let es := cx.active s o.mask
      (cx.hs.length ≠ 1 ∨ groupBad o.d (cx.groupN 32) = true → Traps (.vidxc o) s o.form.len { code := 24 })
      ∧ (cx.hs.length = 1 → groupBad o.d (cx.groupN 32) = false → Completes (.vidxc o) s o.form.len
        (cx.put o.d 32 ((List.range es.length).map fun j => (j, es.getD j 0))
          ++ setD s.cur (.x o.c) (BitVec.ofNat 64 es.length))))
    ∧ (∀ o : VBo, canIssue s .execute 0 (vsrcs o.c) [] [] → Completes (.vbcast o) s o.form.len (popAll s.h (vsrcs o.c)
      ++ writeResults s cx o.d ((cx.active s o.mask).map fun e =>
        (e, bcastVal s cx.ty o.c (srcOf s (vsrcs o.c) 0) e))))
    ∧ (∀ o : VEo, canIssue s .execute 0 (vsrcs o.c) [o.d] [] →
      let i := countOf o.c (srcOf s (vsrcs o.c) 0)
      let v := cx.get s o.a cx.ty.bits i
      Completes (.vextr o) s o.form.len (writes s (vsrcs o.c) o.d (if cx.vl ≤ i then 0
        else if cx.ty.isSigned then (BitVec.ofNat cx.ty.bits v).signExtend 64 else BitVec.ofNat 64 v)))
    ∧ (∀ o : VIo, canIssue s .execute 0 [o.b] [] [o.e] →
      let i := (getX s.me o.e).toNat
      Completes (.vins o) s o.form.len (popAll s.h [o.b] ++ if i < cx.vl then
        cx.put o.d cx.ty.bits [(i, (srcOf s [o.b] 0).toNat % 2 ^ cx.ty.bits)] else []))
    ∧ ∀ (q : Reduction) (n m i : Nat) (a : List Nat × Flags), redSteps q (n + m) i a = redSteps q m (i + n) (redSteps q n i a)

/-- A vector result reads back in its element, and every other element, register and byte keeps its value (R166,
R167). -/
def Obligations.VectorResultFrame : Prop :=
  ∀ (s : State) (h d w part vl : Nat) (ty : Ty) (ws : List (Nat × Nat)),
    let cx : VCtx := ⟨[h], part, vl, ty⟩
    let t := applyAll (cx.put d w ws) s
    w ∈ [4, 8, 16, 32, 64] → part * w ≤ 4096 → (∀ p ∈ ws, p.1 < part) → (ws.map (·.1)).Nodup →
    (∀ p ∈ ws, cx.get t d w p.1 = p.2 % 2 ^ w)
    ∧ (∀ e, e < part → e ∉ ws.map (·.1) → cx.get t d w e = cx.get s d w e)
    ∧ (∀ r, r ≠ d → tget 0 (t.hart h).v r = tget 0 (s.hart h).v r)
    ∧ (t.hart h).h = (s.hart h).h ∧ (t.hart h).m = (s.hart h).m ∧ (t.hart h).vl = (s.hart h).vl
    ∧ (t.hart h).vt = (s.hart h).vt ∧ (t.hart h).q = (s.hart h).q ∧ (t.hart h).strip = (s.hart h).strip
    ∧ (∀ k, k ≠ h → t.hart k = s.hart k) ∧ t.strands = s.strands ∧ t.cores = s.cores ∧ t.mem = s.mem

/-- AFDEF, AFPOP and AFCNT work on the aftermath queue, and its overflow and path faults are precise (R195, R41, R42,
R43). -/
def Obligations.AftermathQueue : Prop :=
  (∀ (s : State) (o : AFo), canIssue s .execute 0 (vsrcs o.p) [] [] →
    let p := countOf o.p (srcOf s (vsrcs o.p) 0)
    let cx := vcx s
    let es := cx.active s o.mask
    let fits := s.myHart.aft.length + es.length ≤ 1024 + s.myHart.aftSize.toNat / 64
    (256 ≤ p → Traps (.afdef o) s o.form.len { code := 22 })
    ∧ (p < 256 → ¬ fits → Traps (.afdef o) s o.form.len { code := 21 })
    ∧ (p < 256 → fits → Completes (.afdef o) s o.form.len (popAll s.h (vsrcs o.p) ++ [.hart s.h fun h =>
        { h with aft := h.aft ++ es.map fun e => AftRec.mk (s.myHart.sbase + BitVec.ofNat 64 e) p
                   ((List.range o.n).map fun j => BitVec.ofNat 64 (cx.get s (o.a + j) cx.ty.bits e)) }])))
  ∧ (∀ (s : State) (o : APo), canIssue s .execute 0 (vsrcs o.p) [] [] →
    let p := countOf o.p (srcOf s (vsrcs o.p) 0)
    let recs := (s.myHart.aft.filter fun r => r.path == p).take (vlMax s (vcx s).ty.bits)
    let cx : VCtx := ⟨(vcx s).hs, (vcx s).part, recs.length, (vcx s).ty⟩
    let n0 := (recs.map fun r => r.vals.length).headD 0
    let n := cx.groupN 32
    let misplaced := groupBad o.d n = true ∨ (n0 ≠ 0 ∧ 32 < o.a + n0) ∨ ∃ j, j < n0 ∧ o.d ≤ o.a + j ∧ o.a + j < o.d + n
    let us := popAll s.h (vsrcs o.p) ++ (cx.put o.d 32 ((List.range recs.length).map fun i =>
        (i, (recs.getD i ⟨0, 0, []⟩).index.toNat % 2 ^ 32))
      ++ (List.range n0).flatMap (fun j => cx.put (o.a + j) cx.ty.bits ((List.range recs.length).map fun i =>
        (i, ((recs.getD i ⟨0, 0, []⟩).vals.getD j 0).toNat % 2 ^ cx.ty.bits)))
      ++ [.hart s.h fun h => { h with vl := recs.length, aft := dropPath p recs.length h.aft }])
    (256 ≤ p → Traps (.afpop o) s o.form.len { code := 22 })
    ∧ (p < 256 → misplaced → Traps (.afpop o) s o.form.len { code := 24 })
    ∧ (p < 256 → ¬ misplaced → Completes (.afpop o) s o.form.len us
        ∧ (applyAll us s).myHart.vl = recs.length
        ∧ (applyAll us s).myHart.aft = dropPath p recs.length s.myHart.aft
        ∧ (applyAll us s).mem = s.mem ∧ (applyAll us s).strands = s.strands))
  ∧ (∀ (s : State) (o : ACo) (c : VSrc), o.p = some c → canIssue s .execute 0 (vsrcs c) [o.d] [] →
    let p := countOf c (srcOf s (vsrcs c) 0)
    (256 ≤ p → Traps (.afcnt o) s o.form.len { code := 22 })
    ∧ (p < 256 → Completes (.afcnt o) s o.form.len (writes s (vsrcs c) o.d
        (BitVec.ofNat 64 (s.myHart.aft.filter fun r => r.path == p).length))))
  ∧ ∀ (s : State) (o : ACo), o.p = none → canIssue s .execute 0 [] [o.d] [] →
    Completes (.afcnt o) s o.form.len (writes s [] o.d (BitVec.ofNat 64 s.myHart.aft.length))

/-- Vector loads write the elements that they read, and a faulting load keeps those below the fault (R172, R173, R174,
R175, R176, R178, R180). The order of the sub-byte and memory-format faults, when block arrays' alignment is checked,
whose core a spanned access uses, what a faulting load leaves, that headers know no scope, where a spanned operand's
headers stand and that a turn may take elements early or perform them later are the model's reading (log entries 57,
58, 59, 60, 116, 138 and 10). -/
def Obligations.VectorLoads : Prop :=
  ∀ (s : State) (o : VMo),
    let cx := vcx s
    let mt := memTy s
    let parts := fun (i : Instr) (us : List Upd) (t : TrapInfo) =>
      exec i s = .next (takeTrap (applyAll us s) s.cur t o.form.len)
    let loads := fun (i : Instr) (g : LoadArgs) (c : Nat) (first : Bool) =>
      let l := loadElems s cx mt g (List.range cx.vl) { run := Run.start s }
      let got := fun n => l.run.out ++ loadedUpds cx mt g.v n l
      (∀ t, loadChecks cx mt g c = some t → Traps i s o.form.len t)
      ∧ (loadChecks cx mt g c = none → l.fault = none →
          Completes i s o.form.len (popAll s.h [o.a] ++ (got cx.vl ++ loadedFlags s cx l)))
      ∧ ∀ e t, loadChecks cx mt g c = none → l.fault = some (e, t) →
          (first = true → 0 < e → Completes i s o.form.len (popAll s.h [o.a]
            ++ (got e ++ loadedFlags s cx l ++ [.hart s.h fun h => { h with vl := e }])))
          ∧ ((first = false ∨ e = 0) → parts i (got e) t)
    let a := srcOf s [o.a] 0
    (canIssue s .execute 0 [o.a] [] [o.c] →
      loads (.vld o) ⟨o.v, o.mask, a, getX s.me o.c, .unit, o.sc, 0⟩ o.c false
      ∧ loads (.vldf o) ⟨o.v, o.mask, a, getX s.me o.c, .unit, o.sc, 0⟩ o.c true
      ∧ loads (.vlds o) ⟨o.v, o.mask, a, 0, .strided (getX s.me o.c), o.sc, 0⟩ 0 false)
    ∧ (canIssue s .execute 0 [o.a] [] [] →
      loads (.vldx o) ⟨o.v, o.mask, a, 0, .indexed o.c, o.sc, 0⟩ 0 false
      ∧ (let l := loadHdrs s cx mt o.v a ((cx.vl + 31) / 32) ((cx.vl + 31) / 32) { run := Run.start s }
        let us := l.run.out ++ cx.putHdrs o.v l.hdrs
        (mt.isBlock = false → Traps (.vldh o) s o.form.len { code := 25 })
        ∧ (mt.isBlock = true → l.fault = none → Completes (.vldh o) s o.form.len (popAll s.h [o.a] ++ us))
        ∧ ∀ k t, mt.isBlock = true → l.fault = some (k, t) → parts (.vldh o) us t))

/-- Vector stores enter the strip buffer whole or not at all, and SCOMMIT performs the strip in program order (R179,
R182, R196, R46, R45, R177, R370). The order of checks, when block arrays' alignment is checked, how the nibbles of a
byte merge, that a pending strip is reported first, that a fault leaves the translations filled, how an all-zero block
is quantised, how a strip's stores are counted and whether SCOMMIT's stores are held are the model's reading (log
entries 57, 58, 59, 61, 115, 38, 153, 156, 1 and 10). -/
def Obligations.VectorStores : Prop :=
  (∀ (s : State) (o : VMo), canIssue s .execute 0 [o.a] [] [] →
    let cx := vcx s
    let mt := memTy s
    let a := srcOf s [o.a] 0
    let xc := getX s.me o.c
    let whole := fun (i : Instr) (l : Storing) (us : List Upd) =>
      let new := markFirst l.ents.reverse
      (16384 < stripBytes (s.myHart.strip ++ new) → TrapsAfter i s o.form.len l.run.kept { code := 17 })
      ∧ (stripBytes (s.myHart.strip ++ new) ≤ 16384 → Completes i s o.form.len (popAll s.h [o.a]
          ++ (l.run.out ++ [.hart s.h fun h => { h with strip := h.strip ++ new }] ++ us)))
    let stores := fun (i : Instr) (g : LoadArgs) (c : Nat) =>
      let r := storeElems s cx mt g (cx.active s g.mask) { run := Run.start s }
      (∀ t, storeChecks cx mt g c = some t → Traps i s o.form.len t)
      ∧ (∀ t, storeChecks cx mt g c = none → r = .error t → TrapsAfter i s o.form.len t.2.kept t.1)
      ∧ ∀ l, storeChecks cx mt g c = none → r = .ok l → whole i l (setFlags s l.flags)
    (s.me.tcause.getLsbD 63 = true → ∀ i ∈ ([.vstx o, .vstxo o, .vsth o] : List Instr), Traps i s o.form.len { code := 18 })
    ∧ (s.me.tcause.getLsbD 63 = false →
      stores (.vstx o) ⟨o.v, o.mask, a, 0, .indexed o.c, .floor, 0⟩ 0
      ∧ stores (.vstxo o) ⟨o.v, o.mask, a, 0, .indexed o.c, .floor, nextOrd s.myHart⟩ 0
      ∧ (∀ t, storeHdrs s cx o.v a (List.range ((cx.vl + 31) / 32)) { run := Run.start s } = .error t →
          TrapsAfter (.vsth o) s o.form.len t.2.kept t.1)
      ∧ ∀ l, storeHdrs s cx o.v a (List.range ((cx.vl + 31) / 32)) { run := Run.start s } = .ok l → whole (.vsth o) l [])
    ∧ (canIssue s .execute 0 [o.a] [] [o.c] →
      (s.me.tcause.getLsbD 63 = true → ∀ i ∈ ([.vst o, .vsts o, .vstq o] : List Instr), Traps i s o.form.len { code := 18 })
      ∧ (s.me.tcause.getLsbD 63 = false →
        stores (.vst o) ⟨o.v, o.mask, a, xc, .unit, .floor, 0⟩ o.c
        ∧ stores (.vsts o) ⟨o.v, o.mask, a, 0, .strided xc, .floor, 0⟩ 0
        ∧ (halfTy cx.ty = false → Traps (.vstq o) s o.form.len { code := 23 })
        ∧ (halfTy cx.ty = true →
          let some' := (candidates mt s.myHart.mfcCtl.toNat s.myHart.mfcLt).isEmpty = false
          let aligned := cx.vl = 0 ∨ (a.toNat % (if mt = .sb8 then 32 else 16) = 0 ∧ xc.toNat % 4 = 0)
          let q := quantBlocks s cx mt o.v a xc (List.range (cx.vl / 32)) { run := Run.start s } []
          (¬ (mt.isBlock = true ∧ some') → Traps (.vstq o) s o.form.len { code := 25 })
          ∧ (mt.isBlock = true → some' → cx.vl % 32 ≠ 0 → Traps (.vstq o) s o.form.len { code := 24 })
          ∧ (∀ t, mt.isBlock = true → some' → cx.vl % 32 = 0 → aligned → q = .error t →
              TrapsAfter (.vstq o) s o.form.len t.2.kept t.1)
          ∧ ∀ l hs, mt.isBlock = true → some' → cx.vl % 32 = 0 → aligned → q = .ok (l, hs) →
            whole (.vstq o) l (cx.putHdrs o.v hs ++ setFlags s l.flags)))))
  ∧ (∀ (s : State) (o : RA), canIssue s .execute 0 [o.a] [] [] →
    let first := flushHeld (Run.start s) (2 * s.h + 1)
    let all := wcFlush ((first.s.hart s.h).strip.foldl (fun r e => storeHeld (2 * s.h + 1) r e.committed) first) (coreOf s.h)
    let close := fun (h : Hart) => { emptyStrip h with sbase := h.sbase + srcOf s [o.a] 0 }
    (s.me.tcause.getLsbD 63 = true → Traps (.scommit o) s o.form.len { code := 18 })
    ∧ (s.me.tcause.getLsbD 63 = false → s.holds = false →
      Completes (.scommit o) s o.form.len (popAll s.h [o.a] ++ (all.out ++ [.hart s.h close])))
    ∧ (s.me.tcause.getLsbD 63 = false → s.holds = true → Completes (.scommit o) s o.form.len (popAll s.h [o.a]
      ++ [.hart s.h fun h => { close h with held := (close h).held ++ h.strip.map (·.committed) }])))
  ∧ ∀ (s : State) (f : Form), canIssue s .execute 0 [] [] [] →
    (s.me.tcause.getLsbD 63 = true → Traps (.sabort f) s f.len { code := 18 })
    ∧ (s.me.tcause.getLsbD 63 = false → Completes (.sabort f) s f.len [.hart s.h emptyStrip])
    ∧ (∀ h : Hart, (emptyStrip h).strip = [] ∧ (emptyStrip h).v = h.v ∧ (emptyStrip h).q = h.q ∧ (emptyStrip h).sbase = h.sbase)

/-- The tuple matrix unit grants, steps, runs and reads as chapter 8 says (R198, R199, R203, R208, R209, R212, R213,
R215, R216, R220, R221, R222). The order of the checks where no rows are granted, when a waiting TMOP is sent, a
header base that is not aligned, a read that the stash cannot serve, that TMALG's fault leaves the translations
filled, which of two failures a step records, what cause holds after TMWAIT, that a fault without a handler counts as
delivered, the sizes of TMALGS's stores, and tval where an instruction names no tile follow the model's reading (log
entries 23, 110, 111, 112, 38, 140, 141, 154 and 147). -/
def Obligations.TupleMatrixUnit : Prop :=
  (∀ (s : State) (o : RB), canIssue s .execute 0 [o.b] [o.d] [] →
    let r := (srcOf s [o.b] 0).toNat
    let others := (((List.range 4).map (4 * (s.c / 4) + ·)).filter (· ≠ s.c)).map fun k => (s.core k).rows
    let g := min r (128 - others.foldl (· + ·) 0) / 32 * 32
    (r ∉ [32, 64, 96, 128] → Traps (.tmatt o) s o.form.len { code := 35 })
    ∧ (r ∈ [32, 64, 96, 128] → s.myCore.runs ≠ [] → Traps (.tmatt o) s o.form.len { code := 36 })
    ∧ (r ∈ [32, 64, 96, 128] → s.myCore.runs = [] → Completes (.tmatt o) s o.form.len (popAll s.h [o.b]
      ++ ([.core s.c fun c => { (if g = 0 then c else grantRows g c) with req := r }] ++ setD s.cur o.d (BitVec.ofNat 64 g)))))
  ∧ (∀ (s : State) (f : Form), canIssue s .execute 0 [] [] [] →
    (s.myCore.runs ≠ [] → Traps (.tmdet f) s f.len { code := 36 })
    ∧ (s.myCore.runs = [] → Completes (.tmdet f) s f.len [.core s.c fun c => { c with rows := 0 }])
    ∧ ∀ t, (ownsTile s.myCore t = true → Traps (.tmzero f t) s f.len { code := 36, val := BitVec.ofNat 64 t })
      ∧ (ownsTile s.myCore t = false → Completes (.tmzero f t) s f.len
        [.core s.c fun c => (c.setTile t []).setTst t fun q => { q with steps := 0 }]))
  ∧ (∀ (s : State) (o : RA), canIssue s .execute 0 [o.a] [] [] →
    let a := srcOf s [o.a] 0
    (a.toNat % 8 ≠ 0 → Traps (.tmalg o) s o.form.len { code := 10, val := a } ∧ Traps (.tmalgs o) s o.form.len { code := 10, val := a })
    ∧ (a.toNat % 8 = 0 →
      (∀ hd cs r r', scalarLoad s a 8 (Run.start s) = .ok (hd, r) →
        loadHalves s (a + 8) (8 ^ (ofLe hd % 4)) r = .ok (cs, r') →
        (∀ t, algOf (ofLe hd) cs = some t → Completes (.tmalg o) s o.form.len
          (popAll s.h [o.a] ++ (r'.out ++ [.core s.c fun c => { c with alg := t }])))
        ∧ (algOf (ofLe hd) cs = none → TrapsAfter (.tmalg o) s o.form.len r'.kept { code := 37 }))
      ∧ ∀ r, storePieces s 200 a s.myCore.alg.image (Run.start s) = .ok ((), r) →
        Completes (.tmalgs o) s o.form.len (popAll s.h [o.a] ++ r.out)))
  ∧ (∀ (s : State) (o : TOo) (ta tb : Ty), canIssue s .execute 0 [o.b] [] [] →
    let w := (srcOf s [o.b] 0).toNat
    let m := w % 256
    let n := w / 256 % 512
    let h := s.myHart
    let c := s.myCore
    tmType (w / 2 ^ 17 % 32) = some ta → tmType (w / 2 ^ 22 % 32) = some tb → w < 2 ^ 27 →
    1 ≤ m → m ≤ c.rows → 1 ≤ n → n ≤ 256 / c.alg.d →
    groupBad o.a (tmGroup m ta) = false → groupBad o.vb (tmGroup n tb) = false →
    (ta.isBlock = true ∨ tb.isBlock = true → axisSet h = false) →
    badBlock h o.a m ta = none → badBlock h o.vb n tb = none →
    (ownsTile c o.t = true → Traps (.tmop o) s o.form.len { code := 36, val := BitVec.ofNat 64 o.t })
    ∧ (c.runs = [] →
      let k := kStep c.alg o.ca o.cb (c.tile o.t) (regRows h o.a m ta) (regRows h o.vb n tb)
      Completes (.tmop o) s o.form.len (popAll s.h [o.b]
        ++ ([.core s.c fun c => (c.setTile o.t k.1).setTst o.t fun t => { t with steps := t.steps + 1 }] ++ setFlags s k.2))))
  ∧ (∀ (s : State) (o : TRo), canIssue s .execute 0 [] [] (groupRegs o.a 8) →
    let d := (groupRegs o.a 8).map (getX s.me)
    (∀ t, runFault s o.t d = some t → Traps (.tmrun o) s o.form.len t)
    ∧ (runFault s o.t d = none → s.myCore.runs.length < 4 → Completes (.tmrun o) s o.form.len
      ((flushCommitted (Run.start s) s.cur).out ++ [.core s.c fun c =>
        { c with runs := c.runs ++ [TmRun.mk o.t d o.ca o.cb s.pFs c.alg s.myHart.mfcLt 0 s.h] }])))
  ∧ (∀ (s : State) (o : TDo), canIssue s .execute 0 [o.b] [.x o.e] [] →
    let r := (srcOf s [o.b] 0).toNat
    (256 ≤ r ∨ s.myCore.ext ≤ r → Traps (.tmrd o) s o.form.len { code := 33, val := BitVec.ofNat 64 o.t })
    ∧ (r < 256 → r < s.myCore.ext →
      let val := fun (k : Nat) => (tget 0 ((s.myCore.tile o.t).filter fun p => p.1 / 256 == r) (256 * r + k)).toNat
      let us := popAll s.h [o.b] ++ ([.hart s.h fun h => ((List.range 256).map fun k => (k, val k)).foldl (putElem o.v 32) h]
        ++ setD s.cur (.x o.e) (BitVec.ofNat 64 (s.myCore.tst' o.t).steps.toNat))
      Completes (.tmrd o) s o.form.len us
      ∧ (∀ k, k < 256 → regElem ((applyAll us s).hart s.h) o.v 32 k =
          val k)
      ∧ (o.e ≠ 0 → getX ((applyAll us s).strand s.cur) o.e = BitVec.ofNat 64 (s.myCore.tst' o.t).steps.toNat)))
  ∧ (∀ (s : State) (o : TWo), canIssue s .execute 0 [o.b] [] [] →
    let r := (srcOf s [o.b] 0).toNat
    (ownsTile s.myCore o.t = true → Traps (.tmwr o) s o.form.len { code := 36, val := BitVec.ofNat 64 o.t })
    ∧ (ownsTile s.myCore o.t = false → (256 ≤ r ∨ s.myCore.ext ≤ r) →
      Traps (.tmwr o) s o.form.len { code := 33, val := BitVec.ofNat 64 o.t })
    ∧ (ownsTile s.myCore o.t = false → r < 256 → r < s.myCore.ext → trises 0 (s.myCore.tile o.t) = true →
      let row := (List.range 256).filterMap fun k =>
        if regElem s.myHart o.v 32 k = 0 then none else some (256 * r + k, BitVec.ofNat 32 (regElem s.myHart o.v 32 k))
      let us := popAll s.h [o.b] ++ [.core s.c fun c => c.setTile o.t ((c.tile o.t).filter (fun p => decide (p.1 < 256 * r)) ++ row
        ++ (c.tile o.t).filter fun p => decide (256 * r + 256 ≤ p.1))]
      Completes (.tmwr o) s o.form.len us
      ∧ ∀ j, tget 0 (((applyAll us s).core s.c).tile o.t) j =
          if j / 256 = r then BitVec.ofNat 32 (regElem s.myHart o.v 32 (j % 256)) else tget 0 (s.myCore.tile o.t) j))
  ∧ (∀ (s : State) (o : TSo), canIssue s .execute 0 [] [o.d] [] →
    let q := s.myCore.tst' o.t
    Completes (.tmstat o) s o.form.len (writes s [] o.d (BitVec.ofNat 64 (tileStatus s.myCore o.t)))
    ∧ (ownsTile s.myCore o.t = true → exec (.tmwait o) s = .next (waitAt s s.cur false))
    ∧ (ownsTile s.myCore o.t = false → q.flt = true → exec (.tmwait o) s = .next (takeTrap (applyAll
        [.core s.c fun c => c.setTst o.t fun q => { q with flt := false, fl := 0 }] s) s.cur
        { code := 39, val := BitVec.ofNat 64 q.cause, elem := BitVec.ofNat 64 q.fstep.toNat } o.form.len))
    ∧ (ownsTile s.myCore o.t = false → q.flt = false → Completes (.tmwait o) s o.form.len
      ([.core s.c fun c => c.setTst o.t fun q => { q with fl := 0 }]
        ++ setD s.cur o.d (BitVec.ofNat 64 (tileStatus s.myCore o.t)) ++ setFlags s q.fl)))
  ∧ ∀ (s : State) (c t : Nat) (q : TmRun) (rest : List TmRun), s.dev.off = false → (s.core c).runs = q :: rest →
    q.tile = t →
    let p := partIx s q.hart
    let r := if (s.part p).halt.st = 0 then Run.start s else (Run.start s).add (countOps p (5760 + c / 4) 1)
    engineGoes s p (5760 + c / 4) 1 1 = true → Happens (.tmuKStep c t) s (runStep r c q).out

/-- The host's accesses, the link, held writes, walkers, the translator's ring and the resets act as 05, 09, 16, 22
and 24 say (R232, R229, R403, R404, R405, R124, R415, R337, R339, R414, R427). That a walk that meets a fault leaves
what it filled, the status of an invalidation, what a warm reset keeps, when host accesses reach memory, where the
decoder is placed, a record's values out of range, and the cases that Table 16.6 leaves open are the model's (log
entries 38, 37, 97, 98, 99, 126, 144 and 145). -/
def Obligations.HostTranslatorAndResetEvents : Prop :=
  (∀ s : State, s.dev.off = false →
    (∀ c blk b, (s.core c).wc.find? (fun b => b.pa == blk && decide (b.since + (s.core c).wcwait ≤ s.cycles c)) = some b →
      exec (.wcTimeout c blk) s = .next (applyAll (wcFlushBlock (Run.start s) c b).out s))
    ∧ (∀ h va, canonical va.toNat = true → ¬ (windowBase ≤ va.toNat ∧ va.toNat < 2 ^ 56) →
      (spaceOf s h).user = true → tlbFind s (spaceOf s h) va.toNat = none →
      (∀ e n r, fillTlb (Run.start s) (spaceOf s h) (va.toNat % 2 ^ 57) = .ok (e, n, r) →
        exec (.translationFill h va) s = .next (applyAll r.out s))
      ∧ ∀ t, fillTlb (Run.start s) (spaceOf s h) (va.toNat % 2 ^ 57) = .error t →
        exec (.translationFill h va) s = .next (applyAll t.2.out s))
    ∧ (∀ o : LinkOffer, o.width ∈ [16, 8, 4] → o.speed ∈ [64, 32] → o.flit256 = true →
      exec (.linkTraining o) s = .next (applyAll [.dev fun d =>
        { d with link := some ⟨o.width, o.speed, o.opts.filter supported, o.base⟩ }] s))
    ∧ (∀ o : LinkOffer, o.width ∉ [16, 8, 4] ∨ o.speed ∉ [64, 32] ∨ o.flit256 = false →
      exec (.linkTraining o) s = .next (applyAll [.dev fun d => { d with link := none }] s))
    ∧ (∀ l : Link, s.dev.link = some l →
      (∀ a n, 1 ≤ n → a % 64 + n ≤ 64 → a + n ≤ 2 ^ 40 →
        (shielded s (a / 4096) = false → exec (.hostRead (l.base + a) n) s = .next (applyAll
          [.dev fun d => { d with answer := some ((List.range n).map fun i => homeByte s none (a + i), false) }] s))
        ∧ (shielded s (a / 4096) = true → exec (.hostRead (l.base + a) n) s = .next (applyAll
          [.dev fun d => { d with hrej := d.hrej + 1 }, .dev fun d => { d with answer := some (List.replicate n 0, true) }] s)))
      ∧ (∀ a bs, bs ≠ [] → a % 64 + bs.length ≤ 64 → a + bs.length ≤ 2 ^ 40 →
        (shielded s (a / 4096) = false →
          exec (.hostWrite (l.base + a) bs) s = .next (applyAll ((putHome (Run.start s) none a bs).out ++ [wakeAll]) s))
        ∧ (shielded s (a / 4096) = true →
          exec (.hostWrite (l.base + a) bs) s = .next (applyAll [.dev fun d => { d with hrej := d.hrej + 1 }] s)))
      ∧ (∀ a bs, bs ≠ [] → a % 64 + bs.length ≤ 64 → 2 ^ 51 ≤ a → a + bs.length ≤ 2 ^ 52 →
        exec (.hostLineWrite a bs) s = .next (applyAll ((putHome (Run.start s) none a bs).out ++ [wakeAll]) s))
      ∧ ∃ t, exec .spdmMeasurementRequest s = .next t ∧ t.mem = s.mem ∧ t.dev.spdm.take 3 =
        [measReg firmwareDigest (s.dev.meas.getD 0 []), measReg translatorId (s.dev.meas.getD 1 []),
         measReg monitorDigest (s.dev.meas.getD 2 [])])
    ∧ ∀ p q, nextRequest s p = some q →
      (∀ us, dbl q.bytes 0 = 1 → serveModule s p q true = some us → exec (.xlateTranslate p) s = .next (applyAll us s))
      ∧ (∀ us, dbl q.bytes 0 = 2 → serveModule s p q false = some us → exec (.xlateLookup p) s = .next (applyAll us s))
      ∧ (∀ us, dbl q.bytes 0 = 3 →
        answer p q { key := requestKey q, status := 1, rsize := (s.dev.barn.filter fun e => e.key == requestKey q).length }
          (eraseBarn s q.run fun e => e.key == requestKey q).2 = some us → exec (.xlateInvalidateKey p) s = .next (applyAll us s))
      ∧ ∀ us, dbl q.bytes 0 = 4 →
        answer p q { key := requestKey q, status := 1, rsize := s.dev.barn.length } (eraseBarn s q.run fun _ => true).2 = some us →
        exec (.xlateInvalidateAll p) s = .next (applyAll us s))
  ∧ (∀ (s : State) (c : CfgRec), ∃ t, exec (.coldReset c) s = .next t ∧ t.strands = [] ∧ t.harts = [] ∧ t.cores = [] ∧ t.parts = []
    ∧ t.gangs = [] ∧ t.slots = [] ∧ t.lofts = [] ∧ t.cmds = [] ∧ t.dev.claims = [] ∧ t.dev.tags = [] ∧ t.dev.link = none
    ∧ ∀ a, a < 2 ^ 40 → tget 0 t.mem a = 0)
  ∧ ∀ (s : State) (c : CfgRec), s.dev.off = false → ∃ t, exec (.warmReset c) s = .next t ∧ t.strands = [] ∧ t.harts = []
    ∧ t.cores = [] ∧ t.parts = [] ∧ t.gangs = [] ∧ t.slots = [] ∧ t.lofts = [] ∧ t.cmds = [] ∧ t.dev.tags = [] ∧ t.dev.link = none
    ∧ (∀ a, a / 4096 ∈ taggedFrames s → tget 0 t.mem a = 0)
    ∧ (s.memOk → ∀ a, a / 4096 ∉ taggedFrames s → tget 0 t.mem a = tget 0 s.mem a)

/-- Episodes start, run, call, wait and end as chapter 21 says (R388, R390, R391, R393, R394, R395, R396, R398, R399,
R400). The crofts' instruction set, the copying of an image, which slot runs, a post that waits, where an ended
episode leaves the croft core, and which source an uncorrectable error has are the model's (log entries 35, 85, 86,
87, 88 and 127). -/
def Obligations.EpisodesAndCrofts : Prop :=
  ∀ s : State, s.dev.off = false →
    (∀ p k rest, (s.part p).stcmds = (1, k) :: rest →
      (slotOwned (s.part p) k = false → exec (.episodeStart p) s = .next (applyAll (refuseCommand p k 1) s))
      ∧ (slotOwned (s.part p) k = true → (s.slot k).active = true → exec (.episodeStart p) s = .next (applyAll (refuseCommand p k 2) s))
      ∧ (slotOwned (s.part p) k = true → (s.slot k).active = false →
        (∀ e r, readEpisode s p k = .error (.ok e, r) →
          exec (.episodeStart p) s = .next (applyAll (r.kept ++ refuseCommand p k e) s))
        ∧ (∀ t r, readEpisode s p k = .error (.error t, r) →
          exec (.episodeStart p) s = .next (applyAll (r.kept ++ steadingError s p k t) s))
        ∧ ∀ t r, readEpisode s p k = .ok (t, r) →
          exec (.episodeStart p) s = .next (applyAll (r.out ++ [takeCommand p, .slot k fun _ => t]) s)))
    ∧ (∀ p k rest, (s.part p).stcmds = (2, k) :: rest →
      (slotOwned (s.part p) k = false → exec (.episodeEndCommand p) s = .next (applyAll (refuseCommand p k 1) s))
      ∧ (slotOwned (s.part p) k = true → (s.slot k).active = false → exec (.episodeEndCommand p) s = .next (applyAll (refuseCommand p k 3) s))
      ∧ (slotOwned (s.part p) k = true → (s.slot k).active = true → exec (.episodeEndCommand p) s =
        .next (applyAll (takeCommand p :: takeBack s k ++ [.slot k fun t => postObs (obsRec 1 0 []) (endSlot 1 t)]) s)))
    ∧ ∀ k, let t := s.slot k
      (∀ b, t.state = 1 → imageBad s t = some b → exec (.imageCopyDone k) s = .next (applyAll
        (steadingError s t.part k (badData b (BitVec.ofNat 64 b) 0)) s))
      ∧ (t.state = 1 → imageBad s t = none → ∃ u, exec (.imageCopyDone k) s = .next u ∧ (u.slot k).state = 2 ∧ (u.slot k).cpu.pc = 0)
      ∧ (t.active = true → ∀ r rest, t.held = r :: rest → actFits t r = true →
        (t.admits r = true → exec (.actionRecordPlaced k) s = .next (applyAll
          [.slot k fun t => placeAct r { t with held := rest, ver := if t.fol then r.ver else t.ver }] s))
        ∧ (t.admits r = false → exec (.actionRecordPlaced k) s = .next (applyAll
          [.slot k fun t => postObs (obsRec 3 0 []) { t with held := rest }] s)))
      ∧ (∀ r rest, t.heldObs = r :: rest → t.call.isNext = false → r.cells ≤ t.room →
        exec (.observationRecordPlaced k) s = .next (applyAll
          [.slot k fun t => placeObs r { t with heldObs := rest, call := t.call.advance }] s))
      ∧ (t.state = 2 → expired s t = true → exec (.watchdogExpiry k) s = .next (applyAll
        (takeBack s k ++ [.slot k fun t => postObs (obsRec 2 0 []) (endSlot 2 t)]) s))
      ∧ (∀ off a rest, t.state = 2 → croftOn s k = true → expired s t = false → t.call = .take off → t.acts = a :: rest →
        ∃ u, exec (.takeCall k) s = .next u
          ∧ (u.slot k).acts = rest ∧ (u.slot k).call = .none
          ∧ (u.slot k).step = some (t.step.getD { instret := t.cpu.instret, since := s.ns })
          ∧ ∀ i, i < a.bytes.length → tget 0 (u.slot k).ram (off + i) = byteAt a.bytes i)
      ∧ (∀ off st ahead, t.state = 2 → croftOn s k = true → expired s t = false → t.call = .post off st ahead →
        (postFits t off st ahead = true →
          exec (.postCall k) s = .next (applyAll (postUpds s k st ++ [.slot k (placePost off st)]) s))
        ∧ (postFits t off st ahead = false → ahead = none → exec (.postCall k) s = .next (applyAll
          [.slot k fun t => { t with call := .post off st (some t.heldObs.length), runs := false }] s)))
      ∧ (mayRun s k = true → t.call = .stamp →
        exec (.stampCall k) s = .next (applyAll (returnUpds s k ++ [.slot k (retCall s.gtc)]) s))
      ∧ (mayRun s k = true → t.call = .none →
        let us := resumeUpds s k
        let v := applyAll us s
        let next := rvNext v (k / 16) (v.slot k)
        rvMeetsBad v (k / 16) (v.slot k) = none →
        (∀ c len, next = .call c len → ∃ u, exec (.croftUserInstruction k) s = .next u
            ∧ (u.slot k).call = c ∧ (u.slot k).cpu.pc = t.cpu.pc + BitVec.ofNat 64 len ∧ u.mem = s.mem)
          ∧ (∀ e, next = .eff e → e.store = none → ∃ u, exec (.croftUserInstruction k) s = .next u
            ∧ (u.slot k).cpu = rvApply e t.cpu ∧ (u.slot k).ram = t.ram ∧ u.mem = s.mem)
          ∧ (∀ e l bs, next = .eff e → e.store = some (l, bs) → ∃ u, exec (.croftUserInstruction k) s = .next u
            ∧ u = applyAll (us ++ effUpds k e v) s ∧ (u.slot k).cpu = rvApply e t.cpu)
          ∧ ∀ e vals cause val, next = .exc e → (cause.toNat, vals) ∈ e → val.toNat ∈ vals →
            exec (.croftFault k cause val) s = .next (applyAll (us ++ croftFault k cause.toNat val.toNat v) s))

/-- Decoding the encoding of a well-formed instruction gives it back (R56, R59, R60, R64, R65, 03 Table 3.7). -/
def Obligations.DecodeEncodeRoundTrip : Prop :=
  ∀ (i : Instr) (rest : List Nat), i.wf = true →
    (∀ w ∈ encode i, w < 2 ^ 32) ∧ 4 * (encode i).length = (formOf ((encode i).headD 0)).len
    ∧ decode (encode i ++ rest) = some i

/-- Every step keeps memory in canonical form (R225, 01 Memory). That memory is a list in this form is the model's
choice (log entry 7). -/
def Obligations.StepKeepsMemoryCanonical : Prop :=
  ∀ s t : State, s.memOk → step s = .next t → t.memOk

/-- The machine after reset holds the spec's reset values, and its memory is canonical and zero (R414, R147, R165,
R347, 06 Table 6.7, 07 Table 7.10, R232, R345). Register banks and queues are zero and empty by R414's zeroing of SRAM
and register banks; unwritten host memory reads zero by the model's choice (log entry 7). -/
def Obligations.ResetState : Prop :=
  State.reset.memOk ∧ (∀ a, State.reset.byte a = 0)
  ∧ State.reset.dev.claims = [] ∧ State.reset.dev.tags = [] ∧ State.reset.dev.kslot = [] ∧ State.reset.cmds = []
  ∧ State.reset.gangs = []
  ∧ (∀ n, let st := State.reset.strand n
      st.fpf = 0 ∧ st.fpm = 1 ∧ st.tvec = 0 ∧ st.tpc = 0 ∧ st.tcause = 0 ∧ st.tval = 0 ∧ st.pc = 0 ∧ ∀ r, getX st r = 0)
  ∧ (∀ n, let h := State.reset.hart n
      h.vl = 0 ∧ h.vt = 9 ∧ (∀ q, h.queue q = []) ∧ h.strip = [] ∧ h.pivreg = 0x3F800000 ∧ h.sbase = 0 ∧ h.seed = 0
      ∧ ∀ r, tget 0 h.v r = 0)
  ∧ (∀ n, let c := State.reset.core n
      c.rows = 0 ∧ c.slots = [] ∧ c.wcwait = 256 ∧ c.runs = [] ∧ c.pad = [] ∧ c.l1d = [] ∧ c.l1i = [])
  ∧ ∀ n, (State.reset.part n).cfg = 0 ∧ (State.reset.part n).halt.st = 0

/-- A step fetches, decodes and runs the instruction at the pc, and a MOD runs its pair (R57, R74, R56, R70, R363).
That a schedule says who moves, that the strand at hand moves when it is empty, how a program comes to run, the
loader's turn, and when late loads are performed are the model's choice (log entries 1 to 4, 10 and 125). -/
def Obligations.StepRunsDecoded : Prop :=
  (∀ (s : State), s.sched = [] → runnable { s with choice := {} } s.cur = true →
    let v : State := { s with choice := {} }
    let f := fetchInstr (Run.start v) v.h v.me.pc
    let u : State := { v with dev := f.2.s.dev }
    (∀ va, f.1 = .error va → ∀ t, exec (.fetchFault va) u = .next t → (t.strand s.cur).pfx = none → step s = .next t)
    ∧ ∀ ws, f.1 = .ok ws →
      (decode ws = none → ∀ t, exec .illegalInstruction (settle .illegalInstruction u) = .next t → (t.strand s.cur).pfx = none → step s = .next t)
      ∧ ∀ i, decode ws = some i →
        let w := settle (resolve u i) u
        (∀ t, exec (resolve u i) w = .next t → ((u.strand s.cur).pfx.isSome = true ∨ (t.strand s.cur).pfx = none) →
          step s = .next t)
        ∧ (∀ t, exec (resolve u i) w = .next t → (u.strand s.cur).pfx = none → (t.strand s.cur).pfx.isSome = true →
          step s = execFetched (fetchNext t).1 (fetchNext t).2)
        ∧ (∀ e, exec (resolve u i) w = .fault e → step s = .fault e)
        ∧ ((s.hart s.h).loadsDone = true → w = u)
        ∧ ((∀ o, i ≠ .rlsetWriteEntry o) → resolve u i = i))
  ∧ (∀ s : State, s.sched = [] → runnable { s with choice := {} } s.cur = false → step s = .next { s with choice := {} })
  ∧ ∀ (s : State) (t : SchedSlot) (rest : List SchedSlot), s.sched = t :: rest →
    let u : State := { s with sched := rest, ns := s.ns + t.ns, choice := t.choice }
    (∀ n, t.turn = .strand n → runnable u n = true → step s = execNext { u with cur := n })
    ∧ (∀ n, t.turn = .strand n → runnable u n = false → step s = .next { u with cur := n })
    ∧ (∀ i, t.turn = .event i → isEvent i = true → step s = exec i u)
    ∧ (∀ c, t.turn = .core c → slotStrands u c = [] → step s = .next u)
    ∧ (∀ c n ns v, t.turn = .core c → slotStrands u c = n :: ns → stepStrand u n = .next v →
      step s = if onlyWaits u v n then stepSlot ns v else .next (applyAll [.hart (n / 2) fun h => { h with last := n % 2 }] v))
    ∧ (∀ h k, t.turn = .land h k → coreOn u (h / 4) = true → step s = landLate h k u)
    ∧ (∀ h k, t.turn = .landScalar h k → step s = landScalar h k u)
    ∧ ∀ p ent obj len text, t.turn = .load p ent obj len text → step s = loadTurn p ent obj len text u

/-- Words written out in the spec decode to the statements beside them (04 Table 4.5, 18 Table 18.2, 03 Table 3.9, 12,
R65). -/
def Obligations.SpecWordsDecode : Prop :=
  decode [0x01208730] = some (.ldw ⟨.base, .x 7, .x 2, 2⟩)
  ∧ decode [0xFF081A18] = some (.blt ⟨.base, .x 3, .x 4, -2⟩)
  ∧ decode [0xFFFFB62C] = some (.brqNz ⟨.base, 6, -5⟩)
  ∧ decode [0x00B28124] = some (.jtab ⟨.base, .x 1, .x 10, .x 11⟩)
  ∧ decode [0x00031028] = some (.loop ⟨.base, 0, .x 4, 3⟩)
  ∧ decode [0x00004020] = some (.jr ⟨.base, .x 0, .x 1, 0⟩)
  ∧ decode [0x00718504] = some (.add ⟨.base, .x 5, .x 6, .x 7⟩)
  ∧ decode [0x00000406, 0x000001C0, 0] = some (.add ⟨.ext, .q 4, .q 0, .q 0⟩)
  ∧ decode [0x0000030D, 0x56789ABC, 0x00001234] = some (.li ⟨.lit, .x 3, 0x123456789ABC⟩)
  ∧ decode [0x6A000C0A, 0x00180000, 0] = some (.addi ⟨.ext, .x 12, .x 0, 100000⟩)
  ∧ decode [0x00002958] = some (.mod ⟨1, 1, true⟩)
  ∧ decode [0x412205A0] = some (.vfadd ⟨.base, .mk 2, 1, 2, .s (.x 9)⟩)
  ∧ decode [0x080186B0] = some (.vfcmp ⟨.base, .none, .gt, 1, 1, .i 0⟩)
  ∧ decode [0x0C078564] = some (.gath ⟨5, 30⟩)
  ∧ decode [0x301400DC] = some (.tmrun ⟨.base, 0, 40, false, false⟩)
  ∧ decode [0x00011A44] = some (.fence ⟨.base, .dev, false, true, false, true, true⟩)
  ∧ decode [0x00011A46, 0, 0] = some (.fence ⟨.ext, .dev, false, true, false, true, true⟩)
  ∧ decode [0x04000048] = some (.eret .base) ∧ decode [0x0000C01C] = some (.j ⟨.base, 3⟩)
end

