-- ==== Sys2Proof/Laws/Compress.lean ====
section
/-! SUPPORT. Sys2Proof/Laws/Compress.lean: a block of a compressed frame comes back from its stored form (09 R231). -/

namespace Sys2Proof.Machine

theorem wordsOf_flatten : ∀ (n : Nat) (b : List Byte), b.length = 4 * n → (wordsOf n b).flatten = b
  | 0, b, h => by simp [wordsOf]; exact List.length_eq_zero_iff.mp (by omega)
  | n + 1, b, h => by
    simp only [wordsOf, List.flatten_cons]
    rw [wordsOf_flatten n (b.drop 4) (by simp; omega), List.take_append_drop]

theorem wordsOf_length4 : ∀ (n : Nat) (b : List Byte), b.length = 4 * n → ∀ w ∈ wordsOf n b, w.length = 4
  | 0, b, h, w, hw => by simp [wordsOf] at hw
  | n + 1, b, h, w, hw => by
    simp only [wordsOf, List.mem_cons] at hw
    rcases hw with rfl | hw
    · simp; omega
    · exact wordsOf_length4 n _ (by simp; omega) w hw

theorem wordsOf_count : ∀ (n : Nat) (b : List Byte), (wordsOf n b).length = n
  | 0, _ => rfl
  | n + 1, b => by simp [wordsOf, wordsOf_count n]

theorem zero_word {w : List Byte} (h : nonzeroWord w = false) (hl : w.length = 4) : w = [0, 0, 0, 0] := by
  match w, hl with
  | [a, b, c, d], _ => simpa [nonzeroWord] using h

/-- Expanding what the mask and the nonzero words say gives the words back, whatever follows. -/
theorem expandWords_mask : ∀ (ws : List (List Byte)) (pad : List Byte), (∀ w ∈ ws, w.length = 4) →
    expandWords ws.length (maskOf ws) ((ws.filter nonzeroWord).flatten ++ pad) = ws.flatten
  | [], _, _ => rfl
  | w :: ws, pad, h => by
    have hw := h w (by simp)
    have ih := expandWords_mask ws pad fun x hx => h x (by simp [hx])
    cases hz : nonzeroWord w
    · have hm : maskOf (w :: ws) = 2 * maskOf ws := by simp [maskOf, hz]
      simp only [List.length_cons, expandWords, hm]
      rw [if_neg (by omega), Nat.mul_div_cancel_left _ (by decide), List.filter_cons_of_neg (by simp [hz]), ih,
        zero_word hz hw]
      rfl
    · have hm : maskOf (w :: ws) = 1 + 2 * maskOf ws := by simp [maskOf, hz]
      simp only [List.length_cons, expandWords, hm]
      rw [if_pos (by omega), show (1 + 2 * maskOf ws) / 2 = maskOf ws by omega, List.filter_cons_of_pos (by simp [hz])]
      simp only [List.flatten_cons, List.append_assoc]
      rw [← hw, List.take_left, List.drop_left, ih]

theorem maskOf_lt : ∀ ws : List (List Byte), maskOf ws < 2 ^ ws.length
  | [] => by simp [maskOf]
  | w :: ws => by
    have := maskOf_lt ws
    simp only [maskOf, List.length_cons, Nat.pow_succ]
    have : (nonzeroWord w).toNat ≤ 1 := Bool.toNat_le _
    omega


theorem ofLe_leBytes : ∀ n v : Nat, v < 256 ^ n → ofLe (leBytes n v) = v
  | 0, v, h => by simp [leBytes, ofLe]; simp at h; omega
  | n + 1, v, h => by
    have hs : leBytes (n + 1) v = BitVec.ofNat 8 v :: leBytes n (v / 256) := by
      simp only [leBytes, List.range_succ_eq_map, List.map_cons, List.map_map]
      congr 1
      · simp
      · apply List.map_congr_left
        intro i _
        simp [Function.comp, Nat.pow_succ, Nat.div_div_eq_div_mul, Nat.mul_comm]
    have hv : v / 256 < 256 ^ n := by
      rw [Nat.div_lt_iff_lt_mul (by decide)]; rw [Nat.pow_succ] at h; exact h
    rw [hs, ofLe, ofLe_leBytes n _ hv]
    simp; omega

/-- R231: exactly the blocks of 55 nonzero words and more are raw. -/
theorem rawFlag_iff (b : List Byte) : rawFlag b = true ↔ 55 ≤ nonzeroWords b := by
  unfold rawFlag sectorsFor
  rw [decide_eq_true_iff]
  omega

theorem flatten_length4 : ∀ ws : List (List Byte), (∀ w ∈ ws, w.length = 4) →
    ((ws.filter nonzeroWord).flatten).length = 4 * ws.countP nonzeroWord
  | [], _ => rfl
  | w :: ws, h => by
    have ih := flatten_length4 ws fun x hx => h x (by simp [hx])
    have hw := h w (by simp)
    cases hz : nonzeroWord w
    · simp [hz, ih]
    · simp only [List.filter_cons_of_pos hz, List.flatten_cons, List.length_append, hw, ih, List.countP_cons_of_pos hz]; omega

/-- R231: a block's stored form fits in the block's own place. -/
theorem storeBlock_fits (b : List Byte) (h : b.length = 256) : (storeBlock b).2.length ≤ 256 := by
  unfold storeBlock
  cases hr : rawFlag b
  · have hp : nonzeroWords b < 55 := by
      have := rawFlag_iff b; rw [hr] at this; simpa using this
    have hl := flatten_length4 (wordsOf 64 b) (wordsOf_length4 64 b (by omega))
    simp only [Bool.false_eq_true, if_false, compressBlock, List.length_append, List.length_replicate, hl,
      show (leBytes 8 (maskOf (wordsOf 64 b))).length = 8 by simp [leBytes]]
    change 8 + 4 * nonzeroWords b + (32 * sectorsFor (nonzeroWords b) - (8 + 4 * nonzeroWords b)) ≤ 256
    simp only [sectorsFor]; omega
  · simp [h]

/-- R231: a block comes back from its stored form. -/
theorem fetch_storeBlock (b : List Byte) (h : b.length = 256) : fetchBlock (storeBlock b) = b := by
  unfold storeBlock fetchBlock
  cases hr : rawFlag b
  · simp only [Bool.false_eq_true, if_false]
    have hl := wordsOf_length4 64 b (by omega)
    have hc := wordsOf_count 64 b
    have hm := maskOf_lt (wordsOf 64 b)
    have h8 : (leBytes 8 (maskOf (wordsOf 64 b))).length = 8 := by simp [leBytes]
    unfold expandBlock compressBlock
    simp only [List.append_assoc]
    rw [List.take_left' h8, List.drop_left' h8, ofLe_leBytes 8 _ (by rw [hc] at hm; exact hm)]
    have := expandWords_mask (wordsOf 64 b) (List.replicate (32 * sectorsFor (nonzeroWords b)
      - (leBytes 8 (maskOf (wordsOf 64 b)) ++ ((wordsOf 64 b).filter nonzeroWord).flatten).length) 0) hl
    rw [hc, wordsOf_flatten 64 b (by omega)] at this
    exact this
  · simp

end Sys2Proof.Machine
end

