-- ==== Sys2Proof/Laws/Tab.lean ====
section
/-! SUPPORT. Sys2Proof/Laws/Tab.lean: sparse tables: a read after a write, and the canonical form. -/

namespace Sys2Proof.Machine

variable {α : Type}

@[simp] theorem tget_nil (d : α) (n : Nat) : tget d [] n = d := rfl

/-- A read of the number just stored. -/
@[simp] theorem tget_tput_same (d : α) (t : Tab α) (n : Nat) (v : α) : tget d (tput t n v) n = v := by
  induction t with
  | nil => simp [tput, tget]
  | cons p t ih =>
    obtain ⟨k, w⟩ := p
    simp only [tput]
    split
    · simp [tget]
    · split
      · simp [tget]
      · rename_i h1 h2; simp [tget, h1, h2, ih]

/-- A store leaves every other number alone. -/
theorem tget_tput_ne (d : α) (t : Tab α) {n m : Nat} (v : α) (h : m ≠ n) : tget d (tput t n v) m = tget d t m := by
  induction t with
  | nil => simp only [tput, tget, h, if_false]; split <;> rfl
  | cons p t ih =>
    obtain ⟨k, w⟩ := p
    simp only [tput]
    split
    · rename_i h1
      simp only [tget, h, if_false]
      split
      · rename_i h2
        rw [if_neg (by omega), if_pos (by omega)]
      · rfl
    · split
      · rename_i h1 h2
        subst h2
        simp [tget, h]
      · simp only [tget, ih]

variable [DecidableEq α]

omit [DecidableEq α] in
/-- Reading above the numbers that `tdrop` removes. -/
theorem tget_tdrop_gt (d : α) (t : Tab α) {n m : Nat} (h : n < m) : tget d (tdrop t n) m = tget d t m := by
  induction t with
  | nil => rfl
  | cons p t ih =>
    obtain ⟨k, w⟩ := p
    unfold tdrop at ih ⊢
    simp only [List.dropWhile_cons, decide_eq_true_eq]
    split
    · rw [ih]; simp only [tget]; rw [if_neg (by omega), if_neg (by omega)]
    · rfl

omit [DecidableEq α] in
/-- Reading at or below the numbers that `tdrop` removes. -/
theorem tget_tdrop_le (d : α) (t : Tab α) {n m : Nat} (h : m ≤ n) : tget d (tdrop t n) m = d := by
  induction t with
  | nil => rfl
  | cons p t ih =>
    obtain ⟨k, w⟩ := p
    unfold tdrop at ih ⊢
    simp only [List.dropWhile_cons, decide_eq_true_eq]
    split
    · exact ih
    · simp only [tget]; rw [if_neg (by omega), if_pos (by omega)]

/-- A read of the number just stored in canonical form. -/
@[simp] theorem tget_tset_same (d : α) (t : Tab α) (n : Nat) (v : α) : tget d (tset d t n v) n = v := by
  induction t with
  | nil => simp only [tset]; split <;> simp_all [tget]
  | cons p t ih =>
    obtain ⟨k, w⟩ := p
    simp only [tset]
    split
    · rename_i h1
      split
      · rename_i h2; simp only [tget]; rw [if_neg (by omega), if_pos h1, h2]
      · simp [tget]
    · split
      · rename_i h1 h2
        split
        · rename_i h3; rw [tget_tdrop_le d t (Nat.le_refl n), h3]
        · simp [tget]
      · rename_i h1 h2; simp [tget, h1, h2, ih]

/-- A store in canonical form leaves every other number alone. -/
theorem tget_tset_ne (d : α) (t : Tab α) {n m : Nat} (v : α) (h : m ≠ n) : tget d (tset d t n v) m = tget d t m := by
  induction t with
  | nil =>
    simp only [tset]
    split
    · rfl
    · simp only [tget, h, if_false]; split <;> rfl
  | cons p t ih =>
    obtain ⟨k, w⟩ := p
    simp only [tset]
    split
    · rename_i h1
      split
      · rfl
      · simp only [tget, h, if_false]
        split
        · rw [if_neg (by omega), if_pos (by omega)]
        · rfl
    · split
      · rename_i h1 h2
        subst h2
        rcases Nat.lt_or_gt_of_ne h with hlt | hgt
        · split
          · rw [tget_tdrop_le d t (by omega)]; simp [tget, h, hlt]
          · simp [tget, h, hlt]
        · have hn : ¬ m < n := by omega
          split
          · rw [tget_tdrop_gt d t hgt]; simp [tget, h, hn]
          · simp [tget, h, hn, tget_tdrop_gt d t hgt]
      · simp only [tget, ih]

/-! ### The canonical form -/

/-- The canonical form from a lower bound on: rising numbers and no default entry. -/
theorem tcanon_iff (d : α) (t : Tab α) : tcanon d t = true ↔ trises 0 t = true ∧ ∀ p ∈ t, p.2 ≠ d := by
  simp [tcanon, List.all_eq_true]

omit [DecidableEq α] in
theorem trises_mono {lo lo' : Nat} (t : Tab α) (h : lo ≤ lo') (ht : trises lo' t = true) : trises lo t = true := by
  cases t with
  | nil => rfl
  | cons p t =>
    simp only [trises, Bool.and_eq_true, decide_eq_true_eq] at ht ⊢
    exact ⟨by omega, ht.2⟩

omit [DecidableEq α] in
/-- What is left of a rising table above n rises from n + 1. -/
theorem trises_tdrop {lo n : Nat} (t : Tab α) (ht : trises lo t = true) : trises (n + 1) (tdrop t n) = true := by
  induction t generalizing lo with
  | nil => rfl
  | cons p t ih =>
    obtain ⟨k, w⟩ := p
    simp only [trises, Bool.and_eq_true, decide_eq_true_eq] at ht
    unfold tdrop at ih ⊢
    simp only [List.dropWhile_cons, decide_eq_true_eq]
    split
    · exact ih ht.2
    · simp only [trises, Bool.and_eq_true, decide_eq_true_eq]; exact ⟨by omega, ht.2⟩

omit [DecidableEq α] in
theorem mem_tdrop {t : Tab α} {n : Nat} {p : Nat × α} (h : p ∈ tdrop t n) : p ∈ t :=
  (List.dropWhile_suffix _).subset h

theorem trises_tset (d : α) {lo n : Nat} (t : Tab α) (v : α) (hn : lo ≤ n) (ht : trises lo t = true) :
    trises lo (tset d t n v) = true := by
  induction t generalizing lo with
  | nil => simp only [tset]; split <;> simp [trises, hn]
  | cons p t ih =>
    obtain ⟨k, w⟩ := p
    have h0 := ht
    simp only [trises, Bool.and_eq_true, decide_eq_true_eq] at ht
    simp only [tset]
    split
    · rename_i h1
      split
      · exact h0
      · simp only [trises, Bool.and_eq_true, decide_eq_true_eq]; exact ⟨hn, by omega, ht.2⟩
    · split
      · rename_i h1 h2
        have h3 : trises (n + 1) (tdrop t n) = true := trises_tdrop t ht.2
        split
        · exact trises_mono _ (by omega) h3
        · simp only [trises, Bool.and_eq_true, decide_eq_true_eq]; exact ⟨hn, h3⟩
      · simp only [trises, Bool.and_eq_true, decide_eq_true_eq]; exact ⟨ht.1, ih (by omega) ht.2⟩

theorem mem_tset (d : α) {n : Nat} {t : Tab α} {v : α} {p : Nat × α} (h : p ∈ tset d t n v) :
    p ∈ t ∨ (p = (n, v) ∧ v ≠ d) := by
  induction t with
  | nil =>
    simp only [tset] at h
    split at h
    · simp at h
    · rename_i hv; right; simpa using ⟨List.mem_singleton.mp h, hv⟩
  | cons q t ih =>
    obtain ⟨k, w⟩ := q
    simp only [tset] at h
    split at h
    · split at h
      · exact .inl h
      · rename_i hv
        rcases List.mem_cons.mp h with h | h
        · exact .inr ⟨h, hv⟩
        · exact .inl h
    · split at h
      · split at h
        · exact .inl (List.mem_cons_of_mem _ (mem_tdrop h))
        · rename_i hv
          rcases List.mem_cons.mp h with h | h
          · exact .inr ⟨h, hv⟩
          · exact .inl (List.mem_cons_of_mem _ (mem_tdrop h))
      · rcases List.mem_cons.mp h with h | h
        · exact .inl (h ▸ List.mem_cons_self)
        · rcases ih h with h | h
          · exact .inl (List.mem_cons_of_mem _ h)
          · exact .inr h

/-- A store keeps the canonical form. -/
theorem tcanon_tset (d : α) {t : Tab α} (n : Nat) (v : α) (h : tcanon d t = true) : tcanon d (tset d t n v) = true := by
  rw [tcanon_iff] at h ⊢
  refine ⟨trises_tset d t v (Nat.zero_le n) h.1, fun p hp => ?_⟩
  rcases mem_tset d hp with hp | ⟨rfl, hv⟩
  · exact h.2 p hp
  · exact hv

omit [DecidableEq α] in
theorem trises_filter {lo : Nat} (f : Nat × α → Bool) (t : Tab α) (h : trises lo t = true) :
    trises lo (t.filter f) = true := by
  induction t generalizing lo with
  | nil => rfl
  | cons p t ih =>
    obtain ⟨k, w⟩ := p
    simp only [trises, Bool.and_eq_true, decide_eq_true_eq] at h
    simp only [List.filter_cons]
    split
    · simp only [trises, Bool.and_eq_true, decide_eq_true_eq]; exact ⟨h.1, ih h.2⟩
    · exact trises_mono _ (by omega) (ih h.2)

/-- Clearing a range keeps the canonical form. -/
theorem tcanon_tclear (d : α) {t : Tab α} (lo hi : Nat) (h : tcanon d t = true) : tcanon d (tclear t lo hi) = true := by
  rw [tcanon_iff] at h ⊢
  exact ⟨trises_filter _ t h.1, fun p hp => h.2 p (List.mem_filter.mp hp).1⟩

end Sys2Proof.Machine
end

