-- ==== Sys2Proof/Laws/State.lean ====
section
/-! SUPPORT. Sys2Proof/Laws/State.lean: what each update of a state does to each field, and reading back. -/

namespace Sys2Proof.Machine

/-! ### One lemma per field per update -/

variable (s : State)

@[simp] theorem app_mem_mem (pa : Nat) (bs : List Byte) : ((Upd.mem pa bs).app s).mem = writeBytes s.mem pa bs := rfl
@[simp] theorem app_mem_strands (pa : Nat) (bs : List Byte) : ((Upd.mem pa bs).app s).strands = s.strands := rfl
@[simp] theorem app_mem_harts (pa : Nat) (bs : List Byte) : ((Upd.mem pa bs).app s).harts = s.harts := rfl
@[simp] theorem app_mem_cores (pa : Nat) (bs : List Byte) : ((Upd.mem pa bs).app s).cores = s.cores := rfl
@[simp] theorem app_mem_lofts (pa : Nat) (bs : List Byte) : ((Upd.mem pa bs).app s).lofts = s.lofts := rfl
@[simp] theorem app_mem_gangs (pa : Nat) (bs : List Byte) : ((Upd.mem pa bs).app s).gangs = s.gangs := rfl
@[simp] theorem app_mem_parts (pa : Nat) (bs : List Byte) : ((Upd.mem pa bs).app s).parts = s.parts := rfl
@[simp] theorem app_mem_dev (pa : Nat) (bs : List Byte) : ((Upd.mem pa bs).app s).dev = s.dev := rfl
@[simp] theorem app_mem_slots (pa : Nat) (bs : List Byte) : ((Upd.mem pa bs).app s).slots = s.slots := rfl
@[simp] theorem app_mem_cmds (pa : Nat) (bs : List Byte) : ((Upd.mem pa bs).app s).cmds = s.cmds := rfl
@[simp] theorem app_mem_nextCmd (pa : Nat) (bs : List Byte) : ((Upd.mem pa bs).app s).nextCmd = s.nextCmd := rfl
@[simp] theorem app_mem_nextGang (pa : Nat) (bs : List Byte) : ((Upd.mem pa bs).app s).nextGang = s.nextGang := rfl
@[simp] theorem app_mem_ns (pa : Nat) (bs : List Byte) : ((Upd.mem pa bs).app s).ns = s.ns := rfl
@[simp] theorem app_mem_bad (pa : Nat) (bs : List Byte) : ((Upd.mem pa bs).app s).bad = s.bad := rfl
@[simp] theorem app_mem_sched (pa : Nat) (bs : List Byte) : ((Upd.mem pa bs).app s).sched = s.sched := rfl
@[simp] theorem app_mem_choice (pa : Nat) (bs : List Byte) : ((Upd.mem pa bs).app s).choice = s.choice := rfl
@[simp] theorem app_mem_cur (pa : Nat) (bs : List Byte) : ((Upd.mem pa bs).app s).cur = s.cur := rfl
@[simp] theorem app_mem_free (pa : Nat) (bs : List Byte) : ((Upd.mem pa bs).app s).free = s.free := rfl

@[simp] theorem app_zero_mem (lo hi : Nat) : ((Upd.zero lo hi).app s).mem = tclear s.mem lo hi := rfl
@[simp] theorem app_zero_strands (lo hi : Nat) : ((Upd.zero lo hi).app s).strands = s.strands := rfl
@[simp] theorem app_zero_harts (lo hi : Nat) : ((Upd.zero lo hi).app s).harts = s.harts := rfl
@[simp] theorem app_zero_cores (lo hi : Nat) : ((Upd.zero lo hi).app s).cores = s.cores := rfl
@[simp] theorem app_zero_lofts (lo hi : Nat) : ((Upd.zero lo hi).app s).lofts = s.lofts := rfl
@[simp] theorem app_zero_gangs (lo hi : Nat) : ((Upd.zero lo hi).app s).gangs = s.gangs := rfl
@[simp] theorem app_zero_parts (lo hi : Nat) : ((Upd.zero lo hi).app s).parts = s.parts := rfl
@[simp] theorem app_zero_dev (lo hi : Nat) : ((Upd.zero lo hi).app s).dev = s.dev := rfl
@[simp] theorem app_zero_slots (lo hi : Nat) : ((Upd.zero lo hi).app s).slots = s.slots := rfl
@[simp] theorem app_zero_cmds (lo hi : Nat) : ((Upd.zero lo hi).app s).cmds = s.cmds := rfl
@[simp] theorem app_zero_nextCmd (lo hi : Nat) : ((Upd.zero lo hi).app s).nextCmd = s.nextCmd := rfl
@[simp] theorem app_zero_nextGang (lo hi : Nat) : ((Upd.zero lo hi).app s).nextGang = s.nextGang := rfl
@[simp] theorem app_zero_ns (lo hi : Nat) : ((Upd.zero lo hi).app s).ns = s.ns := rfl
@[simp] theorem app_zero_bad (lo hi : Nat) : ((Upd.zero lo hi).app s).bad = s.bad := rfl
@[simp] theorem app_zero_sched (lo hi : Nat) : ((Upd.zero lo hi).app s).sched = s.sched := rfl
@[simp] theorem app_zero_choice (lo hi : Nat) : ((Upd.zero lo hi).app s).choice = s.choice := rfl
@[simp] theorem app_zero_cur (lo hi : Nat) : ((Upd.zero lo hi).app s).cur = s.cur := rfl
@[simp] theorem app_zero_free (lo hi : Nat) : ((Upd.zero lo hi).app s).free = s.free := rfl

@[simp] theorem app_strand_mem (n : Nat) (f : Strand → Strand) : ((Upd.strand n f).app s).mem = s.mem := rfl
@[simp] theorem app_strand_strands (n : Nat) (f : Strand → Strand) : ((Upd.strand n f).app s).strands = tput s.strands n (f (s.strand n)) := rfl
@[simp] theorem app_strand_harts (n : Nat) (f : Strand → Strand) : ((Upd.strand n f).app s).harts = s.harts := rfl
@[simp] theorem app_strand_cores (n : Nat) (f : Strand → Strand) : ((Upd.strand n f).app s).cores = s.cores := rfl
@[simp] theorem app_strand_lofts (n : Nat) (f : Strand → Strand) : ((Upd.strand n f).app s).lofts = s.lofts := rfl
@[simp] theorem app_strand_gangs (n : Nat) (f : Strand → Strand) : ((Upd.strand n f).app s).gangs = s.gangs := rfl
@[simp] theorem app_strand_parts (n : Nat) (f : Strand → Strand) : ((Upd.strand n f).app s).parts = s.parts := rfl
@[simp] theorem app_strand_dev (n : Nat) (f : Strand → Strand) : ((Upd.strand n f).app s).dev = s.dev := rfl
@[simp] theorem app_strand_slots (n : Nat) (f : Strand → Strand) : ((Upd.strand n f).app s).slots = s.slots := rfl
@[simp] theorem app_strand_cmds (n : Nat) (f : Strand → Strand) : ((Upd.strand n f).app s).cmds = s.cmds := rfl
@[simp] theorem app_strand_nextCmd (n : Nat) (f : Strand → Strand) : ((Upd.strand n f).app s).nextCmd = s.nextCmd := rfl
@[simp] theorem app_strand_nextGang (n : Nat) (f : Strand → Strand) : ((Upd.strand n f).app s).nextGang = s.nextGang := rfl
@[simp] theorem app_strand_ns (n : Nat) (f : Strand → Strand) : ((Upd.strand n f).app s).ns = s.ns := rfl
@[simp] theorem app_strand_bad (n : Nat) (f : Strand → Strand) : ((Upd.strand n f).app s).bad = s.bad := rfl
@[simp] theorem app_strand_sched (n : Nat) (f : Strand → Strand) : ((Upd.strand n f).app s).sched = s.sched := rfl
@[simp] theorem app_strand_choice (n : Nat) (f : Strand → Strand) : ((Upd.strand n f).app s).choice = s.choice := rfl
@[simp] theorem app_strand_cur (n : Nat) (f : Strand → Strand) : ((Upd.strand n f).app s).cur = s.cur := rfl
@[simp] theorem app_strand_free (n : Nat) (f : Strand → Strand) : ((Upd.strand n f).app s).free = s.free := rfl

@[simp] theorem app_hart_mem (n : Nat) (f : Hart → Hart) : ((Upd.hart n f).app s).mem = s.mem := rfl
@[simp] theorem app_hart_strands (n : Nat) (f : Hart → Hart) : ((Upd.hart n f).app s).strands = s.strands := rfl
@[simp] theorem app_hart_harts (n : Nat) (f : Hart → Hart) : ((Upd.hart n f).app s).harts = tput s.harts n (f (s.hart n)) := rfl
@[simp] theorem app_hart_cores (n : Nat) (f : Hart → Hart) : ((Upd.hart n f).app s).cores = s.cores := rfl
@[simp] theorem app_hart_lofts (n : Nat) (f : Hart → Hart) : ((Upd.hart n f).app s).lofts = s.lofts := rfl
@[simp] theorem app_hart_gangs (n : Nat) (f : Hart → Hart) : ((Upd.hart n f).app s).gangs = s.gangs := rfl
@[simp] theorem app_hart_parts (n : Nat) (f : Hart → Hart) : ((Upd.hart n f).app s).parts = s.parts := rfl
@[simp] theorem app_hart_dev (n : Nat) (f : Hart → Hart) : ((Upd.hart n f).app s).dev = s.dev := rfl
@[simp] theorem app_hart_slots (n : Nat) (f : Hart → Hart) : ((Upd.hart n f).app s).slots = s.slots := rfl
@[simp] theorem app_hart_cmds (n : Nat) (f : Hart → Hart) : ((Upd.hart n f).app s).cmds = s.cmds := rfl
@[simp] theorem app_hart_nextCmd (n : Nat) (f : Hart → Hart) : ((Upd.hart n f).app s).nextCmd = s.nextCmd := rfl
@[simp] theorem app_hart_nextGang (n : Nat) (f : Hart → Hart) : ((Upd.hart n f).app s).nextGang = s.nextGang := rfl
@[simp] theorem app_hart_ns (n : Nat) (f : Hart → Hart) : ((Upd.hart n f).app s).ns = s.ns := rfl
@[simp] theorem app_hart_bad (n : Nat) (f : Hart → Hart) : ((Upd.hart n f).app s).bad = s.bad := rfl
@[simp] theorem app_hart_sched (n : Nat) (f : Hart → Hart) : ((Upd.hart n f).app s).sched = s.sched := rfl
@[simp] theorem app_hart_choice (n : Nat) (f : Hart → Hart) : ((Upd.hart n f).app s).choice = s.choice := rfl
@[simp] theorem app_hart_cur (n : Nat) (f : Hart → Hart) : ((Upd.hart n f).app s).cur = s.cur := rfl
@[simp] theorem app_hart_free (n : Nat) (f : Hart → Hart) : ((Upd.hart n f).app s).free = s.free := rfl

@[simp] theorem app_core_mem (n : Nat) (f : Core → Core) : ((Upd.core n f).app s).mem = s.mem := rfl
@[simp] theorem app_core_strands (n : Nat) (f : Core → Core) : ((Upd.core n f).app s).strands = s.strands := rfl
@[simp] theorem app_core_harts (n : Nat) (f : Core → Core) : ((Upd.core n f).app s).harts = s.harts := rfl
@[simp] theorem app_core_cores (n : Nat) (f : Core → Core) : ((Upd.core n f).app s).cores = tput s.cores n (f (s.core n)) := rfl
@[simp] theorem app_core_lofts (n : Nat) (f : Core → Core) : ((Upd.core n f).app s).lofts = s.lofts := rfl
@[simp] theorem app_core_gangs (n : Nat) (f : Core → Core) : ((Upd.core n f).app s).gangs = s.gangs := rfl
@[simp] theorem app_core_parts (n : Nat) (f : Core → Core) : ((Upd.core n f).app s).parts = s.parts := rfl
@[simp] theorem app_core_dev (n : Nat) (f : Core → Core) : ((Upd.core n f).app s).dev = s.dev := rfl
@[simp] theorem app_core_slots (n : Nat) (f : Core → Core) : ((Upd.core n f).app s).slots = s.slots := rfl
@[simp] theorem app_core_cmds (n : Nat) (f : Core → Core) : ((Upd.core n f).app s).cmds = s.cmds := rfl
@[simp] theorem app_core_nextCmd (n : Nat) (f : Core → Core) : ((Upd.core n f).app s).nextCmd = s.nextCmd := rfl
@[simp] theorem app_core_nextGang (n : Nat) (f : Core → Core) : ((Upd.core n f).app s).nextGang = s.nextGang := rfl
@[simp] theorem app_core_ns (n : Nat) (f : Core → Core) : ((Upd.core n f).app s).ns = s.ns := rfl
@[simp] theorem app_core_bad (n : Nat) (f : Core → Core) : ((Upd.core n f).app s).bad = s.bad := rfl
@[simp] theorem app_core_sched (n : Nat) (f : Core → Core) : ((Upd.core n f).app s).sched = s.sched := rfl
@[simp] theorem app_core_choice (n : Nat) (f : Core → Core) : ((Upd.core n f).app s).choice = s.choice := rfl
@[simp] theorem app_core_cur (n : Nat) (f : Core → Core) : ((Upd.core n f).app s).cur = s.cur := rfl
@[simp] theorem app_core_free (n : Nat) (f : Core → Core) : ((Upd.core n f).app s).free = s.free := rfl

@[simp] theorem app_other_mem (f : State → State) : ((Upd.other f).app s).mem = s.mem := rfl
@[simp] theorem app_other_strands (f : State → State) : ((Upd.other f).app s).strands = (f s).strands := rfl
@[simp] theorem app_other_harts (f : State → State) : ((Upd.other f).app s).harts = (f s).harts := rfl
@[simp] theorem app_other_cores (f : State → State) : ((Upd.other f).app s).cores = (f s).cores := rfl
@[simp] theorem app_other_lofts (f : State → State) : ((Upd.other f).app s).lofts = (f s).lofts := rfl
@[simp] theorem app_other_gangs (f : State → State) : ((Upd.other f).app s).gangs = (f s).gangs := rfl
@[simp] theorem app_other_parts (f : State → State) : ((Upd.other f).app s).parts = (f s).parts := rfl
@[simp] theorem app_other_dev (f : State → State) : ((Upd.other f).app s).dev = (f s).dev := rfl
@[simp] theorem app_other_slots (f : State → State) : ((Upd.other f).app s).slots = (f s).slots := rfl
@[simp] theorem app_other_cmds (f : State → State) : ((Upd.other f).app s).cmds = (f s).cmds := rfl
@[simp] theorem app_other_nextCmd (f : State → State) : ((Upd.other f).app s).nextCmd = (f s).nextCmd := rfl
@[simp] theorem app_other_nextGang (f : State → State) : ((Upd.other f).app s).nextGang = (f s).nextGang := rfl
@[simp] theorem app_other_ns (f : State → State) : ((Upd.other f).app s).ns = (f s).ns := rfl
@[simp] theorem app_other_bad (f : State → State) : ((Upd.other f).app s).bad = (f s).bad := rfl
@[simp] theorem app_other_sched (f : State → State) : ((Upd.other f).app s).sched = (f s).sched := rfl
@[simp] theorem app_other_choice (f : State → State) : ((Upd.other f).app s).choice = (f s).choice := rfl
@[simp] theorem app_other_cur (f : State → State) : ((Upd.other f).app s).cur = (f s).cur := rfl
@[simp] theorem app_other_free (f : State → State) : ((Upd.other f).app s).free = (f s).free := rfl

/-! ### Reading a unit back -/

/-- The unit that an update changes. -/
@[simp] theorem strand_app_strand (n : Nat) (f : Strand → Strand) : ((Upd.strand n f).app s).strand n = f (s.strand n) :=
  tget_tput_same _ _ _ _
@[simp] theorem hart_app_hart (n : Nat) (f : Hart → Hart) : ((Upd.hart n f).app s).hart n = f (s.hart n) :=
  tget_tput_same _ _ _ _
@[simp] theorem core_app_core (n : Nat) (f : Core → Core) : ((Upd.core n f).app s).core n = f (s.core n) :=
  tget_tput_same _ _ _ _

/-- Another unit of the same kind. -/
theorem strand_app_strand_ne {n m : Nat} (f : Strand → Strand) (h : m ≠ n) :
    ((Upd.strand n f).app s).strand m = s.strand m := tget_tput_ne _ _ _ h
theorem hart_app_hart_ne {n m : Nat} (f : Hart → Hart) (h : m ≠ n) : ((Upd.hart n f).app s).hart m = s.hart m :=
  tget_tput_ne _ _ _ h
theorem core_app_core_ne {n m : Nat} (f : Core → Core) (h : m ≠ n) : ((Upd.core n f).app s).core m = s.core m :=
  tget_tput_ne _ _ _ h

/-- A unit of another kind. -/
@[simp] theorem strand_app_hart (n m : Nat) (f : Hart → Hart) : ((Upd.hart n f).app s).strand m = s.strand m := rfl
@[simp] theorem strand_app_core (n m : Nat) (f : Core → Core) : ((Upd.core n f).app s).strand m = s.strand m := rfl
@[simp] theorem strand_app_mem (m pa : Nat) (bs : List Byte) : ((Upd.mem pa bs).app s).strand m = s.strand m := rfl
@[simp] theorem strand_app_zero (m lo hi : Nat) : ((Upd.zero lo hi).app s).strand m = s.strand m := rfl
@[simp] theorem hart_app_strand (n m : Nat) (f : Strand → Strand) : ((Upd.strand n f).app s).hart m = s.hart m := rfl
@[simp] theorem hart_app_core (n m : Nat) (f : Core → Core) : ((Upd.core n f).app s).hart m = s.hart m := rfl
@[simp] theorem hart_app_mem (m pa : Nat) (bs : List Byte) : ((Upd.mem pa bs).app s).hart m = s.hart m := rfl
@[simp] theorem hart_app_zero (m lo hi : Nat) : ((Upd.zero lo hi).app s).hart m = s.hart m := rfl
@[simp] theorem core_app_strand (n m : Nat) (f : Strand → Strand) : ((Upd.strand n f).app s).core m = s.core m := rfl
@[simp] theorem core_app_hart (n m : Nat) (f : Hart → Hart) : ((Upd.hart n f).app s).core m = s.core m := rfl
@[simp] theorem core_app_mem (m pa : Nat) (bs : List Byte) : ((Upd.mem pa bs).app s).core m = s.core m := rfl
@[simp] theorem core_app_zero (m lo hi : Nat) : ((Upd.zero lo hi).app s).core m = s.core m := rfl

/-! ### Lists of updates -/

@[simp] theorem applyAll_nil : applyAll [] s = s := rfl
@[simp] theorem applyAll_cons (u : Upd) (us : List Upd) : applyAll (u :: us) s = applyAll us (u.app s) := rfl

/-- Updates apply in order. -/
theorem applyAll_append (us vs : List Upd) : applyAll (us ++ vs) s = applyAll vs (applyAll us s) := by
  induction us generalizing s with
  | nil => rfl
  | cons u us ih => exact ih (u.app s)

/-! ### Scalar registers -/

/-- x0 reads zero. -/
@[simp] theorem getX_zero (st : Strand) : getX st 0 = 0 := rfl

/-- A write of a register that is not x0 reads back. -/
theorem getX_setX_same (st : Strand) {r : Nat} (v : Word) (h : r ≠ 0) : getX (setX r v st) r = v := by
  simp [getX, setX, h]

/-- A write leaves every other register alone. -/
theorem getX_setX_ne (st : Strand) {r q : Nat} (v : Word) (h : q ≠ r) : getX (setX r v st) q = getX st q := by
  unfold getX setX
  split
  · rfl
  · split
    · rfl
    · exact tget_tset_ne 0 _ v h

/-- A write of x0 changes nothing. -/
@[simp] theorem setX_zero (v : Word) (st : Strand) : setX 0 v st = st := rfl

end Sys2Proof.Machine
end

