-- ==== Sys2Proof/Laws/Memory.lean ====
section
/-! SUPPORT. Sys2Proof/Laws/Memory.lean: bytes of memory after writes, and the canonical form under every update. -/

namespace Sys2Proof.Machine

/-- Bytes below a write keep their value. -/
theorem tget_writeBytes_lt (m : Tab Byte) (a : Nat) (bs : List Byte) {x : Nat} (h : x < a) :
    tget 0 (writeBytes m a bs) x = tget 0 m x := by
  induction bs generalizing m a with
  | nil => rfl
  | cons b bs ih => simp only [writeBytes]; rw [ih _ _ (by omega), tget_tset_ne 0 _ b (by omega)]

/-- Bytes above a write keep their value. -/
theorem tget_writeBytes_ge (m : Tab Byte) (a : Nat) (bs : List Byte) {x : Nat} (h : a + bs.length ≤ x) :
    tget 0 (writeBytes m a bs) x = tget 0 m x := by
  induction bs generalizing m a with
  | nil => rfl
  | cons b bs ih =>
    simp only [List.length_cons] at h
    simp only [writeBytes]; rw [ih _ _ (by omega), tget_tset_ne 0 _ b (by omega)]

/-- A written byte reads back. -/
theorem tget_writeBytes_in (m : Tab Byte) (a : Nat) (bs : List Byte) (i : Nat) (h : i < bs.length) :
    tget 0 (writeBytes m a bs) (a + i) = bs[i] := by
  induction bs generalizing m a i with
  | nil => simp at h
  | cons b bs ih =>
    simp only [writeBytes]
    cases i with
    | zero => rw [tget_writeBytes_lt _ _ _ (by omega)]; simp
    | succ i =>
      have := ih (tset 0 m a b) (a + 1) i (by simpa using h)
      simpa [Nat.add_assoc, Nat.add_comm 1 i] using this

/-- Writing bytes keeps the canonical form. -/
theorem wf_writeBytes (m : Tab Byte) (a : Nat) (bs : List Byte) (h : Memory.wf m = true) :
    Memory.wf (writeBytes m a bs) = true := by
  induction bs generalizing m a with
  | nil => exact h
  | cons b bs ih => exact ih _ _ (tcanon_tset 0 a b h)

/-- Every update keeps the canonical form. -/
theorem wf_app (u : Upd) (s : State) (h : Memory.wf s.mem = true) : Memory.wf (u.app s).mem = true := by
  cases u with
  | mem pa bs => exact wf_writeBytes _ _ _ h
  | zero lo hi => exact tcanon_tclear 0 lo hi h
  | strand => exact h
  | hart => exact h
  | core => exact h
  | other => exact h

/-- Every list of updates keeps the canonical form. -/
theorem wf_applyAll (us : List Upd) (s : State) (h : Memory.wf s.mem = true) : Memory.wf (applyAll us s).mem = true := by
  induction us generalizing s with
  | nil => exact h
  | cons u us ih => exact ih _ (wf_app u s h)

/-- Memory holds nothing at reset. -/
theorem wf_reset : Memory.wf State.reset.mem = true := rfl

/-- Memory after a retirement. -/
@[simp] theorem mem_retired (s : State) (n len : Nat) (t : Option Word) : (retired s n len t).mem = s.mem := rfl

end Sys2Proof.Machine
end

