-- ==== Sys2Proof/Laws/Ops.lean ====
section
/-! SUPPORT. Sys2Proof/Laws/Ops.lean: what the shared operations of Ops.lean do: issue, the ends of an instruction, events,
and the values, commands and records that outlive their access. -/

namespace Sys2Proof.Machine

/-- An instruction that can issue runs its own part after its pops. -/
theorem issue_of_canIssue {s : State} {cls : SClass} {priv : Nat} {srcs : List Src} {dsts : List Dst} {plain : List Nat}
    (h : canIssue s cls priv srcs dsts plain) (k : (Nat → Word) → Act) :
    issue s cls priv srcs dsts plain k = (k (srcVal s.me s.myHart srcs)).after (popAll s.h srcs) := by
  obtain ⟨h1, h2, h3, h4, h5⟩ := h
  simp [issue, h1, h2, Nat.not_lt.mpr h3, h4, h5]

/-- A retirement. -/
theorem finish_done {s : State} {len : Nat} {us : List Upd} (h : endsWell s us) :
    finish s len (.done us) = .next (s.after len us) := by
  simp [finish, show badReturn (applyAll us s) s.cur = none from h, retire, State.after]

/-- A transfer to an aligned target. -/
theorem finish_jump {s : State} {len : Nat} {us : List Upd} {target : Word} (h : target.toNat % 4 = 0) :
    finish s len (.jump us target) = .next (s.jumped len us target) := by
  simp [finish, h, retire, State.jumped]

/-- A transfer to a misaligned target traps and writes nothing (R91). -/
theorem finish_jump_bad {s : State} {len : Nat} {us : List Upd} {target : Word} (h : target.toNat % 4 ≠ 0) :
    finish s len (.jump us target) = .next (takeTrap s s.cur { code := 3, val := target } len) := by
  simp [finish, h]

/-- An instruction that can issue and whose own part retires. -/
theorem finish_issue_done {s : State} {len : Nat} {cls : SClass} {priv : Nat} {srcs : List Src} {dsts : List Dst}
    {plain : List Nat} {k : (Nat → Word) → Act} {us : List Upd} (h : canIssue s cls priv srcs dsts plain)
    (hk : k (srcVal s.me s.myHart srcs) = .done us) (he : endsWell s (popAll s.h srcs ++ us)) :
    finish s len (issue s cls priv srcs dsts plain k) = .next (s.after len (popAll s.h srcs ++ us)) := by
  rw [issue_of_canIssue h, hk]
  exact finish_done he

/-- An instruction that can issue and whose own part transfers control. -/
theorem finish_issue_jump {s : State} {len : Nat} {cls : SClass} {priv : Nat} {srcs : List Src} {dsts : List Dst}
    {plain : List Nat} {k : (Nat → Word) → Act} {us : List Upd} {target : Word} (h : canIssue s cls priv srcs dsts plain)
    (hk : k (srcVal s.me s.myHart srcs) = .jump us target) (ht : target.toNat % 4 = 0) :
    finish s len (issue s cls priv srcs dsts plain k) = .next (s.jumped len (popAll s.h srcs ++ us) target) := by
  rw [issue_of_canIssue h, hk]
  exact finish_jump ht

/-- An instruction that can issue and whose own part traps. -/
theorem finish_issue_trap {s : State} {len : Nat} {cls : SClass} {priv : Nat} {srcs : List Src} {dsts : List Dst}
    {plain : List Nat} {k : (Nat → Word) → Act} {t : TrapInfo} (h : canIssue s cls priv srcs dsts plain)
    (hk : k (srcVal s.me s.myHart srcs) = .trap t) :
    finish s len (issue s cls priv srcs dsts plain k) = .next (takeTrap s s.cur t len) := by
  rw [issue_of_canIssue h, hk]
  rfl

/-- An instruction that can issue and whose own part faults at an element, after the effects of those below (R178). -/
theorem finish_issue_part {s : State} {len : Nat} {cls : SClass} {priv : Nat} {srcs : List Src} {dsts : List Dst}
    {plain : List Nat} {k : (Nat → Word) → Act} {us : List Upd} {t : TrapInfo} (h : canIssue s cls priv srcs dsts plain)
    (hk : k (srcVal s.me s.myHart srcs) = .part us t) :
    finish s len (issue s cls priv srcs dsts plain k) = .next (takeTrap (applyAll us s) s.cur t len) := by
  rw [issue_of_canIssue h, hk]
  rfl

/-- An instruction below its privilege traps (R71). -/
theorem issue_low {s : State} {cls : SClass} {priv : Nat} {srcs : List Src} {dsts : List Dst} {plain : List Nat}
    (h1 : cls.ok s.cur = true) (h2 : dirOk s.cur srcs dsts = true) (h : privOf s s.h < priv) (k : (Nat → Word) → Act) :
    issue s cls priv srcs dsts plain k = .trap { code := 5 } := by
  simp [issue, h1, h2, h]

/-- An event that applies. -/
theorem event_some {s : State} {us : List Upd} (h : s.dev.off = false) : event s (some us) = .next (applyAll us s) := by
  simp [event, h]

/-! ### Runs -/

/-- A run's updates make its state. -/
def Run.Makes (r : Run) (s : State) : Prop := applyAll r.out s = r.s

/-- The start of a run makes its state. -/
theorem makes_start (s : State) : (Run.start s).Makes s := rfl

/-- One more update keeps it so. -/
theorem makes_add {r : Run} {s : State} (h : r.Makes s) (u : Upd) : (r.add u).Makes s := by
  unfold Run.Makes Run.out at *
  simp [Run.add, applyAll_append, h]

/-- More updates keep it so. -/
theorem makes_addAll {r : Run} {s : State} (h : r.Makes s) (us : List Upd) : (r.addAll us).Makes s := by
  induction us generalizing r with
  | nil => exact h
  | cons u us ih => exact ih (makes_add h u)

/-- The canonical form after every end of an instruction. -/
theorem wf_finish {s t : State} {len : Nat} {a : Act} (h : finish s len a = .next t) (hs : Memory.wf s.mem = true) :
    Memory.wf t.mem = true := by
  cases a with
  | done us =>
    simp only [finish] at h
    split at h
    · cases h; exact wf_applyAll _ _ hs
    · simp only [retire] at h; cases h; rw [mem_retired]; exact wf_applyAll _ _ hs
  | jump us target =>
    simp only [finish] at h
    split at h
    · simp only [retire] at h; cases h; rw [mem_retired]; exact wf_applyAll _ _ hs
    · cases h; exact wf_applyAll _ _ hs
  | trap x => cases h; exact wf_applyAll _ _ hs
  | soft us x => cases h; exact wf_applyAll _ _ (wf_applyAll _ _ hs)
  | part us x => cases h; exact wf_applyAll _ _ (wf_applyAll _ _ hs)
  | wait q us => cases h; exact wf_applyAll _ _ (wf_applyAll _ _ hs)
  | fault f => cases h

/-- The canonical form after every event. -/
theorem wf_event {s t : State} {e : Option (List Upd)} (h : event s e = .next t) (hs : Memory.wf s.mem = true) :
    Memory.wf t.mem = true := by
  cases e with
  | none => simp [event] at h
  | some us =>
    simp only [event] at h
    split at h
    · simp at h
    · cases h; exact wf_applyAll _ _ hs

/-! ### Earlier values, lost commands and records -/

/-- Keeping the values that a write is about to change is a run of updates, and memory stays as it is. -/
theorem makes_keepPast {r : Run} {s : State} (h : r.Makes s) (p : Nat → Bool) (l : Loc) (n : Nat) :
    (keepPast r p l n).Makes s ∧ (keepPast r p l n).s.mem = r.s.mem := by
  unfold keepPast
  split
  · exact ⟨h, rfl⟩
  · exact ⟨makes_add h _, rfl⟩

/-- After `dropPast` the hart's vector loads find no earlier value, and the hart's other fields stand as before. -/
theorem dropPast_hart (r : Run) (h : Nat) : (dropPast r h).s.hart h = { r.s.hart h with past := [] } := by
  unfold dropPast
  split
  · rename_i e; rw [← List.isEmpty_iff.mp e]
  · simp [Run.add]

/-- After `endLoads` no vector load of the hart finds an earlier value or may still be performed, and the hart's other fields stand as
before. -/
theorem endLoads_hart (r : Run) (h : Nat) : (endLoads r h).s.hart h = { r.s.hart h with past := [], late := [] } := by
  unfold endLoads
  split
  · rename_i e
    simp only [Bool.and_eq_true, List.isEmpty_iff] at e
    rw [← e.1, ← e.2]
  · simp [Run.add]

/-- `dropPast` is a run of updates. -/
theorem makes_dropPast {r : Run} {s : State} (h : r.Makes s) (n : Nat) : (dropPast r n).Makes s := by
  unfold dropPast
  split
  · exact h
  · exact makes_add h _

/-- `seenOwn` is a run of updates. -/
theorem makes_seenOwn {r : Run} {s : State} (h : r.Makes s) (n : Nat) (l : Loc) (k : Nat) : (seenOwn r n l k).Makes s := by
  unfold seenOwn
  split
  · exact h
  · exact makes_add h _

/-- `seenRead` is a run of updates. -/
theorem makes_seenRead {r : Run} {s : State} (h : r.Makes s) (n : Nat) (l : Loc) (k : Nat) (old : Bool) :
    (seenRead r n l k old).Makes s := by
  unfold seenRead
  split
  · exact h
  · exact makes_add h _

/-- A load that was performed early returns as many bytes as it reads. -/
@[simp] theorem pastOver_length (t : Tab Byte) (l : Loc) (bs : List Byte) : (pastOver t l bs).length = bs.length := by
  simp [pastOver]

/-- With nothing kept, an early load returns what memory holds. -/
theorem pastOver_nil (l : Loc) (bs : List Byte) : pastOver [] l bs = (List.range bs.length).map (byteAt bs) := by
  simp [pastOver]

/-- A byte that has been seen has no earlier value to return. -/
theorem freshAt_find (l : Loc) (k i : Nat) (t : Tab Byte) (h : i < k) : (freshAt l k t).find? (fun p => p.1 == l.pastKey + i) = none := by
  simp only [freshAt, List.find?_eq_none, List.mem_filter, Bool.or_eq_true, decide_eq_true_eq, beq_iff_eq]
  rintro p ⟨-, hp⟩ e
  have a : l.pastKey / 8 ≤ p.1 / 8 := Nat.div_le_div_right (by omega)
  have b : p.1 / 8 ≤ (l.pastKey + k - 1) / 8 := Nat.div_le_div_right (by omega)
  omega

/-- Giving up a context keeps every command and moves no memory, hart or strand. -/
theorem loseCmds_app (p k : Nat) (pads : State → Nat → Tab Byte) (s : State) :
    let t := (loseCmds p k pads).app s
    t.mem = s.mem ∧ t.harts = s.harts ∧ t.strands = s.strands ∧ t.cmds.map (·.id) = s.cmds.map (·.id) := by
  simp only [loseCmds, Upd.app]
  split
  · simp
  · refine ⟨by simp, by simp, by simp, ?_⟩
    simp only [List.map_map]
    apply List.map_congr_left
    intro d _
    simp only [Function.comp]
    split <;> rfl

/-- The record of a site is not among the records of the other instructions. -/
theorem recordAt_recordsNotAt (a : Word × Bool) (l : List (Nat × Nat × Word × Bool)) :
    recordAt a (recordsNotAt a l) = none := by
  simp [recordAt, recordsNotAt, List.find?_eq_none]

/-- A record just made is the one that its instruction finds. -/
@[simp] theorem recordAt_cons (a : Word × Bool) (b n : Nat) (l : List (Nat × Nat × Word × Bool)) :
    recordAt a ((b, n, a) :: l) = some (b, n) := by
  simp [recordAt]

/-- With its hart's loads done, an instruction finds the state as it is. -/
@[simp] theorem settle_of_loadsDone (i : Instr) {s : State} (h : s.myHart.loadsDone = true) : settle i s = s := by simp [settle, h]

/-- Settling changes which loads of a hart are open, and nothing else of it. -/
theorem settledBy_endAll (s : State) (i : Instr) (h : Hart) : (settledBy s i h).endAll = h.endAll := by
  simp only [settledBy, setPast]
  repeat' split
  all_goals rfl

/-- What `settle` may change is which loads of the hart that moves are open. -/
theorem settle_frame (i : Instr) (s : State) :
    (settle i s).mem = s.mem ∧ (settle i s).strands = s.strands ∧ (settle i s).cores = s.cores ∧ (settle i s).cur = s.cur
    ∧ ∀ h, ((settle i s).hart h).endAll = (s.hart h).endAll := by
  unfold settle
  split
  · exact ⟨rfl, rfl, rfl, rfl, fun _ => rfl⟩
  · refine ⟨rfl, rfl, rfl, rfl, fun h => ?_⟩
    by_cases e : h = s.h
    · subst e
      simp only [applyAll, State.hart, app_hart_harts, tget_tput_same, settledBy_endAll]
    · simp only [applyAll, State.hart, app_hart_harts, tget_tput_ne _ _ _ e]

/-- What a strand has seen of its own stores changes no memory. -/
theorem seenOwn_mem (r : Run) (n : Nat) (l : Loc) (k : Nat) : (seenOwn r n l k).s.mem = r.s.mem := by
  unfold seenOwn
  split <;> rfl

/-- A strand of a service hart that may not write a register raises the privilege trap, for one whose view is Z. -/
theorem firmwareEvent_low {s : State} {n reg : Nat} {w : Except TrapInfo (List Upd)} {k : List Upd}
    (hs : isService s (n / 2) = true) (ha : awake s n = true) (hp : privOf s (n / 2) < 2) :
    firmwareEvent s n reg w k = .next (takeTrap s n (privTrap reg) 4) := by
  simp [firmwareEvent, writeEvent, hs, ha, hp, applyAll]

/-- A strand of a service hart that may not write a register changes nothing, for one whose view is RO. -/
theorem readOnlyEvent_low {s : State} {n : Nat} {w : Except TrapInfo (List Upd)}
    (hs : isService s (n / 2) = true) (ha : awake s n = true) (hp : privOf s (n / 2) < 2) :
    readOnlyEvent s n w = .next s := by
  simp [readOnlyEvent, writeEvent, hs, ha, hp, applyAll]

/-- No uncorrectable error is met exactly where none is found. -/
theorem meetsBad_eq_false {s : State} {l : Loc} {n : Nat} : meetsBad s l n = false ↔ badIn s l n = none := by simp [meetsBad]

/-- A trap that reports no error leaves them all. -/
@[simp] theorem leaves_of_none {t : TrapInfo} (h : t.soft = none) (bad : List Nat) : t.leaves bad = bad := by
  simp [TrapInfo.leaves, h]

/-! ### A computation over a run -/

/-- A computation that answers is followed by what comes after it. -/
theorem mbind_ok {α β : Type} {m : M α} {f : α → M β} {r r' : Run} {a : α} (h : m r = .ok (a, r')) : (m >>= f) r = f a r' := by
  simp only [bind, StateT.bind, h]
  rfl

/-- A computation that traps is all that there is. -/
theorem mbind_error {α β : Type} {m : M α} {f : α → M β} {r : Run} {e : TrapInfo × Run} (h : m r = .error e) :
    (m >>= f) r = .error e := by
  simp only [bind, StateT.bind, h]
  rfl

/-- A scalar load that is performed at its own step, of bytes that meet no error. -/
theorem readScalar_ok {s : State} {x : Xl} {ea : Word} {n : Nat} {r : Run} (h : meetsBad r.s x.loc n = false) :
    readScalar s x ea n r = .ok (ownBytes s.myHart s.cur x.loc (readBytes r (some s.c) x.loc n).1,
      seenRead (readBytes r (some s.c) x.loc n).2 s.cur x.loc n false) := by
  unfold readScalar readScalarAs
  rw [mbind_ok (a := ()) (r' := r) (by simp [soundM, meetsBad_eq_false.mp h])]
  rfl

end Sys2Proof.Machine
end

