-- ==== Sys2Proof/Laws/PerInstr.lean ====
section
/-! SUPPORT. Sys2Proof/Laws/PerInstr.lean: statements that are made instruction by instruction. Encoded: an instruction that is
well-formed has words, at least one and at most five (03 R56), and an event, which has none, is never well-formed. -/

namespace Sys2Proof.Laws

/-- The words of a form number one to five. -/
theorem asm_length (f : Form) (w0 w1 w2 lit : Nat) : 1 ≤ (asm f w0 w1 w2 lit).length ∧ (asm f w0 w1 w2 lit).length ≤ 5 := by
  cases f <;> simp [asm]

/-- One word. -/
theorem one_length (w : Nat) : 1 ≤ [w].length ∧ [w].length ≤ 5 := by simp

end Sys2Proof.Laws

namespace Sys2Proof.Laws.Encoded

/-- A well-formed instruction has one to five words. -/
def Statement (i : Instr) : Prop := i.wf = true → 1 ≤ (encode i).length ∧ (encode i).length ≤ 5

theorem add (o : R3) : Statement (.add o) := fun _ => asm_length _ _ _ _ _
theorem sub (o : R3) : Statement (.sub o) := fun _ => asm_length _ _ _ _ _
theorem mul (o : R3) : Statement (.mul o) := fun _ => asm_length _ _ _ _ _
theorem mulh (o : R3) : Statement (.mulh o) := fun _ => asm_length _ _ _ _ _
theorem mulhn (o : R3) : Statement (.mulhn o) := fun _ => asm_length _ _ _ _ _
theorem div (o : R3) : Statement (.div o) := fun _ => asm_length _ _ _ _ _
theorem divn (o : R3) : Statement (.divn o) := fun _ => asm_length _ _ _ _ _
theorem rem (o : R3) : Statement (.rem o) := fun _ => asm_length _ _ _ _ _
theorem remn (o : R3) : Statement (.remn o) := fun _ => asm_length _ _ _ _ _
theorem and (o : R3) : Statement (.and o) := fun _ => asm_length _ _ _ _ _
theorem or (o : R3) : Statement (.or o) := fun _ => asm_length _ _ _ _ _
theorem xor (o : R3) : Statement (.xor o) := fun _ => asm_length _ _ _ _ _
theorem andn (o : R3) : Statement (.andn o) := fun _ => asm_length _ _ _ _ _
theorem shl (o : R3) : Statement (.shl o) := fun _ => asm_length _ _ _ _ _
theorem shr (o : R3) : Statement (.shr o) := fun _ => asm_length _ _ _ _ _
theorem sha (o : R3) : Statement (.sha o) := fun _ => asm_length _ _ _ _ _
theorem rot (o : R3) : Statement (.rot o) := fun _ => asm_length _ _ _ _ _
theorem min (o : R3) : Statement (.min o) := fun _ => asm_length _ _ _ _ _
theorem max (o : R3) : Statement (.max o) := fun _ => asm_length _ _ _ _ _
theorem minn (o : R3) : Statement (.minn o) := fun _ => asm_length _ _ _ _ _
theorem maxn (o : R3) : Statement (.maxn o) := fun _ => asm_length _ _ _ _ _
theorem slt (o : R3) : Statement (.slt o) := fun _ => asm_length _ _ _ _ _
theorem sltn (o : R3) : Statement (.sltn o) := fun _ => asm_length _ _ _ _ _
theorem clz (o : R2) : Statement (.clz o) := fun _ => asm_length _ _ _ _ _
theorem ctz (o : R2) : Statement (.ctz o) := fun _ => asm_length _ _ _ _ _
theorem popc (o : R2) : Statement (.popc o) := fun _ => asm_length _ _ _ _ _
theorem sext (o : R3) : Statement (.sext o) := fun _ => asm_length _ _ _ _ _
theorem zext (o : R3) : Statement (.zext o) := fun _ => asm_length _ _ _ _ _
theorem addsh (k : Nat) (o : R3) : Statement (.addsh k o) := fun _ => asm_length _ _ _ _ _
theorem addi (o : RI) : Statement (.addi o) := fun _ => asm_length _ _ _ _ _
theorem li (o : LIo) : Statement (.li o) := fun _ => asm_length _ _ _ _ _
theorem bfx (o : BFo) : Statement (.bfx o) := fun _ => asm_length _ _ _ _ _
theorem bfi (o : BFo) : Statement (.bfi o) := fun _ => asm_length _ _ _ _ _
theorem beq (o : BRo) : Statement (.beq o) := fun _ => asm_length _ _ _ _ _
theorem bne (o : BRo) : Statement (.bne o) := fun _ => asm_length _ _ _ _ _
theorem blt (o : BRo) : Statement (.blt o) := fun _ => asm_length _ _ _ _ _
theorem bge (o : BRo) : Statement (.bge o) := fun _ => asm_length _ _ _ _ _
theorem bltn (o : BRo) : Statement (.bltn o) := fun _ => asm_length _ _ _ _ _
theorem bgen (o : BRo) : Statement (.bgen o) := fun _ => asm_length _ _ _ _ _
theorem jal (o : JLo) : Statement (.jal o) := fun _ => asm_length _ _ _ _ _
theorem j (o : JO) : Statement (.j o) := fun _ => asm_length _ _ _ _ _
theorem jr (o : RI) : Statement (.jr o) := fun _ => asm_length _ _ _ _ _
theorem jtab (o : R3) : Statement (.jtab o) := fun _ => asm_length _ _ _ _ _
theorem loopbrk (f : Form) : Statement (.loopbrk f) := fun _ => asm_length _ _ _ _ _
theorem loop (o : LPo) : Statement (.loop o) := fun _ => asm_length _ _ _ _ _
theorem brqNz (o : BQo) : Statement (.brqNz o) := fun _ => asm_length _ _ _ _ _
theorem brqZ (o : BQo) : Statement (.brqZ o) := fun _ => asm_length _ _ _ _ _
theorem ldb (o : LDo) : Statement (.ldb o) := fun _ => asm_length _ _ _ _ _
theorem ldh (o : LDo) : Statement (.ldh o) := fun _ => asm_length _ _ _ _ _
theorem ldw (o : LDo) : Statement (.ldw o) := fun _ => asm_length _ _ _ _ _
theorem ldd (o : LDo) : Statement (.ldd o) := fun _ => asm_length _ _ _ _ _
theorem ldbn (o : LDo) : Statement (.ldbn o) := fun _ => asm_length _ _ _ _ _
theorem ldhn (o : LDo) : Statement (.ldhn o) := fun _ => asm_length _ _ _ _ _
theorem ldwn (o : LDo) : Statement (.ldwn o) := fun _ => asm_length _ _ _ _ _
theorem pref (o : PFo) : Statement (.pref o) := fun _ => asm_length _ _ _ _ _
theorem stb (o : STo) : Statement (.stb o) := fun _ => asm_length _ _ _ _ _
theorem sth (o : STo) : Statement (.sth o) := fun _ => asm_length _ _ _ _ _
theorem stw (o : STo) : Statement (.stw o) := fun _ => asm_length _ _ _ _ _
theorem std (o : STo) : Statement (.std o) := fun _ => asm_length _ _ _ _ _
theorem qpeek (o : QPo) : Statement (.qpeek o) := fun _ => asm_length _ _ _ _ _
theorem qcnt (o : QPo) : Statement (.qcnt o) := fun _ => asm_length _ _ _ _ _
theorem amoadd (o : AMo) : Statement (.amoadd o) := fun _ => asm_length _ _ _ _ _
theorem amoand (o : AMo) : Statement (.amoand o) := fun _ => asm_length _ _ _ _ _
theorem amoor (o : AMo) : Statement (.amoor o) := fun _ => asm_length _ _ _ _ _
theorem amoxor (o : AMo) : Statement (.amoxor o) := fun _ => asm_length _ _ _ _ _
theorem amomin (o : AMo) : Statement (.amomin o) := fun _ => asm_length _ _ _ _ _
theorem amomax (o : AMo) : Statement (.amomax o) := fun _ => asm_length _ _ _ _ _
theorem amominn (o : AMo) : Statement (.amominn o) := fun _ => asm_length _ _ _ _ _
theorem amomaxn (o : AMo) : Statement (.amomaxn o) := fun _ => asm_length _ _ _ _ _
theorem amoswp (o : AMo) : Statement (.amoswp o) := fun _ => asm_length _ _ _ _ _
theorem amocas (o : CASo) : Statement (.amocas o) := fun _ => asm_length _ _ _ _ _
theorem lda (o : LAo) : Statement (.lda o) := fun _ => asm_length _ _ _ _ _
theorem stl (o : SLo) : Statement (.stl o) := fun _ => asm_length _ _ _ _ _
theorem fence (o : FNo) : Statement (.fence o) := fun _ => asm_length _ _ _ _ _
theorem vsync (f : Form) (sc : Scope) : Statement (.vsync f sc) := fun _ => asm_length _ _ _ _ _
theorem bari (o : BBo) : Statement (.bari o) := fun _ => asm_length _ _ _ _ _
theorem bara (o : BAo) : Statement (.bara o) := fun _ => asm_length _ _ _ _ _
theorem barw (o : BBo) : Statement (.barw o) := fun _ => asm_length _ _ _ _ _
theorem barr (o : BAo) : Statement (.barr o) := fun _ => asm_length _ _ _ _ _
theorem barx (o : BBo) : Statement (.barx o) := fun _ => asm_length _ _ _ _ _
theorem waitm (o : WMo) : Statement (.waitm o) := fun _ => asm_length _ _ _ _ _
theorem trap (o : RA) : Statement (.trap o) := fun _ => asm_length _ _ _ _ _
theorem eret (f : Form) : Statement (.eret f) := fun _ => asm_length _ _ _ _ _
theorem idle (o : R2) : Statement (.idle o) := fun _ => asm_length _ _ _ _ _
theorem rdgtc (o : RD) : Statement (.rdgtc o) := fun _ => asm_length _ _ _ _ _
theorem feat (o : R2) : Statement (.feat o) := fun _ => asm_length _ _ _ _ _
theorem yield (f : Form) : Statement (.yield f) := fun _ => asm_length _ _ _ _ _
theorem gexit (o : RA) : Statement (.gexit o) := fun _ => asm_length _ _ _ _ _
theorem gets (o : GSo) : Statement (.gets o) := fun _ => asm_length _ _ _ _ _
theorem sets (o : SSo) : Statement (.sets o) := fun _ => asm_length _ _ _ _ _
theorem swaps (o : SWo) : Statement (.swaps o) := fun _ => asm_length _ _ _ _ _
theorem mod (m : Pfx) : Statement (.mod m) := fun _ => one_length _
theorem tlbinv (o : RAB) : Statement (.tlbinv o) := fun _ => asm_length _ _ _ _ _
theorem cinv (o : RAB) : Statement (.cinv o) := fun _ => asm_length _ _ _ _ _
theorem cwb (o : RAB) : Statement (.cwb o) := fun _ => asm_length _ _ _ _ _
theorem keyz (o : DA) : Statement (.keyz o) := fun _ => one_length _
theorem scrub (o : DA) : Statement (.scrub o) := fun _ => one_length _
theorem rlsetWriteEntry (o : RLo) : Statement (.rlsetWriteEntry o) := fun _ => asm_length _ _ _ _ _
theorem rlsetReadEntry (o : RLo) : Statement (.rlsetReadEntry o) := fun h => by cases h
theorem rlsetSwitch (o : RLo) : Statement (.rlsetSwitch o) := fun h => by cases h
theorem rlsetResume (o : RLo) : Statement (.rlsetResume o) := fun h => by cases h
theorem rlsetDiscard (o : RLo) : Statement (.rlsetDiscard o) := fun h => by cases h
theorem launch (o : DA) : Statement (.launch o) := fun _ => one_length _
theorem launchi (o : DA) : Statement (.launchi o) := fun _ => one_length _
theorem cpya (o : DA) : Statement (.cpya o) := fun _ => one_length _
theorem cpyw (o : DA) : Statement (.cpyw o) := fun _ => one_length _
theorem cpyx (o : DA) : Statement (.cpyx o) := fun _ => one_length _
theorem gath (o : DA) : Statement (.gath o) := fun _ => one_length _
theorem scred (o : DA) : Statement (.scred o) := fun _ => one_length _
theorem epush (o : EPo) : Statement (.epush o) := fun _ => asm_length _ _ _ _ _
theorem epop (o : QPo) : Statement (.epop o) := fun _ => asm_length _ _ _ _ _
theorem fwalk (o : DA) : Statement (.fwalk o) := fun _ => one_length _
theorem stmap (o : DA) : Statement (.stmap o) := fun _ => one_length _
theorem stunmap (o : DA) : Statement (.stunmap o) := fun _ => one_length _
theorem stflush (o : DA) : Statement (.stflush o) := fun _ => one_length _
theorem shinit (sh : Nat) (a : Nat) : Statement (.shinit sh a) := fun _ => one_length _
theorem shclr (sh : Nat) : Statement (.shclr sh) := fun _ => one_length _
theorem shcnt (o : QPo) : Statement (.shcnt o) := fun _ => asm_length _ _ _ _ _
theorem cmarm (f : Form) (m a : Nat) : Statement (.cmarm f m a) := fun _ => asm_length _ _ _ _ _
theorem cmref (o : CRo) : Statement (.cmref o) := fun _ => asm_length _ _ _ _ _
theorem cmchk (f : Form) (m : Nat) (clr : Bool) : Statement (.cmchk f m clr) := fun _ => asm_length _ _ _ _ _
theorem cmrd (o : CDo) : Statement (.cmrd o) := fun _ => asm_length _ _ _ _ _
theorem cmoff (f : Form) (m : Nat) : Statement (.cmoff f m) := fun _ => asm_length _ _ _ _ _
theorem stepa (o : DA) : Statement (.stepa o) := fun _ => one_length _
theorem stepo (o : DA) : Statement (.stepo o) := fun _ => one_length _
theorem epver (o : R2) : Statement (.epver o) := fun _ => asm_length _ _ _ _ _
theorem epret (o : R2) : Statement (.epret o) := fun _ => asm_length _ _ _ _ _
theorem scommit (o : RA) : Statement (.scommit o) := fun _ => asm_length _ _ _ _ _
theorem sabort (f : Form) : Statement (.sabort f) := fun _ => asm_length _ _ _ _ _
theorem vsetl (o : RB) : Statement (.vsetl o) := fun _ => asm_length _ _ _ _ _
theorem vsett (o : RB) : Statement (.vsett o) := fun _ => asm_length _ _ _ _ _
theorem vsetm (o : R3) : Statement (.vsetm o) := fun _ => asm_length _ _ _ _ _
theorem vgetg (o : RD) : Statement (.vgetg o) := fun _ => asm_length _ _ _ _ _
theorem vld (o : VMo) : Statement (.vld o) := fun _ => asm_length _ _ _ _ _
theorem vldf (o : VMo) : Statement (.vldf o) := fun _ => asm_length _ _ _ _ _
theorem vldh (o : VMo) : Statement (.vldh o) := fun _ => asm_length _ _ _ _ _
theorem vlds (o : VMo) : Statement (.vlds o) := fun _ => asm_length _ _ _ _ _
theorem vldx (o : VMo) : Statement (.vldx o) := fun _ => asm_length _ _ _ _ _
theorem vst (o : VMo) : Statement (.vst o) := fun _ => asm_length _ _ _ _ _
theorem vstq (o : VMo) : Statement (.vstq o) := fun _ => asm_length _ _ _ _ _
theorem vsth (o : VMo) : Statement (.vsth o) := fun _ => asm_length _ _ _ _ _
theorem vsts (o : VMo) : Statement (.vsts o) := fun _ => asm_length _ _ _ _ _
theorem vstx (o : VMo) : Statement (.vstx o) := fun _ => asm_length _ _ _ _ _
theorem vstxo (o : VMo) : Statement (.vstxo o) := fun _ => asm_length _ _ _ _ _
theorem vadd (o : VVo) : Statement (.vadd o) := fun _ => asm_length _ _ _ _ _
theorem vsub (o : VVo) : Statement (.vsub o) := fun _ => asm_length _ _ _ _ _
theorem vmul (o : VVo) : Statement (.vmul o) := fun _ => asm_length _ _ _ _ _
theorem vmulh (o : VVo) : Statement (.vmulh o) := fun _ => asm_length _ _ _ _ _
theorem vmac (o : VVo) : Statement (.vmac o) := fun _ => asm_length _ _ _ _ _
theorem vmin (o : VVo) : Statement (.vmin o) := fun _ => asm_length _ _ _ _ _
theorem vmax (o : VVo) : Statement (.vmax o) := fun _ => asm_length _ _ _ _ _
theorem vminn (o : VVo) : Statement (.vminn o) := fun _ => asm_length _ _ _ _ _
theorem vmaxn (o : VVo) : Statement (.vmaxn o) := fun _ => asm_length _ _ _ _ _
theorem vand (o : VVo) : Statement (.vand o) := fun _ => asm_length _ _ _ _ _
theorem vor (o : VVo) : Statement (.vor o) := fun _ => asm_length _ _ _ _ _
theorem vxor (o : VVo) : Statement (.vxor o) := fun _ => asm_length _ _ _ _ _
theorem vshl (o : VVo) : Statement (.vshl o) := fun _ => asm_length _ _ _ _ _
theorem vshr (o : VVo) : Statement (.vshr o) := fun _ => asm_length _ _ _ _ _
theorem vsha (o : VVo) : Statement (.vsha o) := fun _ => asm_length _ _ _ _ _
theorem vabs (o : VUo) : Statement (.vabs o) := fun _ => asm_length _ _ _ _ _
theorem vsadd (o : VVo) : Statement (.vsadd o) := fun _ => asm_length _ _ _ _ _
theorem vssub (o : VVo) : Statement (.vssub o) := fun _ => asm_length _ _ _ _ _
theorem vfadd (o : VVo) : Statement (.vfadd o) := fun _ => asm_length _ _ _ _ _
theorem vfsub (o : VVo) : Statement (.vfsub o) := fun _ => asm_length _ _ _ _ _
theorem vfmul (o : VVo) : Statement (.vfmul o) := fun _ => asm_length _ _ _ _ _
theorem vfma (o : VVo) : Statement (.vfma o) := fun _ => asm_length _ _ _ _ _
theorem vfnma (o : VVo) : Statement (.vfnma o) := fun _ => asm_length _ _ _ _ _
theorem vfdiv (o : VVo) : Statement (.vfdiv o) := fun _ => asm_length _ _ _ _ _
theorem vfmin (o : VVo) : Statement (.vfmin o) := fun _ => asm_length _ _ _ _ _
theorem vfmax (o : VVo) : Statement (.vfmax o) := fun _ => asm_length _ _ _ _ _
theorem vfsqrt (o : VUo) : Statement (.vfsqrt o) := fun _ => asm_length _ _ _ _ _
theorem vfrece (o : VUo) : Statement (.vfrece o) := fun _ => asm_length _ _ _ _ _
theorem vfabs (o : VUo) : Statement (.vfabs o) := fun _ => asm_length _ _ _ _ _
theorem vfneg (o : VUo) : Statement (.vfneg o) := fun _ => asm_length _ _ _ _ _
theorem vfclass (o : VUo) : Statement (.vfclass o) := fun _ => asm_length _ _ _ _ _
theorem vfexp2 (o : VUo) : Statement (.vfexp2 o) := fun _ => asm_length _ _ _ _ _
theorem vfrcpp (o : VPo) : Statement (.vfrcpp o) := fun _ => asm_length _ _ _ _ _
theorem vcmp (o : VCo) : Statement (.vcmp o) := fun _ => asm_length _ _ _ _ _
theorem vfcmp (o : VFCo) : Statement (.vfcmp o) := fun _ => asm_length _ _ _ _ _
theorem mand (o : M3) : Statement (.mand o) := fun _ => asm_length _ _ _ _ _
theorem mor (o : M3) : Statement (.mor o) := fun _ => asm_length _ _ _ _ _
theorem mxor (o : M3) : Statement (.mxor o) := fun _ => asm_length _ _ _ _ _
theorem mnot (f : Form) (d a : Nat) : Statement (.mnot f d a) := fun _ => asm_length _ _ _ _ _
theorem mpopc (o : MDo) : Statement (.mpopc o) := fun _ => asm_length _ _ _ _ _
theorem mfirst (o : MDo) : Statement (.mfirst o) := fun _ => asm_length _ _ _ _ _
theorem vmset (o : VSo) : Statement (.vmset o) := fun _ => asm_length _ _ _ _ _
theorem viota (o : VUo) : Statement (.viota o) := fun _ => asm_length _ _ _ _ _
theorem vcvt (o : VTo) : Statement (.vcvt o) := fun _ => asm_length _ _ _ _ _
theorem vnarrow (o : VTo) : Statement (.vnarrow o) := fun _ => asm_length _ _ _ _ _
theorem vnarrowChain (o : VTo) : Statement (.vnarrowChain o) := fun _ => asm_length _ _ _ _ _
theorem vftoi (o : VTo) : Statement (.vftoi o) := fun _ => asm_length _ _ _ _ _
theorem vitof (o : VTo) : Statement (.vitof o) := fun _ => asm_length _ _ _ _ _
theorem vslideup (o : VVo) : Statement (.vslideup o) := fun _ => asm_length _ _ _ _ _
theorem vslidedn (o : VVo) : Statement (.vslidedn o) := fun _ => asm_length _ _ _ _ _
theorem vperm (o : VVo) : Statement (.vperm o) := fun _ => asm_length _ _ _ _ _
theorem vcompr (o : VUo) : Statement (.vcompr o) := fun _ => asm_length _ _ _ _ _
theorem vexpand (o : VUo) : Statement (.vexpand o) := fun _ => asm_length _ _ _ _ _
theorem vidxc (o : VXo) : Statement (.vidxc o) := fun _ => asm_length _ _ _ _ _
theorem vbcast (o : VBo) : Statement (.vbcast o) := fun _ => asm_length _ _ _ _ _
theorem vextr (o : VEo) : Statement (.vextr o) := fun _ => asm_length _ _ _ _ _
theorem vins (o : VIo) : Statement (.vins o) := fun _ => asm_length _ _ _ _ _
theorem stxs (o : VVo) : Statement (.stxs o) := fun _ => asm_length _ _ _ _ _
theorem stxw (o : VVo) : Statement (.stxw o) := fun _ => asm_length _ _ _ _ _
theorem vredadd (o : VVo) : Statement (.vredadd o) := fun _ => asm_length _ _ _ _ _
theorem vredaddo (o : VVo) : Statement (.vredaddo o) := fun _ => asm_length _ _ _ _ _
theorem vredmax (o : VVo) : Statement (.vredmax o) := fun _ => asm_length _ _ _ _ _
theorem vredmin (o : VVo) : Statement (.vredmin o) := fun _ => asm_length _ _ _ _ _
theorem vfredadd (o : VVo) : Statement (.vfredadd o) := fun _ => asm_length _ _ _ _ _
theorem vfredaddo (o : VVo) : Statement (.vfredaddo o) := fun _ => asm_length _ _ _ _ _
theorem vfredmax (o : VVo) : Statement (.vfredmax o) := fun _ => asm_length _ _ _ _ _
theorem vfredmin (o : VVo) : Statement (.vfredmin o) := fun _ => asm_length _ _ _ _ _
theorem afdef (o : AFo) : Statement (.afdef o) := fun _ => asm_length _ _ _ _ _
theorem afpop (o : APo) : Statement (.afpop o) := fun _ => asm_length _ _ _ _ _
theorem afcnt (o : ACo) : Statement (.afcnt o) := fun _ => by
  obtain ⟨f, d, p⟩ := o
  cases p <;> exact asm_length _ _ _ _ _
theorem epopv (o : VNo) : Statement (.epopv o) := fun _ => asm_length _ _ _ _ _
theorem shpush (o : VNo) : Statement (.shpush o) := fun _ => asm_length _ _ _ _ _
theorem shins (o : VNo) : Statement (.shins o) := fun _ => asm_length _ _ _ _ _
theorem shpopb (f : Form) (v s : Nat) : Statement (.shpopb f v s) := fun _ => asm_length _ _ _ _ _
theorem tmatt (o : RB) : Statement (.tmatt o) := fun _ => asm_length _ _ _ _ _
theorem tmdet (f : Form) : Statement (.tmdet f) := fun _ => asm_length _ _ _ _ _
theorem tmalg (o : RA) : Statement (.tmalg o) := fun _ => asm_length _ _ _ _ _
theorem tmalgs (o : RA) : Statement (.tmalgs o) := fun _ => asm_length _ _ _ _ _
theorem tmzero (f : Form) (t : Nat) : Statement (.tmzero f t) := fun _ => asm_length _ _ _ _ _
theorem tmop (o : TOo) : Statement (.tmop o) := fun _ => asm_length _ _ _ _ _
theorem tmrun (o : TRo) : Statement (.tmrun o) := fun _ => asm_length _ _ _ _ _
theorem tmrd (o : TDo) : Statement (.tmrd o) := fun _ => asm_length _ _ _ _ _
theorem tmwr (o : TWo) : Statement (.tmwr o) := fun _ => asm_length _ _ _ _ _
theorem tmwait (o : TSo) : Statement (.tmwait o) := fun _ => asm_length _ _ _ _ _
theorem tmstat (o : TSo) : Statement (.tmstat o) := fun _ => asm_length _ _ _ _ _
theorem illegalInstruction : Statement (.illegalInstruction) := fun h => by cases h
theorem fetchFault (va : Word) : Statement (.fetchFault va) := fun h => by cases h
theorem branchMispredict (n : Nat) : Statement (.branchMispredict n) := fun h => by cases h
theorem queueDeadlock (h : Nat) : Statement (.queueDeadlock h) := fun h => by cases h
theorem sourceStop (p : Nat) (src : Nat) : Statement (.sourceStop p src) := fun h => by cases h
theorem haltResume (p : Nat) : Statement (.haltResume p) := fun h => by cases h
theorem haltEnd (p : Nat) : Statement (.haltEnd p) := fun h => by cases h
theorem interrupt (n : Nat) : Statement (.interrupt n) := fun h => by cases h
theorem waitmWake (n : Nat) : Statement (.waitmWake n) := fun h => by cases h
theorem waitmTimeout (n : Nat) : Statement (.waitmTimeout n) := fun h => by cases h
theorem idleEnd (n : Nat) (code : Nat) : Statement (.idleEnd n code) := fun h => by cases h
theorem barrierCredit (id : Nat) : Statement (.barrierCredit id) := fun h => by cases h
theorem barrierWaitReturn (n : Nat) : Statement (.barrierWaitReturn n) := fun h => by cases h
theorem copyChunk (id : Nat) : Statement (.copyChunk id) := fun h => by cases h
theorem copyComplete (id : Nat) : Statement (.copyComplete id) := fun h => by cases h
theorem stashCommandComplete (id : Nat) : Statement (.stashCommandComplete id) := fun h => by cases h
theorem gatherRow (id : Nat) : Statement (.gatherRow id) := fun h => by cases h
theorem scatterReduceUpdate (id : Nat) : Statement (.scatterReduceUpdate id) := fun h => by cases h
theorem fwalkRun (id : Nat) : Statement (.fwalkRun id) := fun h => by cases h
theorem engineCommandComplete (id : Nat) : Statement (.engineCommandComplete id) := fun h => by cases h
theorem completionStreamPush (id : Nat) : Statement (.completionStreamPush id) := fun h => by cases h
theorem tmuKStep (c : Nat) (t : Nat) : Statement (.tmuKStep c t) := fun h => by cases h
theorem wcTimeout (c : Nat) (blk : Nat) : Statement (.wcTimeout c blk) := fun h => by cases h
theorem translationFill (h : Nat) (va : Word) : Statement (.translationFill h va) := fun h => by cases h
theorem sliceEnd (p : Nat) : Statement (.sliceEnd p) := fun h => by cases h
theorem switchComplete (p : Nat) : Statement (.switchComplete p) := fun h => by cases h
theorem latencyLimitMiss (p : Nat) : Statement (.latencyLimitMiss p) := fun h => by cases h
theorem contextSpillDone (c : Nat) : Statement (.contextSpillDone c) := fun h => by cases h
theorem contextFillDone (c : Nat) : Statement (.contextFillDone c) := fun h => by cases h
theorem spillStop (c : Nat) (off : Nat) : Statement (.spillStop c off) := fun h => by cases h
theorem fillStop (c : Nat) (off : Nat) : Statement (.fillStop c off) := fun h => by cases h
theorem launchDispatch (p : Nat) (id : Nat) : Statement (.launchDispatch p id) := fun h => by cases h
theorem gangPlacement (p : Nat) (id : Nat) : Statement (.gangPlacement p id) := fun h => by cases h
theorem launchCompletion (p : Nat) (id : Nat) : Statement (.launchCompletion p id) := fun h => by cases h
theorem hostRead (addr : Nat) (len : Nat) : Statement (.hostRead addr len) := fun h => by cases h
theorem hostWrite (addr : Nat) (data : List Byte) : Statement (.hostWrite addr data) := fun h => by cases h
theorem hostLineWrite (addr : Nat) (data : List Byte) : Statement (.hostLineWrite addr data) := fun h => by cases h
theorem linkTraining (o : LinkOffer) : Statement (.linkTraining o) := fun h => by cases h
theorem spdmMeasurementRequest : Statement (.spdmMeasurementRequest) := fun h => by cases h
theorem xlateTranslate (p : Nat) : Statement (.xlateTranslate p) := fun h => by cases h
theorem xlateLookup (p : Nat) : Statement (.xlateLookup p) := fun h => by cases h
theorem xlateInvalidateKey (p : Nat) : Statement (.xlateInvalidateKey p) := fun h => by cases h
theorem xlateInvalidateAll (p : Nat) : Statement (.xlateInvalidateAll p) := fun h => by cases h
theorem episodeStart (p : Nat) : Statement (.episodeStart p) := fun h => by cases h
theorem episodeEndCommand (p : Nat) : Statement (.episodeEndCommand p) := fun h => by cases h
theorem imageCopyDone (slot : Nat) : Statement (.imageCopyDone slot) := fun h => by cases h
theorem takeCall (slot : Nat) : Statement (.takeCall slot) := fun h => by cases h
theorem postCall (slot : Nat) : Statement (.postCall slot) := fun h => by cases h
theorem stampCall (slot : Nat) : Statement (.stampCall slot) := fun h => by cases h
theorem actionRecordPlaced (slot : Nat) : Statement (.actionRecordPlaced slot) := fun h => by cases h
theorem observationRecordPlaced (slot : Nat) : Statement (.observationRecordPlaced slot) := fun h => by cases h
theorem watchdogExpiry (slot : Nat) : Statement (.watchdogExpiry slot) := fun h => by cases h
theorem croftFault (slot : Nat) (mcause : Word) (mtval : Word) : Statement (.croftFault slot mcause mtval) := fun h => by cases h
theorem kload (n : Nat) (v : Word) : Statement (.kload n v) := fun h => by cases h
theorem winnowerOrderComplete : Statement (.winnowerOrderComplete) := fun h => by cases h
theorem partCfgWrite (n : Nat) (p : Nat) (v : Word) : Statement (.partCfgWrite n p v) := fun h => by cases h
theorem stgrpWrite (n : Nat) (p : Nat) (v : Word) : Statement (.stgrpWrite n p v) := fun h => by cases h
theorem islandControl (n : Nat) (v : Word) : Statement (.islandControl n v) := fun h => by cases h
theorem islandPowerChangeDone (i : Nat) : Statement (.islandPowerChangeDone i) := fun h => by cases h
theorem throttleStep : Statement (.throttleStep) := fun h => by cases h
theorem thermalShutdown : Statement (.thermalShutdown) := fun h => by cases h
theorem softError (k : Nat) (uncorr : Bool) (hit : Struck) : Statement (.softError k uncorr hit) := fun h => by cases h
theorem fwStage (n : Nat) (v : Word) : Statement (.fwStage n v) := fun h => by cases h
theorem fwStageDone (len modulus sig ver : Nat) : Statement (.fwStageDone len modulus sig ver) := fun h => by cases h
theorem fwCommit (n : Nat) : Statement (.fwCommit n) := fun h => by cases h
theorem fwSelectBank (n : Nat) : Statement (.fwSelectBank n) := fun h => by cases h
theorem coldReset (c : CfgRec) : Statement (.coldReset c) := fun h => by cases h
theorem warmReset (c : CfgRec) : Statement (.warmReset c) := fun h => by cases h
theorem croftUserInstruction (slot : Nat) : Statement (.croftUserInstruction slot) := fun h => by cases h
theorem winnowerUnitDone : Statement (.winnowerUnitDone) := fun h => by cases h
theorem powerLoss : Statement (.powerLoss) := fun h => by cases h
theorem keyRevocation (v : Revocation) : Statement (.keyRevocation v) := fun h => by cases h

end Sys2Proof.Laws.Encoded
end

