-- ==== Sys2Proof/Laws/Roots.lean ====
section
/-! SUPPORT. Sys2Proof/Laws/Roots.lean: what the integer square root and the power of two of VFSQRT and VFEXP2 compute (07 R184). -/

namespace Sys2Proof.Machine

/-- The bits of a square root are found from the top. -/
theorem isqrtFrom_bounds (n : Nat) : ∀ k r, r ^ 2 ≤ n → n < (r + 2 ^ k) ^ 2 →
    isqrtFrom n k r ^ 2 ≤ n ∧ n < (isqrtFrom n k r + 1) ^ 2
  | 0, r, h, h' => ⟨h, by simpa [isqrtFrom] using h'⟩
  | k + 1, r, h, h' => by
    unfold isqrtFrom
    apply isqrtFrom_bounds n k
    · split
      · simpa [sq] using ‹_›
      · exact h
    · split
      · simpa [pow_succ, mul_two, add_assoc] using h'
      · simpa [sq] using Nat.not_le.mp ‹_›

/-- `isqrt` is the integer square root. -/
theorem isqrt_bounds (n : Nat) : isqrt n ^ 2 ≤ n ∧ n < (isqrt n + 1) ^ 2 := by
  refine isqrtFrom_bounds n _ 0 (by simp) ?_
  rw [Nat.zero_add, ← pow_mul]
  exact lt_of_lt_of_le Nat.lt_log2_self (Nat.pow_le_pow_right (by norm_num) (by omega))

/-- A root of the chain is rounded down, by less than four units. -/
theorem rootChain_bounds (u : Nat) (hu : 100 ≤ u) : ∀ k f y, f < 2 ^ k → u ≤ y →
    rootChain u k f y ^ 2 ^ k * u ≤ y * 2 ^ f * u ^ 2 ^ k
    ∧ (y + 4) * 2 ^ f * u ^ 2 ^ k ≤ (rootChain u k f y + 4) ^ 2 ^ k * u
  | 0, f, y, h, _ => by
    obtain rfl : f = 0 := by simpa using h
    simp [rootChain]
  | k + 1, f, y, h, hy => by
    unfold rootChain
    obtain ⟨lo, hi⟩ := isqrt_bounds (y * 2 ^ (f % 2) * u)
    generalize isqrt (y * 2 ^ (f % 2) * u) = z at lo hi ⊢
    have hz : u ≤ z ∧ (y + 4) * 2 ^ (f % 2) * u ≤ (z + 4) ^ 2 := by
      rcases Nat.mod_two_eq_zero_or_one f with hb | hb <;> rw [hb] at lo hi ⊢ <;> constructor <;> nlinarith
    obtain ⟨l, w⟩ := rootChain_bounds u hu k (f / 2) z (by rw [pow_succ] at h; omega) hz.1
    have e : 2 ^ f = 2 ^ (f % 2) * (2 ^ (f / 2)) ^ 2 := by
      rw [← pow_mul, ← pow_add]; congr 1; omega
    have p : ∀ x : Nat, x ^ 2 ^ (k + 1) = (x ^ 2 ^ k) ^ 2 := fun x => by rw [← pow_mul, pow_succ]
    rw [p, p, p, e]
    have u0 : 0 < u := by omega
    generalize rootChain u k (f / 2) z = R at l w ⊢
    generalize R ^ 2 ^ k = B at l ⊢
    generalize (R + 4) ^ 2 ^ k = C at w ⊢
    generalize u ^ 2 ^ k = D at l w ⊢
    generalize 2 ^ (f / 2) = E at l w ⊢
    generalize 2 ^ (f % 2) = G at *
    constructor <;> apply Nat.le_of_mul_le_mul_right _ u0
    · calc B ^ 2 * u * u = (B * u) ^ 2 := by ring
        _ ≤ (z * E * D) ^ 2 := Nat.pow_le_pow_left l 2
        _ = z ^ 2 * E ^ 2 * D ^ 2 := by ring
        _ ≤ (y * G * u) * E ^ 2 * D ^ 2 := by gcongr
        _ = _ := by ring
    · calc (y + 4) * (G * E ^ 2) * D ^ 2 * u = ((y + 4) * G * u) * E ^ 2 * D ^ 2 := by ring
        _ ≤ (z + 4) ^ 2 * E ^ 2 * D ^ 2 := by gcongr; exact hz.2
        _ = ((z + 4) * E * D) ^ 2 := by ring
        _ ≤ (C * u) ^ 2 := Nat.pow_le_pow_left w 2
        _ = _ := by ring

/-- `exp2Frac` is less than two units of 2^-200 below the power of two. -/
theorem exp2Frac_bounds (k f : Nat) (h : f < 2 ^ k) :
    exp2Frac f k ^ 2 ^ k ≤ 2 ^ f * (2 ^ 200) ^ 2 ^ k ∧ 2 ^ f * (2 ^ 200) ^ 2 ^ k < (exp2Frac f k + 2) ^ 2 ^ k := by
  obtain ⟨l, u⟩ := rootChain_bounds (2 ^ 210) (by norm_num) k f (2 ^ 210) h le_rfl
  unfold exp2Frac
  generalize rootChain (2 ^ 210) k f (2 ^ 210) = R at l u ⊢
  have q : R / 2 ^ 10 * 2 ^ 10 ≤ R := Nat.div_mul_le_self ..
  have q' : R + 4 ≤ (R / 2 ^ 10 + 2) * 2 ^ 10 := by omega
  have e : (2 ^ 210) ^ 2 ^ k = (2 ^ 200) ^ 2 ^ k * (2 ^ 10) ^ 2 ^ k := by rw [← mul_pow, ← pow_add]
  have t : 0 < (2 ^ 10) ^ 2 ^ k := by positivity
  constructor
  · apply Nat.le_of_mul_le_mul_right _ t
    rw [← mul_pow, mul_assoc, ← e]
    refine le_trans (Nat.pow_le_pow_left q _) ?_
    exact Nat.le_of_mul_le_mul_right (by linarith) (show 0 < 2 ^ 210 by norm_num)
  · apply Nat.lt_of_mul_lt_mul_right (a := (2 ^ 10) ^ 2 ^ k)
    rw [← mul_pow, mul_assoc, ← e]
    refine lt_of_lt_of_le ?_ (Nat.pow_le_pow_left q' _)
    refine Nat.lt_of_mul_lt_mul_right (a := 2 ^ 210) (lt_of_lt_of_le ?_ u)
    have : 0 < 2 ^ f * (2 ^ 210) ^ 2 ^ k := by positivity
    nlinarith

end Sys2Proof.Machine
end

