-- ==== Sys2Proof/Laws/Vec.lean ====
section
/-! SUPPORT. Sys2Proof/Laws/Vec.lean: what the shared operations of the vector families do: the frame of a vector
instruction, elementwise instructions, and the ranges of elements. -/

namespace Sys2Proof.Machine

/-- An element of the vector fits its width. -/
theorem get_lt (cx : VCtx) (s : State) (r w e : Nat) : cx.get s r w e < 2 ^ w :=
  Nat.mod_lt _ (Nat.two_pow_pos w)

/-- A c operand fits the width of an integer type. -/
theorem vopnd_lt {s : State} {cx : VCtx} (c : VSrc) (x : Word) (e : Nat) (h : cx.ty.isFloat = false) :
    vopnd s cx c x e < 2 ^ cx.ty.bits := by
  cases c with
  | v r => exact get_lt cx s r _ e
  | s _ => exact Nat.mod_lt _ (Nat.two_pow_pos _)
  | i k =>
    have h1 : (k % (2 ^ cx.ty.bits : Int)) < 2 ^ cx.ty.bits := Int.emod_lt_of_pos k (Int.pow_pos (by decide))
    have h2 : 0 ≤ (k % (2 ^ cx.ty.bits : Int)) := Int.emod_nonneg k (Int.ne_of_gt (Int.pow_pos (by decide)))
    simp only [vopnd, h, Bool.false_eq_true, if_false, VCtx.w]
    have h3 : (((2 : Nat) ^ cx.ty.bits : Nat) : Int) = (2 : Int) ^ cx.ty.bits := by simp
    omega

/-- Integer types are no float types. -/
theorem not_float_of_int {t : Ty} (h : t.isInt = true) : t.isFloat = false := by
  cases t <;> first | rfl | cases h

/-- A vector instruction whose type is accepted and whose own part retires. -/
theorem vecRun_done {s : State} {len : Nat} {c : VSrc} {ok : Ty → Bool} {k : VCtx → (Nat → Nat) → Act} {us : List Upd}
    (h : canIssue s .execute 0 (vsrcs c) [] []) (ho : ok (vcx s).ty = true)
    (hk : k (vcx s) (vopnd s (vcx s) c (srcOf s (vsrcs c) 0)) = .done us)
    (he : endsWell s (popAll s.h (vsrcs c) ++ us)) :
    finish s len (vecRun s c ok k) = .next (s.after len (popAll s.h (vsrcs c) ++ us)) := by
  unfold vecRun
  exact finish_issue_done h (by simp only [ho, if_true]; exact hk) he

/-- A vector instruction whose type is accepted and whose own part traps. -/
theorem vecRun_trap {s : State} {len : Nat} {c : VSrc} {ok : Ty → Bool} {k : VCtx → (Nat → Nat) → Act} {t : TrapInfo}
    (h : canIssue s .execute 0 (vsrcs c) [] []) (ho : ok (vcx s).ty = true)
    (hk : k (vcx s) (vopnd s (vcx s) c (srcOf s (vsrcs c) 0)) = .trap t) :
    finish s len (vecRun s c ok k) = .next (takeTrap s s.cur t len) := by
  unfold vecRun
  exact finish_issue_trap h (by simp only [ho, if_true]; exact hk)

/-- A vector instruction whose type is not accepted raises the vector-type fault (R168). -/
theorem vecRun_bad {s : State} {len : Nat} {c : VSrc} {ok : Ty → Bool} {k : VCtx → (Nat → Nat) → Act}
    (h : canIssue s .execute 0 (vsrcs c) [] []) (ho : ok (vcx s).ty = false) :
    finish s len (vecRun s c ok k) = .next (takeTrap s s.cur { code := 23 } len) := by
  unfold vecRun
  exact finish_issue_trap h (by simp only [ho]; rfl)

/-- An elementwise instruction writes f of its operands to every active element. -/
theorem elemwise_done {s : State} {o : VVo} {ok : Ty → Bool} {f : Ty → Nat → Nat → Nat → Nat → Nat × Flags}
    (h : canIssue s .execute 0 (vsrcs o.c) [] []) (ho : ok (vcx s).ty = true) {g : Nat → Nat × Flags}
    (hg : ∀ e, f (vcx s).ty e ((vcx s).get s o.a (vcx s).ty.bits e) (vopnd s (vcx s) o.c (srcOf s (vsrcs o.c) 0) e)
      ((vcx s).get s o.d (vcx s).ty.bits e) = g e)
    (he : endsWell s (popAll s.h (vsrcs o.c)
      ++ writeResults s (vcx s) o.d (((vcx s).active s o.mask).map fun e => (e, g e)))) :
    finish s o.form.len (elemwise s o ok f) = .next (s.after o.form.len (popAll s.h (vsrcs o.c)
      ++ writeResults s (vcx s) o.d (((vcx s).active s o.mask).map fun e => (e, g e)))) := by
  obtain rfl : (fun e => _) = g := funext hg
  exact vecRun_done h ho rfl he

/-- An elementwise instruction with one source writes f of it to every active element. -/
theorem elemwise1_done {s : State} {o : VUo} {ok : Ty → Bool} {f : Ty → Nat → Nat → Nat × Flags}
    (h : canIssue s .execute 0 [] [] []) (ho : ok (vcx s).ty = true) {g : Nat → Nat × Flags}
    (hg : ∀ e, f (vcx s).ty e ((vcx s).get s o.a (vcx s).ty.bits e) = g e)
    (he : endsWell s (writeResults s (vcx s) o.d (((vcx s).active s o.mask).map fun e => (e, g e)))) :
    finish s o.form.len (elemwise1 s o ok f) = .next (s.after o.form.len
      (writeResults s (vcx s) o.d (((vcx s).active s o.mask).map fun e => (e, g e)))) := by
  obtain rfl : (fun e => _) = g := funext hg
  exact vecRun_done (c := .v 0) h ho rfl he

end Sys2Proof.Machine
end

