-- ==== Sys2Proof/Tests/Slice0.lean ====
section
/-! SUPPORT. Sys2Proof/Tests/Slice0.lean: tests of the model. Words come from the spec's encoding tables (03 Table 3.7,
spec/opcode_table.json) and its worked statements; results of steps from the spec's rules by hand. The theorems named
`witness_<Name>` show that the premises of the obligation of that name are met, clause by clause. -/

set_option maxRecDepth 100000

open Sys2Proof Sys2Proof.Machine

namespace Sys2Proof.Tests

/- The tests are elaborated one after the other, so that few threads wait for the kernel at a time. -/
set_option Elab.async false

/-! ### Decoding -/

/-- Every word decodes to its instruction. -/
def decodes (l : List (Nat × Instr)) : Bool := l.all fun p => decide (decode [p.1] = some p.2)

theorem test_decode_scalar_arithmetic_1 : decodes
    [(0x00B28904, .add ⟨.base, .x 9, .x 10, .x 11⟩),
     (0x05245004, .sub ⟨.base, .x 16, .x 17, .x 18⟩),
     (0x09961704, .mul ⟨.base, .x 23, .x 24, .x 25⟩),
     (0x0E07DE04, .mulh ⟨.base, .x 30, .x 31, .x 32⟩),
     (0x1279A504, .mulhn ⟨.base, .x 37, .x 38, .x 39⟩),
     (0x16EB6C04, .div ⟨.base, .x 44, .x 45, .x 46⟩),
     (0x1B5D3304, .divn ⟨.base, .x 51, .x 52, .x 53⟩),
     (0x1FCEFA04, .rem ⟨.base, .x 58, .x 59, .x 60⟩),
     (0x20614404, .remn ⟨.base, .x 4, .x 5, .x 6⟩),
     (0x24D30B04, .and ⟨.base, .x 11, .x 12, .x 13⟩),
     (0x2944D204, .or ⟨.base, .x 18, .x 19, .x 20⟩),
     (0x2DB69904, .xor ⟨.base, .x 25, .x 26, .x 27⟩),
     (0x32286004, .andn ⟨.base, .x 32, .x 33, .x 34⟩),
     (0x369A2704, .shl ⟨.base, .x 39, .x 40, .x 41⟩),
     (0x3B0BEE04, .shr ⟨.base, .x 46, .x 47, .x 48⟩),
     (0x3F7DB504, .sha ⟨.base, .x 53, .x 54, .x 55⟩),
     (0x401F7C04, .rot ⟨.base, .x 60, .x 61, .x 1⟩),
     (0x4481C604, .min ⟨.base, .x 6, .x 7, .x 8⟩),
     (0x48F38D04, .max ⟨.base, .x 13, .x 14, .x 15⟩),
     (0x4D655404, .minn ⟨.base, .x 20, .x 21, .x 22⟩),
     (0x51D71B04, .maxn ⟨.base, .x 27, .x 28, .x 29⟩),
     (0x5648E204, .slt ⟨.base, .x 34, .x 35, .x 36⟩),
     (0x5ABAA904, .sltn ⟨.base, .x 41, .x 42, .x 43⟩),
     (0x5C0C7004, .clz ⟨.base, .x 48, .x 49⟩),
     (0x600E3704, .ctz ⟨.base, .x 55, .x 56⟩)] = true := by decide

theorem test_decode_scalar_arithmetic_2 : decodes
    [(0x64008104, .popc ⟨.base, .x 1, .x 2⟩),
     (0x68A24804, .sext ⟨.base, .x 8, .x 9, .x 10⟩),
     (0x6D140F04, .zext ⟨.base, .x 15, .x 16, .x 17⟩),
     (0x8985D604, .addsh 3 ⟨.base, .x 22, .x 23, .x 24⟩),
     (0x18C79D08, .addi ⟨.base, .x 29, .x 30, 396⟩),
     (0xFF99E40C, .li ⟨.base, .x 36, (-409)⟩),
     (0x2D4B2B10, .bfx ⟨.base, .x 43, .x 44, 20, 11⟩),
     (0x2D4CF214, .bfi ⟨.base, .x 50, .x 51, 20, 11⟩)] = true := by decide

theorem test_decode_control_flow : decodes
    [(0x60F5C818, .beq ⟨.base, .x 57, .x 58, 193⟩),
     (0x99081918, .bne ⟨.base, .x 3, .x 4, (-206)⟩),
     (0x6D965218, .blt ⟨.base, .x 10, .x 11, 219⟩),
     (0x8C248B18, .bge ⟨.base, .x 17, .x 18, (-232)⟩),
     (0x7AB2C418, .bltn ⟨.base, .x 24, .x 25, 245⟩),
     (0xFEC0FD18, .bgen ⟨.base, .x 31, .x 32, (-3)⟩),
     (0x0083A61C, .jal ⟨.base, .x 38, 526⟩),
     (0xFF79401C, .j ⟨.base, (-539)⟩),
     (0x228D7420, .jr ⟨.base, .x 52, .x 53, 552⟩),
     (0x03DF3B24, .jtab ⟨.base, .x 59, .x 60, .x 61⟩),
     (0x04000024, .loopbrk .base),
     (0x9C403228, .loop ⟨.base, 2, .x 12, 40000⟩),
     (0x0025C62C, .brqNz ⟨.base, 6, 604⟩),
     (0xFFD97F2C, .brqZ ⟨.base, 7, (-617)⟩)] = true := by decide

theorem test_decode_scalar_memory : decodes
    [(0x3C08A130, .ldb ⟨.base, .x 33, .x 34, 120⟩),
     (0xBD9A6830, .ldh ⟨.base, .x 40, .x 41, (-133)⟩),
     (0x492C2F30, .ldw ⟨.base, .x 47, .x 48, 146⟩),
     (0xB0BDF630, .ldd ⟨.base, .x 54, .x 55, (-159)⟩),
     (0x56407D30, .ldbn ⟨.base, .x 61, .x 1, 172⟩),
     (0xA3D20730, .ldhn ⟨.base, .x 7, .x 8, (-185)⟩),
     (0x6363CE30, .ldwn ⟨.base, .x 14, .x 15, 198⟩),
     (0x96F58230, .pref ⟨.base, 2, .x 22, (-211)⟩),
     (0x70075C34, .stb ⟨.base, .x 28, .x 29, 224⟩),
     (0x89992334, .sth ⟨.base, .x 35, .x 36, (-237)⟩),
     (0x7D2AEA34, .stw ⟨.base, .x 42, .x 43, 250⟩),
     (0xFC3CB134, .std ⟨.base, .x 49, .x 50, (-8)⟩),
     (0x0000F838, .qpeek ⟨.base, .x 56, 3⟩),
     (0x0400C238, .qcnt ⟨.base, .x 2, 3⟩)] = true := by decide

theorem test_decode_atomics : decodes
    [(0x40B2893C, .amoadd ⟨.base, .hall, .x 9, .x 10, .x 11⟩),
     (0x6524503C, .amoand ⟨.base, .floor, .x 16, .x 17, .x 18⟩),
     (0x8996173C, .amoor ⟨.base, .dev, .x 23, .x 24, .x 25⟩),
     (0xAE07DE3C, .amoxor ⟨.base, .sys, .x 30, .x 31, .x 32⟩),
     (0x1279A53C, .amomin ⟨.base, .hart, .x 37, .x 38, .x 39⟩),
     (0x36EB6C3C, .amomax ⟨.base, .core, .x 44, .x 45, .x 46⟩),
     (0x5B5D333C, .amominn ⟨.base, .hall, .x 51, .x 52, .x 53⟩),
     (0x7FCEFA3C, .amomaxn ⟨.base, .floor, .x 58, .x 59, .x 60⟩),
     (0x80614440, .amoswp ⟨.base, .dev, .x 4, .x 5, .x 6⟩),
     (0xA4D30B40, .amocas ⟨.base, .sys, 11, .x 12, .x 13⟩),
     (0x0804D240, .lda ⟨.base, .hart, .x 18, .x 19⟩),
     (0x2C069940, .stl ⟨.base, .core, .x 25, .x 26⟩)] = true := by decide

theorem test_decode_synchronisation : decodes
    [(0x00009944, .fence ⟨.base, .hall, true, false, false, true, true⟩),
     (0x04014044, .vsync .base .sys),
     (0x0AE10044, .bari ⟨.base, 4, .x 46⟩),
     (0x0C117544, .bara ⟨.base, .x 53, 5, true⟩),
     (0x13C18044, .barw ⟨.base, 6, .x 60⟩),
     (0x1411C644, .barr ⟨.base, .x 6, 7, true⟩),
     (0x18D00044, .barx ⟨.base, 0, .x 13⟩),
     (0x1D655444, .waitm ⟨.base, .x 20, .x 21, .x 22, 0⟩)] = true := by decide

theorem test_decode_system : decodes
    [(0x0006C048, .trap ⟨.base, .x 27⟩),
     (0x04000048, .eret .base),
     (0x080AA948, .idle ⟨.base, .x 41, .x 42⟩),
     (0x0C003048, .rdgtc ⟨.base, .x 48⟩),
     (0x100E3748, .feat ⟨.base, .x 55, .x 56⟩),
     (0x14000048, .yield .base),
     (0x18020048, .gexit ⟨.base, .x 8⟩),
     (0x28500F4C, .gets ⟨.base, .x 15, 0x285⟩),
     (0x01258050, .sets ⟨.base, .x 22, 0x12⟩),
     (0x01275E54, .swaps ⟨.base, .x 30, .x 29, 0x12⟩),
     (0x00003558, .mod ⟨5, 2, true⟩),
     (0x02CAC05C, .tlbinv ⟨.base, .x 43, .x 44⟩),
     (0x073C805C, .cinv ⟨.base, .x 50, .x 51⟩),
     (0x0BAE405C, .cwb ⟨.base, .x 57, .x 58⟩),
     (0x0C0BC45C, .keyz ⟨4, 47⟩),
     (0x100C0B5C, .scrub ⟨11, 48⟩),
     (0x1534915C, .rlsetWriteEntry ⟨.base, 17, 18, .x 19⟩),
     (0x000C9960, .launch ⟨25, 50⟩),
     (0x04006060, .launchi ⟨32, 1⟩)] = true := by decide

theorem test_decode_engines : decodes
    [(0x0000A764, .cpya ⟨39, 2⟩),
     (0x0400EE64, .cpyw ⟨46, 3⟩),
     (0x08013564, .cpyx ⟨53, 4⟩),
     (0x0C017C64, .gath ⟨60, 5⟩),
     (0x10018664, .scred ⟨6, 6⟩),
     (0x14030664, .epush ⟨.base, 6, .x 12⟩),
     (0x1800D364, .epop ⟨.base, .x 19, 3⟩),
     (0x1C025B64, .fwalk ⟨27, 9⟩),
     (0x2002A264, .stmap ⟨34, 10⟩),
     (0x2402E964, .stunmap ⟨41, 11⟩),
     (0x28033064, .stflush ⟨48, 12⟩),
     (0x00044368, .shinit 3 17),
     (0x04000268, .shclr 2),
     (0x0800C768, .shcnt ⟨.base, .x 7, 3⟩),
     (0x0C084168, .cmarm .base 1 33),
     (0x10054368, .cmref ⟨.base, 3, .x 21⟩),
     (0x14100268, .cmchk .base 2 true),
     (0x1A406368, .cmrd ⟨.base, .x 35, 1, .x 36⟩),
     (0x1C000268, .cmoff .base 2),
     (0x20057268, .stepa ⟨50, 21⟩),
     (0x2405B968, .stepo ⟨57, 22⟩),
     (0x2800C268, .epver ⟨.base, .x 2, .x 3⟩),
     (0x2C028968, .epret ⟨.base, .x 9, .x 10⟩),
     (0x30040068, .scommit ⟨.base, .x 16⟩),
     (0x34000068, .sabort .base)] = true := by decide

theorem test_decode_vector_configuration : decodes
    [(0x01F01E80, .vsetl ⟨.base, .x 30, .x 31⟩),
     (0x06602580, .vsett ⟨.base, .x 37, .x 38⟩),
     (0x0AEB6C80, .vsetm ⟨.base, .x 44, .x 45, .x 46⟩),
     (0x0C003380, .vgetg ⟨.base, .x 51⟩)] = true := by decide

theorem test_decode_vector_memory : decodes
    [(0x41BD9F84, .vld ⟨.base, (.mk 2), 7, .x 59, 13, .floor⟩),
     (0x6A42AB84, .vldf ⟨.base, (.mk 3), 10, .x 5, 18, .floor⟩),
     (0x10063784, .vldh ⟨.base, .none, 13, .x 12, 0, .floor⟩),
     (0xA389C184, .vlds ⟨.base, (.mk 5), 16, .x 19, 28, .floor⟩),
     (0xC02D4C84, .vldx ⟨.base, (.mk 6), 19, .x 26, 1, .floor⟩),
     (0xE0D0DB88, .vst ⟨.base, (.mk 7), 22, .x 33, 6, .floor⟩),
     (0x09746788, .vstq ⟨.base, .none, 25, .x 40, 11, .floor⟩),
     (0x1017F388, .vsth ⟨.base, .none, 28, .x 47, 0, .floor⟩),
     (0x42BB7D88, .vsts ⟨.base, (.mk 2), 31, .x 54, 21, .floor⟩),
     (0x635E8888, .vstx ⟨.base, (.mk 3), 2, .x 61, 26, .floor⟩),
     (0x8BE39488, .vstxo ⟨.base, (.mk 4), 5, .x 7, 31, .floor⟩)] = true := by decide

theorem test_decode_vector_integer : decodes
    [(0xA089208C, .vadd ⟨.base, (.mk 5), 8, 9, (.v 4)⟩),
     (0xC92C2D8C, .vsub ⟨.base, (.mk 6), 11, 12, (.s (.x 9))⟩),
     (0xF74F3A8C, .vmul ⟨.base, (.mk 7), 14, 15, (.i (-6))⟩),
     (0x1A72448C, .vmulh ⟨.base, .none, 17, 18, (.v 19)⟩),
     (0x23155190, .vmac ⟨.base, (.mk 1), 20, 21, (.s (.x 24))⟩),
     (0x4D785E90, .vmin ⟨.base, (.mk 2), 23, 24, (.i (-21))⟩),
     (0x705B6890, .vmax ⟨.base, (.mk 3), 26, 27, (.v 2)⟩),
     (0x9CFE7590, .vminn ⟨.base, (.mk 4), 29, 30, (.s (.x 39))⟩),
     (0xA7610294, .vmaxn ⟨.base, (.mk 5), 0, 1, (.i (-5))⟩),
     (0xCA240C94, .vand ⟨.base, (.mk 6), 3, 4, (.v 17)⟩),
     (0xF6C71994, .vor ⟨.base, (.mk 7), 6, 7, (.s (.x 54))⟩),
     (0x1D8A2694, .vxor ⟨.base, .none, 9, 10, (.i (-20))⟩),
     (0x200D3098, .vshl ⟨.base, (.mk 1), 12, 13, (.v 0)⟩),
     (0x48B03D98, .vshr ⟨.base, (.mk 2), 15, 16, (.s (.x 5))⟩),
     (0x77934A98, .vsha ⟨.base, (.mk 3), 18, 19, (.i (-4))⟩),
     (0x98165798, .vabs ⟨.base, (.mk 4), 21, 22⟩),
     (0xA299619C, .vsadd ⟨.base, (.mk 5), 24, 25, (.s (.x 20))⟩),
     (0xCDBC6E9C, .vssub ⟨.base, (.mk 6), 27, 28, (.i (-19))⟩)] = true := by decide

theorem test_decode_vector_float : decodes
    [(0xE3DF78A0, .vfadd ⟨.base, (.mk 7), 30, 31, (.v 30)⟩),
     (0x0C6205A0, .vfsub ⟨.base, .none, 1, 2, (.s (.x 35))⟩),
     (0x37A512A0, .vfmul ⟨.base, (.mk 1), 4, 5, (.i (-3))⟩),
     (0x59A81CA0, .vfma ⟨.base, (.mk 2), 7, 8, (.v 13)⟩),
     (0x664B29A4, .vfnma ⟨.base, (.mk 3), 10, 11, (.s (.x 50))⟩),
     (0x8DCE36A4, .vfdiv ⟨.base, (.mk 4), 13, 14, (.i (-18))⟩),
     (0xB39140A4, .vfmin ⟨.base, (.mk 5), 16, 17, (.v 28)⟩),
     (0xD8344DA4, .vfmax ⟨.base, (.mk 6), 19, 20, (.s (.x 1))⟩),
     (0xE0175BA8, .vfsqrt ⟨.base, (.mk 7), 22, 23⟩),
     (0x081A67A8, .vfrece ⟨.base, .none, 25, 26⟩),
     (0x301D73A8, .vfabs ⟨.base, (.mk 1), 28, 29⟩),
     (0x58007FA8, .vfneg ⟨.base, (.mk 2), 31, 0⟩),
     (0x60030BAC, .vfclass ⟨.base, (.mk 3), 2, 3⟩),
     (0x880617AC, .vfexp2 ⟨.base, (.mk 4), 5, 6⟩),
     (0xB0C923AC, .vfrcpp ⟨.base, (.mk 5), 8, 9, 6⟩)] = true := by decide

theorem test_decode_masks : decodes
    [(0xC12C9CB0, .vcmp ⟨.base, (.mk 6), .ltn, 7, 12, (.v 9)⟩),
     (0xEDCFC1B0, .vfcmp ⟨.base, (.mk 7), .un, 0, 15, (.s (.x 46))⟩),
     (0x00C304B4, .mand ⟨.base, 1, 3, 6⟩),
     (0x08E408B4, .mor ⟨.base, 2, 4, 7⟩),
     (0x10050CB4, .mxor ⟨.base, 3, 5, 0⟩),
     (0x180713B4, .mnot .base 4 7),
     (0x8006ABB8, .mpopc ⟨.base, (.mk 4), .x 42, 6⟩),
     (0xA807C7B8, .mfirst ⟨.base, (.mk 5), .x 49, 7⟩),
     (0x12201DB8, .vmset ⟨.base, 7, (.s (.x 17))⟩),
     (0xF8011BB8, .viota ⟨.base, (.mk 7), 6, 1⟩)] = true := by decide

theorem test_decode_conversions : decodes
    [(0x01CA27BC, .vcvt ⟨.base, .none, 9, 10, .e2m1⟩),
     (0x29ED33BC, .vnarrow ⟨.base, (.mk 1), 12, 13, .sb4⟩),
     (0x4E103FBC, .vnarrowChain ⟨.base, (.mk 2), 15, 16, .sb8⟩),
     (0x70134BBC, .vftoi ⟨.base, (.mk 3), 18, 19, .i4⟩),
     (0x983657BC, .vitof ⟨.base, (.mk 4), 21, 22, .i8⟩)] = true := by decide

theorem test_decode_moves : decodes
    [(0xA29962C0, .vslideup ⟨.base, (.mk 5), 24, 25, (.i 20)⟩),
     (0xCF3C6DC0, .vslidedn ⟨.base, (.mk 6), 27, 28, (.s (.x 57))⟩),
     (0xF3DF78C0, .vperm ⟨.base, (.mk 7), 30, 31, (.v 30)⟩),
     (0xB80207C0, .vcompr ⟨.base, (.mk 5), 1, 2⟩),
     (0xA00513C4, .vexpand ⟨.base, (.mk 5), 4, 5⟩),
     (0x4A601FC4, .vidxc ⟨.base, (.mk 2), 7, 19⟩),
     (0x77A02AC4, .vbcast ⟨.base, (.mk 3), 10, .i (-3)⟩),
     (0x1AEE81C4, .vextr ⟨.base, .x 32, 14, (.s (.x 23))⟩),
     (0x050041C8, .vins ⟨.base, 16, .x 40, 0⟩),
     (0xCC344DC8, .stxs ⟨.base, (.mk 6), 19, 20, (.s (.x 33))⟩),
     (0xF0D75AC8, .stxw ⟨.base, (.mk 7), 22, 23, (.i 6)⟩)] = true := by decide

theorem test_decode_reductions : decodes
    [(0x017A64CC, .vredadd ⟨.base, .none, 25, 26, (.v 11)⟩),
     (0x2A1D70CC, .vredaddo ⟨.base, (.mk 1), 28, 29, (.v 16)⟩),
     (0x52A07CCC, .vredmax ⟨.base, (.mk 2), 31, 0, (.v 21)⟩),
     (0x7B4308CC, .vredmin ⟨.base, (.mk 3), 2, 3, (.v 26)⟩),
     (0x83E614D0, .vfredadd ⟨.base, (.mk 4), 5, 6, (.v 31)⟩),
     (0xA88920D0, .vfredaddo ⟨.base, (.mk 5), 8, 9, (.v 4)⟩),
     (0xD12C2CD0, .vfredmax ⟨.base, (.mk 6), 11, 12, (.v 9)⟩),
     (0xF9CF38D0, .vfredmin ⟨.base, (.mk 7), 14, 15, (.v 14)⟩)] = true := by decide

theorem test_decode_aftermath : decodes
    [(0x02670DD4, .afdef ⟨.base, .none, 7, 3, (.s (.x 19))⟩),
     (0x0B1552D4, .afpop ⟨.base, 20, 21, (.i 24)⟩),
     (0x13A021D4, .afcnt ⟨.base, .x 8, some (.s (.x 29))⟩),
     (0x78066BD4, .epopv ⟨.base, (.mk 3), 26, 6⟩)] = true := by decide

theorem test_decode_sheaves : decodes
    [(0x801D0BD8, .shpush ⟨.base, (.mk 4), 29, 2⟩),
     (0xA8000BD8, .shins ⟨.base, (.mk 5), 0, 2⟩),
     (0x10030FD8, .shpopb .base 3 3)] = true := by decide

theorem test_decode_matrix_unit : decodes
    [(0x059580DC, .tmatt ⟨.base, .x 43, .x 44⟩),
     (0x080000DC, .tmdet .base),
     (0x101C80DC, .tmalg ⟨.base, .x 57⟩),
     (0x180180DC, .tmalgs ⟨.base, .x 3⟩),
     (0x200054DC, .tmzero .base 21),
     (0x2A25A6DC, .tmop ⟨.base, 9, 11, 0, .x 17, false, true⟩),
     (0x301425DC, .tmrun ⟨.base, 9, 40, true, false⟩),
     (0x3BE524DC, .tmrd ⟨.base, 9, 10, .x 31, 0⟩),
     (0x44C524DC, .tmwr ⟨.base, 9, 10, .x 38⟩),
     (0x4816C4DC, .tmwait ⟨.base, .x 45, 17⟩),
     (0x501A44DC, .tmstat ⟨.base, .x 52, 17⟩)] = true := by decide
/-! Literal, extended and long forms, from 03 Table 3.2 to 3.5 and the worked statements. -/

theorem test_decode_forms :
    decode [0x0000040D, 0xFFFFFFF0, 0x7FFFFFFF] = some (.li ⟨.lit, .x 4, 0x7FFFFFFFFFFFFFF0⟩)
    ∧ decode [0x0001C006, 0x40, 0] = some (.add ⟨.ext, .q 0, .x 7, .x 0⟩)
    ∧ decode [0x6A000C0A, 0x00180000, 0] = some (.addi ⟨.ext, .x 12, .x 0, 100000⟩)
    ∧ decode [0x29600BC4] = some (.vidxc ⟨.base, .mk 1, 2, 11⟩)
    ∧ decode [0x00011A44] = some (.fence ⟨.base, .dev, false, true, false, true, true⟩)
    ∧ decode [0x04000026, 0, 0] = some (.loopbrk .ext) ∧ decode [0x04000026, 1, 0] = none
    ∧ decode [0x080000DE, 0, 0] = some (.tmdet .ext) ∧ decode [0x00C304B6, 0, 0] = some (.mand ⟨.ext, 1, 3, 6⟩) := by decide

/-- Reserved encodings are refused (R68, R69, R70): an opcode of no row, a reserved field, a queue flag on no operand,
a branch funct of no row, a reserved rounding mode. -/
theorem test_decode_refuses :
    decode [0xFFFFFFFC] = none ∧ decode [0x04000148] = none ∧ decode [0x0001C006, 0x10000, 0] = none
    ∧ decode [0x00000618] = none ∧ decode [0x00000758] = none ∧ decode [0x00001858] = none ∧ decode [] = none := by decide

/-! ### Well-formedness: one ill-formed term for each check -/

/-- Scalar forms. -/
theorem test_wf_scalar :
    (Instr.add ⟨.base, .x 64, .x 0, .x 0⟩).wf = false ∧ (Instr.add ⟨.base, .q 0, .x 0, .x 0⟩).wf = false
    ∧ (Instr.add ⟨.ext, .q 8, .x 0, .x 0⟩).wf = false ∧ (Instr.add ⟨.base, .x 0, .imm 0, .x 0⟩).wf = false
    ∧ (Instr.add ⟨.base, .x 0, .x 0, .imm 0⟩).wf = false ∧ (Instr.add ⟨.lit, .x 0, .x 0, .x 0⟩).wf = false
    ∧ (Instr.clz ⟨.lit, .x 0, .x 0⟩).wf = false ∧ (Instr.addsh 0 ⟨.base, .x 0, .x 0, .x 0⟩).wf = false
    ∧ (Instr.addsh 5 ⟨.base, .x 0, .x 0, .x 0⟩).wf = false ∧ (Instr.addi ⟨.base, .x 0, .x 0, 2048⟩).wf = false
    ∧ (Instr.addi ⟨.ext, .x 0, .x 0, 2 ^ 27⟩).wf = false ∧ (Instr.li ⟨.base, .x 0, 2 ^ 17⟩).wf = false
    ∧ (Instr.bfx ⟨.base, .x 0, .x 0, 60, 4⟩).wf = false ∧ (Instr.bfx ⟨.base, .x 0, .x 0, 64, 0⟩).wf = false
    ∧ (Instr.bfi ⟨.ext, .q 0, .x 0, 0, 0⟩).wf = false ∧ (Instr.beq ⟨.base, .x 0, .x 0, 256⟩).wf = false
    ∧ (Instr.beq ⟨.lit, .x 0, .x 0, 2⟩).wf = false ∧ (Instr.beq ⟨.base, .imm 0, .x 0, 0⟩).wf = false
    ∧ (Instr.jal ⟨.base, .x 0, 0⟩).wf = false ∧ (Instr.j ⟨.base, 2 ^ 17⟩).wf = false
    ∧ (Instr.loop ⟨.base, 4, .x 0, 0⟩).wf = false ∧ (Instr.loop ⟨.base, 0, .x 0, 2 ^ 16⟩).wf = false
    ∧ (Instr.brqZ ⟨.base, 8, 0⟩).wf = false ∧ (Instr.ldd ⟨.base, .x 0, .x 0, -257⟩).wf = false
    ∧ (Instr.std ⟨.base, .x 64, .x 0, 0⟩).wf = false ∧ (Instr.pref ⟨.base, 3, .x 0, 0⟩).wf = false
    ∧ (Instr.qcnt ⟨.base, .x 0, 8⟩).wf = false ∧ (Instr.gets ⟨.base, .x 0, 2⟩).wf = false
    ∧ (Instr.mod ⟨7, 0, false⟩).wf = false ∧ (Instr.mod ⟨0, 3, false⟩).wf = false := by decide

/-- Atomics, barriers, system and engine forms. -/
theorem test_wf_units :
    (Instr.amocas ⟨.base, .dev, 64, .x 0, .x 0⟩).wf = false ∧ (Instr.stl ⟨.lit, .dev, .x 0, .x 0⟩).wf = false
    ∧ (Instr.waitm ⟨.base, .x 0, .x 0, .x 0, 1⟩).wf = false ∧ (Instr.bara ⟨.base, .x 0, 8, false⟩).wf = false
    ∧ (Instr.bari ⟨.base, 8, .x 0⟩).wf = false ∧ (Instr.tlbinv ⟨.ext, .x 0, .x 0⟩).wf = false
    ∧ (Instr.rlsetSwitch ⟨.base, 0, 0, .x 0⟩).wf = false ∧ (Instr.rlsetWriteEntry ⟨.base, 64, 0, .x 0⟩).wf = false
    ∧ (Instr.cpya ⟨0, 0⟩).wf = false ∧ (Instr.cpya ⟨0, 61⟩).wf = false ∧ (Instr.gath ⟨64, 1⟩).wf = false
    ∧ (Instr.epush ⟨.ext, 0, .x 0⟩).wf = false ∧ (Instr.epush ⟨.base, 8, .x 0⟩).wf = false
    ∧ (Instr.epop ⟨.ext, .x 0, 0⟩).wf = false ∧ (Instr.shinit 4 1).wf = false ∧ (Instr.shcnt ⟨.base, .x 0, 4⟩).wf = false
    ∧ (Instr.cmarm .base 0 61).wf = false ∧ (Instr.cmchk .base 4 false).wf = false ∧ (Instr.illegalInstruction).wf = false := by decide

/-- Vector and matrix forms. -/
theorem test_wf_vector :
    (Instr.vadd ⟨.base, .mk 0, 0, 0, .v 0⟩).wf = false ∧ (Instr.vadd ⟨.base, .xm 0, 0, 0, .v 0⟩).wf = false
    ∧ (Instr.vadd ⟨.base, .none, 32, 0, .v 0⟩).wf = false ∧ (Instr.vadd ⟨.base, .none, 0, 0, .i 32⟩).wf = false
    ∧ (Instr.vadd ⟨.lit, .none, 0, 0, .v 0⟩).wf = false ∧ (Instr.vperm ⟨.base, .none, 0, 0, .s (.x 0)⟩).wf = false
    ∧ (Instr.vbcast ⟨.base, .none, 0, .v 0⟩).wf = false ∧ (Instr.stxs ⟨.base, .none, 0, 0, .i (-1)⟩).wf = false
    ∧ (Instr.vcompr ⟨.base, .none, 0, 0⟩).wf = false ∧ (Instr.vins ⟨.base, 0, .x 0, 1⟩).wf = false
    ∧ (Instr.vld ⟨.base, .none, 0, .x 0, 64, .floor⟩).wf = false ∧ (Instr.vld ⟨.base, .none, 0, .x 0, 0, .dev⟩).wf = false
    ∧ (Instr.vldh ⟨.base, .mk 1, 0, .x 0, 0, .floor⟩).wf = false ∧ (Instr.vst ⟨.ext, .none, 0, .x 0, 0, .sys⟩).wf = false
    ∧ (Instr.afdef ⟨.base, .none, 30, 3, .i 0⟩).wf = false ∧ (Instr.afdef ⟨.base, .none, 0, 5, .i 0⟩).wf = false
    ∧ (Instr.epopv ⟨.ext, .none, 0, 0⟩).wf = false ∧ (Instr.mnot .base 8 0).wf = false ∧ (Instr.tmzero .base 32).wf = false
    ∧ (Instr.tmrd ⟨.base, 0, 1, .x 0, 0⟩).wf = false ∧ (Instr.tmrun ⟨.base, 0, 57, false, false⟩).wf = false := by decide

/-! ### Witnesses -/

/-- The access strand of the reeve hart right after reset, and the execute strand beside it. -/
def A : State := State.reset
def X : State := { A with cur := 7 }
/-- A hart of user privilege: strands 0 and 1. -/
def U : State := { A with cur := 0 }
/-- The state in which the strand that moves has registers `x`. -/
def withX (s : State) (x : Tab Word) : State :=
  { s with strands := tput s.strands s.cur { s.me with x := x } }
def withStrand (s : State) (f : Strand → Strand) : State := { s with strands := tput s.strands s.cur (f s.me) }
def withHart (s : State) (f : Hart → Hart) : State := { s with harts := tput s.harts s.h (f s.myHart) }
def withCore (s : State) (f : Core → Core) : State := { s with cores := tput s.cores s.c (f s.myCore) }
/-- Memory that holds words from address 0 on. -/
def words (a : Nat) (ws : List Nat) : Tab Byte := writeBytes [] a (ws.flatMap (leBytes 4))
/-- A computation answers. -/
def good {ε α : Type} : Except ε α → Bool
  | .ok _ => true
  | .error _ => false
/-- A computation answers, and its answer meets p. -/
def onOk {ε α : Type} (e : Except ε α) (p : α → Bool) : Bool :=
  match e with
  | .ok a => p a
  | .error _ => false
/-- A translation answers, of a cacheable page, with no stash or error in the way. -/
def plainAt (s : State) (e : Except XlErr (Xl × Run)) : Bool :=
  onOk e fun x => x.1.cp == 0 && !stashBad s s.c x.1 && !meetsBad x.2.s x.1.loc 8

/-- A scalar state: x1 and x2 hold operands; queue q4 holds two entries for the access strand. -/
def A1 : State := withHart (withX A [(1, 5), (2, 7)]) fun h => { h with q := [(4, [3, 4])] }

theorem witness_ScalarArithmetic :
    canIssue A1 .both 0 [.x 1, .x 2] [.x 3] [] ∧ canIssue A1 .both 0 [.q 4, .q 4] [.q 0] []
    ∧ endsWell A1 (writes A1 [.q 4, .q 4] (.q 0) 7) := by unfold canIssue endsWell; decide

theorem witness_DivisionAndShiftDefaults :
    canIssue A1 .both 0 [.x 1, .x 0] [.x 3] [] ∧ A1.me.pfx = none ∧ endsWell A1 (writes A1 [.x 1, .x 0] (.x 3) 0) := by
  unfold canIssue endsWell; decide

theorem witness_ScalarLogicAndShifts :
    canIssue A1 .both 0 [.x 1, .x 2] [.x 0] [] ∧ canIssue A1 .both 0 [.q 4] [.x 63] []
    ∧ endsWell A1 (writes A1 [.q 4] (.x 63) 1) := by unfold canIssue endsWell; decide

theorem witness_ImmediatesAndBitFields :
    canIssue A1 .both 0 [.x 1] [.x 3] [] ∧ canIssue A1 .both 0 [] [.q 0] []
    ∧ (Instr.bfx ⟨.base, .x 3, .x 1, 63, 0⟩).wf = true ∧ (Instr.bfi ⟨.base, .x 3, .x 1, 0, 63⟩).wf = true
    ∧ canIssue A1 .both 0 [.x 3, .x 1] [.x 3] [] ∧ endsWell A1 (writes A1 [.x 3, .x 1] (.x 3) 0) := by
  unfold canIssue endsWell; decide

theorem witness_ScalarFrame :
    (∀ l ∈ A1.me.loops, l.start.toNat % 4 = 0) ∧ canIssue A1 .both 0 [.x 1, .x 2] [.x 3] []
    ∧ (∃ t, exec (.add ⟨.base, .x 3, .x 1, .x 2⟩) A1 = .next t) ∧ (∃ t, exec (.clz ⟨.base, .x 3, .x 1⟩) A1 = .next t)
    ∧ (∃ t, exec (.addi ⟨.base, .x 3, .x 1, -1⟩) A1 = .next t) ∧ (∃ t, exec (.li ⟨.base, .x 3, -1⟩) A1 = .next t)
    ∧ ∃ t, exec (.bfx ⟨.base, .x 3, .x 1, 0, 7⟩) A1 = .next t := by
  refine ⟨by decide, by unfold canIssue; decide, ⟨_, rfl⟩, ⟨_, rfl⟩, ⟨_, rfl⟩, ⟨_, rfl⟩, ⟨_, rfl⟩⟩

/-- Branch conditions that hold and fail, a funct that no row has, a target on a word and one that is not. -/
theorem witness_ConditionalBranches :
    Sys2Proof.fld 0x618 2 6 = 0x06 ∧ 6 ≤ Sys2Proof.fld 0x618 8 3
    ∧ canIssue A1 .both 0 [.x 1, .x 2] [] [] ∧ (srcOf A1 [.x 1, .x 2] 0).slt (srcOf A1 [.x 1, .x 2] 1) = true
    ∧ (srcOf A1 [.x 1, .x 2] 0 == srcOf A1 [.x 1, .x 2] 1) = false
    ∧ (A1.me.pc + wrap (-2) * 4).toNat % 4 = 0 ∧ (A1.me.pc + wrap 6).toNat % 4 ≠ 0
    ∧ endsWell A1 (popAll A1.h [.x 1, .x 2]) := by unfold canIssue endsWell; decide

/-- A jump table at 16 with two entries, 64 and 65, and a register 1 that points at it. -/
def AJ : State := { withX A [(1, 16), (2, 1)] with mem := words 16 [1, 0, 64, 0, 65, 0] }

theorem witness_JumpsAndTables :
    canIssue AJ .both 0 [] [.x 3] [] ∧ canIssue AJ .both 0 [] [] [] ∧ canIssue AJ .both 0 [.x 1] [.x 3] []
    ∧ (AJ.me.pc + wrap 5 * 4).toNat % 4 = 0 ∧ (AJ.me.pc + wrap 6).toNat % 4 ≠ 0
    ∧ (srcOf AJ [.x 1] 0 + wrap 4).toNat % 4 = 0 ∧ (srcOf AJ [.x 1] 0 + wrap 1).toNat % 4 ≠ 0
    ∧ canIssue AJ .both 0 [.x 1, .x 0] [.x 3] []
    ∧ (onOk (scalarLoad AJ 16 8 (Run.start AJ)) fun n => word64 n.1 == 1
        && onOk (scalarLoad AJ 24 8 n.2) (fun e => (word64 e.1).toNat % 4 == 0)
        && onOk (scalarLoad AJ 32 8 n.2) (fun e => (word64 e.1).toNat % 4 != 0)) = true := by unfold canIssue; decide

/-- Loop 0 from 4 to 8 is active, within loop 1 from 0 to 12; counters 1 and 2; q0 heads a nonzero entry, q1 a zero. -/
def XL : State := withHart (withStrand { X with mem := words 0 [0x48, 0x48, 0x48, 0x48, 0x00002958] } fun st =>
    { st with pc := 8, lc := [(0, 1), (1, 2)], loops := [⟨0, 4, 8⟩, ⟨1, 0, 12⟩], x := [(4, 3)] })
  fun h => { h with q := [(0, [9]), (1, [0])] }

theorem witness_LoopsAndQueueBranches :
    canIssue XL .both 0 [.x 4] [] [] ∧ srcOf XL [.x 4] 0 ≠ 0 ∧ canIssue XL .both 0 [.x 0] [] [] ∧ srcOf XL [.x 0] 0 = 0
    ∧ good (afterEnd (Run.start XL) XL.h 12).1 = true ∧ good (afterEnd (Run.start XL) XL.h 0x0100000000000000).1 = false
    ∧ good (afterEnd (Run.start XL) XL.h 8).1 = true
    ∧ canIssue XL .both 0 [] [] [] ∧ X.me.loops = [] ∧ XL.me.loops ≠ []
    ∧ canIssue XL .both 0 [.q 0] [] [] ∧ srcOf XL [.q 0] 0 ≠ 0 ∧ canIssue XL .both 0 [.q 1] [] [] ∧ srcOf XL [.q 1] 0 = 0
    ∧ XL.bad = [] ∧ endsWell XL (popAll XL.h [.q 1]) := by unfold canIssue endsWell; decide

theorem witness_LoopEnds :
    (XL.strand 7).loops = ⟨0, 4, 8⟩ :: [⟨1, 0, 12⟩] ∧ (8 : Word) = (XL.strand 7).pc ∧ tget 0 (XL.strand 7).lc 0 - 1 = (0 : Word)
    ∧ (∀ m ∈ ([⟨1, 0, 12⟩] : List Loop).head?, m.stop ≠ (XL.strand 7).pc ∧ m.stop ≠ (XL.strand 7).pc - 4)
    ∧ (let s := withStrand XL fun st => { st with lc := [(0, 2)], pfx := some ⟨1, 0, false⟩, pc := 12 }
      (8 : Word) = (s.strand 7).pc - 4 ∧ tget 0 (s.strand 7).lc 0 - 1 ≠ (0 : Word)) := by decide

theorem witness_ScalarLoads :
    canIssue AJ .both 0 [.x 1] [.x 3] [] ∧ canonical (srcOf AJ [.x 1] 0 + wrap 0 * 8).toNat = true
    ∧ (srcOf AJ [.x 1] 0 + wrap 0 * 8).toNat % 8 = 0 ∧ (srcOf AJ [.x 1] 0 + wrap (-1)).toNat % 1 = 0
    ∧ (srcOf AJ [.x 1] 0 + wrap 255 * 2).toNat % 2 = 0 ∧ (srcOf AJ [.x 1] 0 + wrap (-4) * 4).toNat % 4 = 0
    ∧ onOk (translate (Run.start AJ) (spaceOf AJ AJ.h) 16 0) (fun x => !meetsBad x.2.s x.1.loc 8) = true
    ∧ canIssue AJ .both 0 [.x 1] [] [] ∧ endsWell AJ [] := by unfold canIssue endsWell; decide

/-- A store to 16, to the misaligned 17 and to a non-canonical address. -/
theorem witness_ScalarStores :
    canIssue AJ .both 0 [.x 2, .x 1] [] [] ∧ canonical (srcOf AJ [.x 2, .x 1] 1).toNat = true
    ∧ (srcOf AJ [.x 2, .x 1] 1 + wrap 0 * 8).toNat % 8 = 0 ∧ (srcOf AJ [.x 2, .x 1] 1 + wrap 1).toNat % 8 ≠ 0
    ∧ canonical (srcOf AJ [.x 2, .x 1] 1 + wrap (2 ^ 56)).toNat = false
    ∧ good (translate (Run.start AJ) (spaceOf AJ AJ.h) 16 1) = true
    ∧ stripMeets [⟨.mem 16 16 none, [0, 0], 0, true, [], 0⟩] (.mem 16 16 none) 8 = true
    ∧ fillLine (AJ.core AJ.c) (.mem 16 16 none) 8 = none ∧ fillLine (AJ.core AJ.c) (.mem 64 64 none) 2 = some (.mem 64 64 none)
    ∧ badIn { AJ with bad := [5, 79] } (.mem 64 64 none) 64 = some 79 ∧ badIn AJ (.mem 64 64 none) 64 = none
    ∧ AJ.holds = false ∧ ({ X with choice := { hold := true } } : State).holds = true
    ∧ ({ U with choice := { hold := true } } : State).holds = true ∧ canIssue { X with choice := { hold := true } } .both 0 [.x 2, .x 1] [] []
    ∧ endsWell AJ [] := by unfold canIssue endsWell; decide

theorem witness_StoreFrame :
    canIssue AJ .both 0 [.x 2, .x 1] [] [] ∧ (srcOf AJ [.x 2, .x 1] 1 + wrap 0 * 8).toNat % 8 = 0
    ∧ (onOk (translate (Run.start AJ) (spaceOf AJ AJ.h) 16 1)
        fun x => (match x.1.loc with | .mem _ 16 none => true | _ => false) && frameAttr x.2.s 0 != some true) = true
    ∧ AJ.unheld ∧ (AJ.myHart.heldBy AJ.cur = [] ∧ AJ.holds = false ∧ fillLine (AJ.core AJ.c) (.mem 16 16 none) 8 = none) ∧ AJ.loopsAligned ∧ ∃ t, exec (.std ⟨.base, .x 2, .x 1, 0⟩) AJ = .next t := by
  refine ⟨by unfold canIssue; decide, by decide, by decide, ⟨by decide, by decide⟩, by decide, by unfold State.loopsAligned; decide, ⟨_, rfl⟩⟩

theorem witness_PlainReads : AJ.unheld := ⟨by decide, by decide⟩

theorem witness_QueueInspection :
    canIssue XL .both 0 [] [.x 3] [] ∧ qReader 0 = XL.cur % 2 ∧ XL.myHart.queue 0 = 9 :: []
    ∧ qReader 4 ≠ XL.cur % 2 ∧ endsWell XL (writes XL [] (.x 3) 9) := by unfold canIssue endsWell; decide

theorem witness_Atomics :
    canIssue AJ .both 0 [.x 1, .x 2] [.x 3] [] ∧ (srcOf AJ [.x 1, .x 2] 0).toNat % 8 = 0
    ∧ plainAt AJ (translateAny (Run.start AJ) (spaceOf AJ AJ.h) 16 0) = true
    ∧ plainAt AJ (translateAny (Run.start AJ) (spaceOf AJ AJ.h) 16 1) = true ∧ stripMeets AJ.myHart.strip (.mem 16 16 none) 8 = false
    ∧ (readBytes (Run.start AJ) (some AJ.c) (.mem 16 16 none) 8).1 = bytes64 (getX AJ.me 2)
    ∧ (readBytes (Run.start AJ) (some AJ.c) (.mem 16 16 none) 8).1 ≠ bytes64 (getX AJ.me 3) := by
  unfold canIssue; decide

/-- A command of hart 3 in flight. -/
def AC : State := { A with cmds := [{ id := 0, work := .cpya 0 4096 64, hart := 3, part := 0, ent := none, tok := 5, eq := 0, be := none, pe := none }] }

theorem witness_OrderedAccessesAndFences :
    canIssue AJ .both 0 [.x 1] [.x 3] [] ∧ (srcOf AJ [.x 1] 0).toNat % 8 = 0
    ∧ plainAt AJ (translateAny (Run.start AJ) (spaceOf AJ AJ.h) 16 0) = true
    ∧ canIssue AJ .both 0 [.x 2, .x 1] [] [] ∧ plainAt AJ (translateAny (Run.start AJ) (spaceOf AJ AJ.h) 16 1) = true
    ∧ canIssue AC .both 0 [] [] [] ∧ hasCommand AC = true ∧ hasCommand AJ = false
    ∧ AJ.holds = false ∧ ({ X with choice := { hold := true } } : State).holds = true
    ∧ canIssue X .execute 0 [] [] [] ∧ endsWell X [] := by unfold canIssue endsWell; decide

/-- A strand asleep in the WAITM at address 0, with a limit of 9 cycles in x5. -/
def AW : State := withStrand { AJ with ns := 10, mem := words 0 (encode (.waitm ⟨.ext, .x 3, .x 1, .x 2, 5⟩)) } fun st =>
  { st with x := [(1, 16), (2, 1), (5, 9)], sleep := some (.waitm 0 false) }

theorem witness_WaitOnMemory :
    canIssue AJ .both 0 [.x 1, .x 2] [.x 3] [] ∧ canIssue AW .both 0 [.x 1, .x 2] [.x 3] [5]
    ∧ (srcOf AJ [.x 1, .x 2] 0).toNat % 8 = 0 ∧ plainAt AJ (translateAny (Run.start AJ) (spaceOf AJ AJ.h) 16 0) = true
    ∧ word64 (readBytes (Run.start AJ) (some AJ.c) (.mem 16 16 none) 8).1 = srcOf AJ [.x 1, .x 2] 1
    ∧ word64 (readBytes (Run.start AW) (some AW.c) (.mem 16 16 none) 8).1 ≠ srcOf AW [.x 1, .x 2] 1
    ∧ AW.dev.off = false ∧ (AW.strand 6).sleep = some (.waitm 0 false)
    ∧ nextInstr AW 6 = some (.waitm ⟨.ext, .x 3, .x 1, .x 2, 5⟩)
    ∧ getX (AW.strand 6) 5 ≠ 0 ∧ 0 + (getX (AW.strand 6) 5).toNat ≤ AW.cycles (6 / 8) ∧ endsWell AW [] := by
  unfold canIssue endsWell; decide

/-- Memory with a page table at 0x10000 that maps the first gigabyte onto itself, for every access (R228, R229). -/
def paged (m : Tab Byte) : Tab Byte :=
  writeBytes (writeBytes (writeBytes m 0x10000 (leBytes 8 0x11001)) 0x11000 (leBytes 8 0x12001)) 0x12000 (leBytes 8 0x1F)

/-- Gang 0 of one member: the execute strand of hart 0, with barriers 0 to 2 in states that the clauses name. -/
def bars : Tab Barrier :=
  [(1, { v := true, b := true, count := 8, phase := 15 }), (2, { v := true, count := 2, phase := 3, arr := 2, o := true }),
   (3, { v := true, count := 2, arr := 1 })]
def B : State :=
  { A with cur := 1, harts := [(0, { gid := some 0 })], gangs := [(0, ⟨0, 0, 1, 0, [0], 4, false, bars, [], []⟩)]
           strands := [(1, { x := [(1, 1), (2, 24), (3, 9), (4, 32), (5, 2 ^ 46 - 1), (6, 14)] })] }
def gangB : Gang := ⟨0, 0, 1, 0, [0], 4, false, bars, [], []⟩
/-- The member holds an uncommitted store; a strand that has arrived in the BARR at its pc. -/
def BS : State := { B with harts := [(0, { gid := some 0, strip := [⟨.mem 0 0 none, [1], 0, true, [], 0⟩] })] }
def BR : State := withStrand B fun st => { st with arrived := [(1, 14, 0, false)] }

theorem witness_Barriers :
    gangOf B B.h = some (0, gangB) ∧ canIssue B .execute 0 [.x 1] [] [] ∧ canIssue B .execute 0 [] [.x 3] []
    ∧ (srcOf B [.x 1] 0).toNat % 16 = 1 ∧ (srcOf B [.x 2] 0).toNat = 24 ∧ 8 < (srcOf B [.x 3] 0).toNat % 16
    ∧ 32 ≤ (srcOf B [.x 4] 0).toNat ∧ (srcOf B [.x 0] 0).toNat % 16 = 0
    ∧ ((barOf gangB 0).arr = 0 ∧ (barOf gangB 0).x = false ∧ (barOf gangB 0).pend = 0) ∧ (barOf gangB 2).o = true
    ∧ (barOf gangB 1).v = true ∧ (barOf gangB 1).b = true ∧ (barOf gangB 1).o = false
    ∧ (srcOf B [.x 5] 0).toNat < 2 ^ 46 ∧ (barOf gangB 1).pend + (srcOf B [.x 5] 0).toNat < 2 ^ 46
    ∧ owedDrift (barOf gangB 1) B.h = none ∧ (barOf gangB 1).phase ≠ (srcOf B [.x 6] 0).toNat % 16
    ∧ (withX B [(1, 15)]).me.x = [(1, 15)] ∧ (barOf gangB 1).phase = (srcOf (withX B [(1, 15)]) [.x 1] 0).toNat % 16
    ∧ B.myHart.strip = [] ∧ BS.myHart.strip ≠ [] ∧ gangOf BS BS.h = some (0, gangB)
    ∧ (barOf gangB 1).arr ≠ (barOf gangB 1).count
    ∧ recordAt (site BR.me) BR.me.arrived = some (1, 14) ∧ (barOf gangB 1).phase ≠ 14
    ∧ recordAt (site B.me) B.me.arrived = none
    ∧ (¬ ((barOf gangB 3).arr = 0 ∧ (barOf gangB 3).x = false ∧ (barOf gangB 3).pend = 0) ∧ (barOf gangB 3).o = false)
    ∧ ((barOf gangB 0).v = false ∧ (barOf gangB 0).o = false) ∧ (barOf gangB 3).b = false ∧ (barOf gangB 2).v = true ∧ (barOf gangB 2).arr = (barOf gangB 2).count
    ∧ 2 ^ 46 ≤ (srcOf (withX B [(1, 2 ^ 46)]) [.x 1] 0).toNat
    ∧ (let s := withStrand B fun st => { st with arrived := [(2, 3, 0, false)] }; recordAt (site s.me) s.me.arrived = some (2, 3))
    ∧ endsWell B [] := by
  unfold canIssue endsWell; decide

/-- A barrier of one member, whose arrival completes the phase, and one of eight, whose does not. -/
theorem witness_BarrierRoundTrips :
    (let g : Gang := { gangB with bars := [(0, { v := true, count := 1 })] };
      let s : State := { B with gangs := [(0, g)] };
      let us := setD s.cur (.x 3) 0 ++ arriveUpds s 0 0 false ++ [.strand s.cur fun st => { st with arrived := (0, 0, site s.me) :: recordsNotAt (site s.me) st.arrived }];
      gangOf s s.h = some (0, g) ∧ canIssue s .execute 0 [] [.x 3] [] ∧ recordAt (site s.me) s.me.arrived = none ∧ s.myHart.strip = []
      ∧ (barOf g 0).v = true ∧ (barOf g 0).arr ≠ (barOf g 0).count ∧ owedDrift (barOf g 0) s.h = none
      ∧ ((gangOf (applyAll us s) s.h).any fun p =>
          (barOf p.2 0).o == false && owedDrift (barOf p.2 0) s.h == none && (barOf p.2 0).phase != 0) = true)
    ∧ (let us := setD B.cur (.x 3) 15 ++ arriveUpds B 0 1 false ++ [.strand B.cur fun st => { st with arrived := (1, 15, site B.me) :: recordsNotAt (site B.me) st.arrived }];
      ((gangOf (applyAll us B) B.h).any fun p =>
        (barOf p.2 1).o == false && owedDrift (barOf p.2 1) B.h == none && (barOf p.2 1).phase == 15) = true)
    ∧ (let s : State := { BR with
                                 parts := [(0, { cfg := 1, cur := some 0, rlroot := [(0, 0x10001)] })]
                                 cores := [(0, { slots := [(0, 0x80)] })]
                                 mem := paged (words 0 (encode (.barr ⟨.base, .x 3, 1, false⟩)))
                                 strands := [(1, { BR.me with life := .live })] };
      gangOf s s.h = some (0, gangB) ∧ runnable s 1 = true ∧ recordAt (site s.me) s.me.arrived = some (1, 14)
      ∧ nextInstr s 1 = some (.barr ⟨.base, .x 3, 1, false⟩) ∧ instrAt s s.h s.me.pc = some (.barr ⟨.base, .x 3, 1, false⟩)
      ∧ endsWell s [.strand s.cur fun st => { st with arrived := [] }])
    ∧ (let s : State := { B with
                                parts := [(0, { cfg := 1, cur := some 0, rlroot := [(0, 0x10001)] })]
                                cores := [(0, { slots := [(0, 0x80)] })]
                                mem := paged (words 0 (encode (.barw ⟨.base, 1, .x 6⟩)))
                                strands := [(1, { B.me with life := .live })] };
      runnable s 1 = true ∧ canIssue s .execute 0 [.x 6] [] [] ∧ (barOf gangB 1).phase ≠ (srcOf s [.x 6] 0).toNat % 16
      ∧ nextInstr s 1 = some (.barw ⟨.base, 1, .x 6⟩) ∧ instrAt s s.h s.me.pc = some (.barw ⟨.base, 1, .x 6⟩)
      ∧ endsWell s [.strand s.cur fun st => { st with arrived := [] }]) := by
  unfold canIssue endsWell; decide +kernel

/-- A strand with a handler at 64, its MOD at 8 and an instruction that traps at 12; without a handler; and in a trap. -/
def AT : State := withStrand A1 fun st => { st with pc := 12, pfx := some ⟨1, 0, false⟩, tvec := 65, x := [(1, 99)] }
def AN : State := withStrand AT fun st => { st with tcause := 0xA000000000000005, tpc := 32, tfpc := 28 }

theorem witness_TrapEntry :
    (5 : Nat) ≠ 64 ∧ classH 5 = false ∧ (AT.strand 6).tvec >>> 2 ≠ 0 ∧ (AT.strand 6).tcause.getLsbD 63 = false
    ∧ (AT.strand 6).pfx.isSome = true ∧ privOf A 3 ≠ 0 := by decide

theorem witness_FatalTraps :
    classH 53 = true ∧ (A.strand 6).tvec >>> 2 = 0 ∧ (AN.strand 6).tcause.getLsbD 63 = true ∧ isReeve (7 / 2) = true
    ∧ ((53 : Nat) ≠ 1 ∧ boundEmulation { A with mem := words 0 [0x00718504] } 6 0 = none) ∧ isReeve (0 / 2) = false ∧ (U.part (partIx U 0)).halt.st = 0 := by decide

theorem witness_TrapAndReturn :
    canIssue AT .both 0 [.x 1] [] [] ∧ AT.me.tvec >>> 2 ≠ 0 ∧ AT.me.tcause.getLsbD 63 = false
    ∧ canIssue AN .both 0 [] [] [] ∧ AN.me.tcause.getLsbD 63 = true ∧ AN.me.tpc.toNat % 4 = 0
    ∧ (withStrand AN fun st => { st with tpc := 33 }).me.tpc.toNat % 4 ≠ 0 := by unfold canIssue; decide

/-- A strand asleep in IDLE with a limit of 8 in x1, at cycle 9: the limit, an interrupt, a push and a token. -/
def AI : State := withStrand { A with ns := 10, dev := { A.dev with rint := 1 }, harts := [(3, { pushA := 1 })] } fun st =>
  { st with x := [(1, 8)], sleep := some (.idle ⟨.base, .x 3, .x 1⟩ 1 0 true) }

theorem witness_IdleAndItsEnds :
    canIssue A1 .both 0 [.x 1] [.x 3] [] ∧ (AI.strand 6).sleep = some (.idle ⟨.base, .x 3, .x 1⟩ 1 0 true)
    ∧ awake AI 6 = true ∧ srcOf AI [.x 1] 0 ≠ 0 ∧ 1 + (srcOf AI [.x 1] 0).toNat ≤ AI.cycles (6 / 8) ∧ pendingIrq AI (6 / 2) ≠ 0
    ∧ pushesOf (AI.hart (6 / 2)) 6 ≠ 0 ∧ endsWell AI (popAll AI.h [.x 1] ++ setD 6 (.x 3) (BitVec.ofNat 64 3)) := by
  unfold canIssue endsWell; decide

theorem witness_IdleAndItsEnds_others :
    canIssue A1 .both 0 [] [.q 0] [] ∧ canIssue A1 .both 0 [] [] []
    ∧ canIssue A1 .both 0 [.x 1] [] [] ∧ A1.isExec = false ∧ canIssue BS .both 0 [.x 1] [] [] ∧ BS.isExec = true
    ∧ BS.myHart.strip ≠ [] ∧ endsWell A1 (writes A1 [] (.q 0) 0) := by unfold canIssue endsWell; decide

theorem witness_FeatureMask :
    canIssue A1 .both 0 [.x 1] [.x 3] [] ∧ (srcOf A1 [.x 1] 0).toNat < 8 ∧ ¬ (srcOf (withX A [(1, 8)]) [.x 1] 0).toNat < 8
    ∧ endsWell A1 (writes A1 [.x 1] (.x 3) 0) := by unfold canIssue endsWell; decide

/-- Register values that a register takes and one that it refuses; a register that no strand writes (`hartid`). -/
theorem witness_StateRegisterAccess :
    canIssue A1 .both 0 [] [.x 3] [] ∧ canIssue A1 .both 0 [.x 1] [.x 3] [] ∧ good (writeReg A1 0x018 5) = true
    ∧ good (writeReg A1 0 63) = true ∧ good (writeReg A1 0x041 5) = true ∧ good (writeReg A1 0x010 2) = false
    ∧ noWrite (privOf A1 A1.h) 0x448 = true ∧ noWrite (privOf U U.h) 0x200 = true
    ∧ (canIssue U .both 0 [.x 1] [] [] ∧ privOf U U.h = 0 ∧ (0x1000 : Word) &&& steadFields 0x282 = 0 ∧ (1 : Word) &&& steadFields 0x282 ≠ 0)
    ∧ (0 : Nat) = 0 ∧ (63 : Word).toNat < 64 ∧ (0x41 : Word).getLsbD 1 = false ∧ (0x041 : Nat) ∈ [0x011, 0x018, 0x019, 0x040, 0x041]
    ∧ endsWell A1 [] := by unfold canIssue endsWell; decide

/-- An ADD, a LOOP, an illegal word and a bad address after a MOD at the pc. -/
theorem witness_ModPrefix :
    (let s : State := { A with mem := words 0 [0x2958, 0x00718504] };
      onOk (fetchInstr (Run.start s) s.h (s.me.pc + 4)).1 (fun ws => (decode ws).isSome && prefixableWord (ws.headD 0)) = true)
    ∧ (let s : State := { A with mem := words 0 [0x2958, 0x00031028] };
      onOk (fetchInstr (Run.start s) s.h (s.me.pc + 4)).1 (fun ws => (decode ws).isSome && !prefixableWord (ws.headD 0)) = true)
    ∧ (let s : State := { A with mem := words 0 [0x2958, 0xFFFFFFFC] };
      onOk (fetchInstr (Run.start s) s.h (s.me.pc + 4)).1 (fun ws => (decode ws).isNone) = true)
    ∧ (let s : State := withStrand A fun st => { st with pc := 0x00FFFFFFFFFFFFFC };
      good (fetchInstr (Run.start s) s.h (s.me.pc + 4)).1 = false) := by decide

theorem witness_StrandEvents :
    (let s : State := { A with ns := 2 ^ 21, harts := [(3, { waitA := true, waitX := true, dead := some 0 })] };
      s.dev.off = false ∧ (5119 : Nat) < 5120 ∧ s.bad = [] ∧ (s.hart 3).dead = some 0 ∧ 0 + 2 ^ 20 ≤ s.cycles (3 / 4) ∧ (s.hart 3).waitA = true
      ∧ fetchWord s 3 (s.strand (2 * 3)).pc.toNat = some 0) ∧ ∀ m, decode [0] ≠ some (.mod m) :=
  ⟨by decide, fun _ h => nomatch h⟩

/-- A key slot of each state, a scrub order at 64 of one core, and one that meets an order in progress. -/
def AK : State := { withX A [(1, 0), (2, 1), (3, 63), (4, 64), (5, 0x3F00), (6, 2 ^ 41 - 1)] with
  dev := { A.dev with kslot := [(1, { st := 1 }), (63, { st := 2 })] }
  mem := words 64 [0x100, 0, 256, 0, 0, 0, 0, 0] }

theorem witness_MaintenanceInstructions :
    canIssue AK .both 1 [.x 4, .x 0] [] [] ∧ (srcOf AK [.x 4, .x 0] 1).toNat % 4 ≠ 3 ∧ (srcOf AK [.x 4, .x 5] 1).toNat / 4 % 64 = 0
    ∧ (srcOf AK [.x 4, .x 5] 1).toNat < 2 ^ 14 ∧ (srcOf AK [.x 4, .x 6] 1).toNat < 2 ^ 41 ∧ canIssue U .both 0 [.x 4, .x 6] [] []
    ∧ canIssue AK .both 2 [.x 1] [.x 3] [] ∧ (AK.dev.key 0).st = 0 ∧ (AK.dev.key 1).st = 1 ∧ (AK.dev.key 63).st = 2
    ∧ (getX AK.me 3).toNat < 64
    ∧ AK.dev.orders.length < 8
    ∧ (onOk (readM AK (stateValue 0) (readOrder AK (getX AK.me 4).toNat)) fun q => orderFree AK q.1) = true
    ∧ (let s : State := { AK with dev := { AK.dev with orders := [⟨1, none, [0], 0, 0, []⟩] } };
      (onOk (readM s (stateValue 0) (readOrder s (getX s.me 4).toNat)) fun q => !orderFree s q.1) = true)
    ∧ dirOk U.cur [.x 1, .x 2] [] = true ∧ privOf U U.h = 0 ∧ dirOk U.cur [.x 1] [.x 2] = true ∧ endsWell AK [] := by
  unfold canIssue endsWell; decide +kernel

/-- Partition 0 owns hall 0; the reeve hart's partition registers name it. Run list entries 0 and 1 are valid, 0 is resident,
and the second core's save engine stopped. -/
def P0 : Part := { cfg := 1, rl := [(0, { v := true, slice := 1 }), (1, { v := true, n := true, slice := 1, lat := 1 })], cur := some 0 }
def AP : State := { withX A [(1, 64), (2, 0x2301), (3, 0x4000), (4, 0x102), (5, 0x002), (6, 3), (7, 4), (8, 0xFF02)] with parts := [(0, P0)] }
def APS : State := { AP with lofts := [(1, { save := { st := 3, cause := 2, ent := 1 } })] }

theorem witness_RunListOperations :
    canIssue AP .both 1 [.x 2] [.x 3] [1] ∧ 2 ^ 14 ≤ (srcOf AP [.x 3] 0).toNat ∧ (srcOf AP [.x 2] 0).toNat < 2 ^ 14
    ∧ (onOk (loadBytesM (spaceOf AP AP.h) (some AP.c) 64 32 (flushHeld (Run.start AP) AP.cur)) fun b => entOfImage b.1 == none) = true
    ∧ (let s : State := { AP with mem := words 64 [1, 0x80000000] };
      (onOk (loadBytesM (spaceOf s s.h) (some s.c) 64 32 (flushHeld (Run.start s) s.cur)) fun b => (entOfImage b.1).isSome) = true)
    ∧ good (storeBytesM (spaceOf AP AP.h) (some AP.c) 64 (entImage ((AP.part 0).ent 1)) (flushHeld (Run.start AP) AP.cur)) = true
    ∧ (srcOf AP [.x 2] 0).toNat % 256 ≠ 0
    ∧ good (loadBytesM (spaceOf AP AP.h) (some AP.c) (2 ^ 56) 32 (flushHeld (Run.start AP) AP.cur)) = false
    ∧ good (storeBytesM (spaceOf AP AP.h) (some AP.c) (2 ^ 56) (entImage ((AP.part 0).ent 1)) (flushHeld (Run.start AP) AP.cur)) = false
    ∧ ((AP.part (partIx AP AP.h)).ent 0xFF).v = false ∧ ((AP.part (partIx AP AP.h)).ent 0).v = true
    ∧ (AP.part (partIx AP AP.h)).cur = some 0 ∧ ((AP.part (partIx AP AP.h)).ent 1).v = true
    ∧ stoppedCores AP 0 = [] ∧ stoppedCores APS 0 ≠ [] ∧ endsWell AP [] := by unfold canIssue endsWell; decide +kernel

/-- A launch record at 64: one member, entry 0, one gang, completion word at 0; an indirect one; a malformed one. -/
theorem witness_Launching :
    canIssue AP .both 1 [.x 1] [.x 3] [] ∧ (getX AP.me 1).toNat % 8 = 0 ∧ (getX AP.me 6).toNat % 8 ≠ 0
    ∧ (onOk (loadBytesM (spaceOf AP AP.h) (some AP.c) 64 128 (flushHeld (Run.start AP) AP.cur)) fun b => launchOf AP 0 false b.1 == none) = true
    ∧ (let s : State := { AP with mem := words 64 [1, 0, 1] };
      (onOk (loadBytesM (spaceOf s s.h) (some s.c) 64 128 (flushHeld (Run.start s) s.cur)) fun b => (launchOf s 0 false b.1).isSome
        && onOk (loadBytesM (spaceOf s s.h) (some s.c) (dbl b.1 40) (16 * dbl b.1 48) b.2) fun v => (initList v.1 (dbl b.1 48)).isSome)
        = true)
    ∧ (let s : State := { AP with mem := words 64 [1, 0, 4, 0, 1] };
      (onOk (loadBytesM (spaceOf s s.h) (some s.c) 64 128 (flushHeld (Run.start s) s.cur)) fun b => (launchOf s 0 true b.1).isSome) = true)
    ∧ (AP.part 0).lq.length < 256 ∧ AP.dev.replay = 0 ∧ endsWell AP [] := by unfold canIssue endsWell; decide

/-- Launch 1 is direct and launch 2 indirect with its count, 3, at 64; launch 3 is dispatched with a gang to place, and
launch 4 placed with its one gang finished. -/
def L : Launch := ⟨1, 0, 1, 4, false, 1, false, 1, 0, 0, 0, [], 0, 0, 0, [], 0, false, 0, 0, 0⟩
def AL : State :=
  { AP with mem := words 64 [3]
            parts := [(0, { P0 with lq := [L, { L with id := 2, indirect := true, count := 64, limit := 2 },
              { L with id := 3, dispatched := true, gangs := 1 }, { L with id := 4, dispatched := true, gangs := 1, placed := 1 }] })]
            gangs := [(0, ⟨0, 0, 4, 0, [0], 4, false, [], [0], [0]⟩)], nextGang := 1 }

theorem witness_LaunchEvents :
    AL.dev.off = false ∧ launchIn AL 0 1 = some L ∧ (launchIn AL 0 2).isSome = true ∧ depsDone AL 0 L = true
    ∧ (AL.part 0).cur = some 0 ∧ (AL.part 0).halt.st = 0 ∧ AL.dev.replay = 0
    ∧ onOk (readCount AL 0 64).1 (· == 3) = true ∧ onOk (readCount AL 0 0).1 (· == 0) = true ∧ (2 : Nat) < 3
    ∧ good (readCount AL 0 0x0100000000000000).1 = false ∧ good (readCount { AL with bad := [64] } 0 64).1 = false
    ∧ ((launchIn AL 0 3).any fun l => l.dispatched && decide (l.placed < l.gangs) && (pickHarts AL l.mask l.n []).isSome) = true
    ∧ ((launchIn AL 0 4).any fun l => l.dispatched && decide (l.placed = l.gangs)) = true
    ∧ (∀ x ∈ AL.gangs.filter (fun x => x.2.part == 0 && x.2.launch == 4), (∀ m ∈ x.2.members, m ∈ x.2.fin) ∧ gangRuns AL x.2 = false)
    ∧ AL.cmds = [] := by decide

/-- A halt that waits for strands 0 and 1, one that waits for the last, and a halted partition; the reeve with an interrupt. -/
theorem witness_HaltAndInterrupts :
    (let s : State := { AP with parts := [(0, { P0 with halt := { st := 1, srcs := [0, 1] } })] };
      s.dev.off = false ∧ (s.part 0).halt.st = 1 ∧ 0 ∈ (s.part 0).halt.srcs ∧ 0 ∉ (s.part 0).halt.stopped
      ∧ ∃ x ∈ (s.part 0).halt.srcs, x ≠ 0 ∧ x ∉ (s.part 0).halt.stopped)
    ∧ (let s : State := { AP with parts := [(0, { P0 with halt := { st := 1, srcs := [0, 1], stopped := [1] } })] };
      ∀ x ∈ (s.part 0).halt.srcs, x = 0 ∨ x ∈ (s.part 0).halt.stopped)
    ∧ (let s : State := { AP with parts := [(0, { P0 with halt := { st := 2 } })] };
      (s.part 0).halt.st = 2)
    ∧ (let s : State := withStrand { A with dev := { A.dev with rint := 1 } } fun st => { st with tvec := 65 };
      6 % 2 = 0 ∧ isService s (6 / 2) = true ∧ pendingIrq s (6 / 2) ≠ 0 ∧ (s.strand 6).tvec.getLsbD 0 = true
      ∧ (s.strand 6).tcause.getLsbD 63 = false ∧ (s.strand 6).sleep = none ∧ (s.strand 6).stopped = false
      ∧ hasEnded (s.strand 6) = false) := by decide

/-- A slice that ends with a next entry, or none but its own; lofts that hold the next context; a missed limit. -/
def ready : Tab Loft := (List.range 16).map fun c => (c, { bank := some {}, save := { st := 0, ent := 1 } })

theorem witness_SlicesAndSwitches :
    AP.dev.off = false ∧ (AP.part 0).cur = some 0 ∧ nextEnt (AP.part 0) = some 1 ∧ (AP.part 0).due = none
    ∧ (AP.part 0).sliceEnd ≤ AP.gtc.toNat ∧ nextEnt { P0 with rl := [(0, { v := true })] } = some 0
    ∧ (let s : State := { AP with lofts := ready, ns := 1001, parts := [(0, { P0 with due := some 0 })] };
      nextEnt (s.part 0) = some 1 ∧ (s.part 0).cur ≠ some 1 ∧ (s.part 0).due ≠ none ∧ (s.part 0).halt.st = 0
      ∧ partCores s 0 ≠ [] ∧ (∀ c ∈ partCores s 0, loftReady s 1 c = true)
      ∧ ((performAll (Run.start s) (partCores s 0)).s.part 0).halt.st = 0
      ∧ (let s : State := { s with bad := [0x1005], cores := [(0, { wc := [⟨0x1000, 0, [(0, 1)]⟩] })] };
        ((performAll (Run.start s) (partCores s 0)).s.part 0).halt.st ≠ 0))
    ∧ (let s : State := { AP with ns := 1000, parts := [(0, { P0 with cur := some 1, due := some 0 })] };
      (s.part 0).cur = some 1 ∧ (s.part 0).due = some 0 ∧ (s.part 0).missed = false ∧ nextEnt (s.part 0) ≠ some 1
      ∧ ((s.part 0).curOf 1).lat ≠ 0 ∧ 0 + 1000 * ((s.part 0).curOf 1).lat ≤ s.gtc.toNat)
    ∧ (let q : Part := { P0 with rl := [(0, { v := true })], due := some 0 }; q.cur = some 0 ∧ nextEnt q = some 0 ∧ q.due ≠ none) := by decide

/-- Partition 0 with run list entry 2 that has a record of the first gigabyte, and 3 that has none. -/
def P1 : Part := { P0 with rl := [(1, { v := true, n := true, slice := 1 }), (2, { v := true, slice := 1, base := 2 ^ 30, size := 2 ^ 30 }),
  (3, { v := true, slice := 1 })] }
/-- Core 0's loft does `st` for entry `k`. -/
def loft (st k : Nat) (b : Option Bank) : State :=
  { AP with parts := [(0, P1)], lofts := [(0, { bank := b, save := { st := st, ent := k } })] }

theorem witness_ContextSaveEngines :
    (loft 2 1 none).dev.off = false ∧ partOfHall (loft 2 1 none) (0 / 16) = some 0
    ∧ ((loft 2 1 none).loft 0).save.st = 2 ∧ (((loft 2 1 none).part 0).ent 1).n = true ∧ (((loft 2 2 none).part 0).ent 2).n = false
    ∧ (fillPages (loft 2 2 none) 0 2 0 0).2.1 = none ∧ (fillPages (loft 2 3 none) 0 3 0 0).2.1 = some (0, 3)
    ∧ (fillPages { loft 2 2 none with bad := [2 ^ 30 + 9] } 0 2 0 0).2.1 = some (0, 4)
    ∧ ((loft 1 2 (some {})).loft 0).save.st = 1 ∧ ((loft 1 2 (some {})).loft 0).bank = some {}
    ∧ (recordPages (stewardSpace (loft 1 3 (some {})) 0) (((loft 1 3 (some {})).part 0).ent 3) 0 16 1 (recordLen / 4096) 0
        (flushLoft (Run.start (loft 1 3 (some {}))) 0)).2.1 = some (0, 3)
    ∧ loftBusy (loft 1 2 (some {})) 0 2 = false ∧ isService (loft 1 2 (some {})) 0 = false
    ∧ (recordPages (stewardSpace (loft 1 2 (some {})) 0) (((loft 1 2 (some {})).part 0).ent 2) 0 16 1 (recordLen / 4096) 0
        (flushLoft (Run.start (loft 1 2 (some {}))) 0)).2.1 = none := by decide +kernel

/-- Firmware writes that are accepted and refused: the reeve's access strand is strand 6, the steward's is strand 4. -/
theorem witness_FirmwareAndFleetEvents :
    (isService A (6 / 2) = true ∧ awake A 6 = true ∧ privOf A (6 / 2) = 2)
    ∧ (isService AP (4 / 2) = true ∧ awake AP 4 = true ∧ privOf AP (4 / 2) < 2)
    ∧ good (loadKey AP 6 (2 ^ 20)) = true ∧ good (loadKey A 6 64) = false
    ∧ good (writeCfg A 0 (1 + 2 ^ 43)) = true ∧ good (writeCfg AP 0 2) = false
    ∧ good (writeStgrp A 0 1) = true ∧ good (writeStgrp { A with parts := [(1, { stgrp := 1 })] } 0 1) = false
    ∧ good (writeIsland A (200 + 2 ^ 61)) = true
    ∧ A.dev.off = false ∧ ({ A.dev with isl := [(991, { mhz := 1600, st := 2 })] } : Dev).island 991 = { mhz := 1600, st := 2 }
    ∧ throttleDue { A.dev with watts := 3401, cool := 200 * 2 ^ 32 } = true ∧ throttleDue { A.dev with cool := 200 * 2 ^ 32 } = false
    ∧ hotter { A.dev with itel := [(0, 960 * 2 ^ 52)] } 959 = true ∧ (7 : Nat) < 8
    ∧ (2 ^ 16 - 1 : Nat) < 2 ^ 16 ∧ A.dev.minVer ≤ 0 ∧ (0 : Nat) < ({ A.dev with minVer := 1 } : Dev).minVer
    ∧ ({ A.dev with stage := 1 } : Dev).stage = 1 ∧ (stagedBytes { A with dev := { A.dev with stage := 1 } } 64).isSome = true
    ∧ rsaOk 1 0 [] = false
    ∧ (let o : ScrubOrder := ⟨1, none, [0], 0, 0, []⟩; 0 < orderUnits o ∧ orderUnits o ≤ orderUnits o) := by decide +kernel

/-- A modulus, and a signature under it of the digest of no bytes. -/
def modulus : Nat := 2 ^ 3071 + 2291
def signature : Nat :=
  0x595ffe15d95b96cda39d62116f018133825748c912a93e10614b97fea4c804292dda25331186f7e480d1cc1301f654bdbd269c39c0782733bc16e60292cbf2f5afa71a52dc566bfc8142f5c94b8de2b8f3755a657614defc4b8b0cc0da30011130306ac917bab06b368ecfbd03ca4cc8195068f2a7dddd1817765eb86faaa9716edd947e0dcb4663a4730e4c2f7c66783720cb29006a7faeba9e45b35d1637653bab1fc238f77d7f2d9d16da6b8748759fb3169184ac5182ff49e7b95c5e068ee593e413b2c846d623745a2eda129c51548467dbce4c7dd6864262a5aca574b0cb14f7bfcea205caab589c5a6becdf716d15b9a995035e3578c783e1d425976ce3523a653a951cf08d111dcf9285599b0927799f6ec34cfb0617dc97a0e9c4c83e1c8136f6896d1b416ea08abfa14d48e255beb1c26a78d24f5b63a26746c91e1787bb81d8c003e0c767c9ba723e7ef0d74baab0a3ce038804dde0765faa6b3f1df954737a468fb7dafa02739d754f099d1ba172b8a047d8d13806d30f084008

theorem witness_FirmwareAndFleetEvents_signed :
    stagedBytes { A with dev := { A.dev with stage := 1 } } 0 = some [] ∧ rsaOk modulus signature (sha256 []) = true := by decide +kernel

theorem witness_FirmwareAndFleetEvents_keys :
    keyTrusted { A.dev with record := { manifest := [keyHash modulus] } } (keyHash modulus) = true
    ∧ keyTrusted { A.dev with revoked := [keyHash modulus] } (keyHash modulus) = false := by
  constructor <;> simp [keyTrusted, trustedKeys, A, State.reset]

/-- Harts 0 and 1 of partition 0, whose ports 0 name one another; port 7 of hart 0 is a completion stream that the access
strand reads. -/
def EP : State :=
  { A with cur := 0, parts := [(0, { cfg := 1, cur := some 0, rlroot := [(0, 0x10001)] })]
           harts := [(0, { epcfg := [(0, 0x9000000000000000 + 2 ^ 32), (1, 0xA800000000000000), (7, 0xA000000000000000)],
                           fifo := [(0, [5]), (1, [6, 7])] }),
                     (1, { epcfg := [(0, 0x9000000000000000)], fifo := [(0, (List.range 32).map (BitVec.ofNat 64))] })] }

theorem witness_EnginePorts :
    canIssue EP .access 0 [.x 1] [] [] ∧ portKind (EP.myHart.port 2) ≠ 1 ∧ portKind (EP.myHart.port 0) = 1
    ∧ mutualPort EP EP.h 0 = true ∧ portPeer (EP.myHart.port 0) = (0, 1) ∧ 32 ≤ ((EP.hart 1).fifoOf 0).length
    ∧ ((({ EP with harts := EP.harts.take 1 ++ [(1, { epcfg := [(0, 0x9000000000000000)] })] } : State).hart 1).fifoOf 0).length < 32
    ∧ canIssue EP .access 0 [] [.x 3] [] ∧ readable EP 2 = false ∧ readable EP 0 = true ∧ portReader (EP.myHart.port 0) = 0
    ∧ EP.myHart.fifoOf 0 = [5] ∧ readable EP 7 = true ∧ portReader (EP.myHart.port 7) = 0 ∧ EP.myHart.fifoOf 7 = []
    ∧ (let s : State := { EP with cur := 1, harts := tput EP.harts 0 { EP.hart 0 with vl := 2, vt := 8 } };
      canIssue s .execute 0 [] [] [] ∧ readable s 1 = true ∧ portReader (s.myHart.port 1) = 1
      ∧ (((vcx s).active s .none).drop (filled s.me 1)).length ≤ (s.myHart.fifoOf 1).length ∧ endsWell s [])
    ∧ endsWell EP [] := by unfold canIssue endsWell; decide +kernel

/-- x10 to x14: a copy of 64 bytes from 0x2000 to 0x1000; x20 on: one of no bytes; x30 on: a stash mapping; x40: a mapped slot. -/
def CP : State := withCore (withX A [(10, 0x1000), (11, 0x2000), (12, 64), (13, 0), (14, 0), (20, 0x1000), (21, 0x2000), (23, 4),
    (30, 0x4000), (31, 0x1000), (32, 0x700000 + 0x7F000), (34, 0x4000), (35, 0x1000), (36, 0x500000), (40, 5),
    (50, 0x1000), (51, 0x2000), (52, 256), (53, 64), (54, 0)])
  fun c => { c with stash := [(5, ⟨0x8000, 0x1000, 0⟩)] }

theorem witness_CopyAndStashCommands :
    canIssue CP .access 0 [] [] (1 :: groupRegs 10 4) ∧ copyChecks CP 0 64 0x1000 64 0x2000 64 = some none
    ∧ groupVals CP 10 5 = [0x1000, 0x2000, 64, 0, 0] ∧ copyChecks CP 0 64 0x1000 0 0x2000 0 = some none
    ∧ (2 ^ 40 - 1 < 2 ^ 40 ∧ copyChecks CP 4 64 0x1000 64 0x2000 64 = none)
    ∧ copyChecks B (4 + 8) 64 0x1000 64 0x2000 64 = some (some 1)
    ∧ copyTypes (9 * 64 + 9 * 2048) = some (.f32, .f32) ∧ copyTypes (31 * 64) = none
    ∧ copyChecks CP (9 * 64 + 9 * 2048) (2 ^ 16) 0x1000 (packed 64 .f32) 0x2000 (packed 64 .f32) = some none
    ∧ packed 64 .f32 ≠ 0
    ∧ canIssue CP .access 0 [] [] (1 :: groupRegs 50 5) ∧ groupVals CP 50 5 = [0x1000, 0x2000, 256, 64, 0]
    ∧ copyChecks CP 0 64 0x1000 256 0x2000 64 = some none
    ∧ canIssue CP .access 0 [] [] (1 :: groupRegs 30 3)
    ∧ (let d := (groupVals CP 30 3).getD 2 0
      d % 2 ^ 19 + 0x1000 = 2 ^ 19 ∧ d / 2 ^ 20 % 8 = 7 ∧ d / 2 ^ 19 % 2 = 0 ∧ d < 2 ^ 23
      ∧ CP.myCore.stash.any (fun q => q.1 == 7 || slotsMeet q.2 ⟨0x4000, 0x1000, 0x7F000⟩) = false)
    ∧ CP.myCore.stash.any (fun q => q.1 == 5 || slotsMeet q.2 ⟨0x4000, 0x1000, 0⟩) = true
    ∧ canIssue CP .access 0 [.x 40] [] [1] ∧ slotAt CP.myCore ((getX CP.me 40).toNat % 8) = some ⟨0x8000, 0x1000, 0⟩
    ∧ slotAt CP.myCore ((getX CP.me 0).toNat % 8) = none ∧ CP.cmds.any (copyUses CP ⟨0x8000, 0x1000, 0⟩) = false
    ∧ CP.myCore.runs.any (runUses CP ⟨0x8000, 0x1000, 0⟩) = false ∧ endsWell CP [] := by
  unfold canIssue endsWell; decide +kernel

/-- x10 on: two rows of 64 bytes of a table of 16, gathered into the core's window, with a mask at x16 under bit 17 of x26;
x30 on: a walk into memory; x40 on: records of two slots. -/
def EN : State := withX { A with mem := words 0x3000 [1, 0, 4, 0, 0, 0, 0, 0, 0, 0] }
  [(10, 0x1000), (11, 2), (12, 0x2000), (13, 0x1000000040), (14, 0x00F0000000000000), (15, 0),
   (20, 0x1000), (21, 2), (22, 0x2000), (23, 0x1000000040), (24, 0x00F0000000000000), (25, 0x20000), (26, 0x5000),
   (30, 0x3000), (31, 0x4000), (32, 0x100000000), (33, 0x10000), (34, 0x3000), (35, 0), (36, 1), (37, 0),
   (40, 0x1000), (41, 2), (42, 0x100000), (43, 4096), (44, 0), (54, 1),
   (55, 0x1000), (56, 2), (57, 0x2000), (58, 0x1000000040), (59, 0), (60, 0x240000)]

theorem witness_EngineCommands :
    canIssue EN .access 0 [] [] (1 :: groupRegs 10 6) ∧ ((groupVals EN 10 6).getD 5 0).testBit 17 = false
    ∧ (getX EN.me 15).getLsbD 17 = false ∧ rowTable (groupVals EN 10 6) = some (0x1000, 2, 0x2000, 16, 64)
    ∧ engCtl EN 0 0x30000 = some (none, none) ∧ engCtl EN 0x40000 0x30000 = none
    ∧ (groupVals EN 10 6).getD 4 0 % 64 = 0 ∧ rangeOk 0x00F0000000000000 (2 * 64) = true ∧ gathDest EN 0x00F0000000000000 (2 * 64) = true
    ∧ canIssue EN .access 0 [] [] (1 :: groupRegs 20 6 ++ [26]) ∧ (getX EN.me 25).getLsbD 17 = true
    ∧ engCtl EN 0x20000 0x30000 = some (none, none) ∧ rangeOk (getX EN.me 26).toNat ((2 + 7) / 8) = true
    ∧ endsWell EN [] := by unfold canIssue endsWell; decide +kernel

theorem witness_EngineCommands_scatters :
    canIssue EN .access 0 [] [] (1 :: groupRegs 55 6) ∧ rowTable (groupVals EN 55 6) = some (0x1000, 2, 0x2000, 16, 64)
    ∧ (let w := (groupVals EN 55 6).getD 5 0
      engCtl EN w 0xFF0000 = some (none, none) ∧ Ty.ofCode (w / 2 ^ 18 % 32) = some .f32 ∧ w / 2 ^ 16 % 4 ≠ 3
      ∧ reduceTy .f32 = true ∧ 64 % (Ty.f32.bits / 8) = 0 ∧ rangeOk 0 (2 * 64) = true)
    ∧ endsWell EN [] := by unfold canIssue endsWell; decide +kernel

theorem witness_EngineCommands_walks :
    canIssue EN .access 0 [] [] (1 :: groupRegs 30 4)
    ∧ (let v := (groupVals EN 30 4).getD 3 0
      engCtl EN v 0xF0000 = some (none, none) ∧ v.testBit 16 = true ∧ 0x4000 % 4 = 0 ∧ rangeOk 0x4000 (4 * 2 ^ 32) = true
      ∧ rangeOk 0x3000 8 = true ∧ (badShape (spaceOf EN EN.h) 0x3000 (flushHeld (Run.start EN) EN.cur)).1 = false
      ∧ (badShape (spaceOf EN EN.h) 0x1000 (flushHeld (Run.start EN) EN.cur)).1 = true)
    ∧ engCtl EN 0x100000 0xF0000 = none
    ∧ (let s := withHart EN fun h => { h with sheaf := [(0, { init := true })] };
      ((groupVals s 34 4).getD 3 0).testBit 16 = false ∧ (s.myHart.sheafOf 0).init = true)
    ∧ canIssue EN .access 0 [] [] (1 :: groupRegs 40 5) ∧ engCtl EN 0 0 = some (none, none) ∧ engCtl EN 0x400 0 = none
    ∧ groupVals EN 40 5 = [0x1000, 2, 0x100000, 4096, 0] ∧ rangeOk 0x1000 (2 * 2) = true
    ∧ rangeOk 0x100000 ((2 - 1) * 4096 + 4096) = true ∧ (slotsOk (spaceOf EN EN.h) 0x1000 2 (flushHeld (Run.start EN) EN.cur)).1 = true
    ∧ (let s : State := { EN with mem := words 0x1000 [0x1000] }; (slotsOk (spaceOf s s.h) 0x1000 2 (flushHeld (Run.start s) s.cur)).1 = false)
    ∧ endsWell EN [] := by
  unfold canIssue endsWell; decide +kernel

/-- A command of hart 3 with this work. -/
def cmd (w : Work) : Cmd := { id := 0, work := w, hart := 3, part := 0, ent := none, tok := 5, eq := 0, be := none, pe := none }
def AW0 (c : Cmd) : State := { A with cmds := [c] }

theorem witness_CommandEvents :
    (AW0 (cmd (.cpya 0 64 64))).dev.off = false ∧ cmdOf (AW0 (cmd (.cpya 0 64 64))) 0 = some (cmd (.cpya 0 64 64))
    ∧ (copyShape (cmd (.cpya 0 64 64)).work).isSome = true
    ∧ (let c := cmd (.cpya 0 64 64)
      cmdRuns (AW0 c) c 1 = true ∧ (tryCtx (AW0 c) c (fun r => (copyChunk c r).map (didWork c 1))).isSome = true)
    ∧ (let c := cmd (.gath 0 1 64 1 64 0x00F0000000000000 false none)
      rowLeft c = some 1 ∧ cmdRuns (AW0 c) c 1 = true ∧ writeTurn (AW0 c) c = true ∧ isEngWork c.work = true ∧ queueHead (AW0 c) c = true
      ∧ (tryCtx (AW0 c) c (fun r => (gatherRow c r).map (didWork c 1))).isSome = true)
    ∧ (let c := cmd (.scred 0 1 64 1 64 0 0 .f32 false)
      entryLeft c = some 1 ∧ cmdRuns (AW0 c) c 1 = true ∧ reduceTurn (AW0 c) c = true ∧ writeTurn (AW0 c) c = true
      ∧ (tryCtx (AW0 c) c (fun r => (reduceEntry c r).map (didWork c 1))).isSome = true)
    ∧ (let c := cmd (.fwalk 0 0 1 true 0 false)
      cmdRuns (AW0 c) c 1 = true ∧ writeTurn (AW0 c) c = true ∧ (tryCtx (AW0 c) c (fun r => (walkRun c r).map (didWork c 1))).isSome = true)
    ∧ (let c := cmd (.stepa 0 1 0 4096)
      cmdRuns (AW0 c) c 1 = true ∧ (tryCtx (AW0 c) c (fun r => some (didWork c 1 (stepaEntry c 0 1 0 4096 r)))).isSome = true)
    ∧ (let c := cmd (.stepo 0 1 0 4096)
      cmdRuns (AW0 c) c 1 = true ∧ (tryCtx (AW0 c) c (fun r =>
        if writeTurn r.s c then (stepoEntry c 0 1 0 4096 r).map (didWork c 1) else none)).isSome = true)
    ∧ (let c := { cmd (.gath 0 1 64 1 64 0 false none) with fin := some 0, pe := some 7 }
      queueHead (AW0 c) c = true ∧ allDone c = true ∧ c.pe = some 7 ∧ c.lost = none ∧ c.ent = none ∧ ((AW0 c).hart c.hart).gid = c.gid
      ∧ (((AW0 c).hart c.hart).fifoOf 7).length < 32)
    ∧ (let c := { cmd (.scred 0 1 64 1 64 0 0 .f32 false) with owed := [64], be := some 1 }; c.owed = 64 :: [] ∧ c.be.isSome = true)
    ∧ (let c := cmd (.stflush 0)
      cmdEngine c.work = 3 ∧ engineGoes (AW0 c) c.part (cmdSource c) 1 1 = true
      ∧ ((AW0 c).cmds.find? fun d => cmdEngine d.work == 3 && d.hart == c.hart && d.part == c.part
        && d.ent == c.ent && d.lost == c.lost) = some c) := by decide +kernel

/-- Sheaf 0 of the execute strand's hart is initialised with an empty range and holds two coordinates; the vector has two. -/
def SH : State := withHart (withX X [(10, 64), (11, 0x10000), (12, 0x1000), (13, 2 ^ 32), (20, 1)]) fun h =>
  { h with vl := 2, vt := 7, sheaf := [(0, { init := true, seen := 0x1000, u := 4, ents := [1, 2] })] }

/-- A sheaf of two words of spill area, both taken. -/
def spilled : Sheaf := { sb := 0x2000, ss := 8, init := true, ents := (List.range 4098).map (BitVec.ofNat 32) }

theorem witness_Sheaves :
    canIssue SH .both 0 [] [] (groupRegs 10 4) ∧ sheafOk 64 0x10000 0x1000 (2 ^ 32) = true
    ∧ groupVals SH 10 4 = [64, 0x10000, 0x1000, 2 ^ 32] ∧ sheafOk 1 0 0 0 = false ∧ walkInto SH 1 = false
    ∧ walkInto { SH with cmds := [{ cmd (.fwalk 0 0 1 false 1 false) with part := partIx SH 3, ent := none }] } 1 = true
    ∧ canIssue SH .both 0 [] [.x 3] [] ∧ canIssue SH .execute 0 [] [] []
    ∧ coordTy (vcx SH).ty = true ∧ coordTy (vcx X).ty = false ∧ (SH.myHart.sheafOf 0).init = true
    ∧ (SH.myHart.sheafOf 1).init = false
    ∧ (let t := SH.myHart.sheafOf 0; let es := activeCoords SH (vcx SH) ⟨.base, .none, 0, 0⟩
      t.ents.length + es.length ≤ t.capacity ∧ t.seen ≠ 0 ∧ (∀ p ∈ es, p.2 < t.u)
      ∧ good (seenLocs (spaceOf SH SH.h) t (t.capacity - t.ents.length) es (Run.start SH)) = true
      ∧ good (seenLocs (spaceOf SH SH.h) { t with u := 0 } (t.capacity - t.ents.length) es (Run.start SH)) = false
      ∧ noRoom { t with ents := (List.range (t.capacity - 1)).map (BitVec.ofNat 32) } es = some 1)
    ∧ good (backOnChip SH spilled 2 (Run.start SH)) = true ∧ good (backOnChip { SH with bad := [0x2005] } spilled 2 (Run.start { SH with bad := [0x2005] })) = false
    ∧ endsWell SH [] := by unfold canIssue endsWell; decide +kernel

/-- Monitor 0 armed on f32 with a nonzero sum; monitor 1 armed with none; a bound at 0x2028 that is negative. -/
def MO : State := withCore (withX { A with mem := words (0x2028 + 36) [0x80000000] }
    [(10, 0x1000), (11, 4 * 2 ^ 32), (12, 16), (13, 9), (20, 0x1000), (21, 0x2000), (22, 0x1001), (23, 4), (24, 15)])
  fun c => { c with mon := [(0, { sum := 1, arm := true, fmt := 9 }), (1, { arm := true, fmt := 9 })] }

theorem witness_ConservationMonitors :
    canIssue MO .both 0 [] [] (groupRegs 10 4) ∧ armOk (groupVals MO 10 4) = true ∧ armOk (groupVals MO 20 4) = false
    ∧ canIssue MO .both 0 [.x 20] [] [] ∧ (srcOf MO [.x 20] 0).toNat % 8 = 0 ∧ (srcOf MO [.x 22] 0).toNat % 8 ≠ 0
    ∧ (onOk (loadDoubles MO 0x1000 10 (Run.start MO)) fun b => !(BitVec.ofNat 320 (ofLe (b.1.drop 40))).msb) = true
    ∧ (onOk (loadDoubles MO 0x2000 10 (Run.start MO)) fun b => (BitVec.ofNat 320 (ofLe (b.1.drop 40))).msb) = true
    ∧ canIssue MO .both 0 [] [] [] ∧ monDrift (monOf (MO.core MO.c) 0) = true ∧ monDrift (monOf (MO.core MO.c) 1) = false
    ∧ canIssue MO .both 0 [.x 24] [.x 3] [] ∧ (srcOf MO [.x 23] 0).toNat < 5 ∧ (srcOf MO [.x 24] 0).toNat = 15
    ∧ 16 ≤ (srcOf MO [.x 12] 0).toNat ∧ endsWell MO [] := by unfold canIssue endsWell; decide +kernel

theorem witness_PolicyVersions :
    canIssue MO .access 0 [.x 24] [.x 3] [] ∧ srcOf MO [.x 24] 0 ≠ 0 ∧ (srcOf MO [.x 24] 0).toNat < 2 ^ 32
    ∧ (srcOf MO [.x 24] 0).toNat ≠ (MO.part (partIx MO MO.h)).ver ∧ srcOf MO [.x 0] 0 = 0 ∧ 2 ^ 32 ≤ (srcOf MO [.x 11] 0).toNat
    ∧ ({ (MO.part 0) with ver := 15 } : Part).ver = (srcOf MO [.x 24] 0).toNat ∧ endsWell MO [] := by
  unfold canIssue endsWell; decide +kernel

/-- The execute strand with vector length 2 and element type t; x registers for the operands. -/
def V (code vl : Nat) : State :=
  withHart (withX X [(1, 9), (2, 32), (3, 5), (4, 0x1000), (5, 255), (6, 256), (7, 0x1002), (8, 2)]) fun h =>
    { h with vt := code, vl := vl, m := [(1, 1), (2, 3)] }

theorem witness_VectorConfiguration :
    canIssue (V 9 2) .execute 0 [.x 1] [.x 3] [] ∧ 32 ≤ (srcOf (V 9 2) [.x 2] 0).toNat ∧ Ty.ofCode 17 = none
    ∧ (srcOf (V 9 2) [.x 1] 0).toNat < 32 ∧ Ty.ofCode (srcOf (V 9 2) [.x 1] 0).toNat = some .f32
    ∧ canIssue (V 9 2) .execute 0 [.x 5, .x 1] [.x 3] [] ∧ canIssue (V 9 2) .execute 0 [] [.x 3] []
    ∧ endsWell (V 9 2) [] := by unfold canIssue endsWell; decide +kernel

theorem witness_VectorIntegerArithmetic :
    canIssue (V 3 2) .execute 0 (vsrcs (.s (.x 1))) [] [] ∧ canIssue (V 0 2) .execute 0 (vsrcs (.v 4)) [] []
    ∧ (vcx (V 3 2)).ty.isInt = true ∧ (vcx (V 0 2)).ty.isInt = true ∧ (vcx (V 9 2)).ty.isInt = false
    ∧ endsWell (V 3 2) [] := by unfold canIssue endsWell; decide +kernel

theorem witness_VectorFloatArithmetic :
    canIssue (V 9 2) .execute 0 (vsrcs (.i 1)) [] [] ∧ canIssue (V 9 2) .execute 0 [] [] []
    ∧ halfTy (vcx (V 9 2)).ty = true ∧ halfTy (vcx (V 12 2)).ty = false ∧ (0 : Nat) < 1
    ∧ ((-200 : Int) ≤ -400 / 2 ^ 1 ∧ (401 / 2 ^ 1 : Int) ≤ 200 ∧ ((401 : Int) % 2 ^ 1).toNat ≠ 0 ∧ ((-400 : Int) % 2 ^ 1).toNat = 0)
    ∧ endsWell (V 9 2) [] := by
  unfold canIssue endsWell; decide +kernel

theorem witness_ComparesMasksConversions :
    canIssue (V 3 2) .execute 0 (vsrcs (.s (.x 1))) [] [] ∧ (vcx (V 3 2)).ty.isInt = true ∧ (vcx (V 9 2)).ty.isInt = false
    ∧ halfTy (vcx (V 9 2)).ty = true ∧ halfTy (vcx (V 3 2)).ty = false ∧ canIssue (V 3 2) .execute 0 [] [.x 3] []
    ∧ (plain .f16 .f32 && (Ty.f16 == .f32 || widens .f16 .f32)) = true ∧ (plain .f32 .f16 && (Ty.f32 == .f16 || widens .f32 .f16)) = false
    ∧ (narrower .f32 .f16 && Ty.f32.isFloat) = true ∧ (narrower .i32 .i8 && Ty.i32.isFloat) = false
    ∧ groupBad 0 ((vcx (V 9 2)).groupN 16) = false ∧ groupBad 31 ((vcx (V 9 256)).groupN 64) = true
    ∧ endsWell (V 9 2) [] := by unfold canIssue endsWell; decide +kernel

theorem witness_MovesAndReductions :
    canIssue (V 3 2) .execute 0 (vsrcs (.v 4)) [] [] ∧ groupBad (vregOf (.v 4)) ((vcx (V 3 2)).groupN 32) = false
    ∧ groupBad (vregOf (.v 31)) ((vcx (V 1 512)).groupN 32) = true ∧ (V 3 2).choice.stop = none ∧ heldRed (V 3 2) = none
    ∧ (vcx (V 3 2)).vl ≤ 8192 ∧ (vcx (V 3 2)).ty.isInt = true
    ∧ (V 3 2).pSat ≠ 1 ∧ (withStrand (V 3 2) fun st => { st with pfx := some ⟨0, 1, false⟩ }).pSat = 1
    ∧ halfTy (vcx (V 9 2)).ty = true ∧ halfTy (vcx (V 3 2)).ty = false ∧ (vcx (V 9 2)).ty.isInt = false
    ∧ canIssue (V 3 2) .execute 0 [] [.x 3] [] ∧ (vcx (V 3 2)).hs.length = 1 ∧ groupBad 0 ((vcx (V 3 2)).groupN 32) = false
    ∧ canIssue (V 3 2) .execute 0 (vsrcs (.i 5)) [.x 3] [] ∧ canIssue (V 3 2) .execute 0 [.x 1] [] [0]
    ∧ (vcx (V 3 2)).vl ≤ countOf (.i 5) (srcOf (V 3 2) (vsrcs (.i 5)) 0) ∧ (getX (V 3 2).me 0).toNat < (vcx (V 3 2)).vl
    ∧ endsWell (V 3 2) [] := by unfold canIssue endsWell; decide +kernel

theorem witness_VectorResultFrame :
    (4 ∈ [4, 8, 16, 32, 64] ∧ 1024 * 4 ≤ 4096 ∧ (64 : Nat) ∈ [4, 8, 16, 32, 64] ∧ 64 * 64 ≤ 4096)
    ∧ (∀ p ∈ ([(0, 1), (1023, 15)] : List (Nat × Nat)), p.1 < 1024) ∧ (([(0, 1), (1023, 15)] : List (Nat × Nat)).map (·.1)).Nodup := by
  decide

theorem witness_AftermathQueue :
    canIssue (V 9 2) .execute 0 (vsrcs (.s (.x 5))) [] [] ∧ countOf (.s (.x 5)) (srcOf (V 9 2) (vsrcs (.s (.x 5))) 0) = 255
    ∧ 256 ≤ countOf (.s (.x 6)) (srcOf (V 9 2) (vsrcs (.s (.x 6))) 0)
    ∧ (V 9 2).myHart.aft.length + ((vcx (V 9 2)).active (V 9 2) .none).length ≤ 1024 + (V 9 2).myHart.aftSize.toNat / 64
    ∧ (let s := withHart (V 9 2) fun h => { h with aft := List.replicate 1023 ⟨0, 0, []⟩ };
      ¬ s.myHart.aft.length + ((vcx s).active s .none).length ≤ 1024 + s.myHart.aftSize.toNat / 64)
    ∧ groupBad 31 ((vcx (V 0 1024)).groupN 32) = true ∧ groupBad 0 ((vcx (V 9 2)).groupN 32) = false
    ∧ canIssue (V 9 2) .execute 0 [] [.x 3] [] ∧ endsWell (V 9 2) [] := by unfold canIssue endsWell; decide +kernel

/-- Loads of f32 at 0x1000, of a block type, and one whose second element has no mapping; a first-fault load of it. -/
theorem witness_VectorLoads :
    canIssue (V 9 2) .execute 0 [.x 4] [] [0] ∧ loadChecks (vcx (V 9 2)) (memTy (V 9 2)) ⟨0, .none, 0x1000, 0, .unit, .floor, 0⟩ 0 = none
    ∧ (loadElems (V 9 2) (vcx (V 9 2)) (memTy (V 9 2)) ⟨0, .none, 0x1000, 0, .unit, .floor, 0⟩ (List.range 2) { run := Run.start (V 9 2) }).fault.isNone
        = true
    ∧ ((loadElems (V 9 2) (vcx (V 9 2)) (memTy (V 9 2)) ⟨0, .none, 0xFFFFFFFFFC, 0, .unit, .floor, 0⟩ (List.range 2)
        { run := Run.start (V 9 2) }).fault.any fun f => f.1 == 1) = true
    ∧ ((loadElems (V 9 2) (vcx (V 9 2)) (memTy (V 9 2)) ⟨0, .none, 0xFFFFFFFFFC, 0, .strided 2, .floor, 0⟩ (List.range 2)
        { run := Run.start (V 9 2) }).fault.any fun f => f.1 == 1) = true
    ∧ ((loadElems (V 9 2) (vcx (V 9 2)) (memTy (V 9 2)) ⟨0, .none, 0x10000000000, 0, .indexed 4, .floor, 0⟩ (List.range 2)
        { run := Run.start (V 9 2) }).fault.any fun f => f.1 == 0) = true
    ∧ (loadChecks (vcx (V 3 2)) (memTy (V 3 2)) ⟨0, .none, 0x1000, 0, .unit, .floor, 0⟩ 1).isSome = true
    ∧ loadChecks (vcx (V 9 2)) (memTy (V 9 2)) ⟨0, .none, 0x1000, 0, .indexed 4, .floor, 0⟩ 0 = none
    ∧ (memTy (V 9 2)).isBlock = false ∧ endsWell (V 9 2) [] := by unfold canIssue endsWell; decide +kernel

/-- Block headers at 0x1000, and at an unmapped address. -/
theorem witness_VectorLoads_headers :
    (let s := withHart (V 9 32) fun h => { h with mfcCtl := h.mfcCtl.toNat / 32 * 32 + 16 };
      (memTy s).isBlock = true ∧ (loadHdrs s (vcx s) (memTy s) 0 0x1000 1 1 { run := Run.start s }).fault.isNone = true
      ∧ ((loadHdrs s (vcx s) (memTy s) 0 0x10000000000 1 1 { run := Run.start s }).fault.any fun f => f.1 == 0) = true) := by decide +kernel

/-- A strip with room, a full one, a strand in its trap handler, a block-quantising store. -/
theorem witness_VectorStores :
    canIssue (V 9 2) .execute 0 [.x 4] [] [0] ∧ (V 9 2).me.tcause.getLsbD 63 = false
    ∧ (withStrand (V 9 2) fun st => { st with tcause := 0x8000000000000000 }).me.tcause.getLsbD 63 = true
    ∧ storeChecks (vcx (V 9 2)) (memTy (V 9 2)) ⟨0, .none, 0x1000, 0, .unit, .floor, 0⟩ 0 = none
    ∧ (onOk (storeElems (V 9 2) (vcx (V 9 2)) (memTy (V 9 2)) ⟨0, .none, 0x1000, 0, .unit, .floor, 0⟩ (List.range 2) { run := Run.start (V 9 2) })
        fun l => decide (stripBytes ((V 9 2).myHart.strip ++ markFirst l.ents.reverse) ≤ 16384)
          && decide (16384 < stripBytes (⟨.mem 0 0 none, List.replicate 16384 0, 0, true, [], 0⟩ :: markFirst l.ents.reverse))) = true
    ∧ good (storeElems (V 9 2) (vcx (V 9 2)) (memTy (V 9 2)) ⟨0, .none, 0x10000000000, 0, .strided 4, .floor, 0⟩ (List.range 2)
        { run := Run.start (V 9 2) }) = false
    ∧ (storeChecks (vcx (V 9 2)) (memTy (V 9 2)) ⟨0, .none, 0x1000, 0, .unit, .floor, 0⟩ 1).isSome = true
    ∧ good (storeHdrs (V 9 2) (vcx (V 9 2)) 0 0x1000 (List.range 1) { run := Run.start (V 9 2) }) = true
    ∧ good (storeHdrs (V 9 2) (vcx (V 9 2)) 0 0x1002 (List.range 1) { run := Run.start (V 9 2) }) = false
    ∧ halfTy (vcx (V 9 2)).ty = true ∧ halfTy (vcx (V 3 2)).ty = false ∧ canIssue (V 9 2) .execute 0 [] [] []
    ∧ (V 9 2).holds = false ∧ ({ V 9 2 with choice := { hold := true } } : State).holds = true ∧ endsWell (V 9 2) [] := by unfold canIssue endsWell; decide +kernel

theorem witness_VectorStores_blocks :
    (let s := withHart (V 9 32) fun h => { h with mfcCtl := 0x1E010 };
      (memTy s).isBlock = true ∧ (candidates (memTy s) s.myHart.mfcCtl.toNat s.myHart.mfcLt).isEmpty = false
      ∧ (vcx s).vl % 32 = 0 ∧ (vcx (V 9 2)).vl % 32 ≠ 0
      ∧ good (quantBlocks s (vcx s) (memTy s) 0 0x1000 0x2000 (List.range 1) { run := Run.start s } []) = true
      ∧ good (quantBlocks s (vcx s) (memTy s) 0 0x10000000000 0x2000 (List.range 1) { run := Run.start s } []) = false)
    ∧ (memTy (V 9 2)).isBlock = false := by decide +kernel

/-- Core 0 with 32 rows granted, tile 1 owned by a run, tile 2 with a fault; x1 is 32 rows, x2 a K step of one row and one
column; x10 on: a descriptor of a run of one step. -/
def run0 : TmRun := ⟨1, [], false, false, false, {}, [], 0, 3⟩
def TM : State := withCore (withX X [(1, 32), (2, 0x2521901), (3, 33), (4, 255), (5, 256), (6, 0x1000), (7, 0x1001),
    (10, 0x1000000), (12, 0x100000020), (13, 0x1001000), (15, 0x100000020), (16, 0x100000101), (17, 0x129)])
  fun c => { c with rows := 32, ext := 256 }
def TR : State := withCore TM fun c => { c with runs := [run0], tst := [(2, { flt := true, cause := 3 })] }

theorem witness_TupleMatrixUnit :
    canIssue TM .execute 0 [.x 1] [.x 3] [] ∧ (srcOf TM [.x 1] 0).toNat ∈ [32, 64, 96, 128] ∧ (srcOf TM [.x 3] 0).toNat ∉ [32, 64, 96, 128]
    ∧ TM.myCore.runs = [] ∧ TR.myCore.runs ≠ [] ∧ ownsTile TR.myCore 1 = true ∧ ownsTile TR.myCore 2 = false
    ∧ (srcOf TM [.x 6] 0).toNat % 8 = 0 ∧ (srcOf TM [.x 7] 0).toNat % 8 ≠ 0
    ∧ (onOk (scalarLoad TM 0x1000 8 (Run.start TM)) fun p => good (loadHalves TM 0x1008 (8 ^ (ofLe p.1 % 4)) p.2)) = true
    ∧ (algOf 0 [0]).isSome = true ∧ (algOf 4 [0]).isNone = true ∧ good (storePieces TM 200 0x1000 TM.myCore.alg.image (Run.start TM)) = true
    ∧ canIssue TM .execute 0 [] [] (groupRegs 10 8)
    ∧ runFault TM 0 ((groupRegs 10 8).map (getX TM.me)) = none ∧ (runFault TM 0 ((groupRegs 11 8).map (getX TM.me))).isSome = true
    ∧ TM.myCore.runs.length < 4 ∧ (srcOf TM [.x 4] 0).toNat < 256 ∧ (srcOf TM [.x 4] 0).toNat < TM.myCore.ext
    ∧ 256 ≤ (srcOf TM [.x 5] 0).toNat ∧ trises 0 (TM.myCore.tile 0) = true ∧ (TR.myCore.tst' 2).flt = true
    ∧ (TM.myCore.tst' 2).flt = false := by unfold canIssue; decide +kernel

theorem witness_TupleMatrixUnit_steps :
    (let w := (srcOf TM [.x 2] 0).toNat;
      w % 256 = 1 ∧ w / 256 % 512 = 25 ∧ tmType (w / 2 ^ 17 % 32) = some .f32 ∧ tmType (w / 2 ^ 22 % 32) = some .f32 ∧ w < 2 ^ 27
      ∧ w % 256 ≤ TM.myCore.rows ∧ w / 256 % 512 ≤ 256 / TM.myCore.alg.d)
    ∧ canIssue TM .execute 0 [.x 2] [] [] ∧ groupBad 0 (tmGroup 1 .f32) = false ∧ groupBad 7 (tmGroup 25 .f32) = false
    ∧ badBlock TM.myHart 0 1 .f32 = none ∧ (TR.core 0).runs = run0 :: [] ∧ run0.tile = 1
    ∧ engineGoes TR (partIx TR run0.hart) (5760 + 0 / 4) 1 1 = true ∧ TR.dev.off = false ∧ endsWell TM [] := by
  unfold canIssue endsWell; decide +kernel

/-- Hart 0 of partition 0 with a page table, a held block of 256 bytes, a shielded frame 5, a trained link. -/
def HX : State :=
  { A with parts := [(0, { cfg := 1, cur := some 0, rlroot := [(0, 0x10001)] })], mem := paged [], ns := 300
           cores := [(0, { wc := [⟨0x4000, 0, [(0, 1)]⟩] })]
           dev := { A.dev with tags := [(5, 1)], link := some ⟨16, 64, [], 2 ^ 40⟩ } }
/-- CWB of a mapped page, and of one whose page table holds an uncorrectable error. -/
theorem witness_MaintenanceInstructions_caches :
    canIssue { HX with cur := 0 } .both 0 [.x 4, .x 6] [] []
    ∧ good (cacheOp { HX with cur := 0 } 0 64 false (Run.start { HX with cur := 0 })) = true
    ∧ (let s : State := { HX with cur := 0, bad := [0x10000] }; good (cacheOp s 0 64 false (Run.start s)) = false) := by
  unfold canIssue; decide +kernel

/-- Partition 0 has a ring of two requests at 0x20000 whose first has this operation. -/
def XR (op : Nat) : State :=
  { A with parts := [(0, { cfg := 1, xlring := 0x20001 })]
           mem := writeBytes (writeBytes [] 0x20000 (leBytes 8 1)) 0x20040 (leBytes 8 op) }

theorem witness_HostTranslatorAndResetEvents :
    HX.dev.off = false ∧ ((HX.core 0).wc.find? (fun b => b.pa == 0x4000 && decide (b.since + (HX.core 0).wcwait ≤ HX.cycles 0))).isSome = true
    ∧ (spaceOf HX 0).user = true ∧ canonical 0x3FFFFFFF = true ∧ tlbFind HX (spaceOf HX 0) 0x3FFFFFFF = none
    ∧ good (fillTlb (Run.start HX) (spaceOf HX 0) 0x3FFFFFFF) = true ∧ good (fillTlb (Run.start HX) (spaceOf HX 0) 0x40000000) = false
    ∧ (16 : Nat) ∈ [16, 8, 4] ∧ (32 : Nat) ∈ [64, 32] ∧ HX.dev.link.isSome = true
    ∧ (63 % 64 + 1 ≤ 64 ∧ 2 ^ 40 - 64 + 64 ≤ 2 ^ 40) ∧ shielded HX 4 = false ∧ shielded HX 5 = true
    ∧ 2 ^ 51 ≤ 2 ^ 52 - 1 ∧ (nextRequest (XR 1) 0).isSome = true
    ∧ ((nextRequest (XR 1) 0).any fun q => dbl q.bytes 0 == 1 && (serveModule (XR 1) 0 q true).isSome) = true
    ∧ ((nextRequest (XR 2) 0).any fun q => dbl q.bytes 0 == 2 && (serveModule (XR 2) 0 q false).isSome) = true
    ∧ ((nextRequest (XR 3) 0).any fun q => dbl q.bytes 0 == 3
        && (answer 0 q { key := requestKey q, status := 1, rsize := 0 } (Run.start (XR 3))).isSome) = true
    ∧ ((nextRequest (XR 4) 0).any fun q => dbl q.bytes 0 == 4
        && (answer 0 q { key := requestKey q, status := 1, rsize := 0 } (Run.start (XR 4))).isSome) = true
    ∧ (5 ∈ taggedFrames HX ∧ 4 ∉ taggedFrames HX) ∧ Memory.wf HX.mem = true := by decide +kernel

/-- Slot 0 belongs to partition 0; its episode has the state, the call and the RAM given. -/
def EPI (cmds : List (Nat × Nat)) (t : Slot) : State := { A with parts := [(0, { cfg := 1, stgrp := 1, stcmds := cmds })], slots := [(0, t)] }
/-- What the next instruction does: 0 a call, 1 an exception, 2 an effect, 3 an effect with a store. -/
def nextKind (s : State) : Nat :=
  match rvNext (applyAll (resumeUpds s 0) s) 0 ((applyAll (resumeUpds s 0) s).slot 0) with
  | .call .. => 0
  | .exc _ => 1
  | .eff e => if e.store.isSome then 3 else 2
/-- An episode that runs these words. -/
def rv (ws : List Nat) (x : Tab Word) : Slot := { state := 2, ram := words 0 ws, cpu := { x := x } }

theorem witness_EpisodesAndCrofts :
    (EPI [(1, 0)] {}).dev.off = false ∧ ((EPI [(1, 0)] {}).part 0).stcmds = (1, 0) :: []
    ∧ slotOwned ((EPI [(1, 0)] {}).part 0) 127 = true ∧ slotOwned ((EPI [(1, 0)] {}).part 0) 128 = false
    ∧ ((EPI [(1, 0)] { state := 1 }).slot 0).active = true ∧ ((EPI [(1, 0)] { state := 3 }).slot 0).active = false
    ∧ good (readEpisode (EPI [(1, 0)] {}) 0 0) = false
    ∧ good (readEpisode { EPI [(1, 0)] {} with mem := writeBytes [] 16 (leBytes 8 8), bad := [20] } 0 0) = false
    ∧ imageBad A { imageLen := 4, image := [(0x1000, none)] } = none
    ∧ imageBad { A with bad := [5, 0x1003] } { imageLen := 4, image := [(0x1000, none)] } = some 0x1003
    ∧ good (readEpisode { EPI [(1, 0)] {} with mem := writeBytes [] 16 (leBytes 8 8) } 0 0) = true
    ∧ (let t : Slot := { state := 2, held := [⟨leBytes 8 (2 ^ 32) ++ leBytes 8 0⟩], ver := 1 };
      actFits t ⟨leBytes 8 (2 ^ 32) ++ leBytes 8 0⟩ = true ∧ t.admits ⟨leBytes 8 (2 ^ 32) ++ leBytes 8 0⟩ = true
      ∧ { t with ver := 2 }.admits ⟨leBytes 8 (2 ^ 32) ++ leBytes 8 0⟩ = false)
    ∧ (let t : Slot := { state := 2, heldObs := [obsRec 1 0 []] }; t.call.isNext = false ∧ (obsRec 1 0 []).cells ≤ t.room)
    ∧ (let t : Slot := { state := 2, wall := 1, step := some ⟨0, 0, none⟩ };
      expired { A with ns := 1001 } t = true ∧ expired { A with ns := 1000 } t = false)
    ∧ (let t : Slot := { state := 2, call := .take 0xF000, acts := [⟨leBytes 8 0 ++ leBytes 8 0⟩] };
      croftOn (EPI [] t) 0 = true ∧ expired (EPI [] t) t = false)
    ∧ (let t : Slot := { state := 2, call := .post 0 0 none };
      postFits t 0 0 none = true ∧ postFits { t with obs := List.replicate 64 (obsRec 0 0 []) } 0 0 none = false)
    ∧ mayRun (EPI [] { state := 2, call := .stamp }) 0 = true := by decide +kernel

/-- ECALL with call 1, ADDI, SD and an all-zero word. -/
theorem witness_EpisodesAndCrofts_instructions :
    mayRun (EPI [] (rv [0x73] [(17, 1)])) 0 = true ∧ ((EPI [] (rv [0x73] [(17, 1)])).slot 0).call = .none
    ∧ nextKind (EPI [] (rv [0x73] [(17, 1)])) = 0 ∧ nextKind (EPI [] (rv [0x00150513] [])) = 2
    ∧ nextKind (EPI [] (rv [0x00B53023] [(10, 8)])) = 3 ∧ nextKind (EPI [] (rv [0] [])) = 1
    ∧ (let s := EPI [] (rv [0] []); let v := applyAll (resumeUpds s 0) s; rvMeetsBad v 0 (v.slot 0) = none)
    ∧ (let s := EPI [] (rv [0] []); let v := applyAll (resumeUpds s 0) s;
      match rvNext v 0 (v.slot 0) with | .exc e => e = [(2, [0, 0])] | _ => False) := by
  refine ⟨by decide +kernel, by decide +kernel, by decide +kernel, by decide +kernel, by decide +kernel, by decide +kernel,
    by decide +kernel, ?_⟩
  rfl

theorem witness_DecodeEncodeRoundTrip :
    (Instr.vld ⟨.ext, .xm 0, 31, .q 7, 63, .sys⟩).wf = true ∧ (Instr.addi ⟨.ext, .q 7, .x 63, -(2 ^ 27)⟩).wf = true
    ∧ (Instr.waitm ⟨.long, .q 4, .q 0, .imm (-1), 63⟩).wf = true := by decide

/-- A store at reset, as the next step: memory is canonical before and after. -/
theorem witness_StepKeepsMemoryCanonical :
    (A.withFetchWord 32 0x00000034).memOk ∧ ∃ t, step (A.withFetchWord 32 0x00000034) = .next t :=
  ⟨by unfold State.memOk; decide, ⟨_, rfl⟩⟩

/-- Fetches that succeed and fail, words of no row, an ADD and a MOD, and each kind of turn of the schedule. -/
theorem witness_StepRunsDecoded :
    A.sched = [] ∧ runnable A A.cur = true ∧ runnable A 0 = false
    ∧ (let s := withStrand A fun st => { st with pc := 0x0100000000000000 }; good (fetchInstr (Run.start s) s.h s.me.pc).1 = false)
    ∧ onOk (fetchInstr (Run.start A) A.h A.me.pc).1 (fun ws => decode ws == none) = true
    ∧ (let s := A.withFetchWord 32 0x00718504;
      onOk (fetchInstr (Run.start s) s.h s.me.pc).1 (fun ws => decode ws == some (.add ⟨.base, .x 5, .x 6, .x 7⟩)) = true)
    ∧ (let s := A.withFetchWord 32 0x00002958;
      onOk (fetchInstr (Run.start s) s.h s.me.pc).1 (fun ws => decode ws == some (.mod ⟨1, 1, true⟩)) = true)
    ∧ isEvent (.powerLoss) = true ∧ A.choice = {} ∧ A.myHart.loadsDone = true ∧ coreOn A (3 / 4) = true
    ∧ slotStrands { A with ns := 16 } 0 = [6, 7] ∧ slotStrands A 0 = []
    ∧ (match stepStrand { A with ns := 16 } 6 with | .next _ => true | _ => false) = true := by decide +kernel

/-! ### One step -/

/-- The instruction answers a next state, which meets p. -/
def ran (i : Instr) (s : State) (p : State → Bool) : Bool :=
  match exec i s with
  | .next t => p t
  | _ => false
/-- Register r of the strand that moves. -/
def xOf (s : State) (r : Nat) : Word := getX s.me r
/-- The prefix of a MOD in force, its MOD at 0. -/
def pre (s : State) (rnd sat : Nat) : State := withStrand s fun st => { st with pfx := some ⟨rnd, sat, false⟩, pc := 4 }

/-- Two's complement wrap (R81), and saturation under MOD sat (R72). -/
theorem test_add :
    (let s := withX A [(1, 0x7FFFFFFFFFFFFFFF), (2, 1)];
      ran (.add ⟨.base, .x 3, .x 1, .x 2⟩) s (fun t => xOf t 3 == 0x8000000000000000 && t.me.pc == 4)
      && ran (.add ⟨.base, .x 3, .x 1, .x 2⟩) (pre s 0 1) (fun t => xOf t 3 == 0x7FFFFFFFFFFFFFFF && t.me.pc == 8)) = true := by decide

/-- 02, below R28: `ADD q4, q0, q0` pops two entries, first xa and then xb, and pushes their sum. -/
theorem test_add_queues :
    (let s := withHart X fun h => { h with q := [(0, [3, 4, 5])] };
      ran (.add ⟨.ext, .q 4, .q 0, .q 0⟩) s fun t => t.myHart.queue 0 == [5] && t.myHart.queue 4 == [7] && t.me.pc == 12) = true := by
  decide

/-- 04, below R81: −6 by 2 is −2 under MOD rne and without a MOD, −1 under rtz. -/
theorem test_sha_rounds :
    (let s := withX A [(4, -6), (5, 2)];
      ran (.sha ⟨.base, .x 3, .x 4, .x 5⟩) (pre s 1 0) (fun t => xOf t 3 == -2)
      && ran (.sha ⟨.base, .x 3, .x 4, .x 5⟩) s (fun t => xOf t 3 == -2)
      && ran (.sha ⟨.base, .x 3, .x 4, .x 5⟩) (pre s 2 0) (fun t => xOf t 3 == -1)) = true := by decide

/-- 04 Table 4.1: division by zero gives −1 and the remainder its dividend; the quotient of −2^63 by −1 wraps. -/
theorem test_division_corners :
    (let s := withX A [(1, 0x8000000000000000), (2, -1), (3, 7)];
      ran (.div ⟨.base, .x 4, .x 3, .x 0⟩) s (fun t => xOf t 4 == -1) && ran (.rem ⟨.base, .x 4, .x 3, .x 0⟩) s (fun t => xOf t 4 == 7)
      && ran (.div ⟨.base, .x 4, .x 1, .x 2⟩) s (fun t => xOf t 4 == 0x8000000000000000)) = true := by decide

/-- Little-endian stores, and loads that extend (04 Table 4.3). -/
theorem test_store_and_load :
    (let s := withX A [(1, 0x1000), (2, 0x80FF)];
      ran (.sth ⟨.base, .x 2, .x 1, 1⟩) s fun t => t.byte 0x1002 == 0xFF && t.byte 0x1003 == 0x80 && t.byte 0x1001 == 0
        && ran (.ldh ⟨.base, .x 3, .x 1, 1⟩) t (fun u => xOf u 3 == 0xFFFFFFFFFFFF80FF)
        && ran (.ldbn ⟨.base, .x 3, .x 1, 3⟩) t (fun u => xOf u 3 == 0x80)) = true := by decide

/-- A misaligned load traps with cause 10 to the handler, and ERET goes back to it (R370, R372). -/
theorem test_trap_and_return :
    (let s := withStrand (withX A [(1, 0x1001)]) fun st => { st with pc := 8, tvec := 64 };
      ran (.ldd ⟨.base, .x 3, .x 1, 0⟩) s fun t => t.me.pc == 64 && t.me.tpc == 8 && t.me.tval == 0x1001
        && t.me.tcause.toNat % 256 == 10 && t.me.tcause.getLsbD 63 && xOf t 3 == 0
        && ran (.eret .base) t (fun u => u.me.pc == 8 && !u.me.tcause.getLsbD 63)) = true := by decide

/-- A taken branch, a loop's return and its end (R89, R51). -/
theorem test_branch_and_loop :
    (ran (.blt ⟨.base, .x 3, .x 4, -2⟩) (withStrand (withX A [(3, -1), (4, 0)]) fun st => { st with pc := 16 }) (fun t => t.me.pc == 8)
    && ran (.loop ⟨.base, 0, .x 4, 1⟩) (withX A [(4, 2)]) fun t => ran (.li ⟨.base, .x 1, 1⟩) t fun u => u.me.pc == 8
        && ran (.li ⟨.base, .x 1, 1⟩) u fun v => v.me.pc == 4 && ran (.li ⟨.base, .x 1, 1⟩) v fun w =>
          ran (.li ⟨.base, .x 1, 1⟩) w fun z => z.me.pc == 12 && z.me.loops == []) = true := by decide

/-- A vector add leaves the elements past VL alone, and a float add of 1 and 1 is 2 (R167, R184). -/
theorem test_vector_adds :
    (ran (.vadd ⟨.base, .none, 2, 1, .i (-1)⟩) (withHart (V 3 2) fun h => { h with v := [(1, 0x100000000), (2, 5 * 2 ^ 64)] })
      (fun t => regElem t.myHart 2 32 0 == 0xFFFFFFFF && regElem t.myHart 2 32 1 == 0 && regElem t.myHart 2 32 2 == 5)
    && ran (.vfadd ⟨.base, .none, 2, 1, .i 1⟩) (withHart (V 9 1) fun h => { h with v := [(1, 0x3F800000)] })
      (fun t => regElem t.myHart 2 32 0 == 0x40000000)) = true := by decide +kernel

/-- The root of 2 and 2 to the power 1/2 are both 1.41421356… (R184). -/
theorem test_vector_roots :
    (ran (.vfsqrt ⟨.base, .none, 2, 1⟩) (withHart (V 9 1) fun h => { h with v := [(1, 0x40000000)] })
      (fun t => regElem t.myHart 2 32 0 == 0x3FB504F3)
    && ran (.vfexp2 ⟨.base, .none, 2, 1⟩) (withHart (V 9 1) fun h => { h with v := [(1, 0x3F000000)] })
      (fun t => regElem t.myHart 2 32 0 == 0x3FB504F3)) = true := by decide +kernel

/-- 06 Table 6.12: the worked block is e2m1 under the header 0x1FD with codes 5, 11, 1, 7; and 1, 2, 3 is i4 under 0x1F8. -/
theorem test_block_choice :
    (((quantise .sb4 0x1E000 [] ([(.num 3 1, 0), (.num (-3) 2, 0), (.num 1 2, 0), (.num 6 1, 0)] ++ List.replicate 28 (.zero false, 0))).any
      fun q => q.hdr == 0x1FD && q.codes.take 5 == [5, 11, 1, 7, 0])
    && ((quantise .sb4 0x1E000 [] ([(.num 1 1, 0), (.num 2 1, 0), (.num 3 1, 0)] ++ List.replicate 29 (.zero false, 0))).any
      fun q => q.hdr == 0x1F8 && q.codes.take 4 == [2, 4, 6, 0])) = true := by decide +kernel

/-- 08 Table 8.12: what one TMOP makes of a tuple pair in columns 0 and 1 of tile row 0, under a table with these constants. -/
def product (cs : List (BitVec 16)) (a b : BitVec 4096) (cb : Bool) (w0 w1 : Nat) : Bool :=
  let s := withHart (withX TM [(2, 0x2520101)]) fun h => { h with v := [(0, a), (1, b)] }
  ran (.tmop ⟨.ext, 0, 0, 1, .x 2, false, cb⟩) (withCore s fun c => { c with alg := ⟨1, 2, true, cs⟩ }) fun t =>
    tget 0 (t.myCore.tile 0) 0 == BitVec.ofNat 32 w0 && tget 0 (t.myCore.tile 0) 1 == BitVec.ofNat 32 w1
    && (t.myCore.tst' 0).steps == 1
def complex : List (BitVec 16) := [0x3C00, 0, 0, 0x3C00, 0, 0x3C00, 0xBC00, 0]
def dual : List (BitVec 16) := [0x3C00, 0, 0, 0x3C00, 0, 0x3C00, 0, 0]

/-- 08 Table 8.12. -/
theorem test_tuple_product :
    (product complex 0x400000003F800000 0x4080000040400000 false 0xC0A00000 0x41200000
    && product dual 0x400000003F800000 0x4080000040400000 false 0x40400000 0x41200000
    && product complex 0x400000003F800000 0x4080000040400000 true 0x41300000 0x40000000
    && product dual 0x400000003F800000 0x4080000040400000 true 0x40400000 0x40000000
    && product complex 0x7F80000040000000 0x0000000040400000 false 0x7FC00000 0x7F800000
    && product dual 0x7F80000040000000 0x0000000040400000 false 0x40C00000 0x7F800000) = true := by decide +kernel

/-- FIPS 180-4, SHA-256 of "abc": its first and last bytes. -/
theorem test_sha256 : (sha256 [0x61, 0x62, 0x63]).take 4 = [0xBA, 0x78, 0x16, 0xBF] := by decide +kernel

/-- FIPS 197, C.3: AES-256 of 00112233…FF under the key 000102…1F. -/
theorem test_aes256 :
    aesEnc (aesKeys ((List.range 32).map (BitVec.ofNat 8))) ((List.range 16).map fun i => BitVec.ofNat 8 (17 * i))
      = [0x8E, 0xA2, 0xB7, 0xCA, 0x51, 0x67, 0x45, 0xBF, 0xEA, 0xFC, 0x49, 0x90, 0x4B, 0x49, 0x60, 0x89] := by decide +kernel

/-- A program runs from where `withFetchWord` puts it, and a word of no row traps (R57). -/
theorem test_step :
    ((match step (withX (A.withFetchWord 32 0x00718504) [(6, 2), (7, 3)]) with | .next t => xOf t 5 == 5 && t.me.pc == 4 | _ => false)
    && (match step (withStrand A fun st => { st with tvec := 64 }) with | .next t => t.me.tcause.toNat % 256 == 1 && t.me.pc == 64 | _ => false))
      = true := by decide


/-- A later element of one VSTXO waits for an earlier one of another place, a VSTX element does not (07 R177). -/
theorem test_vstxo_held_order :
    (Held.before { loc := .mem 0 0 none, bytes := [1], ord := 1 } { loc := .mem 64 64 none, bytes := [2], ord := 1 }) = true
    ∧ (Held.before { loc := .mem 0 0 none, bytes := [1] } { loc := .mem 64 64 none, bytes := [2] }) = false := by decide

/-- A misaligned load outside the map raises the misaligned exception, not the access fault (21 Table 21.1). -/
theorem test_croft_misaligned_outside : (match rvAccess {} {} false 0x20001 4 with | .error e => e == [(4, [0x20001, 0])] | .ok _ => false) = true := by
  decide

/-- A ZERO write of a Steading register passes in the user view, a nonzero field does not (04 R102; 21 R392). -/
theorem test_user_steading_write : good (writeReg U 0x282 0) = true ∧ good (writeReg U 0x282 1) = false := by decide

/-- A state in which element 1 of hart 3's v2 may still be performed, and the double that it names now holds 9. -/
def lateLoad : State :=
  { A with cur := 7, mem := writeBytes [] 64 (leBytes 8 9),
           harts := [(3, { vt := Ty.i64.code, vl := 2, late := [{ hart := 3, reg := 2, wd := 64, pos := 1, loc := .mem 64 64 none, high := false, mt := Ty.i64.code, vt := Ty.i64.code }] })] }

/-- A late element takes what lies there when it is performed; an instruction that names its register finds it performed, one that
does not leaves it (11 R291, R293). -/
theorem test_late_load :
    (match landLate 3 0 lateLoad with | .next t => regElem (t.hart 3) 2 64 1 == 9 && (t.hart 3).late.isEmpty | _ => false) = true
    ∧ ((settle (.vadd ⟨.base, .none, 5, 2, .v 6⟩) lateLoad).hart 3).late = []
    ∧ settle (.vadd ⟨.base, .none, 5, 4, .v 6⟩) lateLoad = lateLoad ∧ settle (.vsync .base .floor) lateLoad ≠ lateLoad
    ∧ settle (.vredadd ⟨.base, .none, 5, 4, .v 6⟩) lateLoad = lateLoad := by
  decide +kernel

/-- A second uncorrectable error stays when the first is reported (24 R424). -/
theorem test_two_errors : (applyAll (reported (badData 16 16 0)) { A with bad := [16, 80] }).bad = [80] := by decide

/-- A steward's write of `part.cfg` is ignored (19 R345). -/
theorem test_steward_part_cfg : exec (.partCfgWrite 4 0 5) AP = .next AP := rfl

/-- FADD.S with FS Off is illegal (21 R386). -/
theorem test_croft_floats_off :
    (match rvNext (EPI [] (rv [0x00208053] [])) 0 ((EPI [] (rv [0x00208053] [])).slot 0) with | .exc e => e.any (·.1 == 2) | _ => false)
      = true := by decide +kernel


/-- Hart 3's execute strand has loaded x3 from 64, and the load may still be performed: 9 lies there now. -/
def lateScalar : State :=
  { X with mem := writeBytes [] 64 (leBytes 8 9),
           harts := [(3, { lateS := [{ strand := 7, reg := 3, loc := .mem 64 64 none, n := 8, sg := false }] })] }

/-- A late scalar load writes its register when it is performed; an instruction that names the register finds it performed, and
one that does not, and orders nothing, leaves it (11 R291). -/
theorem test_late_scalar :
    (match landScalar 3 0 lateScalar with | .next t => getX (t.strand 7) 3 == 9 && (t.hart 3).loadsDone | _ => false) = true
    ∧ ((settle (.add ⟨.base, .x 5, .x 3, .x 6⟩) lateScalar).hart 3).lateS = []
    ∧ ((settle (.add ⟨.base, .x 5, .x 4, .x 6⟩) lateScalar).hart 3).lateS ≠ [] := by decide +kernel

/-- Pushes beyond the 4096 entries on chip go to the spill area's ring, and a pop brings the ring's words on chip (10 R269). -/
theorem test_sheaf_ring :
    (let s := withHart SH fun h => { h with v := [(0, 5 + 7 * 2 ^ 32)], sheaf := [(0, { spilled with ents := spilled.ents.take 4096 })] };
      ran (.shpush ⟨.base, .none, 0, 0⟩) s (fun t => t.byte 0x2000 == 5 && t.byte 0x2004 == 7)) = true
    ∧ (let s := withHart { SH with mem := words 0x2000 [99] } fun h => { h with sheaf := [(0, spilled)] };
      ran (.shpopb .base 1 0) s (fun t => (t.myHart.sheafOf 0).ents.getD 3968 0 == 99 && regElem t.myHart 1 32 0 == 0
        && regElem t.myHart 1 32 127 == 127)) = true := by
  decide +kernel

/-- An e4m3 overflow that rup turns to NaN raises no NV, the rne one does (06 Table 6.5). -/
theorem test_e4m3_overflow :
    overflowF .e4m3 3 false false = (Ty.e4m3.canonNaN, 0) ∧ overflowF .e4m3 1 false false = (Ty.e4m3.canonNaN, fNV) := by decide

/-- An empty TOR entry matches no access (privileged architecture 3.7.1; 21 R386). -/
theorem test_pmp_empty_tor :
    pmpAllows { pmp := [(0, 13), (8, 13), (0, 0), (15, 2 ^ 20)], user := true } 1 48 8 = true := by decide

/-- A service hart reads no frame that a scrub order holds (22 R411). -/
theorem test_held_frame :
    good (translate (Run.start A) (spaceOf A A.h) 0x1000 0) = true
    ∧ (let s : State := { A with dev := { A.dev with orders := [⟨1, none, [], 0, 0, [(0x1000, 1)]⟩] } };
      good (translate (Run.start s) (spaceOf s s.h) 0x1000 0) = false) := by decide

/-- A store of less than a word into a word that is valid in the L1 fills nothing (09 R233). -/
theorem test_l1_valid : fillLine { l1d := [⟨1, 1⟩] } (.mem 64 64 none) 2 = none ∧ fillLine { l1d := [⟨1, 1⟩] } (.mem 68 68 none) 2 ≠ none := by
  decide
end Sys2Proof.Tests
end

section
/-! PROOFS. Reading back the result of a scalar instruction: what its pops, its push and its retirement do to the scalar
registers and queues (01 R22, Table 1.6; 02 R27, R28). -/

namespace Sys2Proof.Machine

/-! ### Queues -/

/-- A pop takes the head of its own queue and leaves every other queue alone (R28). -/
theorem queue_popQ (k q : Nat) (h : Hart) : (popQ k h).queue q = (h.queue q).drop (if k = q then 1 else 0) := by
  by_cases e : k = q
  · subst e
    simp [popQ, Hart.queue]
  · simp [popQ, Hart.queue, e, tget_tput_ne [] h.q _ (Ne.symm e)]

/-- The table of queues after a push; which strand reads the queue decides only which push is counted. -/
theorem pushQ_q (q : Nat) (v : Word) (h : Hart) : (pushQ q v h).q = tput h.q q (h.queue q ++ [v]) := by
  unfold pushQ
  split <;> rfl

/-- A pushed entry is the last of its queue (R28). -/
@[simp] theorem queue_pushQ_same (q : Nat) (v : Word) (h : Hart) : (pushQ q v h).queue q = h.queue q ++ [v] := by
  rw [Hart.queue, pushQ_q, tget_tput_same]

/-! ### The pops of the sources -/

/-- Pops reach no strand. -/
@[simp] theorem strand_applyAll_popAll (n m : Nat) (srcs : List Src) (s : State) :
    (applyAll (popAll n srcs) s).strand m = s.strand m := by
  induction srcs generalizing s with
  | nil => rfl
  | cons a srcs ih =>
    cases a with
    | q k => exact ih _
    | x r => exact ih s
    | imm v => exact ih s

/-- The sources' pops take from each queue one entry for each time that it is named (R28). -/
theorem queue_applyAll_popAll (n q : Nat) (srcs : List Src) (s : State) :
    ((applyAll (popAll n srcs) s).hart n).queue q = ((s.hart n).queue q).drop (popsOf q srcs) := by
  induction srcs generalizing s with
  | nil => rfl
  | cons a srcs ih =>
    cases a with
    | q k => simp [popAll, popsOf, ih, queue_popQ, List.drop_drop]
    | x r => exact ih s
    | imm v => exact ih s

/-! ### Retirement -/

/-- Retirement changes no scalar register. -/
@[simp] theorem getX_retired (s : State) (n len : Nat) (target : Option Word) (m r : Nat) :
    getX ((retired s n len target).strand m) r = getX (s.strand m) r := by
  unfold retired
  by_cases e : m = n
  · subst e
    simp [retireHart, getX]
  · simp [retireHart, strand_app_strand_ne _ _ e]

/-- Retirement changes no queue. -/
@[simp] theorem queue_retired (s : State) (n len : Nat) (target : Option Word) (k q : Nat) :
    ((retired s n len target).hart k).queue q = (s.hart k).queue q := by
  unfold retired
  by_cases e : k = n / 2
  · subst e
    simp [retireHart, Hart.queue]
  · simp [retireHart, hart_app_hart_ne _ _ e]

/-! ### The result -/

/-- The moving strand's registers after a scalar instruction with a register destination: only the result is written. -/
theorem getX_after_writes_x (s : State) (len : Nat) (srcs : List Src) (d : Nat) (w : Word) (r : Nat) :
    getX ((s.after len (writes s srcs (.x d) w)).strand s.cur) r = getX (setX d w s.me) r := by
  simp [State.after, writes, setD, applyAll_append, State.me]

/-- The hart's queue after a scalar instruction that pushes its result to it: the pops come first. -/
theorem queue_after_writes_q (s : State) (len : Nat) (srcs : List Src) (q : Nat) (w : Word) :
    ((s.after len (writes s srcs (.q q) w)).hart s.h).queue q = (s.myHart.queue q).drop (popsOf q srcs) ++ [w] := by
  have hpush : ((s.after len (writes s srcs (.q q) w)).hart s.h).queue q
      = ((applyAll (popAll s.h srcs) s).hart s.h).queue q ++ [w] := by
    simp [State.after, writes, setD, applyAll_append, State.h]
  rw [hpush, queue_applyAll_popAll, State.myHart]

/-- Settles O6: retirement leaves registers and queues alone, so a register destination reads as `setX` left it, and a queue
destination holds what the pops left with the result pushed last. -/
theorem scalarResultReadsBack : Obligations.ScalarResultReadsBack := by
  intro s len srcs w
  refine ⟨fun r hr => ?register, fun d => ?zero, fun q => ?queue⟩
  case register => rw [getX_after_writes_x, getX_setX_same s.me w hr]
  case zero => exact getX_zero _
  case queue => exact queue_after_writes_q s len srcs q w

end Sys2Proof.Machine
end

section
/-! PROOFS. The end of a hardware loop: what the end test at a retiring instruction does to the innermost loop, its counter and the
next address (02 R50, R51, R74). -/

namespace Sys2Proof.Machine

/-! ### The end test -/

/-- A loop that ends here and whose counter stays nonzero returns to its start, still active (R50). -/
theorem loopStep_returns {pcs : List Word} {l : Loop} (ls : List Loop) {lc : Tab Word} (hend : l.stop ∈ pcs)
    (hv : tget 0 lc l.lc - 1 ≠ 0) :
    loopStep pcs (l :: ls) lc = (some l.start, l :: ls, tset 0 lc l.lc (tget 0 lc l.lc - 1)) := by
  rw [loopStep, if_pos (List.contains_iff_mem.mpr hend)]
  exact if_pos hv

/-- A loop that ends here and whose counter becomes zero is deactivated, and the test goes on with the loop around it (R50). -/
theorem loopStep_expires {pcs : List Word} {l : Loop} (ls : List Loop) {lc : Tab Word} (hend : l.stop ∈ pcs)
    (hv : tget 0 lc l.lc - 1 = 0) : loopStep pcs (l :: ls) lc = loopStep pcs ls (tset 0 lc l.lc 0) := by
  rw [loopStep, if_pos (List.contains_iff_mem.mpr hend), hv]
  exact if_neg fun h => h rfl

/-- Where the innermost loop does not end here the test changes nothing, whatever the loops around it (R51). -/
theorem loopStep_elsewhere {pcs : List Word} {ls : List Loop} (lc : Tab Word) (h : ∀ m ∈ ls.head?, m.stop ∉ pcs) :
    loopStep pcs ls lc = (none, ls, lc) := by
  cases ls with
  | nil => rfl
  | cons m ms => simp [loopStep, h m rfl]

/-! ### Retirement without a transfer -/

/-- The addresses at which the strand's present instruction ends a loop: its own, and its prefix's where it has one (R74). -/
def endPcs (st : Strand) : List Word := if st.pfx.isSome then [st.pc, st.pc - 4] else [st.pc]

theorem mem_endPcs (st : Strand) (a : Word) : a ∈ endPcs st ↔ a = st.pc ∨ st.pfx.isSome = true ∧ a = st.pc - 4 := by
  unfold endPcs
  split <;> simp [*]

/-- A strand that retires without a transfer takes its next address, active loops and counters from the end test. -/
theorem strand_retired_none (s : State) (n len : Nat) {next : Option Word} {loops : List Loop} {lc : Tab Word}
    (h : loopStep (endPcs (s.strand n)) (s.strand n).loops (s.strand n).lc = (next, loops, lc)) :
    (retired s n len none).strand n =
      { s.strand n with
        pc := next.getD ((s.strand n).pc + BitVec.ofNat 64 len), loops := loops, lc := lc, pfx := none, sleep := none,
        skid := (s.strand n).skid + 1 } := by
  unfold endPcs at h
  simp only [retired, retireHart, h, applyAll_cons, applyAll_nil, strand_app_hart, strand_app_strand]

/-- Settles O10: the end test returns to the loop's start or deactivates the loop as the decremented counter says, and after a
deactivation it stops at an outer loop that ends elsewhere. -/
theorem loopEnds : Obligations.LoopEnds := by
  intro s n len l ls hloops hstop
  have hend : l.stop ∈ endPcs (s.strand n) := (mem_endPcs _ _).mpr hstop
  refine ⟨fun hv => ?returns, fun hv houter => ?expires⟩
  case returns =>
    have hstep := loopStep_returns ls hend hv
    rw [← hloops] at hstep
    rw [strand_retired_none s n len hstep]
    exact ⟨tget_tset_same .., rfl, hloops, rfl⟩
  case expires =>
    have hne : ∀ m ∈ ls.head?, m.stop ∉ endPcs (s.strand n) := fun m hm hmem => by
      obtain ⟨hpc, hmod⟩ := houter m hm
      exact ((mem_endPcs _ _).mp hmem).elim hpc fun h => hmod h.2
    have hstep := (loopStep_expires ls hend hv).trans (loopStep_elsewhere _ hne)
    rw [← hloops] at hstep
    rw [strand_retired_none s n len hstep]
    exact ⟨tget_tset_same .., rfl, rfl⟩

end Sys2Proof.Machine
end

section
/-! PROOFS. The words of one instruction: how the decoder takes apart what `asm` puts together, and how each kind of operand
comes back from its fields (03 Tables 3.1, 3.4 and 3.5; R60 to R65). -/

namespace Sys2Proof

/-! ### Two's complement fields -/

theorem unsx_lt (k : Nat) (v : Int) : unsx k v < 2 ^ k := by
  have hpos : (0 : Int) < 2 ^ k := by positivity
  have hlt := Int.emod_lt_of_pos v hpos
  have hcast : ((2 ^ k : Nat) : Int) = 2 ^ k := by push_cast; rfl
  unfold unsx
  omega

/-- A number that fits k bits comes back from its field. -/
theorem sx_unsx {k : Nat} {v : Int} (hk : 0 < k) (h : fitsS k v = true) : sx k (unsx k v) = v := by
  obtain ⟨j, rfl⟩ : ∃ j, k = j + 1 := ⟨k - 1, by omega⟩
  simp only [fitsS, Bool.and_eq_true, decide_eq_true_eq, Nat.add_sub_cancel] at h
  have hcast : ((2 ^ j : Nat) : Int) = 2 ^ j := by push_cast; rfl
  have hpow : (2 : Int) ^ (j + 1) = 2 * 2 ^ j := by ring
  unfold sx unsx
  rw [Nat.add_sub_cancel, hpow]
  generalize (2 : Int) ^ j = p at *
  obtain ⟨hlo, hhi⟩ := h
  rcases Int.lt_or_le v 0 with hneg | hpos
  · have hmod : v % (2 * p) = v + 2 * p := by
      rw [← Int.add_emod_right]; exact Int.emod_eq_of_lt (by omega) (by omega)
    rw [hmod, if_neg (by omega)]
    omega
  · rw [Int.emod_eq_of_lt hpos (by omega), if_pos (by omega)]
    omega

/-! ### Fields of words -/

theorem fld_eq (w lo len : Nat) : fld w lo len = w / 2 ^ lo % 2 ^ len := rfl

theorem Form.code_lt (f : Form) : f.code < 4 := by cases f <;> decide

/-- The length field stands below every other field of word 0. -/
theorem fld_add_code {w lo : Nat} (len : Nat) (f : Form) (hw : w % 4 = 0) (hlo : 2 ≤ lo) :
    fld (w + f.code) lo len = fld w lo len := by
  obtain ⟨j, rfl⟩ : ∃ j, lo = 2 + j := ⟨lo - 2, by omega⟩
  have hf := Form.code_lt f
  have hdiv : (w + f.code) / 2 ^ 2 = w / 2 ^ 2 := by omega
  simp only [fld_eq, pow_add, ← Nat.div_div_eq_div_mul, hdiv]

theorem formOf_add_code {w : Nat} (f : Form) (hw : w % 4 = 0) : formOf (w + f.code) = f := by
  have hmod : (w + f.code) % 4 = f.code := by have := Form.code_lt f; omega
  unfold formOf
  rw [hmod]
  cases f <;> rfl

/-! ### The words of one instruction -/

/-- A field of n values in the extension words of a form: zero where the form has none. -/
def Form.Holds (f : Form) (n v : Nat) : Prop := v < n ∧ (f.hasExt = false → v = 0)

theorem Form.Holds.zero {f : Form} {n : Nat} [NeZero n] : f.Holds n 0 := ⟨NeZero.pos n, fun _ => rfl⟩

/-- What the words of an instruction hold: word 0 without its length field, the fields of extension word 1 (Table 3.5), extension
word 2 and the literal. -/
structure Layout where
  form : Form
  w0 : Nat
  ix : Nat := 0
  xmn : Nat := 0
  xm : Nat := 0
  qc : Nat := 0
  qa : Nat := 0
  qd : Nat := 0
  e : Nat := 0
  w2 : Nat := 0
  lit : Nat := 0

namespace Layout

/-- Extension word 1. -/
def w1 (x : Layout) : Nat := ext1 x.ix x.xmn x.xm x.qc x.qa x.qd x.e

/-- The words that `asm` makes of it. -/
def words (x : Layout) : List Nat := asm x.form x.w0 x.w1 x.w2 x.lit

/-- What the decoder splits these words into. -/
def raw (x : Layout) : Raw where
  form := x.form
  w0 := x.w0 + x.form.code
  w1 := if x.form.hasExt then x.w1 else 0
  w2 := if x.form.hasExt then x.w2 else 0
  lit := if x.form.hasLit then x.lit else 0

/-- Every field has its width, word 0 leaves room for the length field, and a form without extension words has nothing in them. -/
structure Fits (x : Layout) : Prop where
  w0 : x.w0 < 2 ^ 32 ∧ x.w0 % 4 = 0
  ix : x.form.Holds (2 ^ 16) x.ix
  xmn : x.form.Holds 8 x.xmn
  xm : x.form.Holds 2 x.xm
  qc : x.form.Holds 2 x.qc
  qa : x.form.Holds 2 x.qa
  qd : x.form.Holds 2 x.qd
  e : x.form.Holds 64 x.e
  w2 : x.form.Holds (2 ^ 32) x.w2
  lit : x.lit < 2 ^ 64

/-- The fields of extension word 1 have their widths, and they come back. -/
theorem Fits.fld_w1 {x : Layout} (hx : x.Fits) :
    x.w1 < 2 ^ 32 ∧ fld x.w1 0 6 = x.e ∧ fld x.w1 6 1 = x.qd ∧ fld x.w1 7 1 = x.qa ∧ fld x.w1 8 1 = x.qc ∧ fld x.w1 9 1 = x.xm
    ∧ fld x.w1 10 3 = x.xmn ∧ fld x.w1 16 16 = x.ix := by
  obtain ⟨-, ⟨hix, -⟩, ⟨hxmn, -⟩, ⟨hxm, -⟩, ⟨hqc, -⟩, ⟨hqa, -⟩, ⟨hqd, -⟩, ⟨he, -⟩, -, -⟩ := hx
  simp only [fld_eq, w1, ext1]
  omega

/-- A form without extension words has none to lose. -/
theorem Fits.w1_eq_zero {x : Layout} (hx : x.Fits) (hf : x.form.hasExt = false) : x.w1 = 0 := by
  simp only [w1, ext1, hx.ix.2 hf, hx.xmn.2 hf, hx.xm.2 hf, hx.qc.2 hf, hx.qa.2 hf, hx.qd.2 hf, hx.e.2 hf]

theorem Fits.words_lt {x : Layout} (hx : x.Fits) : ∀ w ∈ x.words, w < 2 ^ 32 := by
  have h0 : x.w0 + 3 < 2 ^ 32 := by have h := hx.w0; omega
  have h1 := hx.fld_w1.1
  have h2 := hx.w2.1
  have hlit := hx.lit
  unfold words
  generalize x.w1 = w1 at h1
  cases x.form <;> simp [asm] <;> omega

theorem words_headD (x : Layout) : x.words.headD 0 = x.w0 + x.form.code := by
  simp only [words]
  cases x.form <;> rfl

theorem words_length (x : Layout) : x.words.length = x.form.len / 4 := by
  simp only [words]
  cases x.form <;> simp [asm, Form.len]

theorem four_mul_len (f : Form) : 4 * (f.len / 4) = f.len := by cases f <;> rfl

theorem Fits.formOf_headD {x : Layout} (hx : x.Fits) : formOf (x.words.headD 0) = x.form := by
  rw [words_headD, formOf_add_code _ hx.w0.2]

/-- The decoder splits the words again as they were put together, whatever follows. -/
theorem Fits.rawOf_words {x : Layout} (hx : x.Fits) (rest : List Nat) : rawOf (x.words ++ rest) = some x.raw := by
  have hf := formOf_add_code x.form hx.w0.2
  have hlit : x.lit % 2 ^ 32 + x.lit / 2 ^ 32 * 2 ^ 32 = x.lit := by omega
  obtain ⟨f, w0, _, _, _, _, _, _, _, _, _⟩ := x
  cases f <;> simp_all [words, raw, asm, rawOf, Form.code, Form.hasExt, Form.hasLit]

/-! ### What the decoder reads in the extension words -/

theorem Fits.raw_w1 {x : Layout} (hx : x.Fits) : x.raw.w1 = x.w1 := by
  unfold raw
  split
  · rfl
  · exact (hx.w1_eq_zero (Bool.eq_false_iff.mpr ‹_›)).symm

theorem Fits.raw_w2 {x : Layout} (hx : x.Fits) : x.raw.w2 = x.w2 := by
  unfold raw
  split
  · rfl
  · exact (hx.w2.2 (Bool.eq_false_iff.mpr ‹_›)).symm

theorem Fits.raw_lit {x : Layout} (hl : x.form.hasLit = true) : x.raw.lit = x.lit := if_pos hl

theorem Fits.fld_w0 {x : Layout} (hx : x.Fits) {lo len : Nat} (hlo : 2 ≤ lo) : fld x.raw.w0 lo len = fld x.w0 lo len :=
  fld_add_code len x.form hx.w0.2 hlo

theorem Fits.raw_e {x : Layout} (hx : x.Fits) : x.raw.e = x.e := by
  obtain ⟨-, h, -⟩ := hx.fld_w1
  rw [Raw.e, hx.raw_w1, h]

theorem Fits.raw_qd {x : Layout} (hx : x.Fits) : x.raw.qd = (x.qd == 1) := by
  obtain ⟨-, -, h, -⟩ := hx.fld_w1
  rw [Raw.qd, hx.raw_w1, h]

theorem Fits.raw_qa {x : Layout} (hx : x.Fits) : x.raw.qa = (x.qa == 1) := by
  obtain ⟨-, -, -, h, -⟩ := hx.fld_w1
  rw [Raw.qa, hx.raw_w1, h]

theorem Fits.raw_qc {x : Layout} (hx : x.Fits) : x.raw.qc = (x.qc == 1) := by
  obtain ⟨-, -, -, -, h, -⟩ := hx.fld_w1
  rw [Raw.qc, hx.raw_w1, h]

theorem Fits.raw_xm {x : Layout} (hx : x.Fits) : x.raw.xm = (x.xm == 1) := by
  obtain ⟨-, -, -, -, -, h, -⟩ := hx.fld_w1
  rw [Raw.xm, hx.raw_w1, h]

theorem Fits.raw_xmn {x : Layout} (hx : x.Fits) : x.raw.xmn = x.xmn := by
  obtain ⟨-, -, -, -, -, -, h, -⟩ := hx.fld_w1
  rw [Raw.xmn, hx.raw_w1, h]

theorem Fits.raw_ix {x : Layout} (hx : x.Fits) : x.raw.ix = x.ix := by
  obtain ⟨-, -, -, -, -, -, -, h⟩ := hx.fld_w1
  rw [Raw.ix, hx.raw_w1, h]

end Layout

/-! ### The round trip of one instruction -/

/-- The words of an instruction are words, as many as its form has, and the decoder reads it in them, whatever follows. -/
def RoundTrips (i : Instr) : Prop :=
  (∀ w ∈ encode i, w < 2 ^ 32) ∧ 4 * (encode i).length = (formOf ((encode i).headD 0)).len
  ∧ ∀ rest, decode (encode i ++ rest) = some i

/-- What the decoder parses and the encoder gives back is decoded. -/
theorem Layout.Fits.roundTrips {x : Layout} {i : Instr} (hx : x.Fits) (he : encode i = x.words) (hw : i.wf = true)
    (hp : parse x.raw = some i) : RoundTrips i := by
  unfold RoundTrips
  rw [he]
  refine ⟨hx.words_lt, ?_, fun rest => ?_⟩
  · rw [hx.formOf_headD, x.words_length, Layout.four_mul_len]
  · have htake : (x.words ++ rest).take (x.raw.form.len / 4) = x.words := by
      rw [show x.raw.form = x.form from rfl, ← x.words_length, List.take_left]
    simp only [decode, hx.rawOf_words, Option.bind_some, hp, hw, he, htake, and_self, if_true]

/-! ### Operands: their fields have their widths -/

theorem Src.lit_lt (a : Src) : a.lit < 2 ^ 64 := by
  cases a with
  | imm v => exact v.isLt
  | x r => exact Nat.two_pow_pos 64
  | q n => exact Nat.two_pow_pos 64

theorem Form.lt_of_queueOk {f : Form} {n : Nat} (h : f.queueOk n = true) : n < 64 := by
  simp only [Form.queueOk, Bool.and_eq_true, decide_eq_true_eq] at h
  omega

theorem Dst.num_lt {d : Dst} {f : Form} (h : d.ok f = true) : d.num < 64 := by
  cases d with
  | x r => exact of_decide_eq_true h
  | q n => exact Form.lt_of_queueOk h

theorem Src.num_lt_of_okA {a : Src} {f : Form} (h : a.okA f = true) : a.num < 64 := by
  cases a with
  | x r => exact of_decide_eq_true h
  | q n => exact Form.lt_of_queueOk h
  | imm v => cases h

theorem Src.num_lt_of_okB {b : Src} {f : Form} (h : b.okB f = true) : b.num < 64 := by
  cases b with
  | x r => exact of_decide_eq_true (Bool.and_eq_true_iff.mp h).2
  | q n => exact Form.lt_of_queueOk (Bool.and_eq_true_iff.mp h).2
  | imm v => exact Nat.zero_lt_succ 63

/-! ### A queue's flag stands in the extension words (R65) -/

/-- A queue that an instruction names has its flag in the extension words (R65). -/
theorem Form.holds_flag {f : Form} {n : Nat} (h : f.queueOk n = true) : f.Holds 2 1 :=
  ⟨one_lt_two, fun hf => absurd h (by simp [Form.queueOk, hf])⟩

theorem Dst.holds_flag {d : Dst} {f : Form} (h : d.ok f = true) : f.Holds 2 d.flag := by
  cases d with
  | x r => exact .zero
  | q n => exact Form.holds_flag h

theorem Src.holds_flag_of_okA {a : Src} {f : Form} (h : a.okA f = true) : f.Holds 2 a.flag := by
  cases a with
  | x r => exact .zero
  | q n => exact Form.holds_flag h
  | imm v => exact .zero

theorem Src.holds_flag_of_okB {b : Src} {f : Form} (h : b.okB f = true) : f.Holds 2 b.flag := by
  cases b with
  | x r => exact .zero
  | q n => exact Form.holds_flag (Bool.and_eq_true_iff.mp h).2
  | imm v => exact .zero

/-! ### Operands are read back -/

theorem Raw.dst_num {r : Raw} {d : Dst} (hq : r.qd = (d.flag == 1)) : r.dst d.num = d := by
  rw [Raw.dst, hq]; cases d <;> rfl

theorem Raw.dstA_num {r : Raw} {d : Dst} (hq : r.qa = (d.flag == 1)) : r.dstA d.num = d := by
  rw [Raw.dstA, hq]; cases d <;> rfl

theorem Raw.srcA_num {r : Raw} {a : Src} {f : Form} (ha : a.okA f = true) (hq : r.qa = (a.flag == 1)) : r.srcA a.num = a := by
  rw [Raw.srcA, hq]
  cases a with
  | x r => rfl
  | q n => rfl
  | imm v => cases ha

theorem Raw.srcD_num {r : Raw} {a : Src} {f : Form} (ha : a.okA f = true) (hq : r.qd = (a.flag == 1)) : r.srcD a.num = a := by
  rw [Raw.srcD, hq]
  cases a with
  | x r => rfl
  | q n => rfl
  | imm v => cases ha

theorem Raw.srcC_num {r : Raw} {a : Src} {f : Form} (ha : a.okA f = true) (hq : r.qc = (a.flag == 1)) : r.srcC a.num = a := by
  rw [Raw.srcC, hq]
  cases a with
  | x r => rfl
  | q n => rfl
  | imm v => cases ha

/-- The literal stands exactly in the literal forms (R64). -/
theorem Src.cases_okB {b : Src} {f : Form} (h : b.okB f = true) :
    (f.hasLit = true ∧ b = .imm (BitVec.ofNat 64 b.lit)) ∨ (f.hasLit = false ∧ b.okA f = true) := by
  cases b with
  | x r => exact .inr (by simpa [Src.okB, Src.okA] using h)
  | q n => exact .inr (by simpa [Src.okB, Src.okA] using h)
  | imm v => exact .inl ⟨h, by simp [Src.lit]⟩

theorem Layout.raw_litW (x : Layout) {b : Src} (hf : x.form.hasLit = true) (hl : x.lit = b.lit) :
    x.raw.litW = BitVec.ofNat 64 b.lit := by rw [Raw.litW, Layout.Fits.raw_lit hf, hl]

theorem Layout.Fits.srcB_num {x : Layout} {b : Src} (hx : x.Fits) (hb : b.okB x.form = true) (hq : x.qc = b.flag)
    (hl : x.lit = b.lit) : x.raw.srcB b.num = b := by
  rw [Raw.srcB, show x.raw.form = x.form from rfl]
  obtain ⟨hf, hv⟩ | ⟨hf, ha⟩ := Src.cases_okB hb
  · rw [if_pos hf, x.raw_litW hf hl, ← hv]
  · rw [if_neg (by simp [hf]), Raw.srcC_num ha (by rw [hx.raw_qc, hq])]

theorem Layout.Fits.srcAL_num {x : Layout} {b : Src} (hx : x.Fits) (hb : b.okB x.form = true) (hq : x.qa = b.flag)
    (hl : x.lit = b.lit) : x.raw.srcAL b.num = b := by
  rw [Raw.srcAL, show x.raw.form = x.form from rfl]
  obtain ⟨hf, hv⟩ | ⟨hf, ha⟩ := Src.cases_okB hb
  · rw [if_pos hf, x.raw_litW hf hl, ← hv]
  · rw [if_neg (by simp [hf]), Raw.srcA_num ha (by rw [hx.raw_qa, hq])]

/-! ### Immediates -/

theorem holds_immIx (f : Form) (k : Nat) (v : Int) : f.Holds (2 ^ 16) (immIx f k v) := by
  cases f with
  | ext =>
    have hlt : unsx (k + 16) v < 2 ^ k * 2 ^ 16 := by rw [← pow_add]; exact unsx_lt (k + 16) v
    exact ⟨Nat.div_lt_of_lt_mul hlt, fun hf => by cases hf⟩
  | base => exact .zero
  | lit => exact .zero
  | long => exact .zero

theorem immLit_lt (f : Form) (v : Int) : immLit f v < 2 ^ 64 := by
  unfold immLit
  split
  · exact unsx_lt 64 v
  · exact Nat.two_pow_pos 64

theorem immField_lt (f : Form) (k : Nat) (v : Int) : immField f k v < 2 ^ k := by
  cases f with
  | base => exact unsx_lt k v
  | ext => exact Nat.mod_lt _ (Nat.two_pow_pos k)
  | lit => exact Nat.two_pow_pos k
  | long => exact Nat.two_pow_pos k

/-- A signed immediate is put together again from its field, its extension and its literal (R64, R65). -/
theorem Layout.Fits.immS_immField {x : Layout} {k : Nat} {v : Int} (hx : x.Fits) (hv : immOk x.form k v = true) (hk : 0 < k)
    (hix : x.ix = immIx x.form k v) (hl : x.lit = immLit x.form v) : x.raw.immS k (immField x.form k v) = v := by
  have hrix := hx.raw_ix.trans hix
  have hrl : x.form.hasLit = true → x.raw.lit = immLit x.form v := fun hf => (Layout.Fits.raw_lit hf).trans hl
  unfold Raw.immS
  rw [show x.raw.form = x.form from rfl]
  generalize x.form = f at hv hrix hrl
  cases f with
  | base => exact sx_unsx hk hv
  | ext =>
    simp only [hrix, immIx, immField, Nat.div_add_mod']
    exact sx_unsx (by omega) hv
  | lit => simpa only [hrl rfl, immLit, Form.hasLit, if_true] using sx_unsx (by decide) hv
  | long => simpa only [hrl rfl, immLit, Form.hasLit, if_true] using sx_unsx (by decide) hv

theorem immOk_of_offOk {f : Form} {k : Nat} {v : Int} (h : offOk f k v = true) : immOk f k v = true :=
  (Bool.and_eq_true_iff.mp h).1

/-! ### Masks -/

theorem Mask.mkField_lt {m : Mask} {f : Form} (h : m.ok f = true) : m.mkField < 8 := by
  cases m with
  | none => exact Nat.zero_lt_succ 7
  | mk n => exact of_decide_eq_true (Bool.and_eq_true_iff.mp h).2
  | xm n => exact Nat.zero_lt_succ 7

/-- The extended mask stands in the extension words (R65). -/
theorem Mask.holds {m : Mask} {f : Form} (h : m.ok f = true) : f.Holds 2 m.xmBit ∧ f.Holds 8 m.xmnField := by
  cases m with
  | none => exact ⟨.zero, .zero⟩
  | mk n => exact ⟨.zero, .zero⟩
  | xm n =>
    obtain ⟨hext, hn⟩ := Bool.and_eq_true_iff.mp h
    have hno (hf : f.hasExt = false) : False := by simp [hf] at hext
    exact ⟨⟨one_lt_two, fun hf => (hno hf).elim⟩, ⟨of_decide_eq_true hn, fun hf => (hno hf).elim⟩⟩

theorem Layout.Fits.raw_mask {x : Layout} {m : Mask} (hx : x.Fits) (hm : m.ok x.form = true) (hxm : x.xm = m.xmBit)
    (hxmn : x.xmn = m.xmnField) (hmk : fld x.w0 29 3 = m.mkField) : x.raw.mask = m := by
  rw [Raw.mask, hx.raw_xm, hx.raw_xmn, hx.fld_w0 (by decide), hmk, hxm, hxmn]
  cases m with
  | none => rfl
  | xm n => rfl
  | mk n =>
    have hn : n ≠ 0 := Nat.one_le_iff_ne_zero.mp (of_decide_eq_true (Bool.and_eq_true_iff.mp hm).1)
    simp [Mask.xmBit, Mask.mkField, hn]

end Sys2Proof
end

section
/-! PROOFS. Formats SR, AM and SF, and the state registers: instructions whose word 0 has the fields fn, b, a, d and op (03 R59). -/

namespace Sys2Proof

/-! ### The opcode map (Table 3.7), a line each -/

section
variable {r : Raw}

theorem parse_op01 (h : r.op = 0x01) : parse r = parse01 r := by delta parse; rw [h]; rfl
theorem parse_op06 (h : r.op = 0x06) : parse r = parse06 r := by delta parse; rw [h]; rfl
theorem parse_op07 (h : r.op = 0x07) : parse r = parse07 r := by delta parse; rw [h]; rfl
theorem parse_op0C (h : r.op = 0x0C) : parse r = parse0C r := by delta parse; rw [h]; rfl
theorem parse_op0D (h : r.op = 0x0D) : parse r = parse0D r := by delta parse; rw [h]; rfl
theorem parse_op11 (h : r.op = 0x11) : parse r = parse11 r := by delta parse; rw [h]; rfl
theorem parse_op12 (h : r.op = 0x12) : parse r = parse12 r := by delta parse; rw [h]; rfl
theorem parse_op17 (h : r.op = 0x17) : parse r = parse17 r := by delta parse; rw [h]; rfl
theorem parse_op19 (h : r.op = 0x19) : parse r = parse19 r := by delta parse; rw [h]; rfl
theorem parse_op1A (h : r.op = 0x1A) : parse r = parse1A r := by delta parse; rw [h]; rfl
theorem parse_op20 (h : r.op = 0x20) : parse r = parse20 r := by delta parse; rw [h]; rfl
theorem parse_op21 (h : r.op = 0x21) : parse r = parse21 r := by delta parse; rw [h]; rfl
theorem parse_op22 (h : r.op = 0x22) : parse r = parse22 r := by delta parse; rw [h]; rfl
theorem parse_op23 (h : r.op = 0x23) : parse r = parse23 r := by delta parse; rw [h]; rfl
theorem parse_op24 (h : r.op = 0x24) : parse r = parse24 r := by delta parse; rw [h]; rfl
theorem parse_op25 (h : r.op = 0x25) : parse r = parse25 r := by delta parse; rw [h]; rfl
theorem parse_op26 (h : r.op = 0x26) : parse r = parse26 r := by delta parse; rw [h]; rfl
theorem parse_op27 (h : r.op = 0x27) : parse r = parse27 r := by delta parse; rw [h]; rfl
theorem parse_op28 (h : r.op = 0x28) : parse r = parse28 r := by delta parse; rw [h]; rfl
theorem parse_op29 (h : r.op = 0x29) : parse r = parse29 r := by delta parse; rw [h]; rfl
theorem parse_op2A (h : r.op = 0x2A) : parse r = parse2A r := by delta parse; rw [h]; rfl
theorem parse_op2B (h : r.op = 0x2B) : parse r = parse2B r := by delta parse; rw [h]; rfl
theorem parse_op2C (h : r.op = 0x2C) : parse r = parse2C r := by delta parse; rw [h]; rfl
theorem parse_op2D (h : r.op = 0x2D) : parse r = parse2D r := by delta parse; rw [h]; rfl
theorem parse_op2E (h : r.op = 0x2E) : parse r = parse2E r := by delta parse; rw [h]; rfl
theorem parse_op2F (h : r.op = 0x2F) : parse r = parse2F r := by delta parse; rw [h]; rfl
theorem parse_op30 (h : r.op = 0x30) : parse r = parse30 r := by delta parse; rw [h]; rfl
theorem parse_op31 (h : r.op = 0x31) : parse r = parse31 r := by delta parse; rw [h]; rfl
theorem parse_op32 (h : r.op = 0x32) : parse r = parse32 r := by delta parse; rw [h]; rfl
theorem parse_op33 (h : r.op = 0x33) : parse r = parse33 r := by delta parse; rw [h]; rfl
theorem parse_op34 (h : r.op = 0x34) : parse r = parse34 r := by delta parse; rw [h]; rfl
theorem parse_op35 (h : r.op = 0x35) : parse r = parse35 r := by delta parse; rw [h]; rfl
theorem parse_op36 (h : r.op = 0x36) : parse r = parse36 r := by delta parse; rw [h]; rfl
theorem parse_op37 (h : r.op = 0x37) : parse r = parse37 r := by delta parse; rw [h]; rfl
theorem parse_op0F (h : r.op = 0x0F) : parse r = parseAM r := by delta parse; rw [h]; rfl
theorem parse_op10 (h : r.op = 0x10) : parse r = parseAM r := by delta parse; rw [h]; rfl

end

/-! ### Format SR -/

@[simp] theorem Form.noLit_eq (f : Form) : f.noLit = !f.hasLit := by cases f <;> rfl
@[simp] theorem Src.okA_x (f : Form) (r : Nat) : (Src.x r).okA f = decide (r < 64) := rfl
@[simp] theorem Src.okB_x (f : Form) (r : Nat) : (Src.x r).okB f = (!f.hasLit && decide (r < 64)) := rfl
@[simp] theorem Dst.ok_x (f : Form) (r : Nat) : (Dst.x r).ok f = decide (r < 64) := rfl

@[simp] theorem Src.num_x (r : Nat) : (Src.x r).num = r := rfl
@[simp] theorem Src.flag_x (r : Nat) : (Src.x r).flag = 0 := rfl
@[simp] theorem Src.lit_x (r : Nat) : (Src.x r).lit = 0 := rfl
@[simp] theorem Dst.num_x (r : Nat) : (Dst.x r).num = r := rfl
@[simp] theorem Dst.flag_x (r : Nat) : (Dst.x r).flag = 0 := rfl
@[simp] theorem Mask.mkField_none : Mask.none.mkField = 0 := rfl
@[simp] theorem Mask.xmBit_none : Mask.none.xmBit = 0 := rfl
@[simp] theorem Mask.xmnField_none : Mask.none.xmnField = 0 := rfl
@[simp] theorem ext1_zero : ext1 0 0 0 0 0 0 0 = 0 := by decide

theorem w0SR_fields {op fn b a d : Nat} (hop : op < 64) (hfn : fn < 64) (hb : b < 64) (ha : a < 64) (hd : d < 64) :
    (w0SR op fn b a d < 2 ^ 32 ∧ w0SR op fn b a d % 4 = 0) ∧ fld (w0SR op fn b a d) 2 6 = op ∧ fld (w0SR op fn b a d) 26 6 = fn
    ∧ fld (w0SR op fn b a d) 20 6 = b ∧ fld (w0SR op fn b a d) 14 6 = a ∧ fld (w0SR op fn b a d) 8 6 = d := by
  simp only [fld_eq, w0SR]
  omega

theorem R3.wf_iff {o : R3} : o.wf = true ↔ o.d.ok o.form = true ∧ o.a.okA o.form = true ∧ o.b.okB o.form = true := by
  rw [R3.wf, Bool.and_eq_true, Bool.and_eq_true, and_assoc]

/-- What the decoder reads in the words of format SR whose operands are those of o. -/
structure ReadsSR (op fn e : Nat) (o : R3) (r : Raw) : Prop where
  form : r.form = o.form
  op : r.op = op
  fn : r.fn = fn
  d : r.d = o.d.num
  a : r.a = o.a.num
  b : r.b = o.b.num
  qd : r.qd = (o.d.flag == 1)
  e : r.e = e
  dst : r.dst r.d = o.d
  srcA : r.srcA r.a = o.a
  srcB : r.srcB r.b = o.b

/-- An instruction of format SR: x0 stands for an operand that it does not have, register n for a number n. -/
theorem roundTrips_SR {i : Instr} {o : R3} {op fn e : Nat} (he : encode i = asm o.form (w0SR op fn o.b.num o.a.num o.d.num)
      (ext1 0 0 0 o.b.flag o.a.flag o.d.flag e) 0 o.b.lit) (hw : i.wf = true) (ho : o.wf = true)
    (hlt : op < 64 ∧ fn < 64) (hext : o.form.Holds 64 e) (hp : ∀ r, ReadsSR op fn e o r → parse r = some i) : RoundTrips i := by
  obtain ⟨hd, ha, hb⟩ := R3.wf_iff.mp ho
  obtain ⟨hw0, f1, f2, f3, f4, f5⟩ :=
    w0SR_fields hlt.1 hlt.2 (Src.num_lt_of_okB hb) (Src.num_lt_of_okA ha) (Dst.num_lt hd)
  have hx : Layout.Fits {
      form := o.form, w0 := w0SR op fn o.b.num o.a.num o.d.num, qc := o.b.flag, qa := o.a.flag, qd := o.d.flag, e := e
      lit := o.b.lit } :=
    { w0 := hw0, qc := Src.holds_flag_of_okB hb, qa := Src.holds_flag_of_okA ha, qd := Dst.holds_flag hd, e := hext
      ix := .zero, xmn := .zero, xm := .zero, w2 := .zero, lit := Src.lit_lt o.b }
  have rd := (hx.fld_w0 (by decide)).trans f5
  have ra := (hx.fld_w0 (by decide)).trans f4
  have rb := (hx.fld_w0 (by decide)).trans f3
  exact hx.roundTrips he hw (hp _
    { form := rfl, op := (hx.fld_w0 (by decide)).trans f1, fn := (hx.fld_w0 (by decide)).trans f2
      d := rd, a := ra, b := rb
      qd := hx.raw_qd, e := hx.raw_e
      dst := by rw [Raw.d, rd, Raw.dst_num hx.raw_qd]
      srcA := by rw [Raw.a, ra, Raw.srcA_num ha hx.raw_qa]
      srcB := by rw [Raw.b, rb, hx.srcB_num hb rfl rfl] })

theorem R3.roundTrips {i : Instr} {o : R3} {op fn : Nat} (he : encode i = o.enc op fn) (hw : i.wf = true) (ho : o.wf = true)
    (hlt : op < 64 ∧ fn < 64) (hp : ∀ r : Raw, r.op = op → r.fn = fn → r.r3 = o → parse r = some i) : RoundTrips i :=
  roundTrips_SR he hw ho hlt .zero fun r hr => hp r hr.op hr.fn (by simp only [Raw.r3, hr.form, hr.dst, hr.srcA, hr.srcB])

theorem R2.roundTrips {i : Instr} {o : R2} {op fn : Nat} (he : encode i = o.enc op fn) (hw : i.wf = true) (ho : o.wf = true)
    (hlt : op < 64 ∧ fn < 64) (hp : ∀ r : Raw, r.op = op → r.fn = fn → r.r2 = o → parse r = some i) : RoundTrips i :=
  roundTrips_SR (o := ⟨o.form, o.d, o.a, .x 0⟩) he hw (by simp_all [R3.wf_iff, R2.wf]) hlt .zero
    fun r hr => hp r hr.op hr.fn (by simp only [Raw.r2, hr.form, hr.dst, hr.srcA])

theorem RD.roundTrips {i : Instr} {o : RD} {op fn : Nat} (he : encode i = o.enc op fn) (hw : i.wf = true)
    (ho : o.form.noLit = true ∧ o.d.ok o.form = true) (hlt : op < 64 ∧ fn < 64) (hp : ∀ r : Raw, r.op = op → r.fn = fn →
      r.rd = o → parse r = some i) : RoundTrips i :=
  roundTrips_SR (o := ⟨o.form, o.d, .x 0, .x 0⟩) he hw (by simp_all [R3.wf_iff]) hlt .zero
    fun r hr => hp r hr.op hr.fn (by simp only [Raw.rd, hr.form, hr.dst])

theorem RA.roundTrips {i : Instr} {o : RA} {op fn : Nat} (he : encode i = o.enc op fn) (hw : i.wf = true)
    (ho : o.form.noLit = true ∧ o.a.okA o.form = true) (hlt : op < 64 ∧ fn < 64) (hp : ∀ r : Raw, r.op = op → r.fn = fn →
      r.ra = o → parse r = some i) : RoundTrips i :=
  roundTrips_SR (o := ⟨o.form, .x 0, o.a, .x 0⟩) he hw (by simp_all [R3.wf_iff]) hlt .zero
    fun r hr => hp r hr.op hr.fn (by simp only [Raw.ra, hr.form, hr.srcA])

theorem RAB.roundTrips {i : Instr} {o : RAB} {op fn : Nat} (he : encode i = o.enc op fn) (hw : i.wf = true) (ho : o.wf = true)
    (hlt : op < 64 ∧ fn < 64) (hp : ∀ r : Raw, r.op = op → r.fn = fn → r.rab = o → parse r = some i) : RoundTrips i :=
  roundTrips_SR (o := ⟨o.form, .x 0, o.a, o.b⟩) he hw (by simp_all [R3.wf_iff, RAB.wf]) hlt .zero
    fun r hr => hp r hr.op hr.fn (by simp only [Raw.rab, hr.form, hr.srcA, hr.srcB])

theorem RB.roundTrips {i : Instr} {o : RB} {op fn : Nat} (he : encode i = o.enc op fn) (hw : i.wf = true) (ho : o.wf = true)
    (hlt : op < 64 ∧ fn < 64) (hp : ∀ r : Raw, r.op = op → r.fn = fn → r.rb = o → parse r = some i) : RoundTrips i :=
  roundTrips_SR (o := ⟨o.form, o.d, .x 0, o.b⟩) he hw (by simp_all [R3.wf_iff, RB.wf]) hlt .zero
    fun r hr => hp r hr.op hr.fn (by simp only [Raw.rb, hr.form, hr.dst, hr.srcB])

theorem QPo.roundTrips {i : Instr} {o : QPo} {op fn k : Nat} (he : encode i = o.enc op fn) (hw : i.wf = true)
    (ho : o.wf k = true) (hk : k ≤ 64) (hlt : op < 64 ∧ fn < 64) (hp : ∀ r : Raw, r.op = op → r.fn = fn → r.qp = o →
      parse r = some i) : RoundTrips i := by
  simp only [QPo.wf, Form.noLit_eq, Bool.and_eq_true, decide_eq_true_eq] at ho
  obtain ⟨⟨hf, hd⟩, hq⟩ := ho
  exact roundTrips_SR (o := ⟨o.form, o.d, .x o.q, .x 0⟩) he hw (by simp [R3.wf_iff, hf, hd]; omega) hlt .zero
    fun r hr => hp r hr.op hr.fn (by simp only [Raw.qp, hr.form, hr.dst, hr.a, Src.num])

theorem BBo.roundTrips {i : Instr} {o : BBo} {fn : Nat} (he : encode i = o.enc fn) (hw : i.wf = true) (ho : o.wf = true)
    (hfn : fn < 64) (hp : ∀ r : Raw, r.op = 0x11 → r.fn = fn → r.bb = o → parse r = some i) : RoundTrips i := by
  simp only [BBo.wf, Bool.and_eq_true, decide_eq_true_eq] at ho
  obtain ⟨hn, hb⟩ := ho
  exact roundTrips_SR (o := ⟨o.form, .x 0, .x o.n, o.b⟩) he hw (by simp [R3.wf_iff, hb]; omega) ⟨by decide, hfn⟩ .zero
    fun r hr => hp r hr.op hr.fn (by simp only [Raw.bb, hr.form, hr.srcB, hr.a, Src.num])

theorem fld_chk (w : Nat) : fld w 20 1 = fld w 20 6 % 2 := by simp only [fld_eq]; omega

@[simp] theorem beq_one_toNat (b : Bool) : (b.toNat == 1) = b := by cases b <;> rfl

theorem toNat_mod_two (b : Bool) : b.toNat % 2 = b.toNat := by cases b <;> rfl

theorem BAo.roundTrips {i : Instr} {o : BAo} {fn : Nat} (he : encode i = o.enc fn) (hw : i.wf = true) (ho : o.wf = true)
    (hfn : fn < 64) (hp : ∀ r : Raw, r.op = 0x11 → r.fn = fn → r.ba = o → parse r = some i) : RoundTrips i := by
  simp only [BAo.wf, Form.noLit_eq, Bool.and_eq_true, decide_eq_true_eq] at ho
  obtain ⟨⟨hf, hd⟩, hn⟩ := ho
  have hc := o.chk.toNat_lt
  exact roundTrips_SR (o := ⟨o.form, o.d, .x o.n, .x o.chk.toNat⟩) he hw (by simp [R3.wf_iff, hf, hd]; omega)
    ⟨by decide, hfn⟩ .zero fun r hr => hp r hr.op hr.fn (by
      have hb : fld r.w0 20 1 = o.chk.toNat := by
        rw [fld_chk, ← Raw.b, hr.b, Src.num, toNat_mod_two]
      simp only [Raw.ba, hr.form, hr.dst, hr.a, Src.num, hb, beq_one_toNat])

theorem RLo.roundTrips {i : Instr} {o : RLo} (he : encode i = o.enc) (hw : i.wf = true) (ho : o.wf = true)
    (hp : ∀ r : Raw, r.op = 0x17 → r.fn = 5 → r.rl = o → parse r = some i) : RoundTrips i :=
  roundTrips_SR (o := ⟨o.form, .x o.d, .x o.a, o.b⟩) he hw (by simp_all [R3.wf_iff, RLo.wf]) (by decide)
    .zero fun r hr => hp r hr.op hr.fn (by simp only [Raw.rl, hr.form, hr.d, hr.a, hr.srcB, Src.num, Dst.num])

/-- An instruction whose fields hold plain numbers. -/
theorem roundTrips_plain {i : Instr} {f : Form} {op fn b a d : Nat} (he : encode i = asm f (w0SR op fn b a d) 0 0 0)
    (hw : i.wf = true) (hf : f.noLit = true) (hb : b < 64) (ha : a < 64) (hd : d < 64)
    (hlt : op < 64 ∧ fn < 64) (hp : ∀ r : Raw, r.op = op → r.fn = fn → r.form = f → r.b = b → r.a = a → r.d = d →
      parse r = some i) : RoundTrips i :=
  roundTrips_SR (o := ⟨f, .x d, .x a, .x b⟩) (e := 0) (he.trans (by simp)) hw
    (by simp_all [R3.wf_iff]) hlt .zero fun r hr => hp r hr.op hr.fn hr.form hr.b hr.a hr.d

/-- An instruction without operands. -/
theorem roundTrips_form {i : Instr} {f : Form} {op fn : Nat} (he : encode i = asm f (w0SR op fn 0 0 0) 0 0 0) (hw : i.wf = true)
    (hf : f.noLit = true) (hlt : op < 64 ∧ fn < 64) (hp : ∀ r : Raw, r.op = op → r.fn = fn → r.form = f →
      parse r = some i) : RoundTrips i :=
  roundTrips_plain he hw hf (by decide) (by decide) (by decide) hlt fun r rop rfn rf _ _ _ => hp r rop rfn rf

/-- A base-form pair. -/
theorem DA.roundTrips {i : Instr} {o : DA} {op fn : Nat} (he : encode i = o.enc op fn) (hw : i.wf = true)
    (ho : o.d < 64 ∧ o.a < 64) (hlt : op < 64 ∧ fn < 64) (hp : ∀ r : Raw, r.op = op → r.fn = fn → r.da = o →
      parse r = some i) : RoundTrips i :=
  roundTrips_plain (f := .base) he hw rfl (by decide) ho.2 ho.1 hlt
    fun r rop rfn _ _ ra rd => hp r rop rfn (by simp only [Raw.da, ra, rd])

/-- A register group's first register is a register (R61). -/
theorem lt_of_groupOk {a k : Nat} (h : groupOk a k = true) (hk : 0 < k) : a < 64 := by
  simp only [groupOk, Bool.and_eq_true, decide_eq_true_eq] at h
  omega

theorem DA.fits_of_wf {o : DA} (h : o.wf = true) : o.d < 64 ∧ o.a < 64 := by simpa [DA.wf] using h

theorem DA.fits_of_wfG {o : DA} {k : Nat} (h : o.wfG k = true) (hk : 0 < k) : o.d < 64 ∧ o.a < 64 := by
  simp only [DA.wfG, Bool.and_eq_true, decide_eq_true_eq] at h
  exact ⟨h.1, lt_of_groupOk h.2 hk⟩

/-! ### Formats AM and SF, and state registers: the same fields of word 0 under other names -/

@[simp] theorem Scope.ofCode_code (sc : Scope) : Scope.ofCode sc.code = some sc := by cases sc <;> rfl
theorem Scope.code_lt (sc : Scope) : sc.code < 6 := by cases sc <;> decide

theorem encAM_eq (op k : Nat) (sc : Scope) (o : R3) : encAM op k o.form sc o.d.num o.d.flag o.a o.b
    = asm o.form (w0SR op (8 * sc.code + k) o.b.num o.a.num o.d.num) (ext1 0 0 0 o.b.flag o.a.flag o.d.flag 0) 0 o.b.lit := by
  have hw0 : sc.code * 536870912 + k * 67108864 + o.b.num * 1048576 + o.a.num * 16384 + o.d.num * 256 + op * 4
      = w0SR op (8 * sc.code + k) o.b.num o.a.num o.d.num := by simp only [w0SR]; omega
  rw [encAM, hw0]

theorem fld_scope_kind (w : Nat) : fld w 29 3 = fld w 26 6 / 8 ∧ fld w 26 3 = fld w 26 6 % 8 := by
  simp only [fld_eq]
  omega

/-- An instruction of format AM: the scope and the kind share the field fn. -/
theorem roundTrips_AM {i : Instr} {o : R3} {sc : Scope} {op k : Nat}
    (he : encode i = encAM op k o.form sc o.d.num o.d.flag o.a o.b)
    (hw : i.wf = true) (ho : o.wf = true)
    (hlt : op < 64 ∧ k < 8) (hp : ∀ r, ReadsSR op (8 * sc.code + k) 0 o r → Scope.ofCode (fld r.w0 29 3) = some sc →
      fld r.w0 26 3 = k → parse r = some i) : RoundTrips i := by
  have hsc := sc.code_lt
  refine roundTrips_SR (he.trans (encAM_eq op k sc o)) hw ho ⟨hlt.1, by omega⟩ .zero fun r hr => hp r hr ?_ ?_
  · rw [(fld_scope_kind r.w0).1, ← Raw.fn, hr.fn, show (8 * sc.code + k) / 8 = sc.code by omega, Scope.ofCode_code]
  · rw [(fld_scope_kind r.w0).2, ← Raw.fn, hr.fn]
    omega

theorem AMo.roundTrips {i : Instr} {o : AMo} {op k : Nat} (he : encode i = o.enc op k) (hw : i.wf = true) (ho : o.wf = true)
    (hlt : op < 64 ∧ k < 8) (hp : ∀ r : Raw, r.op = op → Scope.ofCode (fld r.w0 29 3) = some o.sc → fld r.w0 26 3 = k →
      (⟨r.form, o.sc, r.dst r.d, r.srcA r.a, r.srcB r.b⟩ : AMo) = o → parse r = some i) : RoundTrips i :=
  roundTrips_AM (o := ⟨o.form, o.d, o.a, o.b⟩) he hw ho hlt
    fun r hr hsc hkind => hp r hr.op hsc hkind (by simp only [hr.form, hr.dst, hr.srcA, hr.srcB])

theorem BFo.roundTrips {i : Instr} {o : BFo} {op : Nat} (he : encode i = o.enc op) (hw : i.wf = true) (ho : o.wf = true)
    (hop : op < 64) (hp : ∀ r : Raw, r.op = op → r.bf = o → parse r = some i) : RoundTrips i := by
  simp only [BFo.wf, Form.noLit_eq, Bool.and_eq_true, decide_eq_true_eq] at ho
  obtain ⟨⟨⟨⟨⟨hf, hd⟩, ha⟩, hpos⟩, hlen⟩, -⟩ := ho
  exact roundTrips_SR (o := ⟨o.form, o.d, o.a, .x o.pos⟩) (fn := o.len1) he hw (by simp [R3.wf_iff, hf, hd, ha, hpos])
    ⟨hop, hlen⟩ .zero fun r hr => hp r hr.op (by
      have hb := hr.b
      have hfn := hr.fn
      simp only [Raw.b, Raw.fn, Src.num] at hb hfn
      simp only [Raw.bf, hr.form, hr.dst, hr.srcA, hb, hfn])

/-- The source that a store names in the d field, as an operand of that field. -/
def Src.toDst : Src → Dst
  | .x r => .x r
  | .q n => .q n
  | .imm _ => .x 0

theorem Src.toDst_of_okA {a : Src} {f : Form} (h : a.okA f = true) :
    a.toDst.num = a.num ∧ a.toDst.flag = a.flag ∧ a.toDst.ok f = true := by
  cases a with
  | x r => exact ⟨rfl, rfl, h⟩
  | q n => exact ⟨rfl, rfl, h⟩
  | imm v => cases h

/-- A state register's number has twelve bits. -/
theorem lt_of_isStateReg {n : Nat} (h : isStateReg n = true) : n < 4096 := by
  simp only [isStateReg, Bool.or_eq_true, Bool.and_eq_true, decide_eq_true_eq, beq_iff_eq] at h
  omega

theorem fld_stateReg (w : Nat) : fld w 20 12 = fld w 26 6 * 64 + fld w 20 6 := by simp only [fld_eq]; omega

/-- GETS, SETS and SWAPS: the number stands in the fields fn and b. -/
theorem roundTrips_stateReg {i : Instr} {f : Form} {d : Dst} {a : Src} {op n : Nat}
    (he : encode i = asm f (n * 1048576 + a.num * 16384 + d.num * 256 + op * 4) (ext1 0 0 0 0 a.flag d.flag 0) 0 0)
    (hw : i.wf = true) (hf : f.noLit = true) (hd : d.ok f = true) (ha : a.okA f = true) (hn : isStateReg n = true)
    (hop : op < 64) (hp : ∀ r : Raw, r.op = op → r.form = f → r.dst r.d = d → r.srcA r.a = a → fld r.w0 20 12 = n →
      parse r = some i) : RoundTrips i := by
  have hlt := lt_of_isStateReg hn
  rw [show n * 1048576 + a.num * 16384 + d.num * 256 + op * 4 = w0SR op (n / 64) (n % 64) a.num d.num by
    simp only [w0SR]; omega] at he
  refine roundTrips_SR (o := ⟨f, d, a, .x (n % 64)⟩) (fn := n / 64) (e := 0) he hw ?_ ⟨hop, by omega⟩ .zero
    fun r hr => hp r hr.op hr.form hr.dst hr.srcA ?_
  · simp_all [R3.wf_iff]; omega
  · rw [fld_stateReg, ← Raw.fn, ← Raw.b, hr.fn, hr.b, Src.num, Nat.div_add_mod']

end Sys2Proof
end

section
/-! PROOFS. Formats SI, SM, SL, SJ, SB, SQ and SLP, and MOD: instructions with an immediate or an offset (03 R59, R64; Table 3.8). -/

namespace Sys2Proof

/-! ### Formats SI and SM: an immediate above the operands -/

theorem w0SI_fields {op t a d : Nat} (hop : op < 64) (ht : t < 4096) (ha : a < 64) (hd : d < 64) :
    let w := t * 1048576 + a * 16384 + d * 256 + op * 4
    (w < 2 ^ 32 ∧ w % 4 = 0) ∧ fld w 2 6 = op ∧ fld w 20 12 = t ∧ fld w 14 6 = a ∧ fld w 8 6 = d := by
  simp only [fld_eq]
  omega

/-- What the decoder reads in the words of format SI or SM: d is the destination or the data source, t what stands above a. -/
structure ReadsSI (f : Form) (op t : Nat) (d : Dst) (a : Src) (r : Raw) : Prop where
  form : r.form = f
  op : r.op = op
  dnum : r.d = d.num
  qd : r.qd = (d.flag == 1)
  top : fld r.w0 20 12 = t
  dst : r.dst r.d = d
  srcA : r.srcA r.a = a

theorem roundTrips_SI {i : Instr} {f : Form} {op t k : Nat} {d : Dst} {a : Src} {v : Int}
    (he : encode i = asm f (t * 1048576 + a.num * 16384 + d.num * 256 + op * 4)
      (ext1 (immIx f k v) 0 0 0 a.flag d.flag 0) 0 (immLit f v))
    (hw : i.wf = true) (hd : d.ok f = true) (ha : a.okA f = true) (hv : immOk f k v = true)
    (hlt : 0 < k ∧ op < 64 ∧ t < 4096)
    (hp : ∀ r : Raw, ReadsSI f op t d a r → r.immS k (immField f k v) = v → parse r = some i) : RoundTrips i := by
  obtain ⟨hk, hop, ht⟩ := hlt
  obtain ⟨hw0, f1, f2, f3, f4⟩ := w0SI_fields hop ht (Src.num_lt_of_okA ha) (Dst.num_lt hd)
  have hx : Layout.Fits {
      form := f, w0 := t * 1048576 + a.num * 16384 + d.num * 256 + op * 4, ix := immIx f k v, qa := a.flag, qd := d.flag
      lit := immLit f v } :=
    { w0 := hw0, ix := holds_immIx f k v, qa := Src.holds_flag_of_okA ha, qd := Dst.holds_flag hd
      xmn := .zero, xm := .zero, qc := .zero, e := .zero, w2 := .zero, lit := immLit_lt f v }
  have rd := (hx.fld_w0 (by decide)).trans f4
  have ra := (hx.fld_w0 (by decide)).trans f3
  exact hx.roundTrips he hw (hp _
    { form := rfl, op := (hx.fld_w0 (by decide)).trans f1, dnum := rd, qd := hx.raw_qd, top := (hx.fld_w0 (by decide)).trans f2
      dst := by rw [Raw.d, rd, Raw.dst_num hx.raw_qd]
      srcA := by rw [Raw.a, ra, Raw.srcA_num ha hx.raw_qa] }
    (hx.immS_immField hv hk rfl rfl))

theorem RI.roundTrips {i : Instr} {o : RI} {op : Nat} (he : encode i = o.enc op) (hw : i.wf = true) (ho : o.wf = true)
    (hop : op < 64) (hp : ∀ r : Raw, r.op = op → r.ri = o → parse r = some i) : RoundTrips i := by
  simp only [RI.wf, Bool.and_eq_true] at ho
  obtain ⟨⟨hd, ha⟩, hv⟩ := ho
  exact roundTrips_SI he hw hd ha hv ⟨by decide, hop, immField_lt _ _ _⟩
    fun r hr hi => hp r hr.op (by simp only [Raw.ri, hr.form, hr.dst, hr.srcA, hr.top, hi])

theorem encSM_eq (op k : Nat) (f : Form) (d : Dst) (a : Src) (v : Int) : encSM op k f d.num d.flag a v
    = asm f ((8 * immField f 9 v + k) * 1048576 + a.num * 16384 + d.num * 256 + op * 4)
      (ext1 (immIx f 9 v) 0 0 0 a.flag d.flag 0) 0 (immLit f v) := by
  have hw0 : immField f 9 v * 8388608 + k * 1048576 + a.num * 16384 + d.num * 256 + op * 4
      = (8 * immField f 9 v + k) * 1048576 + a.num * 16384 + d.num * 256 + op * 4 := by omega
  rw [encSM, hw0]

theorem fld_offset_kind (w : Nat) : fld w 23 9 = fld w 20 12 / 8 ∧ fld w 20 3 = fld w 20 12 % 8 := by
  simp only [fld_eq]
  omega

/-- An instruction of format SM: the offset stands above its kind k. -/
theorem roundTrips_SM {i : Instr} {f : Form} {op k : Nat} {d : Dst} {a : Src} {v : Int}
    (he : encode i = encSM op k f d.num d.flag a v)
    (hw : i.wf = true) (hd : d.ok f = true) (ha : a.okA f = true) (hv : immOk f 9 v = true)
    (hlt : op < 64 ∧ k < 8) (hp : ∀ r : Raw, ReadsSI f op (8 * immField f 9 v + k) d a r → r.immS 9 (fld r.w0 23 9) = v →
      fld r.w0 20 3 = k →
      parse r = some i) : RoundTrips i := by
  have himm : immField f 9 v < 512 := immField_lt f 9 v
  refine roundTrips_SI (he.trans (encSM_eq op k f d a v)) hw hd ha hv ⟨by decide, hlt.1, by omega⟩ fun r hr hi => hp r hr ?_ ?_
  · rw [(fld_offset_kind r.w0).1, hr.top, show (8 * immField f 9 v + k) / 8 = immField f 9 v by omega, hi]
  · rw [(fld_offset_kind r.w0).2, hr.top]
    omega

theorem LDo.roundTrips {i : Instr} {o : LDo} {k : Nat} (he : encode i = o.enc k) (hw : i.wf = true) (ho : o.wf = true)
    (hk : k < 8) (hp : ∀ r : Raw, r.op = 0x0C → fld r.w0 20 3 = k → r.ld = o → parse r = some i) :
    RoundTrips i := by
  simp only [LDo.wf, Bool.and_eq_true] at ho
  obtain ⟨⟨hd, ha⟩, hv⟩ := ho
  exact roundTrips_SM he hw hd ha hv ⟨by decide, hk⟩
    fun r hr hi hkind => hp r hr.op hkind (by simp only [Raw.ld, hr.form, hr.dst, hr.srcA, hi])

theorem ReadsSI.srcD {f : Form} {op t : Nat} {s a : Src} {r : Raw} (hr : ReadsSI f op t s.toDst a r) (hs : s.okA f = true) :
    r.srcD r.d = s := by
  obtain ⟨hnum, hflag, -⟩ := Src.toDst_of_okA hs
  rw [hr.dnum, hnum, Raw.srcD_num hs (by rw [hr.qd, hflag])]

theorem STo.roundTrips {i : Instr} {o : STo} {k : Nat} (he : encode i = o.enc k) (hw : i.wf = true) (ho : o.wf = true)
    (hk : k < 8) (hp : ∀ r : Raw, r.op = 0x0D → fld r.w0 20 3 = k → r.st = o → parse r = some i) :
    RoundTrips i := by
  simp only [STo.wf, Bool.and_eq_true] at ho
  obtain ⟨⟨hd, ha⟩, hv⟩ := ho
  obtain ⟨hnum, hflag, hok⟩ := Src.toDst_of_okA hd
  exact roundTrips_SM (d := o.d.toDst) (by rw [he, hnum, hflag]; rfl) hw hok ha hv ⟨by decide, hk⟩
    fun r hr hi hkind => hp r hr.op hkind (by simp only [Raw.st, hr.form, hr.srcD hd, hr.srcA, hi])

/-! ### Formats SL and SJ -/

theorem w0SJ_fields {op t d : Nat} (hop : op < 64) (ht : t < 262144) (hd : d < 64) :
    let w := t * 16384 + d * 256 + op * 4
    (w < 2 ^ 32 ∧ w % 4 = 0) ∧ fld w 2 6 = op ∧ fld w 14 18 = t ∧ fld w 8 6 = d := by
  simp only [fld_eq]
  omega

/-- An instruction with an immediate or offset of 18 bits: LI, JAL, and J, whose destination is x0 (R59). -/
theorem roundTrips_SJ {i : Instr} {f : Form} {op : Nat} {d : Dst} {v : Int}
    (he : encode i = asm f (immField f 18 v * 16384 + d.num * 256 + op * 4) (ext1 (immIx f 18 v) 0 0 0 0 d.flag 0) 0 (immLit f v))
    (hw : i.wf = true) (hd : d.ok f = true) (hv : immOk f 18 v = true)
    (hop : op < 64) (hp : ∀ r : Raw, r.form = f → r.op = op → r.d = d.num → r.qd = (d.flag == 1) → r.dst r.d = d →
      r.immS 18 (fld r.w0 14 18) = v → parse r = some i) : RoundTrips i := by
  obtain ⟨hw0, f1, f2, f3⟩ := w0SJ_fields hop (immField_lt f 18 v) (Dst.num_lt hd)
  have hx : Layout.Fits {
      form := f, w0 := immField f 18 v * 16384 + d.num * 256 + op * 4, ix := immIx f 18 v, qd := d.flag, lit := immLit f v } :=
    { w0 := hw0, ix := holds_immIx f 18 v, qd := Dst.holds_flag hd, lit := immLit_lt f v
      xmn := .zero, xm := .zero, qc := .zero, qa := .zero, e := .zero, w2 := .zero }
  have rd := (hx.fld_w0 (by decide)).trans f3
  refine hx.roundTrips he hw (hp _ rfl ((hx.fld_w0 (by decide)).trans f1) rd hx.raw_qd ?_ ?_)
  · rw [Raw.d, rd, Raw.dst_num hx.raw_qd]
  · rw [hx.fld_w0 (by decide), f2, hx.immS_immField hv (by decide) rfl rfl]

/-- The decoder takes JAL for J exactly where its destination is x0. -/
theorem isJ_iff {d : Dst} : (d.num = 0 ∧ (d.flag == 1) = false) ↔ d = .x 0 := by
  cases d <;> simp [Dst.num, Dst.flag]

/-! ### Formats SB, SQ and SLP -/

theorem w0SB_fields {t b a cond : Nat} (ht : t < 512) (hb : b < 64) (ha : a < 64) (hc : cond < 8) :
    let w := t * 8388608 + b * 131072 + a * 2048 + cond * 256 + 0x06 * 4
    (w < 2 ^ 32 ∧ w % 4 = 0) ∧ fld w 2 6 = 0x06 ∧ fld w 23 9 = t ∧ fld w 17 6 = b ∧ fld w 11 6 = a ∧ fld w 8 3 = cond := by
  simp only [fld_eq]
  omega

theorem BRo.roundTrips {i : Instr} {o : BRo} {cond : Nat} (he : encode i = o.enc cond) (hw : i.wf = true) (ho : o.wf = true)
    (hc : cond < 8) (hp : ∀ r : Raw, r.op = 0x06 → fld r.w0 8 3 = cond → r.br = o → parse r = some i) :
    RoundTrips i := by
  simp only [BRo.wf, Bool.and_eq_true] at ho
  obtain ⟨⟨ha, hb⟩, hoff⟩ := ho
  have hv := immOk_of_offOk hoff
  obtain ⟨hw0, f1, f2, f3, f4, f5⟩ :=
    w0SB_fields (immField_lt o.form 9 o.off) (Src.num_lt_of_okA hb) (Src.num_lt_of_okA ha) hc
  have hx : Layout.Fits {
      form := o.form, w0 := immField o.form 9 o.off * 8388608 + o.b.num * 131072 + o.a.num * 2048 + cond * 256 + 0x06 * 4
      ix := immIx o.form 9 o.off, qc := o.b.flag, qa := o.a.flag, lit := immLit o.form o.off } :=
    { w0 := hw0, ix := holds_immIx _ 9 o.off, qc := Src.holds_flag_of_okA hb, qa := Src.holds_flag_of_okA ha
      xmn := .zero, xm := .zero, qd := .zero, e := .zero, w2 := .zero, lit := immLit_lt _ o.off }
  refine hx.roundTrips he hw (hp _ ((hx.fld_w0 (by decide)).trans f1) ((hx.fld_w0 (by decide)).trans f5) ?_)
  rw [Raw.br, hx.fld_w0 (by decide), hx.fld_w0 (by decide), hx.fld_w0 (by decide), f2, f3, f4,
    Raw.srcA_num ha hx.raw_qa, Raw.srcC_num hb hx.raw_qc, hx.immS_immField hv (by decide) rfl rfl]
  rfl

theorem w0SQ_fields {t s q : Nat} (ht : t < 1048576) (hs : s < 2) (hq : q < 8) :
    let w := t * 4096 + s * 2048 + q * 256 + 0x0B * 4
    (w < 2 ^ 32 ∧ w % 4 = 0) ∧ fld w 2 6 = 0x0B ∧ fld w 12 20 = t ∧ fld w 11 1 = s ∧ fld w 8 3 = q := by
  simp only [fld_eq]
  omega

theorem BQo.roundTrips {i : Instr} {o : BQo} {s : Nat} (he : encode i = o.enc s) (hw : i.wf = true)
    (ho : (decide (o.q < 8) && offOk o.form 20 o.off) = true) (hs : s < 2)
    (hp : ∀ r : Raw, r.op = 0x0B → fld r.w0 11 1 = s → r.bq = o → parse r = some i) : RoundTrips i := by
  obtain ⟨hq, hoff⟩ := Bool.and_eq_true_iff.mp ho
  obtain ⟨hw0, f1, f2, f3, f4⟩ := w0SQ_fields (immField_lt o.form 20 o.off) hs (of_decide_eq_true hq)
  have hx : Layout.Fits {
      form := o.form, w0 := immField o.form 20 o.off * 4096 + s * 2048 + o.q * 256 + 0x0B * 4, ix := immIx o.form 20 o.off
      lit := immLit o.form o.off } :=
    { w0 := hw0, ix := holds_immIx _ 20 o.off, lit := immLit_lt _ o.off
      xmn := .zero, xm := .zero, qc := .zero, qa := .zero, qd := .zero, e := .zero, w2 := .zero }
  refine hx.roundTrips he hw (hp _ ((hx.fld_w0 (by decide)).trans f1) ((hx.fld_w0 (by decide)).trans f3) ?_)
  rw [Raw.bq, hx.fld_w0 (by decide), hx.fld_w0 (by decide), f2, f4, hx.immS_immField (immOk_of_offOk hoff) (by decide) rfl rfl]
  rfl

theorem w0SLP_fields {t a lc : Nat} (ht : t < 65536) (ha : a < 64) (hl : lc < 4) :
    let w := t * 65536 + a * 1024 + lc * 256 + 0x0A * 4
    (w < 2 ^ 32 ∧ w % 4 = 0) ∧ fld w 2 6 = 0x0A ∧ fld w 16 16 = t ∧ fld w 10 6 = a ∧ fld w 8 2 = lc := by
  simp only [fld_eq]
  omega

/-- The distance to a loop's end goes on in the extension words (R65). -/
theorem holds_stop {f : Form} {stop : Nat} (h : stop < if f.hasExt then 2 ^ 32 else 2 ^ 16) :
    f.Holds (2 ^ 16) (stop / 65536) := by
  split at h
  · exact ⟨by omega, fun hf => by simp_all⟩
  · exact ⟨by omega, fun _ => by omega⟩

theorem LPo.roundTrips (o : LPo) (h : (Instr.loop o).wf = true) : RoundTrips (.loop o) := by
  have ho : (decide (o.lc < 4) && o.a.okB o.form && decide (o.stop < (if o.form.hasExt then 2 ^ 32 else 2 ^ 16))) = true := h
  simp only [Bool.and_eq_true, decide_eq_true_eq] at ho
  obtain ⟨⟨hlc, ha⟩, hstop⟩ := ho
  have hix := holds_stop hstop
  obtain ⟨hw0, f1, f2, f3, f4⟩ := w0SLP_fields (Nat.mod_lt o.stop (by decide)) (Src.num_lt_of_okB ha) hlc
  have hx : Layout.Fits {
      form := o.form, w0 := o.stop % 65536 * 65536 + o.a.num * 1024 + o.lc * 256 + 0x0A * 4, ix := o.stop / 65536
      qa := o.a.flag, lit := o.a.lit } :=
    { w0 := hw0, ix := hix, qa := Src.holds_flag_of_okB ha, lit := Src.lit_lt o.a
      xmn := .zero, xm := .zero, qc := .zero, qd := .zero, e := .zero, w2 := .zero }
  have hsplit : (if o.form.hasExt then o.stop / 65536 * 2 ^ 16 else 0) + o.stop % 65536 = o.stop := by
    split
    · omega
    · rw [← Nat.div_add_mod' o.stop 65536, hix.2 (Bool.eq_false_iff.mpr ‹_›)]
      omega
  refine hx.roundTrips rfl h ?_
  rw [parse, Raw.op, hx.fld_w0 (by decide), f1]
  simp only
  rw [hx.fld_w0 (by decide), hx.fld_w0 (by decide), hx.fld_w0 (by decide), f2, f3, f4, hx.raw_ix, hx.srcAL_num ha rfl rfl]
  exact congrArg some (congrArg Instr.loop (congrArg (LPo.mk o.form o.lc o.a) hsplit))

/-- MOD has the base form only (Table 3.8). -/
theorem roundTrips_mod (m : Pfx) (h : (Instr.mod m).wf = true) : RoundTrips (.mod m) := by
  obtain ⟨rnd, sat, fs⟩ := m
  have hm : (decide (rnd < 7) && decide (sat < 3)) = true := h
  simp only [Bool.and_eq_true, decide_eq_true_eq] at hm
  obtain ⟨hr, hs⟩ := hm
  have hf := fs.toNat_lt
  have hx : Layout.Fits { form := .base, w0 := fs.toNat * 8192 + sat * 2048 + rnd * 256 + 0x16 * 4 } :=
    { w0 := by dsimp only; omega
      ix := .zero, xmn := .zero, xm := .zero, qc := .zero, qa := .zero, qd := .zero, e := .zero, w2 := .zero
      lit := Nat.two_pow_pos 64 }
  have hfields : let w := fs.toNat * 8192 + sat * 2048 + rnd * 256 + 0x16 * 4
      fld w 2 6 = 0x16 ∧ fld w 8 3 = rnd ∧ fld w 11 2 = sat ∧ fld w 13 1 = fs.toNat := by
    simp only [fld_eq]
    omega
  obtain ⟨f1, f2, f3, f4⟩ := hfields
  refine hx.roundTrips rfl h ?_
  rw [parse, Raw.op, hx.fld_w0 (by decide), f1]
  simp only
  rw [hx.fld_w0 (by decide), hx.fld_w0 (by decide), hx.fld_w0 (by decide), f2, f3, f4, beq_one_toNat]

end Sys2Proof
end

section
/-! PROOFS. Formats V, VM and TM: the vector instructions and the tuple matrix unit (03 R59, R62, R63, R67; 08 Table 8.6). -/

namespace Sys2Proof

/-! ### Format V -/

theorem w0V_fields {op fn mk c a d fm : Nat} (hop : op < 64) (hfn : fn < 4) (hmk : mk < 8) (hc : c < 64) (ha : a < 32)
    (hd : d < 64) (hfm : fm < 4) :
    let w := w0V op fn mk c a d fm
    (w < 2 ^ 32 ∧ w % 4 = 0) ∧ fld w 2 6 = op ∧ fld w 27 2 = fn ∧ fld w 29 3 = mk ∧ fld w 21 6 = c ∧ fld w 16 5 = a
    ∧ fld w 10 6 = d ∧ fld w 8 2 = fm := by
  simp only [fld_eq, w0V]
  omega

/-- What the words of format V hold, and b, the scalar source in the c field where there is one. -/
structure VFields where
  form : Form
  op : Nat
  fn : Nat
  mask : Mask := .none
  c : Nat := 0
  a : Nat := 0
  d : Nat := 0
  fm : Nat := 3
  qc : Nat := 0
  qd : Nat := 0
  e : Nat := 0
  lit : Nat := 0

/-- The words of format V. -/
def VFields.layout (x : VFields) : Layout where
  form := x.form
  w0 := w0V x.op x.fn x.mask.mkField x.c x.a x.d x.fm
  xmn := x.mask.xmnField
  xm := x.mask.xmBit
  qc := x.qc
  qd := x.qd
  e := x.e
  lit := x.lit

theorem VFields.layout_words (x : VFields) : x.layout.words = asm x.form (w0V x.op x.fn x.mask.mkField x.c x.a x.d x.fm)
    (ext1 0 x.mask.xmnField x.mask.xmBit x.qc 0 x.qd x.e) 0 x.lit := rfl

/-- Every field of format V has its width. -/
structure VFields.Fits (x : VFields) : Prop where
  mask : x.mask.ok x.form = true
  a : x.a < 32
  d : x.d < 64
  c : x.c < 64
  op : x.op < 64
  fn : x.fn < 4
  fm : x.fm < 4
  qc : x.form.Holds 2 x.qc
  qd : x.form.Holds 2 x.qd
  e : x.form.Holds 64 x.e
  lit : x.lit < 2 ^ 64

/-- What the decoder reads in the words of format V. -/
structure VFields.Reads (x : VFields) (r : Raw) : Prop where
  form : r.form = x.form
  op : r.op = x.op
  fn : fld r.w0 27 2 = x.fn
  mask : r.mask = x.mask
  c : fld r.w0 21 6 = x.c
  a : fld r.w0 16 5 = x.a
  d : fld r.w0 10 6 = x.d
  fm : fld r.w0 8 2 = x.fm
  qd : r.qd = (x.qd == 1)
  e : r.e = x.e
  srcB : ∀ b : Src, b.okB x.form = true → x.c = b.num → x.qc = b.flag → x.lit = b.lit → r.srcB x.c = b

theorem VFields.Fits.roundTrips {x : VFields} {i : Instr} (h : x.Fits) (he : encode i = x.layout.words) (hw : i.wf = true)
    (hp : ∀ r, x.Reads r → parse r = some i) : RoundTrips i := by
  obtain ⟨hw0, f1, f2, f3, f4, f5, f6, f7⟩ := w0V_fields h.op h.fn (Mask.mkField_lt h.mask) h.c h.a h.d h.fm
  have hx : x.layout.Fits :=
    { w0 := hw0, xmn := (Mask.holds h.mask).2, xm := (Mask.holds h.mask).1, qc := h.qc, qa := .zero
      qd := h.qd, e := h.e, lit := h.lit, ix := .zero, w2 := .zero }
  exact hx.roundTrips he hw (hp _
    { form := rfl
      op := (hx.fld_w0 (by decide)).trans f1
      fn := (hx.fld_w0 (by decide)).trans f2
      mask := hx.raw_mask h.mask rfl rfl f3
      c := (hx.fld_w0 (by decide)).trans f4
      a := (hx.fld_w0 (by decide)).trans f5
      d := (hx.fld_w0 (by decide)).trans f6
      fm := (hx.fld_w0 (by decide)).trans f7
      qd := hx.raw_qd
      e := hx.raw_e
      srcB := fun b hb hn hq hl => by rw [hn, hx.srcB_num hb hq hl] })

/-- A c operand that its field can hold in form f. -/
def VSrc.Encodable (f : Form) : VSrc → Prop
  | .v r => r < 32
  | .s b => b.okB f = true
  | .i c => fitsS 6 c = true

theorem VSrc.encodable_of_ok3 {f : Form} {c : VSrc} (h : c.ok3 f = true) : c.Encodable f := by
  cases c with
  | v r => exact of_decide_eq_true (p := r < 32) (Bool.and_eq_true_iff.mp h).2
  | s b => exact h
  | i c => exact (Bool.and_eq_true_iff.mp h).2

theorem VSrc.encodable_of_okV {f : Form} {c : VSrc} (h : c.okV f = true) : c.Encodable f ∧ c.fm = 0 := by
  cases c with
  | v r => exact ⟨of_decide_eq_true (p := r < 32) (Bool.and_eq_true_iff.mp h).2, rfl⟩
  | s b => cases h
  | i c => cases h

theorem VSrc.encodable_of_okSI {f : Form} {c : VSrc} (h : c.okSI f = true) : c.Encodable f ∧ (c.fm = 1 ∨ c.fm = 2) := by
  cases c with
  | v r => cases h
  | s b => exact ⟨h, .inl rfl⟩
  | i c => exact ⟨(Bool.and_eq_true_iff.mp h).2, .inr rfl⟩

theorem VSrc.okSI_of_okSN {f : Form} {c : VSrc} (h : c.okSN f = true) : c.okSI f = true := by
  cases c with
  | v r => cases h
  | s b => exact h
  | i c =>
    simp only [VSrc.okSN, Bool.and_eq_true] at h
    simp only [VSrc.okSI, Bool.and_eq_true]
    exact ⟨h.1.1, h.2⟩

theorem VSrc.fm_cases (c : VSrc) : c.fm = 0 ∨ c.fm = 1 ∨ c.fm = 2 := by
  cases c with
  | v r => exact .inl rfl
  | s b => exact .inr (.inl rfl)
  | i c => exact .inr (.inr rfl)

theorem VSrc.cField_lt {f : Form} {c : VSrc} (h : c.Encodable f) : c.cField < 64 := by
  cases c with
  | v r => exact Nat.lt_trans h (by decide)
  | s b => exact Src.num_lt_of_okB h
  | i c => exact unsx_lt 6 c

theorem VSrc.holds_flag {f : Form} {c : VSrc} (h : c.Encodable f) : f.Holds 2 c.flag := by
  cases c with
  | v r => exact .zero
  | s b => exact Src.holds_flag_of_okB h
  | i c => exact .zero

theorem VSrc.lit_lt (c : VSrc) : c.lit < 2 ^ 64 := by
  cases c with
  | s b => exact Src.lit_lt b
  | v r => exact Nat.two_pow_pos 64
  | i c => exact Nat.two_pow_pos 64

/-- The words of format V whose c operand is c. -/
def VFields.ofVSrc (op fn : Nat) (f : Form) (m : Mask) (d a : Nat) (c : VSrc) (df : Nat) : VFields :=
  { form := f, op := op, fn := fn, mask := m, c := c.cField, a := a, d := d, fm := c.fm, qc := c.flag, qd := df, lit := c.lit }

theorem VFields.Reads.vsrc {op fn d a df : Nat} {f : Form} {m : Mask} {c : VSrc} {r : Raw}
    (hr : (VFields.ofVSrc op fn f m d a c df).Reads r) (hc : c.Encodable f) : r.vsrc = c := by
  have hfm : fld r.w0 8 2 = c.fm := hr.fm
  have hcf : fld r.w0 21 6 = c.cField := hr.c
  rw [Raw.vsrc, hfm, hcf]
  cases c with
  | v r => rfl
  | s b => exact congrArg VSrc.s (hr.srcB b hc rfl rfl rfl)
  | i c => exact congrArg VSrc.i (sx_unsx (by decide) hc)

/-- An instruction of format V with a c operand. -/
theorem roundTrips_V {i : Instr} {op fn d a df : Nat} {f : Form} {m : Mask} {c : VSrc} (he : encode i = encV op fn f m d a c df)
    (hw : i.wf = true) (hm : m.ok f = true) (hd : d < 64) (ha : a < 32) (hc : c.Encodable f) (hdf : f.Holds 2 df)
    (hlt : op < 64 ∧ fn < 4) (hp : ∀ r, (VFields.ofVSrc op fn f m d a c df).Reads r → r.vsrc = c →
      parse r = some i) : RoundTrips i := by
  have hx : (VFields.ofVSrc op fn f m d a c df).Fits :=
    { mask := hm, a := ha, d := hd, c := VSrc.cField_lt hc, op := hlt.1, fn := hlt.2, qc := VSrc.holds_flag hc, qd := hdf
      lit := VSrc.lit_lt c, e := .zero
      fm := by have h := c.fm_cases; simp only [VFields.ofVSrc]; omega }
  exact hx.roundTrips he hw fun r hr => hp r hr (hr.vsrc hc)

/-- An instruction of format V in form 11. -/
theorem roundTrips_U {i : Instr} {op fn d a c df : Nat} {f : Form} {m : Mask} (he : encode i = encU op fn f m d a c df)
    (hw : i.wf = true) (hm : m.ok f = true) (hd : d < 64) (ha : a < 32) (hc : c < 64) (hdf : f.Holds 2 df)
    (hlt : op < 64 ∧ fn < 4) (hp : ∀ r,
      VFields.Reads { form := f, op := op, fn := fn, mask := m, c := c, a := a, d := d, qd := df } r → parse r = some i) : RoundTrips i := by
  have hx : VFields.Fits { form := f, op := op, fn := fn, mask := m, c := c, a := a, d := d, qd := df } :=
    { mask := hm, a := ha, d := hd, c := hc, op := hlt.1, fn := hlt.2, qd := hdf, fm := (by decide : 3 < 4), qc := .zero, e := .zero
      lit := Nat.two_pow_pos 64 }
  exact hx.roundTrips he hw hp

theorem VVo.roundTrips {i : Instr} {o : VVo} {op fn : Nat} {p : Form → VSrc → Bool} (he : encode i = o.enc op fn)
    (hw : i.wf = true)
    (ho : o.wf p = true) (hc : p o.form o.c = true → o.c.Encodable o.form)
    (hlt : op < 64 ∧ fn < 4) (hp : ∀ r : Raw, r.op = op → fld r.w0 27 2 = fn → fld r.w0 8 2 = o.c.fm → r.vv = o →
      parse r = some i) : RoundTrips i := by
  simp only [VVo.wf, Bool.and_eq_true, decide_eq_true_eq] at ho
  obtain ⟨⟨⟨hm, hd⟩, ha⟩, hpc⟩ := ho
  exact roundTrips_V he hw hm (by omega) ha (hc hpc) .zero hlt
    fun r hr hv => hp r hr.op hr.fn hr.fm (by rw [Raw.vv, hr.form, hr.mask, hr.d, hr.a, hv]; rfl)

theorem VVo.okSN_of_wf {o : VVo} (h : (o.wf fun f c => c.okSN f) = true) : o.c.Encodable o.form ∧ (o.c.fm = 1 ∨ o.c.fm = 2) :=
  VSrc.encodable_of_okSI (VSrc.okSI_of_okSN (Bool.and_eq_true_iff.mp h).2)

theorem VVo.okV_of_wf {o : VVo} (h : (o.wf fun f c => c.okV f) = true) : o.c.Encodable o.form ∧ o.c.fm = 0 :=
  VSrc.encodable_of_okV (Bool.and_eq_true_iff.mp h).2

theorem VUo.roundTrips {i : Instr} {o : VUo} {op fn : Nat} (he : encode i = o.enc op fn) (hw : i.wf = true)
    (ho : o.mask.ok o.form = true ∧ o.d < 32 ∧ o.a < 32)
    (hlt : op < 64 ∧ fn < 4) (hp : ∀ r : Raw, r.op = op → fld r.w0 27 2 = fn → fld r.w0 8 2 = 3 → r.vu = o →
      parse r = some i) : RoundTrips i := by
  obtain ⟨hm, hd, ha⟩ := ho
  exact roundTrips_U he hw hm (by omega) ha (by decide) .zero hlt
    fun r hr => hp r hr.op hr.fn hr.fm (by rw [Raw.vu, hr.form, hr.mask, hr.d, hr.a])

theorem VUo.fits_of_wf {o : VUo} (h : o.wf = true) : o.mask.ok o.form = true ∧ o.d < 32 ∧ o.a < 32 := by
  simp only [VUo.wf, Bool.and_eq_true, decide_eq_true_eq] at h
  exact ⟨h.1.1.2, h.1.2, h.2⟩

/-- An instruction of format V whose fields hold plain numbers. -/
theorem roundTrips_Vplain {i : Instr} {op fn c a d fm : Nat} {f : Form} (he : encode i = asm f (w0V op fn 0 c a d fm) 0 0 0)
    (hw : i.wf = true) (hd : d < 64) (ha : a < 32) (hc : c < 64)
    (hlt : op < 64 ∧ fn < 4 ∧ fm < 4) (hp : ∀ r,
      VFields.Reads { form := f, op := op, fn := fn, c := c, a := a, d := d, fm := fm } r → parse r = some i) : RoundTrips i := by
  have hx : VFields.Fits { form := f, op := op, fn := fn, c := c, a := a, d := d, fm := fm } :=
    { mask := rfl, a := ha, d := hd, c := hc, op := hlt.1, fn := hlt.2.1, fm := hlt.2.2, qc := .zero, qd := .zero, e := .zero
      lit := Nat.two_pow_pos 64 }
  exact hx.roundTrips (he.trans (by simp [VFields.layout_words])) hw hp

theorem M3.roundTrips {i : Instr} {o : M3} {fn : Nat} (he : encode i = asm o.form (w0V 0x2D fn 0 o.b o.a o.d 0) 0 0 0)
    (hw : i.wf = true) (ho : o.wf = true)
    (hfn : fn < 4) (hp : ∀ r : Raw, r.op = 0x2D → fld r.w0 27 2 = fn → fld r.w0 8 2 = 0 → r.m3 = o →
      parse r = some i) : RoundTrips i := by
  simp only [M3.wf, Bool.and_eq_true, decide_eq_true_eq] at ho
  obtain ⟨⟨⟨-, hd⟩, ha⟩, hb⟩ := ho
  exact roundTrips_Vplain he hw (by omega) (by omega) (by omega) ⟨by decide, hfn, by decide⟩
    fun r hr => hp r hr.op hr.fn hr.fm (by rw [Raw.m3, hr.form, hr.d, hr.a, hr.c])

theorem MDo.roundTrips {i : Instr} {o : MDo} {fn : Nat} (he : encode i = encU 0x2E fn o.form o.mask o.d.num o.a 0 o.d.flag)
    (hw : i.wf = true) (ho : o.wf = true)
    (hfn : fn < 4) (hp : ∀ r : Raw, r.op = 0x2E → fld r.w0 27 2 = fn → fld r.w0 8 2 = 3 → r.md = o →
      parse r = some i) : RoundTrips i := by
  simp only [MDo.wf, Bool.and_eq_true, decide_eq_true_eq] at ho
  obtain ⟨⟨⟨-, hm⟩, hd⟩, ha⟩ := ho
  exact roundTrips_U he hw hm (Dst.num_lt hd) (by omega) (by decide) (Dst.holds_flag hd) ⟨by decide, hfn⟩
    fun r hr => hp r hr.op hr.fn hr.fm (by rw [Raw.md, hr.form, hr.mask, hr.d, hr.a, Raw.dst_num hr.qd])

theorem Ty.ofCode_code (t : Ty) : Ty.ofCode t.code = some t := by cases t <;> rfl
theorem Ty.code_lt (t : Ty) : t.code < 17 := by cases t <;> decide

theorem fld_type_chain (w : Nat) : fld w 21 5 = fld w 21 6 % 32 ∧ fld w 26 1 = fld w 21 6 / 32 := by
  simp only [fld_eq]
  omega

theorem VTo.roundTrips {i : Instr} {o : VTo} {fn chain : Nat} (he : encode i = o.enc fn chain)
    (hw : i.wf = true) (ho : o.wf = true)
    (hlt : fn < 4 ∧ chain < 2) (hp : ∀ r : Raw, r.op = 0x2F → fld r.w0 27 2 = fn → fld r.w0 8 2 = 3 →
      Ty.ofCode (fld r.w0 21 5) = some o.ty → fld r.w0 26 1 = chain →
      (⟨r.form, r.mask, fld r.w0 10 6, fld r.w0 16 5, o.ty⟩ : VTo) = o → parse r = some i) : RoundTrips i := by
  simp only [VTo.wf, Bool.and_eq_true, decide_eq_true_eq] at ho
  obtain ⟨⟨⟨-, hm⟩, hd⟩, ha⟩ := ho
  have ht := o.ty.code_lt
  refine roundTrips_U he hw hm (by omega) ha (by omega) .zero ⟨by decide, hlt.1⟩
    fun r hr => hp r hr.op hr.fn hr.fm ?_ ?_ (by rw [hr.form, hr.mask, hr.d, hr.a])
  · rw [(fld_type_chain r.w0).1, hr.c, show (chain * 32 + o.ty.code) % 32 = o.ty.code by omega, Ty.ofCode_code]
  · rw [(fld_type_chain r.w0).2, hr.c]
    dsimp only
    omega

theorem VNo.roundTrips {i : Instr} {o : VNo} {fn k : Nat} (he : encode i = encU 0x36 fn o.form o.mask o.n o.v 0 0)
    (hw : i.wf = true) (ho : o.wf k = true) (hk : k ≤ 64)
    (hfn : fn < 4) (hp : ∀ r : Raw, r.op = 0x36 → fld r.w0 27 2 = fn → fld r.w0 8 2 = 3 → r.vn = o →
      parse r = some i) : RoundTrips i := by
  simp only [VNo.wf, Bool.and_eq_true, decide_eq_true_eq] at ho
  obtain ⟨⟨⟨-, hm⟩, hv⟩, hn⟩ := ho
  exact roundTrips_U he hw hm (by omega) hv (by decide) .zero ⟨by decide, hfn⟩
    fun r hr => hp r hr.op hr.fn hr.fm (by rw [Raw.vn, hr.form, hr.mask, hr.d, hr.a])

/-! ### Format VM -/

theorem w0VM_fields {op fn mk c a v fm : Nat} (hop : op < 64) (hfn : fn < 4) (hmk : mk < 8) (hc : c < 64) (ha : a < 64)
    (hv : v < 32) (hfm : fm < 4) :
    let w := w0VM op fn mk c a v fm
    (w < 2 ^ 32 ∧ w % 4 = 0) ∧ fld w 2 6 = op ∧ fld w 27 2 = fn ∧ fld w 29 3 = mk ∧ fld w 21 6 = c ∧ fld w 15 6 = a
    ∧ fld w 10 5 = v ∧ fld w 8 2 = fm := by
  simp only [fld_eq, w0VM]
  omega

/-- Extension word 2 of a vector access: the scope of R180, zero for .floor. -/
def VMo.w2 (o : VMo) : Nat := if o.sc = .floor then 0 else o.sc.code

theorem VMo.loadScope_w2 {o : VMo} (h : o.scOk = true) : o.form.Holds (2 ^ 32) o.w2 ∧ loadScope o.w2 = some o.sc := by
  obtain ⟨f, m, v, a, c, sc⟩ := o
  have hext (n : Nat) (hn : n < 2 ^ 32) (hf : f.hasExt = true) : f.Holds (2 ^ 32) n := ⟨hn, fun h' => by simp_all⟩
  cases sc with
  | floor => exact ⟨.zero, rfl⟩
  | dev => exact ⟨hext 4 (by decide) h, rfl⟩
  | sys => exact ⟨hext 5 (by decide) h, rfl⟩
  | hart => cases h
  | core => cases h
  | hall => cases h

theorem VMo.roundTrips {i : Instr} {o : VMo} {op fn fm k : Nat} (he : encode i = o.enc op fn fm) (hw : i.wf = true)
    (ho : o.wf k = true) (hk : k ≤ 64) (hsc : o.form.Holds (2 ^ 32) o.w2)
    (hlt : op < 64 ∧ fn < 4 ∧ fm < 4) (hp : ∀ r : Raw, r.op = op → fld r.w0 27 2 = fn → fld r.w0 8 2 = fm → r.w2 = o.w2 →
      r.vm o.sc = o → parse r = some i) : RoundTrips i := by
  simp only [VMo.wf, Bool.and_eq_true, decide_eq_true_eq] at ho
  obtain ⟨⟨⟨hm, hv⟩, ha⟩, hc⟩ := ho
  obtain ⟨hw0, f1, f2, f3, f4, f5, f6, f7⟩ :=
    w0VM_fields hlt.1 hlt.2.1 (Mask.mkField_lt hm) (show o.c < 64 by omega) (Src.num_lt_of_okB ha) hv hlt.2.2
  have hx : Layout.Fits {
      form := o.form, w0 := w0VM op fn o.mask.mkField o.c o.a.num o.v fm, xmn := o.mask.xmnField, xm := o.mask.xmBit
      qa := o.a.flag, w2 := o.w2, lit := o.a.lit } :=
    { w0 := hw0, xmn := (Mask.holds hm).2, xm := (Mask.holds hm).1, qa := Src.holds_flag_of_okB ha, w2 := hsc
      ix := .zero, qc := .zero, qd := .zero, e := .zero, lit := Src.lit_lt o.a }
  refine hx.roundTrips he hw (hp _ ((hx.fld_w0 (by decide)).trans f1) ((hx.fld_w0 (by decide)).trans f2)
    ((hx.fld_w0 (by decide)).trans f7) hx.raw_w2 ?_)
  rw [Raw.vm, hx.raw_mask hm rfl rfl f3, hx.fld_w0 (by decide), hx.fld_w0 (by decide), hx.fld_w0 (by decide), f4, f5, f6,
    hx.srcAL_num ha rfl rfl]
  rfl

theorem VMo.w2_of_noSc {o : VMo} (h : o.noSc = true) : o.sc = .floor ∧ o.form.Holds (2 ^ 32) o.w2 := by
  have hsc : o.sc = .floor := by simpa [VMo.noSc] using h
  exact ⟨hsc, by rw [VMo.w2, if_pos hsc]; exact .zero⟩

/-! ### Format TM -/

theorem w0TM_fields {fn b a t ca cb : Nat} (hfn : fn < 32) (hb : b < 64) (ha : a < 64) (ht : t < 32)
    (hca : ca < 2) (hcb : cb < 2) :
    let w := w0TM fn b a t ca cb
    (w < 2 ^ 32 ∧ w % 4 = 0) ∧ fld w 2 6 = 0x37 ∧ fld w 27 5 = fn ∧ fld w 21 6 = b ∧ fld w 15 6 = a ∧ fld w 10 5 = t
    ∧ fld w 8 1 = ca ∧ fld w 9 1 = cb := by
  simp only [fld_eq, w0TM]
  omega

/-- What the words of format TM hold; qa is the flag of the a field. -/
structure TMFields where
  form : Form
  fn : Nat
  b : Src := .x 0
  a : Nat := 0
  qa : Nat := 0
  t : Nat := 0
  ca : Bool := false
  cb : Bool := false
  e : Nat := 0

/-- The words of format TM. -/
def TMFields.layout (x : TMFields) : Layout where
  form := x.form
  w0 := w0TM x.fn x.b.num x.a x.t x.ca.toNat x.cb.toNat
  qc := x.b.flag
  qa := x.qa
  e := x.e
  lit := x.b.lit

theorem TMFields.layout_words (x : TMFields) : x.layout.words = asm x.form (w0TM x.fn x.b.num x.a x.t x.ca.toNat x.cb.toNat)
    (ext1 0 0 0 x.b.flag x.qa 0 x.e) 0 x.b.lit := rfl

/-- Every field of format TM has its width. -/
structure TMFields.Fits (x : TMFields) : Prop where
  b : x.b.okB x.form = true
  fn : x.fn < 32
  a : x.a < 64
  qa : x.form.Holds 2 x.qa
  t : x.t < 32
  e : x.form.Holds 64 x.e

/-- What the decoder reads in the words of format TM. -/
structure TMFields.Reads (x : TMFields) (r : Raw) : Prop where
  form : r.form = x.form
  op : r.op = 0x37
  fn : fld r.w0 27 5 = x.fn
  srcB : r.srcB (fld r.w0 21 6) = x.b
  a : fld r.w0 15 6 = x.a
  qa : r.qa = (x.qa == 1)
  t : fld r.w0 10 5 = x.t
  ca : (fld r.w0 8 1 == 1) = x.ca
  cb : (fld r.w0 9 1 == 1) = x.cb
  e : r.e = x.e

theorem TMFields.Fits.roundTrips {x : TMFields} {i : Instr} (h : x.Fits) (he : encode i = x.layout.words) (hw : i.wf = true)
    (hp : ∀ r, x.Reads r → parse r = some i) : RoundTrips i := by
  obtain ⟨hw0, f1, f2, f3, f4, f5, f6, f7⟩ :=
    w0TM_fields h.fn (Src.num_lt_of_okB h.b) h.a h.t x.ca.toNat_lt x.cb.toNat_lt
  have hx : x.layout.Fits :=
    { w0 := hw0, qc := Src.holds_flag_of_okB h.b, qa := h.qa, e := h.e, lit := Src.lit_lt x.b
      xmn := .zero, xm := .zero, qd := .zero
      ix := .zero, w2 := .zero }
  have rb := (hx.fld_w0 (by decide)).trans f3
  have rca : fld x.layout.raw.w0 8 1 = x.ca.toNat := (hx.fld_w0 (by decide)).trans f6
  have rcb : fld x.layout.raw.w0 9 1 = x.cb.toNat := (hx.fld_w0 (by decide)).trans f7
  exact hx.roundTrips he hw (hp _
    { form := rfl
      op := (hx.fld_w0 (by decide)).trans f1
      fn := (hx.fld_w0 (by decide)).trans f2
      srcB := by rw [rb, hx.srcB_num h.b rfl rfl]
      a := (hx.fld_w0 (by decide)).trans f4
      qa := hx.raw_qa
      t := (hx.fld_w0 (by decide)).trans f5
      ca := by rw [rca, beq_one_toNat]
      cb := by rw [rcb, beq_one_toNat]
      e := hx.raw_e })

theorem TSo.roundTrips {i : Instr} {o : TSo} {fn : Nat} (he : encode i = o.enc fn) (hw : i.wf = true)
    (ho : (o.form.noLit && o.d.ok o.form && decide (o.t < 32)) = true)
    (hfn : fn < 32) (hp : ∀ r : Raw, r.op = 0x37 → fld r.w0 27 5 = fn → r.ts = o → parse r = some i) :
    RoundTrips i := by
  simp only [Form.noLit_eq, Bool.and_eq_true, decide_eq_true_eq] at ho
  obtain ⟨⟨hf, hd⟩, ht⟩ := ho
  have hx : TMFields.Fits { form := o.form, fn := fn, a := o.d.num, qa := o.d.flag, t := o.t } :=
    { b := by simp [hf], fn := hfn, a := Dst.num_lt hd, qa := Dst.holds_flag hd, t := ht, e := .zero }
  exact hx.roundTrips (he.trans (by simp [TSo.enc, TMFields.layout_words])) hw
      fun r hr => hp r hr.op hr.fn (by rw [Raw.ts, hr.form, hr.a, hr.t, Raw.dstA_num hr.qa])

end Sys2Proof
end

section
/-! PROOFS. Instructions whose operands have a shape of their own: each is decoded from its words. -/

namespace Sys2Proof

/-! ### Instructions with a shape of their own -/

theorem roundTrips_j (o : JO) (h : (Instr.j o).wf = true) : RoundTrips (.j o) :=
  roundTrips_SJ (d := .x 0) rfl h rfl (immOk_of_offOk h) (by decide) fun r hf hop hd hq _ hi => by
    simp [parse_op07 hop, parse07, hd, hq, hf, hi]

theorem roundTrips_jal (o : JLo) (h : (Instr.jal o).wf = true) : RoundTrips (.jal o) := by
  have ho : (o.d.ok o.form && offOk o.form 18 o.off && !(o.d == .x 0)) = true := h
  simp only [Bool.and_eq_true, Bool.not_eq_true', beq_eq_false_iff_ne] at ho
  obtain ⟨⟨hd, hoff⟩, hne⟩ := ho
  refine roundTrips_SJ rfl h hd (immOk_of_offOk hoff) (by decide) fun r hf hop hnum hq hdst hi => ?_
  have hjal : ¬ (r.d = 0 ∧ r.qd = false) := by rwa [hnum, hq, isJ_iff]
  simp only [parse_op07 hop, parse07, if_neg hjal, hf, hdst, hi]

theorem roundTrips_li (o : LIo) (h : (Instr.li o).wf = true) : RoundTrips (.li o) := by
  obtain ⟨hd, hv⟩ := Bool.and_eq_true_iff.mp h
  exact roundTrips_SJ rfl h hd hv (by decide) fun r hf hop _ _ hdst hi => by simp only [parse, hop, hf, hdst, hi]

/-- ADDSH has a function code for each shift amount. -/
theorem roundTrips_addsh (k : Nat) (o : R3) (h : (Instr.addsh k o).wf = true) : RoundTrips (.addsh k o) := by
  have ho : (decide (1 ≤ k) && decide (k ≤ 4) && o.wf) = true := h
  simp only [Bool.and_eq_true, decide_eq_true_eq] at ho
  obtain ⟨⟨hlo, hhi⟩, ho⟩ := ho
  refine R3.roundTrips rfl h ho ⟨by decide, by omega⟩ fun r hop hfn hr => ?_
  obtain rfl | rfl | rfl | rfl : k = 1 ∨ k = 2 ∨ k = 3 ∨ k = 4 := by omega
  all_goals simp [parse_op01 hop, parse01, hfn, hr]

theorem roundTrips_pref (o : PFo) (h : (Instr.pref o).wf = true) : RoundTrips (.pref o) := by
  have ho : (decide (o.hint < 3) && o.a.okA o.form && immOk o.form 9 o.off) = true := h
  simp only [Bool.and_eq_true, decide_eq_true_eq] at ho
  obtain ⟨⟨hhint, ha⟩, hv⟩ := ho
  exact roundTrips_SM (d := .x o.hint) rfl h (by rw [Dst.ok_x, decide_eq_true_eq]; omega) ha hv (by decide) fun r hr hi hk => by
    simp [parse_op0C hr.op, parse0C, hk, hr.form, hr.dnum, hr.srcA, hi]

/-- AMOCAS names a register, which is compared and written (R116). -/
theorem roundTrips_amocas (o : CASo) (h : (Instr.amocas o).wf = true) : RoundTrips (.amocas o) := by
  have ho : (decide (o.d < 64) && o.a.okA o.form && o.b.okB o.form) = true := h
  simp only [Bool.and_eq_true, decide_eq_true_eq] at ho
  obtain ⟨⟨hd, ha⟩, hb⟩ := ho
  exact roundTrips_AM (o := ⟨o.form, .x o.d, o.a, o.b⟩) rfl h (by simp [R3.wf_iff, hd, ha, hb]) (by decide)
      fun r hr hsc hk => by
        simp [parse_op10 hr.op, parseAM, hr.op, hsc, hk, hr.form, hr.d, hr.srcA, hr.srcB]

theorem roundTrips_lda (o : LAo) (h : (Instr.lda o).wf = true) : RoundTrips (.lda o) := by
  have ho : (o.form.noLit && o.d.ok o.form && o.a.okA o.form) = true := h
  simp only [Form.noLit_eq, Bool.and_eq_true] at ho
  obtain ⟨⟨hf, hd⟩, ha⟩ := ho
  exact roundTrips_AM (o := ⟨o.form, o.d, o.a, .x 0⟩) rfl h (by simp [R3.wf_iff, hf, hd, ha]) (by decide) fun r hr hsc hk => by
    simp [parse_op10 hr.op, parseAM, hr.op, hsc, hk, hr.form, hr.dst, hr.srcA]

theorem roundTrips_stl (o : SLo) (h : (Instr.stl o).wf = true) : RoundTrips (.stl o) := by
  have ho : (o.form.noLit && o.d.okA o.form && o.a.okA o.form) = true := h
  simp only [Form.noLit_eq, Bool.and_eq_true] at ho
  obtain ⟨⟨hf, hd⟩, ha⟩ := ho
  obtain ⟨hnum, hflag, hok⟩ := Src.toDst_of_okA hd
  refine roundTrips_AM (o := ⟨o.form, o.d.toDst, o.a, .x 0⟩) (by rw [hnum, hflag]; rfl) h (by simp [R3.wf_iff, hf, hok, ha])
    (by decide) fun r hr hsc hk => ?_
  have hsrc : r.srcD r.d = o.d := by rw [hr.d, hnum, Raw.srcD_num hd (by rw [hr.qd, hflag])]
  simp [parse_op10 hr.op, parseAM, hr.op, hsc, hk, hr.form, hsrc, hr.srcA]

/-- The sets of FENCE and its .eng stand in the field d, a bit each (R120). -/
theorem roundTrips_fence (o : FNo) (h : (Instr.fence o).wf = true) : RoundTrips (.fence o) := by
  obtain ⟨f, sc, pr, pw, sr, sw, eng⟩ := o
  have hsc := sc.code_lt
  have h1 := pr.toNat_lt
  have h2 := pw.toNat_lt
  have h3 := sr.toNat_lt
  have h4 := sw.toNat_lt
  have h5 := eng.toNat_lt
  refine roundTrips_plain rfl h h (by decide) (by dsimp only; omega) (by dsimp only; omega) (by decide)
      fun r hop hfn hf _ ha hd => ?_
  have hbits : fld r.w0 8 1 = pr.toNat ∧ fld r.w0 9 1 = pw.toNat ∧ fld r.w0 10 1 = sr.toNat ∧ fld r.w0 11 1 = sw.toNat
      ∧ fld r.w0 12 1 = eng.toNat := by
    simp only [Raw.d, fld_eq] at hd ⊢
    omega
  obtain ⟨b1, b2, b3, b4, b5⟩ := hbits
  simp [parse_op11 hop, parse11, hfn, hf, ha, b1, b2, b3, b4, b5]

theorem roundTrips_vsync (f : Form) (sc : Scope) (h : (Instr.vsync f sc).wf = true) : RoundTrips (.vsync f sc) := by
  have hsc := sc.code_lt
  exact roundTrips_plain rfl h h (by decide) (by omega) (by decide) (by decide) fun r hop hfn hf _ ha _ => by
    simp [parse_op11 hop, parse11, hfn, hf, ha]

/-- WAITM's limit register stands in the extension words (R124). -/
theorem roundTrips_waitm (o : WMo) (h : (Instr.waitm o).wf = true) : RoundTrips (.waitm o) := by
  have ho : (o.d.ok o.form && o.a.okA o.form && o.b.okB o.form && decide (o.e < 64) && (o.form.hasExt || o.e == 0)) = true := h
  simp only [Bool.and_eq_true, decide_eq_true_eq, Bool.or_eq_true, beq_iff_eq] at ho
  obtain ⟨⟨⟨⟨hd, ha⟩, hb⟩, he⟩, hext⟩ := ho
  exact roundTrips_SR (o := ⟨o.form, o.d, o.a, o.b⟩) rfl h (by simp [R3.wf_iff, hd, ha, hb]) (by decide)
    ⟨he, fun hf => hext.resolve_left (by simp [hf])⟩
    fun r hr => by simp [parse_op11 hr.op, parse11, hr.fn, hr.form, hr.dst, hr.srcA, hr.srcB, hr.e]

theorem roundTrips_epush (o : EPo) (h : (Instr.epush o).wf = true) : RoundTrips (.epush o) := by
  obtain ⟨f, p, a⟩ := o
  have ho : (decide (p < 8) && EPo.wfA ⟨f, p, a⟩) = true := h
  simp only [Bool.and_eq_true, decide_eq_true_eq] at ho
  obtain ⟨hp, ha⟩ := ho
  have hfa : f.hasLit = false ∧ a.okA f = true := by
    cases a with
    | x r => simp_all [EPo.wfA, Form.hasLit]
    | q n => simp_all [EPo.wfA, Form.hasLit, Src.okA, Form.queueOk, Form.hasExt]
    | imm v => cases ha
  exact roundTrips_SR (o := ⟨f, .x p, a, .x 0⟩) rfl h (by simp [R3.wf_iff, hfa]; omega)
    (by decide) .zero fun r hr => by simp [parse_op19 hr.op, parse19, hr.fn, hr.form, hr.d, hr.srcA]

theorem roundTrips_cmarm (f : Form) (m a : Nat) (h : (Instr.cmarm f m a).wf = true) : RoundTrips (.cmarm f m a) := by
  have ho : (f.noLit && decide (m < 4) && groupOk a 4) = true := h
  simp only [Bool.and_eq_true, decide_eq_true_eq] at ho
  obtain ⟨⟨hf, hm⟩, ha⟩ := ho
  exact roundTrips_plain rfl h hf (by decide) (lt_of_groupOk ha (by decide)) (by omega)
    (by decide) fun r hop hfn hform _ ra rd => by simp [parse_op1A hop, parse1A, hfn, hform, ra, rd]

theorem roundTrips_cmref (o : CRo) (h : (Instr.cmref o).wf = true) : RoundTrips (.cmref o) := by
  have ho : (o.form.noLit && decide (o.m < 4) && o.a.okA o.form) = true := h
  simp only [Form.noLit_eq, Bool.and_eq_true, decide_eq_true_eq] at ho
  obtain ⟨⟨hf, hm⟩, ha⟩ := ho
  exact roundTrips_SR (o := ⟨o.form, .x o.m, o.a, .x 0⟩) rfl h (by simp [R3.wf_iff, hf, ha]; omega)
    (by decide) .zero fun r hr => by simp [parse_op1A hr.op, parse1A, hr.fn, hr.form, hr.d, hr.srcA]

theorem roundTrips_cmchk (f : Form) (m : Nat) (clr : Bool) (h : (Instr.cmchk f m clr).wf = true) :
    RoundTrips (.cmchk f m clr) := by
  have ho : (f.noLit && decide (m < 4)) = true := h
  simp only [Bool.and_eq_true, decide_eq_true_eq] at ho
  obtain ⟨hf, hm⟩ := ho
  have hclr := clr.toNat_lt
  refine roundTrips_plain rfl h hf (by omega) (by decide) (by omega) (by decide) fun r hop hfn hform rb _ rd => ?_
  have hbit : fld r.w0 20 1 = clr.toNat := by rw [fld_chk, ← Raw.b, rb, toNat_mod_two]
  simp [parse_op1A hop, parse1A, hfn, hform, rd, hbit]

theorem roundTrips_cmrd (o : CDo) (h : (Instr.cmrd o).wf = true) : RoundTrips (.cmrd o) := by
  have ho : (o.d.ok o.form && decide (o.m < 4) && o.b.okB o.form) = true := h
  simp only [Bool.and_eq_true, decide_eq_true_eq] at ho
  obtain ⟨⟨hd, hm⟩, hb⟩ := ho
  exact roundTrips_SR (o := ⟨o.form, o.d, .x o.m, o.b⟩) rfl h (by simp [R3.wf_iff, hd, hb]; omega)
    (by decide) .zero fun r hr => by simp [parse_op1A hr.op, parse1A, hr.fn, hr.form, hr.dst, hr.a, hr.srcB]

theorem roundTrips_cmoff (f : Form) (m : Nat) (h : (Instr.cmoff f m).wf = true) : RoundTrips (.cmoff f m) := by
  have ho : (f.noLit && decide (m < 4)) = true := h
  simp only [Bool.and_eq_true, decide_eq_true_eq] at ho
  obtain ⟨hf, hm⟩ := ho
  exact roundTrips_plain rfl h hf (by decide) (by decide) (by omega)
    (by decide) fun r hop hfn hform _ _ rd => by simp [parse_op1A hop, parse1A, hfn, hform, rd]

theorem roundTrips_shinit (sh a : Nat) (h : (Instr.shinit sh a).wf = true) : RoundTrips (.shinit sh a) := by
  have ho : (decide (sh < 4) && groupOk a 4) = true := h
  simp only [Bool.and_eq_true, decide_eq_true_eq] at ho
  obtain ⟨hs, ha⟩ := ho
  exact roundTrips_plain (f := .base) rfl h rfl (by decide) (lt_of_groupOk ha (by decide)) (by omega)
    (by decide) fun r hop hfn _ _ ra rd => by simp [parse_op1A hop, parse1A, hfn, ra, rd]

theorem roundTrips_shclr (sh : Nat) (h : (Instr.shclr sh).wf = true) : RoundTrips (.shclr sh) := by
  have hs : sh < 4 := of_decide_eq_true h
  exact roundTrips_plain (f := .base) rfl h rfl (by decide) (by decide) (by omega)
    (by decide) fun r hop hfn _ _ _ rd => by simp [parse_op1A hop, parse1A, hfn, rd]

theorem roundTrips_gets (o : GSo) (h : (Instr.gets o).wf = true) : RoundTrips (.gets o) := by
  have ho : (o.form.noLit && o.d.ok o.form && isStateReg o.n) = true := h
  simp only [Bool.and_eq_true] at ho
  obtain ⟨⟨hf, hd⟩, hn⟩ := ho
  exact roundTrips_stateReg (a := .x 0) (op := 0x13)
      (show asm o.form (o.n * 1048576 + o.d.num * 256 + 0x13 * 4) (ext1 0 0 0 0 0 o.d.flag 0) 0 0 = _ by simp)
      h hf hd rfl hn (by decide)
    fun r hop hform hdst _ hnum => by simp [parse, hop, hform, hdst, hnum]

theorem roundTrips_sets (o : SSo) (h : (Instr.sets o).wf = true) : RoundTrips (.sets o) := by
  have ho : (o.form.noLit && o.a.okA o.form && isStateReg o.n) = true := h
  simp only [Bool.and_eq_true] at ho
  obtain ⟨⟨hf, ha⟩, hn⟩ := ho
  exact roundTrips_stateReg (d := .x 0) (op := 0x14)
      (show asm o.form (o.n * 1048576 + o.a.num * 16384 + 0x14 * 4) (ext1 0 0 0 0 o.a.flag 0 0) 0 0 = _ by simp)
      h hf rfl ha hn (by decide)
    fun r hop hform _ hsrc hnum => by simp [parse, hop, hform, hsrc, hnum]

theorem roundTrips_swaps (o : SWo) (h : (Instr.swaps o).wf = true) : RoundTrips (.swaps o) := by
  have ho : (o.form.noLit && o.d.ok o.form && o.a.okA o.form && isStateReg o.n) = true := h
  simp only [Bool.and_eq_true] at ho
  obtain ⟨⟨⟨hf, hd⟩, ha⟩, hn⟩ := ho
  exact roundTrips_stateReg rfl h hf hd ha hn (by decide)
    fun r hop hform hdst hsrc hnum => by simp [parse, hop, hform, hdst, hsrc, hnum]

/-! ### Vector instructions with a shape of their own -/

/-- A condition and a mask register share the field d (R68). -/
theorem fld_cond_reg (w : Nat) : fld w 10 3 = fld w 10 6 % 8 ∧ fld w 13 3 = fld w 10 6 / 8 := by
  simp only [fld_eq]
  omega

theorem fld_cond {r : Raw} {k d : Nat} (hd : d < 8) (hr : fld r.w0 10 6 = k * 8 + d) :
    fld r.w0 10 3 = d ∧ fld r.w0 13 3 = k := by
  rw [(fld_cond_reg r.w0).1, (fld_cond_reg r.w0).2, hr]
  omega

theorem ICond.ofCode_code (k : ICond) : ICond.ofCode k.code = some k := by cases k <;> rfl
theorem ICond.code_lt (k : ICond) : k.code < 6 := by cases k <;> decide
theorem FCond.ofCode_code (k : FCond) : FCond.ofCode k.code = some k := by cases k <;> rfl
theorem FCond.code_lt (k : FCond) : k.code < 7 := by cases k <;> decide

theorem VSrc.fm_ne_three (c : VSrc) : c.fm ≠ 3 := by have h := c.fm_cases; omega

theorem roundTrips_vcmp (o : VCo) (h : (Instr.vcmp o).wf = true) : RoundTrips (.vcmp o) := by
  have ho : (o.mask.ok o.form && decide (o.d < 8) && decide (o.a < 32) && o.c.ok3 o.form) = true := h
  simp only [Bool.and_eq_true, decide_eq_true_eq] at ho
  obtain ⟨⟨⟨hm, hd⟩, ha⟩, hc⟩ := ho
  have hk := o.cond.code_lt
  refine roundTrips_V rfl h hm (by omega) ha (VSrc.encodable_of_ok3 hc) .zero (by decide) fun r hr hv => ?_
  have hfm : fld r.w0 8 2 ≠ 3 := by rw [hr.fm]; exact o.c.fm_ne_three
  have hfn : fld r.w0 27 2 = 0 := hr.fn
  obtain ⟨hreg, hcond⟩ := fld_cond hd hr.d
  simp only [parse_op2C hr.op, parse2C, VFields.ofVSrc, if_neg hfm, hfn, hcond, ICond.ofCode_code, Option.map_some, hr.form, hr.mask,
    hreg, hr.a, hv]

theorem roundTrips_vfcmp (o : VFCo) (h : (Instr.vfcmp o).wf = true) : RoundTrips (.vfcmp o) := by
  have ho : (o.mask.ok o.form && decide (o.d < 8) && decide (o.a < 32) && o.c.ok3 o.form) = true := h
  simp only [Bool.and_eq_true, decide_eq_true_eq] at ho
  obtain ⟨⟨⟨hm, hd⟩, ha⟩, hc⟩ := ho
  have hk := o.cond.code_lt
  refine roundTrips_V rfl h hm (by omega) ha (VSrc.encodable_of_ok3 hc) .zero (by decide) fun r hr hv => ?_
  have hfm : fld r.w0 8 2 ≠ 3 := by rw [hr.fm]; exact o.c.fm_ne_three
  have hfn : fld r.w0 27 2 = 1 := hr.fn
  obtain ⟨hreg, hcond⟩ := fld_cond hd hr.d
  simp only [parse_op2C hr.op, parse2C, VFields.ofVSrc, if_neg hfm, hfn, hcond, FCond.ofCode_code, Option.map_some, hr.form, hr.mask,
    hreg, hr.a, hv]

theorem roundTrips_vfrcpp (o : VPo) (h : (Instr.vfrcpp o).wf = true) : RoundTrips (.vfrcpp o) := by
  have ho : (o.form.noLit && o.mask.ok o.form && decide (o.d < 32) && decide (o.a < 32) && decide (o.mc < 8)) = true := h
  simp only [Bool.and_eq_true, decide_eq_true_eq] at ho
  obtain ⟨⟨⟨⟨-, hm⟩, hd⟩, ha⟩, hmc⟩ := ho
  exact roundTrips_U rfl h hm (by omega) ha (by omega) .zero (by decide)
    fun r hr => by simp [parse_op2B hr.op, parse2B, hr.fn, hr.fm, hr.form, hr.mask, hr.d, hr.a, hr.c]

theorem roundTrips_mnot (f : Form) (d a : Nat) (h : (Instr.mnot f d a).wf = true) : RoundTrips (.mnot f d a) := by
  have ho : (f.noLit && decide (d < 8) && decide (a < 8)) = true := h
  simp only [Bool.and_eq_true, decide_eq_true_eq] at ho
  obtain ⟨⟨-, hd⟩, ha⟩ := ho
  exact roundTrips_Vplain rfl h (by omega) (by omega) (by decide) (by decide)
    fun r hr => by simp [parse_op2D hr.op, parse2D, hr.fn, hr.fm, hr.form, hr.d, hr.a]

theorem roundTrips_vmset (o : VSo) (h : (Instr.vmset o).wf = true) : RoundTrips (.vmset o) := by
  have ho : (decide (o.d < 8) && o.c.okSN o.form) = true := h
  simp only [Bool.and_eq_true, decide_eq_true_eq] at ho
  obtain ⟨hd, hc⟩ := ho
  obtain ⟨henc, hfm⟩ := VSrc.encodable_of_okSI (VSrc.okSI_of_okSN hc)
  refine roundTrips_V rfl h rfl (by omega) (by decide) henc .zero (by decide) fun r hr hv => ?_
  have rfm : fld r.w0 8 2 = o.c.fm := hr.fm
  rcases hfm with hfm | hfm <;>
    simp [parse_op2E hr.op, parse2E, hr.fn, rfm, hfm, hr.form, hr.d, hv, VFields.ofVSrc]

theorem roundTrips_viota (o : VUo) (h : (Instr.viota o).wf = true) : RoundTrips (.viota o) := by
  have ho : (o.form.noLit && o.mask.ok o.form && decide (o.d < 32) && decide (o.a < 8)) = true := h
  simp only [Bool.and_eq_true, decide_eq_true_eq] at ho
  obtain ⟨⟨⟨-, hm⟩, hd⟩, ha⟩ := ho
  exact VUo.roundTrips rfl h ⟨hm, hd, by omega⟩ (by decide) fun r hop hfn hfm hr => by
    simp [parse_op2E hop, parse2E, hfn, hfm, hr]

theorem roundTrips_vidxc (o : VXo) (h : (Instr.vidxc o).wf = true) : RoundTrips (.vidxc o) := by
  have ho : (o.form.noLit && o.mask.ok o.form && decide (o.d < 32) && decide (o.c < 64)) = true := h
  simp only [Bool.and_eq_true, decide_eq_true_eq] at ho
  obtain ⟨⟨⟨-, hm⟩, hd⟩, hc⟩ := ho
  exact roundTrips_U rfl h hm (by omega) (by decide) hc .zero (by decide)
    fun r hr => by simp [parse_op31 hr.op, parse31, hr.fn, hr.fm, hr.form, hr.mask, hr.d, hr.c]

theorem roundTrips_vbcast (o : VBo) (h : (Instr.vbcast o).wf = true) : RoundTrips (.vbcast o) := by
  have ho : (o.mask.ok o.form && decide (o.d < 32) && o.c.okSI o.form) = true := h
  simp only [Bool.and_eq_true, decide_eq_true_eq] at ho
  obtain ⟨⟨hm, hd⟩, hc⟩ := ho
  obtain ⟨henc, hfm⟩ := VSrc.encodable_of_okSI hc
  refine roundTrips_V rfl h hm (by omega) (by decide) henc .zero (by decide) fun r hr hv => ?_
  have rfm : fld r.w0 8 2 = o.c.fm := hr.fm
  rcases hfm with hfm | hfm <;>
    simp [parse_op31 hr.op, parse31, hr.fn, rfm, hfm, hr.form, hr.mask, hr.d, hv, VFields.ofVSrc]

theorem roundTrips_vextr (o : VEo) (h : (Instr.vextr o).wf = true) : RoundTrips (.vextr o) := by
  have ho : (o.d.ok o.form && decide (o.a < 32) && o.c.okSN o.form) = true := h
  simp only [Bool.and_eq_true, decide_eq_true_eq] at ho
  obtain ⟨⟨hd, ha⟩, hc⟩ := ho
  obtain ⟨henc, hfm⟩ := VSrc.encodable_of_okSI (VSrc.okSI_of_okSN hc)
  refine roundTrips_V rfl h rfl (Dst.num_lt hd) ha henc (Dst.holds_flag hd) (by decide) fun r hr hv => ?_
  have rfm : fld r.w0 8 2 = o.c.fm := hr.fm
  have hdst : r.dst (fld r.w0 10 6) = o.d := by rw [hr.d]; exact Raw.dst_num hr.qd
  rcases hfm with hfm | hfm <;>
    simp [parse_op31 hr.op, parse31, hr.fn, rfm, hfm, hr.form, hdst, hr.a, hv, VFields.ofVSrc]

theorem roundTrips_vins (o : VIo) (h : (Instr.vins o).wf = true) : RoundTrips (.vins o) := by
  have ho : (decide (o.d < 32) && o.b.okB o.form && decide (o.e < 64) && (o.form.hasExt || o.e == 0)) = true := h
  simp only [Bool.and_eq_true, decide_eq_true_eq, Bool.or_eq_true, beq_iff_eq] at ho
  obtain ⟨⟨⟨hd, hb⟩, he⟩, hext⟩ := ho
  have hx : VFields.Fits {
      form := o.form, op := 0x32, fn := 0, c := o.b.num, d := o.d, fm := 1, qc := o.b.flag, e := o.e, lit := o.b.lit } :=
    { mask := rfl, a := by simp, d := Nat.lt_trans hd (by decide), c := Src.num_lt_of_okB hb, op := by simp, fn := by simp
      fm := by simp, qd := .zero, qc := Src.holds_flag_of_okB hb, lit := Src.lit_lt o.b
      e := ⟨he, fun hf => hext.resolve_left (by simp [hf])⟩ }
  refine hx.roundTrips rfl h fun r hr => ?_
  have hsrc : r.srcB (fld r.w0 21 6) = o.b := by rw [hr.c]; exact hr.srcB o.b hb rfl rfl rfl
  simp [parse_op32 hr.op, parse32, hr.fn, hr.fm, hr.form, hr.d, hsrc, hr.e]

theorem roundTrips_afdef (o : AFo) (h : (Instr.afdef o).wf = true) : RoundTrips (.afdef o) := by
  have ho : (o.mask.ok o.form && decide (o.a < 32) && decide (o.n ≤ 4) && decide (o.a + o.n ≤ 32) &&
      o.p.okSN o.form) = true := h
  simp only [Bool.and_eq_true, decide_eq_true_eq] at ho
  obtain ⟨⟨⟨⟨hm, ha⟩, hn⟩, -⟩, hc⟩ := ho
  obtain ⟨henc, hfm⟩ := VSrc.encodable_of_okSI (VSrc.okSI_of_okSN hc)
  refine roundTrips_V rfl h hm (by omega) ha henc .zero (by decide) fun r hr hv => ?_
  have rfm : fld r.w0 8 2 = o.p.fm := hr.fm
  rcases hfm with hfm | hfm <;>
    simp [parse_op35 hr.op, parse35, hr.fn, rfm, hfm, hr.form, hr.mask, hr.d, hr.a, hv, VFields.ofVSrc]

theorem roundTrips_afpop (o : APo) (h : (Instr.afpop o).wf = true) : RoundTrips (.afpop o) := by
  have ho : (decide (o.d < 32) && decide (o.a < 32) && o.p.okSN o.form) = true := h
  simp only [Bool.and_eq_true, decide_eq_true_eq] at ho
  obtain ⟨⟨hd, ha⟩, hc⟩ := ho
  obtain ⟨henc, hfm⟩ := VSrc.encodable_of_okSI (VSrc.okSI_of_okSN hc)
  refine roundTrips_V rfl h rfl (by omega) ha henc .zero (by decide) fun r hr hv => ?_
  have rfm : fld r.w0 8 2 = o.p.fm := hr.fm
  rcases hfm with hfm | hfm <;>
    simp [parse_op35 hr.op, parse35, hr.fn, rfm, hfm, hr.form, hr.d, hr.a, hv, VFields.ofVSrc]

/-- AFCNT of all paths is form 11 (R195). -/
theorem roundTrips_afcnt (o : ACo) (h : (Instr.afcnt o).wf = true) : RoundTrips (.afcnt o) := by
  obtain ⟨f, d, p⟩ := o
  obtain ⟨hd, hpath⟩ := Bool.and_eq_true_iff.mp h
  cases p with
  | none =>
    refine roundTrips_U rfl h rfl (Dst.num_lt hd) (by decide) (by decide) (Dst.holds_flag hd) (by decide) fun r hr => ?_
    have hdst : r.dst (fld r.w0 10 6) = d := by rw [hr.d]; exact Raw.dst_num hr.qd
    simp [parse_op35 hr.op, parse35, hr.fn, hr.fm, hr.form, hdst]
  | some c =>
    obtain ⟨henc, hfm⟩ := VSrc.encodable_of_okSI (VSrc.okSI_of_okSN hpath)
    refine roundTrips_V rfl h rfl (Dst.num_lt hd) (by decide) henc (Dst.holds_flag hd) (by decide) fun r hr hv => ?_
    have rfm : fld r.w0 8 2 = c.fm := hr.fm
    have hdst : r.dst (fld r.w0 10 6) = d := by rw [hr.d]; exact Raw.dst_num hr.qd
    rcases hfm with hfm | hfm <;>
      simp [parse_op35 hr.op, parse35, hr.fn, rfm, hfm, hr.form, hdst, hv, VFields.ofVSrc]

theorem roundTrips_epopv (o : VNo) (h : (Instr.epopv o).wf = true) : RoundTrips (.epopv o) := by
  have ho : (o.form.noLit && o.mask.ok o.form && decide (o.v < 32) && decide (o.n < 8) && o.form == .base) = true := h
  simp only [Bool.and_eq_true, decide_eq_true_eq] at ho
  obtain ⟨⟨⟨⟨-, hm⟩, hv⟩, hn⟩, -⟩ := ho
  exact roundTrips_U rfl h hm (by omega) (by omega) (by decide) .zero (by decide)
    fun r hr => by simp [parse_op35 hr.op, parse35, hr.fn, hr.fm, hr.form, hr.mask, hr.d, hr.a]

theorem roundTrips_shpopb (f : Form) (v sh : Nat) (h : (Instr.shpopb f v sh).wf = true) : RoundTrips (.shpopb f v sh) := by
  have ho : (f.noLit && decide (v < 32) && decide (sh < 4)) = true := h
  simp only [Bool.and_eq_true, decide_eq_true_eq] at ho
  obtain ⟨⟨-, hv⟩, hs⟩ := ho
  exact roundTrips_Vplain rfl h (by omega) (by omega) (by decide) (by decide)
    fun r hr => by simp [parse_op36 hr.op, parse36, hr.fn, hr.fm, hr.form, hr.d, hr.a]

/-! ### The tuple matrix unit -/

theorem roundTrips_tmatt (o : RB) (h : (Instr.tmatt o).wf = true) : RoundTrips (.tmatt o) := by
  obtain ⟨hd, hb⟩ := Bool.and_eq_true_iff.mp h
  have hx : TMFields.Fits { form := o.form, fn := 0, b := o.b, a := o.d.num, qa := o.d.flag } :=
    { b := hb, fn := by simp, a := Dst.num_lt hd, qa := Dst.holds_flag hd, t := by simp, e := .zero }
  refine hx.roundTrips (show asm o.form (w0TM 0 o.b.num o.d.num 0 0 0) (ext1 0 0 0 o.b.flag o.d.flag 0 0) 0 o.b.lit = _ by
      simp [TMFields.layout_words]) h fun r hr => ?_
  have hdst : r.dstA (fld r.w0 15 6) = o.d := by rw [hr.a]; exact Raw.dstA_num hr.qa
  simp [parse_op37 hr.op, parse37, hr.fn, hr.form, hdst, hr.srcB]

theorem roundTrips_tmdet (f : Form) (h : (Instr.tmdet f).wf = true) : RoundTrips (.tmdet f) := by
  have hf : f.hasLit = false := by simpa using (show f.noLit = true from h)
  have hx : TMFields.Fits { form := f, fn := 1 } :=
    { b := by simp [hf], fn := by simp, a := by simp, qa := .zero, t := by simp, e := .zero }
  exact hx.roundTrips (show asm f (w0TM 1 0 0 0 0 0) 0 0 0 = _ by simp [TMFields.layout_words]) h fun r hr => by
    simp [parse_op37 hr.op, parse37, hr.fn, hr.form]

/-- TMALG and TMALGS: a source in the a field. -/
theorem RA.roundTripsTM {i : Instr} {o : RA} {fn : Nat}
    (he : encode i = asm o.form (w0TM fn 0 o.a.num 0 0 0) (ext1 0 0 0 0 o.a.flag 0 0) 0 0) (hw : i.wf = true)
    (ho : o.form.noLit = true ∧ o.a.okA o.form = true)
    (hfn : fn < 32) (hp : ∀ r : Raw, r.op = 0x37 → fld r.w0 27 5 = fn → (⟨r.form, r.srcA (fld r.w0 15 6)⟩ : RA) = o →
      parse r = some i) : RoundTrips i := by
  obtain ⟨hf, ha⟩ := ho
  have hx : TMFields.Fits { form := o.form, fn := fn, a := o.a.num, qa := o.a.flag } :=
    { b := by simp_all, fn := hfn, a := Src.num_lt_of_okA ha, qa := Src.holds_flag_of_okA ha, t := by simp
      e := .zero }
  exact hx.roundTrips (he.trans (by simp [TMFields.layout_words])) hw fun r hr => hp r hr.op hr.fn (by
    rw [hr.form, hr.a, Raw.srcA_num ha hr.qa])

theorem roundTrips_tmzero (f : Form) (t : Nat) (h : (Instr.tmzero f t).wf = true) : RoundTrips (.tmzero f t) := by
  have ho : (f.noLit && decide (t < 32)) = true := h
  simp only [Form.noLit_eq, Bool.and_eq_true, decide_eq_true_eq] at ho
  have hx : TMFields.Fits { form := f, fn := 4, t := t } :=
    { b := by simp [ho.1], fn := by simp, a := by simp, qa := .zero, t := ho.2, e := .zero }
  exact hx.roundTrips (show asm f (w0TM 4 0 0 t 0 0) 0 0 0 = _ by simp [TMFields.layout_words]) h
    fun r hr => by simp [parse_op37 hr.op, parse37, hr.fn, hr.form, hr.t]

theorem roundTrips_tmop (o : TOo) (h : (Instr.tmop o).wf = true) : RoundTrips (.tmop o) := by
  have ho : (decide (o.t < 32) && decide (o.a < 32) && decide (o.vb < 32) && o.b.okB o.form &&
      (o.form.hasExt || o.vb == 0)) = true := h
  simp only [Bool.and_eq_true, decide_eq_true_eq, Bool.or_eq_true, beq_iff_eq] at ho
  obtain ⟨⟨⟨⟨ht, ha⟩, hvb⟩, hb⟩, hext⟩ := ho
  have hx : TMFields.Fits { form := o.form, fn := 5, b := o.b, a := o.a, t := o.t, ca := o.ca, cb := o.cb, e := o.vb } :=
    { b := hb, fn := by simp, a := Nat.lt_trans ha (by decide), qa := .zero, t := ht
      e := ⟨Nat.lt_trans hvb (by decide), fun hf => hext.resolve_left (by simp [hf])⟩ }
  refine hx.roundTrips rfl h fun r hr => ?_
  have hca : (fld r.w0 8 1 == 1) = o.ca := hr.ca
  have hcb : (fld r.w0 9 1 == 1) = o.cb := hr.cb
  simp only [parse_op37 hr.op, parse37, hr.fn, hr.form, hr.t, hr.a, hr.e, hr.srcB, hca, hcb]

theorem roundTrips_tmrun (o : TRo) (h : (Instr.tmrun o).wf = true) : RoundTrips (.tmrun o) := by
  have ho : (o.form.noLit && decide (o.t < 32) && groupOk o.a 8) = true := h
  simp only [Form.noLit_eq, Bool.and_eq_true, decide_eq_true_eq] at ho
  obtain ⟨⟨hf, ht⟩, ha⟩ := ho
  have hx : TMFields.Fits { form := o.form, fn := 6, a := o.a, t := o.t, ca := o.ca, cb := o.cb } :=
    { b := by simp [hf], fn := by simp, a := lt_of_groupOk ha (by decide), qa := .zero, t := ht, e := .zero }
  refine hx.roundTrips (show asm o.form (w0TM 6 0 o.a o.t o.ca.toNat o.cb.toNat) 0 0 0 = _ by simp [TMFields.layout_words]) h
      fun r hr => ?_
  have hca : (fld r.w0 8 1 == 1) = o.ca := hr.ca
  have hcb : (fld r.w0 9 1 == 1) = o.cb := hr.cb
  simp only [parse_op37 hr.op, parse37, hr.fn, hr.form, hr.t, hr.a, hca, hcb]

theorem roundTrips_tmrd (o : TDo) (h : (Instr.tmrd o).wf = true) : RoundTrips (.tmrd o) := by
  have ho : (decide (o.t < 32) && decide (o.v < 32) && decide (o.v % 2 = 0) && o.b.okB o.form && decide (o.e < 64)
      && (o.form.hasExt || o.e == 0)) = true := h
  simp only [Bool.and_eq_true, decide_eq_true_eq, Bool.or_eq_true, beq_iff_eq] at ho
  obtain ⟨⟨⟨⟨⟨ht, hv⟩, -⟩, hb⟩, he⟩, hext⟩ := ho
  have hx : TMFields.Fits { form := o.form, fn := 7, b := o.b, a := o.v, t := o.t, e := o.e } :=
    { b := hb, fn := by simp, a := Nat.lt_trans hv (by decide), qa := .zero, t := ht
      e := ⟨he, fun hf => hext.resolve_left (by simp [hf])⟩ }
  exact hx.roundTrips (show asm o.form (w0TM 7 o.b.num o.v o.t 0 0) (ext1 0 0 0 o.b.flag 0 0 o.e) 0 o.b.lit = _ by
      simp [TMFields.layout_words]) h
    fun r hr => by simp [parse_op37 hr.op, parse37, hr.fn, hr.form, hr.t, hr.a, hr.e, hr.srcB]

theorem roundTrips_tmwr (o : TWo) (h : (Instr.tmwr o).wf = true) : RoundTrips (.tmwr o) := by
  have ho : (decide (o.t < 32) && decide (o.v < 32) && decide (o.v % 2 = 0) && o.b.okB o.form) = true := h
  simp only [Bool.and_eq_true, decide_eq_true_eq] at ho
  obtain ⟨⟨⟨ht, hv⟩, -⟩, hb⟩ := ho
  have hx : TMFields.Fits { form := o.form, fn := 8, b := o.b, a := o.v, t := o.t } :=
    { b := hb, fn := by simp, a := Nat.lt_trans hv (by decide), qa := .zero, t := ht, e := .zero }
  exact hx.roundTrips (show asm o.form (w0TM 8 o.b.num o.v o.t 0 0) (ext1 0 0 0 o.b.flag 0 0 0) 0 o.b.lit = _ by
      simp [TMFields.layout_words]) h
    fun r hr => by simp [parse_op37 hr.op, parse37, hr.fn, hr.form, hr.t, hr.a, hr.srcB]

end Sys2Proof
end

section
/-! PROOFS. Every well-formed instruction is decoded from its own words (03 R56, R59, R60, R64, R65, Table 3.7). -/

namespace Sys2Proof

/-! ### Every instruction -/

/-- Every well-formed instruction is decoded from its own words: the regular ones by the shape of their operands, where the parser
of their opcode finds them by their function code. -/
theorem roundTrips_of_wf (i : Instr) (h : i.wf = true) : RoundTrips i := by
  cases i with
  -- scalar integer
  | add o | sub o | mul o | mulh o | mulhn o | div o | divn o | rem o | remn o | and o | or o | xor o | andn o | shl o | shr o
  | sha o | rot o | min o | max o | minn o | maxn o | slt o | sltn o | sext o | zext o =>
    exact R3.roundTrips rfl h h (by decide) fun r hop hfn hr => by simp [parse_op01 hop, parse01, hfn, hr]
  | clz o | ctz o | popc o =>
    exact R2.roundTrips rfl h h (by decide) fun r hop hfn hr => by simp [parse_op01 hop, parse01, hfn, hr]
  | addsh k o => exact roundTrips_addsh k o h
  | addi o | jr o => exact RI.roundTrips rfl h h (by decide) fun r hop hr => by simp [parse, hop, hr]
  | li o => exact roundTrips_li o h
  | bfx o => exact BFo.roundTrips rfl h h (by decide) fun r hop hr => by simp [parse, hop, hr]
  | bfi o => exact BFo.roundTrips rfl h (Bool.and_eq_true_iff.mp h).1 (by decide) fun r hop hr => by simp [parse, hop, hr]
  -- control
  | beq o => exact BRo.roundTrips (cond := 0) rfl h h (by decide) fun r hop hc hr => by simp [parse_op06 hop, parse06, hc, hr]
  | bne o => exact BRo.roundTrips (cond := 1) rfl h h (by decide) fun r hop hc hr => by simp [parse_op06 hop, parse06, hc, hr]
  | blt o => exact BRo.roundTrips (cond := 2) rfl h h (by decide) fun r hop hc hr => by simp [parse_op06 hop, parse06, hc, hr]
  | bge o => exact BRo.roundTrips (cond := 3) rfl h h (by decide) fun r hop hc hr => by simp [parse_op06 hop, parse06, hc, hr]
  | bltn o => exact BRo.roundTrips (cond := 4) rfl h h (by decide) fun r hop hc hr => by simp [parse_op06 hop, parse06, hc, hr]
  | bgen o => exact BRo.roundTrips (cond := 5) rfl h h (by decide) fun r hop hc hr => by simp [parse_op06 hop, parse06, hc, hr]
  | jal o => exact roundTrips_jal o h
  | j o => exact roundTrips_j o h
  | jtab o => exact R3.roundTrips rfl h h (by decide) fun r hop hfn hr => by simp [parse, hop, hfn, hr]
  | loopbrk f => exact roundTrips_form rfl h h (by decide) fun r hop hfn hf => by simp [parse, hop, hfn, hf]
  | loop o => exact LPo.roundTrips o h
  | brqNz o => exact BQo.roundTrips rfl h h (by decide) fun r hop hs hr => by simp [parse, hop, hs, hr]
  | brqZ o => exact BQo.roundTrips rfl h h (by decide) fun r hop hs hr => by simp [parse, hop, hs, hr]
  -- scalar memory
  | ldb o | ldh o | ldw o | ldd o | ldbn o | ldhn o | ldwn o =>
    exact LDo.roundTrips rfl h h (by decide) fun r hop hk hr => by simp [parse_op0C hop, parse0C, hk, hr]
  | pref o => exact roundTrips_pref o h
  | stb o | sth o | stw o | std o =>
    exact STo.roundTrips rfl h h (by decide) fun r hop hk hr => by simp [parse_op0D hop, parse0D, hk, hr]
  | qpeek o | qcnt o => exact QPo.roundTrips rfl h h (by decide) (by decide) fun r hop hfn hr => by simp [parse, hop, hfn, hr]
  -- synchronisation
  | amoadd o | amoand o | amoor o | amoxor o | amomin o | amomax o | amominn o | amomaxn o =>
    exact AMo.roundTrips rfl h h (by decide) fun r hop hsc hk hr => by simp [parse_op0F hop, parseAM, hop, hsc, hk, hr]
  | amoswp o =>
    exact AMo.roundTrips rfl h h (by decide) fun r hop hsc hk hr => by simp [parse_op10 hop, parseAM, hop, hsc, hk, hr]
  | amocas o => exact roundTrips_amocas o h
  | lda o => exact roundTrips_lda o h
  | stl o => exact roundTrips_stl o h
  | fence o => exact roundTrips_fence o h
  | vsync f sc => exact roundTrips_vsync f sc h
  | bari o | barw o | barx o =>
    exact BBo.roundTrips rfl h h (by decide) fun r hop hfn hr => by simp [parse_op11 hop, parse11, hfn, hr]
  | bara o | barr o => exact BAo.roundTrips rfl h h (by decide) fun r hop hfn hr => by simp [parse_op11 hop, parse11, hfn, hr]
  | waitm o => exact roundTrips_waitm o h
  -- system
  | trap o | gexit o =>
    exact RA.roundTrips rfl h (Bool.and_eq_true_iff.mp h) (by decide) fun r hop hfn hr => by
      simp [parse_op12 hop, parse12, hfn, hr]
  | eret f | yield f => exact roundTrips_form rfl h h (by decide) fun r hop hfn hf => by simp [parse_op12 hop, parse12, hfn, hf]
  | idle o | feat o => exact R2.roundTrips rfl h h (by decide) fun r hop hfn hr => by simp [parse_op12 hop, parse12, hfn, hr]
  | rdgtc o =>
    exact RD.roundTrips rfl h (Bool.and_eq_true_iff.mp h) (by decide) fun r hop hfn hr => by
      simp [parse_op12 hop, parse12, hfn, hr]
  | gets o => exact roundTrips_gets o h
  | sets o => exact roundTrips_sets o h
  | swaps o => exact roundTrips_swaps o h
  | mod m => exact roundTrips_mod m h
  | tlbinv o | cinv o | cwb o =>
    exact RAB.roundTrips rfl h h (by decide) fun r hop hfn hr => by simp [parse_op17 hop, parse17, hfn, hr]
  | keyz o | scrub o =>
    exact DA.roundTrips rfl h (DA.fits_of_wf h) (by decide) fun r hop hfn hr => by simp [parse_op17 hop, parse17, hfn, hr]
  | rlsetWriteEntry o => exact RLo.roundTrips rfl h h fun r hop hfn hr => by simp [parse_op17 hop, parse17, hfn, hr]
  | launch o | launchi o =>
    exact DA.roundTrips rfl h (DA.fits_of_wf h) (by decide) fun r hop hfn hr => by simp [parse, hop, hfn, hr]
  -- copies, engines, sheaves, monitors, mailboxes
  | cpya o | cpyw o | cpyx o | gath o | scred o | fwalk o | stmap o =>
    exact DA.roundTrips rfl h (DA.fits_of_wfG h (by decide)) (by decide) fun r hop hfn hr => by
      simp [parse_op19 hop, parse19, hfn, hr]
  | stunmap o | stflush o =>
    exact DA.roundTrips rfl h (DA.fits_of_wf h) (by decide) fun r hop hfn hr => by simp [parse_op19 hop, parse19, hfn, hr]
  | epush o => exact roundTrips_epush o h
  | epop o =>
    exact QPo.roundTrips rfl h (Bool.and_eq_true_iff.mp h).1 (by decide) (by decide) fun r hop hfn hr => by
      simp [parse_op19 hop, parse19, hfn, hr]
  | shinit sh a => exact roundTrips_shinit sh a h
  | shclr sh => exact roundTrips_shclr sh h
  | shcnt o =>
    exact QPo.roundTrips rfl h (Bool.and_eq_true_iff.mp h).1 (by decide) (by decide) fun r hop hfn hr => by
      simp [parse_op1A hop, parse1A, hfn, hr]
  | cmarm f m a => exact roundTrips_cmarm f m a h
  | cmref o => exact roundTrips_cmref o h
  | cmchk f m clr => exact roundTrips_cmchk f m clr h
  | cmrd o => exact roundTrips_cmrd o h
  | cmoff f m => exact roundTrips_cmoff f m h
  | stepa o | stepo o =>
    exact DA.roundTrips rfl h (DA.fits_of_wfG h (by decide)) (by decide) fun r hop hfn hr => by
      simp [parse_op1A hop, parse1A, hfn, hr]
  | epver o | epret o => exact R2.roundTrips rfl h h (by decide) fun r hop hfn hr => by simp [parse_op1A hop, parse1A, hfn, hr]
  | scommit o =>
    exact RA.roundTrips rfl h (Bool.and_eq_true_iff.mp h) (by decide) fun r hop hfn hr => by
      simp [parse_op1A hop, parse1A, hfn, hr]
  | sabort f => exact roundTrips_form rfl h h (by decide) fun r hop hfn hf => by simp [parse_op1A hop, parse1A, hfn, hf]
  -- vector control and memory
  | vsetl o | vsett o => exact RB.roundTrips rfl h h (by decide) fun r hop hfn hr => by simp [parse_op20 hop, parse20, hfn, hr]
  | vsetm o => exact R3.roundTrips rfl h h (by decide) fun r hop hfn hr => by simp [parse_op20 hop, parse20, hfn, hr]
  | vgetg o =>
    exact RD.roundTrips rfl h (Bool.and_eq_true_iff.mp h) (by decide) fun r hop hfn hr => by
      simp [parse_op20 hop, parse20, hfn, hr]
  | vld o | vldf o | vlds o | vldx o =>
    obtain ⟨ho, hsc⟩ := Bool.and_eq_true_iff.mp h
    obtain ⟨hw2, hload⟩ := VMo.loadScope_w2 hsc
    exact VMo.roundTrips rfl h ho (by decide) hw2 (by decide) fun r hop hfn hfm r2 hr => by
      simp [parse_op21 hop, parse21, hfn, hfm, r2, hload, hr]
  | vldh o =>
    obtain ⟨ho, -⟩ := Bool.and_eq_true_iff.mp h
    obtain ⟨ho, hsc⟩ := Bool.and_eq_true_iff.mp ho
    obtain ⟨hw2, hload⟩ := VMo.loadScope_w2 hsc
    exact VMo.roundTrips rfl h ho (by decide) hw2 (by decide) fun r hop hfn hfm r2 hr => by
      simp [parse_op21 hop, parse21, hfn, hfm, r2, hload, hr]
  | vst o | vsts o | vstx o | vstxo o =>
    obtain ⟨ho, hno⟩ := Bool.and_eq_true_iff.mp h
    obtain ⟨hsc, hw2⟩ := VMo.w2_of_noSc hno
    exact VMo.roundTrips rfl h ho (by decide) hw2 (by decide) fun r hop hfn hfm _ hr => by
      rw [hsc] at hr
      simp [parse_op22 hop, parse22, hfn, hfm, hr]
  | vstq o | vsth o =>
    obtain ⟨ho, -⟩ := Bool.and_eq_true_iff.mp h
    obtain ⟨ho, hno⟩ := Bool.and_eq_true_iff.mp ho
    obtain ⟨hsc, hw2⟩ := VMo.w2_of_noSc hno
    exact VMo.roundTrips rfl h ho (by decide) hw2 (by decide) fun r hop hfn hfm _ hr => by
      rw [hsc] at hr
      simp [parse_op22 hop, parse22, hfn, hfm, hr]
  -- vector arithmetic: forms 00, 01 and 10 of the c operand
  | vadd o | vsub o | vmul o | vmulh o =>
    refine VVo.roundTrips rfl h h VSrc.encodable_of_ok3 (by decide) fun r hop hfn hfm hr => ?_
    rw [parse_op23 hop, parse23, hfn, hfm, hr]
    cases o.c <;> rfl
  | vmac o | vmin o | vmax o | vminn o =>
    refine VVo.roundTrips rfl h h VSrc.encodable_of_ok3 (by decide) fun r hop hfn hfm hr => ?_
    rw [parse_op24 hop, parse24, hfn, hfm, hr]
    cases o.c <;> rfl
  | vmaxn o | vand o | vor o | vxor o =>
    refine VVo.roundTrips rfl h h VSrc.encodable_of_ok3 (by decide) fun r hop hfn hfm hr => ?_
    rw [parse_op25 hop, parse25, hfn, hfm, hr]
    cases o.c <;> rfl
  | vshl o | vshr o | vsha o =>
    refine VVo.roundTrips rfl h h VSrc.encodable_of_ok3 (by decide) fun r hop hfn hfm hr => ?_
    rw [parse_op26 hop, parse26, hfn, hfm, hr]
    cases o.c <;> rfl
  | vsadd o | vssub o =>
    refine VVo.roundTrips rfl h h VSrc.encodable_of_ok3 (by decide) fun r hop hfn hfm hr => ?_
    rw [parse_op27 hop, parse27, hfn, hfm, hr]
    cases o.c <;> rfl
  | vfadd o | vfsub o | vfmul o | vfma o =>
    refine VVo.roundTrips rfl h h VSrc.encodable_of_ok3 (by decide) fun r hop hfn hfm hr => ?_
    rw [parse_op28 hop, parse28, hfn, hfm, hr]
    cases o.c <;> rfl
  | vfnma o | vfdiv o | vfmin o | vfmax o =>
    refine VVo.roundTrips rfl h h VSrc.encodable_of_ok3 (by decide) fun r hop hfn hfm hr => ?_
    rw [parse_op29 hop, parse29, hfn, hfm, hr]
    cases o.c <;> rfl
  -- forms 01 and 10
  | vslideup o | vslidedn o =>
    obtain ⟨hc, hcases⟩ := VVo.okSN_of_wf h
    refine VVo.roundTrips rfl h h (fun _ => hc) (by decide) fun r hop hfn hfm hr => ?_
    rcases hcases with hc | hc <;> rw [hc] at hfm <;> simp [parse_op30 hop, parse30, hfn, hfm, hr]
  | stxs o | stxw o =>
    obtain ⟨hc, hcases⟩ := VVo.okSN_of_wf h
    refine VVo.roundTrips rfl h h (fun _ => hc) (by decide) fun r hop hfn hfm hr => ?_
    rcases hcases with hc | hc <;> rw [hc] at hfm <;> simp [parse_op32 hop, parse32, hfn, hfm, hr]
  -- form 00
  | vperm o =>
    obtain ⟨hc, hfm0⟩ := VVo.okV_of_wf h
    refine VVo.roundTrips rfl h h (fun _ => hc) (by decide) fun r hop hfn hfm hr => ?_
    simp [parse_op30 hop, parse30, hfn, hfm, hfm0, hr]
  | vredadd o | vredaddo o | vredmax o | vredmin o =>
    obtain ⟨hc, hfm0⟩ := VVo.okV_of_wf h
    refine VVo.roundTrips rfl h h (fun _ => hc) (by decide) fun r hop hfn hfm hr => ?_
    simp [parse_op33 hop, parse33, hfn, hfm, hfm0, hr]
  | vfredadd o | vfredaddo o | vfredmax o | vfredmin o =>
    obtain ⟨hc, hfm0⟩ := VVo.okV_of_wf h
    refine VVo.roundTrips rfl h h (fun _ => hc) (by decide) fun r hop hfn hfm hr => ?_
    simp [parse_op34 hop, parse34, hfn, hfm, hfm0, hr]
  -- form 11
  | vabs o =>
    exact VUo.roundTrips rfl h (VUo.fits_of_wf h) (by decide) fun r hop hfn hfm hr => by
      simp [parse_op26 hop, parse26, hfn, hfm, hr]
  | vfsqrt o | vfrece o | vfabs o | vfneg o =>
    exact VUo.roundTrips rfl h (VUo.fits_of_wf h) (by decide) fun r hop hfn hfm hr => by
      simp [parse_op2A hop, parse2A, hfn, hfm, hr]
  | vfclass o | vfexp2 o =>
    exact VUo.roundTrips rfl h (VUo.fits_of_wf h) (by decide) fun r hop hfn hfm hr => by
      simp [parse_op2B hop, parse2B, hfn, hfm, hr]
  | vcompr o =>
    exact VUo.roundTrips rfl h (VUo.fits_of_wf (Bool.and_eq_true_iff.mp h).1) (by decide) fun r hop hfn hfm hr => by
      simp [parse_op30 hop, parse30, hfn, hfm, hr]
  | vexpand o =>
    exact VUo.roundTrips rfl h (VUo.fits_of_wf (Bool.and_eq_true_iff.mp h).1) (by decide) fun r hop hfn hfm hr => by
      simp [parse_op31 hop, parse31, hfn, hfm, hr]
  | vfrcpp o => exact roundTrips_vfrcpp o h
  | vcmp o => exact roundTrips_vcmp o h
  | vfcmp o => exact roundTrips_vfcmp o h
  | mand o | mor o | mxor o =>
    exact M3.roundTrips rfl h h (by decide) fun r hop hfn hfm hr => by simp [parse_op2D hop, parse2D, hfn, hfm, hr]
  | mnot f d a => exact roundTrips_mnot f d a h
  | mpopc o | mfirst o =>
    exact MDo.roundTrips rfl h h (by decide) fun r hop hfn hfm hr => by simp [parse_op2E hop, parse2E, hfn, hfm, hr]
  | vmset o => exact roundTrips_vmset o h
  | viota o => exact roundTrips_viota o h
  | vcvt o | vnarrow o | vnarrowChain o | vftoi o | vitof o =>
    exact VTo.roundTrips rfl h h (by decide) fun r hop hfn hfm hty hch hr => by
      simp [parse_op2F hop, parse2F, hfn, hfm, hty, hch, hr]
  | vidxc o => exact roundTrips_vidxc o h
  | vbcast o => exact roundTrips_vbcast o h
  | vextr o => exact roundTrips_vextr o h
  | vins o => exact roundTrips_vins o h
  | afdef o => exact roundTrips_afdef o h
  | afpop o => exact roundTrips_afpop o h
  | afcnt o => exact roundTrips_afcnt o h
  | epopv o => exact roundTrips_epopv o h
  | shpush o | shins o =>
    exact VNo.roundTrips rfl h h (by decide) (by decide) fun r hop hfn hfm hr => by simp [parse_op36 hop, parse36, hfn, hfm, hr]
  | shpopb f v sh => exact roundTrips_shpopb f v sh h
  -- the tuple matrix unit
  | tmatt o => exact roundTrips_tmatt o h
  | tmdet f => exact roundTrips_tmdet f h
  | tmalg o | tmalgs o =>
    exact RA.roundTripsTM rfl h (Bool.and_eq_true_iff.mp h) (by decide) fun r hop hfn hr => by
      simp [parse_op37 hop, parse37, hfn, hr]
  | tmzero f t => exact roundTrips_tmzero f t h
  | tmop o => exact roundTrips_tmop o h
  | tmrun o => exact roundTrips_tmrun o h
  | tmrd o => exact roundTrips_tmrd o h
  | tmwr o => exact roundTrips_tmwr o h
  | tmwait o | tmstat o =>
    exact TSo.roundTrips rfl h h (by decide) fun r hop hfn hr => by simp [parse_op37 hop, parse37, hfn, hr]
  -- RLSET's other rows and the events have no words
  | _ => cases h

/-- Settles O56: the words of every shape of operands are taken apart into the fields that they were put together from, and the
parser of each opcode finds its instruction in them. -/
theorem decodeEncodeRoundTrip : Obligations.DecodeEncodeRoundTrip := by
  intro i rest hw
  obtain ⟨hlt, hlen, hdec⟩ := roundTrips_of_wf i hw
  exact ⟨hlt, hlen, hdec rest⟩

end Sys2Proof
end

section
/-! PROOFS. Words written out in the spec decode to the statements beside them: O60. -/
namespace Sys2Proof
open Machine

/-- Decoding undoes encoding: words that a well-formed instruction encodes to decode to it. -/
theorem decode_of_encode {i : Instr} {ws : List Nat} (hw : i.wf = true) (he : encode i = ws) :
    decode ws = some i := by
  have hrt := (roundTrips_of_wf i hw).2.2 []
  rwa [List.append_nil, he] at hrt

/-- Settles O60: each statement is well-formed and encodes to the words beside it. -/
theorem specWordsDecode : Obligations.SpecWordsDecode := by
  unfold Obligations.SpecWordsDecode
  refine ⟨?_, ?_, ?_, ?_, ?_, ?_, ?_, ?_, ?_, ?_, ?_, ?_, ?_, ?_, ?_, ?_, ?_, ?_, ?_⟩ <;>
    exact decode_of_encode (by decide) (by decide)

end Sys2Proof
end

section
/-! PROOFS. MOD puts its prefix in force or refuses the word after it: O27 (03 R72 to R74). -/

namespace Sys2Proof.Machine

theorem exec_mod (m : Pfx) (s : State) : exec (.mod m) s = execMod m s := rfl

/-! ### The checks of a MOD on the word after it -/

theorem modTrap_of_error (s : State) (a : Word) : modTrap s (.error a) = some (fetchTrap s s.h a) := rfl

theorem modTrap_of_illegal (s : State) {ws : List Nat} (h : decode ws = none) :
    modTrap s (.ok ws) = some { code := 1 } := by simp [modTrap, h]

theorem modTrap_of_unprefixable (s : State) {ws : List Nat} (hd : (decode ws).isSome = true)
    (hp : prefixableWord (ws.headD 0) = false) : modTrap s (.ok ws) = some { code := 6 } := by
  simp only [modTrap, Option.isNone_eq_false_iff.mpr hd, hp, Bool.not_false, Bool.false_eq_true, if_true, if_false]

theorem modTrap_of_prefixable (s : State) {ws : List Nat} (hd : (decode ws).isSome = true)
    (hp : prefixableWord (ws.headD 0) = true) : modTrap s (.ok ws) = none := by
  simp only [modTrap, Option.isNone_eq_false_iff.mpr hd, hp, Bool.not_true, Bool.false_eq_true, if_false]

/-! ### The MOD itself -/

/-- What the MOD of the strand that moves finds at the next word, and the run of its fetch. -/
def State.afterMod (s : State) : Except Word (List Nat) × Run := fetchInstr (Run.start s) s.h (s.me.pc + 4)

/-- A MOD whose checks find a trap raises it at its own address and keeps the fills of the fetch. -/
theorem mod_traps {s : State} {t : TrapInfo} (m : Pfx) (h : modTrap s s.afterMod.1 = some t) :
    TrapsAfter (.mod m) s 4 s.afterMod.2.kept t := by
  unfold State.afterMod at h
  rw [TrapsAfter, exec_mod, execMod, h]
  rfl

/-- A MOD that passes its checks puts its prefix in force at the next word. -/
theorem mod_enters {s : State} (m : Pfx) (h : modTrap s s.afterMod.1 = none) :
    exec (.mod m) s =
      .next (applyAll (s.afterMod.2.kept ++ [.strand s.cur fun st => { st with pfx := some m, pc := st.pc + 4 }]) s) := by
  unfold State.afterMod at h
  rw [exec_mod, execMod, h]
  rfl

/-- Settles O27: the outcome of the fetch and the two checks of its words select the MOD's trap or its prefix. -/
theorem modPrefix : Obligations.ModPrefix := by
  intro s m f
  have hf : s.afterMod.1 = f.1 := rfl
  refine ⟨fun ws hok hd => ⟨fun hp => ?enters, fun hp => ?unprefixable⟩, fun ws hok hd => ?illegal, fun a herr => ?fails⟩
  case enters => exact mod_enters m (by rw [hf, hok, modTrap_of_prefixable s hd hp])
  case unprefixable => exact mod_traps m (by rw [hf, hok, modTrap_of_unprefixable s hd hp])
  case illegal => exact mod_traps m (by rw [hf, hok, modTrap_of_illegal s hd])
  case fails => exact mod_traps m (by rw [hf, herr, modTrap_of_error])

end Sys2Proof.Machine
end

section
/-! PROOFS. The events of a strand: an illegal encoding, a failed fetch, a mispredict and a queue deadlock: O28 (02 R31, R32; 03 R57,
R70). -/

namespace Sys2Proof.Machine

theorem exec_illegalInstruction (s : State) : exec .illegalInstruction s = execIllegalInstruction s := rfl
theorem exec_fetchFault (va : Word) (s : State) : exec (.fetchFault va) s = execFetchFault va s := rfl
theorem exec_branchMispredict (n : Nat) (s : State) : exec (.branchMispredict n) s = execBranchMispredict n s := rfl
theorem exec_queueDeadlock (h : Nat) (s : State) : exec (.queueDeadlock h) s = execQueueDeadlock h s := rfl

/-! ### A state without an uncorrectable error

No translation of such a state fails with code 54, since only the walk reports it, and only for an entry that holds an error. -/

theorem badIn_of_bad_nil {s : State} (hb : s.bad = []) (l : Loc) (n : Nat) : badIn s l n = none := by simp [badIn, hb]

section
variable {s : State} {r : Run} {e : Nat × Nat} {x : XlErr}

/-- The walk reports an uncorrectable error only where one lies. -/
theorem walk_error_ne_54 (hb : s.bad = []) {p va lvl base : Nat} (h : walk s p va lvl base = .error e) : e.1 ≠ 54 := by
  induction lvl generalizing base with
  | zero =>
    rw [walk] at h
    simp only [badIn_of_bad_nil hb] at h
    split_ifs at h <;> cases h <;> simp
  | succ l ih =>
    rw [walk] at h
    simp only [badIn_of_bad_nil hb] at h
    split_ifs at h with hunmapped hinvalid hbad hnext hgroup
    -- the fourth case goes on with the next table
    rotate_left 3
    · exact ih h
    all_goals (cases h; simp)

theorem fillTlb_error_ne_54 (hb : r.s.bad = []) {sp : Space} {va : Nat} (h : fillTlb r sp va = .error x) : x.1.1 ≠ 54 := by
  unfold fillTlb at h
  split at h
  next => cases h; simp
  next =>
    split at h
    next w hw => cases h; exact walk_error_ne_54 hb hw
    next =>
      simp only at h
      split_ifs at h <;> cases h <;> simp

theorem leafOf_error_ne_54 (hb : r.s.bad = []) {sp : Space} {va : Nat} (h : leafOf r sp va = .error x) : x.1.1 ≠ 54 := by
  unfold leafOf at h
  split at h
  next => cases h; simp
  next =>
    split at h
    next => cases h
    next => exact fillTlb_error_ne_54 hb h

theorem translateMem_error_ne_54 (hb : r.s.bad = []) {sp : Space} {va kind : Nat} {check : Bool}
    (h : translateMem r sp va kind check = .error x) : x.1.1 ≠ 54 := by
  unfold translateMem at h
  split at h
  next => split at h <;> cases h; simp
  next =>
    split at h
    next y hl => cases h; exact leafOf_error_ne_54 hb hl
    next => split at h <;> cases h; simp

theorem translateStash_error_ne_54 (hb : r.s.bad = []) {sp : Space} {t : StashSlot} {off : Nat}
    (h : translateStash r sp t off = .error x) : x.1.1 ≠ 54 := by
  unfold translateStash at h
  split at h
  next => cases h
  next =>
    dsimp only at h
    split at h
    next y hm => cases h; exact translateMem_error_ne_54 hb hm
    next => cases h

theorem translateAny_error_ne_54 (hb : r.s.bad = []) {sp : Space} {va kind : Nat}
    (h : translateAny r sp va kind = .error x) : x.1.1 ≠ 54 := by
  unfold translateAny at h
  split at h
  next => cases h; simp
  next =>
    split at h
    next =>
      simp only at h
      split at h
      next => cases h; simp
      next =>
        split at h
        next =>
          split at h
          next => exact translateStash_error_ne_54 hb h
          next => cases h
        next => cases h
    next => exact translateMem_error_ne_54 hb h

theorem translate_error_ne_54 (hb : r.s.bad = []) {sp : Space} {va kind : Nat}
    (h : translate r sp va kind = .error x) : x.1.1 ≠ 54 := by
  unfold translate at h
  split at h
  next y ht => cases h; exact translateAny_error_ne_54 hb ht
  next => split at h <;> cases h; simp

end

/-- The trap of a failed fetch is the fetch fault where the state holds no uncorrectable error. -/
theorem fetchTrap_of_bad_nil {s : State} (hb : s.bad = []) (h : Nat) (va : Word) :
    fetchTrap s h va = { code := 2, val := va } := by
  unfold fetchTrap
  split
  next e he => rw [if_neg (translate_error_ne_54 hb he)]
  next x r hx => rw [badIn_of_bad_nil hb]

/-! ### A queue deadlock -/

/-- A hart whose access strand has waited its cycles at a word that is no MOD takes the deadlock's trap there. -/
theorem execQueueDeadlock_access {s : State} {h since w : Nat} (hon : s.dev.off = false)
    (hdead : (s.hart h).dead = some since) (hlong : since + 2 ^ 20 ≤ s.cycles (h / 4)) (hwait : (s.hart h).waitA = true)
    (hword : fetchWord s h (s.strand (2 * h)).pc.toNat = some w) (hmod : ∀ m, decode [w] ≠ some (.mod m)) :
    execQueueDeadlock h s = .next (applyAll
      (trapUpds s (2 * h) { code := 9, val := (s.strand (2 * h + 1)).pc, elem := queueCounts (s.hart h) }
          (s.strand (2 * h)).pc (s.strand (2 * h)).pc false (trapWord s h (s.strand (2 * h)).pc)
        ++ [.hart h fun t => { t with waitA := false, waitX := false, dead := none }]) s) := by
  have henabled : ¬(s.cycles (h / 4) < since + 2 ^ 20 ∨ (!(s.hart h).waitA && !(s.hart h).waitX) = true) := by
    simpa [hwait] using hlong
  unfold execQueueDeadlock
  -- by `hmod` the test for a MOD at the waiting word takes its second branch
  simp only [hdead, if_neg henabled, if_pos hwait, hword]
  exact event_some hon

/-- Settles O28: each event's function is its trap, nothing, or the deadlock's updates, and a state without an uncorrectable
error has no other trap for a fetch than the fetch fault. -/
theorem strandEvents : Obligations.StrandEvents := by
  refine ⟨fun s => ?illegal, fun s va => ⟨?fetch, fun hb => fetchTrap_of_bad_nil hb s.h va⟩, fun s n hon hn => ?mispredict,
    fun s h since w hon hdead hlong hwait hword hmod => ?deadlock⟩
  case illegal => exact exec_illegalInstruction s
  case fetch => exact exec_fetchFault va s
  case mispredict => rw [exec_branchMispredict, execBranchMispredict, if_pos hn, event_some hon, applyAll_nil]
  case deadlock => exact (exec_queueDeadlock h s).trans (execQueueDeadlock_access hon hdead hlong hwait hword hmod)

end Sys2Proof.Machine
end

section
/-! PROOFS. One step: what a strand fetches and runs, with the pair of a MOD, and what each turn of the schedule does: O59 (03 R56, R57,
R70, R74; 19 R348). -/

namespace Sys2Proof.Machine

/-! ### The fetch at the pc -/

/-- What the strand that moves fetches at its pc, and the run of its fetch. -/
def State.fetchAtPc (s : State) : Except Word (List Nat) × Run := fetchInstr (Run.start s) s.h s.me.pc

/-- The state that keeps the translations that the fetch at the pc filled. -/
def State.fetched (s : State) : State := { s with dev := s.fetchAtPc.2.s.dev }

theorem fetchNext_fail {s : State} {va : Word} (h : s.fetchAtPc.1 = .error va) : fetchNext s = (.fail va, s.fetched) := by
  unfold State.fetchAtPc at h
  simp only [fetchNext, h]
  rfl

theorem fetchNext_illegal {s : State} {ws : List Nat} (h : s.fetchAtPc.1 = .ok ws) (hd : decode ws = none) :
    fetchNext s = (.illegal, s.fetched) := by
  unfold State.fetchAtPc at h
  simp only [fetchNext, h, hd]
  rfl

theorem fetchNext_instr {s : State} {ws : List Nat} {i : Instr} (h : s.fetchAtPc.1 = .ok ws) (hd : decode ws = some i) :
    fetchNext s = (.instr (resolve s.fetched i), s.fetched) := by
  unfold State.fetchAtPc at h
  simp only [fetchNext, h, hd]
  rfl

/-- Only RLSET has rows to tell apart. -/
theorem resolve_of_ne_rlset (s : State) {i : Instr} (h : ∀ o, i ≠ .rlsetWriteEntry o) : resolve s i = i := by
  unfold resolve
  split
  next o => exact absurd rfl (h o)
  next => rfl

/-! ### The instruction at the pc and its pair -/

section
variable {s t v : State} {f : Fetched}

/-- Without a prefix that comes into force the step ends after the instruction. -/
theorem execNext_of_no_pair (hf : fetchNext s = (f, v)) (hx : execFetched f v = .next t)
    (hp : s.me.pfx.isSome = true ∨ (t.strand s.cur).pfx = none) : execNext s = .next t := by
  have hpair : (s.me.pfx.isNone && (t.strand s.cur).pfx.isSome) = false := by
    rcases hp with hp | hp <;> simp [hp, ← Option.not_isSome]
  simp [execNext, hf, hx, hpair]

/-- A MOD's prefix that comes into force has the next instruction run in the same step (R74). -/
theorem execNext_of_pair (hf : fetchNext s = (f, v)) (hx : execFetched f v = .next t) (hnone : s.me.pfx = none)
    (hsome : (t.strand s.cur).pfx.isSome = true) : execNext s = execFetched (fetchNext t).1 (fetchNext t).2 := by
  simp [execNext, hf, hx, hnone, hsome]

theorem execNext_of_fault {e : Fault} (hf : fetchNext s = (f, v)) (hx : execFetched f v = .fault e) :
    execNext s = .fault e := by
  simp [execNext, hf, hx]

end

/-! ### The turns -/

section
variable {s : State}

theorem stepStrand_of_runnable {n : Nat} (h : runnable s n = true) : stepStrand s n = execNext { s with cur := n } := if_pos h

theorem stepStrand_of_not_runnable {n : Nat} (h : runnable s n = false) : stepStrand s n = .next { s with cur := n } :=
  if_neg (by simp [h])

theorem step_of_no_turn (h : s.sched = []) : step s = stepStrand { s with choice := {} } s.cur := by rw [step, h]

theorem step_of_turn {t : SchedSlot} {rest : List SchedSlot} (h : s.sched = t :: rest) :
    step s = stepTurn { s with sched := rest, ns := s.ns + t.ns, choice := t.choice } t.turn := by rw [step, h]

/-- The first strand of a slot keeps the slot unless it only waits (R348). -/
theorem stepSlot_cons {v : State} {n : Nat} {ns : List Nat} (h : stepStrand s n = .next v) :
    stepSlot (n :: ns) s =
      if onlyWaits s v n then stepSlot ns v else .next (applyAll [.hart (n / 2) fun h => { h with last := n % 2 }] v) := by
  have hslot : stepSlot (n :: ns) s = (match stepStrand s n with
      | .next t => if onlyWaits s t n then stepSlot ns t else .next (applyAll [.hart (n / 2) fun h => { h with last := n % 2 }] t)
      | o => o) := rfl
  rw [hslot, h]

end

/-! ### The obligation -/

/-- The strand at hand moves where no turn is left: what its fetch gives is run. -/
theorem step_runs_fetched {s : State} (hsched : s.sched = []) (hrun : runnable { s with choice := {} } s.cur = true) :
    step s = execNext { s with choice := {} } := by
  rw [step_of_no_turn hsched, stepStrand_of_runnable hrun]

/-- Settles O59: with no turn left the outcome of the fetch selects what is run and the prefix selects whether a pair follows;
otherwise each turn is its own case of `stepTurn`. -/
theorem stepRunsDecoded : Obligations.StepRunsDecoded := by
  refine ⟨fun s hsched hrun => ?runs, fun s hsched hrun => ?passes, fun s t rest hsched => ?turns⟩
  case runs =>
    intro v f u
    have hexec : step s = execNext v := step_runs_fetched hsched hrun
    refine ⟨fun va hf t hx hp => ?fail, fun ws hf => ⟨fun hd t hx hp => ?illegal, fun i hd => ?instr⟩⟩
    case fail => exact hexec.trans (execNext_of_no_pair (fetchNext_fail hf) hx (.inr hp))
    case illegal => exact hexec.trans (execNext_of_no_pair (fetchNext_illegal hf hd) hx (.inr hp))
    case instr =>
      have hnext := fetchNext_instr (s := v) hf hd
      exact ⟨fun t hx hp => hexec.trans (execNext_of_no_pair hnext hx hp),
        fun t hx hnone hsome => hexec.trans (execNext_of_pair hnext hx hnone hsome),
        fun e hx => hexec.trans (execNext_of_fault hnext hx),
        fun hl => settle_of_loadsDone _ hl, fun hi => resolve_of_ne_rlset _ hi⟩
  case passes => exact (step_of_no_turn hsched).trans (stepStrand_of_not_runnable hrun)
  case turns =>
    intro u
    have hstep {q : Turn} (ht : t.turn = q) : step s = stepTurn u q := ht ▸ step_of_turn hsched
    refine ⟨fun n ht hr => ?strand, fun n ht hr => ?waits, fun i ht he => ?event, fun c ht hn => ?idle,
      fun c n ns v ht hn hv => ?slot, fun h k ht hc => ?land, fun h k ht => ?landScalar, fun p ent obj len text ht => ?load⟩
    case strand => exact (hstep ht).trans (stepStrand_of_runnable hr)
    case waits => exact (hstep ht).trans (stepStrand_of_not_runnable hr)
    case event => exact (hstep ht).trans (if_pos he)
    case idle => exact (hstep ht).trans (congrArg (stepSlot · u) hn)
    case slot => exact (hstep ht).trans ((congrArg (stepSlot · u) hn).trans (stepSlot_cons hv))
    case land => exact (hstep ht).trans (if_pos hc)
    case landScalar => exact hstep ht
    case load => exact hstep ht

end Sys2Proof.Machine
end

section
/-! PROOFS. How an instruction that can issue ends: its own part decides which of the ends of Safety.lean it has. -/

namespace Sys2Proof.Machine

section
variable {s : State} {i : Instr} {len priv : Nat} {cls : SClass} {srcs : List Src} {dsts : List Dst} {plain : List Nat}
  {k : (Nat → Word) → Act} {us : List Upd} {t : TrapInfo} {target : Word}

theorem completes_of_issue (hx : exec i s = finish s len (issue s cls priv srcs dsts plain k))
    (h : canIssue s cls priv srcs dsts plain) (hk : k (srcOf s srcs) = .done us) : Completes i s len (popAll s.h srcs ++ us) :=
  fun he => hx.trans (finish_issue_done h hk he)

/-- An instruction with no effect but its pops. -/
theorem completes_pops_of_issue (hx : exec i s = finish s len (issue s cls priv srcs dsts plain k))
    (h : canIssue s cls priv srcs dsts plain) (hk : k (srcOf s srcs) = .done []) : Completes i s len (popAll s.h srcs) :=
  List.append_nil (popAll s.h srcs) ▸ completes_of_issue hx h hk

theorem goes_of_issue (hx : exec i s = finish s len (issue s cls priv srcs dsts plain k))
    (h : canIssue s cls priv srcs dsts plain) (hk : k (srcOf s srcs) = .jump us target) :
    Goes i s len (popAll s.h srcs ++ us) target :=
  fun ha => hx.trans (finish_issue_jump h hk ha)

/-- An instruction without sources has no pops. -/
theorem completes_of_issue_nil (hx : exec i s = finish s len (issue s cls priv [] dsts plain k))
    (h : canIssue s cls priv [] dsts plain) (hk : k (srcOf s []) = .done us) : Completes i s len us := completes_of_issue hx h hk

theorem goes_of_issue_nil (hx : exec i s = finish s len (issue s cls priv [] dsts plain k))
    (h : canIssue s cls priv [] dsts plain) (hk : k (srcOf s []) = .jump us target) : Goes i s len us target :=
  goes_of_issue hx h hk

/-- A transfer with no effect but its pops. -/
theorem goes_pops_of_issue (hx : exec i s = finish s len (issue s cls priv srcs dsts plain k))
    (h : canIssue s cls priv srcs dsts plain) (hk : k (srcOf s srcs) = .jump [] target) : Goes i s len (popAll s.h srcs) target :=
  List.append_nil (popAll s.h srcs) ▸ goes_of_issue hx h hk

/-- A transfer to a misaligned target raises the target-alignment trap (R91). -/
theorem traps_of_issue_jump (hx : exec i s = finish s len (issue s cls priv srcs dsts plain k))
    (h : canIssue s cls priv srcs dsts plain) (hk : k (srcOf s srcs) = .jump us target) (ha : target.toNat % 4 ≠ 0) :
    Traps i s len { code := 3, val := target } := by
  rw [Traps, hx, issue_of_canIssue h, show k (srcVal s.me s.myHart srcs) = _ from hk]
  exact finish_jump_bad ha

theorem traps_of_issue (hx : exec i s = finish s len (issue s cls priv srcs dsts plain k))
    (h : canIssue s cls priv srcs dsts plain) (hk : k (srcOf s srcs) = .trap t) : Traps i s len t :=
  hx.trans (finish_issue_trap h hk)

theorem trapsAfter_of_issue (hx : exec i s = finish s len (issue s cls priv srcs dsts plain k))
    (h : canIssue s cls priv srcs dsts plain) (hk : k (srcOf s srcs) = .part us t) : TrapsAfter i s len us t :=
  hx.trans (finish_issue_part h hk)

/-- A trap after no update is a trap with no effect. -/
theorem traps_of_trapsAfter (h : TrapsAfter i s len [] t) : Traps i s len t := h

end

/-! ### An own part that is a computation over a run -/

theorem ofM_ok {α : Type} {s : State} {m : M α} {a : α} {r : Run} (h : m (Run.start s) = .ok (a, r)) (k : α → Run → Act) :
    Act.ofM s m k = k a r := by
  rw [Act.ofM, h]

theorem ofM_error {α : Type} {s : State} {m : M α} {t : TrapInfo} {r : Run} (h : m (Run.start s) = .error (t, r))
    (k : α → Run → Act) : Act.ofM s m k = .part r.kept t := by
  rw [Act.ofM, h]

end Sys2Proof.Machine
end

section
/-! PROOFS. Integer arithmetic of the scalar instructions: the exact results of the model as operations on doubles (04 R79 to R83,
Table 4.1). -/

namespace Sys2Proof.Machine

/-! ### Wrapped results -/

theorem wrap_add (x y : Int) : wrap (x + y) = wrap x + wrap y := BitVec.ofInt_add x y
theorem wrap_sub (x y : Int) : wrap (x - y) = wrap x - wrap y := by
  rw [Int.sub_eq_add_neg, wrap_add, wrap, wrap, BitVec.ofInt_neg, BitVec.sub_eq_add_neg]
theorem wrap_mul (x y : Int) : wrap (x * y) = wrap x * wrap y := BitVec.ofInt_mul x y
@[simp] theorem wrap_toInt (a : Word) : wrap a.toInt = a := BitVec.ofInt_toInt
@[simp] theorem wrap_toNat (a : Word) : wrap (a.toNat : Int) = a := by simp
theorem wrap_natCast (n : Nat) : wrap (n : Int) = BitVec.ofNat 64 n := BitVec.ofInt_natCast 64 n

theorem wrap_two_pow (k : Nat) : wrap (2 ^ k) = BitVec.twoPow 64 k := by
  apply BitVec.eq_of_toNat_eq
  rw [show (2 ^ k : Int) = (2 ^ k : Nat) by simp, wrap_natCast, BitVec.toNat_ofNat, BitVec.toNat_twoPow]

theorem wrap_toInt_shift (a : Word) (k : Nat) : wrap (a.toInt * 2 ^ k) = a <<< k := by
  rw [wrap_mul, wrap_toInt, wrap_two_pow, BitVec.shiftLeft_eq_mul_twoPow]

/-- The upper half of a product of 128 bits. -/
theorem wrap_toInt_high (p : BitVec 128) : wrap (p.toInt / 2 ^ 64) = p.extractLsb' 64 64 := by
  apply BitVec.eq_of_toNat_eq
  rw [BitVec.extractLsb'_toNat, Nat.shiftRight_eq_div_pow]
  have hp := BitVec.toInt_eq_toNat_cond p
  have hlt := p.isLt
  simp only [BitVec.toNat_ofInt]
  split at hp <;> omega

theorem mulh_eq (a b : Word) :
    wrap (a.toInt * b.toInt / 2 ^ 64) = (a.signExtend 128 * b.signExtend 128).extractLsb' 64 64 := by
  have hprod : (a.signExtend 128 * b.signExtend 128).toInt = a.toInt * b.toInt := by
    have hle := BitVec.toInt_mul_toInt_le (x := a) (y := b)
    have hge := BitVec.le_toInt_mul_toInt (x := a) (y := b)
    rw [BitVec.toInt_mul, BitVec.toInt_signExtend_of_le (by decide), BitVec.toInt_signExtend_of_le (by decide)]
    exact Int.bmod_eq_of_le (by omega) (by omega)
  rw [← wrap_toInt_high, hprod]

theorem mulhn_eq (a b : Word) :
    BitVec.ofNat 64 (a.toNat * b.toNat / 2 ^ 64) = (a.setWidth 128 * b.setWidth 128).extractLsb' 64 64 := by
  have hab : a.toNat * b.toNat < 2 ^ 128 :=
    calc a.toNat * b.toNat < 2 ^ 64 * 2 ^ 64 := Nat.mul_lt_mul'' a.isLt b.isLt
      _ = 2 ^ 128 := by decide
  apply BitVec.eq_of_toNat_eq
  rw [BitVec.extractLsb'_toNat, Nat.shiftRight_eq_div_pow, BitVec.toNat_mul, BitVec.toNat_setWidth_of_le (by decide),
    BitVec.toNat_setWidth_of_le (by decide), Nat.mod_eq_of_lt hab, BitVec.toNat_ofNat]

/-! ### Division and right shifts (R81) -/

/-- Rounding toward zero (rtz) is truncating division. -/
theorem roundInt_rtz (r : Nat) (n : Int) {d : Nat} (hd : d ≠ 0) : roundInt 2 r n d = n.tdiv d := by
  have hpos : (0 : Int) < d := by omega
  have htdiv : n.tdiv d = if 0 ≤ n ∨ n % d = 0 then n / d else n / d + 1 := by
    simp only [Int.tdiv_eq_ediv, Int.sign_eq_one_of_pos hpos, Int.dvd_iff_emod_eq_zero]
    split_ifs
    · exact Int.add_zero _
    · rfl
  have hround : roundInt 2 r n d = if n % d = 0 then n / d else if 0 ≤ n then n / d else n / d + 1 := rfl
  rw [hround, htdiv]
  by_cases hrem : n % d = 0
  · rw [if_pos hrem, if_pos (.inr hrem)]
  · simp only [hrem, if_false, or_false]

/-- Rounding down (rdn) is flooring division. -/
theorem roundInt_rdn (r : Nat) (n : Int) (d : Nat) : roundInt 4 r n d = n / d := by
  simp [roundInt, chooseQ]

theorem divRound_rtz (a : Int) {b : Int} (hb : b ≠ 0) : divRound 2 a b = a.tdiv b := by
  rw [divRound, roundInt_rtz 0 _ (Int.natAbs_ne_zero.mpr hb)]
  split_ifs with hneg
  · rw [Int.ofNat_natAbs_of_nonpos hneg.le, Int.neg_tdiv, Int.tdiv_neg, Int.neg_neg]
  · rw [Int.natAbs_of_nonneg (not_lt.mp hneg)]

theorem remd_rtz (a : Int) {b : Int} (hb : b ≠ 0) : remd 2 a b = a.tmod b := by
  rw [remd, if_neg hb, divRound_rtz a hb, Int.tmod_def, Int.mul_comm]

theorem toInt_eq_zero_iff (b : Word) : b.toInt = 0 ↔ b = 0 := by
  rw [← BitVec.toInt_zero (w := 64), BitVec.toInt_inj]; rfl

theorem toNat_eq_zero_iff (b : Word) : (b.toNat : Int) = 0 ↔ b = 0 := by
  rw [Int.natCast_eq_zero, BitVec.toNat_eq]; rfl

theorem wrap_quot_toInt (a b : Word) : wrap (quot 2 a.toInt b.toInt) = if b = 0 then -1 else a.sdiv b := by
  simp only [quot, toInt_eq_zero_iff]
  split_ifs with hb
  · rfl
  · apply BitVec.eq_of_toInt_eq
    rw [divRound_rtz _ (mt (toInt_eq_zero_iff b).mp hb), BitVec.toInt_sdiv, BitVec.toInt_ofInt]

theorem wrap_quot_toNat (a b : Word) : wrap (quot 2 a.toNat b.toNat) = if b = 0 then -1 else a / b := by
  simp only [quot, toNat_eq_zero_iff]
  split_ifs with hb
  · rfl
  · rw [divRound_rtz _ (mt (toNat_eq_zero_iff b).mp hb), ← Int.ofNat_tdiv, wrap_natCast, BitVec.udiv_def]

theorem wrap_remd_toInt (mode : Nat) (a b : Word) : wrap (remd mode a.toInt b.toInt) =
    if b = 0 then a else wrap (a.toInt - quot mode a.toInt b.toInt * b.toInt) := by
  simp only [remd, quot, toInt_eq_zero_iff]
  split_ifs
  · exact wrap_toInt a
  · rfl

theorem wrap_remd_toNat (mode : Nat) (a b : Word) : wrap (remd mode a.toNat b.toNat) =
    if b = 0 then a else wrap (a.toNat - quot mode a.toNat b.toNat * b.toNat) := by
  simp only [remd, quot, toNat_eq_zero_iff]
  split_ifs
  · exact wrap_toNat a
  · rfl

theorem wrap_remd_rtz_toInt (a b : Word) : wrap (remd 2 a.toInt b.toInt) = if b = 0 then a else a.srem b := by
  split_ifs with hb
  · rw [remd, if_pos ((toInt_eq_zero_iff b).mpr hb), wrap_toInt]
  · rw [remd_rtz _ (mt (toInt_eq_zero_iff b).mp hb), ← BitVec.toInt_srem, wrap_toInt]

theorem wrap_remd_rtz_toNat (a b : Word) : wrap (remd 2 a.toNat b.toNat) = if b = 0 then a else a % b := by
  split_ifs with hb
  · rw [remd, if_pos ((toNat_eq_zero_iff b).mpr hb), wrap_toNat]
  · rw [remd_rtz _ (mt (toNat_eq_zero_iff b).mp hb), ← Int.ofNat_tmod, ← BitVec.toNat_umod, wrap_toNat]

theorem shr_rdn (a : Word) (n : Nat) : wrap (roundInt 4 0 a.toNat (2 ^ n)) = a >>> n := by
  apply BitVec.eq_of_toNat_eq
  rw [roundInt_rdn, ← Int.natCast_ediv, wrap_natCast, BitVec.toNat_ofNat, BitVec.toNat_ushiftRight, Nat.shiftRight_eq_div_pow,
    Nat.mod_eq_of_lt ((Nat.div_le_self _ _).trans_lt a.isLt)]

theorem sha_rdn (a : Word) (n : Nat) : wrap (roundInt 4 0 a.toInt (2 ^ n)) = a.sshiftRight n := by
  rw [roundInt_rdn, BitVec.sshiftRight, Int.shiftRight_eq_div_pow]

/-! ### Rotation, extension and bit counts -/

theorem shAmt_lt (b : Word) : shAmt b < 64 := Nat.mod_lt _ (by decide)

theorem rotateLeft_eq {n : Nat} (a : Word) (h : n < 64) : a.rotateLeft n = a <<< n ||| a >>> (64 - n) :=
  BitVec.rotateLeft_eq_rotateLeftAux_of_lt h

theorem sextAt_eq_signExtend (a : Word) (t : Nat) : sextAt a t = (a.setWidth (t + 1)).signExtend 64 := by
  rw [sextAt, BitVec.signExtend, BitVec.toInt_eq_toNat_cond, BitVec.toNat_setWidth]
  simp only [Nat.pow_succ, Nat.mul_comm 2, Nat.mul_lt_mul_right (show 0 < 2 by decide)]
  push_cast
  rfl

theorem sext_eq {n : Nat} (a : Word) (h : n < 64) : sextAt a n = (a <<< (63 - n)).sshiftRight (63 - n) := by
  rw [sextAt_eq_signExtend]
  ext i hi
  simp only [BitVec.getElem_signExtend, BitVec.getElem_sshiftRight, BitVec.getElem_shiftLeft, BitVec.getElem_setWidth,
    BitVec.msb_eq_getLsbD_last, BitVec.getLsbD_setWidth, BitVec.getLsbD_shiftLeft]
  by_cases hin : i < n + 1
  · have e : 63 - n + i - (63 - n) = i := by omega
    have e1 : 63 - n + i < 64 := by omega
    have e2 : ¬ 63 - n + i < 63 - n := by omega
    simp [hin, e, e1, e2, BitVec.getLsbD_eq_getElem hi]
  · have e : 63 - (63 - n) = n := by omega
    have e1 : ¬ 63 - n + i < 64 := by omega
    simp [hin, e, e1]

theorem zext_eq {n : Nat} (a : Word) (h : n < 64) : zextAt a n = (a <<< (63 - n)) >>> (63 - n) := by
  rw [zextAt, ← BitVec.toNat_setWidth, BitVec.ofNat_toNat]
  ext i hi
  simp only [BitVec.getElem_setWidth, BitVec.getElem_ushiftRight, BitVec.getLsbD_shiftLeft, BitVec.getLsbD_setWidth]
  by_cases hin : i < n + 1
  · have e : 63 - n + i < 64 := by omega
    simp [hin, e]
  · have e : ¬ 63 - n + i < 64 := by omega
    simp [hin, e]

theorem clz_eq (a : Word) : BitVec.ofNat 64 (clz64 a) = a.clz := by
  apply BitVec.eq_of_toNat_eq
  by_cases ha : a = 0
  · subst ha; decide
  · have hlt : a.clz.toNat < 64 := BitVec.clz_lt_iff_ne_zero.mpr ha
    have hne : a.toNat ≠ 0 := fun h => ha (BitVec.eq_of_toNat_eq h)
    have hlog : a.toNat.log2 = 63 - a.clz.toNat := by
      rw [Nat.log2_eq_iff hne, show 63 - a.clz.toNat + 1 = 64 - a.clz.toNat by omega]
      exact ⟨BitVec.two_pow_sub_clz_le_toNat_of_ne_zero (by decide) ha, BitVec.toNat_lt_two_pow_sub_clz⟩
    rw [clz64, if_neg hne, hlog, BitVec.toNat_ofNat]
    omega

theorem ctz_eq (a : Word) : BitVec.ofNat 64 (ctz64 a) = a.ctz := by
  by_cases ha : a = 0
  · rw [ctz64, List.find?_eq_none.mpr (by simp [ha]), BitVec.ctz_eq_reverse_clz,
      BitVec.clz_eq_iff_eq_zero.mpr (BitVec.reverse_eq_zero_iff.mpr ha)]
    rfl
  · have hfind : (List.range 64).find? (fun i => a.getLsbD i) = some a.ctz.toNat := by
      rw [List.find?_range_eq_some]
      exact ⟨BitVec.getLsbD_true_ctz_of_ne_zero ha, List.mem_range.mpr (BitVec.ctz_lt_iff_ne_zero.mpr ha),
        fun j hj => by rw [BitVec.getLsbD_false_of_lt_ctz hj]; rfl⟩
    rw [ctz64, hfind, Option.getD_some, BitVec.ofNat_toNat, BitVec.setWidth_eq]

theorem countP_range_eq_cpopNatRec (a : Word) (n : Nat) : (List.range n).countP (fun i => a.getLsbD i) = a.cpopNatRec n 0 := by
  induction n with
  | zero => rfl
  | succ n ih =>
    rw [List.range_succ, List.countP_append, ih, BitVec.cpopNatRec_succ, BitVec.cpopNatRec_eq (0 + _)]
    cases h : a.getLsbD n <;> simp [h]

theorem popc_eq (a : Word) : BitVec.ofNat 64 (popc64 a) = a.cpop := by
  rw [popc64, countP_range_eq_cpopNatRec, BitVec.cpop]

/-! ### Choices by the order of two doubles -/

theorem ite_toInt_lt {α : Type} (a b : Word) (x y : α) :
    (if a.toInt < b.toInt then x else y) = if a.slt b then x else y := by
  simp only [BitVec.slt_iff_toInt_lt]

theorem ite_toNat_lt {α : Type} (a b : Word) (x y : α) :
    (if a.toNat < b.toNat then x else y) = if a.ult b then x else y := by
  simp only [BitVec.ult_iff_toNat_lt]

/-- A choice by the order of two doubles may be made from either side where it does not matter for equal ones. -/
theorem ite_toInt_lt_swap {α : Type} {a b : Word} {x y : α} (h : a = b → x = y) :
    (if a.toInt < b.toInt then x else y) = if b.slt a then y else x := by
  rw [← ite_toInt_lt]
  split_ifs with h1 h2 h2
  · omega
  · rfl
  · rfl
  · exact (h (BitVec.eq_of_toInt_eq (by omega))).symm

theorem ite_toNat_lt_swap {α : Type} {a b : Word} {x y : α} (h : a = b → x = y) :
    (if a.toNat < b.toNat then x else y) = if b.ult a then y else x := by
  rw [← ite_toNat_lt]
  split_ifs with h1 h2 h2
  · omega
  · rfl
  · rfl
  · exact (h (BitVec.eq_of_toNat_eq (by omega))).symm

/-! ### Bit fields (R83) -/

/-- The mask of `w` ones, `n` of them. -/
theorem getLsbD_ones {n : Nat} (h : n < 64) (i : Nat) : (BitVec.allOnes 64 >>> (63 - n)).getLsbD i = decide (i < n + 1) := by
  rw [BitVec.getLsbD_ushiftRight, BitVec.getLsbD_allOnes, decide_eq_decide]
  omega

/-- The field of `n + 1` bits from `pos` on, at the bottom of a double. -/
theorem extractField_eq {n : Nat} (a : Word) (pos : Nat) (h : n < 64) :
    BitVec.ofNat 64 (a.toNat / 2 ^ pos % 2 ^ (n + 1)) = (a >>> pos) &&& (BitVec.allOnes 64 >>> (63 - n)) := by
  ext i hi
  rw [← BitVec.getLsbD_eq_getElem, ← BitVec.getLsbD_eq_getElem, BitVec.getLsbD_and, getLsbD_ones h, BitVec.getLsbD_ushiftRight,
    BitVec.getLsbD_ofNat, Nat.testBit_mod_two_pow, Nat.testBit_div_two_pow, BitVec.testBit_toNat]
  simp [hi, Bool.and_comm, Nat.add_comm]

/-- The three parts of `insertField` stand one above the other. -/
theorem testBit_insertField (d a pos w i : Nat) :
    (d % 2 ^ pos + a % 2 ^ w * 2 ^ pos + d / 2 ^ (pos + w) * 2 ^ (pos + w)).testBit i =
      if i < pos then d.testBit i else if i - pos < w then a.testBit (i - pos) else d.testBit i := by
  have hsum : d % 2 ^ pos + a % 2 ^ w * 2 ^ pos + d / 2 ^ (pos + w) * 2 ^ (pos + w) =
      2 ^ pos * (2 ^ w * (d / 2 ^ (pos + w)) + a % 2 ^ w) + d % 2 ^ pos := by
    rw [Nat.pow_add]; ring
  have hlow : d % 2 ^ pos < 2 ^ pos := Nat.mod_lt _ (Nat.two_pow_pos _)
  have hmid : a % 2 ^ w < 2 ^ w := Nat.mod_lt _ (Nat.two_pow_pos _)
  rw [hsum, Nat.testBit_two_pow_mul_add _ hlow, Nat.testBit_two_pow_mul_add _ hmid, Nat.testBit_mod_two_pow,
    Nat.testBit_mod_two_pow, Nat.testBit_div_two_pow]
  split_ifs with h1 h2
  · simp [h1]
  · simp [h2]
  · rw [show i - pos - w + (pos + w) = i by omega]

theorem insertField_eq {n : Nat} (d a : Word) (pos : Nat) (h : n < 64) : insertField d a pos (n + 1) =
    (d &&& ~~~((BitVec.allOnes 64 >>> (63 - n)) <<< pos)) ||| ((a <<< pos) &&& ((BitVec.allOnes 64 >>> (63 - n)) <<< pos)) := by
  ext i hi
  rw [← BitVec.getLsbD_eq_getElem, ← BitVec.getLsbD_eq_getElem, insertField, BitVec.getLsbD_ofNat, testBit_insertField]
  simp only [BitVec.getLsbD_or, BitVec.getLsbD_and, BitVec.getLsbD_not, BitVec.getLsbD_shiftLeft, getLsbD_ones h,
    BitVec.testBit_toNat, hi, decide_true, Bool.true_and]
  by_cases h1 : i < pos
  · simp [h1]
  · by_cases h2 : i - pos < n + 1 <;> simp [h1, h2]

end Sys2Proof.Machine
end

section
/-! PROOFS. Arithmetic, logic, shifts and bit fields on scalar registers and queues: O1, O2, O3 and O4 (04 R79 to R83, Table 4.1). -/

namespace Sys2Proof.Machine

/-! ### How these instructions retire -/

/-- An instruction whose own part is an operation on two sources. -/
theorem alu3_completes {s : State} {i : Instr} {o : R3} {f : Word → Word → Word} {w : Word}
    (hx : exec i s = finish s o.form.len (alu3 s o f)) (h : canIssue s .both 0 [o.a, o.b] [o.d] [])
    (hw : f (srcOf s [o.a, o.b] 0) (srcOf s [o.a, o.b] 1) = w) : Completes i s o.form.len (writes s [o.a, o.b] o.d w) :=
  completes_of_issue hx h (by rw [hw])

/-- An instruction whose own part is an operation on one source. -/
theorem alu2_completes {s : State} {i : Instr} {o : R2} {f : Word → Word} {w : Word}
    (hx : exec i s = finish s o.form.len (alu2 s o f)) (h : canIssue s .both 0 [o.a] [o.d] [])
    (hw : f (srcOf s [o.a] 0) = w) : Completes i s o.form.len (writes s [o.a] o.d w) :=
  completes_of_issue hx h (by rw [hw])

/-- A saturating instruction clamps its exact result, or wraps it as `w` says (R80). -/
theorem narrow_eq (s : State) {v : Int} {w : Word} (h : wrap v = w) : narrow s v = if s.pSat = 1 then satS v else w := by
  rw [narrow, h]

theorem intMode_of_no_prefix {s : State} (h : s.me.pfx = none) (dflt : Nat) : intMode s dflt = dflt := by
  simp [intMode, State.pRnd, h]

theorem narrow_of_no_prefix {s : State} (h : s.me.pfx = none) (v : Int) : narrow s v = wrap v := by
  simp [narrow, State.pSat, h]

/-- Settles O1: each instruction is `alu3` of its row of Table 4.1, whose wrapped result is the operation on doubles. -/
theorem scalarArithmetic : Obligations.ScalarArithmetic := by
  intro s o h a b gives sat mode q
  refine ⟨?add, ?sub, ?mul, ?mulh, ?mulhn, ?div, ?divn, ?rem, ?remn, fun k => ?addsh⟩
  case add => exact alu3_completes rfl h (narrow_eq s (by rw [wrap_add, wrap_toInt, wrap_toInt]))
  case sub => exact alu3_completes rfl h (narrow_eq s (by rw [wrap_sub, wrap_toInt, wrap_toInt]))
  case mul => exact alu3_completes rfl h (narrow_eq s (by rw [wrap_mul, wrap_toInt, wrap_toInt]))
  case mulh => exact alu3_completes rfl h (mulh_eq a b)
  case mulhn => exact alu3_completes rfl h (mulhn_eq a b)
  case div => exact alu3_completes rfl h (narrow_eq s rfl)
  case divn => exact alu3_completes rfl h rfl
  case rem => exact alu3_completes rfl h (wrap_remd_toInt mode a b)
  case remn => exact alu3_completes rfl h (wrap_remd_toNat mode a b)
  case addsh => exact alu3_completes rfl h (narrow_eq s (by rw [wrap_add, wrap_toInt_shift, wrap_toInt]))

/-- Settles O2: without a MOD the modes are rounding toward zero and rounding down, which are the division and the right shift of
doubles. -/
theorem divisionAndShiftDefaults : Obligations.DivisionAndShiftDefaults := by
  intro s o h hp a b gives
  have hm := intMode_of_no_prefix hp
  refine ⟨?div, ?divn, ?rem, ?remn, ?shr, ?sha⟩
  case div => exact alu3_completes rfl h (by rw [narrow_of_no_prefix hp, hm, wrap_quot_toInt])
  case divn => exact alu3_completes rfl h (by rw [hm, wrap_quot_toNat])
  case rem => exact alu3_completes rfl h (by rw [hm, wrap_remd_rtz_toInt])
  case remn => exact alu3_completes rfl h (by rw [hm, wrap_remd_rtz_toNat])
  case shr => exact alu3_completes rfl h (by rw [hm, shr_rdn, shAmt])
  case sha => exact alu3_completes rfl h (by rw [hm, sha_rdn, shAmt])

/-- Settles O3: each instruction is `alu3` or `alu2` of its row of Table 4.1. -/
theorem scalarLogicAndShifts : Obligations.ScalarLogicAndShifts := by
  refine ⟨fun s o h => ?two, fun s o h => ?one⟩
  case two =>
    intro a b n gives mode
    have hn : n < 64 := shAmt_lt b
    refine ⟨?and, ?or, ?xor, ?andn, ?shl, ?shr, ?sha, ?rot, ?min, ?max, ?minn, ?maxn, ?slt, ?sltn, ?sext, ?zext⟩
    case and => exact alu3_completes rfl h rfl
    case or => exact alu3_completes rfl h rfl
    case xor => exact alu3_completes rfl h rfl
    case andn => exact alu3_completes rfl h rfl
    case shl => exact alu3_completes rfl h (narrow_eq s (wrap_toInt_shift a n))
    case shr => exact alu3_completes rfl h rfl
    case sha => exact alu3_completes rfl h rfl
    case rot => exact alu3_completes rfl h (rotateLeft_eq a hn)
    case min => exact alu3_completes rfl h (ite_toInt_lt_swap id)
    case max => exact alu3_completes rfl h (ite_toInt_lt_swap Eq.symm)
    case minn => exact alu3_completes rfl h (ite_toNat_lt_swap id)
    case maxn => exact alu3_completes rfl h (ite_toNat_lt_swap Eq.symm)
    case slt => exact alu3_completes rfl h (ite_toInt_lt a b 1 0)
    case sltn => exact alu3_completes rfl h (ite_toNat_lt a b 1 0)
    case sext => exact alu3_completes rfl h (sext_eq a hn)
    case zext => exact alu3_completes rfl h (zext_eq a hn)
  case one =>
    intro a gives
    refine ⟨?clz, ?ctz, ?popc⟩
    case clz => exact alu2_completes rfl h (clz_eq a)
    case ctz => exact alu2_completes rfl h (ctz_eq a)
    case popc => exact alu2_completes rfl h (popc_eq a)

/-- A well-formed bit field has at most 64 bits (R83). -/
theorem BFo.len1_lt {o : BFo} (h : o.wf = true) : o.len1 < 64 := by
  simp only [BFo.wf, Bool.and_eq_true, decide_eq_true_eq] at h
  obtain ⟨⟨-, hlen⟩, -⟩ := h
  exact hlen

/-- Settles O4: ADDI and LI are sums and constants, and the fields of BFX and BFI are masks of `len1 + 1` ones. -/
theorem immediatesAndBitFields : Obligations.ImmediatesAndBitFields := by
  refine ⟨fun s o h => ?addi, fun s o h => ?li, fun s o hw h => ?bfx, fun s o r hd hw h => ?bfi⟩
  case addi =>
    exact completes_of_issue rfl h (by rw [narrow_eq s (by rw [wrap_add, wrap_toInt])])
  case li => exact completes_of_issue rfl h rfl
  case bfx => exact completes_of_issue rfl h (by rw [extractField_eq _ _ (BFo.len1_lt hw)])
  case bfi =>
    have hlen : o.len1 < 64 := BFo.len1_lt (Bool.and_eq_true_iff.mp hw).1
    obtain ⟨f, d, a, pos, len1⟩ := o
    subst hd
    exact completes_of_issue rfl h (by rw [insertField_eq _ _ _ hlen])

end Sys2Proof.Machine
end

section
/-! PROOFS. What an instruction on scalar registers leaves alone: O5 (04 R78, R79; 01 R22; 02 R28, R50). -/

namespace Sys2Proof.Machine

/-! ### Loops that start at aligned addresses -/

/-- The end test returns only to the start of an active loop (R50). -/
theorem start_of_loopStep {pcs : List Word} {ls : List Loop} {lc : Tab Word} {a : Word} (h : (loopStep pcs ls lc).1 = some a) :
    ∃ l ∈ ls, l.start = a := by
  induction ls generalizing lc with
  | nil => cases h
  | cons l ls ih =>
    rw [loopStep] at h
    dsimp only at h
    split_ifs at h
    · exact ⟨l, List.mem_cons_self, Option.some.inj h⟩
    · obtain ⟨m, hm, hma⟩ := ih h
      exact ⟨m, List.mem_cons_of_mem _ hm, hma⟩

theorem badReturn_of_aligned {s : State} {n : Nat} (h : ∀ l ∈ (s.strand n).loops, l.start.toNat % 4 = 0) :
    badReturn s n = none := by
  unfold badReturn
  dsimp only
  split
  next a ha =>
    obtain ⟨l, hl, rfl⟩ := start_of_loopStep ha
    exact if_pos (h l hl)
  next => rfl

/-- An instruction that leaves the strand's loops as they are ends well where they are aligned (R58). -/
theorem endsWell_of_loopsAligned {s : State} {us : List Upd} (hal : s.loopsAligned)
    (h : ((applyAll us s).strand s.cur).loops = s.me.loops) : endsWell s us :=
  badReturn_of_aligned fun l hl => hal l (h ▸ hl)

/-! ### Updates of the strand that moves and its hart -/

/-- An update of strand n or of its hart. -/
def Upd.ownOf (n : Nat) : Upd → Prop
  | .strand m _ => m = n
  | .hart h _ => h = n / 2
  | _ => False

theorem sameUnits_refl (s : State) (n : Nat) : sameUnits s s n :=
  ⟨rfl, rfl, rfl, rfl, rfl, rfl, rfl, rfl, rfl, rfl, rfl, rfl, fun _ _ => rfl, fun _ _ => rfl⟩

theorem sameUnits_app {s t : State} {u : Upd} {n : Nat} (hu : u.ownOf n) (h : sameUnits s t n) : sameUnits s (u.app t) n := by
  obtain ⟨hcores, hlofts, hgangs, hparts, hdev, hslots, hcmds, hns, hsched, hcur, hbad, hchoice, hstrands, hharts⟩ := h
  cases u with
  | strand m f =>
    cases hu
    exact ⟨hcores, hlofts, hgangs, hparts, hdev, hslots, hcmds, hns, hsched, hcur, hbad, hchoice,
      fun m hm => (strand_app_strand_ne t f hm).trans (hstrands m hm), hharts⟩
  | hart m f =>
    cases hu
    exact ⟨hcores, hlofts, hgangs, hparts, hdev, hslots, hcmds, hns, hsched, hcur, hbad, hchoice, hstrands,
      fun m hm => (hart_app_hart_ne t f hm).trans (hharts m hm)⟩
  | mem | zero | core | other => cases hu

theorem sameUnits_applyAll {s t : State} {us : List Upd} {n : Nat} (hus : ∀ u ∈ us, u.ownOf n) (h : sameUnits s t n) :
    sameUnits s (applyAll us t) n := by
  induction us generalizing t with
  | nil => exact h
  | cons u us ih =>
    obtain ⟨hu, hus⟩ := List.forall_mem_cons.mp hus
    exact ih hus (sameUnits_app hu h)

theorem mem_app_of_ownOf {u : Upd} {n : Nat} (hu : u.ownOf n) (t : State) : (u.app t).mem = t.mem := by
  cases u with
  | strand | hart => rfl
  | mem | zero | core | other => cases hu

theorem mem_applyAll_of_ownOf {us : List Upd} {n : Nat} (hus : ∀ u ∈ us, u.ownOf n) (t : State) :
    (applyAll us t).mem = t.mem := by
  induction us generalizing t with
  | nil => rfl
  | cons u us ih =>
    obtain ⟨hu, hus⟩ := List.forall_mem_cons.mp hus
    exact (ih hus _).trans (mem_app_of_ownOf hu t)

theorem ownOf_popAll (n : Nat) (srcs : List Src) : ∀ u ∈ popAll (n / 2) srcs, u.ownOf n := by
  induction srcs with
  | nil => simp [popAll]
  | cons a srcs ih =>
    cases a with
    | q k => exact List.forall_mem_cons.mpr ⟨rfl, ih⟩
    | x r => exact ih
    | imm v => exact ih

theorem ownOf_setD (n : Nat) (d : Dst) (w : Word) : ∀ u ∈ setD n d w, u.ownOf n := by
  cases d <;> simp [setD, Upd.ownOf]

theorem ownOf_writes (s : State) (srcs : List Src) (d : Dst) (w : Word) : ∀ u ∈ writes s srcs d w, u.ownOf s.cur :=
  List.forall_mem_append.mpr ⟨ownOf_popAll s.cur srcs, ownOf_setD s.cur d w⟩

theorem sameUnits_retired {s t : State} {n : Nat} (len : Nat) (target : Option Word) (h : sameUnits s t n) :
    sameUnits s (retired t n len target) n := by
  unfold retired
  exact sameUnits_applyAll (by simp [Upd.ownOf, retireHart]) h

/-! ### The strand and its hart -/

theorem sameControl_refl (a : Strand) : sameControl a a := ⟨rfl, rfl, rfl, rfl, rfl, rfl, rfl, rfl, rfl, rfl, rfl, rfl⟩
theorem sameVector_refl (a : Hart) : sameVector a a :=
  ⟨rfl, rfl, rfl, rfl, rfl, rfl, rfl, rfl, rfl, rfl, rfl, rfl, rfl, rfl⟩

theorem sameControl_setX {a b : Strand} (r : Nat) (w : Word) (h : sameControl a b) : sameControl a (setX r w b) := by
  unfold setX
  split <;> exact h

theorem sameVector_pushQ {a b : Hart} (k : Nat) (w : Word) (h : sameVector a b) : sameVector a (pushQ k w b) := by
  unfold pushQ
  dsimp only
  split <;> exact h

theorem sameVector_popAll {a : Hart} {t : State} {n : Nat} (srcs : List Src) (h : sameVector a (t.hart n)) :
    sameVector a ((applyAll (popAll n srcs) t).hart n) := by
  induction srcs generalizing t with
  | nil => exact h
  | cons b srcs ih =>
    cases b with
    | q k =>
      have hpop : sameVector a (((Upd.hart n (popQ k)).app t).hart n) := by rw [hart_app_hart]; exact h
      exact ih hpop
    | x r => exact ih h
    | imm v => exact ih h

theorem sameControl_retired {a : Strand} {t : State} {n : Nat} (len : Nat) (target : Option Word)
    (h : sameControl a (t.strand n)) : sameControl a ((retired t n len target).strand n) := by
  simp only [retired, retireHart, applyAll_cons, applyAll_nil, strand_app_hart, strand_app_strand]
  exact h

theorem sameVector_retired {a : Hart} {t : State} {n : Nat} (len : Nat) (target : Option Word)
    (h : sameVector a (t.hart (n / 2))) : sameVector a ((retired t n len target).hart (n / 2)) := by
  simp only [retired, retireHart, applyAll_cons, applyAll_nil, hart_app_hart, hart_app_strand]
  exact h

/-! ### The effects of a scalar instruction -/

/-- The strand that moves after the pops and the result. -/
theorem strand_applyAll_writes (s : State) (srcs : List Src) (d : Dst) (w : Word) :
    (applyAll (writes s srcs d w) s).strand s.cur = match d with | .x r => setX r w s.me | .q _ => s.me := by
  cases d <;> simp [writes, setD, applyAll_append, State.me]

/-- The hart of the strand that moves after the pops and the result. -/
theorem hart_applyAll_writes (s : State) (srcs : List Src) (d : Dst) (w : Word) :
    (applyAll (writes s srcs d w) s).hart s.h = match d with
      | .x _ => (applyAll (popAll s.h srcs) s).hart s.h
      | .q k => pushQ k w ((applyAll (popAll s.h srcs) s).hart s.h) := by
  cases d <;> simp [writes, setD, applyAll_append, State.h]

theorem loops_setX (r : Nat) (w : Word) (st : Strand) : (setX r w st).loops = st.loops := by
  unfold setX
  split <;> rfl

theorem loops_applyAll_writes (s : State) (srcs : List Src) (d : Dst) (w : Word) :
    ((applyAll (writes s srcs d w) s).strand s.cur).loops = s.me.loops := by
  rw [strand_applyAll_writes]
  cases d with
  | x r => exact loops_setX r w s.me
  | q k => rfl

theorem queue_pushQ_ne {k q : Nat} (w : Word) (h : Hart) (hne : q ≠ k) : (pushQ k w h).queue q = h.queue q := by
  rw [Hart.queue, pushQ_q, tget_tput_ne _ _ _ hne, Hart.queue]

theorem popsOf_eq_zero {q : Nat} {srcs : List Src} (h : .q q ∉ srcs) : popsOf q srcs = 0 := by
  induction srcs with
  | nil => rfl
  | cons a srcs ih =>
    obtain ⟨ha, hsrcs⟩ := not_or.mp (mt List.mem_cons.mpr h)
    cases a with
    | q k =>
      have hk : k ≠ q := fun e => ha (e ▸ rfl)
      rw [popsOf, if_neg hk, ih hsrcs]
    | x r => exact ih hsrcs
    | imm v => exact ih hsrcs

theorem queue_popAll_of_not_mem {q : Nat} {srcs : List Src} (n : Nat) (s : State) (h : .q q ∉ srcs) :
    ((applyAll (popAll n srcs) s).hart n).queue q = (s.hart n).queue q := by
  rw [queue_applyAll_popAll, popsOf_eq_zero h, List.drop_zero]

theorem scalarFrame_after_writes (s : State) (len : Nat) (srcs : List Src) (d : Dst) (w : Word) :
    scalarFrame s (s.after len (writes s srcs d w)) srcs (some d) := by
  refine ⟨?mem, ?units, ?control, ?vector, fun r hr => ?regs, fun q hq => ?queues⟩
  case mem => rw [State.after, mem_retired, mem_applyAll_of_ownOf (ownOf_writes s srcs d w)]
  case units => exact sameUnits_retired _ _ (sameUnits_applyAll (ownOf_writes s srcs d w) (sameUnits_refl s s.cur))
  case control =>
    apply sameControl_retired
    rw [strand_applyAll_writes]
    cases d with
    | x r => exact sameControl_setX r w (sameControl_refl _)
    | q k => exact sameControl_refl _
  case vector =>
    have hpops : sameVector s.myHart ((applyAll (popAll s.h srcs) s).hart s.h) := sameVector_popAll srcs (sameVector_refl _)
    apply sameVector_retired (n := s.cur)
    change sameVector s.myHart ((applyAll (writes s srcs d w) s).hart s.h)
    rw [hart_applyAll_writes]
    cases d with
    | x r => exact hpops
    | q k => exact sameVector_pushQ k w hpops
  case regs =>
    rw [State.after, getX_retired, strand_applyAll_writes]
    cases d with
    | x k => exact getX_setX_ne _ _ fun e => hr (e ▸ rfl)
    | q k => rfl
  case queues =>
    obtain ⟨hsrcs, hd⟩ := not_or.mp hq
    rw [State.after, queue_retired, hart_applyAll_writes]
    cases d with
    | x k => exact queue_popAll_of_not_mem s.h s hsrcs
    | q k => rw [queue_pushQ_ne _ _ fun e => hd (by rw [e]), queue_popAll_of_not_mem s.h s hsrcs, State.myHart]

/-! ### The obligation -/

/-- An instruction whose own part is one result has the frame of that result (R79). -/
theorem scalarFrame_of_issue {s t : State} {len priv : Nat} {cls : SClass} {srcs : List Src} {d : Dst} {plain : List Nat}
    {k : (Nat → Word) → Act} {w : Word} (hal : s.loopsAligned) (h : canIssue s cls priv srcs [d] plain)
    (hk : k (srcVal s.me s.myHart srcs) = .done (setD s.cur d w))
    (ht : finish s len (issue s cls priv srcs [d] plain k) = .next t) : scalarFrame s t srcs (some d) := by
  rw [finish_issue_done h hk (endsWell_of_loopsAligned hal (loops_applyAll_writes s srcs d w))] at ht
  cases ht
  exact scalarFrame_after_writes s len srcs d w

/-- The instructions of Table 4.1 on two sources, but for ADDSH. -/
def twoSourceInstrs (o : R3) : List Instr :=
  [.add o, .sub o, .mul o, .mulh o, .mulhn o, .div o, .divn o, .rem o, .remn o, .and o, .or o, .xor o, .andn o, .shl o, .shr o,
    .sha o, .rot o, .min o, .max o, .minn o, .maxn o, .slt o, .sltn o, .sext o, .zext o]

/-- Each of these instructions is one operation on two sources. -/
theorem exec_eq_alu3 {o : R3} {i : Instr} (hi : i ∈ twoSourceInstrs o ++ (List.range 5).map fun k => .addsh k o) (s : State) :
    ∃ f, exec i s = finish s o.form.len (alu3 s o f) := by
  rcases List.mem_append.mp hi with hi | hi
  · unfold twoSourceInstrs at hi
    fin_cases hi <;> exact ⟨_, rfl⟩
  · obtain ⟨k, -, rfl⟩ := List.mem_map.mp hi
    exact ⟨_, rfl⟩

theorem exec_eq_alu2 {o : R2} {i : Instr} (hi : i ∈ ([.clz o, .ctz o, .popc o] : List Instr)) (s : State) :
    ∃ f, exec i s = finish s o.form.len (alu2 s o f) := by
  fin_cases hi <;> exact ⟨_, rfl⟩

/-- Settles O5: each instruction is one result, whose pops, write and retirement reach only its strand and its hart. -/
theorem scalarFrame_holds : Obligations.ScalarFrame := by
  intro s t hal
  refine ⟨fun o i hi h ht => ?two, fun o i hi h ht => ?one, fun o h ht => ?addi, fun o h ht => ?li, fun o h ht => ?bfx⟩
  case two =>
    obtain ⟨f, hf⟩ := exec_eq_alu3 (o := o) hi s
    exact scalarFrame_of_issue hal h rfl (hf.symm.trans ht)
  case one =>
    obtain ⟨f, hf⟩ := exec_eq_alu2 hi s
    exact scalarFrame_of_issue hal h rfl (hf.symm.trans ht)
  case addi => exact scalarFrame_of_issue hal h rfl ht
  case li => exact scalarFrame_of_issue hal h rfl ht
  case bfx => exact scalarFrame_of_issue hal h rfl ht

end Sys2Proof.Machine
end

section
/-! PROOFS. Branches, jumps, jump tables, hardware loops and branches on queues: O7, O8 and O9 (04 R89 to R99). -/

namespace Sys2Proof.Machine

theorem relTarget_eq (s : State) (f : Form) (off : Int) :
    relTarget s f off = s.me.pc + (if f.hasLit then wrap off else wrap off * 4) := by
  rw [relTarget, wrap_add, wrap_toNat]
  split
  · rfl
  · rw [wrap_mul, BitVec.mul_comm]; rfl

theorem exec_jal (o : JLo) (s : State) : exec (.jal o) s = execJal o s := rfl
theorem exec_j (o : JO) (s : State) : exec (.j o) s = execJ o s := rfl
theorem exec_jr (o : RI) (s : State) : exec (.jr o) s = execJr o s := rfl
theorem exec_jtab (o : R3) (s : State) : exec (.jtab o) s = execJtab o s := rfl
theorem exec_loop (o : LPo) (s : State) : exec (.loop o) s = execLoop o s := rfl
theorem exec_loopbrk (f : Form) (s : State) : exec (.loopbrk f) s = execLoopbrk f s := rfl
theorem exec_brqNz (o : BQo) (s : State) : exec (.brqNz o) s = execBrqNz o s := rfl
theorem exec_brqZ (o : BQo) (s : State) : exec (.brqZ o) s = execBrqZ o s := rfl

/-! ### Conditional branches (R89) -/

/-- The conditions 6 and 7 have no instruction. -/
theorem parse06_eq_none {r : Raw} (h : 6 ≤ Sys2Proof.fld r.w0 8 3) : parse06 r = none := by
  unfold parse06
  split
  case h_7 => rfl
  all_goals omega

theorem rawOf_w0 {w : Nat} {ws : List Nat} {r : Raw} (h : rawOf (w :: ws) = some r) : r.w0 = w := by
  unfold rawOf at h
  dsimp only at h
  split at h <;> cases h <;> rfl

theorem decode_of_parse_none {w : Nat} {ws : List Nat} (h : ∀ r : Raw, r.w0 = w → parse r = none) : decode (w :: ws) = none := by
  rw [decode]
  cases hr : rawOf (w :: ws) with
  | none => rfl
  | some r => rw [Option.bind_some, h r (rawOf_w0 hr), Option.bind_none]

/-- A branch whose comparison holds goes to its target, and one whose comparison fails goes on. -/
theorem branch_when {s : State} {i : Instr} {o : BRo} {p : Word → Word → Bool} {q : Bool} {target : Word}
    (hx : exec i s = finish s o.form.len (branchAct s o p)) (h : canIssue s .both 0 [o.a, o.b] [] [])
    (ht : relTarget s o.form o.off = target) (hq : p (srcOf s [o.a, o.b] 0) (srcOf s [o.a, o.b] 1) = q) :
    (q = true → Goes i s o.form.len (popAll s.h [o.a, o.b]) target
      ∧ (target.toNat % 4 ≠ 0 → Traps i s o.form.len { code := 3, val := target }))
    ∧ (q = false → Completes i s o.form.len (popAll s.h [o.a, o.b])) := by
  subst hq ht
  exact ⟨fun hp => ⟨goes_pops_of_issue hx h (if_pos hp), traps_of_issue_jump hx h (if_pos hp)⟩,
    fun hp => completes_pops_of_issue hx h (if_neg (by simp [hp]))⟩

theorem decide_toInt_lt (a b : Word) : decide (a.toInt < b.toInt) = a.slt b := rfl
theorem decide_toNat_lt (a b : Word) : decide (a.toNat < b.toNat) = a.ult b := rfl
theorem decide_toInt_le (a b : Word) : decide (b.toInt ≤ a.toInt) = !a.slt b := by
  rw [← decide_toInt_lt, ← decide_not, decide_eq_decide, not_lt]
theorem decide_toNat_le (a b : Word) : decide (b.toNat ≤ a.toNat) = !a.ult b := by
  rw [← decide_toNat_lt, ← decide_not, decide_eq_decide, not_lt]

/-- Settles O7: each branch is `branchAct` of its comparison. -/
theorem conditionalBranches : Obligations.ConditionalBranches := by
  refine ⟨fun w ws hop hcond => ?decoding, fun s o h => ?branches⟩
  case decoding =>
    refine decode_of_parse_none fun r hr => ?_
    subst hr
    rw [parse_op06 hop, parse06_eq_none hcond]
  case branches =>
    intro a b target pops when_
    have ht : relTarget s o.form o.off = target := relTarget_eq s o.form o.off
    refine ⟨?beq, ?bne, ?blt, ?bge, ?bltn, ?bgen⟩
    case beq => exact branch_when rfl h ht rfl
    case bne => exact branch_when rfl h ht rfl
    case blt => exact branch_when rfl h ht (decide_toInt_lt a b)
    case bge => exact branch_when rfl h ht (decide_toInt_le a b)
    case bltn => exact branch_when rfl h ht (decide_toNat_lt a b)
    case bgen => exact branch_when rfl h ht (decide_toNat_le a b)

/-! ### Jumps and jump tables (R90 to R93) -/

theorem tableFetch_ok {s : State} {a : Word} {bs : List Byte} {r r' : Run} (h : scalarLoad s a 8 r = .ok (bs, r')) :
    tableFetch s a r = .ok (word64 bs, r') := by
  rw [tableFetch, h]

/-- The address of entry i of the table at a. -/
theorem entryAddr_eq (a i : Word) : wrap ((a.toNat : Int) + 8 * (1 + i.toNat)) = a + 8 * (1 + i) := by
  rw [wrap_add, wrap_mul, wrap_add, wrap_toNat, wrap_toNat]
  rfl

/-- Where both fetches answer, the jump goes to the entry of the index, or to the default entry at the length (R92). -/
theorem jumpTable_ok {s : State} {a b i : Word} {lenBytes entry : List Byte} {r r1 r2 : Run}
    (h1 : scalarLoad s a 8 r = .ok (lenBytes, r1)) (hi : (if b.ult (word64 lenBytes) then b else word64 lenBytes) = i)
    (h2 : scalarLoad s (a + 8 * (1 + i)) 8 r1 = .ok (entry, r2)) : jumpTable s a b r = .ok (word64 entry, r2) := by
  subst hi
  rw [jumpTable, mbind_ok (tableFetch_ok h1)]
  apply tableFetch_ok
  rw [← h2, ← entryAddr_eq, ← ite_toNat_lt]
  split <;> rfl

/-- Settles O8: JAL, J and JR are transfers to a computed target, and JTAB one to the entry that its two fetches find. -/
theorem jumpsAndTables : Obligations.JumpsAndTables := by
  refine ⟨fun s o h => ?jal, fun s o h => ?j, fun s o h => ?jr, fun s o lenBytes entry r1 r2 h h1 h2 => ?jtab⟩
  case jal =>
    have hk := congrArg (Act.jump (setD s.cur o.d (nextPc s o.form.len))) (relTarget_eq s o.form o.off)
    exact ⟨goes_of_issue (exec_jal o s) h hk, traps_of_issue_jump (exec_jal o s) h hk⟩
  case j =>
    have hk := congrArg (Act.jump []) (relTarget_eq s o.form o.off)
    exact ⟨goes_of_issue (exec_j o s) h hk, traps_of_issue_jump (exec_j o s) h hk⟩
  case jr =>
    have ht : wrap ((srcOf s [o.a] 0).toNat + o.imm) = srcOf s [o.a] 0 + wrap o.imm := by rw [wrap_add, wrap_toNat]
    have hk := congrArg (Act.jump (setD s.cur o.d (nextPc s o.form.len))) ht
    exact ⟨goes_of_issue (exec_jr o s) h hk, traps_of_issue_jump (exec_jr o s) h hk⟩
  case jtab =>
    have hk := ofM_ok (jumpTable_ok h1 rfl h2) fun t r =>
      if t.toNat % 4 = 0 then .jump (r.out ++ setD s.cur o.d (nextPc s o.form.len)) t else .part r.kept { code := 3, val := t }
    exact ⟨fun ha => goes_of_issue (exec_jtab o s) h (hk.trans (if_pos ha)) ha,
      fun ha => trapsAfter_of_issue (exec_jtab o s) h (hk.trans (if_neg ha))⟩

/-! ### Hardware loops (R94 to R97) -/

theorem loopStop_eq (start : Word) (n : Nat) : wrap ((start.toNat : Int) + 4 * (n : Int)) = start + 4 * BitVec.ofNat 64 n := by
  rw [wrap_add, wrap_mul, wrap_toNat, wrap_natCast]
  rfl

/-- A BRQ goes to its target where its popped entry is of its kind, else on (R99). -/
theorem brq_when {s : State} {i : Instr} {o : BQo} {nz : Bool} {target : Word} (hx : exec i s = finish s o.form.len (brqAct s o nz))
    (h : canIssue s .both 0 [.q o.q] [] []) (ht : relTarget s o.form o.off = target) :
    ((srcOf s [.q o.q] 0 != 0) = nz → Goes i s o.form.len (popAll s.h [.q o.q]) target)
    ∧ ((srcOf s [.q o.q] 0 != 0) = !nz → Completes i s o.form.len (popAll s.h [.q o.q])) := by
  subst ht
  exact ⟨fun he => goes_pops_of_issue hx h (if_pos (by rw [he, beq_self_eq_true])),
    fun he => completes_pops_of_issue hx h (if_neg (by rw [he]; cases nz <;> decide))⟩

/-- Settles O9: the count of LOOP, the active loops of LOOPBRK and the entry of BRQ select the end of the instruction, and the fetch of
the address after an end instruction selects between the transfer and the trap. -/
theorem loopsAndQueueBranches : Obligations.LoopsAndQueueBranches := by
  refine ⟨fun s o h => ?loop, fun s f h => ?loopbrk, fun s a hb => fetchTrap_of_bad_nil hb s.h a, fun s o h => ?brq⟩
  case loop =>
    intro n start stop after
    have hstop : wrap (uval (nextPc s o.form.len) + 4 * (o.stop : Int)) = stop := loopStop_eq start o.stop
    refine ⟨fun hn => completes_of_issue (exec_loop o s) h ((if_neg hn).trans ?starts),
      fun hn t ht => goes_of_issue (exec_loop o s) h ((if_pos hn).trans ?skips),
      fun hn a ha => trapsAfter_of_issue (exec_loop o s) h ((if_pos hn).trans ?fails)⟩
    case starts => rw [hstop]; rfl
    case skips => rw [hstop, show afterEnd (Run.start s) s.h stop = (.ok t, after.2) from Prod.ext ht rfl]
    case fails => rw [hstop, show afterEnd (Run.start s) s.h stop = (.error a, after.2) from Prod.ext ha rfl]
  case loopbrk =>
    refine ⟨fun hl => traps_of_issue (exec_loopbrk f s) h (by rw [hl]), fun l ls hl => ?active⟩
    case active =>
      intro after
      refine ⟨fun t ht => goes_of_issue_nil (exec_loopbrk f s) h ?leaves, fun a ha => trapsAfter_of_issue (exec_loopbrk f s) h ?fails⟩
      case leaves => simp only [hl, show afterEnd (Run.start s) s.h l.stop = (.ok t, after.2) from Prod.ext ht rfl]
      case fails => simp only [hl, show afterEnd (Run.start s) s.h l.stop = (.error a, after.2) from Prod.ext ha rfl]
  case brq =>
    intro e target pop
    have ht : relTarget s o.form o.off = target := relTarget_eq s o.form o.off
    obtain ⟨hnz, hnzOn⟩ := brq_when (exec_brqNz o s) h ht
    obtain ⟨hz, hzOn⟩ := brq_when (exec_brqZ o s) h ht
    exact ⟨fun he => ⟨hnz (bne_iff_ne.mpr he), hzOn (bne_iff_ne.mpr he)⟩,
      fun he => ⟨hnzOn (by rw [show srcOf s [.q o.q] 0 = 0 from he]; rfl), hz (by rw [show srcOf s [.q o.q] 0 = 0 from he]; rfl)⟩⟩

end Sys2Proof.Machine
end

section
/-! PROOFS. Queue inspection, the feature mask, the time-stamp counter, IDLE and its ends, and the end of a strand: O15, O24 and O25 (04
R100, R105 to R109). -/

namespace Sys2Proof.Machine

theorem exec_qpeek (o : QPo) (s : State) : exec (.qpeek o) s = execQpeek o s := rfl
theorem exec_qcnt (o : QPo) (s : State) : exec (.qcnt o) s = execQcnt o s := rfl
theorem exec_rdgtc (o : RD) (s : State) : exec (.rdgtc o) s = execRdgtc o s := rfl
theorem exec_yield (f : Form) (s : State) : exec (.yield f) s = execYield f s := rfl
theorem exec_gexit (o : RA) (s : State) : exec (.gexit o) s = execGexit o s := rfl
theorem exec_idle (o : R2) (s : State) : exec (.idle o) s = execIdle o s := rfl
theorem exec_idleEnd (n code : Nat) (s : State) : exec (.idleEnd n code) s = execIdleEnd n code s := rfl
theorem exec_feat (o : R2) (s : State) : exec (.feat o) s = execFeat o s := rfl

/-! ### Queue inspection (R100) -/

/-- On the strand that reads its queue QPEEK has the head entry as its result. -/
theorem exec_qpeek_reader {s : State} {o : QPo} {w : Word} {ws : List Word} (hq : qReader o.q = s.cur % 2)
    (he : s.myHart.queue o.q = w :: ws) :
    exec (.qpeek o) s = finish s o.form.len (issue s .both 0 [] [o.d] [] fun _ => .done (setD s.cur o.d w)) := by
  rw [exec_qpeek, execQpeek, if_neg (not_not.mpr hq), he]

theorem exec_qpeek_writer {s : State} {o : QPo} (hq : qReader o.q ≠ s.cur % 2) :
    exec (.qpeek o) s = finish s o.form.len (.trap { code := 4 }) := by
  rw [exec_qpeek, execQpeek, if_pos hq]

/-- Settles O15: the direction of the queue selects between the entry and the trap of QPEEK, and between the two counts of QCNT. -/
theorem queueInspection : Obligations.QueueInspection := by
  intro s o h
  refine ⟨fun w ws hq he => ?head, fun hq => ?trap, fun hq => ?count, fun hq => ?room⟩
  case head => exact completes_of_issue (exec_qpeek_reader hq he) h rfl
  case trap => exact exec_qpeek_writer hq
  case count => exact completes_of_issue (exec_qcnt o s) h (by simp only [if_pos hq])
  case room => exact completes_of_issue (exec_qcnt o s) h (by simp only [if_neg hq])

/-! ### The feature mask (R107) -/

theorem toNat_ofNat_of_double {n w : Nat} (h : n < 2 ^ 64) (hw : 64 ≤ w) : (BitVec.ofNat w n).toNat = n := by
  rw [BitVec.toNat_ofNat, Nat.mod_eq_of_lt (h.trans_le (Nat.pow_le_pow_right (by decide) hw))]

/-- The mask of 15 R321 stands in its lowest double. -/
theorem toNat_mask : (0x3FFFFFFFF : BitVec 512).toNat = 0x3FFFFFFFF := toNat_ofNat_of_double (by decide) (by decide)

theorem featDouble_eq (n : Nat) :
    featDouble n = if n < 8 then (0x3FFFFFFFF : BitVec 512).extractLsb' (64 * n) 64 else 0 := by
  unfold featDouble
  split_ifs with h0 h8
  · subst h0
    apply BitVec.eq_of_toNat_eq
    rw [BitVec.extractLsb'_toNat, toNat_mask]
    rfl
  · omega
  · apply BitVec.eq_of_toNat_eq
    have hlow : 0x3FFFFFFFF < 2 ^ (64 * n) :=
      (show 0x3FFFFFFFF < 2 ^ 64 by decide).trans_le (Nat.pow_le_pow_right (by decide) (by omega))
    rw [BitVec.extractLsb'_toNat, toNat_mask, Nat.shiftRight_eq_div_pow, Nat.div_eq_of_lt hlow]
    rfl
  · rfl

/-- Settles O25: FEAT writes `featDouble` of its source. -/
theorem featureMask : Obligations.FeatureMask := by
  exact fun s o h => completes_of_issue (exec_feat o s) h (by rw [featDouble_eq])

/-! ### IDLE, its ends and GEXIT (R105, R109) -/

theorem stripHeld_eq_false {s : State} (h : s.isExec = false ∨ s.myHart.strip = []) : stripHeld s s.cur = false := by
  rcases h with hx | hs
  · rw [stripHeld, show (s.cur % 2 == 1) = false from hx, Bool.false_and]
  · rw [stripHeld, show (s.hart (s.cur / 2)).strip = [] from hs, List.isEmpty_nil, Bool.not_true, Bool.and_false]

theorem stripHeld_eq_true {s : State} (hx : s.isExec = true) (h : s.myHart.strip ≠ []) : stripHeld s s.cur = true := by
  rw [stripHeld, show (s.cur % 2 == 1) = true from hx, Bool.true_and, Bool.not_eq_true', List.isEmpty_eq_false_iff]
  exact h

/-- Each code stands for its event (R105). -/
theorem idleOver_of_event {s : State} {n code start pushes : Nat} {token : Bool} {limit : Word}
    (h : code = 0 ∧ limit ≠ 0 ∧ start + limit.toNat ≤ s.cycles (n / 8) ∨ code = 1 ∧ pendingIrq s (n / 2) ≠ 0
      ∨ code = 2 ∧ pushesOf (s.hart (n / 2)) n ≠ pushes ∨ code = 3 ∧ token = true) :
    idleOver s n code limit start pushes token = true := by
  rcases h with ⟨rfl, hlimit, hpast⟩ | ⟨rfl, hirq⟩ | ⟨rfl, hpush⟩ | ⟨rfl, htoken⟩
  · exact Bool.and_eq_true_iff.mpr ⟨bne_iff_ne.mpr hlimit, decide_eq_true hpast⟩
  · exact bne_iff_ne.mpr hirq
  · exact bne_iff_ne.mpr hpush
  · exact htoken

/-- The IDLE of an awake strand whose event has occurred retires with the event's code. -/
theorem execIdleEnd_of_over {s : State} {n code start pushes : Nat} {token : Bool} {o : R2}
    (hs : (s.strand n).sleep = some (.idle o start pushes token)) (ha : awake { s with cur := n } n = true)
    (ho : idleOver { s with cur := n } n code (srcOf { s with cur := n } [o.a] 0) start pushes token = true) :
    execIdleEnd n code s = finish { s with cur := n } o.form.len
      (.done (popAll (n / 2) [o.a] ++ setD n o.d (BitVec.ofNat 64 code))) := by
  rw [execIdleEnd, hs]
  exact if_pos (Bool.and_eq_true_iff.mpr ⟨ha, ho⟩)

/-- Settles O24: RDGTC, YIELD and GEXIT retire with their own effects, IDLE waits with its record of sleep, and IDLE_END retires it. -/
theorem idleAndItsEnds : Obligations.IdleAndItsEnds := by
  refine ⟨fun s o h => ?rdgtc, fun s f h => ?yields, fun s o h => ⟨fun hstrip => ?gexit, fun hx hstrip => ?pending⟩,
    fun s o h => ?idle, fun s0 n code start pushes token o => ?ends⟩
  case rdgtc => exact completes_of_issue (exec_rdgtc o s) h rfl
  case yields => exact completes_of_issue_nil (exec_yield f s) h rfl
  case gexit => exact completes_of_issue (exec_gexit o s) h (if_neg (by rw [stripHeld_eq_false hstrip]; decide))
  case pending => exact traps_of_issue (exec_gexit o s) h (if_pos (stripHeld_eq_true hx hstrip))
  case idle => rw [exec_idle, execIdle, issue_of_canIssue h]; rfl
  case ends =>
    intro s limit hs ha hevent us he
    rw [exec_idleEnd, execIdleEnd_of_over hs ha (idleOver_of_event hevent)]
    exact finish_done he

end Sys2Proof.Machine
end

section
/-! PROOFS. TRAP and ERET: O23 (04 R104; 20 R370, R372). -/

namespace Sys2Proof.Machine

theorem exec_trap (o : RA) (s : State) : exec (.trap o) s = execTrap o s := rfl
theorem exec_eret (f : Form) (s : State) : exec (.eret f) s = execEret f s := rfl

/-! ### The delivery of a trap (R370) -/

/-- With a handler, no trap in hand and a cause that is neither of class H nor illegal, the trap enters the handler. -/
theorem trapUpds_enter {s : State} {n : Nat} {t : TrapInfo} (at_ next : Word) (pf : Bool) (word : Word)
    (hcode : classH t.code = false) (hill : t.code ≠ 1) (hvec : (s.strand n).tvec >>> 2 ≠ 0)
    (hv : (s.strand n).tcause.getLsbD 63 = false) :
    trapUpds s n t at_ next pf word = reported t ++ [endWait n] ++
      [enterHandler s n t at_ (if t.code = 7 ∨ t.code = 64 then next else at_) pf false word] := by
  have hfatal : (classH t.code || (s.strand n).tvec >>> 2 == 0 || (s.strand n).tcause.getLsbD 63) = false := by
    rw [hcode, hv, beq_false_of_ne hvec]; rfl
  simp only [trapUpds, if_neg (show ¬ (t.code = 1 ∧ pf = false ∧ privOf s (n / 2) = 0) from fun h => hill h.1), hfatal]
  rfl

/-- The strand in its handler after a software trap: its value, the address after the TRAP, and the handler's address (R104, R370). -/
theorem strand_takeTrap_soft {s : State} {n : Nat} (v : Word) (len : Nat) (hvec : (s.strand n).tvec >>> 2 ≠ 0)
    (hv : (s.strand n).tcause.getLsbD 63 = false) :
    let u := (takeTrap s n { code := 7, val := v } len).strand n
    u.tval = v ∧ u.tpc = (s.strand n).pc + BitVec.ofNat 64 len ∧ u.pc = (s.strand n).tvec >>> 2 <<< 2 := by
  intro u
  have hu : u = _ := congrArg (fun us => (applyAll us s).strand n)
    (trapUpds_enter (s := s) (n := n) (t := { code := 7, val := v }) (trapAddr (s.strand n))
      ((s.strand n).pc + BitVec.ofNat 64 len) (s.strand n).pfx.isSome (trapWord s (n / 2) (trapAddr (s.strand n)))
      rfl (show 7 ≠ 1 by decide) hvec hv)
  rw [hu]
  simp [reported, endWait, enterHandler]

/-- Settles O23: TRAP is the software trap after its pop, and ERET a transfer to `tpc` where V is set. -/
theorem trapAndReturn : Obligations.TrapAndReturn := by
  refine ⟨fun s o h => ?trap, fun s f h => ?eret⟩
  case trap =>
    have hx : exec (.trap o) s =
        .next (takeTrap (applyAll (popAll s.h [o.a]) s) s.cur { code := 7, val := srcOf s [o.a] 0 } o.form.len) := by
      rw [exec_trap, execTrap, issue_of_canIssue h]
      simp only [Act.after, List.append_nil]
      rfl
    refine ⟨hx, fun hvec hv => ⟨_, hx, ?_⟩⟩
    have hme : (applyAll (popAll s.h [o.a]) s).strand s.cur = s.me := strand_applyAll_popAll _ _ _ _
    rw [← hme] at hvec hv ⊢
    exact strand_takeTrap_soft _ _ hvec hv
  case eret =>
    intro st
    refine ⟨fun hv => ?clear, fun hv ha => ?misaligned, fun hv => ?returns⟩
    case clear => exact traps_of_issue (exec_eret f s) h (if_pos (by rw [hv]; rfl))
    case misaligned => exact traps_of_issue_jump (exec_eret f s) h (if_neg (by rw [hv]; decide)) ha
    case returns => exact goes_of_issue_nil (exec_eret f s) h (if_neg (by rw [hv]; decide))

end Sys2Proof.Machine
end

section
/-! PROOFS. GETS, SETS and SWAPS: O26 (04 R98, R101, R102; 20 R365, Table 20.2). -/

namespace Sys2Proof.Machine

theorem exec_gets (o : GSo) (s : State) : exec (.gets o) s = execGets o s := rfl
theorem exec_sets (o : SSo) (s : State) : exec (.sets o) s = execSets o s := rfl
theorem exec_swaps (o : SWo) (s : State) : exec (.swaps o) s = execSwaps o s := rfl

/-! ### Refused writes (R102) -/

theorem writeReg_noWrite {s : State} {n : Nat} (v : Word) (h : noWrite (privOf s s.h) n = true) :
    writeReg s n v = .error (privTrap n) := if_pos h

/-- A register that refuses every write has no record to read. -/
theorem refusedFills_noWrite {s : State} {n : Nat} (v : Word) (h : noWrite (privOf s s.h) n = true) : refusedFills s n v = [] :=
  if_neg fun hn => by simp [h] at hn

theorem refusedFills_of_ne {s : State} {n : Nat} (v : Word) (h : n ≠ 0x440) : refusedFills s n v = [] :=
  if_neg fun hn => h hn.1

/-- The Steading's registers have their user view, which refuses only a nonzero value of a field (R102). -/
theorem writeReg_stead {s : State} {n : Nat} (v : Word) (hp : privOf s s.h = 0) (hlo : 0x280 ≤ n) (hhi : n ≤ 0x285) :
    writeReg s n v = if v &&& steadFields n = 0 then .ok [] else .error (privTrap n) := by
  have hview : steadView 0 n = true := by simp [steadView, hlo, hhi]
  have hz : zView 0 n = false := by
    have h1 : n ≠ 0x101 := by omega
    have h2 : n ≠ 0x102 := by omega
    simp [zView, hview, h1, h2]
  have hwrite : noWrite 0 n = false := by
    have h1 : ¬ 0x448 ≤ n := by omega
    have h2 : ¬ 0x500 ≤ n := by omega
    simp [noWrite, hz, h1, h2]
  rw [writeReg, hp, hwrite, hview]
  rfl

/-! ### Registers below those of a core -/

section
variable {n : Nat} (h : n < 0x080)
include h

theorem zView_low (priv : Nat) : zView priv n = false := by
  have h1 : n ≠ 0x101 := by omega
  have h2 : n ≠ 0x102 := by omega
  have h3 : ¬ 0x200 ≤ n := by omega
  have h4 : ¬ 0x400 ≤ n := by omega
  simp [zView, h1, h2, h3, h4]

theorem steadView_low (priv : Nat) : steadView priv n = false := by
  have h1 : ¬ 0x280 ≤ n := by omega
  simp [steadView, h1]

theorem noWrite_low (priv : Nat) : noWrite priv n = false := by
  have h1 : ¬ 0x448 ≤ n := by omega
  have h2 : ¬ 0x500 ≤ n := by omega
  simp [noWrite, zView_low h, h1, h2]

/-- They have one view for all privileges. -/
theorem readReg_low (s : State) : readReg s n = rawReg s n := by
  have hhid : fleetHidden (privOf s s.h) n = false := by
    have h0 : n ≠ 0x500 ∧ n ≠ 0x501 ∧ n ≠ 0x511 ∧ n ≠ 0x512 ∧ n ≠ 0x513 := by omega
    simp [fleetHidden, h0]
  simp [readReg, zView_low h, steadView_low h, hhid]

/-- They are registers of the strand or of its hart. -/
theorem writeReg_low (s : State) (v : Word) : writeReg s n v =
    if n = 0 then .ok (updMe s fun st => { st with fpf := v.setWidth 6 })
    else if n = 1 then accept (v.toNat % 8 != 0 && v.toNat % 8 != 7) n (updMe s fun st => { st with fpm := v.setWidth 3 })
    else if n < 0x010 then .ok (updMe s fun st => { st with lc := tset 0 st.lc (n - 4) v })
    else if n < 0x040 then writeTrapReg s n v
    else writeHartReg s n v := by
  rw [writeReg, noWrite_low h, steadView_low h]
  simp only [Bool.false_eq_true, if_false, if_pos h]

end

/-! ### Registers that read back what was written -/

@[simp] theorem me_app_strand (s : State) (f : Strand → Strand) : ((Upd.strand s.cur f).app s).me = f s.me :=
  strand_app_strand s s.cur f

@[simp] theorem myHart_app_hart (s : State) (f : Hart → Hart) : ((Upd.hart s.h f).app s).myHart = f s.myHart :=
  hart_app_hart s s.h f

/-- A value that register n accepts reads back, and its write reaches no memory. -/
def ReadsBack (s : State) (n : Nat) (v : Word) : Prop :=
  ∃ us, writeReg s n v = .ok us ∧ readReg (applyAll us s) n = v ∧ (applyAll us s).mem = s.mem

section
variable {s : State} {n : Nat} {v : Word}

theorem readsBack_of_strand {f : Strand → Strand} (h : n < 0x080) (hw : writeReg s n v = .ok (updMe s f))
    (hr : rawReg ((Upd.strand s.cur f).app s) n = v) : ReadsBack s n v :=
  ⟨_, hw, (readReg_low h _).trans hr, rfl⟩

theorem readsBack_of_hart {f : Hart → Hart} (h : n < 0x080) (hw : writeReg s n v = .ok (updHart s f))
    (hr : rawReg ((Upd.hart s.h f).app s) n = v) : ReadsBack s n v :=
  ⟨_, hw, (readReg_low h _).trans hr, rfl⟩

theorem readsBack_fpf (h : v.toNat < 64) : ReadsBack s 0 v := by
  refine readsBack_of_strand (by decide) (writeReg_low (by decide) s v) ?_
  have hraw (t : State) : rawReg t 0 = t.me.fpf.setWidth 64 := rfl
  rw [hraw, me_app_strand]
  apply BitVec.eq_of_toNat_eq
  simp only [BitVec.toNat_setWidth]
  omega

theorem readsBack_lc (hlo : 4 ≤ n) (hhi : n ≤ 7) : ReadsBack s n v := by
  have hne0 : n ≠ 0 := by omega
  have hne1 : n ≠ 1 := by omega
  have hlt : n < 0x010 := by omega
  have hraw (t : State) : rawReg t n = tget 0 t.me.lc (n - 4) := by rw [rawReg, if_neg hne0, if_neg hne1, if_pos hlt]
  have hw : writeReg s n v = .ok (updMe s fun st => { st with lc := tset 0 st.lc (n - 4) v }) := by
    rw [writeReg_low (by omega), if_neg hne0, if_neg hne1, if_pos hlt]
  exact readsBack_of_strand (by omega) hw (by rw [hraw, me_app_strand, tget_tset_same])

theorem readsBack_trapReg {f : Strand → Strand} (hlo : 0x010 ≤ n) (hhi : n < 0x040) (hw : writeTrapReg s n v = .ok (updMe s f))
    (hr : trapReg (f s.me) n = v) : ReadsBack s n v := by
  have hne0 : n ≠ 0 := by omega
  have hne1 : n ≠ 1 := by omega
  have hlt : ¬ n < 0x010 := by omega
  have hraw (t : State) : rawReg t n = trapReg t.me n := by rw [rawReg, if_neg hne0, if_neg hne1, if_neg hlt, if_pos hhi]
  refine readsBack_of_strand (by omega) ?_ (by rw [hraw, me_app_strand, hr])
  rw [writeReg_low (by omega), if_neg hne0, if_neg hne1, if_neg hlt, if_pos hhi, hw]

/-- The user view writes these four trap registers too (Table 20.2). -/
theorem readsBack_userTrapReg (hn : n = 0x010 ∧ v.getLsbD 1 = false ∨ n = 0x011 ∨ n = 0x018 ∨ n = 0x019) : ReadsBack s n v := by
  have huser : ¬ (privOf s s.h = 0 ∧ n ≠ 0x010 ∧ n ≠ 0x011 ∧ n ≠ 0x018 ∧ n ≠ 0x019) := by tauto
  rcases hn with ⟨rfl, hbit⟩ | rfl | rfl | rfl
  · refine readsBack_trapReg (f := fun st => { st with tvec := v }) (by decide) (by decide) ?_ rfl
    rw [writeTrapReg, if_neg huser]
    exact if_pos (by rw [hbit]; rfl)
  · exact readsBack_trapReg (f := fun st => { st with tpc := v }) (by decide) (by decide) (if_neg huser) rfl
  · exact readsBack_trapReg (f := fun st => { st with tscr0 := v }) (by decide) (by decide) (if_neg huser) rfl
  · exact readsBack_trapReg (f := fun st => { st with tscr1 := v }) (by decide) (by decide) (if_neg huser) rfl

theorem readsBack_sbase : ReadsBack s 0x040 v := by
  have hraw (t : State) : rawReg t 0x040 = t.myHart.sbase := rfl
  exact readsBack_of_hart (by decide) (writeReg_low (by decide) s v) (by rw [hraw, myHart_app_hart])

theorem readsBack_seed : ReadsBack s 0x041 v := by
  have hraw (t : State) : rawReg t 0x041 = t.myHart.seed := rfl
  exact readsBack_of_hart (by decide) (writeReg_low (by decide) s v) (by rw [hraw, myHart_app_hart])

end

/-! ### The obligation -/

/-- Settles O26: what `writeReg` answers selects the end of SETS and SWAPS, and each register named reads back the field written. -/
theorem stateRegisterAccess : Obligations.StateRegisterAccess := by
  refine ⟨fun s o h => ?gets, fun s o h => ⟨fun us hw => ?sets, fun t hw => ?refused,
    fun hp hlo hhi => ⟨fun hv => ?zero, fun hv => ?stead⟩, fun hn => ?noWrite⟩,
    fun s o h => ⟨fun us hw => ?swaps, fun t hw => ?swapRefused⟩, fun s n v hn => ?reads⟩
  case gets => exact completes_of_issue (exec_gets o s) h rfl
  case sets => exact completes_of_issue (exec_sets o s) h (by rw [hw])
  case refused => exact trapsAfter_of_issue (exec_sets o s) h (by rw [hw])
  case zero =>
    exact completes_pops_of_issue (exec_sets o s) h (by rw [writeReg_stead _ hp hlo hhi, if_pos hv])
  case stead =>
    apply traps_of_trapsAfter
    apply trapsAfter_of_issue (exec_sets o s) h
    rw [writeReg_stead _ hp hlo hhi, if_neg hv, refusedFills_of_ne _ (by omega)]
    rfl
  case noWrite =>
    apply traps_of_trapsAfter
    apply trapsAfter_of_issue (exec_sets o s) h
    rw [writeReg_noWrite _ hn, refusedFills_noWrite _ hn]
    rfl
  case swaps => exact completes_of_issue (exec_swaps o s) h (by rw [hw])
  case swapRefused => exact trapsAfter_of_issue (exec_swaps o s) h (by rw [hw])
  case reads =>
    simp only [List.mem_cons, List.not_mem_nil, or_false] at hn
    rcases hn with ⟨rfl, hv⟩ | ⟨hlo, hhi⟩ | hvec | rfl | rfl | rfl | rfl | rfl
    · exact readsBack_fpf hv
    · exact readsBack_lc hlo hhi
    · exact readsBack_userTrapReg (.inl hvec)
    · exact readsBack_userTrapReg (.inr (.inl rfl))
    · exact readsBack_userTrapReg (.inr (.inr (.inl rfl)))
    · exact readsBack_userTrapReg (.inr (.inr (.inr rfl)))
    · exact readsBack_sbase
    · exact readsBack_seed

end Sys2Proof.Machine
end

section
/-! PROOFS. Scalar loads, prefetch and stores: O11 and O12 (04 R84 to R88, Table 4.3; 02 R47). -/

namespace Sys2Proof.Machine

theorem exec_pref (o : PFo) (s : State) : exec (.pref o) s = execPref o s := rfl

theorem effAddr_eq (f : Form) (a : Word) (off : Int) (n : Nat) :
    effAddr f a off n = a + (if f.hasLit then wrap off else wrap off * BitVec.ofNat 64 n) := by
  rw [effAddr, wrap_add, wrap_toNat]
  split
  · rfl
  · rw [wrap_mul, wrap_natCast]

/-! ### The parts of an access -/

theorem scalarAddr_ok {ea : Word} {n : Nat} (hc : canonical ea.toNat = true) (ha : ea.toNat % n = 0) (r : Run) :
    scalarAddr ea n r = .ok ((), r) := by
  simp only [scalarAddr, M.check, hc, ha, beq_self_eq_true, if_true]
  rfl

theorem scalarAddr_nonCanon {ea : Word} (hc : canonical ea.toNat = false) (n : Nat) (r : Run) :
    scalarAddr ea n r = .error (nonCanon ea, r) :=
  mbind_error (by simp only [M.check, hc, Bool.false_eq_true, if_false]; rfl)

theorem scalarAddr_misaligned {ea : Word} {n : Nat} (hc : canonical ea.toNat = true) (ha : ea.toNat % n ≠ 0) (r : Run) :
    scalarAddr ea n r = .error (misaligned ea, r) := by
  simp only [scalarAddr, M.check, hc, beq_false_of_ne ha, Bool.false_eq_true, if_false, if_true]
  rfl

theorem xlateM_ok {r : Run} {sp : Space} {va kind : Nat} {p : Xl × Run} (h : translate r sp va kind = .ok p) (elem : Nat) :
    xlateM sp va kind elem r = .ok p := by
  rw [xlateM, h]

theorem soundM_ok {r : Run} {l : Loc} {n : Nat} (h : badIn r.s l n = none) (va : Word) (elem : Nat) :
    soundM l n va elem r = .ok ((), r) := by
  rw [soundM, h]

theorem soundM_error {r : Run} {l : Loc} {n k : Nat} (h : badIn r.s l n = some k) (va : Word) (elem : Nat) :
    soundM l n va elem r = .error (badData k va elem, r) := by
  rw [soundM, h]

/-- The bytes of a scalar load that meets no error, performed at its own step or early. -/
theorem readScalarAs_ok {s : State} {x : Xl} {n : Nat} {r : Run} (h : meetsBad r.s x.loc n = false) (old : Bool) (ea : Word) :
    readScalarAs s old x ea n r = .ok (ownBytes s.myHart s.cur x.loc
        (if old then pastOver (s.myHart.pastOf s.cur) x.loc (readBytes r (some s.c) x.loc n).1 else (readBytes r (some s.c) x.loc n).1),
      seenRead (readBytes r (some s.c) x.loc n).2 s.cur x.loc n old) := by
  rw [readScalarAs, mbind_ok (soundM_ok (meetsBad_eq_false.mp h) ea 0)]

/-! ### Loads -/

/-- The page of a translation lets a load be performed early or anew (02 R33; 11 R291). -/
def Xl.free (x : Xl) : Bool := !x.sync && x.cp == 0

/-- The run of a load that has read its bytes: with a register destination it may be performed anew (11 R291). -/
def lateRun (s : State) (d : Dst) (sg : Bool) (x : Xl) (n : Nat) (r : Run) : Run :=
  match d with
  | .x k =>
    if x.free && s.choice.late.testBit 0 && !s.choice.early.testBit 0 then
      r.add (.hart s.h fun h => { h with lateS := h.lateS ++ [⟨s.cur, k, x.loc, n, sg⟩] })
    else r
  | .q _ => r

section
variable {s : State} {o : LDo} {n : Nat} {x : Xl} {r : Run}

theorem plainLoad_ok {ea : Word} (hc : canonical ea.toNat = true) (ha : ea.toNat % n = 0)
    (ht : translate (Run.start s) (spaceOf s s.h) ea.toNat 0 = .ok (x, r)) (hb : meetsBad r.s x.loc n = false) (d : Dst) (sg : Bool) :
    let early := x.free && s.choice.early.testBit 0
    let got := readBytes r (some s.c) x.loc n
    plainLoad s d sg ea n (Run.start s) = .ok
      (ownBytes s.myHart s.cur x.loc (if early then pastOver (s.myHart.pastOf s.cur) x.loc got.1 else got.1),
        lateRun s d sg x n (seenRead got.2 s.cur x.loc n early)) := by
  intro early got
  rw [plainLoad, mbind_ok (scalarAddr_ok hc ha _), mbind_ok (xlateM_ok ht 0)]
  refine (mbind_ok (readScalarAs_ok hb _ ea)).trans ?_
  cases d with
  | q k => rfl
  | x k =>
    unfold lateRun
    by_cases hlate : (x.free && s.choice.late.testBit 0 && !s.choice.early.testBit 0) = true
    · simp only [if_pos hlate]
      exact congrFun (if_pos hlate) _
    · simp only [if_neg hlate]
      exact congrFun (if_neg hlate) _

/-- A load of an aligned, readable and sound address retires with the value of its bytes. -/
theorem load_completes {i : Instr} {sg : Bool} {w : Word} (hx : exec i s = finish s o.form.len (loadAct s o n sg))
    (h : canIssue s .both 0 [o.a] [o.d] [])
    {ea : Word} (hea : srcOf s [o.a] 0 + (if o.form.hasLit then wrap o.off else wrap o.off * BitVec.ofNat 64 n) = ea)
    (hc : canonical ea.toNat = true) (ha : ea.toNat % n = 0)
    (ht : translate (Run.start s) (spaceOf s s.h) ea.toNat 0 = .ok (x, r)) (hb : meetsBad r.s x.loc n = false)
    (hw : let early := x.free && s.choice.early.testBit 0
      let got := readBytes r (some s.c) x.loc n
      loadVal sg n (ownBytes s.myHart s.cur x.loc (if early then pastOver (s.myHart.pastOf s.cur) x.loc got.1 else got.1)) = w) :
    let early := x.free && s.choice.early.testBit 0
    let got := readBytes r (some s.c) x.loc n
    Completes i s o.form.len (popAll s.h [o.a]
      ++ ((lateRun s o.d sg x n (seenRead got.2 s.cur x.loc n early)).out ++ setD s.cur o.d w)) := by
  intro early got
  refine completes_of_issue hx h ?_
  rw [effAddr_eq, hea, ofM_ok (plainLoad_ok hc ha ht hb o.d sg), ← hw]

end

theorem exec_ldb (o : LDo) (s : State) : exec (.ldb o) s = finish s o.form.len (loadAct s o 1 true) := rfl
theorem exec_ldh (o : LDo) (s : State) : exec (.ldh o) s = finish s o.form.len (loadAct s o 2 true) := rfl
theorem exec_ldw (o : LDo) (s : State) : exec (.ldw o) s = finish s o.form.len (loadAct s o 4 true) := rfl
theorem exec_ldd (o : LDo) (s : State) : exec (.ldd o) s = finish s o.form.len (loadAct s o 8 false) := rfl
theorem exec_ldbn (o : LDo) (s : State) : exec (.ldbn o) s = finish s o.form.len (loadAct s o 1 false) := rfl
theorem exec_ldhn (o : LDo) (s : State) : exec (.ldhn o) s = finish s o.form.len (loadAct s o 2 false) := rfl
theorem exec_ldwn (o : LDo) (s : State) : exec (.ldwn o) s = finish s o.form.len (loadAct s o 4 false) := rfl

/-- Settles O11: each load is `loadAct` of its size and extension, and PREF only pops. -/
theorem scalarLoads : Obligations.ScalarLoads := by
  refine ⟨fun s o n x r h hn => ?loads, fun s o h => completes_pops_of_issue (exec_pref o s) h rfl⟩
  case loads =>
    intro ea hc ha ht hb free early got bytes run again v gives
    have hgives {i : Instr} {sg : Bool} {w : Word} (hx : exec i s = finish s o.form.len (loadAct s o n sg))
        (hw : loadVal sg n (ownBytes s.myHart s.cur x.loc bytes) = w) : gives i sg w :=
      load_completes hx h rfl hc ha ht hb hw
    refine ⟨?byte, ?half, ?word, ?double⟩
    case byte => rintro rfl; exact ⟨hgives (exec_ldb o s) rfl, hgives (exec_ldbn o s) rfl⟩
    case half => rintro rfl; exact ⟨hgives (exec_ldh o s) rfl, hgives (exec_ldhn o s) rfl⟩
    case word => rintro rfl; exact ⟨hgives (exec_ldw o s) rfl, hgives (exec_ldwn o s) rfl⟩
    case double => rintro rfl; exact hgives (exec_ldd o s) rfl

/-! ### Stores -/

theorem length_bytes64_take (v : Word) {n : Nat} (h : n ≤ 8) : ((bytes64 v).take n).length = n := by
  simp [bytes64, leBytes, h]

theorem soundFill_ok {c : Nat} {x : Xl} {n : Nat} {r : Run}
    (h : ∀ l, fillLine (r.s.core c) x.loc n = some l → badIn r.s l 64 = none) (ea : Word) : soundFill c x ea n r = .ok ((), r) := by
  unfold soundFill
  split
  next l hl => exact soundM_ok (h l hl) ea 0
  next => rfl

theorem soundFill_error {c k : Nat} {x : Xl} {n : Nat} {r : Run} {l : Loc} (hl : fillLine (r.s.core c) x.loc n = some l)
    (hk : badIn r.s l 64 = some k) (ea : Word) : soundFill c x ea n r = .error (badData k ea 0, r) := by
  rw [soundFill, hl]
  exact soundM_error hk ea 0

/-- The run of a store of the strand that moves that is performed in its turn: it follows the held ones, and hides older bytes of the
strip (R47, R88). -/
def performedStore (s : State) (l : Loc) (bs : List Byte) (r : Run) : Run :=
  let done := storeLoc (flushHeld r s.cur) s.cur l bs
  if s.isExec && stripMeets s.myHart.strip l bs.length
  then done.add (.hart s.h fun h => { h with strip := stripHide h.strip l bs.length }) else done

/-- The run of a store that its turn holds (R47). -/
def heldStore (s : State) (l : Loc) (bs : List Byte) (r : Run) : Run :=
  r.add (holdStores s [{ loc := l, bytes := bs, older := if s.isExec then s.myHart.strip.length else 0 }])

theorem writeScalar_held {s : State} (h : s.holds = true) (x : Xl) (bs : List Byte) (r : Run) :
    writeScalar s x bs r = .ok ((), heldStore s x.loc bs r) := by
  rw [writeScalar, if_pos h, heldStore]

theorem writeScalar_performed {s : State} (h : s.holds = false) (x : Xl) (bs : List Byte) (r : Run) :
    writeScalar s x bs r = .ok ((), performedStore s x.loc bs r) := by
  rw [writeScalar, if_neg (by rw [h]; decide), performedStore]

section
variable {s : State} {ea : Word} {bs : List Byte} {x : Xl} {r : Run}

theorem scalarStore_nonCanon (hc : canonical ea.toNat = false) (bs : List Byte) :
    scalarStore s ea bs (Run.start s) = .error (nonCanon ea, Run.start s) := mbind_error (scalarAddr_nonCanon hc _ _)

theorem scalarStore_misaligned (hc : canonical ea.toNat = true) (ha : ea.toNat % bs.length ≠ 0) :
    scalarStore s ea bs (Run.start s) = .error (misaligned ea, Run.start s) := mbind_error (scalarAddr_misaligned hc ha _)

variable (hc : canonical ea.toNat = true) (ha : ea.toNat % bs.length = 0)
  (ht : translate (Run.start s) (spaceOf s s.h) ea.toNat 1 = .ok (x, r))
include hc ha ht

/-- After its checks a store goes on with the merging fill. -/
theorem scalarStore_translated : scalarStore s ea bs (Run.start s) =
    (do soundFill s.c x ea bs.length
        writeScalar s x bs : M Unit) r := by
  rw [scalarStore, mbind_ok (scalarAddr_ok hc ha _), mbind_ok (xlateM_ok ht 0)]

theorem scalarStore_badFill {l : Loc} {k : Nat} (hl : fillLine (r.s.core s.c) x.loc bs.length = some l)
    (hk : badIn r.s l 64 = some k) : scalarStore s ea bs (Run.start s) = .error (badData k ea 0, r) := by
  rw [scalarStore_translated hc ha ht, mbind_error (soundFill_error hl hk ea)]

theorem scalarStore_sound (hf : ∀ l, fillLine (r.s.core s.c) x.loc bs.length = some l → badIn r.s l 64 = none) :
    scalarStore s ea bs (Run.start s) = writeScalar s x bs r := by
  rw [scalarStore_translated hc ha ht, mbind_ok (soundFill_ok hf ea)]

end

theorem exec_stb (o : STo) (s : State) : exec (.stb o) s = finish s o.form.len (storeAct s o 1) := rfl
theorem exec_sth (o : STo) (s : State) : exec (.sth o) s = finish s o.form.len (storeAct s o 2) := rfl
theorem exec_stw (o : STo) (s : State) : exec (.stw o) s = finish s o.form.len (storeAct s o 4) := rfl
theorem exec_std (o : STo) (s : State) : exec (.std o) s = finish s o.form.len (storeAct s o 8) := rfl

/-- Each store is `storeAct` of its size, at most a double. -/
theorem exec_eq_storeAct {o : STo} {n : Nat} {i : Instr} (hi : (n, i) ∈ [(1, Instr.stb o), (2, .sth o), (4, .stw o), (8, .std o)])
    (s : State) : exec i s = finish s o.form.len (storeAct s o n) ∧ n ≤ 8 := by
  simp only [List.mem_cons, Prod.mk.injEq, List.not_mem_nil, or_false] at hi
  rcases hi with ⟨rfl, rfl⟩ | ⟨rfl, rfl⟩ | ⟨rfl, rfl⟩ | ⟨rfl, rfl⟩
  · exact ⟨exec_stb o s, by decide⟩
  · exact ⟨exec_sth o s, by decide⟩
  · exact ⟨exec_stw o s, by decide⟩
  · exact ⟨exec_std o s, by decide⟩

/-- The own part of a store, of the low bytes at its effective address. -/
theorem storeAct_eq_run (s : State) (o : STo) (n : Nat) : storeAct s o n = issue s .both 0 [o.d, o.a] [] [] fun v =>
    Act.run s (scalarStore s (v 1 + (if o.form.hasLit then wrap o.off else wrap o.off * BitVec.ofNat 64 n)) ((bytes64 (v 0)).take n)) := by
  simp only [storeAct, effAddr_eq]

/-- Settles O12: each check of a store selects its trap, and the choice of its turn selects the run that performs or holds it. -/
theorem scalarStores : Obligations.ScalarStores := by
  intro s o n i h hi ea bytes
  obtain ⟨hx, hn⟩ := exec_eq_storeAct hi s
  rw [storeAct_eq_run] at hx
  have hlen : bytes.length = n := length_bytes64_take _ hn
  refine ⟨fun hc => ?nonCanon, fun hc ha => ?misaligned, fun x r hc ha ht => ⟨fun l k hl hk => ?badFill, fun hf => ?sound⟩⟩
  case nonCanon => exact traps_of_trapsAfter (trapsAfter_of_issue hx h (ofM_error (scalarStore_nonCanon hc bytes) _))
  case misaligned =>
    exact traps_of_trapsAfter (trapsAfter_of_issue hx h (ofM_error (scalarStore_misaligned hc (hlen.symm ▸ ha)) _))
  case badFill =>
    exact trapsAfter_of_issue hx h (ofM_error (scalarStore_badFill hc (hlen.symm ▸ ha) ht (hlen.symm ▸ hl) hk) _)
  case sound =>
    intro older done done'
    have hstore : scalarStore s ea bytes (Run.start s) = writeScalar s x bytes r :=
      scalarStore_sound hc (hlen.symm ▸ ha) ht (hlen.symm ▸ hf)
    exact ⟨fun hh => completes_of_issue hx h (ofM_ok (hstore.trans (writeScalar_held hh x bytes r)) _),
      fun hh => completes_of_issue hx h (ofM_ok (hstore.trans (writeScalar_performed hh x bytes r)) _)⟩

end Sys2Proof.Machine
end

section
/-! PROOFS. A state in which every byte is at its home: what its stashes, lanes and lofts do not hold, and reads of plain memory: O14 (09
R225, R232, R237). -/

namespace Sys2Proof.Machine

/-! ### Units of an unheld state -/

theorem tget_mem_or_default {α : Type} (d : α) (t : Tab α) (n : Nat) : (n, tget d t n) ∈ t ∨ tget d t n = d := by
  induction t with
  | nil => exact .inr rfl
  | cons p t ih =>
    obtain ⟨k, w⟩ := p
    rw [tget]
    split_ifs with h1 h2
    · exact .inl (h1 ▸ List.mem_cons_self)
    · exact .inr rfl
    · exact ih.imp_left (List.mem_cons_of_mem _)

theorem mem_tput {α : Type} {t : Tab α} {n : Nat} {v : α} {p : Nat × α} (h : p ∈ tput t n v) : p ∈ t ∨ p = (n, v) := by
  induction t with
  | nil => exact .inr (List.mem_singleton.mp h)
  | cons q t ih =>
    obtain ⟨k, w⟩ := q
    rw [tput] at h
    split_ifs at h
    · exact (List.mem_cons.mp h).symm
    · exact (List.mem_cons.mp h).symm.imp_left (List.mem_cons_of_mem _)
    · rcases List.mem_cons.mp h with h | h
      · exact .inl (h ▸ List.mem_cons_self)
      · exact (ih h).imp_left (List.mem_cons_of_mem _)

/-- A core that maps and holds nothing. -/
def Core.unheld (k : Core) : Prop := k.stw = [] ∧ k.stash = [] ∧ k.wc = []

section
variable {s : State} (hs : s.unheld)
include hs

theorem core_unheld (c : Nat) : (s.core c).unheld := by
  rcases tget_mem_or_default ({} : Core) s.cores c with h | h
  · exact hs.1 _ h
  · rw [State.core, h]; exact ⟨rfl, rfl, rfl⟩

theorem stashSlotOf_of_unheld (c va : Nat) : stashSlotOf (s.core c) va = none := by
  obtain ⟨-, hstash, -⟩ := core_unheld hs c
  rw [stashSlotOf, hstash]
  rfl

theorem wcByte_of_unheld (c pa : Nat) : wcByte (s.core c) pa = none := by
  obtain ⟨-, -, hwc⟩ := core_unheld hs c
  rw [wcByte, hwc]
  rfl

theorem stashHolder_of_unheld (pa : Nat) : stashHolder s pa = none := by
  have hcores : s.cores.findSome? (fun c => stashHeld c.2 pa) = none := by
    rw [List.findSome?_eq_none_iff]
    intro k hk
    obtain ⟨hstw, -, -⟩ := hs.1 k hk
    rw [stashHeld, hstw]
    rfl
  rw [stashHolder, hcores]
  dsimp only
  rw [List.findSome?_eq_none_iff]
  intro l hl
  rw [hs.2 l hl]
  rfl

theorem homeByte_of_unheld (pa : Nat) : homeByte s none pa = s.byte pa := by
  simp only [homeByte, stashHolder_of_unheld hs, keyOf, ite_self]

end

/-! ### Reads -/

theorem readByte_of_unheld {r : Run} (hs : r.s.unheld) (core : Option Nat) (va pa : Nat) :
    readByte r core (.mem va pa none) = (r.s.byte pa, r) := by
  cases core with
  | none => rw [readByte, homeByte_of_unheld hs]
  | some c => simp only [readByte, stashSlotOf_of_unheld hs, wcByte_of_unheld hs, homeByte_of_unheld hs]

theorem readBytes_of_unheld {r : Run} (hs : r.s.unheld) (core : Option Nat) (va pa n : Nat) :
    readBytes r core (.mem va pa none) n = ((List.range n).map fun i => r.s.byte (pa + i), r) := by
  induction n generalizing va pa with
  | zero => rfl
  | succ n ih =>
    have hrest := ih (va + 1) (pa + 1)
    simp only [readBytes, readByte_of_unheld hs, Loc.plus, hrest, List.range_succ_eq_map, List.map_cons, List.map_map, Nat.add_zero]
    congr 3
    funext i
    simp only [Function.comp]
    congr 1
    omega

/-- Settles O14: nothing stands between a read and memory. -/
theorem plainReads : Obligations.PlainReads := fun s core va pa n hs => readBytes_of_unheld (r := Run.start s) hs core va pa n

end Sys2Proof.Machine
end

section
/-! PROOFS. Runs that go on by updates of one kind, and the translation of an address, which goes on by updates of the module's own state
only (09 R225 to R230). -/

namespace Sys2Proof.Machine

/-! ### Runs that go on by updates of one kind -/

/-- Run r' is run r with more updates, each of which meets P. -/
def Run.Steps (P : Upd → Prop) (r r' : Run) : Prop :=
  ∃ us : List Upd, (∀ u ∈ us, P u) ∧ r'.us = us.reverse ++ r.us ∧ r'.s = applyAll us r.s

section
variable {P Q : Upd → Prop} {r r' r'' : Run}

theorem Run.Steps.refl (P : Upd → Prop) (r : Run) : r.Steps P r := ⟨[], by simp, rfl, rfl⟩

theorem Run.Steps.trans (h : r.Steps P r') (h' : r'.Steps P r'') : r.Steps P r'' := by
  obtain ⟨us, hP, hus, hs⟩ := h
  obtain ⟨vs, hQ, hvs, ht⟩ := h'
  exact ⟨us ++ vs, List.forall_mem_append.mpr ⟨hP, hQ⟩, by rw [hvs, hus, List.reverse_append, List.append_assoc],
    by rw [ht, hs, applyAll_append]⟩

theorem Run.Steps.mono (h : r.Steps P r') (hPQ : ∀ u, P u → Q u) : r.Steps Q r' := by
  obtain ⟨us, hP, hus, hs⟩ := h
  exact ⟨us, fun u hu => hPQ u (hP u hu), hus, hs⟩

theorem Run.steps_add {u : Upd} (h : P u) (r : Run) : r.Steps P (r.add u) := ⟨[u], by simp [h], rfl, rfl⟩

theorem Run.steps_fill {u : Upd} (h : P u) (r : Run) : r.Steps P (r.fill u) := ⟨[u], by simp [h], rfl, rfl⟩

theorem Run.steps_foldl {α : Type} {f : Run → α → Run} {l : List α} (h : ∀ a ∈ l, ∀ r : Run, r.Steps P (f r a)) (r : Run) :
    r.Steps P (l.foldl f r) := by
  induction l generalizing r with
  | nil => exact .refl P r
  | cons a l ih =>
    obtain ⟨ha, hl⟩ := List.forall_mem_cons.mp h
    exact (ha r).trans (ih hl _)

/-- A fold of steps that do nothing. -/
theorem foldl_eq_self {α β : Type} {f : β → α → β} {l : List α} (r : β) (h : ∀ a ∈ l, f r a = r) : l.foldl f r = r := by
  induction l with
  | nil => rfl
  | cons a l ih =>
    obtain ⟨ha, hl⟩ := List.forall_mem_cons.mp h
    rw [List.foldl_cons, ha, ih hl]

end

/-! ### Translation -/

/-- An update of the module's own state. -/
def Upd.IsDev (u : Upd) : Prop := ∃ f, u = .dev f

section
variable {r r' : Run} {x : Xl} {e : Word} {size : Nat}

theorem fillTlb_steps {sp : Space} {va : Nat} (h : fillTlb r sp va = .ok (e, size, r')) : r.Steps Upd.IsDev r' := by
  unfold fillTlb at h
  split_ifs at h
  split at h
  next => cases h
  next =>
    dsimp only at h
    split_ifs at h <;> cases h
    · exact (Run.steps_fill ⟨_, rfl⟩ r).trans (Run.steps_fill ⟨_, rfl⟩ _)
    · exact Run.steps_fill ⟨_, rfl⟩ r

theorem leafOf_steps {sp : Space} {va : Nat} (h : leafOf r sp va = .ok (e, size, r')) : r.Steps Upd.IsDev r' := by
  unfold leafOf at h
  split_ifs at h
  split at h
  next => cases h; exact .refl _ r
  next => exact fillTlb_steps h

theorem translateMem_steps {sp : Space} {va kind : Nat} {check : Bool} (h : translateMem r sp va kind check = .ok (x, r')) :
    r.Steps Upd.IsDev r' := by
  unfold translateMem at h
  split at h
  next => split_ifs at h; cases h; exact .refl _ r
  next =>
    split at h
    next => cases h
    next hl =>
      split at h
      next => cases h
      next => cases h; exact leafOf_steps hl

theorem translateStash_steps {sp : Space} {t : StashSlot} {off : Nat} (h : translateStash r sp t off = .ok (x, r')) :
    r.Steps Upd.IsDev r' := by
  unfold translateStash at h
  dsimp only at h
  split at h
  next => cases h; exact .refl _ r
  next =>
    split at h
    next => cases h
    next hm => cases h; exact translateMem_steps hm

theorem translateAny_steps {sp : Space} {va kind : Nat} (h : translateAny r sp va kind = .ok (x, r')) : r.Steps Upd.IsDev r' := by
  unfold translateAny at h
  dsimp only at h
  split_ifs at h
  · split at h
    next => exact translateStash_steps h
    next => cases h; exact .refl _ r
  · cases h; exact .refl _ r
  · exact translateMem_steps h

/-- A translation makes fills and claims, and nothing else (R230). -/
theorem translate_steps {sp : Space} {va kind : Nat} (h : translate r sp va kind = .ok (x, r')) : r.Steps Upd.IsDev r' := by
  unfold translate at h
  split at h
  next => cases h
  next ha =>
    split_ifs at h
    cases h
    exact translateAny_steps ha

end

end Sys2Proof.Machine
end

section
/-! PROOFS. A scalar store to plain memory changes the stored bytes and no other byte: O13 (04 R84, R86; 09 R225, R233, R234). -/

namespace Sys2Proof.Machine

/-! ### What a store leaves alone -/

/-- A hart without the earlier values that its loads may return (11 R291, R293). -/
def Hart.butPast (h : Hart) : Hart := { h with past := [], pastA := [], pastX := [] }

theorem eq_of_butPast_eq {a b : Hart} (h : b.butPast = a.butPast) :
    { b with past := a.past, pastA := a.pastA, pastX := a.pastX } = a :=
  congrArg (fun k : Hart => { k with past := a.past, pastA := a.pastA, pastX := a.pastX }) h

/-- What the store of a strand of hart h leaves alone besides memory. -/
structure StoreKeeps (h : Nat) (s t : State) : Prop where
  strands : t.strands = s.strands
  parts : t.parts = s.parts
  lofts : t.lofts = s.lofts
  unheld : s.unheld → t.unheld
  others : ∀ k, k ≠ h → (t.hart k).butPast = (s.hart k).butPast
  queues : (t.hart h).q = (s.hart h).q

theorem StoreKeeps.refl (h : Nat) (s : State) : StoreKeeps h s s := ⟨rfl, rfl, rfl, id, fun _ _ => rfl, rfl⟩

theorem StoreKeeps.trans {h : Nat} {s t u : State} (a : StoreKeeps h s t) (b : StoreKeeps h t u) : StoreKeeps h s u where
  strands := b.strands.trans a.strands
  parts := b.parts.trans a.parts
  lofts := b.lofts.trans a.lofts
  unheld := b.unheld ∘ a.unheld
  others := fun k hk => (b.others k hk).trans (a.others k hk)
  queues := b.queues.trans a.queues

/-- An update that a store of hart h may make besides that of its bytes. -/
def Upd.BesideStore (h : Nat) (u : Upd) : Prop := ∀ s : State, (u.app s).mem = s.mem ∧ StoreKeeps h s (u.app s)

section
variable {h : Nat}

theorem besideStore_applyAll {us : List Upd} (hus : ∀ u ∈ us, u.BesideStore h) (s : State) :
    (applyAll us s).mem = s.mem ∧ StoreKeeps h s (applyAll us s) := by
  induction us generalizing s with
  | nil => exact ⟨rfl, .refl h s⟩
  | cons u us ih =>
    obtain ⟨hu, hus⟩ := List.forall_mem_cons.mp hus
    obtain ⟨hmem, hkeeps⟩ := hu s
    obtain ⟨hmem', hkeeps'⟩ := ih hus (u.app s)
    exact ⟨hmem'.trans hmem, hkeeps.trans hkeeps'⟩

theorem besideStore_dev (h : Nat) (f : Dev → Dev) : (Upd.dev f).BesideStore h :=
  fun _ => ⟨rfl, rfl, rfl, rfl, id, fun _ _ => rfl, rfl⟩

theorem besideStore_of_isDev {u : Upd} (hu : u.IsDev) : u.BesideStore h := by
  obtain ⟨f, rfl⟩ := hu
  exact besideStore_dev h f

theorem besideStore_slot (h k : Nat) (f : Slot → Slot) : (Upd.slot k f).BesideStore h :=
  fun _ => ⟨rfl, rfl, rfl, rfl, id, fun _ _ => rfl, rfl⟩

/-- An update of a core that leaves its stash and lanes as they are. -/
theorem besideStore_core (c : Nat) {f : Core → Core} (hf : ∀ k : Core, k.unheld → (f k).unheld) : (Upd.core c f).BesideStore h := by
  refine fun s => ⟨rfl, rfl, rfl, rfl, fun hs => ⟨fun k hk => ?_, hs.2⟩, fun _ _ => rfl, rfl⟩
  rcases mem_tput hk with hk | rfl
  · exact hs.1 k hk
  · exact hf _ (core_unheld hs c)

/-- An update of the store's own hart that leaves its queues as they are. -/
theorem besideStore_hart {f : Hart → Hart} (hf : ∀ k : Hart, (f k).q = k.q) : (Upd.hart h f).BesideStore h := by
  refine fun s => ⟨rfl, rfl, rfl, rfl, id, fun k hk => ?_, ?_⟩
  · rw [hart_app_hart_ne s f hk]
  · rw [hart_app_hart, hf]

/-- Reading a table whose values have been changed where they stand. -/
theorem tget_map_value {α : Type} {R : α → α → Prop} {d : α} {g : Nat × α → Nat × α} (hd : R d d)
    (hkey : ∀ p, (g p).1 = p.1) (hval : ∀ p, R p.2 (g p).2) (t : Tab α) (n : Nat) : R (tget d t n) (tget d (t.map g) n) := by
  induction t with
  | nil => exact hd
  | cons p t ih =>
    simp only [List.map_cons, tget, hkey]
    split_ifs
    · exact hval p
    · exact hd
    · exact ih

/-- The bytes that `keepPast` keeps for the harts of core c: the doubles that the write meets, as they are. -/
def keptOf (r : Run) (l : Loc) (n c : Nat) : List (Nat × Byte) :=
  (List.range ((l.key + n + 7) / 8 * 8 - l.double.key)).map fun i => (l.double.pastKey + i, placeByte r.s c (l.double.plus i))

/-- Keeping earlier values changes nothing but those of the harts (11 R291, R293). -/
theorem keepPast_steps (r : Run) (p : Nat → Bool) (l : Loc) (n : Nat) : r.Steps (Upd.BesideStore h) (keepPast r p l n) := by
  unfold keepPast
  split_ifs
  · exact .refl _ r
  · refine Run.steps_add (fun s => ?_) r
    have hpast (k : Nat) := tget_map_value (R := fun a b : Hart => b.butPast = a.butPast) (d := {}) (g := fun x =>
        if p (x.1 / 4) then (x.1, { x.2 with
          past := (keptOf r l n (x.1 / 4)).foldl (fun t p => tput t p.1 p.2) x.2.past,
          pastA := (keptOf r l n (x.1 / 4)).foldl (fun t p => tput t p.1 p.2) x.2.pastA,
          pastX := (keptOf r l n (x.1 / 4)).foldl (fun t p => tput t p.1 p.2) x.2.pastX }) else x)
      rfl (fun x => by split_ifs <;> rfl) (fun x => by split_ifs <;> rfl) s.harts k
    have hqueues := congrArg Hart.q (hpast h)
    exact ⟨rfl, rfl, rfl, rfl, id, fun k _ => hpast k, hqueues⟩

theorem dropL1_steps (r : Run) (line : Nat) : r.Steps (Upd.BesideStore h) (dropL1 r line) := by
  unfold dropL1
  refine Run.steps_foldl (fun c _ r => ?_) r
  split_ifs
  · exact Run.steps_add (besideStore_core c.1 (by exact fun _ hk => hk)) r
  · exact .refl _ r

theorem breakResv_steps (r : Run) (pa n : Nat) : r.Steps (Upd.BesideStore h) (breakResv r pa n) :=
  Run.steps_foldl (fun p _ r => Run.steps_add (besideStore_slot h p.1 _) r) r

theorem monCount_steps (r : Run) (c va : Nat) (bs : List Byte) : r.Steps (Upd.BesideStore h) (monCount r c va bs) := by
  unfold monCount
  split_ifs
  · exact Run.steps_add (besideStore_core c (by exact fun _ hk => hk)) r
  · exact .refl _ r

theorem seenOwn_steps (r : Run) (n : Nat) (l : Loc) (k : Nat) : r.Steps (Upd.BesideStore (n / 2)) (seenOwn r n l k) := by
  unfold seenOwn
  split
  · exact .refl _ r
  · refine Run.steps_add (besideStore_hart fun q => ?_) r
    simp only [seenScalar, setPast]
    split_ifs <;> rfl

theorem Run.Steps.unheld {r r' : Run} (h' : r.Steps (Upd.BesideStore h) r') (hs : r.s.unheld) : r'.s.unheld := by
  obtain ⟨us, hus, -, hr⟩ := h'
  rw [hr]
  exact (besideStore_applyAll hus r.s).2.unheld hs

/-! ### A write to plain memory -/

/-- A core that holds no stash word has none to write back. -/
theorem evictLine_of_stw_nil {k : Core} (hk : k.stw = []) (r : Run) (pa : Nat) (p : Nat → Bool) (upd : (Core → Core) → Upd) :
    evictLine r pa k p upd = r := by
  rw [evictLine, hk]
  rfl

/-- Where no stash holds anything, only the L1s lose the line (09 R234). -/
theorem evictOthers_of_unheld {r : Run} (hs : r.s.unheld) (own : Option (Nat × Nat)) (pa : Nat) :
    evictOthers r own pa = dropL1 r (pa / 64) := by
  have hs' : (dropL1 r (pa / 64)).s.unheld := (dropL1_steps (h := 0) r (pa / 64)).unheld hs
  unfold evictOthers
  dsimp only
  rw [foldl_eq_self (dropL1 r (pa / 64)) fun c hc => evictLine_of_stw_nil (hs'.1 c hc).1 _ _ _ _]
  exact foldl_eq_self _ fun l hl => by rw [hs'.2 l hl]

/-- A write within one line of plain memory is one update of memory, after updates of other kinds. -/
theorem putHome_of_unheld {r : Run} (hs : r.s.unheld) {pa : Nat} {bs : List Byte} (hne : bs ≠ []) (hline : pa % 64 + bs.length ≤ 64) :
    ∃ r1, r.Steps (Upd.BesideStore h) r1 ∧ putHome r none pa bs = r1.add (.mem pa bs) := by
  have hkeep := keepPast_steps (h := h) r (fun _ => true) (.mem pa pa none) bs.length
  have htake : bs.take (64 - pa % 64) = bs := List.take_of_length_le (by omega)
  have hdrop : bs.drop (64 - pa % 64) = [] := List.drop_eq_nil_of_le (by omega)
  have hempty : bs.isEmpty = false := List.isEmpty_eq_false_iff.mpr hne
  refine ⟨_, hkeep.trans ((dropL1_steps _ (pa / 64)).trans (breakResv_steps _ pa bs.length)), ?_⟩
  have hrest (n : Nat) (r : Run) (a : Nat) : homeWrite none n r a [] = r := by cases n <;> rfl
  rw [putHome, homeWrite]
  simp only [hempty, htake, hdrop, evictOthers_of_unheld (hkeep.unheld hs), Bool.false_eq_true, if_false, hrest,
    homeWriteLine, keyOf, ite_self]

/-! ### The store -/

/-- A strand that holds no store has none to perform first. -/
theorem flushHeld_of_nil {r : Run} {n : Nat} (hh : (r.s.hart (n / 2)).heldBy n = []) : flushHeld r n = r := by
  rw [flushHeld, flushDue, hh]
  rfl

/-- A store to a plain location whose frame is not compressed is written at its home (09 R225). -/
theorem writeLoc_of_unheld {r : Run} (hs : r.s.unheld) (c va : Nat) {pa : Nat} (hplain : frameAttr r.s (pa / 4096) ≠ some true)
    (bs : List Byte) : writeLoc r (some c) (.mem va pa none) bs = putHome r none pa bs := by
  simp only [writeLoc, stashSlotOf_of_unheld hs, beq_false_of_ne hplain, Bool.and_false, Bool.false_eq_true, if_false]

/-- The run of a store to plain memory is one update of memory among updates of other kinds. -/
theorem performedStore_plain {s : State} {r : Run} (hs : r.s.unheld) (hh : (r.s.hart s.h).heldBy s.cur = []) {va pa : Nat}
    (hplain : frameAttr r.s (pa / 4096) ≠ some true) {bs : List Byte} (hne : bs ≠ []) (hline : pa % 64 + bs.length ≤ 64) :
    ∃ r1, r.Steps (Upd.BesideStore s.h) r1
      ∧ (r1.add (.mem pa bs)).Steps (Upd.BesideStore s.h) (performedStore s (.mem va pa none) bs r) := by
  obtain ⟨r1, hr1, hput⟩ := putHome_of_unheld (h := s.h) hs hne hline
  have hstore : (r1.add (.mem pa bs)).Steps (Upd.BesideStore s.h) (storeLoc (flushHeld r s.cur) s.cur (.mem va pa none) bs) := by
    rw [storeLoc, flushHeld_of_nil hh, writeLoc_of_unheld hs _ va hplain, hput]
    exact (monCount_steps _ _ _ _).trans (seenOwn_steps _ s.cur _ _)
  refine ⟨r1, hr1, ?_⟩
  unfold performedStore
  dsimp only
  split
  · exact hstore.trans (Run.steps_add (besideStore_hart (by exact fun _ => rfl)) _)
  · exact hstore

/-- The updates of a run with one update of another kind in their midst. -/
theorem out_of_steps {P : Upd → Prop} {s : State} {r1 r2 : Run} {u : Upd} (h1 : (Run.start s).Steps P r1)
    (h2 : (r1.add u).Steps P r2) : ∃ us vs, (∀ v ∈ us, P v) ∧ (∀ v ∈ vs, P v) ∧ r2.out = us ++ u :: vs := by
  obtain ⟨us, hus, hout1, -⟩ := h1
  obtain ⟨vs, hvs, hout2, -⟩ := h2
  refine ⟨us, vs, hus, hvs, ?_⟩
  simp [Run.out, hout2, Run.add, hout1, Run.start]

/-- One update of memory among updates of other kinds changes its bytes and nothing that a store leaves alone. -/
theorem storeKeeps_applyAll {us vs : List Upd} (hus : ∀ v ∈ us, v.BesideStore h) (hvs : ∀ v ∈ vs, v.BesideStore h) (pa : Nat)
    (bs : List Byte) (s : State) : (applyAll (us ++ .mem pa bs :: vs) s).mem = writeBytes s.mem pa bs
      ∧ StoreKeeps h s (applyAll (us ++ .mem pa bs :: vs) s) := by
  obtain ⟨hmem, hkeeps⟩ := besideStore_applyAll hus s
  have hwrite : StoreKeeps h (applyAll us s) ((Upd.mem pa bs).app (applyAll us s)) := ⟨rfl, rfl, rfl, id, fun _ _ => rfl, rfl⟩
  obtain ⟨hmem', hkeeps'⟩ := besideStore_applyAll hvs ((Upd.mem pa bs).app (applyAll us s))
  rw [applyAll_append, applyAll_cons]
  exact ⟨by rw [hmem', app_mem_mem, hmem], hkeeps.trans (hwrite.trans hkeeps')⟩

end

/-! ### The obligation -/

theorem harts_of_isDev {us : List Upd} (hus : ∀ u ∈ us, u.IsDev) (s : State) : (applyAll us s).harts = s.harts := by
  induction us generalizing s with
  | nil => rfl
  | cons u us ih =>
    obtain ⟨⟨f, hf⟩, hus⟩ := List.forall_mem_cons.mp hus
    rw [applyAll_cons, ih hus, hf]
    rfl

/-- Pops reach no strand, no memory and no unit but the hart. -/
theorem sameUnits_pops (s : State) (srcs : List Src) : sameUnits s (applyAll (popAll s.h srcs) s) s.cur :=
  sameUnits_applyAll (ownOf_popAll s.cur srcs) (sameUnits_refl s s.cur)

/-- An aligned access of one, two, four or eight bytes stays within its line. -/
theorem line_of_aligned {pa n : Nat} (hn : n ∈ [1, 2, 4, 8]) (ha : pa % n = 0) : pa % 64 + n ≤ 64 := by
  simp only [List.mem_cons, List.not_mem_nil, or_false] at hn
  rcases hn with rfl | rfl | rfl | rfl <;> omega

/-- What an instruction leaves alone whose effects, after its pops, are those of a store. -/
theorem storeFrame_retired {s w : State} {srcs : List Src} (len : Nat) (hw : StoreKeeps s.h (applyAll (popAll s.h srcs) s) w) :
    let t := retired w s.cur len none
    t.parts = s.parts ∧ t.lofts = s.lofts ∧ (∀ m, m ≠ s.cur → t.strand m = s.strand m)
    ∧ (∀ h, h ≠ s.h → (t.hart h).butPast = (s.hart h).butPast) ∧ sameControl s.me (t.strand s.cur)
    ∧ (∀ q, getX (t.strand s.cur) q = getX s.me q)
    ∧ (∀ q, ¬ namesQueue q srcs none → (t.hart s.h).queue q = s.myHart.queue q) := by
  intro t
  obtain ⟨-, hlofts, -, hparts, -, -, -, -, -, -, -, -, -, hharts⟩ := sameUnits_pops s srcs
  obtain ⟨-, hlofts', -, hparts', -, -, -, -, -, -, -, -, hstrands', hharts'⟩ :=
    sameUnits_retired (n := s.cur) len none (sameUnits_refl w s.cur)
  have hstrand (m : Nat) : w.strand m = s.strand m := by
    rw [State.strand, hw.strands]
    exact strand_applyAll_popAll s.h m srcs s
  refine ⟨hparts'.trans (hw.parts.trans hparts), hlofts'.trans (hw.lofts.trans hlofts), fun m hm => ?strands, fun h hh => ?harts,
    ?control, fun q => ?regs, fun q hq => ?queues⟩
  case strands => exact (hstrands' m hm).trans (hstrand m)
  case harts => rw [hharts' h hh, hw.others h hh, hharts h hh]
  case control =>
    apply sameControl_retired
    rw [hstrand]
    exact sameControl_refl _
  case regs => rw [getX_retired, hstrand, State.me]
  case queues =>
    rw [queue_retired, Hart.queue, hw.queues]
    exact queue_popAll_of_not_mem s.h s fun hmem => hq (.inl hmem)

/-- A byte of the state that an instruction leaves whose effects, after its pops, write these bytes of memory. -/
theorem byte_retired_of_mem {s w : State} {srcs : List Src} (len : Nat) {pa : Nat} {bs : List Byte}
    (hw : w.mem = writeBytes (applyAll (popAll s.h srcs) s).mem pa bs) (a : Nat) :
    (retired w s.cur len none).byte a = tget 0 (writeBytes s.mem pa bs) a := by
  have hpops : (applyAll (popAll s.h srcs) s).mem = s.mem := mem_applyAll_of_ownOf (ownOf_popAll s.cur srcs) s
  rw [State.byte, mem_retired, hw, hpops]

/-- Settles O13: the run of the store is one update of memory among updates that reach no byte, no other strand and no queue. -/
theorem storeFrame : Obligations.StoreFrame := by
  intro s t o n i x r va pa h hi ea bytes hc ha ht hloc hpa hplain hs hheld hholds hf hal hx
  have hn : n ∈ [1, 2, 4, 8] := List.mem_map_of_mem (f := Prod.fst) hi
  have hlen : bytes.length = n := length_bytes64_take _ (exec_eq_storeAct hi s).2
  have hline : pa % 64 + bytes.length ≤ 64 := hlen ▸ line_of_aligned hn hpa
  have hne : bytes ≠ [] := fun e => by simp [e] at hlen; simp [← hlen] at hn
  -- the translation leaves every byte at its home and the hart as it is
  have hsteps := translate_steps ht
  have hhart : r.s.hart s.h = s.myHart := by
    obtain ⟨us, hus, -, hrs⟩ := hsteps
    rw [State.hart, hrs, harts_of_isDev hus]
    rfl
  have hfills : (Run.start s).Steps (Upd.BesideStore s.h) r := hsteps.mono fun _ => besideStore_of_isDev
  obtain ⟨r1, h1, h2⟩ := performedStore_plain (s := s) (va := va) (hfills.unheld hs) (hhart ▸ hheld) hplain hne hline
  obtain ⟨us, vs, hus, hvs, hout⟩ := out_of_steps (hfills.trans h1) h2
  obtain ⟨hmem, hkeeps⟩ := storeKeeps_applyAll hus hvs pa bytes (applyAll (popAll s.h [o.d, o.a]) s)
  rw [← hout, ← hloc] at hmem hkeeps
  -- the store retires with this run
  obtain ⟨-, -, hstore⟩ := scalarStores s o n i h hi
  obtain ⟨-, hsound⟩ := hstore x r hc ha ht
  obtain ⟨-, hdone⟩ := hsound hf
  have hdone : Completes i s o.form.len (popAll s.h [o.d, o.a] ++ (performedStore s x.loc bytes r).out) := hdone hholds
  have hends : endsWell s (popAll s.h [o.d, o.a] ++ (performedStore s x.loc bytes r).out) := by
    refine endsWell_of_loopsAligned hal ?_
    rw [applyAll_append, State.strand, hkeeps.strands]
    exact congrArg Strand.loops (strand_applyAll_popAll s.h s.cur _ s)
  have ht : retired (applyAll (performedStore s x.loc bytes r).out (applyAll (popAll s.h [o.d, o.a]) s)) s.cur o.form.len none = t := by
    rw [← applyAll_append]
    exact Host.Outcome.next.inj ((hdone hends).symm.trans hx)
  obtain ⟨hparts, hlofts, hstrands, hharts, hcontrol, hregs, hqueues⟩ := storeFrame_retired o.form.len hkeeps
  have hbyte := byte_retired_of_mem o.form.len hmem
  rw [ht] at hparts hlofts hstrands hharts hcontrol hregs hqueues hbyte
  refine ⟨fun a ha => ?outside, fun k hk => ?stored, hparts, hlofts, hstrands, fun h hh => eq_of_butPast_eq (hharts h hh),
    hcontrol, hregs, hqueues⟩
  case outside =>
    rw [hbyte]
    rcases ha with ha | ha
    · exact tget_writeBytes_lt s.mem pa bytes ha
    · exact tget_writeBytes_ge s.mem pa bytes (hlen ▸ ha)
  case stored =>
    rw [hbyte]
    exact tget_writeBytes_in s.mem pa bytes k hk

end Sys2Proof.Machine
end

section
/-! PROOFS. Atomics, LDA, STL, FENCE, VSYNC and WAITM: O16, O17 and O18 (05 R113 to R125; 02 R47; 09 R232). -/

namespace Sys2Proof.Machine

theorem exec_lda (o : LAo) (s : State) : exec (.lda o) s = execLda o s := rfl
theorem exec_stl (o : SLo) (s : State) : exec (.stl o) s = execStl o s := rfl
theorem exec_fence (o : FNo) (s : State) : exec (.fence o) s = execFence o s := rfl
theorem exec_vsync (f : Form) (sc : Scope) (s : State) : exec (.vsync f sc) s = execVsync f sc s := rfl
theorem exec_waitm (o : WMo) (s : State) : exec (.waitm o) s = execWaitm o s := rfl
theorem exec_waitmWake (n : Nat) (s : State) : exec (.waitmWake n) s = execWaitmWake n s := rfl
theorem exec_waitmTimeout (n : Nat) (s : State) : exec (.waitmTimeout n) s = execWaitmTimeout n s := rfl
theorem exec_amocas (o : CASo) (s : State) : exec (.amocas o) s = execAmocas o s := rfl

/-- An instruction that can issue and whose own part waits. -/
theorem waits_of_issue {s : State} {i : Instr} {len priv : Nat} {cls : SClass} {srcs : List Src} {dsts : List Dst} {plain : List Nat}
    {k : (Nat → Word) → Act} {q : Bool} {us : List Upd} (hx : exec i s = finish s len (issue s cls priv srcs dsts plain k))
    (h : canIssue s cls priv srcs dsts plain) (hk : k (srcOf s srcs) = .wait q us) :
    exec i s = .next (waitAt (applyAll us s) s.cur q) := by
  rw [hx, issue_of_canIssue h, show k (srcVal s.me s.myHart srcs) = _ from hk]
  rfl

/-! ### The address of a synchronising access (R119) -/

theorem check_ok {b : Bool} (h : b = true) (t : TrapInfo) (r : Run) : M.check b t r = .ok ((), r) := by
  rw [M.check, if_pos h]
  rfl

/-- The checks that follow the translation: the page is cacheable, no strip entry meets an atomic, and no stash of another kind maps it. -/
def placeChecks (s : State) (a : Word) (atomic : Bool) (x : Xl) : M Xl := do
  M.check (x.cp == 0) { code := 15, val := a }
  M.check (!atomic || !stripMeets s.myHart.strip x.loc 8) { code := 19, val := a }
  M.check (!stashBad s s.c x) { code := 14, val := a }
  pure x

section
variable {s : State} {a : Word} {x y : Xl} {r0 r1 r : Run}

theorem placeChecks_ok {atomic : Bool} (hcp : x.cp = 0) (hstrip : atomic = true → stripMeets s.myHart.strip x.loc 8 = false)
    (hstash : stashBad s s.c x = false) : placeChecks s a atomic x r = .ok (x, r) := by
  have hconflict : (!atomic || !stripMeets s.myHart.strip x.loc 8) = true := by
    cases atomic with
    | false => rfl
    | true => rw [hstrip rfl]; rfl
  rw [placeChecks, mbind_ok (check_ok (beq_iff_eq.mpr hcp) _ r), mbind_ok (check_ok hconflict _ r),
    mbind_ok (check_ok (by rw [hstash]; rfl) _ r)]
  rfl

theorem anyM_ok {kind : Nat} {p : Xl × Run} (h : translateAny r0 (spaceOf s s.h) a.toNat kind = .ok p) :
    syncAddr.anyM s a kind r0 = .ok p := by
  rw [syncAddr.anyM, h]

variable (ha : a.toNat % 8 = 0) (hcp : x.cp = 0) (hstash : stashBad s s.c x = false)
include ha hcp hstash

/-- LDA and WAITM read, STL writes: one translation. -/
theorem syncAddr_plain {rd wr : Bool} (hone : (rd && wr) = false)
    (ht : translateAny r0 (spaceOf s s.h) a.toNat (if rd then 0 else 1) = .ok (x, r)) : syncAddr s a rd wr r0 = .ok (x, r) := by
  rw [syncAddr, mbind_ok (check_ok (beq_iff_eq.mpr ha) _ _), mbind_ok (anyM_ok ht), hone]
  exact placeChecks_ok (atomic := false) hcp (fun h => absurd h Bool.false_ne_true) hstash

/-- An atomic needs both permissions. -/
theorem syncAddr_atomic (hstrip : stripMeets s.myHart.strip x.loc 8 = false)
    (ht : translateAny r0 (spaceOf s s.h) a.toNat 0 = .ok (x, r1)) (hw : translateAny r1 (spaceOf s s.h) a.toNat 1 = .ok (y, r)) :
    syncAddr s a true true r0 = .ok (x, r) := by
  rw [syncAddr, mbind_ok (check_ok (beq_iff_eq.mpr ha) _ _)]
  refine (mbind_ok (anyM_ok ht)).trans ((mbind_ok (anyM_ok hw)).trans ?_)
  exact placeChecks_ok hcp (fun _ => hstrip) hstash

/-- The read of LDA and of WAITM. -/
theorem syncRead_ok (ht : translateAny r0 (spaceOf s s.h) a.toNat 0 = .ok (x, r)) (hb : meetsBad r.s x.loc 8 = false) :
    let got := readBytes r (some s.c) x.loc 8
    (do let x ← syncAddr s a true false; readScalar s x a 8 : M (List Byte)) r0
      = .ok (ownBytes s.myHart s.cur x.loc got.1, seenRead got.2 s.cur x.loc 8 false) := by
  intro got
  rw [mbind_ok (syncAddr_plain ha hcp hstash (rd := true) (wr := false) rfl ht)]
  exact readScalar_ok hb

end

/-! ### Atomics (R113 to R119) -/

/-- What an atomic reads, after the stores that precede it. -/
def atomicRead (s : State) (l : Loc) (r : Run) : List Byte × Run :=
  readBytes (wcFlush (flushFor l 8 r s.cur) s.c) (some s.c) l 8

/-- The write of an atomic. -/
def atomicWrite (s : State) (l : Loc) (new : Word) (r : Run) : Run :=
  seenOwn (monCount (writeNow r s.c l (bytes64 new)) s.c l.va (bytes64 new)) s.cur l 8

section
variable {s : State} {a : Word} {x : Xl} {r0 r : Run} {f : Word → Option Word}
  (hx : syncAddr s a true true r0 = .ok (x, r)) (hb : meetsBad r.s x.loc 8 = false)
include hx hb

/-- After its checks an atomic reads, and then writes or not. -/
theorem atomicM_eq : atomicM s a f r0 = .ok (word64 (atomicRead s x.loc r).1,
    (f (word64 (atomicRead s x.loc r).1)).elim (atomicRead s x.loc r).2 fun new => atomicWrite s x.loc new (atomicRead s x.loc r).2) := by
  rw [atomicM, mbind_ok hx, mbind_ok (soundM_ok (meetsBad_eq_false.mp hb) a 0)]
  refine (mbind_ok (m := flushAtM s x.loc) rfl).trans
    ((mbind_ok (a := (atomicRead s x.loc r).1) (r' := (atomicRead s x.loc r).2) rfl).trans ?_)
  cases f (word64 (atomicRead s x.loc r).1) with
  | none => rfl
  | some new => rfl

theorem atomicM_keeps (hf : f (word64 (atomicRead s x.loc r).1) = none) :
    atomicM s a f r0 = .ok (word64 (atomicRead s x.loc r).1, (atomicRead s x.loc r).2) := by
  rw [atomicM_eq hx hb, hf, Option.elim_none]

theorem atomicM_writes {new : Word} (hf : f (word64 (atomicRead s x.loc r).1) = some new) :
    atomicM s a f r0 = .ok (word64 (atomicRead s x.loc r).1, atomicWrite s x.loc new (atomicRead s x.loc r).2) := by
  rw [atomicM_eq hx hb, hf, Option.elim_some]

end

/-- An atomic retires with its new value stored and the old one in its destination. -/
theorem amo_completes {s : State} {i : Instr} {o : AMo} {f : Word → Word → Word} {x : Xl} {r : Run} {new : Word}
    (hi : exec i s = finish s o.form.len (amoAct s o f)) (h : canIssue s .both 0 [o.a, o.b] [o.d] [])
    (hx : syncAddr s (srcOf s [o.a, o.b] 0) true true (Run.start s) = .ok (x, r)) (hb : meetsBad r.s x.loc 8 = false)
    (hf : f (word64 (atomicRead s x.loc r).1) (srcOf s [o.a, o.b] 1) = new) :
    Completes i s o.form.len (popAll s.h [o.a, o.b]
      ++ ((atomicWrite s x.loc new (atomicRead s x.loc r).2).out ++ setD s.cur o.d (word64 (atomicRead s x.loc r).1))) := by
  have hwrites := atomicM_writes (f := fun old => some (f old (srcOf s [o.a, o.b] 1))) hx hb (congrArg some hf)
  exact completes_of_issue hi h (ofM_ok hwrites _)

/-- Settles O16: each atomic is `amoAct` of its row of Table 5.1, and AMOCAS writes where its compare value is the old value. -/
theorem atomics : Obligations.Atomics := by
  intro s sc f d sa sb x y r1 r2 h a b ha ht hw hcp hstrip hstash hb got old stored gives o
  have hx : syncAddr s a true true (Run.start s) = .ok (x, r2) := syncAddr_atomic ha hcp hstash hstrip ht hw
  have hgives {i : Instr} {g : Word → Word → Word} {new : Word} (hi : exec i s = finish s f.len (amoAct s o g))
      (hnew : g old b = new) : gives i new := amo_completes hi h hx hb hnew
  refine ⟨?add, ?and, ?or, ?xor, ?min, ?max, ?minn, ?maxn, ?swp, fun k hk => ⟨fun heq => ?swaps, fun hne => ?keeps⟩⟩
  case add => exact hgives (i := .amoadd o) rfl rfl
  case and => exact hgives (i := .amoand o) rfl rfl
  case or => exact hgives (i := .amoor o) rfl rfl
  case xor => exact hgives (i := .amoxor o) rfl rfl
  case min => exact hgives (i := .amomin o) rfl (ite_toInt_lt b old b old)
  case max => exact hgives (i := .amomax o) rfl (ite_toInt_lt old b b old)
  case minn => exact hgives (i := .amominn o) rfl (ite_toNat_lt b old b old)
  case maxn => exact hgives (i := .amomaxn o) rfl (ite_toNat_lt old b b old)
  case swp => exact hgives (i := .amoswp o) rfl rfl
  case swaps =>
    subst hk
    exact completes_of_issue (exec_amocas ⟨f, sc, k, sa, sb⟩ s) h (ofM_ok (atomicM_writes hx hb (if_pos heq)) _)
  case keeps =>
    subst hk
    exact completes_of_issue (exec_amocas ⟨f, sc, k, sa, sb⟩ s) h (ofM_ok (atomicM_keeps hx hb (if_neg hne)) _)

/-! ### Ordered accesses and fences (R118 to R123) -/

/-- After its checks STL performs what is held and then stores. -/
theorem stlM_eq {s : State} {a : Word} {x : Xl} {r0 r : Run} (bs : List Byte) (hx : syncAddr s a false true r0 = .ok (x, r)) :
    (do let x ← syncAddr s a false true; flushM s; writeScalar s x bs : M Unit) r0
      = writeScalar s x bs (wcFlush (flushScalars r s.cur) s.c) := by
  rw [mbind_ok hx]
  exact mbind_ok rfl

/-- Settles O17: LDA and STL are a read and a write after one translation, and FENCE and VSYNC flush what they order. -/
theorem orderedAccessesAndFences : Obligations.OrderedAccessesAndFences := by
  refine ⟨fun s o x r h => ?lda, fun s o x r h => ?stl, fun s o h => ?fence, fun s f sc h => ?vsync⟩
  case lda =>
    intro a ha ht hcp hstash hb got bytes
    exact completes_of_issue (exec_lda o s) h (ofM_ok (syncRead_ok ha hcp hstash ht hb) _)
  case stl =>
    intro a bytes ha ht hcp hstash first older done done'
    have hstl := stlM_eq bytes (syncAddr_plain ha hcp hstash (rd := false) (wr := true) rfl ht)
    exact ⟨fun hh => completes_of_issue (exec_stl o s) h (ofM_ok (hstl.trans (writeScalar_held hh x bytes first)) _),
      fun hh => completes_of_issue (exec_stl o s) h (ofM_ok (hstl.trans (writeScalar_performed hh x bytes first)) _)⟩
  case fence =>
    intro start
    refine ⟨fun he hc => ?waits, fun hgo => ?retires⟩
    case waits => exact waits_of_issue (exec_fence o s) h (if_pos (by rw [he, hc]; rfl))
    case retires =>
      have hgo : ¬ (o.eng && hasCommand s) = true := by rcases hgo with e | e <;> simp [e]
      refine completes_of_issue_nil (exec_fence o s) h ((if_neg hgo).trans ?_)
      split
      · rfl
      · rfl
  case vsync => exact completes_of_issue_nil (exec_vsync f sc s) h rfl

/-! ### WAITM (R124, R125) -/

/-- Settles O18: WAITM retires or sleeps by the test of its double and its limit, and both events let the strand read again. -/
theorem waitOnMemory : Obligations.WaitOnMemory := by
  refine ⟨fun s o x r h => ?waitm, fun s n start hon hs => ?wake, fun s n start w o hon hs hnext hext hlimit hpast => ?timeout⟩
  case waitm =>
    intro a b ha ht hcp hstash hb got run w limit now start
    have hread := syncRead_ok ha hcp hstash ht hb
    refine ⟨fun hdone => ?retires, fun heq hlimit => ?sleeps⟩
    case retires => exact completes_of_issue (exec_waitm o s) h ((ofM_ok hread _).trans (if_pos hdone))
    case sleeps =>
      have hwaits : ¬ (w ≠ b ∨ limit ≠ 0 ∧ start + limit ≤ now) := by
        rintro (hne | ⟨hne, hle⟩)
        · exact hne heq
        · omega
      exact waits_of_issue (exec_waitm o s) h ((ofM_ok hread _).trans (if_neg hwaits))
  case wake =>
    rw [Happens, exec_waitmWake, execWaitmWake, wakeWaitm, hs]
    exact event_some hon
  case timeout =>
    have hat : waitmAt s n = some o := by rw [waitmAt, hnext]
    have hlimit : (getX (s.strand n) o.e).toNat ≠ 0 := fun e => hlimit (BitVec.eq_of_toNat_eq e)
    rw [Happens, exec_waitmTimeout, execWaitmTimeout, hs, hat]
    exact (congrArg (event s) (if_pos ⟨hext, hlimit, hpast⟩)).trans (event_some hon)

end Sys2Proof.Machine
end

section
/-! PROOFS. Barriers of a gang: what each instruction of a member does, and the return of a waiting one: O19 and O20 (05 R126 to R135). -/

namespace Sys2Proof.Machine

theorem exec_bari (o : BBo) (s : State) : exec (.bari o) s = execBari o s := rfl
theorem exec_barx (o : BBo) (s : State) : exec (.barx o) s = execBarx o s := rfl
theorem exec_bara (o : BAo) (s : State) : exec (.bara o) s = execBara o s := rfl
theorem exec_barw (o : BBo) (s : State) : exec (.barw o) s = execBarw o s := rfl
theorem exec_barr (o : BAo) (s : State) : exec (.barr o) s = execBarr o s := rfl
theorem exec_barrierWaitReturn (n : Nat) (s : State) : exec (.barrierWaitReturn n) s = execBarrierWaitReturn n s := rfl

section
variable {s : State} {gid : Nat} {g : Gang}

/-! ### Waiting for a phase (R133) -/

section
variable (hg : gangOf s s.h = some (gid, g)) {n : Nat} (phase : Nat) (us fin : List Upd)
include hg

theorem barWait_overrun (ho : (barOf g n).o = true) : barWait s n phase us fin = .part us (barOverrun n) := by
  rw [barWait, hg]
  exact if_pos ho

variable (ho : (barOf g n).o = false) (hd : owedDrift (barOf g n) s.h = none)
include ho hd

/-- With no overrun and no drift trap owed, the phase decides. -/
theorem barWait_sound : barWait s n phase us fin =
    if (barOf g n).phase = phase then .wait false us else .done (us ++ (acquireAll s).out ++ fin) := by
  rw [barWait, hg]
  simp only [ho, hd, Bool.false_eq_true, if_false]

theorem barWait_waits (hp : (barOf g n).phase = phase) : barWait s n phase us fin = .wait false us := by
  rw [barWait_sound hg phase us fin ho hd, if_pos hp]

theorem barWait_returns (hp : (barOf g n).phase ≠ phase) :
    barWait s n phase us fin = .done (us ++ ((acquireAll s).out ++ fin)) := by
  rw [barWait_sound hg phase us fin ho hd, if_neg hp, List.append_assoc]

end

/-- A BARW on a valid barrier without an overrun only waits for its phase to pass. -/
theorem exec_barw_sound {o : BBo} (hg : gangOf s s.h = some (gid, g)) (hv : (barOf g o.n).v = true) (ho : (barOf g o.n).o = false) :
    exec (.barw o) s = finish s o.form.len (issue s .execute 0 [o.b] [] [] fun v => barWait s o.n ((v 0).toNat % 16) [] []) := by
  rw [exec_barw, execBarw, hg]
  simp only [hv, ho, Bool.not_true, Bool.false_eq_true, if_false]

/-- A BARW whose phase is over returns, with an acquire. -/
theorem barw_completes {o : BBo} (hg : gangOf s s.h = some (gid, g)) (h : canIssue s .execute 0 [o.b] [] [])
    (hv : (barOf g o.n).v = true) (ho : (barOf g o.n).o = false) (hd : owedDrift (barOf g o.n) s.h = none)
    (hp : (barOf g o.n).phase ≠ (srcOf s [o.b] 0).toNat % 16) :
    Completes (.barw o) s o.form.len (popAll s.h [o.b] ++ (acquireAll s).out) := by
  refine completes_of_issue (exec_barw_sound hg hv ho) h ?_
  rw [barWait_returns hg _ [] [] ho hd hp, List.nil_append, List.append_nil]

/-! ### Arrivals (R129) -/

theorem arriveTrap_strip (hs : s.myHart.strip ≠ []) (n : Nat) : arriveTrap s n = some { code := 18 } := by
  rw [arriveTrap, if_pos (by simpa using hs)]

/-- With an empty strip the barrier decides. -/
theorem arriveTrap_member (hg : gangOf s s.h = some (gid, g)) (hs : s.myHart.strip = []) (n : Nat) :
    arriveTrap s n = if !(barOf g n).v || (barOf g n).arr == (barOf g n).count then some (barState n) else none := by
  rw [arriveTrap, if_neg (by simp [hs]), hg]

theorem arriveTrap_awaiting {n : Nat} (hg : gangOf s s.h = some (gid, g)) (hs : s.myHart.strip = [])
    (hv : (barOf g n).v = true) (hn : (barOf g n).arr ≠ (barOf g n).count) : arriveTrap s n = none := by
  rw [arriveTrap_member hg hs, if_neg (by simp [hv, hn])]

theorem arriveTrap_refused {n : Nat} (hg : gangOf s s.h = some (gid, g)) (hs : s.myHart.strip = [])
    (hb : (barOf g n).v = false ∨ (barOf g n).arr = (barOf g n).count) : arriveTrap s n = some (barState n) := by
  rw [arriveTrap_member hg hs, if_pos (by simpa using hb)]

section
variable {o : BAo}

theorem exec_barr_fresh (h : ∀ p, recordAt (site s.me) s.me.arrived ≠ some (o.n, p)) :
    exec (.barr o) s = finish s o.form.len (issue s .execute 0 [] [o.d] [] fun _ => execBarr.fresh o s) := by
  rw [exec_barr, execBarr]
  split
  next n p hr => rw [if_neg (show ¬ n = o.n from fun e => h p (e ▸ hr))]
  next => rfl

theorem exec_barr_arrived {phase : Nat} (h : recordAt (site s.me) s.me.arrived = some (o.n, phase)) :
    exec (.barr o) s = finish s o.form.len (issue s .execute 0 [] [o.d] [] fun _ =>
      barWait s o.n phase [] (execBarr.back o s phase)) := by
  rw [exec_barr, execBarr, h]
  simp only [if_true]

/-- BARA and a BARR that has not arrived raise the trap of the arrival. -/
theorem arrival_traps {t : TrapInfo} (h : canIssue s .execute 0 [] [o.d] []) (ht : arriveTrap s o.n = some t) :
    Traps (.bara o) s o.form.len t
    ∧ ((∀ p, recordAt (site s.me) s.me.arrived ≠ some (o.n, p)) → Traps (.barr o) s o.form.len t) :=
  ⟨traps_of_issue (exec_bara o s) h (by rw [ht]),
    fun hfresh => traps_of_issue (exec_barr_fresh hfresh) h (by rw [execBarr.fresh, ht])⟩

/-- The effects of a BARR's arrival, whose record waits for the phase to pass (R129, R134). -/
def arrivalUpds (s : State) (gid : Nat) (o : BAo) (phase : Nat) : List Upd :=
  (match o.d with | .x r => setD s.cur (.x r) (BitVec.ofNat 64 phase) | .q _ => [])
  ++ arriveUpds s gid o.n o.chk
  ++ [.strand s.cur fun st => { st with arrived := (o.n, phase, site s.me) :: recordsNotAt (site s.me) st.arrived }]

section
variable (hg : gangOf s s.h = some (gid, g)) (ht : arriveTrap s o.n = none)
include hg ht

theorem barrFresh_overrun (ho : (barOf g o.n).o = true) : execBarr.fresh o s = .trap (barOverrun o.n) := by
  rw [execBarr.fresh, ht, hg]
  exact if_pos ho

theorem barrFresh_arrives (ho : (barOf g o.n).o = false) (hd : owedDrift (barOf g o.n) s.h = none) :
    let us := arrivalUpds s gid o (barOf g o.n).phase
    execBarr.fresh o s = barWait (applyAll us s) o.n (barOf g o.n).phase us (execBarr.back o s (barOf g o.n).phase) := by
  rw [execBarr.fresh, ht, hg]
  simp only [ho, hd, Bool.false_eq_true, if_false]
  rfl

end

/-- A BARR that has arrived returns when its phase is over: an acquire, and the end of its record. -/
theorem barr_completes_arrived {phase : Nat} (hg : gangOf s s.h = some (gid, g)) (h : canIssue s .execute 0 [] [o.d] [])
    (hr : recordAt (site s.me) s.me.arrived = some (o.n, phase)) (ho : (barOf g o.n).o = false)
    (hd : owedDrift (barOf g o.n) s.h = none) (hp : (barOf g o.n).phase ≠ phase) :
    Completes (.barr o) s o.form.len ((acquireAll s).out ++ execBarr.back o s phase) :=
  completes_of_issue_nil (exec_barr_arrived hr) h (barWait_returns hg phase [] _ ho hd hp)

end

end

/-- The condition under which BARX raises the barrier-state fault (R130). -/
theorem expectsNoBytes_iff (b : Barrier) :
    ((!b.v) = true ∨ (!b.b) = true ∨ b.o = true) ↔ b.v = false ∨ b.b = false ∨ b.o = true := by
  simp only [Bool.not_eq_true']

/-- Settles O19: the conditions of R128 to R133 on the value and on the barrier select the trap, the wait or the updates of each. -/
theorem barriers : Obligations.Barriers := by
  intro s gid g hg acquire
  refine ⟨fun o h => ?operand, fun o h => ?arrival⟩
  case operand =>
    intro b w
    have hexpects (hv : b.v = true) (hb : b.b = true) (ho : b.o = false) : ¬ (b.v = false ∨ b.b = false ∨ b.o = true) := by
      simp [hv, hb, ho]
    refine ⟨fun hw => ?value, fun hlow hhigh hw hb => ?init, fun hlow hhigh hw hb ho => ?busy, fun hv hb ho hw hsum => ?expect,
      fun hb => ?refuse, fun hv hb ho hw => ?excess, fun hv ho hd hp => ?returns, fun hv ho hd hp => ?waits,
      fun hv ho => ?invalid, fun ho => ?overrun⟩
    case value => exact traps_of_issue (exec_bari o s) h (by rw [hg]; exact if_pos hw)
    case init => exact completes_of_issue (exec_bari o s) h (by rw [hg]; exact (if_neg (by omega)).trans (if_pos hb))
    case busy =>
      refine traps_of_issue (exec_bari o s) h ?_
      rw [hg]
      exact (if_neg (by omega)).trans (if_neg (not_or.mpr ⟨hb, ne_true_of_eq_false ho⟩))
    case expect =>
      have hroom : ¬ (2 ^ 46 ≤ w ∨ (2 ^ 46 : Int) ≤ b.pend + w) := not_or.mpr ⟨Nat.not_le.mpr hw, Int.not_le.mpr hsum⟩
      refine completes_of_issue (exec_barx o s) h ?_
      rw [hg]
      exact (if_neg ((expectsNoBytes_iff b).not.mpr (hexpects hv hb ho))).trans (if_neg hroom)
    case refuse => exact traps_of_issue (exec_barx o s) h (by rw [hg]; exact if_pos ((expectsNoBytes_iff b).mpr hb))
    case excess =>
      refine traps_of_issue (exec_barx o s) h ?_
      rw [hg]
      exact (if_neg ((expectsNoBytes_iff b).not.mpr (hexpects hv hb ho))).trans (if_pos hw)
    case returns => exact barw_completes hg h hv ho hd hp
    case waits => exact waits_of_issue (exec_barw_sound hg hv ho) h (barWait_waits hg _ [] [] ho hd hp)
    case invalid =>
      refine traps_of_issue (exec_barw o s) h ?_
      rw [hg]
      exact (if_neg (ne_true_of_eq_false ho)).trans (if_pos (congrArg not hv))
    case overrun => exact traps_of_issue (exec_barw o s) h (by rw [hg]; exact if_pos ho)
  case arrival =>
    intro b fresh
    refine ⟨fun hs hv hn => ?awaited, fun hs => arrival_traps h (arriveTrap_strip hs o.n),
      fun hs hb => arrival_traps h (arriveTrap_refused hg hs hb), fun phase hr => ⟨fun ho => ?overrun, fun ho hd hp => ?returns⟩⟩
    case awaited =>
      have ht := arriveTrap_awaiting hg hs hv hn
      exact ⟨completes_of_issue_nil (exec_bara o s) h (by rw [ht, hg]),
        fun hfresh ho => traps_of_issue (exec_barr_fresh hfresh) h (barrFresh_overrun hg ht ho)⟩
    case overrun =>
      exact traps_of_trapsAfter (trapsAfter_of_issue (exec_barr_arrived hr) h (barWait_overrun hg phase [] _ ho))
    case returns => exact barr_completes_arrived hg h hr ho hd hp

/-! ### The return of a waiting strand (R133) -/

/-- A strand that may issue, and that is at a BARW or a BARR and not at a MOD, runs that instruction. -/
theorem barrierWaitReturn_runs {s0 s1 : State} {n : Nat} {i : Instr} (h1 : { s0 with cur := n } = s1)
    (hrun : runnable s1 n = true) (hmod : ∀ m, instrAt s1 s1.h s1.me.pc ≠ some (.mod m)) (hnext : nextInstr s1 n = some i)
    (hi : (∃ o, i = .barw o) ∨ ∃ o, i = .barr o) : exec (.barrierWaitReturn n) s0 = exec i (settle i s1) := by
  rw [exec_barrierWaitReturn, execBarrierWaitReturn]
  -- by `hmod` the test for a MOD takes its second branch
  simp only [h1, hrun, hnext, Bool.not_true, Bool.false_eq_true, if_false]
  rcases hi with ⟨o, rfl⟩ | ⟨o, rfl⟩
  · rfl
  · rfl

/-- Settles O20: the state after the arrival decides whether a BARR returns at once, and the event runs a waiter's own instruction. -/
theorem barrierRoundTrips : Obligations.BarrierRoundTrips := by
  refine ⟨fun s gid g g2 o hg h hfresh hs hv hn ho hd => ?arrives, fun s0 n gid g => ?event⟩
  case arrives =>
    intro phase us t hg2 ho2 hd2
    have hact := barrFresh_arrives hg (arriveTrap_awaiting hg hs hv hn) ho hd
    refine ⟨fun hp => ?returns, fun hp => ?waits⟩
    case returns =>
      have hdone := completes_of_issue_nil (exec_barr_fresh hfresh) h
        (hact.trans (barWait_returns hg2 phase us (execBarr.back o s phase) ho2 hd2 hp))
      rw [List.append_assoc]
      exact hdone
    case waits => exact waits_of_issue (exec_barr_fresh hfresh) h (hact.trans (barWait_waits hg2 phase us _ ho2 hd2 hp))
  case event =>
    intro s1 hrun hmod
    refine ⟨fun o hnext => ?barw, fun o phase hnext => ?barr⟩
    case barw =>
      intro s hg h hv ho hd hp us he
      exact (barrierWaitReturn_runs rfl hrun hmod hnext (.inl ⟨o, rfl⟩)).trans (barw_completes hg h hv ho hd hp he)
    case barr =>
      intro s hg h hr ho hd hp us he
      exact (barrierWaitReturn_runs rfl hrun hmod hnext (.inr ⟨o, rfl⟩)).trans (barr_completes_arrived hg h hr ho hd hp he)

end Sys2Proof.Machine
end

section
/-! PROOFS. Vector configuration, and how a vector instruction ends: O44 (07 R165, R166, R168, R171; 02 R36, R37). -/

namespace Sys2Proof.Machine

/-! ### How a vector instruction ends (R168) -/

section
variable {s : State} {i : Instr} {len : Nat} {c : VSrc} {ok : Ty → Bool} {k : VCtx → (Nat → Nat) → Act} {us : List Upd}
  {t : TrapInfo} (hx : exec i s = finish s len (vecRun s c ok k)) (h : canIssue s .execute 0 (vsrcs c) [] [])
include hx h

theorem completes_of_vecRun (ho : ok (vcx s).ty = true)
    (hk : k (vcx s) (vopnd s (vcx s) c (srcOf s (vsrcs c) 0)) = .done us) : Completes i s len (popAll s.h (vsrcs c) ++ us) :=
  fun he => hx.trans (vecRun_done h ho hk he)

theorem traps_of_vecRun (ho : ok (vcx s).ty = true)
    (hk : k (vcx s) (vopnd s (vcx s) c (srcOf s (vsrcs c) 0)) = .trap t) : Traps i s len t :=
  hx.trans (vecRun_trap h ho hk)

/-- A type that is not accepted is the vector-type fault. -/
theorem traps_of_vecRun_type (ho : ok (vcx s).ty = false) : Traps i s len { code := 23 } :=
  hx.trans (vecRun_bad h ho)

end

section
variable {s : State} {i : Instr} {o : VVo} {ok : Ty → Bool} {f : Ty → Nat → Nat → Nat → Nat → Nat × Flags}
  (hx : exec i s = finish s o.form.len (elemwise s o ok f)) (h : canIssue s .execute 0 (vsrcs o.c) [] [])
include hx h

/-- An elementwise instruction with two sources writes its function of the operands to every active element (R167). -/
theorem completes_of_elemwise (ho : ok (vcx s).ty = true) {g : Nat → Nat × Flags}
    (hg : ∀ e, f (vcx s).ty e ((vcx s).get s o.a (vcx s).ty.bits e) (vopnd s (vcx s) o.c (srcOf s (vsrcs o.c) 0) e)
      ((vcx s).get s o.d (vcx s).ty.bits e) = g e) :
    Completes i s o.form.len (popAll s.h (vsrcs o.c)
      ++ writeResults s (vcx s) o.d (((vcx s).active s o.mask).map fun e => (e, g e))) :=
  fun he => hx.trans (elemwise_done h ho hg he)

theorem traps_of_elemwise (ho : ok (vcx s).ty = false) : Traps i s o.form.len { code := 23 } :=
  traps_of_vecRun_type hx h ho

end

section
variable {s : State} {i : Instr} {o : VUo} {ok : Ty → Bool} {f : Ty → Nat → Nat → Nat × Flags}
  (hx : exec i s = finish s o.form.len (elemwise1 s o ok f)) (h : canIssue s .execute 0 [] [] [])
include hx h

theorem completes_of_elemwise1 (ho : ok (vcx s).ty = true) {g : Nat → Nat × Flags}
    (hg : ∀ e, f (vcx s).ty e ((vcx s).get s o.a (vcx s).ty.bits e) = g e) :
    Completes i s o.form.len (writeResults s (vcx s) o.d (((vcx s).active s o.mask).map fun e => (e, g e))) :=
  fun he => hx.trans (elemwise1_done h ho hg he)

theorem traps_of_elemwise1 (ho : ok (vcx s).ty = false) : Traps i s o.form.len { code := 23 } :=
  traps_of_vecRun_type (c := .v 0) hx h ho

end

/-! ### Configuration (R171) -/

theorem newType_of_code {b : Word} {t : Ty} (hb : b.toNat < 32) (ht : Ty.ofCode b.toNat = some t) : newType b = some t := by
  rw [newType, if_pos (Nat.div_eq_of_lt hb), ht]

theorem newType_refused {b : Word} (h : 32 ≤ b.toNat ∨ Ty.ofCode b.toNat = none) : newType b = none := by
  rw [newType]
  split
  next hb =>
    rcases h with h | h
    · omega
    · exact h
  next => rfl

/-- Settles O44: `newType` tells the codes that VSETT and VSETM accept, and the values are those of Table 7.1. -/
theorem vectorConfiguration : Obligations.VectorConfiguration := by
  refine ⟨fun s o h => ?one, fun s o h => ?both, fun s o h => completes_of_issue rfl h rfl⟩
  case one =>
    intro b u vl
    refine ⟨completes_of_issue rfl h rfl, fun hb => ?refused, fun t hb ht => ?accepted⟩
    case refused =>
      refine traps_of_issue (i := .vsett o) rfl h ?_
      rw [show srcOf s [o.b] 0 = b from rfl, newType_refused hb]
      rfl
    case accepted =>
      refine completes_of_issue (i := .vsett o) rfl h ?_
      rw [show srcOf s [o.b] 0 = b from rfl, newType_of_code hb ht]
      rfl
  case both =>
    intro a b
    refine ⟨fun hb => ?refused, fun t hb ht => ?accepted⟩
    case refused =>
      refine traps_of_issue (i := .vsetm o) rfl h ?_
      rw [show srcOf s [o.a, o.b] 1 = b from rfl, newType_refused hb]
      rfl
    case accepted =>
      refine completes_of_issue (i := .vsetm o) rfl h ?_
      rw [show srcOf s [o.a, o.b] 1 = b from rfl, newType_of_code hb ht]
      rfl

end Sys2Proof.Machine
end

section
/-! PROOFS. Vector integer arithmetic: O45 (07 R183, Table 7.6). -/

namespace Sys2Proof.Machine

/-! ### Results that wrap or saturate -/

theorem rangeI_ordered (t : Ty) : (rangeI t).1 ≤ 0 ∧ 0 ≤ (rangeI t).2 := by cases t <;> decide

/-- A result is clamped, with ST, exactly where it lies outside the range of the type (R183). -/
theorem narrowI_eq (t : Ty) (sat : Bool) (v : Int) : narrowI t sat v =
    if sat = true ∧ (v < (rangeI t).1 ∨ (rangeI t).2 < v) then (encodeI t (max (rangeI t).1 (min (rangeI t).2 v)), fST)
    else (encodeI t v, 0) := by
  obtain ⟨hlo, hhi⟩ := rangeI_ordered t
  have hout : max (rangeI t).1 (min (rangeI t).2 v) ≠ v ↔ v < (rangeI t).1 ∨ (rangeI t).2 < v := by omega
  simp only [narrowI, Bool.and_eq_true, bne_iff_ne, hout]

/-- A magnitude can exceed the range upward only. -/
theorem narrowI_natCast (t : Ty) (n m : Nat) : narrowI t (n == 1) m =
    if n = 1 ∧ (rangeI t).2 < m then (encodeI t (rangeI t).2, fST) else (encodeI t m, 0) := by
  obtain ⟨hlo, hhi⟩ := rangeI_ordered t
  have hover : (m : Int) < (rangeI t).1 ∨ (rangeI t).2 < m ↔ (rangeI t).2 < m := by omega
  simp only [narrowI_eq, beq_iff_eq, hover]
  refine ite_congr rfl (fun h => ?_) fun _ => rfl
  rw [min_eq_left h.2.le, max_eq_right (hlo.trans hhi)]

/-! ### Operations on bit patterns -/

/-- A bit operation writes g of its operands, where g is the operation on patterns of the width and keeps to it. -/
theorem completes_of_bitOp (g : Nat → Nat → Nat) {s : State} {i : Instr} {o : VVo} {f : Nat → Nat → Nat → Nat}
    (hx : exec i s = finish s o.form.len (bitOp s o f)) (h : canIssue s .execute 0 (vsrcs o.c) [] [])
    (ht : (vcx s).ty.isInt = true)
    (hg : ∀ a b, a < 2 ^ (vcx s).ty.bits → b < 2 ^ (vcx s).ty.bits →
      f (vcx s).ty.bits a b = g a b ∧ g a b < 2 ^ (vcx s).ty.bits) :
    Completes i s o.form.len (popAll s.h (vsrcs o.c) ++ writeResults s (vcx s) o.d (((vcx s).active s o.mask).map fun e =>
      (e, (g ((vcx s).get s o.a (vcx s).ty.bits e) (vopnd s (vcx s) o.c (srcOf s (vsrcs o.c) 0) e), 0)))) := by
  refine completes_of_elemwise hx h ht fun e => ?_
  obtain ⟨hf, hlt⟩ := hg _ _ (get_lt (vcx s) s o.a _ e) (vopnd_lt o.c (srcOf s (vsrcs o.c) 0) e (not_float_of_int ht))
  rw [hf, Nat.mod_eq_of_lt hlt]

/-- A choice between two patterns fits the width. -/
theorem ite_lt {p : Prop} [Decidable p] {a b n : Nat} (ha : a < n) (hb : b < n) : (if p then a else b) < n := by
  split
  · exact ha
  · exact hb

theorem ite_swap_of_lt (x y : Int) (a b : Nat) : (if y < x then b else a) = if x ≤ y then a else b := by
  simp only [← not_lt, ite_not]

/-- Settles O45: each instruction's function is that of Table 7.6, by `narrowI_eq` where it may saturate, and its result keeps to the
element where it is a bit operation. -/
theorem vectorIntegerArithmetic : Obligations.VectorIntegerArithmetic := by
  refine ⟨fun s o h => ?binary, fun s o h => ?abs⟩
  case binary =>
    intro cx t w x fit gives sat v
    have hfit : fit = narrowI t := funext fun c => funext fun n => (narrowI_eq t c n).symm
    clear_value fit
    subst hfit
    refine ⟨fun ht => ?results, fun ht => ?type⟩
    case results =>
      exact ⟨completes_of_elemwise rfl h ht fun _ => rfl, completes_of_elemwise rfl h ht fun _ => rfl,
        completes_of_elemwise rfl h ht fun _ => rfl, completes_of_elemwise rfl h ht fun _ => rfl,
        completes_of_elemwise rfl h ht fun _ => rfl,
        completes_of_bitOp (fun a b => if sgn w a ≤ sgn w b then a else b) rfl h ht
          fun a b ha hb => ⟨ite_swap_of_lt .., ite_lt ha hb⟩,
        completes_of_bitOp (fun a b => if sgn w b ≤ sgn w a then a else b) rfl h ht
          fun a b ha hb => ⟨ite_swap_of_lt .., ite_lt ha hb⟩,
        completes_of_bitOp (fun a b => if a ≤ b then a else b) rfl h ht fun a b ha hb => ⟨Nat.min_def .., ite_lt ha hb⟩,
        completes_of_bitOp (fun a b => if b ≤ a then a else b) rfl h ht
          fun a b ha hb => ⟨(Nat.max_comm a b).trans (Nat.max_def ..), ite_lt ha hb⟩,
        completes_of_bitOp (· &&& ·) rfl h ht fun a b ha hb => ⟨rfl, Nat.and_lt_two_pow _ hb⟩,
        completes_of_bitOp (· ||| ·) rfl h ht fun a b ha hb => ⟨rfl, Nat.or_lt_two_pow ha hb⟩,
        completes_of_bitOp (· ^^^ ·) rfl h ht fun a b ha hb => ⟨rfl, Nat.xor_lt_two_pow ha hb⟩,
        completes_of_elemwise rfl h ht fun _ => rfl,
        completes_of_bitOp (fun a b => a / 2 ^ (b % w)) rfl h ht fun a b ha _ => ⟨rfl, (Nat.div_le_self ..).trans_lt ha⟩,
        completes_of_elemwise rfl h ht fun _ => rfl, completes_of_elemwise rfl h ht fun _ => rfl,
        completes_of_elemwise rfl h ht fun _ => rfl⟩
    case type =>
      intro i hi
      fin_cases hi <;> exact traps_of_elemwise rfl h ht
  case abs =>
    intro cx t
    exact ⟨fun ht => traps_of_elemwise1 rfl h ht, fun ht => completes_of_elemwise1 rfl h ht fun e => narrowI_natCast t _ _⟩

end Sys2Proof.Machine
end

section
/-! PROOFS. Vector float arithmetic: O46 (07 R184, R185; 06 R149). -/

namespace Sys2Proof.Machine

/-! ### The square root handed to rounding -/

/-- The number whose integer square root `sqrtQ` takes. -/
def sqrtScaled (n k : Nat) : Nat := n * 2 ^ (k % 2) * 2 ^ 400

/-- `sqrtQ` of a fraction over a power of two is the root, or the middle above the root rounded down. -/
theorem sqrtQ_two_pow (n k : Nat) : sqrtQ n (2 ^ k) =
    if isqrt (sqrtScaled n k) * isqrt (sqrtScaled n k) = sqrtScaled n k
    then ((isqrt (sqrtScaled n k) : Int), 2 ^ 200 * 2 ^ ((k + k % 2) / 2))
    else ((2 * isqrt (sqrtScaled n k) + 1 : Nat), 2 ^ 201 * 2 ^ ((k + k % 2) / 2)) := by
  rw [sqrtQ, Nat.log2_two_pow]
  rfl

/-- Comparing a multiple of 2^-200, relative to the root of 2^k or 2^(k+1), with √(n / 2^k) is comparing integers. -/
theorem sqrtScaled_mul (n k : Nat) : sqrtScaled n k * 2 ^ k = n * (2 ^ 200 * 2 ^ ((k + k % 2) / 2)) ^ 2 := by
  have hden : (2 ^ ((k + k % 2) / 2)) ^ 2 = 2 ^ (k % 2) * 2 ^ k := by
    rw [← pow_mul, ← pow_add]
    congr 1
    omega
  rw [mul_pow, hden, sqrtScaled, ← pow_mul, show 200 * 2 = 400 from rfl]
  generalize 2 ^ 400 = u
  ring

/-- Where the root is no multiple, no multiple lies between it and the multiple below. -/
theorem sq_lt_iff_of_not_square {m : Nat} (h : isqrt m * isqrt m ≠ m) (j : Nat) :
    (j ^ 2 < m ↔ 2 * (j : Int) < (2 * isqrt m + 1 : Nat)) ∧ j ^ 2 ≠ m := by
  obtain ⟨hlo, hhi⟩ := isqrt_bounds m
  have hlt : isqrt m ^ 2 < m := lt_of_le_of_ne hlo (by rwa [sq])
  rcases Nat.lt_or_ge (isqrt m) j with hj | hj
  · have : m < j ^ 2 := hhi.trans_le (Nat.pow_le_pow_left hj 2)
    omega
  · have : j ^ 2 < m := (Nat.pow_le_pow_left hj 2).trans_lt hlt
    omega

theorem sqrtQ_brackets (n k : Nat) :
    let q := sqrtQ n (2 ^ k)
    let den := 2 ^ ((k + k % 2) / 2)
    q.2 = 2 ^ 200 * den ∧ q.1 ^ 2 * 2 ^ k = (n : Int) * q.2 ^ 2
      ∨ q.2 = 2 ^ 201 * den ∧ (∃ m : Nat, q.1 = 2 * m + 1)
        ∧ ∀ m : Nat, (m ^ 2 * 2 ^ k < n * (2 ^ 200 * den) ^ 2 ↔ 2 * (m : Int) < q.1) ∧ m ^ 2 * 2 ^ k ≠ n * (2 ^ 200 * den) ^ 2 := by
  intro q den
  have hq : q = _ := sqrtQ_two_pow n k
  have hmul := sqrtScaled_mul n k
  split at hq
  next hsq =>
    refine .inl ⟨by rw [hq], ?_⟩
    rw [hq]
    dsimp only
    norm_cast
    rw [← hmul, sq, hsq]
  next hsq =>
    refine .inr ⟨by rw [hq], ⟨_, by rw [hq]; push_cast; rfl⟩, fun m => ?_⟩
    obtain ⟨hiff, hne⟩ := sq_lt_iff_of_not_square hsq m
    have hpos : 0 < 2 ^ k := Nat.two_pow_pos k
    rw [hq, ← hmul]
    exact ⟨(Nat.mul_lt_mul_right hpos).trans hiff, fun e => hne (Nat.eq_of_mul_eq_mul_right hpos e)⟩

/-! ### The power of two handed to rounding -/

/-- Within the range, the power of the whole part scales that of the fraction. -/
theorem exp2V_num {n : Int} {k : Nat} (hlo : -200 ≤ n / 2 ^ k) (hhi : n / 2 ^ k ≤ 200) : exp2V (.num n (2 ^ k)) =
    let q := if n % 2 ^ k = 0 then scaleQ 1 1 (n / 2 ^ k)
      else scaleQ (2 * exp2Frac (n % 2 ^ k).toNat k + 1 : Nat) (2 ^ 201) (n / 2 ^ k)
    .num q.1 q.2 := by
  have hcast : ((2 ^ k : Nat) : Int) = 2 ^ k := by push_cast; rfl
  simp only [exp2V, hcast, Nat.log2_two_pow, if_neg (not_lt.mpr hhi), if_neg (not_lt.mpr hlo)]

theorem exp2V_brackets (n : Int) (k : Nat) :
    let i := n / 2 ^ k
    let f := (n % 2 ^ k).toNat
    let gives := fun (a d : Nat) => exp2V (.num n (2 ^ k)) = .num (scaleQ a d i).1 (scaleQ a d i).2
    (-200 : Int) ≤ i → i ≤ 200 →
    (f = 0 → gives 1 1)
    ∧ (f ≠ 0 → ∃ q : Nat, gives (2 * q + 1) (2 ^ 201)
      ∧ q ^ 2 ^ k ≤ 2 ^ f * (2 ^ 200) ^ 2 ^ k ∧ 2 ^ f * (2 ^ 200) ^ 2 ^ k < (q + 2) ^ 2 ^ k) := by
  intro i f gives hlo hhi
  have hpos : (0 : Int) < 2 ^ k := by positivity
  have hf0 : 0 ≤ n % 2 ^ k := Int.emod_nonneg n hpos.ne'
  have hlt : n % 2 ^ k < 2 ^ k := Int.emod_lt_of_pos n hpos
  have hx := exp2V_num hlo hhi
  refine ⟨fun h0 => ?whole, fun h0 => ⟨exp2Frac f k, ?fraction, exp2Frac_bounds k f ?below⟩⟩
  case whole => exact hx.trans (by rw [if_pos (show n % 2 ^ k = 0 by omega)]; rfl)
  case fraction => exact hx.trans (by rw [if_neg (show n % 2 ^ k ≠ 0 by omega)])
  case below => exact (Int.toNat_lt_of_ne_zero (by positivity)).mpr (by push_cast; exact hlt)

/-! ### The obligation -/

/-- A fused operation that is invalid rounds a NaN; any other rounds the sum (R184). -/
theorem roundV_fusedF (s : State) (t : Ty) (e : Nat) (sub : Bool) (a b d : Val) :
    let r := fusedF (dynMode s) sub a b d
    roundV s t e r.1 r.2 =
      let p := mulV a b
      if p.2 then roundV s t e .nan fNV
      else let r := addV (dynMode s) d (if sub then p.1.negate else p.1); roundV s t e r.1 (nvIf r.2) := by
  simp only [fusedF]
  split
  · rfl
  · rfl

/-- Settles O46: each instruction's function is that of Table 7.7 with one rounding, and the two brackets say what VFSQRT and VFEXP2
round. -/
theorem vectorFloatArithmetic : Obligations.VectorFloatArithmetic := by
  refine ⟨fun s o h => ?binary, fun s o h => ?unary, fun s o h => ?pivots, fun n k _ => sqrtQ_brackets n k,
    fun neg => ⟨rfl, rfl⟩, exp2V_brackets⟩
  case binary =>
    intro cx t x mode gives v rnd fma
    refine ⟨fun ht => ⟨completes_of_elemwise rfl h ht fun _ => rfl, completes_of_elemwise rfl h ht fun _ => rfl,
      completes_of_elemwise rfl h ht fun _ => rfl, completes_of_elemwise rfl h ht fun e => roundV_fusedF s t e false ..,
      completes_of_elemwise rfl h ht fun e => roundV_fusedF s t e true .., completes_of_elemwise rfl h ht fun _ => rfl,
      completes_of_elemwise rfl h ht fun _ => rfl, completes_of_elemwise rfl h ht fun _ => rfl⟩, fun ht i hi => ?type⟩
    case type => fin_cases hi <;> exact traps_of_elemwise rfl h ht
  case unary =>
    intro cx t gives rnd isNan
    refine ⟨fun ht => ⟨completes_of_elemwise1 rfl h ht fun _ => rfl, completes_of_elemwise1 rfl h ht fun _ => rfl,
      completes_of_elemwise1 rfl h ht fun _ => rfl, completes_of_elemwise1 rfl h ht fun _ => rfl,
      completes_of_elemwise1 rfl h ht fun _ => rfl, completes_of_elemwise1 rfl h ht fun _ => rfl⟩, fun ht i hi => ?type⟩
    case type => fin_cases hi <;> exact traps_of_elemwise1 rfl h ht
  case pivots =>
    intro cx es p
    refine ⟨fun ht => traps_of_vecRun_type (c := .v 0) rfl h ht, fun ht => ?_⟩
    refine completes_of_vecRun (c := .v 0) (i := .vfrcpp o) rfl h ht ?_
    simp only [List.map_map]
    rfl

end Sys2Proof.Machine
end

section
/-! PROOFS. Compares, mask instructions and conversions: O47 (07 R169, R173, R186 to R188). -/

namespace Sys2Proof.Machine

/-- How a conversion ends: its pair of types and its source group are checked in this order, then the active elements are converted
(R169, R188). -/
theorem convAct_ends {s : State} {i : Instr} {o : VTo} {ok : Ty → Ty → Bool} {f : Ty → Nat → Nat → Nat × Flags}
    (hx : exec i s = finish s o.form.len (convAct s o ok f)) (h : canIssue s .execute 0 [] [] []) :
    let cx := vcx s
    (ok o.ty cx.ty = false → Traps i s o.form.len { code := 23 })
    ∧ (ok o.ty cx.ty = true → groupBad o.a (cx.groupN o.ty.bits) = true → Traps i s o.form.len { code := 24 })
    ∧ (ok o.ty cx.ty = true → groupBad o.a (cx.groupN o.ty.bits) = false → Completes i s o.form.len (writeResults s cx o.d
      ((cx.active s o.mask).map fun e => (e, f cx.ty e (cx.get s o.a o.ty.bits e))))) :=
  ⟨fun ho => traps_of_vecRun_type (c := .v 0) hx h ho, fun ho hg => traps_of_vecRun (c := .v 0) hx h ho (if_pos hg),
    fun ho hg => completes_of_vecRun (c := .v 0) hx h ho (if_neg (ne_true_of_eq_false hg))⟩

/-- Settles O47: each instruction writes its function of the elements, and a conversion ends by `convAct_ends`. -/
theorem comparesMasksConversions : Obligations.ComparesMasksConversions := by
  refine ⟨?_, fun s o h => completes_of_issue rfl h rfl⟩
  rintro s cx rfl
  refine ⟨fun o h => ⟨traps_of_vecRun_type rfl h, fun ht => completes_of_vecRun rfl h ht rfl⟩, fun o h => ?vfcmp,
    fun h => ⟨fun o => ⟨?_, ?_, ?_⟩, fun f d a => ?_, fun o => ⟨traps_of_vecRun_type (c := .v 0) rfl h, fun ht => ?viota⟩,
      fun o i ok f hm => ?conversion⟩, fun o h => ⟨?mpopc, ?mfirst⟩⟩
  case vfcmp =>
    refine ⟨traps_of_vecRun_type rfl h, fun ht => completes_of_vecRun (i := .vfcmp o) rfl h ht ?_⟩
    simp only [List.map_map]
    rfl
  case viota =>
    refine completes_of_vecRun (c := .v 0) (i := .viota o) rfl h ht ?_
    simp only [List.countP_eq_length_filter]
    rfl
  case conversion =>
    simp only [List.mem_cons, Prod.mk.injEq, List.not_mem_nil, or_false] at hm
    rcases hm with ⟨rfl, rfl, rfl⟩ | ⟨rfl, rfl, rfl⟩ | ⟨rfl, rfl, rfl⟩ | ⟨rfl, rfl, rfl⟩ | ⟨rfl, rfl, rfl⟩
    · exact (convAct_ends (i := .vcvt o) rfl h :)
    · exact (convAct_ends (i := .vnarrow o) rfl h :)
    · exact (convAct_ends (i := .vnarrowChain o) rfl h :)
    · exact (convAct_ends (i := .vftoi o) rfl h :)
    · exact (convAct_ends (i := .vitof o) rfl h :)
  case mpopc =>
    refine completes_of_issue (i := .mpopc o) rfl h ?_
    dsimp only
    rw [List.countP_eq_length_filter]
  case mfirst =>
    refine completes_of_issue (i := .mfirst o) rfl h ?_
    dsimp only
    rw [← List.head?_filter]
    generalize ((vcx s).active s o.mask).filter ((vcx s).bit s o.a) = es
    cases es with
    | nil => rfl
    | cons e es => rfl
  all_goals exact completes_of_vecRun (c := .v 0) rfl h rfl rfl

end Sys2Proof.Machine
end

section
/-! PROOFS. What a write of vector elements leaves in the registers of a hart, and what it leaves alone: O49 (07 R166, R167). -/

namespace Sys2Proof.Machine

/-! ### One element of a register -/

/-- `putBits` replaces a field of bits. -/
theorem testBit_putBits (v off wd x i : Nat) : (putBits v off wd x).testBit i =
    if i < off then v.testBit i else if i - off < wd then x.testBit (i - off) else v.testBit i :=
  testBit_insertField v x off wd i

theorem testBit_field (v off wd i : Nat) : (v / 2 ^ off % 2 ^ wd).testBit i = (decide (i < wd) && v.testBit (off + i)) := by
  rw [Nat.testBit_mod_two_pow, Nat.testBit_div_two_pow, Nat.add_comm i off]

section
variable {r w e : Nat} {p : Nat × Nat} {h : Hart} (hw : 0 < w) (hp : p.1 * w + w ≤ 4096)
include hw

/-- An element that lies in the first register of a group. -/
theorem regElem_first (h : Hart) (r : Nat) (he : e * w + w ≤ 4096) :
    regElem h r w e = (tget 0 h.v r).toNat / 2 ^ (e * w) % 2 ^ w := by
  have hlt : e * w < 4096 := by omega
  simp only [regElem, Nat.div_eq_of_lt hlt, Nat.mod_eq_of_lt hlt, Nat.add_zero]

include hp

theorem putElem_first (h : Hart) (r : Nat) : (putElem r w h p).v =
    tset 0 h.v r (BitVec.ofNat 4096 (putBits (tget 0 h.v r).toNat (p.1 * w) w p.2)) := by
  have hlt : p.1 * w < 4096 := by omega
  simp only [putElem, Nat.div_eq_of_lt hlt, Nat.mod_eq_of_lt hlt, Nat.add_zero]

/-- A bit of the register of the element after the write. -/
theorem testBit_putElem (i : Nat) (hi : i < 4096) : (tget 0 (putElem r w h p).v r).toNat.testBit i =
    if i < p.1 * w then (tget 0 h.v r).toNat.testBit i else if i - p.1 * w < w then p.2.testBit (i - p.1 * w)
    else (tget 0 h.v r).toNat.testBit i := by
  rw [putElem_first hw hp, tget_tset_same, BitVec.testBit_toNat, BitVec.getLsbD_ofNat, testBit_putBits, decide_eq_true hi,
    Bool.true_and]

theorem regElem_putElem_same : regElem (putElem r w h p) r w p.1 = p.2 % 2 ^ w := by
  rw [regElem_first hw _ r hp]
  refine Nat.eq_of_testBit_eq fun i => ?_
  rw [testBit_field, Nat.testBit_mod_two_pow]
  by_cases hi : i < w
  · rw [testBit_putElem hw hp _ (by omega), if_neg (by omega), if_pos (by omega), Nat.add_sub_cancel_left]
  · simp [hi]

theorem regElem_putElem_ne (he : e * w + w ≤ 4096) (hne : e ≠ p.1) :
    regElem (putElem r w h p) r w e = regElem h r w e := by
  rw [regElem_first hw _ r he, regElem_first hw _ r he]
  refine Nat.eq_of_testBit_eq fun i => ?_
  rw [testBit_field, testBit_field]
  by_cases hi : i < w
  · rw [testBit_putElem hw hp _ (by omega)]
    -- the fields of two elements do not meet
    rcases Nat.lt_or_gt_of_ne hne with hlt | hgt
    · have := Nat.mul_le_mul_right w (Nat.succ_le_of_lt hlt)
      rw [Nat.succ_mul] at this
      rw [if_pos (by omega)]
    · have := Nat.mul_le_mul_right w (Nat.succ_le_of_lt hgt)
      rw [Nat.succ_mul] at this
      rw [if_neg (by omega), if_neg (by omega)]
  · simp [hi]

theorem tget_putElem_ne {q : Nat} (hq : q ≠ r) : tget 0 (putElem r w h p).v q = tget 0 h.v q := by
  rw [putElem_first hw hp, tget_tset_ne 0 _ _ hq]

end

/-! ### The elements of one hart -/

/-- Writing elements changes the vector registers of a hart alone. -/
theorem foldl_putElem_frame (r w : Nat) (ws : List (Nat × Nat)) (h : Hart) :
    ws.foldl (putElem r w) h = { h with v := (ws.foldl (putElem r w) h).v } := by
  induction ws generalizing h with
  | nil => rfl
  | cons p ws ih => exact (ih _).trans rfl

section
variable {r w : Nat} {ws : List (Nat × Nat)} (hw : 0 < w) (hws : ∀ p ∈ ws, p.1 * w + w ≤ 4096)
include hw hws

theorem regElem_foldl_putElem_of_not_mem {e : Nat} (h : Hart) (he : e * w + w ≤ 4096) (hne : e ∉ ws.map (·.1)) :
    regElem (ws.foldl (putElem r w) h) r w e = regElem h r w e := by
  induction ws generalizing h with
  | nil => rfl
  | cons p ws ih =>
    simp only [List.map_cons, List.mem_cons, not_or] at hne
    rw [List.foldl_cons, ih (List.forall_mem_of_forall_mem_cons hws) _ hne.2,
      regElem_putElem_ne hw (hws p List.mem_cons_self) he hne.1]

theorem regElem_foldl_putElem (h : Hart) (hnd : (ws.map (·.1)).Nodup) :
    ∀ p ∈ ws, regElem (ws.foldl (putElem r w) h) r w p.1 = p.2 % 2 ^ w := by
  induction ws generalizing h with
  | nil => exact fun p hp => absurd hp List.not_mem_nil
  | cons q ws ih =>
    intro p hp
    obtain ⟨hnew, hnd⟩ := List.nodup_cons.mp hnd
    have hq := hws q List.mem_cons_self
    have htail := List.forall_mem_of_forall_mem_cons hws
    rw [List.foldl_cons]
    rcases List.mem_cons.mp hp with rfl | hp
    · rw [regElem_foldl_putElem_of_not_mem hw htail _ hq hnew, regElem_putElem_same hw hq]
    · exact ih htail _ hnd p hp

theorem tget_foldl_putElem_ne {q : Nat} (h : Hart) (hq : q ≠ r) :
    tget 0 (ws.foldl (putElem r w) h).v q = tget 0 h.v q := by
  induction ws generalizing h with
  | nil => rfl
  | cons p ws ih =>
    rw [List.foldl_cons, ih (List.forall_mem_of_forall_mem_cons hws), tget_putElem_ne hw (hws p List.mem_cons_self) hq]

end

/-! ### An independent hart -/

/-- The vector of an independent hart has one part: its updates are one update of the hart, or none. -/
theorem byPart_one {h part vl : Nat} {ty : Ty} {ws : List (Nat × Nat)} (f : Hart → Nat × Nat → Hart) (hws : ∀ p ∈ ws, p.1 < part) :
    VCtx.byPart ⟨[h], part, vl, ty⟩ ws f = if ws.isEmpty then [] else [.hart h fun k => ws.foldl f k] := by
  have hall : ws.filter (fun x => x.1 / part == 0) = ws :=
    List.filter_eq_self.mpr fun p hp => beq_iff_eq.mpr (Nat.div_eq_of_lt (hws p hp))
  have hmap : ws.map (fun x => (x.1 % part, x.2)) = ws :=
    (List.map_congr_left fun p hp => congrArg (·, p.2) (Nat.mod_eq_of_lt (hws p hp))).trans (List.map_id ws)
  simp only [VCtx.byPart, List.length_singleton, List.range_one, List.filterMap_cons, List.filterMap_nil, hall, hmap]
  cases ws with
  | nil => rfl
  | cons p ws => rfl

/-- What the elements' updates make of the hart, and what they leave of the state. -/
theorem applyAll_byPart_one {h part vl : Nat} {ty : Ty} {ws : List (Nat × Nat)} (f : Hart → Nat × Nat → Hart) (s : State)
    (hws : ∀ p ∈ ws, p.1 < part) :
    let t := applyAll (VCtx.byPart ⟨[h], part, vl, ty⟩ ws f) s
    t.hart h = ws.foldl f (s.hart h) ∧ (∀ k, k ≠ h → t.hart k = s.hart k)
    ∧ t.strands = s.strands ∧ t.cores = s.cores ∧ t.mem = s.mem := by
  rw [byPart_one f hws]
  cases ws with
  | nil => exact ⟨rfl, fun _ _ => rfl, rfl, rfl, rfl⟩
  | cons p ws => exact ⟨hart_app_hart s h _, fun k hk => hart_app_hart_ne s _ hk, rfl, rfl, rfl⟩

theorem get_one {h part vl : Nat} {ty : Ty} {e : Nat} (s : State) (r w : Nat) (he : e < part) :
    VCtx.get ⟨[h], part, vl, ty⟩ s r w e = regElem (s.hart h) r w e := by
  simp only [VCtx.get, VCtx.home, Nat.div_eq_of_lt he, Nat.mod_eq_of_lt he, List.getD_cons_zero]

/-- Settles O49: the elements of a part lie side by side in one register, and writing them changes the vector registers of one hart. -/
theorem vectorResultFrame : Obligations.VectorResultFrame := by
  intro s h d w part vl ty ws cx t hw hpart hws hnd
  have hpos : 0 < w := by
    simp only [List.mem_cons, List.not_mem_nil, or_false] at hw
    omega
  have hroom (e : Nat) (he : e < part) : e * w + w ≤ 4096 :=
    (Nat.succ_mul e w).symm.trans_le ((Nat.mul_le_mul_right w he).trans hpart)
  have hin (p : Nat × Nat) (hp : p ∈ ws) : p.1 * w + w ≤ 4096 := hroom p.1 (hws p hp)
  obtain ⟨hhart, hharts, hstrands, hcores, hmem⟩ : t.hart h = ws.foldl (putElem d w) (s.hart h) ∧ _ :=
    applyAll_byPart_one (putElem d w) s hws
  have hframe : t.hart h = { s.hart h with v := (t.hart h).v } := by
    rw [hhart]
    exact foldl_putElem_frame d w ws (s.hart h)
  refine ⟨fun p hp => ?same, fun e he hne => ?others, fun r hr => ?registers, by rw [hframe], by rw [hframe], by rw [hframe],
    by rw [hframe], by rw [hframe], by rw [hframe], hharts, hstrands, hcores, hmem⟩
  case same =>
    rw [get_one t d w (hws p hp), hhart]
    exact regElem_foldl_putElem hpos hin _ hnd p hp
  case others =>
    rw [get_one t d w he, get_one s d w he, hhart]
    exact regElem_foldl_putElem_of_not_mem hpos hin _ (hroom e he) hne
  case registers =>
    rw [hhart]
    exact tget_foldl_putElem_ne hpos hin _ hr

end Sys2Proof.Machine
end

section
/-! PROOFS. The aftermath queue: O50 (07 R195; 02 R41 to R43). -/

namespace Sys2Proof.Machine

/-! ### Updates of vector registers and pops -/

/-- An update of a hart that leaves its aftermath queue alone. -/
def Upd.keepsAft (u : Upd) : Prop := ∃ n f, u = .hart n f ∧ ∀ k : Hart, (f k).aft = k.aft

theorem keepsAft_popAll (n : Nat) (srcs : List Src) : ∀ u ∈ popAll n srcs, u.keepsAft := by
  induction srcs with
  | nil => exact List.forall_mem_nil _
  | cons a srcs ih =>
    cases a with
    | q k => exact List.forall_mem_cons.mpr ⟨⟨n, popQ k, rfl, fun _ => rfl⟩, ih⟩
    | x r => exact ih
    | imm v => exact ih

theorem keepsAft_put (cx : VCtx) (r w : Nat) (ws : List (Nat × Nat)) : ∀ u ∈ cx.put r w ws, u.keepsAft := by
  intro u hu
  obtain ⟨p, -, hp⟩ := List.mem_filterMap.mp hu
  rw [Option.ite_none_left_eq_some] at hp
  obtain ⟨-, hp⟩ := hp
  cases hp
  exact ⟨_, _, rfl, fun k => by rw [foldl_putElem_frame]⟩

/-- Such updates change harts alone. -/
theorem applyAll_keepsAft {us : List Upd} (hus : ∀ u ∈ us, u.keepsAft) (s : State) :
    let t := applyAll us s
    (∀ n, (t.hart n).aft = (s.hart n).aft) ∧ t.mem = s.mem ∧ t.strands = s.strands ∧ t.cur = s.cur := by
  induction us generalizing s with
  | nil => exact ⟨fun _ => rfl, rfl, rfl, rfl⟩
  | cons u us ih =>
    obtain ⟨⟨n, f, rfl, hf⟩, htail⟩ := List.forall_mem_cons.mp hus
    obtain ⟨haft, hmem, hstrands, hcur⟩ := ih htail ((Upd.hart n f).app s)
    refine ⟨fun m => (haft m).trans ?_, hmem, hstrands, hcur⟩
    by_cases hm : m = n
    · rw [hm, hart_app_hart, hf]
    · rw [hart_app_hart_ne s f hm]

/-! ### The operands of the three instructions -/

theorem pathOf_some {c : VSrc} {x : Word} (h : countOf c x < 256) : pathOf c x = some (countOf c x) := if_pos h

theorem pathOf_none {c : VSrc} {x : Word} (h : 256 ≤ countOf c x) : pathOf c x = none := if_neg (Nat.not_lt.mpr h)

/-- The values of the oldest record, whose number all records of a path share (R195). -/
def firstCount (recs : List AftRec) : Nat :=
  match recs with
  | r :: _ => r.vals.length
  | [] => 0

theorem firstCount_eq (recs : List AftRec) : (recs.map fun r => r.vals.length).headD 0 = firstCount recs := by
  cases recs with
  | nil => rfl
  | cons r recs => rfl

/-- The groups that AFPOP writes are misplaced: the indices', the values', or one meets the other (R169, R195). -/
theorem popMisplaced_iff {d a n n0 : Nat} : (groupBad d n || (n0 != 0 && decide (32 < a + n0))
      || (List.range n0).any (fun j => decide (d ≤ a + j) && decide (a + j < d + n))) = true
    ↔ groupBad d n = true ∨ (n0 ≠ 0 ∧ 32 < a + n0) ∨ ∃ j, j < n0 ∧ d ≤ a + j ∧ a + j < d + n := by
  simp only [Bool.or_eq_true, Bool.and_eq_true, bne_iff_ne, decide_eq_true_eq, List.any_eq_true, List.mem_range, or_assoc]

/-! ### The obligation -/

/-- Settles O50: the path, the room and the placement of the groups decide how each instruction ends, and AFPOP's other updates leave
the queue alone. -/
theorem aftermathQueue : Obligations.AftermathQueue := by
  refine ⟨fun s o h => ?afdef, fun s o h => ?afpop, fun s o c hc h => ?afcnt, fun s o hn h => ?all⟩
  case afdef =>
    intro p cx es fits
    refine ⟨fun hp => traps_of_issue (i := .afdef o) rfl h ?path, fun hp hfits => traps_of_issue (i := .afdef o) rfl h ?overflow,
      fun hp hfits => completes_of_issue (i := .afdef o) rfl h ?defines⟩
    case path =>
      dsimp only
      rw [pathOf_none hp]
    case overflow =>
      dsimp only
      rw [pathOf_some hp]
      exact if_pos (Nat.not_le.mp hfits)
    case defines =>
      dsimp only
      rw [pathOf_some hp]
      exact if_neg (Nat.not_lt.mpr hfits)
  case afpop =>
    intro p recs cx n0 n misplaced us
    have hn0 : n0 = firstCount recs := firstCount_eq recs
    clear_value n0
    subst hn0
    refine ⟨fun hp => traps_of_issue (i := .afpop o) rfl h ?path, fun hp hm => traps_of_issue (i := .afpop o) rfl h ?misplaced,
      fun hp hm => ⟨completes_of_issue (i := .afpop o) rfl h ?pops, ?_⟩⟩
    case path =>
      dsimp only
      rw [pathOf_none hp]
    case misplaced =>
      dsimp only
      rw [pathOf_some hp]
      exact if_pos (popMisplaced_iff.mpr hm)
    case pops =>
      dsimp only
      rw [pathOf_some hp]
      exact if_neg (popMisplaced_iff.not.mpr hm)
    -- what stands before the last update
    obtain ⟨vs, hvs, hus⟩ : ∃ vs : List Upd, (∀ u ∈ vs, u.keepsAft)
        ∧ us = vs ++ [.hart s.h fun h => { h with vl := recs.length, aft := dropPath p recs.length h.aft }] := by
      refine ⟨_, ?_, (List.append_assoc ..).symm⟩
      refine List.forall_mem_append.mpr ⟨keepsAft_popAll _ _, List.forall_mem_append.mpr ⟨keepsAft_put _ _ _ _, fun u hu => ?_⟩⟩
      obtain ⟨j, -, hj⟩ := List.mem_flatMap.mp hu
      exact keepsAft_put _ _ _ _ u hj
    obtain ⟨haft, hmem, hstrands, hcur⟩ := applyAll_keepsAft hvs s
    have hh : (applyAll vs s).h = s.h := congrArg (· / 2) hcur
    rw [hus, applyAll_append, ← hh]
    refine ⟨?vl, ?aft, hmem, hstrands⟩
    case vl => exact congrArg Hart.vl (myHart_app_hart (applyAll vs s) _)
    case aft =>
      refine (congrArg Hart.aft (myHart_app_hart (applyAll vs s) _)).trans ?_
      rw [State.myHart, hh]
      exact congrArg _ (haft s.h)
  case afcnt =>
    intro p
    obtain ⟨form, d, q⟩ := o
    obtain rfl : q = some c := hc
    refine ⟨fun hp => traps_of_issue (i := .afcnt _) rfl h ?path, fun hp => completes_of_issue (i := .afcnt _) rfl h ?count⟩
    case path =>
      dsimp only
      rw [pathOf_none hp]
    case count =>
      dsimp only
      rw [pathOf_some hp]
      dsimp only
      rw [List.countP_eq_length_filter]
  case all =>
    obtain ⟨form, d, q⟩ := o
    obtain rfl : q = none := hn
    exact completes_of_issue rfl h rfl

end Sys2Proof.Machine
end

section
/-! PROOFS. Codes of integers and their values, and accumulation over codes (06 R136; 07 R192). -/

namespace Sys2Proof.Machine

/-! ### Codes and values (R136) -/

theorem bits_pos (t : Ty) : 0 < t.bits := by cases t <;> decide

theorem bits_le (t : Ty) : t.bits ≤ 64 := by cases t <;> decide

/-- The modulus of a width is twice the weight of its sign bit. -/
theorem two_pow_bits (t : Ty) : 2 ^ t.bits = 2 * 2 ^ (t.bits - 1) := by
  rw [← pow_succ', Nat.sub_add_cancel (bits_pos t)]

theorem decodeI_eq (t : Ty) (v : Nat) : decodeI t v =
    if t.isSigned = true ∧ 2 ^ (t.bits - 1) ≤ v % 2 ^ t.bits then ((v % 2 ^ t.bits : Nat) : Int) - (2 ^ t.bits : Nat)
    else (v % 2 ^ t.bits : Nat) := by
  have hlt : v % 2 ^ t.bits < 2 * 2 ^ (t.bits - 1) := two_pow_bits t ▸ Nat.mod_lt v (Nat.two_pow_pos _)
  have hone : v % 2 ^ t.bits / 2 ^ (t.bits - 1) = 1 ↔ 2 ^ (t.bits - 1) ≤ v % 2 ^ t.bits := by
    rw [Nat.div_eq_iff (Nat.two_pow_pos _)]
    omega
  simp only [decodeI, Bool.and_eq_true, beq_iff_eq, hone]
  push_cast
  rfl

theorem encodeI_natCast (t : Ty) (x : Int) : ((encodeI t x : Nat) : Int) = x % (2 ^ t.bits : Nat) := by
  rw [encodeI, Int.toNat_of_nonneg (Int.emod_nonneg _ (by positivity))]
  push_cast
  rfl

theorem encodeI_congr {t : Ty} {x y : Int} (h : x ≡ y [ZMOD (2 ^ t.bits : Nat)]) : encodeI t x = encodeI t y := by
  have := encodeI_natCast t x
  rw [h, ← encodeI_natCast] at this
  exact_mod_cast this

/-- A code stands for its value modulo the width. -/
theorem decodeI_modEq (t : Ty) (v : Nat) : decodeI t v ≡ v [ZMOD (2 ^ t.bits : Nat)] := by
  have hv : ((v % 2 ^ t.bits : Nat) : Int) ≡ v [ZMOD (2 ^ t.bits : Nat)] := by
    rw [Int.natCast_mod]
    exact Int.mod_modEq ..
  rw [decodeI_eq]
  split
  · exact Int.ModEq.trans (Int.sub_emod_right ..) hv
  · exact hv

theorem encodeI_decodeI {t : Ty} {v : Nat} (h : v < 2 ^ t.bits) : encodeI t (decodeI t v) = v := by
  have := encodeI_natCast t (decodeI t v)
  rw [decodeI_modEq t v, ← Int.natCast_mod, Nat.mod_eq_of_lt h] at this
  exact_mod_cast this

theorem decodeI_encodeI_modEq (t : Ty) (x : Int) : decodeI t (encodeI t x) ≡ x [ZMOD (2 ^ t.bits : Nat)] := by
  refine (decodeI_modEq t _).trans ?_
  rw [encodeI_natCast]
  exact Int.mod_modEq ..

theorem rangeI_eq (t : Ty) : rangeI t = if t.isSigned then (-((2 ^ (t.bits - 1) : Nat) : Int), ((2 ^ (t.bits - 1) : Nat) : Int) - 1)
    else (0, ((2 ^ t.bits : Nat) : Int) - 1) := by
  simp only [rangeI]
  push_cast
  rfl

theorem decodeI_mem_range (t : Ty) (v : Nat) : (rangeI t).1 ≤ decodeI t v ∧ decodeI t v ≤ (rangeI t).2 := by
  have hlt : v % 2 ^ t.bits < 2 ^ t.bits := Nat.mod_lt v (Nat.two_pow_pos _)
  have htwo := two_pow_bits t
  rw [decodeI_eq, rangeI_eq]
  cases t.isSigned with
  | true =>
    simp only [true_and, if_true]
    split <;> omega
  | false =>
    simp only [Bool.false_eq_true, false_and, if_false]
    omega

/-- The values of codes are less than 2^64 from zero. -/
theorem decodeI_bounds (t : Ty) (v : Nat) : -2 ^ 64 ≤ decodeI t v ∧ decodeI t v ≤ 2 ^ 64 := by
  have hlt : v % 2 ^ t.bits < 2 ^ t.bits := Nat.mod_lt v (Nat.two_pow_pos _)
  have hle : 2 ^ t.bits ≤ 2 ^ 64 := Nat.pow_le_pow_right (by decide) (bits_le t)
  rw [decodeI_eq]
  split <;> omega

/-- A value in the range of its type comes back from its code. -/
theorem decodeI_encodeI {t : Ty} {x : Int} (hlo : (rangeI t).1 ≤ x) (hhi : x ≤ (rangeI t).2) : decodeI t (encodeI t x) = x := by
  have hrange := decodeI_mem_range t (encodeI t x)
  have htwo := two_pow_bits t
  obtain ⟨k, hk⟩ := (decodeI_encodeI_modEq t x).dvd
  -- both lie in a range no longer than the modulus
  have hlen : (rangeI t).2 - (rangeI t).1 < (2 ^ t.bits : Nat) := by
    rw [rangeI_eq]
    cases t.isSigned with
    | true => simp only [if_true]; omega
    | false => simp only [Bool.false_eq_true, if_false]; omega
  have hk0 : k = 0 := by
    have hpos : (0 : Int) < (2 ^ t.bits : Nat) := by positivity
    have hlt : ((2 ^ t.bits : Nat) : Int) * k < (2 ^ t.bits : Nat) * 1 := by omega
    have hgt : ((2 ^ t.bits : Nat) : Int) * (-1) < (2 ^ t.bits : Nat) * k := by omega
    have := lt_of_mul_lt_mul_left hlt hpos.le
    have := lt_of_mul_lt_mul_left hgt hpos.le
    omega
  rw [hk0, mul_zero] at hk
  omega

/-! ### Accumulation over codes -/

/-- Accumulating codes is accumulating values, where the accumulator's code serves the operation as its value does. -/
theorem foldl_encodeI {t : Ty} {op : Int → Int → Int} {R : Int → Prop} (g : Nat → Nat)
    (hop : ∀ x n, R x → R (op x (decodeI t n))
      ∧ encodeI t (op (decodeI t (encodeI t x)) (decodeI t n)) = encodeI t (op x (decodeI t n))) (es : List Nat) {x : Int} (hx : R x) :
    es.foldl (fun a e => encodeI t (op (decodeI t a) (decodeI t (g e)))) (encodeI t x)
      = encodeI t ((es.map fun e => decodeI t (g e)).foldl op x) := by
  induction es generalizing x with
  | nil => rfl
  | cons e es ih =>
    obtain ⟨hR, he⟩ := hop x (g e) hx
    rw [List.foldl_cons, he, ih hR]
    rfl

/-- A sum wraps at each step or once. -/
theorem foldl_encodeI_add {t : Ty} (g : Nat → Nat) (es : List Nat) {b : Nat} (hb : b < 2 ^ t.bits) :
    es.foldl (fun a e => encodeI t (decodeI t a + decodeI t (g e))) b
      = encodeI t ((es.map fun e => decodeI t (g e)).foldl (· + ·) (decodeI t b)) := by
  have := foldl_encodeI (op := (· + ·)) (R := fun _ => True) g
    (fun x n _ => ⟨trivial, encodeI_congr ((decodeI_encodeI_modEq t x).add_right _)⟩) es (x := decodeI t b) trivial
  rwa [encodeI_decodeI hb] at this

/-- An operation that keeps to the range of the type never wraps. -/
theorem foldl_encodeI_of_range {t : Ty} {op : Int → Int → Int} (g : Nat → Nat) (hop : ∀ x y, op x y = x ∨ op x y = y) (es : List Nat)
    {b : Nat} (hb : b < 2 ^ t.bits) : es.foldl (fun a e => encodeI t (op (decodeI t a) (decodeI t (g e)))) b
      = encodeI t ((es.map fun e => decodeI t (g e)).foldl op (decodeI t b)) := by
  have := foldl_encodeI (op := op) (R := fun x => (rangeI t).1 ≤ x ∧ x ≤ (rangeI t).2) g
    (fun x n hx => ⟨by rcases hop x (decodeI t n) with h | h <;> rw [h]; exacts [hx, decodeI_mem_range t n],
      by rw [decodeI_encodeI hx.1 hx.2]⟩) es (decodeI_mem_range t b)
  rwa [encodeI_decodeI hb] at this

/-- A sum of values within M of zero is within M times their number of where it starts. -/
theorem foldl_add_bounds {M : Int} (l : List Int) (x : Int) (h : ∀ y ∈ l, -M ≤ y ∧ y ≤ M) :
    x - l.length * M ≤ l.foldl (· + ·) x ∧ l.foldl (· + ·) x ≤ x + l.length * M := by
  induction l generalizing x with
  | nil => simp
  | cons y l ih =>
    obtain ⟨hy, hl⟩ := List.forall_mem_cons.mp h
    obtain ⟨hlo, hhi⟩ := ih (x + y) hl
    rw [List.foldl_cons, List.length_cons]
    push_cast
    constructor <;> linarith

/-! ### The exact sum of VREDADD, as two doubles -/

/-- An integer as the two doubles that a record keeps. -/
def wide (x : Int) : List Nat := [(BitVec.ofInt 128 x).toNat % 2 ^ 64, (BitVec.ofInt 128 x).toNat / 2 ^ 64]

theorem wideVal_wide (x : Int) : wideVal (wide x) = (BitVec.ofInt 128 x).toInt := by
  rw [wideVal, wide]
  simp only [List.getD_cons_zero, List.getD_cons_succ, Nat.mod_add_div', BitVec.ofNat_toNat, BitVec.setWidth_eq]

theorem sumStep_wide (t : Ty) (x : Int) (v : Nat) : sumStep t (wide x) v = wide (x + decodeI t v) := by
  rw [sumStep, wideVal_wide, wide, BitVec.ofInt_add, BitVec.ofInt_toInt, ← BitVec.ofInt_add]

theorem wideVal_wide_of_bounds {x : Int} (hlo : -2 ^ 127 ≤ x) (hhi : x < 2 ^ 127) : wideVal (wide x) = x :=
  (wideVal_wide x).trans (BitVec.toInt_ofInt_eq_self (by decide) hlo hhi)

end Sys2Proof.Machine
end

section
/-! PROOFS. Permutes, index compression, broadcast, extract, insert, the stair exchange and the reductions: O48 (07 R169, R170, R189 to
R194, R439). -/

namespace Sys2Proof.Machine

/-! ### Moves (R170, R189, R439) -/

/-- A slide up writes the elements at which it has a source. -/
theorem filterMap_ite_some {p : Nat → Prop} [DecidablePred p] (f : Nat → Nat) (es : List Nat) :
    es.filterMap (fun e => if p e then some (e, f e) else none) = (es.filter fun e => decide (p e)).map fun e => (e, f e) := by
  induction es with
  | nil => rfl
  | cons e es ih =>
    rw [List.filterMap_cons, List.filter_cons]
    by_cases h : p e
    · simp only [h, if_true, decide_true, List.map_cons, ih]
    · simp only [h, if_false, decide_false, Bool.false_eq_true, ih]

/-- VSLIDEUP's source lies as far below the element as the amount says, within the part (R189). -/
theorem slideUp_elems (part k : Nat) (get : Nat → Nat) (es : List Nat) :
    (es.filterMap fun e => (if k ≤ e - e / part * part then some (get (e / part * part + (e - e / part * part - k))) else none).map
      fun x => (e, x))
    = (es.filter fun e => decide (e / part * part + k ≤ e)).map fun e => (e, get (e - k)) := by
  rw [← filterMap_ite_some fun e => get (e - k)]
  refine List.filterMap_congr fun e _ => ?_
  have hle : e / part * part ≤ e := Nat.div_mul_le_self e part
  have hiff : k ≤ e - e / part * part ↔ e / part * part + k ≤ e := by omega
  simp only [hiff]
  split
  next h => rw [show e / part * part + (e - e / part * part - k) = e - k by omega]; rfl
  next => rfl

/-- VSLIDEDN's source lies as far above. -/
theorem slideDown_elems (part k : Nat) (n : Nat → Nat) (get : Nat → Nat) (es : List Nat) :
    (es.filterMap fun e => (some (if e - e / part * part + k < n e then get (e / part * part + (e - e / part * part) + k) else 0)).map
      fun x => (e, x))
    = es.map fun e => (e, if e - e / part * part + k < n e then get (e + k) else 0) := by
  rw [← List.filterMap_eq_map]
  refine List.filterMap_congr fun e _ => ?_
  rw [show e / part * part + (e - e / part * part) = e from Nat.add_sub_cancel' (Nat.div_mul_le_self e part)]
  rfl

/-- A signed element is extended by its sign (R189). -/
theorem wrap_sgn {w v : Nat} (hw : 0 < w) (hv : v < 2 ^ w) : wrap (sgn w v) = (BitVec.ofNat w v).signExtend 64 := by
  have htwo : 2 ^ w = 2 * 2 ^ (w - 1) := by rw [← pow_succ', Nat.sub_add_cancel hw]
  rw [BitVec.signExtend, BitVec.toInt_eq_toNat_cond, BitVec.toNat_ofNat, Nat.mod_eq_of_lt hv]
  congr 1
  rw [sgn]
  split
  next h => rw [if_pos (by omega)]
  next h => rw [if_neg (by omega)]; push_cast; rfl

/-- The double of an extracted element, which is zero past VL (R189). -/
theorem extracted_eq {t : Ty} {v vl i : Nat} (hv : v < 2 ^ t.bits) :
    (if t.isSigned then wrap (sgn t.bits (if i < vl then v else 0)) else BitVec.ofNat 64 (if i < vl then v else 0))
      = if vl ≤ i then 0 else if t.isSigned then (BitVec.ofNat t.bits v).signExtend 64 else BitVec.ofNat 64 v := by
  have hx : (if i < vl then v else 0) < 2 ^ t.bits := ite_lt hv (Nat.two_pow_pos _)
  rw [wrap_sgn (bits_pos t) hx]
  by_cases hi : vl ≤ i
  · rw [if_pos hi, if_neg (Nat.not_lt.mpr hi), BitVec.signExtend, BitVec.toInt_zero]
    exact ite_self _
  · rw [if_neg hi, if_pos (Nat.not_le.mp hi)]

/-- A step without flags. -/
theorem or_no_flag (fl : Flags) : fl ||| 0 = fl := BitVec.or_zero
theorem no_flag_or (fl : Flags) : 0 ||| fl = fl := BitVec.zero_or

/-! ### The steps of a reduction (R192 to R194) -/

/-- Steps are accumulated in order. -/
theorem redSteps_eq_foldl (q : Reduction) (n i : Nat) (a : List Nat × Flags) : redSteps q n i a =
    (List.range' i n).foldl (fun a e => ((q.step e a.1).1, a.2 ||| (q.step e a.1).2)) a := by
  induction n generalizing i a with
  | zero => rfl
  | succ n ih => exact ih (i + 1) _

/-- A reduction that stops and goes on takes the same steps. -/
theorem redSteps_add (q : Reduction) (n m i : Nat) (a : List Nat × Flags) :
    redSteps q (n + m) i a = redSteps q m (i + n) (redSteps q n i a) := by
  simp only [redSteps_eq_foldl, ← List.foldl_append, ← List.range'_append_1]

/-- The updates of a reduction's end. -/
def redUpds (s : State) (cx : VCtx) (d : Nat) (r : Nat × Flags) : List Upd :=
  (if s.myHart.red.isSome then [Upd.hart s.h fun h => { h with red := none }] else []) ++ cx.put d cx.w [(0, r.1)] ++ setFlags s r.2

/-- A reduction that the part does not interrupt ends with the result of all its steps. -/
theorem redAct_whole {s : State} {cx : VCtx} {d : Nat} {q : Reduction} (hstop : s.choice.stop = none) (hheld : heldRed s = none)
    {a : List Nat × Flags} (ha : redSteps q q.n 0 (q.init, 0) = a) :
    redAct s cx d q = .done (redUpds s cx d ((q.result a.1).1, a.2 ||| (q.result a.1).2)) := by
  subst ha
  simp only [redAct, redStart, hheld, hstop]
  rfl

/-! ### Scans -/

/-- The accumulation of a scan over elements. -/
def scanFold (f : Nat → Nat → Nat × Flags) (es : List Nat) (b : Nat) : Nat × Flags :=
  es.foldl (fun t e => ((f t.1 e).1, t.2 ||| (f t.1 e).2)) (b, 0)

/-- The same over pairs of an element and its pattern. -/
theorem scanFold_pairs (f : Nat → Nat → Nat → Nat × Flags) (g : Nat → Nat) (es : List Nat) (b : Nat) :
    (es.map fun e => (e, g e)).foldl (fun t e => ((f e.1 t.1 e.2).1, t.2 ||| (f e.1 t.1 e.2).2)) (b, (0 : Flags))
      = scanFold (fun a e => f e a (g e)) es b :=
  List.foldl_map

/-- The steps of a scan accumulate over the active elements. -/
theorem redSteps_scanRed (s : State) (cx : VCtx) (o : VVo) (b : Nat) (f : Nat → Nat → Nat → Nat × Flags) (result : Nat → Nat × Flags) :
    let t := scanFold (fun a e => f a e (cx.get s o.a cx.w e)) (cx.active s o.mask) b
    redSteps (scanRed s cx o b f result) cx.vl 0 ([b], 0) = ([t.1], t.2) := by
  intro t
  rw [redSteps_eq_foldl, ← List.range_eq_range', show t = _ from List.foldl_filter]
  refine List.foldl_hom (init := (b, 0)) (fun t : Nat × Flags => ([t.1], t.2)) fun t e => ?_
  cases hon : cx.on s o.mask e with
  | true => simp only [scanRed, hon, if_true, List.headD_cons]
  | false => simp only [scanRed, hon, Bool.false_eq_true, if_false, or_no_flag]

/-- A scan whose steps raise no flag. -/
theorem scanFold_pure (f : Nat → Nat → Nat) (es : List Nat) (b : Nat) : scanFold (fun a e => (f a e, 0)) es b = (es.foldl f b, 0) :=
  List.foldl_hom (fun a => (a, (0 : Flags))) fun a e => congrArg (f a e, ·) (or_no_flag 0)

section
variable {s : State} {i : Instr} {o : VVo} {ok : Ty → Bool} (h : canIssue s .execute 0 (vsrcs o.c) [] []) (ho : ok (vcx s).ty = true)
  (hstop : s.choice.stop = none) (hheld : heldRed s = none)
include h ho hstop hheld

/-- A reduction that is not interrupted writes its result. -/
theorem completes_of_redAct {q : VCtx → (Nat → Nat) → Reduction}
    (hx : exec i s = finish s o.form.len (vecRun s o.c ok fun cx b => redAct s cx o.d (q cx b)))
    {a : List Nat × Flags} {r : Nat × Flags}
    (ha : let q := q (vcx s) (vopnd s (vcx s) o.c (srcOf s (vsrcs o.c) 0)); redSteps q q.n 0 (q.init, 0) = a
      ∧ ((q.result a.1).1, a.2 ||| (q.result a.1).2) = r) :
    Completes i s o.form.len (popAll s.h (vsrcs o.c) ++ redUpds s (vcx s) o.d r) := by
  obtain ⟨ha, hr⟩ := ha
  exact completes_of_vecRun hx h ho (hr ▸ redAct_whole hstop hheld ha)

theorem completes_of_scan {f : VCtx → Nat → Nat → Nat → Nat × Flags} {result : Ty → Nat → Nat × Flags} {r : Nat × Flags}
    (hx : exec i s = finish s o.form.len (scanAct s o ok f result))
    (hr : let cx := vcx s
      let t := scanFold (fun a e => f cx a e (cx.get s o.a cx.w e)) (cx.active s o.mask) (vopnd s cx o.c (srcOf s (vsrcs o.c) 0) 0)
      ((result cx.ty t.1).1, t.2 ||| (result cx.ty t.1).2) = r) :
    Completes i s o.form.len (popAll s.h (vsrcs o.c) ++ redUpds s (vcx s) o.d r) :=
  completes_of_redAct h ho hstop hheld hx ⟨redSteps_scanRed .., hr⟩

theorem completes_of_scan_pure {g : VCtx → Nat → Nat → Nat} {result : Ty → Nat → Nat} {v : Nat}
    (hx : exec i s = finish s o.form.len (scanAct s o ok (fun cx a _ x => (g cx a x, 0)) fun t a => (result t a, 0)))
    (hv : let cx := vcx s
      result cx.ty ((cx.active s o.mask).foldl (fun a e => g cx a (cx.get s o.a cx.w e))
        (vopnd s cx o.c (srcOf s (vsrcs o.c) 0) 0)) = v) :
    Completes i s o.form.len (popAll s.h (vsrcs o.c) ++ redUpds s (vcx s) o.d (v, 0)) := by
  refine completes_of_scan h ho hstop hheld hx ?_
  dsimp only
  rw [scanFold_pure, or_no_flag]
  exact congrArg (·, (0 : Flags)) hv

end

/-! ### The sum of VREDADD -/

/-- The record of VREDADD holds the exact sum of the elements so far. -/
theorem redSteps_sum {s : State} {cx : VCtx} {o : VVo} {q : Reduction} {b : Nat} (hinit : q.init = sumStep cx.ty [0, 0] b)
    (hstep : ∀ e vs, q.step e vs = (if cx.on s o.mask e then sumStep cx.ty vs (cx.get s o.a cx.w e) else vs, 0)) :
    redSteps q cx.vl 0 (q.init, 0)
      = (wide (((cx.active s o.mask).map fun e => decodeI cx.ty (cx.get s o.a cx.w e)).foldl (· + ·) (decodeI cx.ty b)), 0) := by
  have hstart : sumStep cx.ty [0, 0] b = wide (decodeI cx.ty b) := by
    have := sumStep_wide cx.ty 0 b
    rwa [zero_add] at this
  rw [redSteps_eq_foldl, ← List.range_eq_range', hinit, hstart, List.foldl_map, VCtx.active, List.foldl_filter]
  refine List.foldl_hom (fun x : Int => (wide x, (0 : Flags))) fun x e => ?_
  rw [hstep, or_no_flag]
  cases cx.on s o.mask e with
  | true => simp only [if_true, sumStep_wide]
  | false => simp only [Bool.false_eq_true, if_false]

/-- At the greatest VL the sum stays within 128 bits. -/
theorem wideVal_sum (t : Ty) (g : Nat → Nat) (b : Nat) {es : List Nat} (h : es.length ≤ 8192) :
    wideVal (wide ((es.map fun e => decodeI t (g e)).foldl (· + ·) (decodeI t b)))
      = (es.map fun e => decodeI t (g e)).foldl (· + ·) (decodeI t b) := by
  obtain ⟨hlo, hhi⟩ := foldl_add_bounds (M := 2 ^ 64) (es.map fun e => decodeI t (g e)) (decodeI t b)
    (List.forall_mem_map.mpr fun e _ => decodeI_bounds t (g e))
  have hb := decodeI_bounds t b
  rw [List.length_map] at hlo hhi
  exact wideVal_wide_of_bounds (by omega) (by omega)

/-! ### The obligation -/

theorem isFloat_of_halfTy {t : Ty} : halfTy t = true → t.isFloat = true := by cases t <;> decide

theorem canonF_of_float {t : Ty} (h : t.isFloat = true) (a : Nat) :
    canonF t a = if (decodeF t a).isNaN then t.canonNaN else a := by
  rw [canonF, h, Bool.true_and]

/-- Without saturation a result wraps. -/
theorem narrowI_wraps (t : Ty) (v : Int) : narrowI t false v = (encodeI t v, 0) := rfl

/-- Settles O48: the moves are functions of the elements, and the reductions accumulate over the active elements or level by level. -/
theorem movesAndReductions : Obligations.MovesAndReductions := by
  refine ⟨fun s o cx hcx h => ?one, fun s cx hcx => ?two⟩
  case one =>
    subst hcx
    intro x w k es moves lo n b vals ints total free reduces levels tree root redStep' steps canon
    refine ⟨?up, ?down, completes_of_issue rfl h rfl, completes_of_issue rfl h rfl, ?misplaced, ?perm, fun hstop hheld ht hvl => ?ints,
      fun hstop hheld ht => ?floats, fun ht i hi => ?intType, fun ht i hi => ?floatType⟩
    case up =>
      refine completes_of_issue (i := .vslideup o) rfl h (congrArg (fun l => Act.done ((vcx s).put o.d w l)) ?_)
      exact slideUp_elems (vcx s).part k ((vcx s).get s o.a w) es
    case down =>
      refine completes_of_issue (i := .vslidedn o) rfl h (congrArg (fun l => Act.done ((vcx s).put o.d w l)) ?_)
      exact slideDown_elems (vcx s).part k n ((vcx s).get s o.a w) es
    case misplaced => exact fun hg => traps_of_vecRun (i := .vperm o) rfl h rfl (if_pos hg)
    case perm => exact fun hg => completes_of_vecRun (i := .vperm o) rfl h rfl (if_neg (ne_true_of_eq_false hg))
    case ints =>
      have hb : b < 2 ^ w := vopnd_lt o.c x 0 (not_float_of_int ht)
      have hlen : es.length ≤ 8192 := by
        have := List.length_filter_le ((vcx s).on s o.mask) (List.range (vcx s).vl)
        rw [List.length_range] at this
        exact this.trans hvl
      refine ⟨?add, fun hsat => ?wraps, fun hsat => ?saturates, ?max, ?min⟩
      case add =>
        refine completes_of_redAct h ht hstop hheld (i := .vredadd o) rfl ⟨redSteps_sum rfl fun _ _ => rfl, ?_⟩
        dsimp only
        rw [wideVal_sum _ _ _ hlen, no_flag_or]
        rfl
      case wraps =>
        refine completes_of_scan h ht hstop hheld (i := .vredaddo o) rfl ?_
        dsimp only
        rw [beq_false_of_ne hsat]
        simp only [narrowI_wraps]
        rw [scanFold_pure, or_no_flag]
        exact congrArg (·, (0 : Flags)) (foldl_encodeI_add _ _ hb)
      case saturates =>
        refine completes_of_scan h ht hstop hheld (i := .vredaddo o) rfl ?_
        dsimp only
        rw [hsat, or_no_flag]
        exact (scanFold_pairs (fun _ a e => narrowI (vcx s).ty true (decodeI (vcx s).ty a + decodeI (vcx s).ty e)) _ es b).symm
      case max =>
        refine completes_of_scan_pure h ht hstop hheld (i := .vredmax o) rfl ?_
        exact foldl_encodeI_of_range (op := max) ((vcx s).get s o.a w) max_choice es hb
      case min =>
        refine completes_of_scan_pure h ht hstop hheld (i := .vredmin o) rfl ?_
        exact foldl_encodeI_of_range (op := min) ((vcx s).get s o.a w) min_choice es hb
    case floats =>
      have hcanon (a : Nat) : canonF (vcx s).ty a = canon a := canonF_of_float (isFloat_of_halfTy ht) a
      refine ⟨?tree, ?ordered, ?max, ?min⟩
      case tree =>
        refine completes_of_redAct h ht hstop hheld (i := .vfredadd o) rfl ⟨redSteps_eq_foldl .., ?_⟩
        rw [← List.range_eq_range']
        rfl
      case ordered =>
        refine completes_of_scan h ht hstop hheld (i := .vfredaddo o) rfl ?_
        dsimp only
        rw [hcanon, or_no_flag, show steps redStep' = _ from scanFold_pairs redStep' _ es b]
        rfl
      case max =>
        refine completes_of_scan_pure h ht hstop hheld (i := .vfredmax o) rfl ?_
        rw [List.foldl_map]
        exact hcanon _
      case min =>
        refine completes_of_scan_pure h ht hstop hheld (i := .vfredmin o) rfl ?_
        rw [List.foldl_map]
        exact hcanon _
    case intType => fin_cases hi <;> exact traps_of_vecRun_type rfl h ht
    case floatType => fin_cases hi <;> exact traps_of_vecRun_type rfl h ht
  case two =>
    subst hcx
    refine ⟨fun o h => ⟨completes_of_vecRun (c := .v 0) rfl h rfl ?compress, completes_of_vecRun (c := .v 0) rfl h rfl ?expand⟩,
      fun o h => ⟨fun hg => traps_of_issue (i := .vidxc o) rfl h (if_pos hg), fun hone hg => ?indices⟩,
      fun o h => ?broadcast, fun o h => ?extract, fun o h => ?insert,
      fun q n m i a => redSteps_add q n m i a⟩
    case compress => rfl
    case expand => rfl
    case indices =>
      refine completes_of_issue_nil (i := .vidxc o) rfl h (if_neg ?_)
      rintro (hne | hbad)
      · exact hne hone
      · exact ne_true_of_eq_false hg hbad
    case broadcast => exact completes_of_issue (i := .vbcast o) rfl h rfl
    case insert => exact completes_of_issue (i := .vins o) rfl h rfl
    case extract =>
      intro i v
      refine completes_of_issue (i := .vextr o) rfl h (congrArg (fun y => Act.done (setD s.cur o.d y)) ?_)
      exact extracted_eq (get_lt (vcx s) s o.a (vcx s).ty.bits i)

end Sys2Proof.Machine
end

section
/-! PROOFS. Vector loads: O51 (07 R169, R172 to R176, R178, R180). -/

namespace Sys2Proof.Machine

/-- The load of the elements below VL, up to the first that faults. -/
def loaded (s : State) (g : LoadArgs) : Loading :=
  loadElems s (vcx s) (memTy s) g (List.range (vcx s).vl) { run := Run.start s }

/-- What is written of a load whose elements below n were read. -/
def readUpds (s : State) (g : LoadArgs) (n : Nat) : List Upd :=
  (loaded s g).run.out ++ loadedUpds (vcx s) (memTy s) g.v n (loaded s g)

/-! ### The own part of a load (R178) -/

section
variable {s : State} {g : LoadArgs} {c : Nat} {first : Bool}

theorem loadAll_refused {t : TrapInfo} (h : loadChecks (vcx s) (memTy s) g c = some t) : loadAll s g c first = .trap t := by
  simp only [loadAll, h]

section
variable (h : loadChecks (vcx s) (memTy s) g c = none)
include h

theorem loadAll_whole (hf : (loaded s g).fault = none) :
    loadAll s g c first = .done (readUpds s g (vcx s).vl ++ loadedFlags s (vcx s) (loaded s g)) := by
  rw [loaded] at hf
  simp only [loadAll, h, hf]
  rfl

variable {e : Nat} {t : TrapInfo} (hf : (loaded s g).fault = some (e, t))
include hf

/-- A first-fault load whose element 0 was read shortens the vector to what was read. -/
theorem loadAll_shortened (he : 0 < e) : loadAll s g c true = .done (readUpds s g e ++ loadedFlags s (vcx s) (loaded s g)
    ++ [.hart s.h fun h => { h with vl := e }]) := by
  rw [loaded] at hf
  simp only [loadAll, h, hf, Bool.true_and, bne_iff_ne, ne_eq, he.ne', not_false_eq_true, if_true]
  rfl

theorem loadAll_faults (he : first = false ∨ e = 0) : loadAll s g c first = .part (readUpds s g e) t := by
  have hkeep : (first && e != 0) = false := by rcases he with rfl | rfl <;> simp
  rw [loaded] at hf
  simp only [loadAll, h, hf, hkeep, Bool.false_eq_true, if_false]
  rfl

end

end

/-! ### How a load ends -/

/-- A load ends by its checks, whole, or at the first element that faults. -/
theorem loads_of_issue {s : State} {i : Instr} {len c : Nat} {srcs : List Src} {plain : List Nat} {g : (Nat → Word) → LoadArgs}
    {first : Bool} (hx : exec i s = finish s len (issue s .execute 0 srcs [] plain fun v => loadAll s (g v) c first))
    (h : canIssue s .execute 0 srcs [] plain) :
    let g := g (srcOf s srcs)
    let flags := loadedFlags s (vcx s) (loaded s g)
    (∀ t, loadChecks (vcx s) (memTy s) g c = some t → Traps i s len t)
    ∧ (loadChecks (vcx s) (memTy s) g c = none → (loaded s g).fault = none →
        Completes i s len (popAll s.h srcs ++ (readUpds s g (vcx s).vl ++ flags)))
    ∧ ∀ e t, loadChecks (vcx s) (memTy s) g c = none → (loaded s g).fault = some (e, t) →
        (first = true → 0 < e → Completes i s len (popAll s.h srcs
          ++ (readUpds s g e ++ flags ++ [.hart s.h fun h => { h with vl := e }])))
        ∧ ((first = false ∨ e = 0) → TrapsAfter i s len (readUpds s g e) t) := by
  refine ⟨fun t hc => traps_of_issue hx h (loadAll_refused hc), fun hc hf => completes_of_issue hx h (loadAll_whole hc hf),
    fun e t hc hf => ⟨fun hfirst he => ?_, fun he => trapsAfter_of_issue hx h (loadAll_faults hc hf he)⟩⟩
  subst hfirst
  exact completes_of_issue hx h (loadAll_shortened hc hf he)

/-- The load of the headers of the blocks below VL into header register v, up to the first that faults. -/
def loadedHdrs (s : State) (v : Nat) (a : Word) : Loading :=
  loadHdrs s (vcx s) (memTy s) v a (blocksOf (vcx s).vl) (blocksOf (vcx s).vl) { run := Run.start s }

/-- VLDH ends by its memory type, whole, or at the first header that faults (R176). -/
theorem vldh_ends {s : State} {o : VMo} (h : canIssue s .execute 0 [o.a] [] []) :
    let l := loadedHdrs s o.v (srcOf s [o.a] 0)
    let us := l.run.out ++ (vcx s).putHdrs o.v l.hdrs
    ((memTy s).isBlock = false → Traps (.vldh o) s o.form.len { code := 25 })
    ∧ ((memTy s).isBlock = true → l.fault = none → Completes (.vldh o) s o.form.len (popAll s.h [o.a] ++ us))
    ∧ ∀ k t, (memTy s).isBlock = true → l.fault = some (k, t) → TrapsAfter (.vldh o) s o.form.len us t := by
  unfold loadedHdrs
  refine ⟨fun hb => traps_of_issue (i := .vldh o) rfl h (if_pos (by rw [hb]; rfl)),
    fun hb hf => completes_of_issue (i := .vldh o) rfl h ((if_neg (by rw [hb]; decide)).trans ?whole),
    fun k t hb hf => trapsAfter_of_issue (i := .vldh o) rfl h ((if_neg (by rw [hb]; decide)).trans ?faults)⟩
  case whole =>
    dsimp only
    rw [hf]
  case faults =>
    dsimp only
    rw [hf]

/-- Settles O51: every load of elements ends as `loads_of_issue` says, with its own addresses, and VLDH as `vldh_ends` says. -/
theorem vectorLoads : Obligations.VectorLoads := by
  intro s o cx mt parts loads a
  refine ⟨fun h => ⟨?vld, ?vldf, ?vlds⟩, fun h => ⟨?vldx, vldh_ends h⟩⟩
  case vld => exact (loads_of_issue (i := .vld o) rfl h :)
  case vldf => exact (loads_of_issue (i := .vldf o) rfl h :)
  case vlds => exact (loads_of_issue (i := .vlds o) rfl h :)
  case vldx => exact (loads_of_issue (i := .vldx o) rfl h :)

end Sys2Proof.Machine
end

section
/-! PROOFS. Vector stores: O52 fails, for the number that a VSTXO gives its entries (07 R177, R196). -/

namespace Sys2Proof.Machine

/-! ### A VSTXO of one element

Every store of one VSTXO bears the number of that VSTXO in the strip, by which SCOMMIT's stores are performed in element order (R177);
O52 has the entries enter the strip with no number, as those of a VSTX do. -/

/-- The execute strand of hart 3 right after reset, with VL 1 and f32 as its register and memory type. -/
def oneElement : State := { cur := 7, harts := [(3, { vl := 1, vt := Ty.f32.code, mfcCtl := 9 })] }

/-- VSTXO of v0 to the address in x4, with the indices in v0. -/
def orderedStore : VMo := ⟨.base, .none, 0, .x 4, 0, .floor⟩

/-- The store of `orderedStore`, the first VSTXO of its hart. -/
def orderedArgs : LoadArgs := ⟨0, .none, srcOf oneElement [.x 4] 0, 0, .indexed 0, .floor, nextOrd oneElement.myHart⟩

/-- The elements that it prepares. -/
def orderedEnts : Except (TrapInfo × Run) Storing :=
  storeElems oneElement (vcx oneElement) (memTy oneElement) orderedArgs ((vcx oneElement).active oneElement .none)
    { run := Run.start oneElement }

/-- The updates with which O52 has it retire. -/
def claimedUpds (l : Storing) : List Upd := popAll oneElement.h [.x 4] ++ (l.run.out
  ++ [.hart oneElement.h fun h => { h with strip := h.strip ++ markFirst l.ents.reverse }] ++ setFlags oneElement l.flags)

/-- The numbers of the entries in the strip of the strand that moves. -/
def stripOrds (s : State) : List Nat := s.myHart.strip.map (·.ord)

theorem exists_ok_of_any {ε α : Type} {e : Except ε α} {p : α → Bool} (h : e.toOption.any p = true) :
    ∃ a, e = .ok a ∧ p a = true := by
  cases e with
  | error x => cases h
  | ok a => exact ⟨a, rfl, h⟩

/-- The element can be stored, the strip has room, no loop ends there, and O52 has its entry bear no number. -/
theorem orderedEnts_claimed : ∃ l, orderedEnts = .ok l ∧
    (decide (stripBytes (oneElement.myHart.strip ++ markFirst l.ents.reverse) ≤ 16384)
      && decide (badReturn (applyAll (claimedUpds l) oneElement) oneElement.cur = none)
      && decide (stripOrds (oneElement.after orderedStore.form.len (claimedUpds l)) = [0])) = true :=
  exists_ok_of_any (by decide +kernel)

/-- The machine's entry bears the number of its VSTXO. -/
theorem stripOrds_orderedStore : ∀ t, exec (.vstxo orderedStore) oneElement = .next t → stripOrds t = [1] := by
  have h : (match exec (.vstxo orderedStore) oneElement with | .next t => decide (stripOrds t = [1]) | _ => false) = true := by
    decide +kernel
  intro t ht
  rw [ht] at h
  exact of_decide_eq_true h

/-- Refutes O52: the entry of a VSTXO of one element bears number 1 in the strip, where the statement leaves it without one. -/
theorem not_vectorStores : ¬ Obligations.VectorStores := by
  rintro ⟨h, -⟩
  have hissue : canIssue oneElement .execute 0 [.x 4] [] [] := by unfold canIssue; decide
  obtain ⟨-, hstores, -⟩ := h oneElement orderedStore hissue
  obtain ⟨-, ⟨-, -, hvstxo⟩, -⟩ := hstores (by decide)
  obtain ⟨l, hl, hclaimed⟩ := orderedEnts_claimed
  simp only [Bool.and_eq_true, decide_eq_true_eq] at hclaimed
  obtain ⟨⟨hroom, hends⟩, hords⟩ := hclaimed
  obtain ⟨-, hretires⟩ := hvstxo l (by decide) hl
  have hmachine := stripOrds_orderedStore _ (hretires hroom hends)
  exact absurd (hords.symm.trans hmachine) (by decide)

end Sys2Proof.Machine
end

section
/-! PROOFS. The tuple matrix unit: O53 (08 R198, R199, R203, R208, R209, R212, R213, R215, R216, R220 to R222). -/

namespace Sys2Proof.Machine

theorem exec_tmuKStep (c t : Nat) (s : State) : exec (.tmuKStep c t) s = execTmuKStep c t s := rfl

theorem not_isEmpty_of_ne_nil {α : Type} {l : List α} (h : l ≠ []) : (!l.isEmpty) = true := by
  rw [List.isEmpty_eq_false_iff.mpr h, Bool.not_false]

/-- A core without runs owns no tile. -/
theorem ownsTile_of_runs_nil {c : Core} (h : c.runs = []) (t : Nat) : ownsTile c t = false := by rw [ownsTile, h, List.any_nil]

/-- Pops reach no core. -/
@[simp] theorem core_applyAll_popAll (n m : Nat) (srcs : List Src) (s : State) :
    (applyAll (popAll n srcs) s).core m = s.core m := by
  induction srcs generalizing s with
  | nil => rfl
  | cons a srcs ih =>
    cases a with
    | q k => exact ih _
    | x r => exact ih s
    | imm v => exact ih s

/-! ### Grants, and the clearing of a tile (R198, R199, R209) -/

/-- The rows that the other cores of the quad hold, as a sum over a list. -/
theorem otherRows_eq (s : State) (c : Nat) : otherRows s c =
    ((((List.range 4).map (4 * (c / 4) + ·)).filter (· ≠ c)).map fun k => (s.core k).rows).foldl (· + ·) 0 := by
  rw [otherRows, List.foldl_map]

/-- TMATT tests the four sizes of a request one by one. -/
theorem request_iff (r : Nat) : (r ≠ 32 ∧ r ≠ 64 ∧ r ≠ 96 ∧ r ≠ 128) ↔ r ∉ [32, 64, 96, 128] := by
  simp only [List.mem_cons, List.not_mem_nil, or_false, not_or]

section
variable {s : State} {o : RB} (h : canIssue s .execute 0 [o.b] [o.d] [])
include h

theorem tmatt_refused (hr : (srcOf s [o.b] 0).toNat ∉ [32, 64, 96, 128]) : Traps (.tmatt o) s o.form.len { code := 35 } :=
  traps_of_issue (i := .tmatt o) rfl h (if_pos ((request_iff _).mpr hr))

variable (hr : (srcOf s [o.b] 0).toNat ∈ [32, 64, 96, 128])
include hr

theorem tmatt_busy (hq : s.myCore.runs ≠ []) : Traps (.tmatt o) s o.form.len { code := 36 } :=
  traps_of_issue (i := .tmatt o) rfl h
    ((if_neg fun hn => (request_iff _).mp hn hr).trans (if_pos (not_isEmpty_of_ne_nil hq)))

theorem tmatt_grants (hq : s.myCore.runs = []) {g : Nat}
    (hg : min (srcOf s [o.b] 0).toNat (128 - otherRows s s.c) / 32 * 32 = g) :
    Completes (.tmatt o) s o.form.len (popAll s.h [o.b]
      ++ ([.core s.c fun c => { (if g = 0 then c else grantRows g c) with req := (srcOf s [o.b] 0).toNat }]
        ++ setD s.cur o.d (BitVec.ofNat 64 g))) := by
  rw [Nat.mul_comm] at hg
  subst hg
  exact completes_of_issue (i := .tmatt o) rfl h
    ((if_neg fun hn => (request_iff _).mp hn hr).trans (if_neg (by rw [hq]; decide)))

end

section
variable {s : State} {f : Form} (h : canIssue s .execute 0 [] [] [])
include h

theorem tmdet_busy (hq : s.myCore.runs ≠ []) : Traps (.tmdet f) s f.len { code := 36 } :=
  traps_of_issue (i := .tmdet f) rfl h (if_pos (not_isEmpty_of_ne_nil hq))

theorem tmdet_releases (hq : s.myCore.runs = []) : Completes (.tmdet f) s f.len [.core s.c fun c => { c with rows := 0 }] :=
  completes_of_issue_nil (i := .tmdet f) rfl h (if_neg (by rw [hq]; decide))

theorem tmzero_busy {t : Nat} (hown : ownsTile s.myCore t = true) :
    Traps (.tmzero f t) s f.len { code := 36, val := BitVec.ofNat 64 t } :=
  traps_of_issue (i := .tmzero f t) rfl h (if_pos hown)

theorem tmzero_clears {t : Nat} (hown : ownsTile s.myCore t = false) : Completes (.tmzero f t) s f.len
    [.core s.c fun c => (c.setTile t []).setTst t fun q => { q with steps := 0 }] :=
  completes_of_issue_nil (i := .tmzero f t) rfl h (if_neg (ne_true_of_eq_false hown))

end

/-! ### The algebra table (R203) -/

theorem cube_two_pow (n : Nat) : 2 ^ n * 2 ^ n * 2 ^ n = 8 ^ n := by rw [← Nat.mul_pow, ← Nat.mul_pow]

theorem check_error {b : Bool} (h : b = false) (t : TrapInfo) (r : Run) : M.check b t r = .error (t, r) := by
  rw [M.check, if_neg (ne_true_of_eq_false h)]
  rfl

section
variable {s : State} {o : RA} (h : canIssue s .execute 0 [o.a] [] [])
include h

theorem tmalg_misaligned (ha : (srcOf s [o.a] 0).toNat % 8 ≠ 0) :
    Traps (.tmalg o) s o.form.len { code := 10, val := srcOf s [o.a] 0 }
    ∧ Traps (.tmalgs o) s o.form.len { code := 10, val := srcOf s [o.a] 0 } := by
  have hcheck := check_error (beq_false_of_ne ha) (misaligned (srcOf s [o.a] 0)) (Run.start s)
  exact ⟨traps_of_trapsAfter (trapsAfter_of_issue (i := .tmalg o) rfl h (ofM_error (mbind_error hcheck) _)),
    traps_of_trapsAfter (trapsAfter_of_issue (i := .tmalgs o) rfl h (ofM_error (mbind_error hcheck) _))⟩

variable (ha : (srcOf s [o.a] 0).toNat % 8 = 0)
include ha

theorem tmalgs_stores {r : Run} (hst : storePieces s 200 (srcOf s [o.a] 0) s.myCore.alg.image (Run.start s) = .ok ((), r)) :
    Completes (.tmalgs o) s o.form.len (popAll s.h [o.a] ++ r.out) :=
  completes_of_issue (i := .tmalgs o) rfl h (ofM_ok ((mbind_ok (check_ok (beq_iff_eq.mpr ha) _ _)).trans hst) _)

variable {hd : List Byte} {cs : List (BitVec 16)} {r r' : Run}
  (hhd : scalarLoad s (srcOf s [o.a] 0) 8 (Run.start s) = .ok (hd, r))
  (hcs : loadHalves s (srcOf s [o.a] 0 + 8) (8 ^ (ofLe hd % 4)) r = .ok (cs, r'))
include hhd hcs

theorem tmalg_takes {t : AlgTab} (ht : algOf (ofLe hd) cs = some t) : Completes (.tmalg o) s o.form.len
    (popAll s.h [o.a] ++ (r'.out ++ [.core s.c fun c => { c with alg := t }])) := by
  rw [← cube_two_pow] at hcs
  refine completes_of_issue (i := .tmalg o) rfl h (ofM_ok (a := t) (r := r')
    ((mbind_ok (check_ok (beq_iff_eq.mpr ha) _ _)).trans ((mbind_ok hhd).trans ((mbind_ok hcs).trans ?_))) _)
  rw [ht]
  rfl

theorem tmalg_refuses (ht : algOf (ofLe hd) cs = none) : TrapsAfter (.tmalg o) s o.form.len r'.kept { code := 37 } := by
  rw [← cube_two_pow] at hcs
  refine trapsAfter_of_issue (i := .tmalg o) rfl h (ofM_error (r := r')
    ((mbind_ok (check_ok (beq_iff_eq.mpr ha) _ _)).trans ((mbind_ok hhd).trans ((mbind_ok hcs).trans ?_))) _)
  rw [ht]
  rfl

end

/-! ### TMOP (R212) -/

/-- The shape word w and the operands pass the checks of R212, with operands of types ta and tb. -/
structure StepAccepted (s : State) (o : TOo) (w : Nat) (ta tb : Ty) : Prop where
  tya : tmType (w / 2 ^ 17 % 32) = some ta
  tyb : tmType (w / 2 ^ 22 % 32) = some tb
  reserved : w < 2 ^ 27
  rowsPos : 1 ≤ w % 256
  rowsMax : w % 256 ≤ s.myCore.rows
  colsPos : 1 ≤ w / 256 % 512
  colsMax : w / 256 % 512 ≤ 256 / s.myCore.alg.d
  groupA : groupBad o.a (tmGroup (w % 256) ta) = false
  groupB : groupBad o.vb (tmGroup (w / 256 % 512) tb) = false
  axis : ta.isBlock = true ∨ tb.isBlock = true → axisSet s.myHart = false
  headersA : badBlock s.myHart o.a (w % 256) ta = none
  headersB : badBlock s.myHart o.vb (w / 256 % 512) tb = none

/-- The K step of an accepted TMOP on its tile. -/
def acceptedStep (s : State) (o : TOo) (w : Nat) (ta tb : Ty) : Tab (BitVec 32) × Flags :=
  kStep s.myCore.alg o.ca o.cb (s.myCore.tile o.t) (regRows s.myHart o.a (w % 256) ta) (regRows s.myHart o.vb (w / 256 % 512) tb)

/-- What an accepted TMOP does: it finds its tile owned, waits behind runs, or makes its K step. -/
def acceptedAct (s : State) (o : TOo) (w : Nat) (ta tb : Ty) : Act :=
  if ownsTile s.myCore o.t then .trap (tmFault 36 o.t)
  else if !s.myCore.runs.isEmpty then .wait false []
  else .done ([.core s.c fun c => (c.setTile o.t (acceptedStep s o w ta tb).1).setTst o.t fun t => { t with steps := t.steps + 1 }]
    ++ setFlags s (acceptedStep s o w ta tb).2)

section
variable {s : State} {o : TOo} {w : Nat} {ta tb : Ty} (h : StepAccepted s o w ta tb)
include h

/-- Only a core with a grant has accepted operands. -/
theorem StepAccepted.granted : s.myCore.rows ≠ 0 := fun h0 => absurd (h0 ▸ h.rowsMax) (Nat.not_le.mpr h.rowsPos)

theorem shapeOk_of_accepted : ¬(w / 2 ^ 27 ≠ 0 ∨ (!rowsOk s.myCore.rows (w % 256)) = true ∨ w / 256 % 512 = 0
    ∨ 256 / s.myCore.alg.d < w / 256 % 512 ∨ groupBad o.a (tmGroup (w % 256) ta) = true
    ∨ groupBad o.vb (tmGroup (w / 256 % 512) tb) = true) := by
  have hrows : rowsOk s.myCore.rows (w % 256) = true := by
    simp only [rowsOk, if_neg h.granted, h.rowsPos, h.rowsMax, decide_true, Bool.and_self]
  simp only [Nat.div_eq_of_lt h.reserved, hrows, h.groupA, h.groupB, ne_eq, not_true_eq_false, Bool.not_true,
    Bool.false_eq_true, false_or, or_false, not_or, Nat.not_lt]
  exact ⟨Nat.one_le_iff_ne_zero.mp h.colsPos, h.colsMax⟩

theorem axisOk_of_accepted : ¬((ta.isBlock || tb.isBlock) && axisSet s.myHart) = true := by
  rw [Bool.and_eq_true, Bool.or_eq_true]
  rintro ⟨hblock, haxis⟩
  exact ne_true_of_eq_false (h.axis hblock) haxis

end

/-- A TMOP whose operands are accepted does what is left after the checks. -/
theorem exec_tmop_of_accepted {s : State} {o : TOo} {ta tb : Ty} (hi : canIssue s .execute 0 [o.b] [] [])
    (h : StepAccepted s o (srcOf s [o.b] 0).toNat ta tb) : exec (.tmop o) s =
      finish s o.form.len (issue s .execute 0 [o.b] [] [] fun v => acceptedAct s o (v 0).toNat ta tb) := by
  rw [issue_of_canIssue hi, show exec (.tmop o) s = execTmop o s from rfl, execTmop, issue_of_canIssue hi]
  refine congrArg (fun a => finish s o.form.len (Act.after a (popAll s.h [o.b]))) ?_
  unfold srcOf at h
  simp only [h.tya, h.tyb, if_neg (shapeOk_of_accepted h), h.headersA, h.headersB]
  rw [if_neg (axisOk_of_accepted h), if_neg h.granted]
  rfl

section
variable {s : State} {o : TOo} {ta tb : Ty} (hi : canIssue s .execute 0 [o.b] [] [])
  (h : StepAccepted s o (srcOf s [o.b] 0).toNat ta tb)
include hi h

theorem tmop_busy (hown : ownsTile s.myCore o.t = true) :
    Traps (.tmop o) s o.form.len { code := 36, val := BitVec.ofNat 64 o.t } :=
  traps_of_issue (exec_tmop_of_accepted hi h) hi (if_pos hown)

theorem tmop_steps (hq : s.myCore.runs = []) :
    let k := acceptedStep s o (srcOf s [o.b] 0).toNat ta tb
    Completes (.tmop o) s o.form.len (popAll s.h [o.b]
      ++ ([.core s.c fun c => (c.setTile o.t k.1).setTst o.t fun t => { t with steps := t.steps + 1 }] ++ setFlags s k.2)) :=
  completes_of_issue (exec_tmop_of_accepted hi h) hi
    ((if_neg (ne_true_of_eq_false (ownsTile_of_runs_nil hq _))).trans (if_neg (by rw [hq]; decide)))

end

/-! ### TMRUN (R213 to R216) -/

section
variable {s : State} {o : TRo} (h : canIssue s .execute 0 [] [] (groupRegs o.a 8))
include h

theorem tmrun_refused {t : TrapInfo} (ht : runFault s o.t ((groupRegs o.a 8).map (getX s.me)) = some t) :
    Traps (.tmrun o) s o.form.len t := by
  refine traps_of_issue (i := .tmrun o) rfl h ?_
  dsimp only
  rw [ht]

theorem tmrun_sends (ht : runFault s o.t ((groupRegs o.a 8).map (getX s.me)) = none) (hroom : s.myCore.runs.length < 4) :
    Completes (.tmrun o) s o.form.len ((flushCommitted (Run.start s) s.cur).out ++ [.core s.c fun c =>
      { c with runs := c.runs
          ++ [TmRun.mk o.t ((groupRegs o.a 8).map (getX s.me)) o.ca o.cb s.pFs c.alg s.myHart.mfcLt 0 s.h] }]) := by
  refine completes_of_issue_nil (i := .tmrun o) rfl h ?_
  dsimp only
  rw [ht]
  exact if_neg (Nat.not_le.mpr hroom)

end

/-! ### Rows of a tile -/

theorem rowOf_some {c : Core} {x : Word} (h : x.toNat < 256) (hext : x.toNat < c.ext) : rowOf c x = some x.toNat :=
  if_pos ⟨h, hext⟩

theorem rowOf_none {c : Core} {x : Word} (h : 256 ≤ x.toNat ∨ c.ext ≤ x.toNat) : rowOf c x = none :=
  if_neg fun ⟨hlt, hext⟩ => h.elim (Nat.not_le.mpr hlt) (Nat.not_le.mpr hext)

section
variable {α : Type} (d : α)

/-- The parts of a table below a number hold nothing at it. -/
theorem tget_append_of_forall_lt {a : Tab α} {n : Nat} (h : ∀ p ∈ a, p.1 < n) (b : Tab α) : tget d (a ++ b) n = tget d b n := by
  induction a with
  | nil => rfl
  | cons p a ih =>
    obtain ⟨hp, ha⟩ := List.forall_mem_cons.mp h
    rw [List.cons_append, tget, if_neg (by omega), if_neg (by omega), ih ha]

theorem tget_of_forall_gt {b : Tab α} {n : Nat} (h : ∀ p ∈ b, n < p.1) : tget d b n = d := by
  cases b with
  | nil => rfl
  | cons p b =>
    have hp := h p List.mem_cons_self
    rw [tget, if_neg (by omega), if_pos hp]

/-- The parts of a table above a number hold nothing at it. -/
theorem tget_append_of_forall_gt (a : Tab α) {b : Tab α} {n : Nat} (h : ∀ p ∈ b, n < p.1) : tget d (a ++ b) n = tget d a n := by
  induction a with
  | nil => exact tget_of_forall_gt d h
  | cons p a ih => rw [List.cons_append, tget, tget, ih]

theorem le_of_mem_of_trises {lo : Nat} {t : Tab α} (ht : trises lo t = true) : ∀ p ∈ t, lo ≤ p.1 := by
  induction t generalizing lo with
  | nil => exact List.forall_mem_nil _
  | cons q t ih =>
    rw [trises, Bool.and_eq_true, decide_eq_true_eq] at ht
    exact List.forall_mem_cons.mpr ⟨ht.1, fun p hp => by have := ih ht.2 p hp; omega⟩

/-- A filter that keeps a number leaves its value alone. -/
theorem tget_filter {lo n : Nat} {t : Tab α} (ht : trises lo t = true) {f : Nat × α → Bool} (hf : ∀ v, f (n, v) = true) :
    tget d (t.filter f) n = tget d t n := by
  induction t generalizing lo with
  | nil => rfl
  | cons p t ih =>
    obtain ⟨k, v⟩ := p
    rw [trises, Bool.and_eq_true, decide_eq_true_eq] at ht
    by_cases hk : f (k, v) = true
    · rw [List.filter_cons_of_pos hk, tget, tget, ih ht.2]
    · have hne : n ≠ k := fun e => hk (e ▸ hf v)
      rw [List.filter_cons_of_neg hk, ih ht.2, tget, if_neg hne]
      split
      next hlt => exact tget_of_forall_gt d fun p hp => by have := le_of_mem_of_trises ht.2 p hp; omega
      next => rfl

end

/-- The entries of n columns that start at b, whose codes are x: those of zero are not listed. -/
def rowEntries (b n : Nat) (x : Nat → Nat) : Tab (BitVec 32) :=
  (List.range n).filterMap fun k => if x k = 0 then none else some (b + k, BitVec.ofNat 32 (x k))

theorem rowEntries_succ (b n : Nat) (x : Nat → Nat) :
    rowEntries b (n + 1) x = rowEntries b n x ++ if x n = 0 then [] else [(b + n, BitVec.ofNat 32 (x n))] := by
  unfold rowEntries
  rw [List.range_succ, List.filterMap_append, List.filterMap_cons, List.filterMap_nil]
  by_cases hx : x n = 0 <;> simp only [hx, if_true, if_false]

theorem mem_rowEntries {b n : Nat} {x : Nat → Nat} : ∀ p ∈ rowEntries b n x, b ≤ p.1 ∧ p.1 < b + n := by
  intro p hp
  obtain ⟨k, hk, hp⟩ := List.mem_filterMap.mp hp
  rw [List.mem_range] at hk
  split at hp
  · cases hp
  · cases hp
    exact ⟨Nat.le_add_right b k, Nat.add_lt_add_left hk b⟩

theorem tget_rowEntries {b n k : Nat} (x : Nat → Nat) (hk : k < n) : tget 0 (rowEntries b n x) (b + k) = BitVec.ofNat 32 (x k) := by
  induction n with
  | zero => exact absurd hk (Nat.not_lt_zero k)
  | succ n ih =>
    rw [rowEntries_succ]
    rcases Nat.lt_succ_iff_lt_or_eq.mp hk with hlt | rfl
    · have hlast : ∀ p ∈ (if x n = 0 then [] else [(b + n, BitVec.ofNat 32 (x n))] : Tab (BitVec 32)), b + k < p.1 := by
        split
        · exact List.forall_mem_nil _
        · exact List.forall_mem_singleton.mpr (Nat.add_lt_add_left hlt b)
      rw [tget_append_of_forall_gt 0 _ hlast, ih hlt]
    · rw [tget_append_of_forall_lt 0 fun p hp => (mem_rowEntries p hp).2]
      split
      next hx => rw [hx]; rfl
      next => rw [tget, if_pos rfl]

/-- A tile whose row r holds the codes x. -/
def putRow (t : Tab (BitVec 32)) (r : Nat) (x : Nat → Nat) : Tab (BitVec 32) :=
  t.filter (fun p => decide (p.1 < 256 * r)) ++ rowEntries (256 * r) 256 x ++ t.filter fun p => decide (256 * r + 256 ≤ p.1)

theorem tget_putRow {t : Tab (BitVec 32)} (ht : trises 0 t = true) (r : Nat) (x : Nat → Nat) (j : Nat) :
    tget 0 (putRow t r x) j = if j / 256 = r then BitVec.ofNat 32 (x (j % 256)) else tget 0 t j := by
  have hbelow : ∀ p ∈ t.filter (fun p => decide (p.1 < 256 * r)), p.1 < 256 * r :=
    fun p hp => of_decide_eq_true (List.mem_filter.mp hp).2
  have habove : ∀ p ∈ t.filter (fun p => decide (256 * r + 256 ≤ p.1)), 256 * r + 256 ≤ p.1 :=
    fun p hp => of_decide_eq_true (List.mem_filter.mp hp).2
  have hrow := mem_rowEntries (b := 256 * r) (n := 256) (x := x)
  unfold putRow
  rcases Nat.lt_trichotomy (j / 256) r with hlt | heq | hgt
  · have hj : j < 256 * r := by omega
    rw [if_neg (by omega), List.append_assoc, tget_append_of_forall_gt, tget_filter 0 ht fun _ => decide_eq_true hj]
    intro p hp
    rcases List.mem_append.mp hp with hp | hp
    · have := hrow p hp; omega
    · have := habove p hp; omega
  · rw [if_pos heq, tget_append_of_forall_gt 0 _ fun p hp => by have := habove p hp; omega,
      tget_append_of_forall_lt 0 fun p hp => by have := hbelow p hp; omega,
      show j = 256 * r + j % 256 by omega, tget_rowEntries x (Nat.mod_lt j (by decide)), ← show j = 256 * r + j % 256 by omega]
  · have hj : 256 * r + 256 ≤ j := by omega
    rw [if_neg (by omega), tget_append_of_forall_lt, tget_filter 0 ht fun _ => decide_eq_true hj]
    intro p hp
    rcases List.mem_append.mp hp with hp | hp
    · have := hbelow p hp; omega
    · have := hrow p hp; omega

/-! ### Elements of f32 of a register pair

Element e of a group is element e mod 128 of its register e div 128 (R169, R221). -/

theorem regElem_group (h : Hart) (r e : Nat) : regElem h r 32 e = regElem h (r + e / 128) 32 (e % 128) := by
  unfold regElem
  dsimp only
  rw [show r + e / 128 + e % 128 * 32 / 4096 = r + e * 32 / 4096 by omega, show e % 128 * 32 % 4096 = e * 32 % 4096 by omega]

theorem putElem_group (h : Hart) (r : Nat) (p : Nat × Nat) : putElem r 32 h p = putElem (r + p.1 / 128) 32 h (p.1 % 128, p.2) := by
  unfold putElem
  dsimp only
  rw [show r + p.1 / 128 + p.1 % 128 * 32 / 4096 = r + p.1 * 32 / 4096 by omega,
    show p.1 % 128 * 32 % 4096 = p.1 * 32 % 4096 by omega]

theorem regElem_group_putElem_same (h : Hart) (r : Nat) (p : Nat × Nat) : regElem (putElem r 32 h p) r 32 p.1 = p.2 % 2 ^ 32 := by
  rw [putElem_group, regElem_group]
  exact regElem_putElem_same (p := (p.1 % 128, p.2)) (by decide) (by dsimp only; omega)

theorem regElem_group_putElem_ne (h : Hart) (r : Nat) (p : Nat × Nat) {e : Nat} (hne : e ≠ p.1) :
    regElem (putElem r 32 h p) r 32 e = regElem h r 32 e := by
  have hp : p.1 % 128 * 32 + 32 ≤ 4096 := by omega
  rw [putElem_group, regElem_group, regElem_group h]
  by_cases hreg : e / 128 = p.1 / 128
  · rw [hreg]
    exact regElem_putElem_ne (p := (p.1 % 128, p.2)) (by decide) hp (by omega) (by dsimp only; omega)
  · rw [regElem_first (by decide) _ _ (by omega), regElem_first (by decide) _ _ (by omega),
      tget_putElem_ne (p := (p.1 % 128, p.2)) (by decide) hp (by omega)]

/-- Elements written in ascending order read back. -/
theorem regElem_foldl_putElem_range (x : Nat → Nat) (h : Hart) (r : Nat) {k n : Nat} (hk : k < n) :
    regElem (((List.range n).map fun k => (k, x k)).foldl (putElem r 32) h) r 32 k = x k % 2 ^ 32 := by
  induction n with
  | zero => exact absurd hk (Nat.not_lt_zero k)
  | succ n ih =>
    rw [List.range_succ, List.map_append, List.foldl_append, List.map_singleton, List.foldl_cons, List.foldl_nil]
    rcases Nat.lt_succ_iff_lt_or_eq.mp hk with hlt | rfl
    · rw [regElem_group_putElem_ne _ _ _ (Nat.ne_of_lt hlt), ih hlt]
    · exact regElem_group_putElem_same _ _ _

/-! ### Access to tiles (R220 to R222) -/

/-- The code in column k of row r of tile t, as TMRD finds it. -/
def State.tileCode (s : State) (t r k : Nat) : Nat :=
  (tget 0 ((s.myCore.tile t).filter fun p => p.1 / 256 == r) (256 * r + k)).toNat

/-- The effects of a TMRD of row r. -/
def rowRead (s : State) (o : TDo) (r : Nat) : List Upd :=
  popAll s.h [o.b] ++ ([.hart s.h fun h => ((List.range 256).map fun k => (k, s.tileCode o.t r k)).foldl (putElem o.v 32) h]
    ++ setD s.cur (.x o.e) (BitVec.ofNat 64 (s.myCore.tst' o.t).steps.toNat))

section
variable {s : State} {o : TDo}

theorem hart_applyAll_rowRead (r : Nat) : (applyAll (rowRead s o r) s).hart s.h =
    ((List.range 256).map fun k => (k, s.tileCode o.t r k)).foldl (putElem o.v 32) ((applyAll (popAll s.h [o.b]) s).hart s.h) := by
  rw [rowRead, applyAll_append, applyAll_append, setD, applyAll_cons, applyAll_nil, applyAll_cons, applyAll_nil, hart_app_strand,
    hart_app_hart]

theorem regElem_applyAll_rowRead (r : Nat) {k : Nat} (hk : k < 256) :
    regElem ((applyAll (rowRead s o r) s).hart s.h) o.v 32 k = s.tileCode o.t r k := by
  rw [hart_applyAll_rowRead, regElem_foldl_putElem_range (s.tileCode o.t r) _ _ hk]
  exact Nat.mod_eq_of_lt (BitVec.isLt _)

theorem getX_applyAll_rowRead (r : Nat) (he : o.e ≠ 0) : getX ((applyAll (rowRead s o r) s).strand s.cur) o.e =
    BitVec.ofNat 64 (s.myCore.tst' o.t).steps.toNat := by
  rw [rowRead, applyAll_append, applyAll_append, setD, applyAll_cons, applyAll_nil, strand_app_strand]
  exact getX_setX_same _ _ he

variable (h : canIssue s .execute 0 [o.b] [.x o.e] [])
include h

theorem tmrd_outside (hr : 256 ≤ (srcOf s [o.b] 0).toNat ∨ s.myCore.ext ≤ (srcOf s [o.b] 0).toNat) :
    Traps (.tmrd o) s o.form.len { code := 33, val := BitVec.ofNat 64 o.t } := by
  refine traps_of_issue (i := .tmrd o) rfl h ?_
  dsimp only
  rw [rowOf_none hr]
  rfl

theorem tmrd_reads (hr : (srcOf s [o.b] 0).toNat < 256) (hext : (srcOf s [o.b] 0).toNat < s.myCore.ext) :
    Completes (.tmrd o) s o.form.len (rowRead s o (srcOf s [o.b] 0).toNat) := by
  refine completes_of_issue (i := .tmrd o) rfl h ?_
  dsimp only
  rw [rowOf_some hr hext]
  rfl

end

/-- The effects of a TMWR of row r. -/
def rowWritten (s : State) (o : TWo) (r : Nat) : List Upd :=
  popAll s.h [o.b] ++ [.core s.c fun c => c.setTile o.t (putRow (c.tile o.t) r (regElem s.myHart o.v 32))]

section
variable {s : State} {o : TWo}

theorem tile_applyAll_rowWritten (r : Nat) : ((applyAll (rowWritten s o r) s).core s.c).tile o.t =
    putRow (s.myCore.tile o.t) r (regElem s.myHart o.v 32) := by
  rw [rowWritten, applyAll_append, applyAll_cons, applyAll_nil, core_app_core, core_applyAll_popAll]
  exact tget_tput_same _ _ _ _

variable (h : canIssue s .execute 0 [o.b] [] [])
include h

theorem tmwr_busy (hown : ownsTile s.myCore o.t = true) :
    Traps (.tmwr o) s o.form.len { code := 36, val := BitVec.ofNat 64 o.t } :=
  traps_of_issue (i := .tmwr o) rfl h (if_pos hown)

variable (hown : ownsTile s.myCore o.t = false)
include hown

theorem tmwr_outside (hr : 256 ≤ (srcOf s [o.b] 0).toNat ∨ s.myCore.ext ≤ (srcOf s [o.b] 0).toNat) :
    Traps (.tmwr o) s o.form.len { code := 33, val := BitVec.ofNat 64 o.t } := by
  refine traps_of_issue (i := .tmwr o) rfl h ((if_neg (ne_true_of_eq_false hown)).trans ?_)
  rw [rowOf_none hr]
  rfl

theorem tmwr_writes (hr : (srcOf s [o.b] 0).toNat < 256) (hext : (srcOf s [o.b] 0).toNat < s.myCore.ext) :
    Completes (.tmwr o) s o.form.len (rowWritten s o (srcOf s [o.b] 0).toNat) := by
  refine completes_of_issue (i := .tmwr o) rfl h ((if_neg (ne_true_of_eq_false hown)).trans ?_)
  rw [rowOf_some hr hext]
  rfl

end

section
variable {s : State} {o : TSo} (h : canIssue s .execute 0 [] [o.d] [])
include h

theorem tmwait_waits (hown : ownsTile s.myCore o.t = true) : exec (.tmwait o) s = .next (waitAt s s.cur false) :=
  waits_of_issue (us := []) (i := .tmwait o) rfl h (if_pos hown)

variable (hown : ownsTile s.myCore o.t = false)
include hown

theorem tmwait_faults (hflt : (s.myCore.tst' o.t).flt = true) : TrapsAfter (.tmwait o) s o.form.len
    [.core s.c fun c => c.setTst o.t fun q => { q with flt := false, fl := 0 }]
    { code := 39, val := BitVec.ofNat 64 (s.myCore.tst' o.t).cause, elem := BitVec.ofNat 64 (s.myCore.tst' o.t).fstep.toNat } :=
  trapsAfter_of_issue (i := .tmwait o) rfl h ((if_neg (ne_true_of_eq_false hown)).trans (if_pos hflt))

theorem tmwait_returns (hflt : (s.myCore.tst' o.t).flt = false) : Completes (.tmwait o) s o.form.len
    ([.core s.c fun c => c.setTst o.t fun q => { q with fl := 0 }]
      ++ setD s.cur o.d (BitVec.ofNat 64 (tileStatus s.myCore o.t)) ++ setFlags s (s.myCore.tst' o.t).fl) :=
  completes_of_issue_nil (i := .tmwait o) rfl h
    ((if_neg (ne_true_of_eq_false hown)).trans (if_neg (ne_true_of_eq_false hflt)))

end

/-! ### The step of a run (R211, R216) -/

/-- The oldest run of a core makes its step where its engine goes. -/
theorem tmuKStep_happens {s : State} {c : Nat} {q : TmRun} {rest : List TmRun} (hon : s.dev.off = false)
    (hq : (s.core c).runs = q :: rest) (hgoes : engineGoes s (partIx s q.hart) (5760 + c / 4) 1 1 = true) :
    Happens (.tmuKStep c q.tile) s (runStep (if (s.part (partIx s q.hart)).halt.st = 0 then Run.start s
      else (Run.start s).add (countOps (partIx s q.hart) (5760 + c / 4) 1)) c q).out := by
  rw [Happens, exec_tmuKStep, execTmuKStep, hq, ← event_some hon]
  exact congrArg (event s) (if_neg (not_or.mpr ⟨not_not.mpr rfl, by rw [hgoes]; decide⟩))

/-! ### The obligation -/

/-- Settles O53: each instruction ends as its lemmas above say, for the state and the operands select one of the branches of its own
part; a written row reads back in its elements or in its tile, and the step of a run is that of the oldest one. -/
theorem tupleMatrixUnit : Obligations.TupleMatrixUnit := by
  refine ⟨fun s o h => ?tmatt, fun s f h => ⟨tmdet_busy h, tmdet_releases h, fun t => ⟨tmzero_busy h, tmzero_clears h⟩⟩,
    fun s o h => ⟨tmalg_misaligned h, fun ha => ⟨?tmalg, fun r => tmalgs_stores h ha⟩⟩,
    fun s o ta tb hi hta htb hres hm hmMax hn hnMax hga hgb haxis hha hhb => ?tmop,
    fun s o h => ⟨fun t => tmrun_refused h, tmrun_sends h⟩, fun s o h => ⟨tmrd_outside h, fun hr hext => ?tmrd⟩,
    fun s o h => ⟨tmwr_busy h, tmwr_outside h, fun hown hr hext ht => ?tmwr⟩, fun s o h => ?status,
    fun s c t q rest hon hq ht hgoes => ?step⟩
  case tmatt =>
    exact ⟨tmatt_refused h, tmatt_busy h, fun hr hq => tmatt_grants h hr hq (by rw [otherRows_eq])⟩
  case tmalg =>
    exact fun hd cs r r' hhd hcs => ⟨fun t => tmalg_takes h ha hhd hcs, tmalg_refuses h ha hhd hcs⟩
  case tmop =>
    have haccepted : StepAccepted s o _ ta tb := ⟨hta, htb, hres, hm, hmMax, hn, hnMax, hga, hgb, haxis, hha, hhb⟩
    exact ⟨tmop_busy hi haccepted, tmop_steps hi haccepted⟩
  case tmrd =>
    exact ⟨tmrd_reads h hr hext, fun k => regElem_applyAll_rowRead _, getX_applyAll_rowRead _⟩
  case tmwr =>
    refine ⟨tmwr_writes h hown hr hext, fun j => ?_⟩
    exact (congrArg (tget 0 · j) (tile_applyAll_rowWritten _)).trans (tget_putRow ht _ _ j)
  case status =>
    exact ⟨completes_of_issue_nil (i := .tmstat o) rfl h rfl, tmwait_waits h, tmwait_faults h, tmwait_returns h⟩
  case step =>
    subst ht
    exact tmuKStep_happens hon hq hgoes

end Sys2Proof.Machine
end

section
/-! PROOFS. Memory keeps its canonical form: every answer of the machine is a run of updates of the state that it met, for a fetch and
the settling of late loads leave memory as it is, and every update keeps the form: O57 (09 R225). -/

namespace Sys2Proof.Machine

/-- A next state that an outcome answers has its memory in canonical form. -/
def MemOkAfter (o : Host.Outcome State Fault Refusal) : Prop := ∀ t, o = .next t → t.memOk

section
variable {s : State} (hs : s.memOk)

theorem memOkAfter_fault (e : Fault) : MemOkAfter (.fault e) := fun _ h => nomatch h

theorem memOkAfter_ite {p : Prop} [Decidable p] {a b : Host.Outcome State Fault Refusal} (ha : MemOkAfter a) (hb : MemOkAfter b) :
    MemOkAfter (if p then a else b) := by
  split
  · exact ha
  · exact hb

include hs

theorem memOkAfter_next : MemOkAfter (.next s) := fun t h => by cases h; exact hs

theorem memOk_applyAll (us : List Upd) : (applyAll us s).memOk := wf_applyAll us s hs

theorem memOkAfter_applyAll (us : List Upd) : MemOkAfter (.next (applyAll us s)) := memOkAfter_next (memOk_applyAll hs us)

theorem memOkAfter_finish {len : Nat} {a : Act} : MemOkAfter (finish s len a) := fun _ h => wf_finish h hs

theorem memOkAfter_event {e : Option (List Upd)} : MemOkAfter (event s e) := fun _ h => wf_event h hs

theorem memOk_settle (i : Instr) : (settle i s).memOk := by
  rw [State.memOk, (settle_frame i s).1]
  exact hs

/-! ### The meanings that are neither an instruction's end nor an event's updates -/

theorem memOkAfter_writeEvent (n : Nat) (w : Except TrapInfo (List Upd)) (kept : List Upd) :
    MemOkAfter (writeEvent s n w kept) := by
  refine memOkAfter_ite (memOkAfter_fault _) ?_
  cases w with
  | ok us => exact memOkAfter_applyAll hs us
  | error t => exact memOkAfter_applyAll (memOk_applyAll hs kept) _

theorem memOkAfter_firmwareEvent {n reg : Nat} {w : Except TrapInfo (List Upd)} {kept : List Upd} :
    MemOkAfter (firmwareEvent s n reg w kept) :=
  memOkAfter_ite (memOkAfter_writeEvent hs n _ _) (memOkAfter_writeEvent hs n _ _)

theorem memOkAfter_readOnlyEvent {n : Nat} {w : Except TrapInfo (List Upd)} : MemOkAfter (readOnlyEvent s n w) :=
  memOkAfter_ite (memOkAfter_writeEvent hs n _ _) (memOkAfter_writeEvent hs n _ _)

theorem memOkAfter_execMod (m : Pfx) : MemOkAfter (execMod m s) := by
  unfold execMod
  dsimp only
  split
  · exact memOkAfter_finish hs
  · exact memOkAfter_applyAll hs _

/-- The IDLE that ends is one of the strand that the event names. -/
theorem memOkAfter_execIdleEnd (n code : Nat) : MemOkAfter (execIdleEnd n code s) := by
  unfold execIdleEnd
  split
  · exact memOkAfter_ite (memOkAfter_finish (s := { s with cur := n }) hs) (memOkAfter_fault _)
  · exact memOkAfter_fault _

/-- The state in which a waiter's instruction runs: its prefix is in force where a MOD heads the pair. -/
theorem memOk_withPrefix (i : Option Instr) :
    (match i with | some (.mod m) => execBarrierWaitReturn.execPrefix m s | _ => s).memOk := by
  split
  · exact memOk_applyAll hs _
  · exact hs

/-- The waiter runs its own BARW or BARR. -/
theorem memOkAfter_execBarrierWaitReturn (n : Nat) : MemOkAfter (execBarrierWaitReturn n s) := by
  unfold execBarrierWaitReturn
  dsimp only
  refine memOkAfter_ite (memOkAfter_fault _) ?_
  have hpfx := memOk_withPrefix (s := { s with cur := n }) hs
  split
  next o _ => exact (memOkAfter_finish (memOk_settle (hpfx _) _) : MemOkAfter (execBarw o _))
  next o _ => exact (memOkAfter_finish (memOk_settle (hpfx _) _) : MemOkAfter (execBarr o _))
  next => exact memOkAfter_fault _

/-! ### Instructions and events -/

/-- An instruction has its end and an event its updates, but for the meanings above. -/
theorem memOkAfter_exec (i : Instr) : MemOkAfter (exec i s) := by
  cases i
  case mod m => exact memOkAfter_execMod hs m
  case idleEnd n code => exact memOkAfter_execIdleEnd hs n code
  case barrierWaitReturn n => exact memOkAfter_execBarrierWaitReturn hs n
  case coldReset => exact memOkAfter_applyAll hs _
  case kload | islandControl | fwStage | fwCommit | fwSelectBank => exact memOkAfter_firmwareEvent hs
  case partCfgWrite | stgrpWrite => exact memOkAfter_readOnlyEvent hs
  case branchMispredict | queueDeadlock | sourceStop | haltResume | haltEnd | interrupt | waitmWake | waitmTimeout | barrierCredit
    | copyChunk | copyComplete | stashCommandComplete | gatherRow | scatterReduceUpdate | fwalkRun | engineCommandComplete
    | completionStreamPush | tmuKStep | wcTimeout | translationFill | sliceEnd | switchComplete | latencyLimitMiss
    | contextSpillDone | contextFillDone | spillStop | fillStop | launchDispatch | gangPlacement | launchCompletion | hostRead
    | hostWrite | hostLineWrite | spdmMeasurementRequest | xlateTranslate | xlateLookup | xlateInvalidateKey
    | xlateInvalidateAll | episodeStart | episodeEndCommand | imageCopyDone | takeCall | postCall | stampCall | actionRecordPlaced
    | observationRecordPlaced | watchdogExpiry | croftFault | winnowerOrderComplete | islandPowerChangeDone
    | thermalShutdown | softError | fwStageDone | croftUserInstruction | winnowerUnitDone =>
    exact memOkAfter_event hs
  -- where the updates or the trap are no computation, `exec` reduces past `event` and `finish`: the meaning is named
  case linkTraining o => exact (memOkAfter_event hs : MemOkAfter (execLinkTraining o s))
  case throttleStep => exact (memOkAfter_event hs : MemOkAfter (execThrottleStep s))
  case warmReset c => exact (memOkAfter_event hs : MemOkAfter (execWarmReset c s))
  case powerLoss => exact (memOkAfter_event hs : MemOkAfter (execPowerLoss s))
  case keyRevocation v => exact (memOkAfter_event hs : MemOkAfter (execKeyRevocation v s))
  case j o => exact (memOkAfter_finish hs : MemOkAfter (execJ o s))
  case yield f => exact (memOkAfter_finish hs : MemOkAfter (execYield f s))
  case cmoff f m => exact (memOkAfter_finish hs : MemOkAfter (execCmoff f m s))
  case illegalInstruction => exact (memOkAfter_finish hs : MemOkAfter (execIllegalInstruction s))
  case fetchFault va => exact (memOkAfter_finish hs : MemOkAfter (execFetchFault va s))
  all_goals exact memOkAfter_finish hs

theorem memOkAfter_execFetched (f : Fetched) : MemOkAfter (execFetched f s) := by
  cases f with
  | fail va => exact memOkAfter_exec hs (.fetchFault va)
  | illegal => exact memOkAfter_exec (memOk_settle hs _) .illegalInstruction
  | instr i => exact memOkAfter_exec (memOk_settle hs i) i

/-- A fetch fills translations only. -/
theorem memOk_fetchNext : (fetchNext s).2.memOk := by
  unfold fetchNext
  dsimp only
  split
  · exact hs
  · split
    · exact hs
    · exact hs

/-! ### The turns of the schedule -/

theorem memOkAfter_execNext : MemOkAfter (execNext s) := by
  unfold execNext
  dsimp only
  have hfirst := memOkAfter_execFetched (memOk_fetchNext hs) (fetchNext s).1
  split
  next t ht =>
    have htok := hfirst t ht
    exact memOkAfter_ite (memOkAfter_execFetched (memOk_fetchNext htok) _) (memOkAfter_next htok)
  next => exact hfirst

theorem memOkAfter_stepStrand (n : Nat) : MemOkAfter (stepStrand s n) :=
  memOkAfter_ite (memOkAfter_execNext (s := { s with cur := n }) hs) (memOkAfter_next (s := { s with cur := n }) hs)

omit hs in
theorem memOkAfter_stepSlot (ns : List Nat) : ∀ {s : State}, s.memOk → MemOkAfter (stepSlot ns s) := by
  induction ns with
  | nil => exact memOkAfter_next
  | cons n ns ih =>
    intro s hs
    have hstrand := memOkAfter_stepStrand hs n
    unfold stepSlot
    split
    next t ht => exact memOkAfter_ite (ih (hstrand t ht)) (memOkAfter_applyAll (hstrand t ht) _)
    next => exact hstrand

theorem memOkAfter_stepPerform (n k : Nat) : MemOkAfter (stepPerform s n k) := by
  unfold stepPerform
  dsimp only
  split
  · exact memOkAfter_ite (memOkAfter_applyAll hs _) (memOkAfter_fault _)
  · exact memOkAfter_fault _

theorem memOkAfter_landLate (h k : Nat) : MemOkAfter (landLate h k s) := by
  unfold landLate
  dsimp only
  split
  · exact memOkAfter_fault _
  · exact memOkAfter_ite (memOkAfter_fault _) (memOkAfter_ite
      (memOkAfter_ite (memOkAfter_applyAll hs _) (memOkAfter_fault _))
      (memOkAfter_ite (memOkAfter_applyAll hs _) (memOkAfter_fault _)))

theorem memOkAfter_landScalar (h k : Nat) : MemOkAfter (landScalar h k s) := by
  unfold landScalar
  dsimp only
  split
  · exact memOkAfter_fault _
  · exact memOkAfter_ite (memOkAfter_fault _) (memOkAfter_applyAll hs _)

theorem memOkAfter_moveL1d (c line : Nat) (valid : BitVec 16) : MemOkAfter (moveL1d c line valid s) :=
  memOkAfter_ite (memOkAfter_applyAll hs _) (memOkAfter_ite (memOkAfter_applyAll hs _) (memOkAfter_fault _))

theorem memOkAfter_moveL1i (c line : Nat) : MemOkAfter (moveL1i c line s) :=
  memOkAfter_ite (memOkAfter_applyAll hs _) (memOkAfter_ite (memOkAfter_applyAll hs _) (memOkAfter_fault _))

theorem memOkAfter_moveLlc (line : Nat) : MemOkAfter (moveLlc line s) :=
  memOkAfter_ite (memOkAfter_applyAll hs _) (memOkAfter_ite (memOkAfter_applyAll hs _) (memOkAfter_fault _))

theorem memOkAfter_stepTurn (t : Turn) : MemOkAfter (stepTurn s t) := by
  cases t with
  | strand n => exact memOkAfter_stepStrand hs n
  | core c => exact memOkAfter_stepSlot _ hs
  | event i => exact memOkAfter_ite (memOkAfter_exec hs i) (memOkAfter_fault _)
  | perform n k => exact memOkAfter_stepPerform hs n k
  | land h k => exact memOkAfter_ite (memOkAfter_landLate hs h k) (memOkAfter_fault _)
  | landScalar h k => exact memOkAfter_landScalar hs h k
  | l1d c line valid => exact memOkAfter_moveL1d hs c line valid
  | l1i c line => exact memOkAfter_moveL1i hs c line
  | llc line => exact memOkAfter_moveLlc hs line
  | load p ent obj len text => exact memOkAfter_event hs

/-! ### The obligation -/

theorem memOkAfter_step : MemOkAfter (step s) := by
  unfold step
  split
  · exact memOkAfter_stepStrand (s := { s with choice := {} }) hs _
  next t rest _ => exact memOkAfter_stepTurn (s := { s with sched := rest, ns := s.ns + t.ns, choice := t.choice }) hs _

end

/-- Settles O57: a step is one turn, whose every answer is a run of updates. -/
theorem stepKeepsMemoryCanonical : Obligations.StepKeepsMemoryCanonical := fun _ t hs ht => memOkAfter_step hs t ht

end Sys2Proof.Machine
end

section
/-! PROOFS. Copies and stash commands at issue: O38 (09 R240, R245 to R249, R251). -/

namespace Sys2Proof.Machine

/-! ### Commands with a group -/

section
variable {s : State} {i : Instr} {o : DA} {k : Nat} {f : List Nat → Act} (hx : exec i s = finish s 4 (issueCmd s o k f))
  (h : canIssue s .access 0 [] [] (o.d :: groupRegs o.a k))
include hx h

theorem completes_of_issueCmd {us : List Upd} (hf : f (groupVals s o.a k) = .done us) : Completes i s 4 us :=
  completes_of_issue_nil hx h hf

theorem traps_of_issueCmd {t : TrapInfo} (hf : f (groupVals s o.a k) = .trap t) : Traps i s 4 t := traps_of_issue hx h hf

/-- A copy whose group is in order is accepted, or completes at once where it has no bytes (R246). -/
theorem copy_starts {w nd : Nat} {be : Option Nat} {c : Work} (hf : f (groupVals s o.a k) = startCopy s o.d w nd be c) :
    (nd ≠ 0 → Completes i s 4 (acceptCmd s (newCmd s c o.d (w % 4) be none)))
    ∧ (nd = 0 → Completes i s 4 [.strand s.cur (setX o.d (tokenVal 0 0 0))]) :=
  ⟨fun hn => completes_of_issueCmd hx h (hf.trans (if_neg hn)), fun hn => completes_of_issueCmd hx h (hf.trans (if_pos hn))⟩

end

/-! ### The checks of a copy

Each copy tests its own part of the group, and then what copies share. -/

section
variable {p : Prop} [Decidable p] {checks : Option (Option Nat)} {start : Option Nat → Act} {t : TrapInfo}

theorem checked_passes {be : Option Nat} (hp : ¬p) : checks = some be →
    (if p then .trap t else match checks with | none => .trap t | some be => start be : Act) = start be := by
  rintro rfl
  exact if_neg hp

theorem checked_fails : p ∨ checks = none →
    (if p then .trap t else match checks with | none => .trap t | some be => start be : Act) = .trap t := by
  rintro (hp | rfl)
  · exact if_pos hp
  · exact ite_self _

end

/-! ### A slot of the stash -/

theorem srcOf_x (s : State) (r : Nat) : srcOf s [.x r] 0 = getX s.me r := rfl

/-- A source that is no queue has no pop. -/
theorem completes_of_issue_x {s : State} {i : Instr} {len priv r : Nat} {cls : SClass} {dsts : List Dst} {plain : List Nat}
    {k : (Nat → Word) → Act} {us : List Upd} (hx : exec i s = finish s len (issue s cls priv [.x r] dsts plain k))
    (h : canIssue s cls priv [.x r] dsts plain) (hk : k (srcOf s [.x r]) = .done us) : Completes i s len us :=
  completes_of_issue hx h hk

section
variable {s : State} {o : DA} (h : canIssue s .access 0 [.x o.a] [] [o.d])
include h

theorem stflush_unmapped (hslot : slotAt s.myCore ((getX s.me o.a).toNat % 8) = none) : Traps (.stflush o) s 4 stashState :=
  traps_of_issue (i := .stflush o) rfl h (if_pos (Option.isNone_iff_eq_none.mpr hslot))

theorem stunmap_unmapped (hslot : slotAt s.myCore ((getX s.me o.a).toNat % 8) = none) : Traps (.stunmap o) s 4 stashState := by
  refine traps_of_issue (i := .stunmap o) rfl h ?_
  dsimp only
  rw [srcOf_x, hslot]

variable {t : StashSlot} (hslot : slotAt s.myCore ((getX s.me o.a).toNat % 8) = some t)
include hslot

theorem stflush_accepted :
    Completes (.stflush o) s 4 (acceptCmd s (newCmd s (.stflush ((getX s.me o.a).toNat % 8)) o.d 0 none none)) := by
  refine completes_of_issue_x (i := .stflush o) rfl h (if_neg ?_)
  rw [srcOf_x, hslot]
  exact Bool.false_ne_true

theorem stunmap_accepted (hcopies : s.cmds.any (copyUses s t) = false) (hruns : s.myCore.runs.any (runUses s t) = false) :
    Completes (.stunmap o) s 4 (acceptCmd s (newCmd s (.stunmap ((getX s.me o.a).toNat % 8)) o.d 0 none none)) := by
  refine completes_of_issue_x (i := .stunmap o) rfl h ?_
  dsimp only
  rw [srcOf_x, hslot]
  exact if_neg (by rw [hcopies, hruns]; decide)

end

/-! ### The obligation -/

/-- Settles O38: the checks of each command's own part select its acceptance, its end at once or its trap. -/
theorem copyAndStashCommands : Obligations.CopyAndStashCommands := by
  refine ⟨fun s o be h => ⟨fun hlen hchecks => ?cpya, fun hbad => ?cpyaRefused⟩,
    fun s o be h => ⟨fun a b htypes hn hsrc hdst hchecks => ?cpyw, fun htypes => ?cpywUntyped,
      fun a b htypes hbad => ?cpywRefused⟩,
    fun s o be h => ⟨fun hlen hdst hsrc hchecks => ?cpyx, fun hbad => ?cpyxRefused⟩,
    fun s o h => ⟨fun hfree hva hoff hlen hpos hend hbit hd => ?stmap, fun hmeets => ?stmapMeets, fun hfree hbad => ?stmapRefused⟩,
    fun s o h => ⟨fun hslot => ⟨stflush_unmapped h hslot, stunmap_unmapped h hslot⟩,
      fun t hslot => ⟨stflush_accepted h hslot, stunmap_accepted h hslot⟩⟩⟩
  case cpya => exact copy_starts (i := .cpya o) rfl h (checked_passes (Nat.not_le.mpr hlen) hchecks)
  case cpyaRefused => exact traps_of_issueCmd (i := .cpya o) rfl h (checked_fails hbad)
  case cpyw =>
    refine copy_starts (i := .cpyw o) rfl h ?_
    dsimp only
    rw [htypes]
    exact checked_passes (by omega) hchecks
  case cpywUntyped =>
    refine traps_of_issueCmd (i := .cpyw o) rfl h ?_
    dsimp only
    rw [htypes]
  case cpywRefused =>
    refine traps_of_issueCmd (i := .cpyw o) rfl h ?_
    dsimp only
    rw [htypes]
    exact checked_fails (by simpa only [or_assoc] using hbad)
  case cpyx => exact copy_starts (i := .cpyx o) rfl h (checked_passes (by omega) hchecks)
  case cpyxRefused => exact traps_of_issueCmd (i := .cpyx o) rfl h (checked_fails (by simpa only [or_assoc] using hbad))
  case stmap => exact completes_of_issueCmd (i := .stmap o) rfl h ((if_neg (ne_true_of_eq_false hfree)).trans (if_neg (by omega)))
  case stmapMeets => exact traps_of_issueCmd (i := .stmap o) rfl h (if_pos hmeets)
  case stmapRefused =>
    exact traps_of_issueCmd (i := .stmap o) rfl h ((if_neg (ne_true_of_eq_false hfree)).trans (if_pos (by omega)))

end Sys2Proof.Machine
end

section
/-! PROOFS. The events of commands in flight: O40 (09 R240, R241, R244, R251; 10 R257, R259, R261, R263, R267; 05 R131). -/

namespace Sys2Proof.Machine

theorem happens_of_event {s : State} {i : Instr} {e : Option (List Upd)} {us : List Upd} (hx : exec i s = event s e)
    (hon : s.dev.off = false) (he : e = some us) : Happens i s us := by
  rw [Happens, hx, he, event_some hon]

/-- A command that runs is unfinished and its queue's oldest. -/
theorem cmdRuns_iff {s : State} {c : Cmd} {n : Nat} : cmdRuns s c n = true ↔
    c.fin = none ∧ queueHead s c = true ∧ engineGoes s c.part (cmdSource c) n (cmdBound c) = true := by
  simp only [cmdRuns, Bool.and_eq_true, Option.isNone_iff_eq_none, and_assoc]

theorem id_of_cmdOf {s : State} {id : Nat} {c : Cmd} (h : cmdOf s id = some c) : c.id = id :=
  eq_of_beq (List.find?_some h :)

theorem map_id_of_cmdOf {s : State} {id : Nat} {c : Cmd} (h : cmdOf s id = some c) {x : Option Cmd} (hx : x = some c) :
    x.map (·.id) = some id := by
  rw [hx, Option.map_some, id_of_cmdOf h]

/-! ### A context that is in place -/

theorem cmdAway_of_current {s : State} {c : Cmd} (h : c.ent = none ∨ (s.part c.part).cur = c.ent) : cmdAway s c = false := by
  rcases h with h | h <;> simp [cmdAway, h]

theorem tryCtx_of_in_place {s : State} {c : Cmd} (h : cmdAway s c = false) (f : Run → Option Run) :
    tryCtx s c f = (f (Run.start s)).map Run.out := by
  simp [tryCtx, h]

/-! ### The push of a token value -/

@[simp] theorem fifoOf_pushFifo_same (n : Nat) (v : Word) (h : Hart) : (pushFifo n v h).fifoOf n = h.fifoOf n ++ [v] :=
  tget_tput_same _ _ _ _

/-- The updates of a push into port n of the command's hart. -/
def pushedToken (c : Cmd) (id n : Nat) (v : Word) : List Upd :=
  [.hart c.hart (pushFifo n v), .cmd id fun c => { c with pe := none }]

theorem hart_applyAll_pushedToken (s : State) (c : Cmd) (id n : Nat) (v : Word) :
    (applyAll (pushedToken c id n v) s).hart c.hart = pushFifo n v (s.hart c.hart) := hart_app_hart s c.hart (pushFifo n v)

section
variable {s : State} {id : Nat} {c : Cmd} (hon : s.dev.off = false) (hc : cmdOf s id = some c) {us : List Upd}
include hon hc

/-! ### A unit of work -/

theorem copyChunk_happens (hruns : cmdRuns s c 1 = true) (hwork : tryCtx s c (fun r => (copyChunk c r).map (didWork c 1)) = some us) :
    Happens (.copyChunk id) s us := by
  refine happens_of_event (i := .copyChunk id) rfl hon ?_
  rw [hc]
  exact (if_pos hruns).trans hwork

theorem gatherRow_happens {k : Nat} (hleft : rowLeft c = some k) (hruns : cmdRuns s c k = true) (hturn : writeTurn s c = true)
    (hwork : tryCtx s c (fun r => (gatherRow c r).map (didWork c k)) = some us) : Happens (.gatherRow id) s us := by
  refine happens_of_event (i := .gatherRow id) rfl hon ?_
  rw [hc]
  dsimp only
  rw [hleft]
  exact (if_pos (by rw [hruns, hturn]; rfl)).trans hwork

theorem scatterReduceUpdate_happens {k : Nat} (hleft : entryLeft c = some k) (hruns : cmdRuns s c k = true)
    (hfirst : reduceTurn s c = true) (hturn : writeTurn s c = true)
    (hwork : tryCtx s c (fun r => (reduceEntry c r).map (didWork c k)) = some us) : Happens (.scatterReduceUpdate id) s us := by
  refine happens_of_event (i := .scatterReduceUpdate id) rfl hon ?_
  rw [hc]
  dsimp only
  rw [hleft]
  exact (if_pos (by rw [hruns, hfirst, hturn]; rfl)).trans hwork

theorem fwalkRun_happens {rec dst cap sh : Nat} {mem out : Bool} (hkind : c.work = .fwalk rec dst cap mem sh out)
    (hruns : cmdRuns s c 1 = true) (hturn : writeTurn s c = true)
    (hwork : tryCtx s c (fun r => (walkRun c r).map (didWork c 1)) = some us) : Happens (.fwalkRun id) s us := by
  refine happens_of_event (i := .fwalkRun id) rfl hon ?_
  rw [hc]
  dsimp only
  rw [hkind]
  exact (if_pos (by rw [hruns, hturn]; rfl)).trans hwork

/-- The work at an engine command's completion, for one that runs. -/
theorem engineCommandComplete_works (heng : isEngWork c.work = true) (hruns : cmdRuns s c (lastUnits c) = true)
    (hwork : tryCtx s c (lastWork c) = some us) : Happens (.engineCommandComplete id) s us := by
  obtain ⟨hfin, hhead, -⟩ := cmdRuns_iff.mp hruns
  refine happens_of_event (i := .engineCommandComplete id) rfl hon ?_
  rw [hc]
  refine (if_neg (by rw [heng, hhead]; decide)).trans ?_
  rw [hfin]
  exact (if_pos hruns).trans hwork

theorem stepa_entry_happens {list n base stride : Nat} (hkind : c.work = .stepa list n base stride) (hruns : cmdRuns s c 1 = true)
    (hwork : tryCtx s c (fun r => some (didWork c 1 (stepaEntry c list n base stride r))) = some us) :
    Happens (.engineCommandComplete id) s us := by
  have hlast : lastWork c = fun r => some (didWork c 1 (stepaEntry c list n base stride r)) := by
    funext r
    rw [lastWork, (cmdRuns_iff.mp hruns).1, hkind]
  exact engineCommandComplete_works hon hc (by rw [hkind, isEngWork]) (by rw [lastUnits, hkind]; exact hruns) (hlast ▸ hwork)

theorem stepo_entry_happens {list n base stride : Nat} (hkind : c.work = .stepo list n base stride) (hruns : cmdRuns s c 1 = true)
    (hwork : tryCtx s c (fun r => if writeTurn r.s c then (stepoEntry c list n base stride r).map (didWork c 1) else none)
      = some us) : Happens (.engineCommandComplete id) s us := by
  have hlast : lastWork c = fun r => if writeTurn r.s c then (stepoEntry c list n base stride r).map (didWork c 1) else none := by
    funext r
    rw [lastWork, (cmdRuns_iff.mp hruns).1, hkind]
  exact engineCommandComplete_works hon hc (by rw [hkind, isEngWork]) (by rw [lastUnits, hkind]; exact hruns) (hlast ▸ hwork)

/-! ### Completion -/

section
variable {v : Word} (hfin : c.fin = some v)
include hfin

theorem copyComplete_happens (hcopy : (copyShape c.work).isSome = true) :
    Happens (.copyComplete id) s (completeCmd s c v) := by
  obtain ⟨x, hx⟩ := Option.isSome_iff_exists.mp hcopy
  refine happens_of_event (i := .copyComplete id) rfl hon ?_
  rw [hc]
  dsimp only
  rw [hx, hfin]

variable (heng : isEngWork c.work = true) (hhead : queueHead s c = true) (hdone : allDone c = true)
include heng hhead hdone

theorem engineCommandComplete_completes (hport : c.pe = none) : Happens (.engineCommandComplete id) s (completeCmd s c v) := by
  refine happens_of_event (i := .engineCommandComplete id) rfl hon ?_
  rw [hc]
  refine (if_neg (by rw [heng, hhead]; decide)).trans ?_
  rw [hfin]
  exact (if_pos hdone).trans (if_pos (by rw [hport]; rfl))

theorem completionStreamPush_happens {n : Nat} (hport : c.pe = some n) (hlost : c.lost = none)
    (hctx : c.ent = none ∨ (s.part c.part).cur = c.ent) (hgid : (s.hart c.hart).gid = c.gid)
    (hroom : ((s.hart c.hart).fifoOf n).length < 32) : Happens (.completionStreamPush id) s (pushedToken c id n v) := by
  refine happens_of_event (i := .completionStreamPush id) rfl hon ?_
  rw [hc]
  dsimp only
  rw [hfin, hport]
  refine (if_neg (by rw [heng, hhead, hdone]; decide)).trans ?_
  have hstays : (c.lost.isSome || (s.hart c.hart).gid != c.gid) = false := by
    rw [hlost, hgid, bne_self_eq_false]
    rfl
  have hfits : ¬(!(c.lost.isSome || (s.hart c.hart).gid != c.gid) && decide (32 ≤ ((s.hart c.hart).fifoOf n).length)) = true := by
    rw [hstays, decide_eq_false (Nat.not_le.mpr hroom)]
    exact Bool.false_ne_true
  refine (tryCtx_of_in_place (cmdAway_of_current hctx) _).trans ((congrArg (Option.map Run.out) (if_neg hfits)).trans ?_)
  exact congrArg (fun r => some (Run.add r _).out) (if_neg (ne_true_of_eq_false hstays))

end

/-! ### Credits and stash commands -/

theorem barrierCredit_happens {k : Nat} {rest : List Nat} (howed : c.owed = k :: rest) (hbar : c.be.isSome = true) :
    Happens (.barrierCredit id) s (withCtx s c fun r => (creditCmd c k r).add (.cmd id fun c => { c with owed := rest })) := by
  obtain ⟨b, hb⟩ := Option.isSome_iff_exists.mp hbar
  refine happens_of_event (i := .barrierCredit id) rfl hon ?_
  rw [hc]
  dsimp only
  rw [howed, hb]

section
variable (hstash : cmdEngine c.work = 3) (hfirst : (s.cmds.find? fun d => cmdEngine d.work == 3 && d.hart == c.hart
  && d.part == c.part && d.ent == c.ent && d.lost == c.lost) = some c)
include hstash hfirst

theorem stashCommandComplete_works (hfin : c.fin = none) (hgoes : engineGoes s c.part (cmdSource c) 1 1 = true) :
    Happens (.stashCommandComplete id) s (withCtx s c fun r => didWork c 1 ((stashDone c r).add (dropCmd id))) := by
  refine happens_of_event (i := .stashCommandComplete id) rfl hon ?_
  rw [hc]
  refine (if_pos ⟨hstash, map_id_of_cmdOf hc hfirst⟩).trans ?_
  rw [hfin]
  exact if_pos hgoes

theorem stashCommandComplete_stopped {v : Word} (hfin : c.fin = some v) :
    Happens (.stashCommandComplete id) s (completeCmd s c v) := by
  refine happens_of_event (i := .stashCommandComplete id) rfl hon ?_
  rw [hc]
  refine (if_pos ⟨hstash, map_id_of_cmdOf hc hfirst⟩).trans ?_
  rw [hfin]

end

end

/-! ### The obligation -/

/-- Settles O40: each event finds the command, whose state selects the work, the completion, the push or the credit. -/
theorem commandEvents : Obligations.CommandEvents := by
  intro s id c hon hc
  refine ⟨fun us => copyChunk_happens hon hc, fun k us => gatherRow_happens hon hc, fun k us => scatterReduceUpdate_happens hon hc,
    fun rec dst cap mem sh out us => fwalkRun_happens hon hc, fun list n base stride us => stepa_entry_happens hon hc,
    fun list n base stride us => stepo_entry_happens hon hc, fun v => copyComplete_happens hon hc,
    fun v => engineCommandComplete_completes hon hc, fun v n hfin heng hhead hdone hport hlost hctx hgid hroom => ?push,
    fun k rest => barrierCredit_happens hon hc,
    fun hstash hfirst => ⟨stashCommandComplete_works hon hc hstash hfirst,
      fun v => stashCommandComplete_stopped hon hc hstash hfirst⟩⟩
  case push =>
    refine ⟨_, completionStreamPush_happens hon hc hfin heng hhead hdone hport hlost hctx hgid hroom, ?_, rfl⟩
    rw [hart_applyAll_pushedToken, fifoOf_pushFifo_same]

end Sys2Proof.Machine
end

section
/-! PROOFS. The host's accesses, the link, held writes, walkers, the translator's ring and the resets: O54 (05 R124; 09 R229, R232; 16
R337, R339; 22 R403 to R405, R414, R415; 24 R427). -/

namespace Sys2Proof.Machine

/-! ### Zeroed memory (R414) -/

theorem tget_of_forall_ne {α : Type} (d : α) {t : Tab α} {n : Nat} (h : ∀ p ∈ t, p.1 ≠ n) : tget d t n = d := by
  induction t with
  | nil => rfl
  | cons p t ih =>
    obtain ⟨hp, ht⟩ := List.forall_mem_cons.mp h
    rw [tget, if_neg (Ne.symm hp), ih ht, ite_self]

theorem tget_tclear_in {α : Type} (d : α) (t : Tab α) {lo hi n : Nat} (hlo : lo ≤ n) (hhi : n < hi) :
    tget d (tclear t lo hi) n = d := by
  refine tget_of_forall_ne d fun p hp => ?_
  have hkept := (List.mem_filter.mp hp).2
  simp only [Bool.or_eq_true, decide_eq_true_eq] at hkept
  omega

/-- The updates that zero frames. -/
def zeroFrames (fs : List Nat) : List Upd := fs.map fun f => .zero (4096 * f) (4096 * f + 4096)

/-- Of memory the bytes outside the frames are left. -/
theorem mem_applyAll_zeroFrames (fs : List Nat) (s : State) :
    (applyAll (zeroFrames fs) s).mem = s.mem.filter fun p => decide (p.1 / 4096 ∉ fs) := by
  induction fs generalizing s with
  | nil => simp [zeroFrames]
  | cons f fs ih =>
    rw [zeroFrames, List.map_cons, applyAll_cons, ← zeroFrames, ih, app_zero_mem, tclear, List.filter_filter]
    refine List.filter_congr fun p _ => ?_
    rw [Bool.eq_iff_iff]
    simp only [Bool.and_eq_true, Bool.or_eq_true, decide_eq_true_eq, List.mem_cons, not_or]
    rw [show (p.1 < 4096 * f ∨ 4096 * f + 4096 ≤ p.1) ↔ p.1 / 4096 ≠ f by omega, and_comm]

theorem tget_zeroFrames_in {fs : List Nat} {s : State} {a : Nat} (h : a / 4096 ∈ fs) :
    tget 0 (applyAll (zeroFrames fs) s).mem a = 0 := by
  rw [mem_applyAll_zeroFrames]
  refine tget_of_forall_ne 0 fun p hp ha => ?_
  exact of_decide_eq_true (List.mem_filter.mp hp).2 (ha ▸ h)

theorem tget_zeroFrames_out {fs : List Nat} {s : State} (hs : s.memOk) {a : Nat} (h : a / 4096 ∉ fs) :
    tget 0 (applyAll (zeroFrames fs) s).mem a = tget 0 s.mem a := by
  rw [mem_applyAll_zeroFrames]
  exact tget_filter 0 ((tcanon_iff 0 s.mem).mp hs).1 fun _ => decide_eq_true h

/-! ### The resets (R414, R427) -/

theorem exec_coldReset (c : CfgRec) (s : State) :
    exec (.coldReset c) s = .next (applyAll [.zero 0 (2 ^ 40), .other fun s => resetState c s []] s) := rfl

/-- The claims that a warm reset leaves. -/
def keptClaims (s : State) : List Claim :=
  s.dev.claims.flatMap fun c => (taggedFrames s).foldl (fun l f => l.flatMap (splitClaim f)) [c]

/-- A warm reset zeroes the tagged frames, and then all state but memory and the kept claims is as at reset. -/
theorem exec_warmReset {s : State} (hon : s.dev.off = false) (c : CfgRec) : exec (.warmReset c) s =
    .next ((Upd.other fun s' => resetState c s' (keptClaims s)).app (applyAll (zeroFrames (taggedFrames s)) s)) := by
  have hx : exec (.warmReset c) s =
      event s (some (zeroFrames (taggedFrames s) ++ [.other fun s' => resetState c s' (keptClaims s)])) := rfl
  rw [hx, event_some hon, applyAll_append]
  rfl

/-! ### The translator's ring (R337, R339) -/

theorem exec_xlateTranslate (p : Nat) (s : State) : exec (.xlateTranslate p) s = execXlateTranslate p s := rfl
theorem exec_xlateLookup (p : Nat) (s : State) : exec (.xlateLookup p) s = execXlateLookup p s := rfl
theorem exec_xlateInvalidateKey (p : Nat) (s : State) : exec (.xlateInvalidateKey p) s = execXlateInvalidateKey p s := rfl
theorem exec_xlateInvalidateAll (p : Nat) (s : State) : exec (.xlateInvalidateAll p) s = execXlateInvalidateAll p s := rfl

/-- The number of entries that an invalidation reports. -/
theorem eraseBarn_fst (s : State) (r : Run) (f : BarnEnt → Bool) : (eraseBarn s r f).1 = (s.dev.barn.filter f).length :=
  List.countP_eq_length_filter

section
variable {s : State} {p : Nat} {q : Request} (hon : s.dev.off = false) (h : nextRequest s p = some q)
include h

theorem readRequest_of_next : ∃ r, readRequest s p (Run.start s) = .ok (some q, r) := by
  unfold nextRequest at h
  split at h
  next r hr => exact ⟨r, h ▸ hr⟩
  next => cases h

/-- A request that is due is served by the event of its op. -/
theorem serve_of_next {op : Nat → Bool} {n : Nat} (hn : dbl q.bytes 0 = n) (hop : op n = true) (k : Request → Option (List Upd)) :
    serve p s op k = event s (k q) := by
  obtain ⟨r, hr⟩ := readRequest_of_next h
  rw [serve, hr]
  exact congrArg (event s) (if_pos (hn ▸ hop))

variable {us : List Upd}
include hon

theorem xlateTranslate_happens (hop : dbl q.bytes 0 = 1) (hus : serveModule s p q true = some us) :
    Happens (.xlateTranslate p) s us :=
  happens_of_event ((exec_xlateTranslate p s).trans (serve_of_next h hop rfl _)) hon ((if_pos hop).trans hus)

theorem xlateLookup_happens (hop : dbl q.bytes 0 = 2) (hus : serveModule s p q false = some us) : Happens (.xlateLookup p) s us :=
  happens_of_event ((exec_xlateLookup p s).trans (serve_of_next h hop rfl _)) hon hus

theorem xlateInvalidateKey_happens (hop : dbl q.bytes 0 = 3)
    (hus : answer p q { key := requestKey q, status := 1, rsize := (s.dev.barn.filter fun e => e.key == requestKey q).length }
      (eraseBarn s q.run fun e => e.key == requestKey q).2 = some us) : Happens (.xlateInvalidateKey p) s us := by
  refine happens_of_event ((exec_xlateInvalidateKey p s).trans (serve_of_next h hop rfl _)) hon ?_
  rw [← eraseBarn_fst s q.run] at hus
  exact hus

theorem xlateInvalidateAll_happens (hop : dbl q.bytes 0 = 4)
    (hus : answer p q { key := requestKey q, status := 1, rsize := s.dev.barn.length } (eraseBarn s q.run fun _ => true).2 = some us) :
    Happens (.xlateInvalidateAll p) s us := by
  refine happens_of_event ((exec_xlateInvalidateAll p s).trans (serve_of_next h hop rfl _)) hon ?_
  rw [show s.dev.barn.length = _ from congrArg List.length (List.filter_true _).symm, ← eraseBarn_fst s q.run] at hus
  exact hus

end

/-! ### Held writes and walkers (R229, R232) -/

section
variable {s : State} (hon : s.dev.off = false)
include hon

theorem wcTimeout_happens {c blk : Nat} {b : WcBlock} (hb : (s.core c).wc.find? (fun b => b.pa == blk
    && decide (b.since + (s.core c).wcwait ≤ s.cycles c)) = some b) :
    Happens (.wcTimeout c blk) s (wcFlushBlock (Run.start s) c b).out := by
  refine happens_of_event (i := .wcTimeout c blk) rfl hon ?_
  rw [hb]

/-- The updates of a walk: those that it made before a fault stay (R229). -/
def walkUpds (x : Except XlErr (Word × Nat × Run)) : List Upd :=
  match x with
  | .ok (_, _, r) => r.out
  | .error t => t.2.out

theorem translationFill_happens {h : Nat} {va : Word} (hcanon : canonical va.toNat = true)
    (hmem : ¬(windowBase ≤ va.toNat ∧ va.toNat < 2 ^ 56)) (huser : (spaceOf s h).user = true)
    (hnew : tlbFind s (spaceOf s h) va.toNat = none) :
    Happens (.translationFill h va) s (walkUpds (fillTlb (Run.start s) (spaceOf s h) (va.toNat % 2 ^ 57))) := by
  have hwalks : ¬(!canonical va.toNat || (decide (windowBase ≤ va.toNat) && decide (va.toNat < 2 ^ 56))
      || ((spaceOf s h).root == 0 && !(spaceOf s h).user) || (tlbFind s (spaceOf s h) va.toNat).isSome) = true := by
    rw [hcanon, huser, hnew, ← Bool.decide_and, decide_eq_false hmem]
    simp
  refine happens_of_event (i := .translationFill h va) rfl hon ((if_neg hwalks).trans ?_)
  cases fillTlb (Run.start s) (spaceOf s h) (va.toNat % 2 ^ 57) with
  | ok x => rfl
  | error t => rfl

end

/-! ### The link and the host (R403 to R405, R124, R415) -/

theorem trains_iff {o : LinkOffer} : trains o = true ↔ o.width ∈ [16, 8, 4] ∧ o.speed ∈ [64, 32] ∧ o.flit256 = true := by
  simp only [trains, Bool.and_eq_true, List.contains_iff_mem, and_assoc]

theorem not_trains {o : LinkOffer} (h : o.width ∉ [16, 8, 4] ∨ o.speed ∉ [64, 32] ∨ o.flit256 = false) : ¬trains o = true := by
  intro ht
  obtain ⟨hw, hs, hf⟩ := trains_iff.mp ht
  rcases h with h | h | h
  · exact h hw
  · exact h hs
  · exact Bool.false_ne_true (h ▸ hf)

/-- An access that lies within one line of the HDM range. -/
theorem hostLine_iff {a n : Nat} : hostLine a n = true ↔ 1 ≤ n ∧ a % 64 + n ≤ 64 ∧ a + n ≤ 2 ^ 40 := by
  simp only [hostLine, Bool.and_eq_true, decide_eq_true_eq, and_assoc]

/-- The decoder's base stands before every device address (R404). -/
theorem hostAddr_base_add {s : State} {l : Link} (hl : s.dev.link = some l) (a : Nat) : hostAddr s (l.base + a) = some a := by
  rw [hostAddr, hl]
  exact (if_pos (Nat.le_add_right _ _)).trans (congrArg some (Nat.add_sub_cancel_left _ _))

theorem linkUp_of_link {s : State} {l : Link} (hl : s.dev.link = some l) : linkUp s = true := by rw [linkUp, hl]; rfl

section
variable {s : State} (hon : s.dev.off = false)
include hon

theorem linkTraining_happens (o : LinkOffer) : Happens (.linkTraining o) s [.dev fun d =>
    { d with link := if trains o then some ⟨o.width, o.speed, o.opts.filter supported, o.base⟩ else none }] := event_some hon

variable {l : Link} (hl : s.dev.link = some l)
include hl

section
variable {a n : Nat} (hline : hostLine a n = true)
include hline

theorem hostRead_answers : Happens (.hostRead (l.base + a) n) s ((if shielded s (a / 4096) then [refuseHost] else [])
    ++ [.dev fun d => { d with answer := some (hostData s a n) }]) := by
  refine happens_of_event (i := .hostRead (l.base + a) n) rfl hon ?_
  rw [hostAddr_base_add hl]
  exact if_neg (by rw [hline]; exact Bool.false_ne_true)

theorem hostRead_unshielded (hfree : shielded s (a / 4096) = false) : Happens (.hostRead (l.base + a) n) s
    [.dev fun d => { d with answer := some ((List.range n).map fun i => homeByte s none (a + i), false) }] := by
  have hread := hostRead_answers hon hl hline
  rwa [hostData, hfree, if_neg Bool.false_ne_true, if_neg Bool.false_ne_true] at hread

theorem hostRead_shielded (hshut : shielded s (a / 4096) = true) : Happens (.hostRead (l.base + a) n) s
    [.dev fun d => { d with hrej := d.hrej + 1 }, .dev fun d => { d with answer := some (List.replicate n 0, true) }] := by
  have hread := hostRead_answers hon hl hline
  rwa [hostData, hshut, if_pos rfl, if_pos rfl] at hread

end

section
variable {a : Nat} {bs : List Byte} (hline : hostLine a bs.length = true)
include hline

theorem hostWrite_unshielded (hfree : shielded s (a / 4096) = false) :
    Happens (.hostWrite (l.base + a) bs) s ((putHome (Run.start s) none a bs).out ++ [wakeAll]) := by
  refine happens_of_event (i := .hostWrite (l.base + a) bs) rfl hon ?_
  rw [hostAddr_base_add hl]
  exact (if_neg (by rw [hline]; exact Bool.false_ne_true)).trans (if_neg (ne_true_of_eq_false hfree))

theorem hostWrite_shielded (hshut : shielded s (a / 4096) = true) : Happens (.hostWrite (l.base + a) bs) s [refuseHost] := by
  refine happens_of_event (i := .hostWrite (l.base + a) bs) rfl hon ?_
  rw [hostAddr_base_add hl]
  exact (if_neg (by rw [hline]; exact Bool.false_ne_true)).trans (if_pos hshut)

end

theorem hostLineWrite_happens {a : Nat} {bs : List Byte} (hbs : bs ≠ []) (hline : a % 64 + bs.length ≤ 64) (hlo : 2 ^ 51 ≤ a)
    (hhi : a + bs.length ≤ 2 ^ 52) : Happens (.hostLineWrite a bs) s ((putHome (Run.start s) none a bs).out ++ [wakeAll]) := by
  refine happens_of_event (i := .hostLineWrite a bs) rfl hon (if_neg ?_)
  rw [linkUp_of_link hl, List.isEmpty_eq_false_iff.mpr hbs, decide_eq_false (Nat.not_lt.mpr hlo), decide_eq_false (Nat.not_lt.mpr hhi),
    decide_eq_false (Nat.not_lt.mpr hline)]
  exact Bool.false_ne_true

theorem spdmMeasurementRequest_happens : Happens .spdmMeasurementRequest s
    [.dev fun d => { d with spdm := measurements d ++ [Config.identitySign (measurements d).flatten] }] :=
  happens_of_event (i := .spdmMeasurementRequest) rfl hon (if_neg (by rw [linkUp_of_link hl]; exact Bool.false_ne_true))

end

/-! ### The obligation -/

/-- Settles O54: the state selects what each event does, and after a reset memory holds what the zeroed ranges leave of it. -/
theorem hostTranslatorAndResetEvents : Obligations.HostTranslatorAndResetEvents := by
  refine ⟨fun s hon => ⟨fun c blk b => wcTimeout_happens hon, fun h va hcanon hmem huser hnew => ?walk,
      fun o hw hs hf => ?trains, fun o hbad => ?stays,
      fun l hl => ⟨fun a n hn hline hend => ?read, fun a bs hbs hline hend => ?write, fun a bs => hostLineWrite_happens hon hl, ?spdm⟩,
      fun p q h => ⟨fun us => xlateTranslate_happens hon h, fun us => xlateLookup_happens hon h,
        fun us => xlateInvalidateKey_happens hon h, fun us => xlateInvalidateAll_happens hon h⟩⟩,
    fun s c => ?cold, fun s c hon => ?warm⟩
  case walk =>
    have hfill := translationFill_happens hon hcanon hmem huser hnew
    exact ⟨fun e n r hr => by rwa [hr] at hfill, fun t ht => by rwa [ht] at hfill⟩
  case trains =>
    have hlink := linkTraining_happens hon o
    rwa [if_pos (trains_iff.mpr ⟨hw, hs, hf⟩)] at hlink
  case stays =>
    have hlink := linkTraining_happens hon o
    rwa [if_neg (not_trains hbad)] at hlink
  case read =>
    have hline := hostLine_iff.mpr ⟨hn, hline, hend⟩
    exact ⟨hostRead_unshielded hon hl hline, hostRead_shielded hon hl hline⟩
  case write =>
    have hline := hostLine_iff.mpr ⟨List.length_pos_iff.mpr hbs, hline, hend⟩
    exact ⟨hostWrite_unshielded hon hl hline, hostWrite_shielded hon hl hline⟩
  case spdm => exact ⟨_, spdmMeasurementRequest_happens hon hl, rfl, rfl⟩
  case cold =>
    exact ⟨_, exec_coldReset c s, rfl, rfl, rfl, rfl, rfl, rfl, rfl, rfl, rfl, rfl, rfl,
      fun a ha => tget_tclear_in 0 s.mem (Nat.zero_le a) ha⟩
  case warm =>
    exact ⟨_, exec_warmReset hon c, rfl, rfl, rfl, rfl, rfl, rfl, rfl, rfl, rfl, rfl,
      fun a => tget_zeroFrames_in, fun hs a => tget_zeroFrames_out hs⟩

end Sys2Proof.Machine
end

section
/-! PROOFS. How a vector instruction ends that has no scalar operand, or that a fault met in its course ends (07 R168). -/

namespace Sys2Proof.Machine

/-- A check that a Boolean refuses passes where it is true. -/
theorem not_refused {b : Bool} (h : b = true) : ¬(!b) = true := by
  rw [h]
  decide

section
variable {s : State} {i : Instr} {len : Nat} {ok : Ty → Bool} {k : VCtx → (Nat → Nat) → Act} {us : List Upd} {t : TrapInfo}
  (hx : exec i s = finish s len (vecRun s (.v 0) ok k)) (h : canIssue s .execute 0 [] [] []) (ho : ok (vcx s).ty = true)
include hx h ho

/-- A vector instruction without a scalar operand has no pops. -/
theorem completes_of_vecRun_nil (hk : k (vcx s) (vopnd s (vcx s) (.v 0) (srcOf s [] 0)) = .done us) : Completes i s len us :=
  completes_of_vecRun (c := .v 0) hx h ho hk

theorem trapsAfter_of_vecRun_nil (hk : k (vcx s) (vopnd s (vcx s) (.v 0) (srcOf s [] 0)) = .part us t) : TrapsAfter i s len us t :=
  trapsAfter_of_issue hx h ((if_pos ho).trans hk)

end

end Sys2Proof.Machine
end

section
/-! PROOFS. Engine ports: O37 (10 R252 to R256). -/

namespace Sys2Proof.Machine

/-! ### EPUSH (R253, R254) -/

section
variable {s : State} {o : EPo} (h : canIssue s .access 0 [o.a] [] [])

/-- An EPUSH through a mutual peer port passes its checks. -/
theorem epush_bound (hkind : portKind (s.myHart.port o.p) = 1) (hmutual : mutualPort s s.h o.p = true) :
    ¬(portKind (s.myHart.port o.p) ≠ 1 ∨ (!mutualPort s s.h o.p) = true) := by
  rw [hkind, hmutual]
  decide

include h

theorem epush_unbound (hport : portKind (s.myHart.port o.p) ≠ 1 ∨ mutualPort s s.h o.p = false) :
    Traps (.epush o) s o.form.len portFault :=
  traps_of_issue (i := .epush o) rfl h (if_pos (hport.imp_right fun hm => by rw [hm]; rfl))

variable (hkind : portKind (s.myHart.port o.p) = 1) (hmutual : mutualPort s s.h o.p = true) {n k : Nat}
  (hpeer : portPeer (s.myHart.port o.p) = (n, k))
include hkind hmutual hpeer

theorem epush_pushes (hroom : ((s.hart k).fifoOf n).length < 32) : Completes (.epush o) s o.form.len (popAll s.h [o.a]
    ++ ((wcFlush (flushScalars (Run.start s) s.cur) s.c).out ++ [.hart k (pushFifo n (srcOf s [o.a] 0))])) := by
  refine completes_of_issue (i := .epush o) rfl h ((if_neg (epush_bound hkind hmutual)).trans ?_)
  rw [hpeer]
  exact if_neg (Nat.not_le.mpr hroom)

theorem epush_waits (hfull : 32 ≤ ((s.hart k).fifoOf n).length) : exec (.epush o) s = .next (waitAt s s.cur false) := by
  refine waits_of_issue (us := []) (i := .epush o) rfl h ((if_neg (epush_bound hkind hmutual)).trans ?_)
  rw [hpeer]
  exact if_pos hfull

end

/-! ### EPOP (R253, R254) -/

section
variable {s : State} {o : QPo} (h : canIssue s .access 0 [] [o.d] [])
include h

theorem epop_unbound (hport : readable s o.q = false) : Traps (.epop o) s o.form.len portFault :=
  traps_of_issue (i := .epop o) rfl h (if_pos (by rw [hport]; rfl))

section
variable (hport : readable s o.q = true) (hreader : portReader (s.myHart.port o.q) = 0)
include hport hreader

theorem epop_takes {w : Word} {ws : List Word} (hfifo : s.myHart.fifoOf o.q = w :: ws) :
    Completes (.epop o) s o.form.len (.hart s.h (popFifo o.q 1) :: setD s.cur o.d w) := by
  refine completes_of_issue_nil (i := .epop o) rfl h
    ((if_neg (not_refused hport)).trans ((if_neg (not_not.mpr hreader)).trans ?_))
  rw [hfifo]

theorem epop_waits (hfifo : s.myHart.fifoOf o.q = []) : exec (.epop o) s = .next (waitAt s s.cur false) := by
  refine waits_of_issue (us := []) (i := .epop o) rfl h
    ((if_neg (not_refused hport)).trans ((if_neg (not_not.mpr hreader)).trans ?_))
  rw [hfifo]

end

end

/-! ### EPOPV (R255) -/

/-- What the entries of a port make of the elements of width w that they fill. -/
def filledBy (w : Nat) (rest : List Nat) (entries : List Word) : List (Nat × Nat) :=
  (rest.zip entries).map fun p => (p.1, p.2.toNat % 2 ^ w)

theorem filledBy_length (w : Nat) {rest : List Nat} {entries : List Word} (h : rest.length ≤ entries.length) :
    (filledBy w rest entries).length = rest.length := by
  rw [filledBy, List.length_map, List.length_zip, Nat.min_eq_left h]

section
variable {s : State} {o : VNo} (h : canIssue s .execute 0 [] [] [])
include h

theorem epopv_unbound (hport : readable s o.n = false) : Traps (.epopv o) s o.form.len portFault :=
  traps_of_vecRun (c := .v 0) (i := .epopv o) rfl h rfl (if_pos (by rw [hport]; rfl))

/-- With an entry for each element left, an EPOPV takes as many entries as elements are left. -/
theorem epopv_fills (hport : readable s o.n = true) (hreader : portReader (s.myHart.port o.n) = 1) {rest : List Nat}
    (hrest : ((vcx s).active s o.mask).drop (filled s.me o.n) = rest) (hlen : rest.length ≤ (s.myHart.fifoOf o.n).length) :
    Completes (.epopv o) s o.form.len ((acquireAll s).out ++ Upd.hart s.h (popFifo o.n rest.length)
      :: (vcx s).put o.v (vcx s).w (filledBy (vcx s).w rest (s.myHart.fifoOf o.n))
      ++ [.strand s.cur fun st => { st with popv := recordsNotAt (site s.me) st.popv }]) := by
  subst hrest
  have hgot := filledBy_length (vcx s).w hlen
  refine completes_of_vecRun_nil (i := .epopv o) rfl h rfl
    ((if_neg (not_refused hport)).trans ((if_neg (not_not.mpr hreader)).trans ((if_pos hgot).trans ?_)))
  rw [← filledBy, hgot]

end

/-! ### The obligation -/

/-- Settles O37: the binding of the port and the entries of its FIFO select the trap, the wait or the transfer. -/
theorem enginePorts : Obligations.EnginePorts := by
  exact ⟨fun s o h => ⟨epush_unbound h,
      fun hkind hmutual => ⟨epush_pushes h hkind hmutual rfl, epush_waits h hkind hmutual rfl⟩⟩,
    fun s o h => ⟨epop_unbound h, fun hport hreader => ⟨fun w ws => epop_takes h hport hreader, epop_waits h hport hreader⟩⟩,
    fun s o h => ⟨epopv_unbound h, fun hport hreader => epopv_fills h hport hreader rfl⟩⟩

end Sys2Proof.Machine
end

section
/-! PROOFS. Engine commands at issue: O39 (10 R258, R262, R266, R278, R286, R287). -/

namespace Sys2Proof.Machine

theorem trapsAfter_of_issueCmd {s : State} {i : Instr} {o : DA} {k : Nat} {f : List Nat → Act} {us : List Upd} {t : TrapInfo}
    (hx : exec i s = finish s 4 (issueCmd s o k f)) (h : canIssue s .access 0 [] [] (o.d :: groupRegs o.a k))
    (hf : f (groupVals s o.a k) = .part us t) : TrapsAfter i s 4 us t := trapsAfter_of_issue hx h hf

/-! ### GATH (R262)

Where the control double asks for a result mask, the issue also names the register after the group, which gives its place. -/

/-- The control double of a GATH asks for a result mask (Table 10.4). -/
def asksMask (s : State) (o : DA) : Bool := (getX s.me (o.a + 5)).getLsbD 17

/-- The place of the result mask of a GATH. -/
def maskPlace (s : State) (o : DA) : Option Nat := if asksMask s o then some (getX s.me (o.a + 6)).toNat else none

/-- A GATH can issue: its group and, where one is asked for, the register of the mask await no token. -/
def gathIssues (s : State) (o : DA) : Prop :=
  canIssue s .access 0 [] [] (o.d :: groupRegs o.a 6 ++ if asksMask s o then [o.a + 6] else [])

section
variable {s : State} {o : DA}

theorem gathIssues_of_unmasked (hm : asksMask s o = false) (h : canIssue s .access 0 [] [] (o.d :: groupRegs o.a 6)) :
    gathIssues s o := by
  rw [gathIssues, hm, if_neg Bool.false_ne_true, List.append_nil]
  exact h

theorem gathIssues_of_masked (hm : asksMask s o = true)
    (h : canIssue s .access 0 [] [] (o.d :: groupRegs o.a 6 ++ [o.a + 6])) : gathIssues s o := by
  rw [gathIssues, hm, if_pos rfl]
  exact h

variable (h : gathIssues s o) {x : List Nat} (hgroup : groupVals s o.a 6 = x)
include h hgroup

theorem gath_accepted {c : Option Nat × Option Nat} {list n table bound rb : Nat}
    (hrows : rowTable x = some (list, n, table, bound, rb)) (hctl : engCtl s (x.getD 5 0) 0x30000 = some c)
    (halign : x.getD 4 0 % 64 = 0) (hrange : rangeOk (x.getD 4 0) (n * rb) = true) (hdest : gathDest s (x.getD 4 0) (n * rb) = true)
    (hreg : asksMask s o = true → o.a ≠ 58) {mask : Option Nat} (hmask : maskPlace s o = mask)
    (hall : mask.all (fun m => rangeOk m ((n + 7) / 8)) = true) : Completes (.gath o) s 4 (acceptCmd s
      (newCmd s (.gath list n table bound rb (x.getD 4 0) ((x.getD 5 0).testBit 16) mask) o.d (x.getD 5 0 % 4) c.1 c.2)) := by
  subst hgroup hmask
  refine completes_of_issue_nil (i := .gath o) rfl h ?_
  dsimp only
  rw [hrows, hctl]
  refine if_neg ?_
  simp only [not_or]
  exact ⟨fun ⟨hm, h58⟩ => hreg hm h58, not_not.mpr halign, not_refused hrange, not_refused hdest, not_refused hall⟩

theorem gath_refused (hctl : engCtl s (x.getD 5 0) 0x30000 = none) : Traps (.gath o) s 4 engineValue := by
  subst hgroup
  refine traps_of_issue (i := .gath o) rfl h ?_
  dsimp only
  rw [hctl]
  cases rowTable (groupVals s o.a 6) <;> rfl

end

/-! ### SCRED (R266) -/

section
variable {s : State} {o : DA} (h : canIssue s .access 0 [] [] (o.d :: groupRegs o.a 6)) {x : List Nat}
  (hgroup : groupVals s o.a 6 = x)
include h hgroup

theorem scred_accepted {c : Option Nat × Option Nat} {list n table bound rb : Nat} {ty : Ty}
    (hrows : rowTable x = some (list, n, table, bound, rb)) (hctl : engCtl s (x.getD 5 0) 0xFF0000 = some c)
    (hcode : Ty.ofCode (x.getD 5 0 / 2 ^ 18 % 32) = some ty) (hop : x.getD 5 0 / 2 ^ 16 % 4 ≠ 3) (hty : reduceTy ty = true)
    (hrow : rb % (ty.bits / 8) = 0) (hrange : rangeOk (x.getD 4 0) (n * rb) = true) : Completes (.scred o) s 4 (acceptCmd s
      (newCmd s (.scred list n table bound rb (x.getD 4 0) (x.getD 5 0 / 2 ^ 16 % 4) ty ((x.getD 5 0).testBit 23)) o.d
        (x.getD 5 0 % 4) c.1 c.2)) := by
  subst hgroup
  refine completes_of_issueCmd (i := .scred o) rfl h ?_
  dsimp only
  rw [hrows, hctl, hcode]
  refine if_neg ?_
  simp only [not_or]
  exact ⟨hop, not_refused hty, not_not.mpr hrow, not_refused hrange⟩

theorem scred_refused (hctl : engCtl s (x.getD 5 0) 0xFF0000 = none) : Traps (.scred o) s 4 engineValue := by
  subst hgroup
  refine traps_of_issueCmd (i := .scred o) rfl h ?_
  dsimp only
  rw [hctl]
  cases rowTable (groupVals s o.a 6) <;> rfl

end

/-! ### FWALK (R278) -/

/-- The output of a FWALK, in memory or in a sheaf, is in order (R278). -/
def WalkOutputOk (s : State) (x : List Nat) : Prop :=
  (x.getD 3 0).testBit 16 = true ∧ x.getD 1 0 % 4 = 0 ∧ rangeOk (x.getD 1 0) (4 * x.getD 2 0) = true
  ∨ (x.getD 3 0).testBit 16 = false ∧ x.getD 1 0 = 0 ∧ (s.myHart.sheafOf (x.getD 3 0 / 2 ^ 17 % 4)).init = true

section
variable {s : State} {x : List Nat} (hout : WalkOutputOk s x)
include hout

theorem walkOutput_aligned : ¬if (x.getD 3 0).testBit 16 then x.getD 1 0 % 4 ≠ 0 ∨ !rangeOk (x.getD 1 0) (4 * x.getD 2 0)
    else x.getD 1 0 ≠ 0 := by
  rcases hout with ⟨hmem, hdst, hfits⟩ | ⟨hmem, hdst, -⟩
  · rw [if_pos hmem, not_or]
    exact ⟨not_not.mpr hdst, not_refused hfits⟩
  · rw [if_neg (ne_true_of_eq_false hmem)]
    exact not_not.mpr hdst

theorem walkOutput_initialised :
    ¬((!(x.getD 3 0).testBit 16) = true ∧ (!(s.myHart.sheafOf (x.getD 3 0 / 2 ^ 17 % 4)).init) = true) := by
  rintro ⟨hsheaf, hbare⟩
  rcases hout with ⟨hmem, -, -⟩ | ⟨-, -, hinit⟩
  · exact not_refused hmem hsheaf
  · exact not_refused hinit hbare

end

/-- The group of a FWALK is in order but for its control double. -/
structure WalkGroupOk (s : State) (x : List Nat) : Prop where
  aligned : x.getD 0 0 % 8 = 0
  some_values : 1 ≤ x.getD 2 0
  bounded : x.getD 2 0 ≤ 2 ^ 32
  record : rangeOk (x.getD 0 0) 8 = true
  output : WalkOutputOk s x

theorem WalkGroupOk.passes {s : State} {x : List Nat} (h : WalkGroupOk s x) : ¬(x.getD 0 0 % 8 ≠ 0 ∨ x.getD 2 0 = 0
    ∨ 2 ^ 32 < x.getD 2 0
    ∨ (if (x.getD 3 0).testBit 16 then x.getD 1 0 % 4 ≠ 0 ∨ !rangeOk (x.getD 1 0) (4 * x.getD 2 0) else x.getD 1 0 ≠ 0)
    ∨ (!(x.getD 3 0).testBit 16 ∧ !(s.myHart.sheafOf (x.getD 3 0 / 2 ^ 17 % 4)).init) ∨ !rangeOk (x.getD 0 0) 8) := by
  simp only [not_or]
  exact ⟨not_not.mpr h.aligned, Nat.ne_of_gt h.some_values, Nat.not_lt.mpr h.bounded, walkOutput_aligned h.output,
    walkOutput_initialised h.output, not_refused h.record⟩

section
variable {s : State} {o : DA} {x : List Nat} (hgroup : groupVals s o.a 4 = x) {c : Option Nat × Option Nat}
  (hctl : engCtl s (x.getD 3 0) 0xF0000 = some c) (hok : WalkGroupOk s x) {look : Bool × Run}
  (hlook : badShape (spaceOf s s.h) (x.getD 0 0) (flushHeld (Run.start s) s.cur) = look)
include hgroup hctl hok hlook

/-- A FWALK whose group is in order ends as the look at its record says. -/
theorem exec_fwalk_in_order : exec (.fwalk o) s = finish s 4 (issueCmd s o 4 fun _ =>
    if look.1 then .part look.2.kept engineValue
    else .done (acceptAfter look.2 s (newCmd s (.fwalk (x.getD 0 0) (x.getD 1 0) (x.getD 2 0) ((x.getD 3 0).testBit 16)
      (x.getD 3 0 / 2 ^ 17 % 4) ((x.getD 3 0).testBit 19)) o.d (x.getD 3 0 % 4) c.1 c.2))) := by
  subst hgroup hlook
  refine congrArg (fun a => finish s 4 (issue s .access 0 [] [] (o.d :: groupRegs o.a 4) fun _ => a)) ?_
  dsimp only
  rw [hctl]
  exact if_neg hok.passes

variable (h : canIssue s .access 0 [] [] (o.d :: groupRegs o.a 4))
include h

theorem fwalk_accepted (hshape : look.1 = false) : Completes (.fwalk o) s 4 (acceptAfter look.2 s
    (newCmd s (.fwalk (x.getD 0 0) (x.getD 1 0) (x.getD 2 0) ((x.getD 3 0).testBit 16) (x.getD 3 0 / 2 ^ 17 % 4)
      ((x.getD 3 0).testBit 19)) o.d (x.getD 3 0 % 4) c.1 c.2)) :=
  completes_of_issueCmd (exec_fwalk_in_order hgroup hctl hok hlook) h (if_neg (ne_true_of_eq_false hshape))

/-- A record that can be read and has a bad shape (log entries 79 and 38). -/
theorem fwalk_misshapen (hshape : look.1 = true) : TrapsAfter (.fwalk o) s 4 look.2.kept engineValue :=
  trapsAfter_of_issueCmd (exec_fwalk_in_order hgroup hctl hok hlook) h (if_pos hshape)

end

theorem fwalk_refused {s : State} {o : DA} (h : canIssue s .access 0 [] [] (o.d :: groupRegs o.a 4)) {x : List Nat}
    (hgroup : groupVals s o.a 4 = x) (hctl : engCtl s (x.getD 3 0) 0xF0000 = none) : Traps (.fwalk o) s 4 engineValue := by
  subst hgroup
  refine traps_of_issueCmd (i := .fwalk o) rfl h ?_
  dsimp only
  rw [hctl]

/-! ### STEPA and STEPO (R286, R287) -/

theorem exec_stepa (o : DA) (s : State) : exec (.stepa o) s = finish s 4 (stepAct s o (fun r => wcFlush r s.c) .stepa) := rfl
theorem exec_stepo (o : DA) (s : State) : exec (.stepo o) s = finish s 4 (stepAct s o id .stepo) := rfl

/-- The group of a STEPA or STEPO is in order but for its control double. -/
structure StepGroupOk (x : List Nat) : Prop where
  list_aligned : x.getD 0 0 % 2 = 0
  some_slots : 1 ≤ x.getD 1 0
  bounded : x.getD 1 0 ≤ 4096
  base_aligned : x.getD 2 0 % 8 = 0
  stride_aligned : x.getD 3 0 % 8 = 0
  apart : 4096 ≤ x.getD 3 0
  list : rangeOk (x.getD 0 0) (2 * x.getD 1 0) = true
  records : rangeOk (x.getD 2 0) ((x.getD 1 0 - 1) * x.getD 3 0 + 4096) = true

theorem StepGroupOk.passes {x : List Nat} (h : StepGroupOk x) : ¬(x.getD 0 0 % 2 ≠ 0 ∨ x.getD 1 0 = 0 ∨ 4096 < x.getD 1 0
    ∨ x.getD 2 0 % 8 ≠ 0 ∨ x.getD 3 0 % 8 ≠ 0 ∨ x.getD 3 0 < 4096 ∨ !rangeOk (x.getD 0 0) (2 * x.getD 1 0)
    ∨ !rangeOk (x.getD 2 0) ((x.getD 1 0 - 1) * x.getD 3 0 + 4096)) := by
  simp only [not_or]
  exact ⟨not_not.mpr h.list_aligned, Nat.ne_of_gt h.some_slots, Nat.not_lt.mpr h.bounded, not_not.mpr h.base_aligned,
    not_not.mpr h.stride_aligned, Nat.not_lt.mpr h.apart, not_refused h.list, not_refused h.records⟩

section
variable {s : State} {i : Instr} {o : DA} {rel : Run → Run} {k : Nat → Nat → Nat → Nat → Work}
  (hx : exec i s = finish s 4 (stepAct s o rel k)) {x : List Nat} (hgroup : groupVals s o.a 5 = x)
include hx hgroup

theorem stepAct_refused (h : canIssue s .access 0 [] [] (o.d :: groupRegs o.a 5)) (hctl : engCtl s (x.getD 4 0) 0 = none) :
    Traps i s 4 engineValue := by
  subst hgroup
  refine traps_of_issueCmd hx h ?_
  dsimp only
  rw [hctl]

variable {c : Option Nat × Option Nat} (hctl : engCtl s (x.getD 4 0) 0 = some c) (hok : StepGroupOk x) {look : Bool × Run}
  (hlook : slotsOk (spaceOf s s.h) (x.getD 0 0) (x.getD 1 0) (flushHeld (Run.start s) s.cur) = look)
include hctl hok hlook

/-- A STEPA or STEPO whose group is in order ends as the look at its list says. -/
theorem exec_stepAct_in_order : exec i s = finish s 4 (issueCmd s o 5 fun _ =>
    if !look.1 then .part look.2.kept engineValue
    else .done (acceptAfter (rel look.2) s
      (newCmd s (k (x.getD 0 0) (x.getD 1 0) (x.getD 2 0) (x.getD 3 0)) o.d (x.getD 4 0 % 4) c.1 c.2))) := by
  subst hgroup hlook
  refine hx.trans (congrArg (fun a => finish s 4 (issue s .access 0 [] [] (o.d :: groupRegs o.a 5) fun _ => a)) ?_)
  dsimp only
  rw [hctl]
  exact if_neg hok.passes

variable (h : canIssue s .access 0 [] [] (o.d :: groupRegs o.a 5))
include h

theorem stepAct_accepted (hnumbers : look.1 = true) : Completes i s 4 (acceptAfter (rel look.2) s
    (newCmd s (k (x.getD 0 0) (x.getD 1 0) (x.getD 2 0) (x.getD 3 0)) o.d (x.getD 4 0 % 4) c.1 c.2)) :=
  completes_of_issueCmd (exec_stepAct_in_order hx hgroup hctl hok hlook) h (if_neg (not_refused hnumbers))

/-- A list that can be read and names no slot (log entries 77 and 38). -/
theorem stepAct_misnumbered (hnumbers : look.1 = false) : TrapsAfter i s 4 look.2.kept engineValue :=
  trapsAfter_of_issueCmd (exec_stepAct_in_order hx hgroup hctl hok hlook) h (if_pos (by rw [hnumbers]; rfl))

end

/-! ### The obligation -/

/-- Settles O39: the control double, the checks of each command's own part and the look at its record or list select its acceptance
or its trap. -/
theorem engineCommands : Obligations.EngineCommands := by
  refine ⟨fun s o c list n table bound rb hrows hctl halign hrange hdest => ⟨fun hm h => ?gath, fun hm h58 h hall => ?gathMasked⟩,
    fun s o c list n table bound rb ty h hrows hctl hcode hop hty hrow hrange => ?scred,
    fun s o c h hctl halign hlo hhi hrange hout => ?fwalk,
    fun s o c h hctl hlist hlo hhi hbase hstride hapart hslots hrecords => ?step,
    fun s o => ⟨fun h hm hctl => ?gathControl, fun h hctl => ?scredControl, fun h hctl => ?fwalkControl,
      fun h hctl => ?stepControl⟩⟩
  case gath =>
    exact gath_accepted (gathIssues_of_unmasked hm h) rfl hrows hctl halign hrange hdest
      (fun hasks => absurd hasks (ne_true_of_eq_false hm)) (if_neg (ne_true_of_eq_false hm)) rfl
  case gathMasked => exact gath_accepted (gathIssues_of_masked hm h) rfl hrows hctl halign hrange hdest (fun _ => h58) (if_pos hm) hall
  case scred => exact scred_accepted h rfl hrows hctl hcode hop hty hrow hrange
  case fwalk =>
    have hok : WalkGroupOk s (groupVals s o.a 4) := ⟨halign, hlo, hhi, hrange, hout⟩
    exact ⟨fwalk_accepted rfl hctl hok rfl h, fwalk_misshapen rfl hctl hok rfl h⟩
  case step =>
    have hok : StepGroupOk (groupVals s o.a 5) := ⟨hlist, hlo, hhi, hbase, hstride, hapart, hslots, hrecords⟩
    exact ⟨fun hn => ⟨stepAct_accepted (exec_stepa o s) rfl hctl hok rfl h hn, stepAct_accepted (exec_stepo o s) rfl hctl hok rfl h hn⟩,
      fun hn => ⟨stepAct_misnumbered (exec_stepa o s) rfl hctl hok rfl h hn,
        stepAct_misnumbered (exec_stepo o s) rfl hctl hok rfl h hn⟩⟩
  case gathControl => exact gath_refused (gathIssues_of_unmasked hm h) rfl hctl
  case scredControl => exact scred_refused h rfl hctl
  case fwalkControl => exact fwalk_refused h rfl hctl
  case stepControl => exact ⟨stepAct_refused (exec_stepa o s) rfl h hctl, stepAct_refused (exec_stepo o s) rfl h hctl⟩

end Sys2Proof.Machine
end

section
/-! PROOFS. Sheaves: O41 (10 R269, R271 to R274). -/

namespace Sys2Proof.Machine

/-! ### Initialising, clearing and counting (R271) -/

section
variable {s : State} {sh a : Nat} (h : canIssue s .both 0 [] [] (groupRegs a 4)) {x : List Nat} (hx : groupVals s a 4 = x)
include h hx

theorem shinit_refused (hok : sheafOk (x.getD 0 0) (x.getD 1 0) (x.getD 2 0) (x.getD 3 0) = false) :
    Traps (.shinit sh a) s 4 sheafValue := by
  subst hx
  exact traps_of_issue (i := .shinit sh a) rfl h (if_pos (by rw [hok]; rfl))

variable (hok : sheafOk (x.getD 0 0) (x.getD 1 0) (x.getD 2 0) (x.getD 3 0) = true)
include hok

theorem shinit_walked (hwalk : walkInto s sh = true) : Traps (.shinit sh a) s 4 sheafState := by
  subst hx
  exact traps_of_issue (i := .shinit sh a) rfl h ((if_neg (not_refused hok)).trans (if_pos hwalk))

theorem shinit_empties (hwalk : walkInto s sh = false) : Completes (.shinit sh a) s 4 [.hart s.h (updSheaf sh fun _ =>
    { sb := x.getD 0 0, ss := x.getD 1 0, seen := x.getD 2 0, u := x.getD 3 0, init := true })] := by
  subst hx
  exact completes_of_issue_nil (i := .shinit sh a) rfl h
    ((if_neg (not_refused hok)).trans (if_neg (ne_true_of_eq_false hwalk)))

end

section
variable {s : State} {sh : Nat} (h : canIssue s .both 0 [] [] [])
include h

theorem shclr_empties (hwalk : walkInto s sh = false) :
    Completes (.shclr sh) s 4 [.hart s.h (updSheaf sh fun t => { t with ents := [], rd := 0 })] :=
  completes_of_issue_nil (i := .shclr sh) rfl h (if_neg (ne_true_of_eq_false hwalk))

theorem shclr_walked (hwalk : walkInto s sh = true) : Traps (.shclr sh) s 4 sheafState :=
  traps_of_issue (i := .shclr sh) rfl h (if_pos hwalk)

end

theorem exec_shcnt (o : QPo) (s : State) : exec (.shcnt o) s = execShcnt o s := rfl

theorem shcnt_counts {s : State} {o : QPo} (h : canIssue s .both 0 [] [o.d] []) :
    Completes (.shcnt o) s o.form.len (writes s [] o.d (BitVec.ofNat 64 (s.myHart.sheafOf o.q).ents.length)) :=
  completes_of_issue (exec_shcnt o s) h rfl

/-! ### The room of a sheaf (R269, R274) -/

theorem noRoom_of_fits {t : Sheaf} {es : List (Nat × Nat)} (h : t.ents.length + es.length ≤ t.capacity) : noRoom t es = none := by
  rw [noRoom, List.getElem?_eq_none (by omega), Option.map_none]

/-- No entry comes on chip where none has spilled. -/
theorem backOnChip_of_unspilled {s : State} {t : Sheaf} {r : Run} (b : Nat) (h : t.ents.length ≤ 4096) :
    backOnChip s t (min b (t.ents.length - 4096)) r = .ok ([], r) := by
  rw [Nat.sub_eq_zero_of_le h, Nat.min_zero, backOnChip]
  rfl

/-! ### SHPUSH and SHINS (R272 to R274) -/

section
variable {s : State} {o : VNo} (h : canIssue s .execute 0 [] [] [])
include h

section
variable (ht : coordTy (vcx s).ty = false)
include ht

theorem shpush_type : Traps (.shpush o) s o.form.len vectorType := traps_of_vecRun_type (c := .v 0) (i := .shpush o) rfl h ht

theorem shins_type : Traps (.shins o) s o.form.len vectorType := traps_of_vecRun_type (c := .v 0) (i := .shins o) rfl h ht

end

variable (ht : coordTy (vcx s).ty = true)
include ht

theorem shpush_uninit (hinit : (s.myHart.sheafOf o.n).init = false) : Traps (.shpush o) s o.form.len sheafState :=
  traps_of_vecRun (c := .v 0) (i := .shpush o) rfl h ht (if_pos (by rw [hinit]; rfl))

section
variable {t : Sheaf} (hsheaf : s.myHart.sheafOf o.n = t) (hinit : t.init = true)
include hsheaf hinit

theorem shpush_appends {es : List (Nat × Nat)} (hes : activeCoords s (vcx s) o = es)
    (hfits : t.ents.length + es.length ≤ t.capacity) : Completes (.shpush o) s o.form.len
      ((spillRun (spaceOf s s.h) s.c t (es.map (·.2)) (Run.start s)).out
        ++ [.hart s.h (updSheaf o.n fun t => t.append (es.map (·.2)))]) := by
  subst hsheaf hes
  refine completes_of_vecRun_nil (i := .shpush o) rfl h ht ((if_neg (not_refused hinit)).trans ?_)
  rw [noRoom_of_fits hfits]

theorem shpush_overflows {e : Nat} (he : noRoom t (activeCoords s (vcx s) o) = some e) :
    Traps (.shpush o) s o.form.len (sheafOverflow e) := by
  subst hsheaf
  refine traps_of_vecRun (c := .v 0) (i := .shpush o) rfl h ht ((if_neg (not_refused hinit)).trans ?_)
  rw [he]

end

theorem shins_bare (hbare : (s.myHart.sheafOf o.n).init = false ∨ (s.myHart.sheafOf o.n).seen = 0) :
    Traps (.shins o) s o.form.len sheafState :=
  traps_of_vecRun (c := .v 0) (i := .shins o) rfl h ht (if_pos (hbare.imp_left fun hi => by rw [hi]; rfl))

section
variable {t : Sheaf} (hsheaf : s.myHart.sheafOf o.n = t) (hinit : t.init = true) (hseen : t.seen ≠ 0)
include hsheaf hinit hseen

theorem shins_appends {ls : List (Nat × Loc)} {r : Run}
    (hls : seenLocs (spaceOf s s.h) t (t.capacity - t.ents.length) (activeCoords s (vcx s) o) (Run.start s) = .ok (ls, r)) :
    Completes (.shins o) s o.form.len ((spillRun (spaceOf s s.h) s.c t (setSeen s.c ls r).1 (setSeen s.c ls r).2).out
      ++ [.hart s.h (updSheaf o.n fun t => t.append (setSeen s.c ls r).1)]) := by
  subst hsheaf
  exact completes_of_vecRun_nil (i := .shins o) rfl h ht
    ((if_neg (not_or.mpr ⟨not_refused hinit, hseen⟩)).trans (ofM_ok hls _))

theorem shins_faults {e : TrapInfo} {r : Run}
    (hls : seenLocs (spaceOf s s.h) t (t.capacity - t.ents.length) (activeCoords s (vcx s) o) (Run.start s) = .error (e, r)) :
    TrapsAfter (.shins o) s o.form.len r.kept e := by
  subst hsheaf
  exact trapsAfter_of_vecRun_nil (i := .shins o) rfl h ht
    ((if_neg (not_or.mpr ⟨not_refused hinit, hseen⟩)).trans (ofM_error hls _))

end

end

/-! ### SHPOPB (R272, R274) -/

section
variable {s : State} {f : Form} {v sh : Nat} (h : canIssue s .execute 0 [] [] [])
include h

theorem shpopb_type (ht : coordTy (vcx s).ty = false) : Traps (.shpopb f v sh) s f.len vectorType :=
  traps_of_vecRun_type (c := .v 0) (i := .shpopb f v sh) rfl h ht

variable (ht : coordTy (vcx s).ty = true)
include ht

theorem shpopb_uninit (hinit : (s.myHart.sheafOf sh).init = false) : Traps (.shpopb f v sh) s f.len sheafState :=
  traps_of_vecRun (c := .v 0) (i := .shpopb f v sh) rfl h ht (if_pos (by rw [hinit]; rfl))

variable {t : Sheaf} (hsheaf : s.myHart.sheafOf sh = t) (hinit : t.init = true) {b : Nat}
  (hb : min (vlMax s (vcx s).w) t.ents.length = b)
include hsheaf hinit hb

theorem shpopb_takes {back : List (BitVec 32)} {r : Run}
    (hback : backOnChip s t (min b (t.ents.length - 4096)) (Run.start s) = .ok (back, r)) :
    Completes (.shpopb f v sh) s f.len
      (r.out ++ ((vcx s).put v (vcx s).w ((List.range b).map fun e => (e, ((t.ents.take 4096 ++ back).getD e 0).toNat))
        ++ [.hart s.h fun h => { updSheaf sh (fun t => t.popped back b) h with vl := b }])) := by
  subst hsheaf hb
  exact completes_of_vecRun_nil (i := .shpopb f v sh) rfl h ht ((if_neg (not_refused hinit)).trans (ofM_ok hback _))

theorem shpopb_faults {e : TrapInfo} {r : Run}
    (hback : backOnChip s t (min b (t.ents.length - 4096)) (Run.start s) = .error (e, r)) :
    TrapsAfter (.shpopb f v sh) s f.len r.kept e := by
  subst hsheaf hb
  exact trapsAfter_of_vecRun_nil (i := .shpopb f v sh) rfl h ht ((if_neg (not_refused hinit)).trans (ofM_error hback _))

end

/-! ### The obligation -/

/-- Settles O41: the group, the walks in flight, the element type and the state of the sheaf select the effect or the trap of each
instruction. -/
theorem sheaves : Obligations.Sheaves := by
  refine ⟨fun s sh a h => ⟨shinit_refused h rfl, shinit_walked h rfl, shinit_empties h rfl⟩,
    fun s sh h => ⟨shclr_empties h, shclr_walked h⟩, fun s o h => shcnt_counts h,
    fun s o h => ⟨fun ht => ⟨shpush_type h ht, shins_type h ht, fun f => shpopb_type h ht⟩,
      fun ht => ⟨fun hinit => ⟨shpush_uninit h ht hinit, shins_bare h ht (.inl hinit), fun f => shpopb_uninit h ht hinit⟩,
        fun hinit => ⟨shpush_appends h ht rfl hinit rfl, fun e => shpush_overflows h ht rfl hinit,
          fun hseen => shins_bare h ht (.inr hseen), fun ls r hseen => shins_appends h ht rfl hinit hseen,
          fun e r hseen => shins_faults h ht rfl hinit hseen, ?pops⟩⟩⟩⟩
  case pops =>
    exact ⟨backOnChip_of_unspilled _, fun f back r => shpopb_takes h ht rfl hinit rfl,
      fun f e r => shpopb_faults h ht rfl hinit rfl⟩

end Sys2Proof.Machine
end

section
/-! PROOFS. Conservation monitors: O42 (10 R280, R281, R284, Table 10.10). -/

namespace Sys2Proof.Machine

/-! ### Arming (R281) -/

section
variable {s : State} {f : Form} {m a : Nat} (h : canIssue s .both 0 [] [] (groupRegs a 4))
include h

theorem cmarm_arms (hok : armOk (groupVals s a 4) = true) : Completes (.cmarm f m a) s f.len [updMon s m fun t =>
    { t with sum := 0, nf := false, ov := false, tr := false, pw := false, arm := true,
             nom := (groupVals s a 4).map (BitVec.ofNat 64), fmt := (groupVals s a 4).getD 3 0 % 32 }] :=
  completes_of_issue_nil (i := .cmarm f m a) rfl h (if_pos hok)

theorem cmarm_refused (hok : armOk (groupVals s a 4) = false) : Traps (.cmarm f m a) s f.len monitorValue :=
  traps_of_issue (i := .cmarm f m a) rfl h (if_neg (ne_true_of_eq_false hok))

end

/-! ### The reference (Table 10.10) -/

section
variable {s : State} {o : CRo} (h : canIssue s .both 0 [o.a] [] [])
include h

theorem cmref_misaligned (ha : (srcOf s [o.a] 0).toNat % 8 ≠ 0) :
    Traps (.cmref o) s o.form.len { code := 10, val := srcOf s [o.a] 0 } :=
  traps_of_trapsAfter (trapsAfter_of_issue (i := .cmref o) rfl h
    (ofM_error (mbind_error (check_error (beq_eq_false_iff_ne.mpr ha) _ _)) _))

variable (ha : (srcOf s [o.a] 0).toNat % 8 = 0) {bs : List Byte} {r : Run}
  (hload : loadDoubles s (srcOf s [o.a] 0) 10 (Run.start s) = .ok (bs, r))
include ha hload

theorem cmref_takes (hbound : (BitVec.ofNat 320 (ofLe (bs.drop 40))).msb = false) :
    Completes (.cmref o) s o.form.len (popAll s.h [o.a] ++ (r.out ++ [updMon s o.m fun t =>
      { t with ref := BitVec.ofNat 320 (ofLe (bs.take 40)), bound := BitVec.ofNat 320 (ofLe (bs.drop 40)) }])) :=
  completes_of_issue (i := .cmref o) rfl h ((ofM_ok ((mbind_ok (check_ok (beq_iff_eq.mpr ha) _ _)).trans hload) _).trans
    (if_neg (ne_true_of_eq_false hbound)))

theorem cmref_refused (hbound : (BitVec.ofNat 320 (ofLe (bs.drop 40))).msb = true) :
    TrapsAfter (.cmref o) s o.form.len r.kept monitorValue :=
  trapsAfter_of_issue (i := .cmref o) rfl h ((ofM_ok ((mbind_ok (check_ok (beq_iff_eq.mpr ha) _ _)).trans hload) _).trans
    (if_pos hbound))

end

/-! ### The check and disarming (R284) -/

theorem exec_cmoff (f : Form) (m : Nat) (s : State) : exec (.cmoff f m) s = execCmoff f m s := rfl

section
variable {s : State} {f : Form} {m : Nat} {clr : Bool} (h : canIssue s .both 0 [] [] [])
include h

theorem cmchk_passes (hdrift : monDrift (monOf ((flushHart (Run.start s) s.h).s.core s.c) m) = false) :
    Completes (.cmchk f m clr) s f.len ((flushHart (Run.start s) s.h).out
      ++ if clr then [updMon s m fun t => { t with sum := 0 }] else []) :=
  completes_of_issue_nil (i := .cmchk f m clr) rfl h (if_neg (ne_true_of_eq_false hdrift))

theorem cmchk_drifts (hdrift : monDrift (monOf ((flushHart (Run.start s) s.h).s.core s.c) m) = true) :
    TrapsAfter (.cmchk f m clr) s f.len (flushHart (Run.start s) s.h).out (driftTrap m) :=
  trapsAfter_of_issue (i := .cmchk f m clr) rfl h (if_pos hdrift)

theorem cmoff_disarms : Completes (.cmoff f m) s f.len [updMon s m fun t => { t with arm := false }] :=
  completes_of_issue_nil (exec_cmoff f m s) h rfl

end

/-! ### The doubles of a monitor (Table 10.10) -/

theorem ofNat_div_two_pow {w : Nat} (x : BitVec w) (k n : Nat) : BitVec.ofNat n (x.toNat / 2 ^ k) = x.extractLsb' k n := by
  rw [BitVec.extractLsb', Nat.shiftRight_eq_div_pow]

section
variable (m : Monitor) {k : Nat}

theorem monDouble_sum (hk : k < 5) : monDouble m k = some (m.sum.extractLsb' (64 * k) 64) := by
  rw [monDouble, if_pos hk, ofNat_div_two_pow]

theorem monDouble_ref (hlo : 5 ≤ k) (hhi : k < 10) : monDouble m k = some (m.ref.extractLsb' (64 * (k - 5)) 64) := by
  rw [monDouble, if_neg (Nat.not_lt.mpr hlo), if_pos hhi, ofNat_div_two_pow]

theorem monDouble_bound (hlo : 10 ≤ k) (hhi : k < 15) : monDouble m k = some (m.bound.extractLsb' (64 * (k - 10)) 64) := by
  rw [monDouble, if_neg (by omega), if_neg (Nat.not_lt.mpr hlo), if_pos hhi, ofNat_div_two_pow]

theorem monDouble_status (hk : k = 15) : monDouble m k = some (BitVec.ofNat 64 (monStatus m)) := by
  subst hk
  rfl

theorem monDouble_none (hk : 16 ≤ k) : monDouble m k = none := by
  rw [monDouble, if_neg (by omega), if_neg (by omega), if_neg (by omega), if_neg (by omega)]

end

section
variable {s : State} {o : CDo} (h : canIssue s .both 0 [o.b] [o.d] [])
include h

theorem cmrd_gives {w : Word} (hw : monDouble (monOf (s.core s.c) o.m) (srcOf s [o.b] 0).toNat = some w) :
    Completes (.cmrd o) s o.form.len (writes s [o.b] o.d w) :=
  completes_of_issue (i := .cmrd o) rfl h (by rw [hw])

theorem cmrd_refused (hw : monDouble (monOf (s.core s.c) o.m) (srcOf s [o.b] 0).toNat = none) :
    Traps (.cmrd o) s o.form.len monitorValue :=
  traps_of_issue (i := .cmrd o) rfl h (by rw [hw])

end

/-! ### The obligation -/

/-- Settles O42: the group, the bound, the drift and the number of the double select the effect or the trap of each instruction. -/
theorem conservationMonitors : Obligations.ConservationMonitors := by
  exact ⟨fun s f m a h => ⟨cmarm_arms h, cmarm_refused h⟩,
    fun s o bs r h => ⟨cmref_misaligned h, fun ha hload => ⟨cmref_takes h ha hload, cmref_refused h ha hload⟩⟩,
    fun s f m clr h => ⟨cmchk_passes h, cmchk_drifts h, cmoff_disarms h⟩,
    fun s o h => ⟨fun hk => cmrd_gives h (monDouble_sum _ hk), fun hlo hhi => cmrd_gives h (monDouble_ref _ hlo hhi),
      fun hlo hhi => cmrd_gives h (monDouble_bound _ hlo hhi), fun hk => cmrd_gives h (monDouble_status _ hk),
      fun hk => cmrd_refused h (monDouble_none _ hk)⟩⟩

end Sys2Proof.Machine
end

section
/-! PROOFS. Policy versions: O43 (10 R289; 21 R396). -/

namespace Sys2Proof.Machine

theorem versionOk_of_lt {v : Word} (h : v ≠ 0) (hlt : v.toNat < 2 ^ 32) : versionOk v = true := by
  rw [versionOk, decide_eq_true hlt, bne_iff_ne.mpr h]
  rfl

theorem versionOk_eq_false {v : Word} (h : v = 0 ∨ 2 ^ 32 ≤ v.toNat) : versionOk v = false := by
  rcases h with rfl | h
  · rfl
  · rw [versionOk, decide_eq_false (Nat.not_lt.mpr h), Bool.false_and]

section
variable {s : State} {o : R2} (h : canIssue s .access 0 [o.a] [o.d] [])
include h

section
variable (hv : versionOk (srcOf s [o.a] 0) = false)
include hv

theorem epver_refused : Traps (.epver o) s o.form.len stepValue :=
  traps_of_issue (i := .epver o) rfl h (if_pos (by rw [hv]; rfl))

theorem epret_refused : Traps (.epret o) s o.form.len stepValue :=
  traps_of_issue (i := .epret o) rfl h (if_pos (.inl (by rw [hv]; rfl)))

end

/-- EPRET of the current version (log entry 84). -/
theorem epret_current (hcur : (srcOf s [o.a] 0).toNat = (s.part (partIx s s.h)).ver) : Traps (.epret o) s o.form.len stepValue :=
  traps_of_issue (i := .epret o) rfl h (if_pos (.inr hcur))

variable (hv : versionOk (srcOf s [o.a] 0) = true)
include hv

theorem epver_sets : Completes (.epver o) s o.form.len (popAll s.h [o.a] ++
    (.part (partIx s s.h) (fun q => { q with ver := (srcOf s [o.a] 0).toNat })
      :: setD s.cur o.d (BitVec.ofNat 64 (s.part (partIx s s.h)).ver))) :=
  completes_of_issue (i := .epver o) rfl h (if_neg (not_refused hv))

theorem epret_counts {v : Nat} (hval : (srcOf s [o.a] 0).toNat = v) (hold : v ≠ (s.part (partIx s s.h)).ver) {n : Nat}
    (hn : holders s (partIx s s.h) v = n) : Completes (.epret o) s o.form.len (popAll s.h [o.a] ++
      ((if n = 0 then [.part (partIx s s.h) fun q => { q with retired := if q.retired.contains v then q.retired else v :: q.retired }]
        else []) ++ setD s.cur o.d (BitVec.ofNat 64 n))) := by
  subst hval hn
  exact completes_of_issue (i := .epret o) rfl h (if_neg (not_or.mpr ⟨not_refused hv, hold⟩))

end

/-! ### The obligation -/

/-- Settles O43: the version selects the trap, and that of EPRET whether it is the current one. -/
theorem policyVersions : Obligations.PolicyVersions := by
  intro s o h
  refine ⟨fun hne hlt => ?versions, fun hbad => ?refused⟩
  case versions =>
    have hv := versionOk_of_lt hne hlt
    exact ⟨epver_sets h hv, fun hold => epret_counts h hv rfl hold rfl, epret_current h⟩
  case refused =>
    have hv := versionOk_eq_false hbad
    exact ⟨epver_refused h hv, epret_refused h hv⟩

end Sys2Proof.Machine
end

section
/-! PROOFS. Partition records and lofts after an update, the last updates of a run, and what a change of plan leaves alone (19 Table
19.3, R360, R361). -/

namespace Sys2Proof.Machine

/-! ### Reading a partition record or a loft back -/

section
variable (s : State)

@[simp] theorem part_app_part (p : Nat) (f : Part → Part) : ((Upd.part p f).app s).part p = f (s.part p) := tget_tput_same _ _ _ _
@[simp] theorem loft_app_loft (c : Nat) (f : Loft → Loft) : ((Upd.loft c f).app s).loft c = f (s.loft c) := tget_tput_same _ _ _ _
theorem loft_app_loft_ne {c d : Nat} (f : Loft → Loft) (h : d ≠ c) : ((Upd.loft c f).app s).loft d = s.loft d :=
  tget_tput_ne _ _ _ h
@[simp] theorem part_app_loft (c p : Nat) (f : Loft → Loft) : ((Upd.loft c f).app s).part p = s.part p := rfl
@[simp] theorem loft_app_part (c p : Nat) (f : Part → Part) : ((Upd.part p f).app s).loft c = s.loft c := rfl
@[simp] theorem loft_app_rlevSet (c p bit k : Nat) : ((rlevSet p bit k).app s).loft c = s.loft c := rfl
@[simp] theorem part_app_rlevSet (p bit k : Nat) : ((rlevSet p bit k).app s).part p
    = { s.part p with rlev := (s.part p).rlev ||| BitVec.ofNat 6 (2 ^ bit), rlent := k } := part_app_part s p _

/-- An event of the run list sets its bit of `rlev` (Table 19.3). -/
theorem rlev_app_rlevSet {bit : Nat} (hbit : bit < 6) (p k : Nat) : (((rlevSet p bit k).app s).part p).rlev.getLsbD bit = true := by
  rw [part_app_rlevSet, BitVec.getLsbD_or, BitVec.getLsbD_ofNat, Nat.testBit_two_pow_self, decide_eq_true hbit, Bool.and_self,
    Bool.or_true]

end

/-! ### The last updates of a run -/

theorem Run.out_add (r : Run) (u : Upd) : (r.add u).out = r.out ++ [u] := List.reverse_cons

@[simp] theorem applyAll_out_add (r : Run) (u : Upd) (s : State) : applyAll (r.add u).out s = u.app (applyAll r.out s) := by
  rw [Run.out_add, applyAll_append]
  rfl

/-- What the updates of a run all do. -/
theorem Run.Steps.forall_out {P : Upd → Prop} {s : State} {r : Run} (h : (Run.start s).Steps P r) : ∀ u ∈ r.out, P u := by
  obtain ⟨us, hus, hr, -⟩ := h
  intro u hu
  rw [Run.out, hr, List.reverse_append, List.reverse_reverse] at hu
  exact hus u hu

/-! ### A change of plan -/

/-- A change of plan sets the save engines of lofts: no partition changes, and every loft holds what it held. -/
structure PlanKeeps (s t : State) : Prop where
  parts : t.parts = s.parts
  banks : ∀ c, (t.loft c).bank = (s.loft c).bank

theorem planLoft_bank (k : Nat) (l : Loft) : (planLoft k l).bank = l.bank := by
  unfold planLoft
  split_ifs <;> rfl

theorem planKeeps_foldl (k : Nat) (cs : List Nat) (s : State) :
    PlanKeeps s (cs.foldl (fun s c => { s with lofts := tput s.lofts c (planLoft k (s.loft c)) }) s) := by
  induction cs generalizing s with
  | nil => exact ⟨rfl, fun _ => rfl⟩
  | cons c cs ih =>
    obtain ⟨hparts, hbanks⟩ := ih ((Upd.loft c (planLoft k)).app s)
    refine ⟨hparts, fun d => (hbanks d).trans ?_⟩
    by_cases hd : d = c
    · rw [hd, loft_app_loft, planLoft_bank]
    · rw [loft_app_loft_ne s _ hd]

theorem planKeeps_planLofts (p : Nat) (s : State) : PlanKeeps s ((planLofts p).app s) := by
  unfold planLofts
  simp only [Upd.app]
  split
  next => exact ⟨rfl, fun _ => rfl⟩
  next k _ =>
    split_ifs
    · exact ⟨rfl, fun _ => rfl⟩
    · obtain ⟨hparts, hbanks⟩ := planKeeps_foldl k (partCores s p) s
      exact ⟨hparts, hbanks⟩

@[simp] theorem part_app_planLofts (p q : Nat) (s : State) : ((planLofts p).app s).part q = s.part q := by
  rw [State.part, (planKeeps_planLofts p s).parts, ← State.part]

@[simp] theorem bank_app_planLofts (p c : Nat) (s : State) : (((planLofts p).app s).loft c).bank = (s.loft c).bank :=
  (planKeeps_planLofts p s).banks c

end Sys2Proof.Machine
end

section
/-! PROOFS. LAUNCH and LAUNCHI: O31 (19 R352 to R354). -/

namespace Sys2Proof.Machine

/-! ### The record of a launch -/

/-- The strand's held stores are performed before what comes after. -/
theorem flushMine_then {α : Type} (s : State) (m : M α) (r : Run) : (do flushMine s; m : M α) r = m (flushHeld r s.cur) := mbind_ok rfl

section
variable {s : State} {a : Nat} {ind : Bool} {bs vs : List Byte} {r r1 r2 : Run} {l : Launch} {inits : List (Nat × Nat × Word)}

theorem readLaunch_misaligned (ha : a % 8 ≠ 0) : readLaunch s a ind r = .error (launchValue, r) :=
  mbind_error (check_error (beq_false_of_ne ha) launchValue r)

/-- The record at an aligned address is read after the strand's held stores are performed, and checked (R352). -/
theorem readLaunch_of_record (ha : a % 8 = 0)
    (hrec : loadBytesM (spaceOf s s.h) (some s.c) a 128 (flushHeld r s.cur) = .ok (bs, r1)) :
    readLaunch s a ind r = (match launchOf s (partIx s s.h) ind bs with
      | none => M.trap launchValue
      | some l => do
        let vs ← loadBytesM (spaceOf s s.h) (some s.c) (dbl bs 40) (16 * dbl bs 48)
        match initList vs (dbl bs 48) with
        | none => M.trap launchValue
        | some i => pure { l with inits := i } : M Launch) r1 :=
  (mbind_ok (check_ok (beq_iff_eq.mpr ha) launchValue r)).trans ((flushMine_then s _ r).trans (mbind_ok hrec))

theorem readLaunch_refused (ha : a % 8 = 0)
    (hrec : loadBytesM (spaceOf s s.h) (some s.c) a 128 (flushHeld r s.cur) = .ok (bs, r1))
    (hl : launchOf s (partIx s s.h) ind bs = none) : readLaunch s a ind r = .error (launchValue, r1) := by
  rw [readLaunch_of_record ha hrec, hl]
  rfl

theorem readLaunch_accepted (ha : a % 8 = 0)
    (hrec : loadBytesM (spaceOf s s.h) (some s.c) a 128 (flushHeld r s.cur) = .ok (bs, r1))
    (hl : launchOf s (partIx s s.h) ind bs = some l)
    (hvals : loadBytesM (spaceOf s s.h) (some s.c) (dbl bs 40) (16 * dbl bs 48) r1 = .ok (vs, r2))
    (hinit : initList vs (dbl bs 48) = some inits) : readLaunch s a ind r = .ok ({ l with inits := inits }, r2) := by
  rw [readLaunch_of_record ha hrec, hl]
  refine (mbind_ok hvals).trans ?_
  rw [hinit]
  rfl

end

/-! ### The instructions -/

/-- LAUNCHI where the count is indirect, LAUNCH where it is direct. -/
def launchInstr (o : DA) (ind : Bool) : Instr := if ind then .launchi o else .launch o

theorem exec_launchInstr (o : DA) (ind : Bool) (s : State) : exec (launchInstr o ind) s = finish s 4 (launchAct s o ind) := by
  cases ind <;> rfl

section
variable {s : State} {o : DA} {ind : Bool} (h : canIssue s .both 1 [.x o.a] [.x o.d] [])
include h

theorem launch_refused {r : Run} (hread : readLaunch s (getX s.me o.a).toNat ind (Run.start s) = .error (launchValue, r)) :
    TrapsAfter (launchInstr o ind) s 4 r.kept launchValue :=
  trapsAfter_of_issue (exec_launchInstr o ind s) h (ofM_error hread _)

theorem launch_misaligned (ha : (getX s.me o.a).toNat % 8 ≠ 0) : Traps (launchInstr o ind) s 4 launchValue :=
  traps_of_trapsAfter (launch_refused (r := Run.start s) h (readLaunch_misaligned ha))

section
variable {l : Launch} {r : Run} (hread : readLaunch s (getX s.me o.a).toNat ind (Run.start s) = .ok (l, r))
include hread

/-- A launch that is well-formed and finds room is the last of the queue (R354). -/
theorem launch_entered (hroom : (s.part (partIx s s.h)).lq.length < 256) (hsteps : s.dev.replay = 0) :
    Completes (launchInstr o ind) s 4 (r.out ++ [.part (partIx s s.h) fun q => { q with lq := q.lq ++ [l], lastId := l.id }]
      ++ setD s.cur (.x o.d) (BitVec.ofNat 64 (l.id % 2 ^ 48))) :=
  completes_of_issue (exec_launchInstr o ind s) h ((ofM_ok hread _).trans
    (if_neg (not_or.mpr ⟨Nat.not_le.mpr hroom, not_not.mpr hsteps⟩)))

theorem launch_waits (hbusy : 256 ≤ (s.part (partIx s s.h)).lq.length ∨ s.dev.replay ≠ 0) :
    exec (launchInstr o ind) s = .next (waitAt s s.cur false) :=
  waits_of_issue (us := []) (exec_launchInstr o ind s) h ((ofM_ok hread _).trans (if_pos hbusy))

end

end

/-! ### The obligation -/

/-- Settles O31: the address, the record and its initial values select the trap, the entry into the queue or the wait. -/
theorem launching : Obligations.Launching := by
  intro s o ind bs vs r1 r2 l inits h
  refine ⟨fun ha => ?misaligned, fun ha hrec => ⟨fun hl => ?refused, fun hl hvals hinit => ?accepted⟩⟩
  case misaligned => exact launch_misaligned h ha
  case refused => exact launch_refused h (readLaunch_refused ha hrec hl)
  case accepted =>
    have hread := readLaunch_accepted ha hrec hl hvals hinit
    exact ⟨launch_entered h hread, launch_waits h hread⟩

end Sys2Proof.Machine
end

section
/-! PROOFS. Launches are dispatched, their gangs placed and they complete: O32 (19 R355 to R358). -/

namespace Sys2Proof.Machine

/-! ### Dispatch (R355, R358) -/

/-- The updates of a dispatch that gives a launch n gangs, after those of run r. -/
def dispatched (p id : Nat) (r : Run) (n st : Nat) : List Upd :=
  (r.add (.part p fun q =>
    { q with lq := q.lq.map fun x => if x.id = id then { x with dispatched := true, gangs := n, st := st } else x })).out

section
variable {s : State} {p id : Nat} {l : Launch} (hon : s.dev.off = false) (hl : launchIn s p id = some l)
  (hnew : l.dispatched = false) (hdeps : depsDone s p l = true) (hcur : (s.part p).cur = some l.ent) (hhalt : (s.part p).halt.st = 0)

include hnew hdeps hcur hhalt in
/-- An undispatched launch of the resident entry whose dependences are complete is due. -/
theorem dispatch_due : ¬(l.dispatched || !depsDone s p l || (s.part p).cur != some l.ent || (s.part p).halt.st != 0) = true := by
  rw [hnew, hdeps, hcur, hhalt]
  simp

include hon hl hnew hdeps hcur hhalt

/-- A direct launch has the count of its record. -/
theorem launchDispatch_direct (hdirect : l.indirect = false) :
    Happens (.launchDispatch p id) s (dispatched p id (Run.start s) l.count.toNat 0) := by
  refine happens_of_event (i := .launchDispatch p id) rfl hon ?_
  rw [hl]
  exact (if_neg (dispatch_due hnew hdeps hcur hhalt)).trans (if_pos (by rw [hdirect]; rfl))

section
variable (hind : l.indirect = true) {r : Run}
include hind

/-- An indirect count that cannot be read completes the launch with st = 2. -/
theorem launchDispatch_unread {t : TrapInfo} (hcount : readCount s p l.count.toNat = (.error t, r)) :
    Happens (.launchDispatch p id) s (completeLaunch (serviceError r p t) p l 2 0).out := by
  refine happens_of_event (i := .launchDispatch p id) rfl hon ?_
  rw [hl]
  refine (if_neg (dispatch_due hnew hdeps hcur hhalt)).trans ((if_neg (not_refused hind)).trans ?_)
  rw [hcount]

theorem launchDispatch_zero (hcount : readCount s p l.count.toNat = (.ok 0, r)) :
    Happens (.launchDispatch p id) s (completeLaunch r p l 0 0).out := by
  refine happens_of_event (i := .launchDispatch p id) rfl hon ?_
  rw [hl]
  refine (if_neg (dispatch_due hnew hdeps hcur hhalt)).trans ((if_neg (not_refused hind)).trans ?_)
  rw [hcount]
  rfl

/-- An indirect count that is not zero is capped at the launch's limit (R358). -/
theorem launchDispatch_counted {n : Nat} (hn : n ≠ 0) (hcount : readCount s p l.count.toNat = (.ok n, r)) :
    Happens (.launchDispatch p id) s (if l.limit < n then dispatched p id r l.limit 1 else dispatched p id r n 0) := by
  obtain ⟨m, rfl⟩ := Nat.exists_eq_succ_of_ne_zero hn
  refine happens_of_event (i := .launchDispatch p id) rfl hon ?_
  rw [hl]
  refine (if_neg (dispatch_due hnew hdeps hcur hhalt)).trans ((if_neg (not_refused hind)).trans ?_)
  rw [hcount]
  exact (apply_ite some _ _ _).symm

end

end

/-! ### The harts of a gang (R355) -/

theorem not_used_of_pickHart {s : State} {mask : Nat} {used : List Nat} {h : Nat} (hp : pickHart s mask used = some h) :
    h / 4 ∉ used := by
  obtain ⟨k, -, hfind⟩ := List.exists_of_findSome?_eq_some hp
  have hfree := List.find?_some hfind
  simp only [Bool.and_eq_true, Bool.not_eq_true', List.contains_eq_mem, decide_eq_false_iff_not] at hfree
  exact hfree.2

/-- The members of a gang lie on different cores, none of them in use. -/
theorem pickHarts_cores {s : State} {mask n : Nat} {used hs : List Nat} (hp : pickHarts s mask n used = some hs) :
    (∀ h ∈ hs, h / 4 ∉ used) ∧ (hs.map (· / 4)).Nodup := by
  induction n generalizing used hs with
  | zero =>
    cases hp
    exact ⟨List.forall_mem_nil _, List.nodup_nil⟩
  | succ n ih =>
    rw [pickHarts] at hp
    split at hp
    next => cases hp
    next h hh =>
      obtain ⟨rest, hrest, rfl⟩ := Option.map_eq_some_iff.mp hp
      obtain ⟨hfree, hnodup⟩ := ih hrest
      refine ⟨List.forall_mem_cons.mpr ⟨not_used_of_pickHart hh, fun k hk hmem => hfree k hk (List.mem_cons_of_mem _ hmem)⟩, ?_⟩
      refine List.nodup_cons.mpr ⟨fun hmem => ?_, hnodup⟩
      obtain ⟨k, hk, hcore⟩ := List.mem_map.mp hmem
      exact hfree k hk (hcore ▸ List.mem_cons_self)

theorem nodup_of_pickHarts {s : State} {mask n : Nat} {used hs : List Nat} (hp : pickHarts s mask n used = some hs) : hs.Nodup :=
  (pickHarts_cores hp).2.of_map _

/-! ### Placement (R356) -/

/-- The updates that make hart h a member of a gang, of this rank. -/
def memberUpds (l : Launch) (gid rank : Nat) (hs : List Nat) (h : Nat) : List Upd :=
  [.hart h fun k => newHart l gid l.placed rank hs k.epcfg, .strand (2 * h) fun _ => newStrand l 0 false,
   .strand (2 * h + 1) fun _ => newStrand l 1 (l.span && rank != 0)]

/-- The hart is as it was before, and so are its strands. -/
def SameHart (s t : State) (h : Nat) : Prop :=
  t.hart h = s.hart h ∧ t.strand (2 * h) = s.strand (2 * h) ∧ t.strand (2 * h + 1) = s.strand (2 * h + 1)

theorem SameHart.trans {s t u : State} {h : Nat} (hst : SameHart s t h) (htu : SameHart t u h) : SameHart s u h := by
  obtain ⟨hh, ha, hx⟩ := hst
  obtain ⟨hh', ha', hx'⟩ := htu
  exact ⟨hh'.trans hh, ha'.trans ha, hx'.trans hx⟩

/-- The units that a placement of members leaves alone. -/
structure MembersKeep (s t : State) : Prop where
  mem : t.mem = s.mem
  cores : t.cores = s.cores
  gangs : t.gangs = s.gangs
  parts : t.parts = s.parts
  nextGang : t.nextGang = s.nextGang

section
variable (l : Launch) (gid : Nat) (hs : List Nat)

theorem sameHart_memberUpds {h k : Nat} (hk : k ≠ h) (rank : Nat) (s : State) :
    SameHart s (applyAll (memberUpds l gid rank hs h) s) k := by
  have hah : 2 * k ≠ 2 * h := by omega
  have hxx : 2 * k + 1 ≠ 2 * h + 1 := by omega
  have hax : 2 * k ≠ 2 * h + 1 := by omega
  have hxa : 2 * k + 1 ≠ 2 * h := by omega
  simp [SameHart, memberUpds, hart_app_hart_ne s _ hk, strand_app_strand_ne _ _ hax, strand_app_strand_ne _ _ hah,
    strand_app_strand_ne _ _ hxx, strand_app_strand_ne _ _ hxa]

/-- A new member has its new hart and its two new strands. -/
theorem units_memberUpds (rank h : Nat) (s : State) :
    (applyAll (memberUpds l gid rank hs h) s).hart h = newHart l gid l.placed rank hs (s.hart h).epcfg
    ∧ (applyAll (memberUpds l gid rank hs h) s).strand (2 * h) = newStrand l 0 false
    ∧ (applyAll (memberUpds l gid rank hs h) s).strand (2 * h + 1) = newStrand l 1 (l.span && rank != 0) := by
  have hax : 2 * h ≠ 2 * h + 1 := by omega
  simp [memberUpds, strand_app_strand_ne _ _ hax]

section
variable (g : Nat → Nat) (rs : List Nat)

theorem membersKeep_flatMap (s : State) : MembersKeep s (applyAll (rs.flatMap fun r => memberUpds l gid r hs (g r)) s) := by
  induction rs generalizing s with
  | nil => exact ⟨rfl, rfl, rfl, rfl, rfl⟩
  | cons r rs ih =>
    rw [List.flatMap_cons, applyAll_append]
    obtain ⟨hmem, hcores, hgangs, hparts, hnext⟩ := ih (applyAll (memberUpds l gid r hs (g r)) s)
    exact ⟨hmem, hcores, hgangs, hparts, hnext⟩

theorem sameHart_flatMap {h : Nat} (hh : ∀ r ∈ rs, h ≠ g r) (s : State) :
    SameHart s (applyAll (rs.flatMap fun r => memberUpds l gid r hs (g r)) s) h := by
  induction rs generalizing s with
  | nil => exact ⟨rfl, rfl, rfl⟩
  | cons r rs ih =>
    obtain ⟨hr, hrs⟩ := List.forall_mem_cons.mp hh
    rw [List.flatMap_cons, applyAll_append]
    exact (sameHart_memberUpds l gid hs hr r s).trans (ih hrs _)

/-- Members on different harts do not disturb one another. -/
theorem units_flatMap (hnodup : (rs.map g).Nodup) {r : Nat} (hr : r ∈ rs) (s : State) :
    let t := applyAll (rs.flatMap fun r => memberUpds l gid r hs (g r)) s
    t.hart (g r) = newHart l gid l.placed r hs (s.hart (g r)).epcfg ∧ t.strand (2 * g r) = newStrand l 0 false
    ∧ t.strand (2 * g r + 1) = newStrand l 1 (l.span && r != 0) := by
  induction rs generalizing s with
  | nil => cases hr
  | cons q rs ih =>
    rw [List.map_cons, List.nodup_cons] at hnodup
    obtain ⟨hq, hrest⟩ := hnodup
    rw [List.flatMap_cons, applyAll_append]
    rcases List.mem_cons.mp hr with rfl | hr
    · obtain ⟨hh, ha, hx⟩ := sameHart_flatMap l gid hs g rs
        (fun k hk e => hq (List.mem_map.mpr ⟨k, hk, e.symm⟩)) (applyAll (memberUpds l gid r hs (g r)) s)
      obtain ⟨hh', ha', hx'⟩ := units_memberUpds l gid hs r (g r) s
      exact ⟨hh.trans hh', ha.trans ha', hx.trans hx'⟩
    · have hne : g r ≠ g q := fun e => hq (List.mem_map.mpr ⟨r, hr, e⟩)
      have hsame := (sameHart_memberUpds l gid hs hne q s).1
      obtain ⟨hh, ha, hx⟩ := ih hrest hr (applyAll (memberUpds l gid q hs (g q)) s)
      exact ⟨hh.trans (by rw [hsame]), ha, hx⟩

end

end

theorem map_getD_range (hs : List Nat) : ((List.range hs.length).map fun r => hs.getD r 0) = hs :=
  List.ext_getElem (by simp) fun i _ hi => by simp [hi]

/-- The updates by which a gang enters: its record, and the launch's count of placed gangs. -/
def gangEntered (s : State) (p id : Nat) (l : Launch) (hs : List Nat) : List Upd :=
  [.other fun t => { t with
      gangs := tput t.gangs s.nextGang
        { part := p, ent := l.ent, launch := l.id, index := l.placed, members := hs, g := l.g, span := l.span },
      nextGang := t.nextGang + 1 },
   .part p fun q => { q with lq := q.lq.map fun x => if x.id = id then { x with placed := x.placed + 1 } else x }]

/-- The updates of a placement: the gang enters, then its members start. -/
def gangPlaced (s : State) (p id : Nat) (l : Launch) (hs : List Nat) : List Upd :=
  gangEntered s p id l hs ++ (List.range hs.length).flatMap fun r => memberUpds l s.nextGang r hs (hs.getD r 0)

theorem gangPlacement_happens {s : State} {p id : Nat} {l : Launch} {hs : List Nat} (hon : s.dev.off = false)
    (hl : launchIn s p id = some l) (hdisp : l.dispatched = true) (hleft : l.placed < l.gangs) (hcur : (s.part p).cur = some l.ent)
    (hhalt : (s.part p).halt.st = 0) (hsteps : s.dev.replay = 0) (hpick : pickHarts s l.mask l.n [] = some hs) :
    Happens (.gangPlacement p id) s (gangPlaced s p id l hs) := by
  refine happens_of_event (i := .gangPlacement p id) rfl hon ?_
  rw [hl]
  have hdue : ¬(!l.dispatched || decide (l.gangs ≤ l.placed) || (s.part p).cur != some l.ent || (s.part p).halt.st != 0
      || s.dev.replay != 0) = true := by
    rw [hdisp, decide_eq_false (Nat.not_le.mpr hleft), hcur, hhalt, hsteps]
    simp
  refine (if_neg hdue).trans ?_
  rw [hpick]
  rfl

/-- A member's strand starts at its entry with its initial values: they write registers only. -/
theorem pc_newStrand (l : Launch) (k : Nat) (parked : Bool) : (newStrand l k parked).pc = if k = 0 then l.entA else l.entX := by
  have hfold (is : List (Nat × Nat × Word)) (st : Strand) : (is.foldl (fun st i => setX i.1 i.2.2 st) st).pc = st.pc := by
    induction is generalizing st with
    | nil => rfl
    | cons i is ih =>
      rw [List.foldl_cons, ih, setX]
      split_ifs <;> rfl
  exact hfold _ _

section
variable (s : State) (p id : Nat) (l : Launch) {hs : List Nat}

/-- A placement changes the gangs, the launch and the members, and nothing else of memory and cores. -/
theorem frame_gangPlaced (hs : List Nat) :
    let t := applyAll (gangPlaced s p id l hs) s
    t.nextGang = s.nextGang + 1 ∧ t.mem = s.mem ∧ t.cores = s.cores
    ∧ t.gangs = tput s.gangs s.nextGang (Gang.mk p l.ent l.id l.placed hs l.g l.span [] [] [])
    ∧ (t.part p).lq = (s.part p).lq.map (fun x => if x.id = id then { x with placed := x.placed + 1 } else x) := by
  obtain ⟨hmem, hcores, hgangs, hparts, hnext⟩ := membersKeep_flatMap l s.nextGang hs (fun r => hs.getD r 0) (List.range hs.length)
    (applyAll (gangEntered s p id l hs) s)
  rw [gangPlaced, applyAll_append]
  refine ⟨hnext, hmem, hcores, hgangs, ?_⟩
  rw [State.part, hparts, ← State.part]
  exact congrArg Part.lq (part_app_part _ p _)

theorem members_gangPlaced (hnodup : hs.Nodup) {r h : Nat} (hr : hs[r]? = some h) :
    let t := applyAll (gangPlaced s p id l hs) s
    t.hart h = newHart l s.nextGang l.placed r hs (s.hart h).epcfg ∧ t.strand (2 * h) = newStrand l 0 false
    ∧ t.strand (2 * h + 1) = newStrand l 1 (l.span && r != 0) := by
  obtain ⟨hlt, -⟩ := List.getElem?_eq_some_iff.mp hr
  have hget : hs.getD r 0 = h := by rw [List.getD_eq_getElem?_getD, hr]; rfl
  subst hget
  rw [gangPlaced, applyAll_append]
  exact units_flatMap l s.nextGang hs (fun r => hs.getD r 0) (List.range hs.length) ((map_getD_range hs).symm ▸ hnodup)
    (List.mem_range.mpr hlt) (applyAll (gangEntered s p id l hs) s)

theorem others_gangPlaced {h : Nat} (hh : h ∉ hs) : SameHart s (applyAll (gangPlaced s p id l hs) s) h := by
  rw [gangPlaced, applyAll_append]
  refine sameHart_flatMap l s.nextGang hs (fun r => hs.getD r 0) (List.range hs.length) (fun r hr e => hh ?_)
    (applyAll (gangEntered s p id l hs) s)
  rw [List.mem_range] at hr
  rw [e, List.getD_eq_getElem _ _ hr]
  exact List.getElem_mem hr

end

/-! ### Completion (R357) -/

/-- The gangs of a launch. -/
def gangsOf (s : State) (p id : Nat) : Tab Gang := s.gangs.filter fun x => x.2.part == p && x.2.launch == id

/-- The run that performs the writes that the members of these gangs hold. -/
def performMembers (s : State) (gs : Tab Gang) : Run :=
  gs.foldl (fun r x => x.2.members.foldl (fun r m => wcFlush (flushHart r m) (coreOf m)) r) (Run.start s)

theorem launchCompletion_happens {s : State} {p id : Nat} {l : Launch} (hon : s.dev.off = false) (hl : launchIn s p id = some l)
    (hdisp : l.dispatched = true) (hruns : ∀ x ∈ gangsOf s p id, gangRuns s x.2 = false) (hplaced : l.placed = l.gangs)
    (hfin : ∀ x ∈ gangsOf s p id, ∀ m ∈ x.2.members, m ∈ x.2.fin)
    (hcmds : ∀ c ∈ s.cmds, ∀ x ∈ gangsOf s p id, c.gid ≠ some x.1) :
    Happens (.launchCompletion p id) s (completeLaunch (performMembers s (gangsOf s p id)) p l l.st l.gangs).out := by
  have hdue : (l.dispatched && l.placed == l.gangs && (gangsOf s p id).all (fun x => x.2.members.all x.2.fin.contains)
      && !s.cmds.any (fun c => (gangsOf s p id).any fun x => c.gid == some x.1)
      && !(gangsOf s p id).any fun x => gangRuns s x.2) = true := by
    simp only [Bool.and_eq_true, Bool.not_eq_true', beq_iff_eq, List.all_eq_true, List.any_eq_false, List.contains_iff_mem,
      List.any_eq_true, not_exists, not_and]
    exact ⟨⟨⟨⟨hdisp, hplaced⟩, hfin⟩, hcmds⟩, fun x hx => ne_true_of_eq_false (hruns x hx)⟩
  refine happens_of_event (i := .launchCompletion p id) rfl hon ?_
  rw [hl]
  exact if_pos hdue

/-! ### The obligation -/

/-- Settles O32: the launch's count selects its dispatch, members on different harts keep what they are given, and the gangs of a
complete launch are found finished. -/
theorem launchEvents : Obligations.LaunchEvents := by
  intro s p id l hon hl
  refine ⟨fun hnew hdeps hcur hhalt => ⟨?direct, fun hind r => ⟨fun t => ?unread, ?zero, fun n hn hcount => ?counted⟩⟩,
    fun hs hdisp hleft hcur hhalt hsteps hpick => ?placement, launchCompletion_happens hon hl⟩
  case direct => exact launchDispatch_direct hon hl hnew hdeps hcur hhalt
  case unread => exact launchDispatch_unread hon hl hnew hdeps hcur hhalt hind
  case zero => exact launchDispatch_zero hon hl hnew hdeps hcur hhalt hind
  case counted =>
    have hgo := launchDispatch_counted hon hl hnew hdeps hcur hhalt hind hn hcount
    exact ⟨fun hcap => by rwa [if_pos hcap] at hgo, fun hfits => by rwa [if_neg (Nat.not_lt.mpr hfits)] at hgo⟩
  case placement =>
    obtain ⟨hnext, hmem, hcores, hgangs, hlq⟩ := frame_gangPlaced s p id l hs
    refine ⟨_, gangPlacement_happens hon hl hdisp hleft hcur hhalt hsteps hpick, hnext, hmem, hcores, hgangs, hlq,
      fun r h hr => ?member, fun h hh => others_gangPlaced s p id l hh⟩
    obtain ⟨hhart, ha, hx⟩ := members_gangPlaced s p id l (nodup_of_pickHarts hpick) hr
    exact ⟨hhart, ha, hx, by rw [hhart]; rfl, by rw [hhart]; rfl, by rw [hhart]; rfl, by rw [ha, pc_newStrand]; rfl,
      by rw [hx, pc_newStrand]; rfl⟩

end Sys2Proof.Machine
end

section
/-! PROOFS. RLSET: O30 (19 R363, R360, R361, Table 19.6). -/

namespace Sys2Proof.Machine

/-- The trap of an image that cannot be accessed: the run-list fault, or an uncorrectable data error itself (R363; 20 R369). -/
def imageFault (t : TrapInfo) : TrapInfo := if t.code = 54 then t else runListFault

section
variable {α : Type} {s : State} {m : M α} {r : Run}

theorem rlAccess_ok {a : α} (h : m (Run.start s) = .ok (a, r)) (k : α → Run → Act) : rlAccess s m k = k a r := by
  rw [rlAccess, h]

theorem rlAccess_error {t : TrapInfo} (h : m (Run.start s) = .error (t, r)) (k : α → Run → Act) :
    rlAccess s m k = .part r.kept (imageFault t) := by
  rw [rlAccess, h]
  rfl

end

/-! ### Each operation by its own part -/

section
variable {s : State} {o : RLo} (h : canIssue s .both 1 [o.b] [.x o.d] [o.a]) {i : Instr} {op : Nat} {k : Nat → Nat → Nat → Act}
  (hx : exec i s = finish s o.form.len (rlsetAct s o op k))
include h hx

/-- Another operation, or a bit above the entry's, is refused. -/
theorem rlset_refused (hbad : 2 ^ 14 ≤ (srcOf s [o.b] 0).toNat ∨ (srcOf s [o.b] 0).toNat % 256 ≠ op) :
    Traps i s o.form.len runListFault := traps_of_issue hx h (if_pos hbad.symm)

variable (hw : (srcOf s [o.b] 0).toNat < 2 ^ 14) (hop : (srcOf s [o.b] 0).toNat % 256 = op)
include hw hop

theorem rlset_completes {us : List Upd} {st : Nat}
    (hk : k (partIx s s.h) ((srcOf s [o.b] 0).toNat / 256) (getX s.me o.a).toNat = rlStatus s o us st) :
    Completes i s o.form.len (popAll s.h [o.b] ++ (us ++ setD s.cur (.x o.d) (BitVec.ofNat 64 st))) :=
  completes_of_issue hx h ((if_neg (not_or.mpr ⟨not_not.mpr hop, Nat.not_le.mpr hw⟩)).trans hk)

theorem rlset_trapsAfter {us : List Upd} {t : TrapInfo}
    (hk : k (partIx s s.h) ((srcOf s [o.b] 0).toNat / 256) (getX s.me o.a).toNat = .part us t) :
    TrapsAfter i s o.form.len us t :=
  trapsAfter_of_issue hx h ((if_neg (not_or.mpr ⟨not_not.mpr hop, Nat.not_le.mpr hw⟩)).trans hk)

end

/-! ### The five operations -/

/-- The updates that store an entry after those of run r: one of a new context that does not run keeps nothing of an earlier one (R361;
15 R322). -/
def entryStored (s : State) (r : Run) (p k : Nat) (e : RlEnt) : List Upd :=
  r.out ++ [.part p fun q => { q with rl := tput q.rl k e, emul := if e.n && q.cur != some k then dropEmul k q.emul else q.emul }]
  ++ (if e.n then (if (s.part p).cur = some k then [] else [loseCmds p k (loftPad k)])
      ++ (partCores s p).map fun c => .loft c (emptyLoft k) else []) ++ [planLofts p]

section
variable {s : State} {o : RLo} (h : canIssue s .both 1 [o.b] [.x o.d] [o.a]) (hw : (srcOf s [o.b] 0).toNat < 2 ^ 14)
include h hw

section
variable (hop : (srcOf s [o.b] 0).toNat % 256 = 0) {r : Run}
include hop

theorem rlsetWriteEntry_unread {t : TrapInfo}
    (hload : loadBytesM (spaceOf s s.h) (some s.c) (getX s.me o.a).toNat 32 (flushHeld (Run.start s) s.cur) = .error (t, r)) :
    TrapsAfter (.rlsetWriteEntry o) s o.form.len r.kept (imageFault t) :=
  rlset_trapsAfter (i := .rlsetWriteEntry o) h rfl hw hop (rlAccess_error ((flushMine_then s _ _).trans hload) _)

variable {bs : List Byte}
  (hload : loadBytesM (spaceOf s s.h) (some s.c) (getX s.me o.a).toNat 32 (flushHeld (Run.start s) s.cur) = .ok (bs, r))
include hload

theorem rlsetWriteEntry_malformed (hbs : entOfImage bs = none) : Completes (.rlsetWriteEntry o) s o.form.len
    (popAll s.h [o.b] ++ (r.out ++ setD s.cur (.x o.d) (BitVec.ofNat 64 1))) := by
  refine rlset_completes (i := .rlsetWriteEntry o) h rfl hw hop ((rlAccess_ok ((flushMine_then s _ _).trans hload) _).trans ?_)
  rw [hbs]

theorem rlsetWriteEntry_stores {e : RlEnt} (hbs : entOfImage bs = some e) : Completes (.rlsetWriteEntry o) s o.form.len
    (popAll s.h [o.b] ++ (entryStored s r (partIx s s.h) ((srcOf s [o.b] 0).toNat / 256) e
      ++ setD s.cur (.x o.d) (BitVec.ofNat 64 0))) := by
  refine rlset_completes (i := .rlsetWriteEntry o) h rfl hw hop ((rlAccess_ok ((flushMine_then s _ _).trans hload) _).trans ?_)
  rw [hbs]
  rfl

end

section
variable (hop : (srcOf s [o.b] 0).toNat % 256 = 1) {r : Run}
include hop

theorem rlsetReadEntry_unwritten {t : TrapInfo}
    (hstore : storeBytesM (spaceOf s s.h) (some s.c) (getX s.me o.a).toNat
      (entImage ((s.part (partIx s s.h)).ent ((srcOf s [o.b] 0).toNat / 256))) (flushHeld (Run.start s) s.cur) = .error (t, r)) :
    TrapsAfter (.rlsetReadEntry o) s o.form.len r.kept (imageFault t) :=
  rlset_trapsAfter (i := .rlsetReadEntry o) h rfl hw hop (rlAccess_error ((flushMine_then s _ _).trans hstore) _)

theorem rlsetReadEntry_writes
    (hstore : storeBytesM (spaceOf s s.h) (some s.c) (getX s.me o.a).toNat
      (entImage ((s.part (partIx s s.h)).ent ((srcOf s [o.b] 0).toNat / 256))) (flushHeld (Run.start s) s.cur) = .ok ((), r)) :
    Completes (.rlsetReadEntry o) s o.form.len (popAll s.h [o.b] ++ (r.out ++ setD s.cur (.x o.d) (BitVec.ofNat 64 0))) :=
  rlset_completes (i := .rlsetReadEntry o) h rfl hw hop (rlAccess_ok ((flushMine_then s _ _).trans hstore) _)

end

section
variable (hop : (srcOf s [o.b] 0).toNat % 256 = 2)
include hop

theorem rlsetSwitch_invalid (hv : ((s.part (partIx s s.h)).ent ((srcOf s [o.b] 0).toNat / 256)).v = false) :
    Completes (.rlsetSwitch o) s o.form.len (popAll s.h [o.b] ++ ([] ++ setD s.cur (.x o.d) (BitVec.ofNat 64 2))) :=
  rlset_completes (i := .rlsetSwitch o) h rfl hw hop (if_pos (by rw [hv]; rfl))

variable (hv : ((s.part (partIx s s.h)).ent ((srcOf s [o.b] 0).toNat / 256)).v = true)
include hv

/-- A switch to the current entry starts its slice again. -/
theorem rlsetSwitch_current (hcur : (s.part (partIx s s.h)).cur = some ((srcOf s [o.b] 0).toNat / 256)) :
    Completes (.rlsetSwitch o) s o.form.len (popAll s.h [o.b]
      ++ ([.part (partIx s s.h) fun q => startSlice s.gtc.toNat { q with want := none }]
        ++ setD s.cur (.x o.d) (BitVec.ofNat 64 0))) :=
  rlset_completes (i := .rlsetSwitch o) h rfl hw hop ((if_neg (not_refused hv)).trans (if_pos hcur))

theorem rlsetSwitch_asks (hcur : (s.part (partIx s s.h)).cur ≠ some ((srcOf s [o.b] 0).toNat / 256)) :
    Completes (.rlsetSwitch o) s o.form.len (popAll s.h [o.b]
      ++ ([.part (partIx s s.h) fun q =>
            { q with want := some ((srcOf s [o.b] 0).toNat / 256), due := some (q.due.getD s.gtc.toNat) }, planLofts (partIx s s.h)]
        ++ setD s.cur (.x o.d) (BitVec.ofNat 64 0))) :=
  rlset_completes (i := .rlsetSwitch o) h rfl hw hop ((if_neg (not_refused hv)).trans (if_neg hcur))

end

/-- Operations 3 and 4 answer 3 where no save engine has stopped. -/
theorem rlset_none_stopped {i : Instr} {op : Nat} {us : Nat → List Upd} (hx : exec i s = finish s o.form.len (rlsetAct s o op fun p _ _ =>
      if (stoppedCores s p).isEmpty then rlStatus s o [] 3 else rlStatus s o (us p) 0))
    (hop : (srcOf s [o.b] 0).toNat % 256 = op) (hnone : stoppedCores s (partIx s s.h) = []) :
    Completes i s o.form.len (popAll s.h [o.b] ++ ([] ++ setD s.cur (.x o.d) (BitVec.ofNat 64 3))) :=
  rlset_completes h hx hw hop (if_pos (List.isEmpty_iff.mpr hnone))

/-- Operations 3 and 4 act on the stopped save engines. -/
theorem rlset_stopped {i : Instr} {op : Nat} {us : Nat → List Upd} (hx : exec i s = finish s o.form.len (rlsetAct s o op fun p _ _ =>
      if (stoppedCores s p).isEmpty then rlStatus s o [] 3 else rlStatus s o (us p) 0))
    (hop : (srcOf s [o.b] 0).toNat % 256 = op) (hsome : stoppedCores s (partIx s s.h) ≠ []) :
    Completes i s o.form.len (popAll s.h [o.b] ++ (us (partIx s s.h) ++ setD s.cur (.x o.d) (BitVec.ofNat 64 0))) :=
  rlset_completes h hx hw hop (if_neg (by rwa [List.isEmpty_iff]))

end

/-- The updates that resume the stopped save engines of a partition. -/
def resumed (s : State) (p : Nat) : List Upd :=
  (stoppedCores s p).map fun c => .loft c fun l => { l with save := { l.save with st := l.save.st - 2, cause := 0 } }

/-- The updates that discard the contexts of the stopped save engines of a partition. -/
def discarded (s : State) (p : Nat) : List Upd :=
  ((stoppedCores s p).foldl (fun r c => (loseContext p (s.loft c).save.ent r).add (.loft c fun _ => {})) (Run.start s)).out
    ++ [planLofts p]

/-! ### The obligation -/

/-- Settles O30: the operation selects its part, which an image, an entry or the stopped engines let retire with a status. -/
theorem runListOperations : Obligations.RunListOperations := by
  intro s o h
  refine ⟨?refused, fun hw => ⟨fun hop t r => ?unread, fun hop t r => ?unwritten,
    fun hop bs r hload => ⟨?malformed, fun e => ?stores⟩,
    fun hop r => ?writes, fun hop => ⟨?invalid, ?current, ?asks⟩, fun hop => ⟨?noneResumed, fun hcs => ?resumed⟩,
    fun hop => ⟨?noneDiscarded, fun hcs => ?discarded⟩⟩⟩
  case refused =>
    refine List.forall_mem_cons.mpr ⟨rlset_refused (i := .rlsetWriteEntry o) h rfl,
      List.forall_mem_cons.mpr ⟨rlset_refused (i := .rlsetReadEntry o) h rfl,
        List.forall_mem_cons.mpr ⟨rlset_refused (i := .rlsetSwitch o) h rfl,
          List.forall_mem_cons.mpr ⟨rlset_refused (i := .rlsetResume o) h rfl,
            List.forall_mem_singleton.mpr (rlset_refused (i := .rlsetDiscard o) h rfl)⟩⟩⟩⟩
  case unread => exact rlsetWriteEntry_unread h hw hop
  case unwritten => exact rlsetReadEntry_unwritten h hw hop
  case malformed => exact rlsetWriteEntry_malformed h hw hop hload
  case stores => exact rlsetWriteEntry_stores h hw hop hload
  case writes => exact rlsetReadEntry_writes h hw hop
  case invalid => exact rlsetSwitch_invalid h hw hop
  case current => exact rlsetSwitch_current h hw hop
  case asks => exact rlsetSwitch_asks h hw hop
  case noneResumed => exact rlset_none_stopped (i := .rlsetResume o) (us := resumed s) h hw rfl hop
  case resumed => exact rlset_stopped (i := .rlsetResume o) (us := resumed s) h hw rfl hop hcs
  case noneDiscarded => exact rlset_none_stopped (i := .rlsetDiscard o) (us := discarded s) h hw rfl hop
  case discarded => exact rlset_stopped (i := .rlsetDiscard o) (us := discarded s) h hw rfl hop hcs

end Sys2Proof.Machine
end

section
/-! PROOFS. Slices, switches and their limits: O34 (19 R360, R361, Table 19.3). -/

namespace Sys2Proof.Machine

/-! ### The entry that a switch makes the current one -/

/-- What the completion of a switch to entry `k` makes of the partition's record: the request is met, the entry is the current one,
and its slice begins. -/
def entered (now k : Nat) (q : Part) : Part :=
  startSlice now (enterEnt k { q with want := if q.want = some k then none else q.want })

theorem entered_slice (now k : Nat) (q : Part) :
    (entered now k q).cur = some k ∧ (entered now k q).due = none ∧ (entered now k q).missed = false
    ∧ (entered now k q).sliceEnd = now + 1000 * ((entered now k q).curOf k).slice := ⟨rfl, rfl, rfl, rfl⟩

/-- The event and the change of plan after that leave the entry and its slice as they are. -/
theorem switched_entered (k p now : Nat) (s : State) :
    let t := (planLofts p).app ((rlevSet p 0 k).app ((Upd.part p (entered now k)).app s))
    (t.part p).cur = some k ∧ (t.part p).rlev.getLsbD 0 = true ∧ (t.part p).rlent = k ∧ (t.part p).due = none
    ∧ (t.part p).missed = false ∧ (t.part p).sliceEnd = now + 1000 * ((t.part p).curOf k).slice := by
  have hbit := rlev_app_rlevSet ((Upd.part p (entered now k)).app s) (bit := 0) (by decide) p k
  obtain ⟨hcur, hdue, hmissed, hend⟩ := entered_slice now k (s.part p)
  simp only [part_app_planLofts]
  refine ⟨?_, hbit, ?_, ?_, ?_, ?_⟩
  all_goals rw [part_app_rlevSet, part_app_part]
  · exact hcur
  · exact hdue
  · exact hmissed
  · exact hend

section
variable {s : State} {p k : Nat} (hon : s.dev.off = false) (hnext : nextEnt (s.part p) = some k)
include hon hnext

/-! ### The end of a slice -/

section
variable {c : Nat} (hcur : (s.part p).cur = some c)
include hcur

/-- A switch that is due to the current entry itself starts the slice again. -/
theorem sliceEnd_of_due (hck : c = k) (hdue : (s.part p).due ≠ none) :
    Happens (.sliceEnd p) s [.part p (startSlice s.gtc.toNat)] := by
  obtain ⟨since, hdue⟩ := Option.ne_none_iff_exists'.mp hdue
  refine happens_of_event (i := .sliceEnd p) rfl hon ?_
  dsimp only
  rw [hcur, hnext, hdue]
  exact if_pos hck

variable (hdue : (s.part p).due = none) (hover : (s.part p).sliceEnd ≤ s.gtc.toNat)
include hdue hover

theorem sliceEnd_restarts (hck : c = k) : Happens (.sliceEnd p) s [.part p (startSlice (s.part p).sliceEnd)] := by
  refine happens_of_event (i := .sliceEnd p) rfl hon ?_
  dsimp only
  rw [hcur, hnext, hdue]
  exact (if_neg (Nat.not_lt.mpr hover)).trans (if_pos hck)

theorem sliceEnd_begins_switch (hck : c ≠ k) : Happens (.sliceEnd p) s
    [.part p (fun q => { q with due := some q.sliceEnd }), planLofts p] := by
  refine happens_of_event (i := .sliceEnd p) rfl hon ?_
  dsimp only
  rw [hcur, hnext, hdue]
  exact (if_neg (Nat.not_lt.mpr hover)).trans (if_neg hck)

end

/-! ### The completion of a switch -/

section
variable (hother : (s.part p).cur ≠ some k) (hdue : (s.part p).cur = none ∨ (s.part p).due ≠ none) (hhalt : (s.part p).halt.st = 0)
  (hcores : partCores s p ≠ []) (hready : ∀ c ∈ partCores s p, loftReady s k c = true)

omit hon hnext in
include hother hdue hhalt hcores hready in
/-- Every loft of a partition that has a switch due holds the context of the next entry. -/
theorem switch_ready : ¬((s.part p).cur = some k || ((s.part p).cur.isSome && (s.part p).due.isNone) || (s.part p).halt.st != 0
    || (partCores s p).isEmpty || !(partCores s p).all (loftReady s k)) = true := by
  rw [List.all_eq_true.mpr hready, List.isEmpty_eq_false_iff.mpr hcores, hhalt, decide_eq_false hother]
  rcases hdue with hdue | hdue
  · simp [hdue]
  · simp [hdue]

include hother hdue hhalt hcores hready

/-- Held stores that raise the halt line are all that there is (20 R378). -/
theorem switchComplete_halts (hheld : ((performAll (Run.start s) (partCores s p)).s.part p).halt.st ≠ 0) :
    Happens (.switchComplete p) s (performAll (Run.start s) (partCores s p)).out := by
  refine happens_of_event (i := .switchComplete p) rfl hon ?_
  dsimp only
  rw [hnext]
  exact (if_neg (switch_ready hother hdue hhalt hcores hready)).trans (if_pos (bne_iff_ne.mpr hheld))

/-- A switch ends with its entry's slice begun, its event and a change of plan, after whatever moves the banks. -/
theorem switchComplete_enters (hheld : ((performAll (Run.start s) (partCores s p)).s.part p).halt.st = 0) :
    ∃ r : Run, Happens (.switchComplete p) s
      (((r.add (.part p (entered s.gtc.toNat k))).add (rlevSet p 0 k)).add (planLofts p)).out := by
  refine ⟨?run, happens_of_event (i := .switchComplete p) rfl hon ?ends⟩
  case ends =>
    dsimp only
    rw [hnext]
    dsimp only
    rw [if_neg (switch_ready hother hdue hhalt hcores hready), if_neg (by rw [hheld]; decide)]
    rfl

end

end

/-! ### A missed limit -/

theorem latencyLimitMiss_happens {s : State} {p k since : Nat} (hon : s.dev.off = false) (hcur : (s.part p).cur = some k)
    (hdue : (s.part p).due = some since) (hfirst : (s.part p).missed = false) (hnext : nextEnt (s.part p) ≠ some k)
    (hlimit : ((s.part p).curOf k).lat ≠ 0) (hlate : since + 1000 * ((s.part p).curOf k).lat ≤ s.gtc.toNat) :
    Happens (.latencyLimitMiss p) s [.part p (fun q => { q with missed := true }), rlevSet p 1 k] := by
  refine happens_of_event (i := .latencyLimitMiss p) rfl hon ?_
  dsimp only
  rw [hcur, hdue]
  refine if_neg ?_
  rw [hfirst, beq_false_of_ne hlimit, beq_false_of_ne hnext, decide_eq_false (Nat.not_lt.mpr hlate)]
  decide

/-! ### The obligation -/

/-- Settles O34: the next entry and the time select what ends a slice, and the last updates of a switch decide the partition's state. -/
theorem slicesAndSwitches : Obligations.SlicesAndSwitches := by
  intro s p hon
  refine ⟨fun c k hcur hnext hdue hover => ⟨?restarts, ?begins⟩, fun c hcur hnext hdue => ?again,
    fun k hnext hother hdue hhalt hcores hready => ⟨?halts, fun hheld => ?enters⟩,
    fun k since => latencyLimitMiss_happens hon⟩
  case restarts => exact sliceEnd_restarts hon hnext hcur hdue hover
  case begins => exact sliceEnd_begins_switch hon hnext hcur hdue hover
  case again => exact sliceEnd_of_due hon hnext hcur rfl hdue
  case halts => exact switchComplete_halts hon hnext hother hdue hhalt hcores hready
  case enters =>
    obtain ⟨r, hr⟩ := switchComplete_enters hon hnext hother hdue hhalt hcores hready hheld
    refine ⟨_, hr, ?_⟩
    rw [applyAll_out_add, applyAll_out_add, applyAll_out_add]
    exact switched_entered k p _ _

end Sys2Proof.Machine
end

section
/-! PROOFS. The record of a context: the doubles of its scalar registers, written and read back (20 R384, Table 20.11). -/

namespace Sys2Proof.Machine

/-! ### Offsets (Table 20.11) -/

/-- The offset of the block of strand j of hart h in its core's record. -/
def strandOff (h j : Nat) : Nat := corePart + 2 ^ 19 * (h % 4) + 0x400 * j

/-! ### Registers in a record -/

theorem nthD_strandRec (st : Strand) {q : Nat} (hq : q < 64) : nthD (strandRec st) q = (getX st q).toNat := by
  have hget : (strandRec st).getD q 0 = (getX st q).toNat := by
    simp only [strandRec, List.append_assoc]
    rw [List.getD_append _ _ _ _ (by simpa using hq), List.getD_eq_getElem _ _ (by simpa using hq)]
    simp
  rw [nthD, hget]
  exact Nat.mod_eq_of_lt (getX st q).isLt

/-- Both strands of a hart have their scalar registers at the offsets of their blocks. -/
theorem hartDbl_strand (h : Hart) (st : Nat → Strand) {j q : Nat} (hj : j = 0 ∨ j = 1) (hq : q < 64) :
    hartDbl h (st 0) (st 1) (0x400 * j + 8 * q) = (getX (st j) q).toNat := by
  rcases hj with rfl | rfl
  · have hdiv : (0x400 * 0 + 8 * q) / 8 = q := by omega
    simp only [hartDbl, hdiv]
    rw [if_pos (by omega), nthD_strandRec _ hq]
  · have hdiv : (0x400 * 1 + 8 * q) / 8 - 128 = q := by omega
    simp only [hartDbl, hdiv]
    rw [if_neg (by omega), if_pos (by omega), nthD_strandRec _ hq]

/-- A record holds every scalar register of its core's strands. -/
theorem recordDbl_strand (b : Bank) {c h : Nat} (hc : h / 4 = c) (tag : Nat) {j q : Nat} (hj : j = 0 ∨ j = 1) (hq : q < 64) :
    recordDbl b c tag (strandOff h j + 8 * q) = (getX (tget {} b.strands (2 * h + j)) q).toNat := by
  have hoff : strandOff h j + 8 * q - corePart = 2 ^ 19 * (h % 4) + (0x400 * j + 8 * q) := by unfold strandOff; omega
  have hpart : ¬strandOff h j + 8 * q < corePart := by unfold strandOff; omega
  have hsmall : 0x400 * j + 8 * q < 2 ^ 19 := by omega
  have hdiv : (2 ^ 19 * (h % 4) + (0x400 * j + 8 * q)) / 2 ^ 19 = h % 4 := by omega
  have hmod : (2 ^ 19 * (h % 4) + (0x400 * j + 8 * q)) % 2 ^ 19 = 0x400 * j + 8 * q := by omega
  have hhart : 4 * c + h % 4 = h := by omega
  rw [recordDbl, if_neg hpart, hoff, hdiv, hmod]
  dsimp only
  rw [hhart]
  exact hartDbl_strand _ (fun j => tget {} b.strands (2 * h + j)) hj hq

/-! ### Registers read back -/

section
variable {α : Type} (d : α)

theorem tget_tabOf [DecidableEq α] {n k : Nat} (f : Nat → α) (hk : k < n) : tget d (tabOf d n f) k = f k := by
  induction n with
  | zero => exact absurd hk (Nat.not_lt_zero k)
  | succ n ih =>
    have hsucc : tabOf d (n + 1) f = tabOf d n f ++ if f n = d then [] else [(n, f n)] := by
      unfold tabOf
      rw [List.range_succ, List.filterMap_append, List.filterMap_cons, List.filterMap_nil]
      by_cases hd : f n = d <;> simp only [hd, if_true, if_false]
    rw [hsucc]
    rcases Nat.lt_succ_iff_lt_or_eq.mp hk with hlt | rfl
    · rw [tget_append_of_forall_gt d, ih hlt]
      split
      · exact List.forall_mem_nil _
      · exact List.forall_mem_singleton.mpr hlt
    · rw [tget_append_of_forall_lt d]
      · split
        next hd => exact hd.symm
        next => rw [tget, if_pos rfl]
      · intro p hp
        obtain ⟨i, hi, hp⟩ := List.mem_filterMap.mp hp
        split at hp
        · cases hp
        · cases hp
          exact List.mem_range.mp hi

/-- A table that lists n values from a number on. -/
def tabFrom (b n : Nat) (f : Nat → α) : Tab α := (List.range' b n).map fun i => (i, f i)

theorem tabFrom_succ (b n : Nat) (f : Nat → α) : tabFrom b (n + 1) f = tabFrom b n f ++ [(b + n, f (b + n))] := by
  simp [tabFrom, List.range'_concat]

theorem trises_tabFrom (b n : Nat) (f : Nat → α) : trises b (tabFrom b n f) = true := by
  induction n generalizing b with
  | zero => rfl
  | succ n ih =>
    rw [tabFrom, List.range'_succ, List.map_cons, trises, Bool.and_eq_true, decide_eq_true_eq]
    exact ⟨le_rfl, ih (b + 1)⟩

theorem tget_tabFrom {b n i : Nat} (f : Nat → α) (hlo : b ≤ i) (hhi : i < b + n) : tget d (tabFrom b n f) i = f i := by
  induction n generalizing b with
  | zero => omega
  | succ n ih =>
    rw [tabFrom, List.range'_succ, List.map_cons, tget]
    split_ifs with he hlt
    · rw [he]
    · omega
    · exact ih (by omega) (by omega)

end

theorem getX_strandOf (f : Nat → Nat) (o : Nat) (st : Strand) {q : Nat} (h0 : q ≠ 0) (hq : q < 64) :
    getX (strandOf f o st) q = BitVec.ofNat 64 (f (o + 8 * q)) := by
  rw [getX, if_neg h0]
  exact (tget_tabOf 0 (fun r => if r = 0 then 0 else BitVec.ofNat 64 (f (o + 8 * r))) hq).trans (if_neg h0)

/-- Strand n of its core's record, over the strand that the rest keeps. -/
def strandOfRec (f : Nat → Nat) (b : Bank) (n : Nat) : Strand := strandOf f (strandOff (n / 2) (n % 2)) (tget {} b.strands n)

theorem strandOfRec_eq (f : Nat → Nat) (b : Bank) (c : Nat) {t j : Nat} (ht : t < 4) (hj : j < 2) :
    strandOfRec f b (2 * (4 * c + t) + j)
      = strandOf f (corePart + 2 ^ 19 * t + 0x400 * j) (tget {} b.strands (2 * (4 * c + t) + j)) := by
  have hhart : (2 * (4 * c + t) + j) / 2 % 4 = t := by omega
  have hstrand : (2 * (4 * c + t) + j) % 2 = j := by omega
  rw [strandOfRec, strandOff, hhart, hstrand]

/-- The strands of the first n harts of a record follow one another. -/
theorem strandsOf_harts (f : Nat → Nat) (c : Nat) (b : Bank) {n : Nat} (hn : n ≤ 4) :
    (((List.range n).map fun t => (4 * c + t, corePart + 2 ^ 19 * t)).flatMap fun p =>
      [(2 * p.1, strandOf f p.2 (tget {} b.strands (2 * p.1))),
       (2 * p.1 + 1, strandOf f (p.2 + 0x400) (tget {} b.strands (2 * p.1 + 1)))])
      = tabFrom (8 * c) (2 * n) (strandOfRec f b) := by
  induction n with
  | zero => rfl
  | succ n ih =>
    have hnum : 8 * c + 2 * n = 2 * (4 * c + n) + 0 := by omega
    have heven := strandOfRec_eq f b c (t := n) (j := 0) (by omega) (by omega)
    have hodd := strandOfRec_eq f b c (t := n) (j := 1) (by omega) (by omega)
    rw [List.range_succ, List.map_append, List.flatMap_append, ih (by omega), Nat.mul_succ, tabFrom_succ, tabFrom_succ,
      ← Nat.add_assoc, hnum, heven, hodd, List.append_assoc]
    rfl

theorem strands_bankOfRec (f : Nat → Nat) (c : Nat) (b : Bank) :
    (bankOfRec f c b).strands = tabFrom (8 * c) 8 (strandOfRec f b) := strandsOf_harts f c b le_rfl

/-- A fill restores each strand of its core from the strand's block. -/
theorem strand_bankOfRec (f : Nat → Nat) (b : Bank) {c h j : Nat} (hc : h / 4 = c) (hj : j = 0 ∨ j = 1)
    {keep : Nat × Strand → Bool} (hkeep : ∀ st, keep (2 * h + j, st) = true) :
    tget {} ((bankOfRec f c b).strands.filter keep) (2 * h + j) = strandOf f (strandOff h j) (tget {} b.strands (2 * h + j)) := by
  have hhart : (2 * h + j) / 2 = h := by omega
  have hstrand : (2 * h + j) % 2 = j := by omega
  rw [strands_bankOfRec, tget_filter {} (trises_tabFrom _ _ _) hkeep, tget_tabFrom {} (strandOfRec f b) (by omega) (by omega), strandOfRec,
    hhart, hstrand]

end Sys2Proof.Machine
end

section
/-! PROOFS. The save engines of a core fill, spill and stop: O35 (19 R361, R362, Table 19.7; 20 R384; 09 R238). -/

namespace Sys2Proof.Machine

/-! ### What a write at home leaves alone -/

/-- An update that leaves every partition record as it is. -/
def Upd.KeepsParts (u : Upd) : Prop := ∀ s : State, (u.app s).parts = s.parts

theorem parts_applyAll_of_keepsParts {us : List Upd} (hus : ∀ u ∈ us, u.KeepsParts) (s : State) : (applyAll us s).parts = s.parts := by
  induction us generalizing s with
  | nil => rfl
  | cons u us ih =>
    obtain ⟨hu, hus⟩ := List.forall_mem_cons.mp hus
    exact (ih hus (u.app s)).trans (hu s)

theorem keepsParts_mem (pa : Nat) (bs : List Byte) : (Upd.mem pa bs).KeepsParts := fun _ => rfl
theorem keepsParts_dev (f : Dev → Dev) : (Upd.dev f).KeepsParts := fun _ => rfl
theorem keepsParts_core (c : Nat) (f : Core → Core) : (Upd.core c f).KeepsParts := fun _ => rfl

theorem keepsParts_of_isDev {u : Upd} (hu : u.IsDev) : u.KeepsParts := by
  obtain ⟨f, rfl⟩ := hu
  exact keepsParts_dev f

theorem keepsParts_of_besideStore {h : Nat} {u : Upd} (hu : u.BesideStore h) : u.KeepsParts := fun s => (hu s).2.parts

theorem keepsParts_updLoftCore (c : Nat) (f : Core → Core) : (updLoftCore c f).KeepsParts := fun _ => rfl

section
variable (r : Run)

theorem homeWriteLine_keepsParts (ks : Option Nat) (pa : Nat) (bs : List Byte) :
    r.Steps Upd.KeepsParts (homeWriteLine r ks pa bs) := by
  unfold homeWriteLine
  split
  · exact Run.steps_add (keepsParts_mem _ _) r
  · exact (Run.steps_add (keepsParts_mem _ _) r).trans (Run.steps_add (keepsParts_dev _) _)

theorem backWord_keepsParts (pad : Tab Byte) (w : Nat × StashWord) : r.Steps Upd.KeepsParts (backWord r pad w) := by
  unfold backWord
  split_ifs
  · exact homeWriteLine_keepsParts r _ _ _
  · exact .refl _ r

theorem evictLine_keepsParts (pa : Nat) (k : Core) (p : Nat → Bool) {upd : (Core → Core) → Upd} (hupd : ∀ f, (upd f).KeepsParts) :
    r.Steps Upd.KeepsParts (evictLine r pa k p upd) := by
  unfold evictLine
  dsimp only
  split_ifs
  · exact .refl _ r
  · exact (Run.steps_foldl (fun w _ r => backWord_keepsParts r k.pad w) r).trans (Run.steps_add (hupd _) _)

theorem evictOthers_keepsParts (own : Option (Nat × Nat)) (pa : Nat) : r.Steps Upd.KeepsParts (evictOthers r own pa) := by
  unfold evictOthers
  refine ((dropL1_steps (h := 0) r (pa / 64)).mono fun _ => keepsParts_of_besideStore).trans
    ((Run.steps_foldl (fun c _ r => evictLine_keepsParts r pa c.2 _ (keepsParts_core c.1)) _).trans
      (Run.steps_foldl (fun l _ r => ?_) _))
  split
  · exact evictLine_keepsParts r pa _ _ (keepsParts_updLoftCore l.1)
  · exact .refl _ r

theorem homeWrite_keepsParts (ks : Option Nat) (n pa : Nat) (bs : List Byte) : r.Steps Upd.KeepsParts (homeWrite ks n r pa bs) := by
  induction n generalizing r pa bs with
  | zero => exact .refl _ r
  | succ n ih =>
    rw [homeWrite]
    split_ifs
    · exact .refl _ r
    · have hevict := evictOthers_keepsParts r none pa
      have hbreak := (breakResv_steps (h := 0) (evictOthers r none pa) pa (bs.take (64 - pa % 64)).length).mono
        fun _ => keepsParts_of_besideStore
      exact hevict.trans (hbreak.trans ((homeWriteLine_keepsParts _ ks pa _).trans (ih _ _ _)))

theorem putLoc_keepsParts (l : Loc) (bs : List Byte) : r.Steps Upd.KeepsParts (putLoc r l bs) := by
  have hpast (l : Loc) := (keepPast_steps (h := 0) r (fun _ => true) l bs.length).mono fun _ => keepsParts_of_besideStore
  cases l with
  | pad va c off => exact (hpast _).trans (Run.steps_add (keepsParts_core c _) _)
  | mem va pa ks => exact (hpast _).trans (homeWrite_keepsParts _ ks _ pa bs)

theorem writePages_keepsParts (f : Nat → Nat) (o : Nat) (ls : List Loc) : r.Steps Upd.KeepsParts (writePages f o ls r) := by
  induction ls generalizing r o with
  | nil => exact .refl _ r
  | cons l ls ih =>
    rw [writePages]
    split_ifs
    · exact (putLoc_keepsParts r _ _).trans (ih _ _)
    · exact (putLoc_keepsParts r _ _).trans (ih _ _)

end

section
variable {sp : Space} {e : RlEnt} {i n kind : Nat}

theorem recordPage_keepsParts {o : Nat} {r r' : Run} {l : Loc} (h : recordPage sp e i n kind o r = .ok (l, r')) :
    r.Steps Upd.KeepsParts r' := by
  unfold recordPage at h
  dsimp only at h
  split_ifs at h
  split at h
  next => cases h
  next ht =>
    cases h
    exact (translate_steps ht).mono fun _ => keepsParts_of_isDev

theorem recordPages_keepsParts (m o : Nat) (r : Run) : r.Steps Upd.KeepsParts (recordPages sp e i n kind m o r).2.2 := by
  induction m generalizing o r with
  | zero => exact .refl _ r
  | succ m ih =>
    rw [recordPages]
    split
    next => exact .refl _ r
    next h => exact (recordPage_keepsParts h).trans (ih _ _)

end

theorem flushLoft_keepsParts (r : Run) (c : Nat) : r.Steps Upd.KeepsParts (flushLoft r c) := by
  unfold flushLoft
  split
  · exact .refl _ r
  · exact (Run.steps_foldl (fun w _ r => backWord_keepsParts r _ w) r).trans (Run.steps_add (keepsParts_updLoftCore c _) _)

/-! ### A save engine that stops (R362) -/

/-- The save engine of core c stops at an offset with a cause. -/
def saveStopped (c st cause off : Nat) : Upd := .loft c fun l => { l with save := { l.save with st := st, cause := cause, off := off } }

/-- What is read of a save engine that has stopped, and of its event. -/
theorem reads_saveStopped {bit : Nat} (hbit : bit < 6) (p k c st cause off : Nat) (s : State) :
    let t := (rlevSet p bit k).app ((saveStopped c st cause off).app s)
    (t.loft c).save.st = st ∧ (t.loft c).save.cause = cause ∧ (t.loft c).save.off = off ∧ (t.part p).rlev.getLsbD bit = true := by
  refine ⟨?_, ?_, ?_, rlev_app_rlevSet _ hbit p k⟩ <;> simp only [loft_app_rlevSet, saveStopped, loft_app_loft]

/-! ### Fills -/

/-- The bank that a fill takes from the pages of a record, over what is kept beside it. -/
def bankRead (s : State) (p k c : Nat) (ls : List Loc) (r : Run) : Bank :=
  bankOfRec (pageDbl r.s ls) c (tget {} (tget [] (s.part p).saved k) c)

/-- A bank with its core refreshed, and without service harts. -/
def withoutService (s : State) (b : Bank) (core : Core) : Bank :=
  { core := core, harts := b.harts.filter fun h => !isService s h.1, strands := b.strands.filter fun x => !isService s (x.1 / 2) }

/-- The run that gives a bank to a loft, and what was kept beside the record of core c up. -/
def bankGiven (p k c : Nat) (b : Bank) (r : Run) : Run :=
  ((r.add (.part p fun q => { q with saved := tput q.saved k ((tget [] q.saved k).filter fun x => x.1 != c) })).add
    (.loft c fun _ => filledLoft k b)).add (planLofts p)

section
variable {s : State} {c p k : Nat} (hon : s.dev.off = false) (hp : partOfHall s (c / 16) = some p) (hk : (s.loft c).save.ent = k)
  (hst : (s.loft c).save.st = 2)
include hon hp hk hst

/-- A new context is zero (R361). -/
theorem contextFillDone_new (hnew : ((s.part p).ent k).n = true) :
    Happens (.contextFillDone c) s [.loft c fun _ => filledLoft k {}, clearNew p k, planLofts p] := by
  subst hk
  refine happens_of_event (i := .contextFillDone c) rfl hon ?_
  dsimp only
  rw [hp]
  exact (if_neg (not_not.mpr hst)).trans (if_pos hnew)

section
variable (hold : ((s.part p).ent k).n = false) {ls : List Loc} {r : Run}
include hold

theorem contextFillDone_restores (hpages : fillPages s p k c (s.loft c).save.off = (ls, none, r)) :
    Happens (.contextFillDone c) s (bankGiven p k c (withoutService s (bankRead s p k c ls r)
      (refreshStash r (bankRead s p k c ls r).core).2) (refreshStash r (bankRead s p k c ls r).core).1).out := by
  subst hk
  refine happens_of_event (i := .contextFillDone c) rfl hon ?_
  dsimp only
  rw [hp]
  refine (if_neg (not_not.mpr hst)).trans ((if_neg (ne_true_of_eq_false hold)).trans ?_)
  rw [hpages]
  rfl

theorem fillStop_happens {off cause : Nat} (hpages : fillPages s p k c (s.loft c).save.off = (ls, some (off, cause), r)) :
    Happens (.fillStop c off) s (r.out ++ (if cause = 4 then saveError s p k c 0 off else [])
      ++ [saveStopped c 4 cause off, rlevSet p 3 k]) := by
  subst hk
  refine happens_of_event (i := .fillStop c off) rfl hon ?_
  dsimp only
  rw [hp]
  refine (if_neg ?_).trans ?_
  · simp [hst, hold]
  · rw [hpages]
    exact if_neg (not_not.mpr rfl)

end

end

/-- A fill restores the pc and the scalar registers of each strand that is no service hart's (Table 20.11). -/
theorem registers_restored {s : State} {p k c h j : Nat} (ls : List Loc) (r : Run) (core : Core) (hc : h / 4 = c)
    (huser : isService s h = false) (hj : j = 0 ∨ j = 1) :
    let st := tget {} (withoutService s (bankRead s p k c ls r) core).strands (2 * h + j)
    st.pc = BitVec.ofNat 64 (pageDbl r.s ls (strandOff h j + 8 * 64))
    ∧ ∀ q, 0 < q → q < 64 → getX st q = BitVec.ofNat 64 (pageDbl r.s ls (strandOff h j + 8 * q)) := by
  have hhart : (2 * h + j) / 2 = h := by omega
  have hkeep (st : Strand) : (!isService s ((2 * h + j, st).1 / 2)) = true := by rw [hhart, huser]; rfl
  have hstrand := strand_bankOfRec (pageDbl r.s ls) (tget {} (tget [] (s.part p).saved k) c) hc hj
    (keep := fun x => !isService s (x.1 / 2)) hkeep
  simp only [withoutService, bankRead, hstrand]
  exact ⟨rfl, fun q h0 => getX_strandOf _ _ _ (Nat.ne_of_gt h0)⟩

/-! ### Spills -/

/-- Writes bytes at the start of the page of a record at offset o, where there is one. -/
def putPage (sp : Space) (e : RlEnt) (i n o : Nat) (bs : List Byte) (r : Run) : Run :=
  match recordPage sp e i n 1 o r with
  | .ok (w, r) => putLoc r w bs
  | .error _ => r

section
variable {sp : Space} {e : RlEnt} {i n o : Nat} {r r' : Run} (bs : List Byte)

theorem putPage_ok {w : Loc} (h : recordPage sp e i n 1 o r = .ok (w, r')) : putPage sp e i n o bs r = putLoc r' w bs := by
  rw [putPage, h]

theorem putPage_error {cause : Nat} (h : recordPage sp e i n 1 o r = .error cause) : putPage sp e i n o bs r = r := by
  rw [putPage, h]

end

theorem putPage_keepsParts (sp : Space) (e : RlEnt) (i n o : Nat) (bs : List Byte) (r : Run) :
    r.Steps Upd.KeepsParts (putPage sp e i n o bs r) := by
  cases hpage : recordPage sp e i n 1 o r with
  | ok x =>
    rw [putPage_ok bs hpage]
    exact (recordPage_keepsParts hpage).trans (putLoc_keepsParts _ _ _)
  | error cause =>
    rw [putPage_error bs hpage]
    exact .refl _ r

/-- Writes the pages of a record: those below an offset, where a stop had left the spill, and those from it on. -/
def pagesWritten (sp : Space) (e : RlEnt) (i n off : Nat) (f : Nat → Nat) (ls : List Loc) (r : Run) : Run :=
  writePages f off ls
    (writePages f 0 (recordPages sp e i n 1 (off / 4096) 0 r).1 (recordPages sp e i n 1 (off / 4096) 0 r).2.2)

/-- The run of a spill from the pages of its record: the pages, and then the completion word. -/
def recordWritten (s : State) (sp : Space) (e : RlEnt) (i n off : Nat) (f : Nat → Nat) (ls : List Loc) (r : Run) : Run :=
  putPage sp e i n doneOff (leBytes 8 (2 ^ 63 + s.gtc.toNat % 2 ^ 48)) (pagesWritten sp e i n off f ls r)

theorem recordWritten_keepsParts (s : State) (sp : Space) (e : RlEnt) (i n off : Nat) (f : Nat → Nat) (ls : List Loc) (r : Run) :
    r.Steps Upd.KeepsParts (recordWritten s sp e i n off f ls r) :=
  (recordPages_keepsParts _ 0 r).trans ((writePages_keepsParts _ f 0 _).trans
    ((writePages_keepsParts _ f off ls).trans (putPage_keepsParts sp e i n doneOff _ _)))

/-- The run that keeps a bank beside its record and empties its loft. -/
def loftEmptied (p k c : Nat) (b : Bank) (r : Run) : Run :=
  ((r.add (.part p fun q => { q with saved := tput q.saved k (tput (tget [] q.saved k) c b) })).add (.loft c fun _ => {})).add
    (planLofts p)

/-- The pages of core c's record of entry k of partition p from an offset on, as a spill finds them after the write-back of the stash. -/
def spillPages (s : State) (p k c off : Nat) : List Loc × Option (Nat × Nat) × Run :=
  recordPages (stewardSpace s p) ((s.part p).ent k) (coreIx s p c) (partCores s p).length 1 ((recordLen - off) / 4096) off
    (flushLoft (Run.start s) c)

section
variable {s : State} {c p k : Nat} (hon : s.dev.off = false) (hp : partOfHall s (c / 16) = some p) (hk : (s.loft c).save.ent = k)
  (hst : (s.loft c).save.st = 1) (hbank : (s.loft c).bank ≠ none) {ls : List Loc} {r : Run}
include hon hp hk hst hbank

theorem spillStop_happens {off cause : Nat} (hpages : spillPages s p k c (s.loft c).save.off = (ls, some (off, cause), r)) :
    Happens (.spillStop c off) s ((((writePages (recordOf s p c k (((flushLoft (Run.start s) c).s.loft c).bank.getD {}))
      (s.loft c).save.off ls r).addAll (if cause = 4 then saveError s p k c 1 off else [])).add (saveStopped c 3 cause off)).add
        (rlevSet p 2 k)).out := by
  subst hk
  obtain ⟨b, hb⟩ := Option.ne_none_iff_exists'.mp hbank
  rw [spillPages] at hpages
  refine happens_of_event (i := .spillStop c off) rfl hon ?_
  dsimp only
  rw [hp, hb]
  refine (if_neg (not_not.mpr hst)).trans ?_
  rw [hpages]
  exact if_neg (not_not.mpr rfl)

theorem contextSpillDone_happens (hidle : loftBusy s p k = false)
    (hpages : spillPages s p k c (s.loft c).save.off = (ls, none, r)) :
    Happens (.contextSpillDone c) s (loftEmptied p k c ((r.s.loft c).bank.getD {}) (recordWritten s (stewardSpace s p)
      ((s.part p).ent k) (coreIx s p c) (partCores s p).length (s.loft c).save.off (recordOf s p c k ((r.s.loft c).bank.getD {}))
        ls r)).out := by
  subst hk
  obtain ⟨b, hb⟩ := Option.ne_none_iff_exists'.mp hbank
  rw [spillPages] at hpages
  refine happens_of_event (i := .contextSpillDone c) rfl hon ?_
  dsimp only
  rw [hp, hb]
  refine (if_neg ?_).trans ?_
  · simp [hst, hidle]
  · rw [hpages]
    dsimp only
    split
    next hword => rw [loftEmptied, recordWritten, pagesWritten, putPage_ok _ hword]
    next hword => rw [loftEmptied, recordWritten, pagesWritten, putPage_error _ hword]

end

theorem spillPages_keepsParts {s : State} {p k c off : Nat} {ls : List Loc} {x : Option (Nat × Nat)} {r : Run}
    (hpages : spillPages s p k c off = (ls, x, r)) : (Run.start s).Steps Upd.KeepsParts r := by
  have hfound := (flushLoft_keepsParts (Run.start s) c).trans (recordPages_keepsParts (sp := stewardSpace s p)
    (e := (s.part p).ent k) (i := coreIx s p c) (n := (partCores s p).length) (kind := 1) ((recordLen - off) / 4096) off _)
  rw [spillPages] at hpages
  rwa [hpages] at hfound

/-- A run that has left the partitions alone empties a loft, and its partition's current entry stays. -/
theorem reads_loftEmptied {s : State} {r : Run} (hr : (Run.start s).Steps Upd.KeepsParts r) (p k c : Nat) (b : Bank) :
    ((applyAll (loftEmptied p k c b r).out s).loft c).bank = none
    ∧ ((applyAll (loftEmptied p k c b r).out s).part p).cur = (s.part p).cur := by
  have hparts := parts_applyAll_of_keepsParts hr.forall_out s
  simp only [loftEmptied, applyAll_out_add, bank_app_planLofts, loft_app_loft, part_app_planLofts, part_app_loft, part_app_part]
  exact ⟨trivial, by rw [State.part, hparts, ← State.part]⟩

/-! ### The obligation -/

/-- Settles O35: the state of the save engine and the pages that it finds select the fill, the spill or the stop, and a record holds
each strand's registers at the offsets of its block. -/
theorem contextSaveEngines : Obligations.ContextSaveEngines := by
  intro s c p hon hp
  refine ⟨fun hst hnew => ?new, fun ls r hst hold hpages => ?restores, fun ls off cause r hst hold hpages => ?fillStops,
    fun ls off cause r hst hbank hpages => ?spillStops, fun ls r hst hbank hidle hpages => ?spills⟩
  case new => exact contextFillDone_new hon hp rfl hst hnew
  case restores =>
    exact ⟨contextFillDone_restores hon hp rfl hst hold hpages,
      fun h j hc huser hj => registers_restored ls r _ hc huser hj⟩
  case fillStops =>
    refine ⟨fillStop_happens hon hp rfl hst hold hpages, ?_⟩
    rw [applyAll_append]
    exact reads_saveStopped (by decide) p _ c 4 cause off _
  case spillStops =>
    refine ⟨spillStop_happens hon hp rfl hst hbank hpages, ?_⟩
    rw [applyAll_out_add, applyAll_out_add]
    exact reads_saveStopped (by decide) p _ c 3 cause off _
  case spills =>
    have hspill := contextSpillDone_happens hon hp rfl hst hbank hidle hpages
    have hreads := reads_loftEmptied ((spillPages_keepsParts hpages).trans (recordWritten_keepsParts s (stewardSpace s p)
      ((s.part p).ent (s.loft c).save.ent) (coreIx s p c) (partCores s p).length (s.loft c).save.off
      (recordOf s p c (s.loft c).save.ent ((r.s.loft c).bank.getD {})) ls r)) p (s.loft c).save.ent c ((r.s.loft c).bank.getD {})
    obtain ⟨hempty, hcur⟩ := hreads
    have hregs (h j q : Nat) (hc : h / 4 = c) := recordDbl_strand ((r.s.loft c).bank.getD {}) hc
      ((s.part p).ent (s.loft c).save.ent).tag.toNat (j := j) (q := q)
    rw [loftEmptied, recordWritten, pagesWritten] at hspill hempty hcur
    dsimp only
    split
    next hword =>
      rw [putPage_ok _ hword] at hspill hempty hcur
      exact ⟨hspill, hempty, hcur, hregs⟩
    next hword =>
      rw [putPage_error _ hword] at hspill hempty hcur
      exact ⟨hspill, hempty, hcur, hregs⟩

end Sys2Proof.Machine
end

section
/-! PROOFS. What a trap leaves of its strand, its hart and its partition, with a handler and without: O21 and O22 (02 R31; 20 R368 to
R370, R378, R380). -/

namespace Sys2Proof.Machine

/-! ### The parts of a trap record (Table 20.2) -/

/-- `tcause` at delivery has V set, the flags of the pair and of the strip, and the two numbers of the trap. -/
theorem trapCause_fields (t : TrapInfo) (pf sh : Bool) :
    let c := trapCause t pf sh false
    c.getLsbD 63 = true ∧ c.getLsbD 62 = pf ∧ c.getLsbD 61 = sh ∧ c.getLsbD 60 = false
    ∧ c.toNat % 2 ^ 8 = t.code % 256 ∧ c.toNat / 2 ^ 16 % 2 ^ 8 = t.sub % 256 := by
  have hsub : t.sub % 256 < 256 := Nat.mod_lt _ (by decide)
  have hcode : t.code % 256 < 256 := Nat.mod_lt _ (by decide)
  simp only [trapCause, BitVec.getLsbD_ofNat, BitVec.toNat_ofNat, Nat.testBit_eq_decide_div_mod_eq]
  generalize t.sub % 256 = sub at hsub ⊢
  generalize t.code % 256 = code at hcode ⊢
  cases pf <;> cases sh
  all_goals
    simp only [Bool.toNat_true, Bool.toNat_false, Bool.and_eq_true, Bool.and_eq_false_iff, decide_eq_true_eq, decide_eq_false_iff_not]
    omega

section
variable {s : State} {h w0 : Nat} {at_ : Word} (h0 : fetchWord s h at_.toNat = some w0)
include h0

theorem wordAt_of_fetchWord : wordAt s h at_ = w0 := by rw [wordAt, h0, Option.getD_some]

/-- At an instruction that is no MOD `tword` holds its first word. -/
theorem trapWord_of_no_mod (hmod : ∀ m, decode [w0] ≠ some (.mod m)) : trapWord s h at_ = BitVec.ofNat 64 w0 := by
  unfold trapWord
  rw [wordAt_of_fetchWord h0]
  dsimp only
  split
  next m hm => exact absurd hm (hmod m)
  next => rw [Nat.zero_mul, Nat.zero_add]

/-- At a MOD `tword` holds the word after it too. -/
theorem trapWord_of_mod {m : Pfx} {w1 : Nat} (hmod : decode [w0] = some (.mod m)) (h1 : fetchWord s h (at_ + 4).toNat = some w1) :
    trapWord s h at_ = BitVec.ofNat 64 (w1 * 2 ^ 32 + w0) := by
  simp only [trapWord, wordAt_of_fetchWord h0, hmod, wordAt_of_fetchWord h1]

end

theorem shiftRight_shiftLeft_two (a : Word) : a >>> 2 <<< 2 = a &&& ~~~3 := by
  rw [BitVec.shiftLeft_ushiftRight]
  rfl

/-! ### The ways that a trap goes -/

theorem applyAll_reported (t : TrapInfo) (s : State) : applyAll (reported t) s = { s with bad := t.leaves s.bad } := by
  unfold reported TrapInfo.leaves
  split <;> rfl

/-- No routine of the code object takes the trap on strand n (15 R322). -/
def NotEmulated (s : State) (n : Nat) (t : TrapInfo) : Prop :=
  t.code ≠ 1 ∨ (s.strand n).pfx.isSome = true ∨ privOf s (n / 2) ≠ 0 ∨ boundEmulation s n (s.strand n).pc = none

/-- The state in which a trap has been reported and its strand waits no more (R31; log entry 104). -/
def trapBegun (s : State) (n : Nat) (t : TrapInfo) : State := (endWait n).app { s with bad := t.leaves s.bad }

section
variable {s : State} {n : Nat} {t : TrapInfo} (hroutine : NotEmulated s n t)
include hroutine

theorem routine_of_notEmulated : (if t.code = 1 ∧ (s.strand n).pfx.isSome = false ∧ privOf s (n / 2) = 0
    then boundEmulation s n (trapAddr (s.strand n)) else none) = none := by
  split_ifs with hill
  · obtain ⟨hcode, hpfx, hpriv⟩ := hill
    have hpc : trapAddr (s.strand n) = (s.strand n).pc := if_neg (ne_true_of_eq_false hpfx)
    rw [hpc]
    simpa [NotEmulated, hcode, hpfx, hpriv] using hroutine
  · rfl

/-- A trap without a usable handler is fatal (R370). -/
theorem takeTrap_fatal (len : Nat)
    (hfatal : classH t.code = true ∨ (s.strand n).tvec >>> 2 = 0 ∨ (s.strand n).tcause.getLsbD 63 = true) :
    takeTrap s n t len
      = applyAll (fatalTrap s n t (trapAddr (s.strand n)) (s.strand n).pfx.isSome) (trapBegun s n t) := by
  have hfatal : (classH t.code || (s.strand n).tvec >>> 2 == 0 || (s.strand n).tcause.getLsbD 63) = true := by
    simpa [or_assoc] using hfatal
  simp only [takeTrap, trapUpds, routine_of_notEmulated hroutine, hfatal, if_true, applyAll_append, applyAll_reported]
  rfl

end

section
variable (s : State) (n : Nat) (t : TrapInfo)

@[simp] theorem strand_trapBegun (m : Nat) : (trapBegun s n t).strand m = s.strand m := rfl

theorem hart_trapBegun : (trapBegun s n t).hart (n / 2)
    = if n % 2 = 0 then { s.hart (n / 2) with waitA := false, dead := none } else { s.hart (n / 2) with waitX := false, dead := none } :=
  hart_app_hart _ _ _

theorem hart_trapBegun_ne {h : Nat} (hh : h ≠ n / 2) : (trapBegun s n t).hart h = s.hart h := hart_app_hart_ne _ _ hh

end

/-! ### A trap with a handler (R370) -/

/-- Strand n in its handler: the trap record, and the pc, over what it was. -/
def delivered (s : State) (n : Nat) (t : TrapInfo) (len : Nat) : Strand :=
  let st := s.strand n
  { st with
    tfpc := trapAddr st, tpc := if t.code = 7 ∨ t.code = 64 then st.pc + BitVec.ofNat 64 len else trapAddr st,
    tcause := trapCause t st.pfx.isSome (stripHeld s n) false, tval := t.val, telem := t.elem,
    tword := trapWord s (n / 2) (trapAddr st), tsb := (s.hart (n / 2)).sbase,
    pc := st.tvec >>> 2 <<< 2, pfx := none, sleep := none, stopped := false, fatal := none }

/-- Strand n has a handler that takes the trap: no routine comes before it, the cause is not of class H, and no trap is in hand. -/
structure Handled (s : State) (n : Nat) (t : TrapInfo) : Prop where
  routine : NotEmulated s n t
  cause : classH t.code = false
  vec : (s.strand n).tvec >>> 2 ≠ 0
  free : (s.strand n).tcause.getLsbD 63 = false

section
variable {s : State} {n : Nat} {t : TrapInfo} (h : Handled s n t) (len : Nat)
include h

/-- The delivery changes its strand, after the report and the end of the wait. -/
theorem takeTrap_delivers : takeTrap s n t len = (Upd.strand n fun _ => delivered s n t len).app (trapBegun s n t) := by
  have hfatal : (classH t.code || (s.strand n).tvec >>> 2 == 0 || (s.strand n).tcause.getLsbD 63) = false := by
    rw [h.cause, h.free, beq_false_of_ne h.vec]; rfl
  simp only [takeTrap, trapUpds, routine_of_notEmulated h.routine, hfatal, applyAll_append, applyAll_reported]
  rfl

theorem strand_takeTrap_delivers : (takeTrap s n t len).strand n = delivered s n t len := by
  rw [takeTrap_delivers h, strand_app_strand]

theorem others_takeTrap_delivers {m : Nat} (hm : m ≠ n) : (takeTrap s n t len).strand m = s.strand m := by
  rw [takeTrap_delivers h, strand_app_strand_ne _ _ hm, strand_trapBegun]

theorem hart_takeTrap_delivers (k : Nat) : (takeTrap s n t len).hart k = (trapBegun s n t).hart k := by
  rw [takeTrap_delivers h, hart_app_strand]

theorem frame_takeTrap_delivers : (takeTrap s n t len).mem = s.mem ∧ (takeTrap s n t len).cores = s.cores
    ∧ (takeTrap s n t len).parts = s.parts ∧ (takeTrap s n t len).dev = s.dev ∧ (takeTrap s n t len).bad = t.leaves s.bad := by
  rw [takeTrap_delivers h]
  exact ⟨rfl, rfl, rfl, rfl, rfl⟩

end

/-- Settles O21: the trap is the delivery to the handler after the report and the end of the wait, and the delivery changes one strand. -/
theorem trapEntry : Obligations.TrapEntry := by
  intro s n len t hirq hcode hvec hv hroutine st u v
  have h : Handled s n t := ⟨hroutine, hcode, hvec, hv⟩
  obtain ⟨hV, hpair, hstrip, hdropped, hnum, hsub⟩ := trapCause_fields t st.pfx.isSome (stripHeld s n)
  obtain ⟨hmem, hcores, hparts, hdev, hbad⟩ := frame_takeTrap_delivers h len
  have hstrand : v = delivered s n t len := strand_takeTrap_delivers h len
  rw [hstrand]
  refine ⟨rfl, ?next, hV, hpair, hstrip, hdropped, hnum, hsub, rfl, rfl, rfl,
    fun w0 h0 => ⟨fun hmod => trapWord_of_no_mod h0 hmod, fun m w1 hmod h1 => trapWord_of_mod h0 hmod h1⟩, shiftRight_shiftLeft_two _,
    rfl, rfl, rfl, rfl, rfl, rfl, rfl, rfl, rfl, rfl, hmem, hcores, hparts, hdev, hbad, ?hart, fun k hk => ?harts,
    fun m hm => others_takeTrap_delivers h len hm⟩
  case next =>
    simp only [delivered, hirq, or_false]
    rfl
  case hart => exact (hart_takeTrap_delivers h len _).trans (hart_trapBegun s n t)
  case harts => exact (hart_takeTrap_delivers h len k).trans (hart_trapBegun_ne s n t hk)

/-! ### A trap without a handler (R378, R380) -/

/-- The strand of a fatal trap stops at an address. -/
def stopFatal (s : State) (n : Nat) (t : TrapInfo) (at_ : Word) (pf : Bool) : Upd := .strand n fun st =>
  { st with pc := at_, pfx := none, sleep := none, stopped := true,
            fatal := some ⟨t, (s.strand n).tcause.getLsbD 63, at_, pf, s.gtc.toNat, (s.hart (n / 2)).sbase⟩ }

theorem strand_zeroSkid (p n : Nat) (w : State) : ∃ k, ((zeroSkid p).app w).strand n = { w.strand n with skid := k } :=
  tget_map_value (R := fun a b : Strand => ∃ k, b = { a with skid := k }) ⟨_, rfl⟩ (fun x => by dsimp only; split_ifs <;> rfl)
    (fun x => by dsimp only; split_ifs; exacts [⟨0, rfl⟩, ⟨x.2.skid, rfl⟩]) w.strands n

section
variable {s : State} {n : Nat} {t : TrapInfo} {at_ : Word} {pf : Bool}

theorem fatalTrap_reeve (hr : isReeve (n / 2) = true) :
    fatalTrap s n t at_ pf = [stopFatal s n t at_ pf, .dev fun d => { d with rint := d.rint ||| 0x20 }] := if_pos hr

theorem fatalTrap_line (hr : isReeve (n / 2) = false) : fatalTrap s n t at_ pf
    = (if (s.part (partIx s (n / 2))).halt.st = 0 then [zeroSkid (partIx s (n / 2))] else [])
      ++ [stopFatal s n t at_ pf, haltLine s (partIx s (n / 2)) n t s.gtc.toNat] := if_neg (ne_true_of_eq_false hr)

theorem strand_app_dev (f : Dev → Dev) (w : State) (m : Nat) : ((Upd.dev f).app w).strand m = w.strand m := rfl
theorem strand_app_part (p : Nat) (f : Part → Part) (w : State) (m : Nat) : ((Upd.part p f).app w).strand m = w.strand m := rfl

/-- The strand of a fatal trap stops where the trap is reported, with its trap record as it was. -/
theorem strand_fatalTrap (w : State) : ∃ k f, (applyAll (fatalTrap s n t at_ pf) w).strand n
    = { w.strand n with skid := k, pc := at_, pfx := none, sleep := none, stopped := true, fatal := f } := by
  cases hr : isReeve (n / 2) with
  | true =>
    rw [fatalTrap_reeve hr, applyAll_cons, applyAll_cons, applyAll_nil, strand_app_dev, stopFatal, strand_app_strand]
    exact ⟨_, _, rfl⟩
  | false =>
    rw [fatalTrap_line hr, applyAll_append, applyAll_cons, applyAll_cons, applyAll_nil, haltLine, strand_app_part, stopFatal,
      strand_app_strand]
    split_ifs
    · obtain ⟨k, hk⟩ := strand_zeroSkid (partIx s (n / 2)) n w
      rw [applyAll_cons, applyAll_nil, hk]
      exact ⟨_, _, rfl⟩
    · exact ⟨_, _, rfl⟩

theorem mem_fatalTrap (w : State) : (applyAll (fatalTrap s n t at_ pf) w).mem = w.mem := by
  cases hr : isReeve (n / 2) with
  | true => rw [fatalTrap_reeve hr]; rfl
  | false =>
    rw [fatalTrap_line hr]
    split_ifs <;> rfl

/-- The first fatal trap raises the partition's halt line. -/
theorem halt_fatalTrap {w : State} (hr : isReeve (n / 2) = false) (hw : w.parts = s.parts)
    (hst : (s.part (partIx s (n / 2))).halt.st = 0) :
    let x := ((applyAll (fatalTrap s n t at_ pf) w).part (partIx s (n / 2))).halt
    x.st = 1 ∧ x.cause = t.code ∧ x.src = n := by
  have hbefore : ((stopFatal s n t at_ pf).app ((zeroSkid (partIx s (n / 2))).app w)).part (partIx s (n / 2))
      = s.part (partIx s (n / 2)) := by rw [State.part, State.part, ← hw]; rfl
  rw [fatalTrap_line hr, if_pos hst, List.singleton_append, applyAll_cons, applyAll_cons, applyAll_cons, applyAll_nil, haltLine,
    part_app_part, hbefore, if_pos hst]
  exact ⟨rfl, rfl, rfl⟩

end

/-- Settles O22: a fatal trap is a stop of its strand and an update of its partition or of `rint`, after the report and the end of the
wait, which reach neither. -/
theorem fatalTraps : Obligations.FatalTraps := by
  intro s n len t hroutine hfatal st u v p
  have hu : u = applyAll (fatalTrap s n t (trapAddr st) st.pfx.isSome) (trapBegun s n t) := takeTrap_fatal hroutine len hfatal
  obtain ⟨k, f, hk⟩ := strand_fatalTrap (s := s) (n := n) (t := t) (at_ := trapAddr st) (pf := st.pfx.isSome) (trapBegun s n t)
  have hstrand : v = _ := (congrArg (State.strand · n) hu).trans hk
  rw [hstrand]
  exact ⟨rfl, rfl, rfl, rfl, rfl, rfl, hu ▸ mem_fatalTrap _, fun hr hst => hu ▸ halt_fatalTrap hr rfl hst,
    fun hr => by rw [hu, fatalTrap_reeve hr]; exact ⟨rfl, rfl⟩⟩

end Sys2Proof.Machine
end

section
/-! PROOFS. The stops of the halt line, its resume and end, and interrupts: O33 (20 R373, R378, R381 to R383). -/

namespace Sys2Proof.Machine

theorem exec_sourceStop (p src : Nat) (s : State) : exec (.sourceStop p src) s = execSourceStop p src s := rfl

/-! ### The stop of a source (R378, R381) -/

/-- Whether the stop of a source is the last. -/
def lastStop (x : Halt) (src : Nat) : Bool := x.srcs.all (src :: x.stopped).contains

/-- What the stop of a source makes of its partition's record, from the halt as it was; `wrote` tells that the stop record is written. -/
def sourceStopped (x : Halt) (src : Nat) (wrote : Bool) (q : Part) : Part :=
  { q with halt := { q.halt with cnt := q.halt.cnt + wrote.toNat, stopped := src :: x.stopped,
                                 st := if lastStop x src then 2 else 1, irq := q.halt.irq || lastStop x src } }

theorem lastStop_eq_true {x : Halt} {src : Nat} (h : ∀ y ∈ x.srcs, y = src ∨ y ∈ x.stopped) : lastStop x src = true := by
  simpa [lastStop] using h

theorem lastStop_eq_false {x : Halt} {src : Nat} (h : ∃ y ∈ x.srcs, y ≠ src ∧ y ∉ x.stopped) : lastStop x src = false := by
  simpa [lastStop] using h

/-- The run that stops strand `src`, which performs its held stores first; another source has no strand to stop. -/
def strandStopped (src : Nat) (r : Run) : Run :=
  if src < 5120 then ((flushHeld r src).add (.strand src fun st => { st with stopped := true })).add (noWait src) else r

theorem strand_strandStopped {src : Nat} (hsrc : src < 5120) (r : Run) (s : State) :
    ((applyAll (strandStopped src r).out s).strand src).stopped = true := by
  rw [strandStopped, if_pos hsrc, applyAll_out_add, applyAll_out_add, noWait, strand_app_hart, strand_app_strand]

/-- The end of the commands that a stop of source `src` of partition p ends. -/
def cmdsStopped (p src : Nat) : Upd :=
  .cmds fun l => l.map fun c => if cmdStops p src c then { c with fin := some (haltToken c.bytes) } else c

section
variable {s : State} {p src : Nat}

/-- A source that must stop and has not stops after whatever writes its record. -/
theorem sourceStop_happens (hon : s.dev.off = false) (hst : (s.part p).halt.st = 1) (hmem : src ∈ (s.part p).halt.srcs)
    (hgoes : src ∉ (s.part p).halt.stopped) : ∃ (r : Run) (wrote : Bool), Happens (.sourceStop p src) s
      (((strandStopped src r).add (cmdsStopped p src)).add (.part p (sourceStopped (s.part p).halt src wrote))).out := by
  have henabled : ¬((s.part p).halt.st ≠ 1 ∨ (!(s.part p).halt.srcs.contains src) = true
      ∨ (s.part p).halt.stopped.contains src = true) := by
    simp [hst, hmem, hgoes]
  exact ⟨_, _, happens_of_event (exec_sourceStop p src s) hon (if_neg henabled)⟩

theorem strand_app_cmdsStopped (t : State) (n : Nat) : ((cmdsStopped p src).app t).strand n = t.strand n := rfl

end

/-! ### Resume and end (R382, R383) -/

/-- An update that leaves memory and every partition record as they are. -/
structure Upd.KeepsMemParts (u : Upd) : Prop where
  mem : ∀ s : State, (u.app s).mem = s.mem
  parts : u.KeepsParts

theorem keepsMemParts_applyAll {us : List Upd} (hus : ∀ u ∈ us, u.KeepsMemParts) (s : State) :
    (applyAll us s).mem = s.mem ∧ (applyAll us s).parts = s.parts := by
  refine ⟨?_, parts_applyAll_of_keepsParts (fun u hu => (hus u hu).parts) s⟩
  induction us generalizing s with
  | nil => rfl
  | cons u us ih =>
    obtain ⟨hu, hus⟩ := List.forall_mem_cons.mp hus
    exact (ih hus (u.app s)).trans (hu.mem s)

theorem keepsMemParts_strand (n : Nat) (f : Strand → Strand) : (Upd.strand n f).KeepsMemParts := ⟨fun _ => rfl, fun _ => rfl⟩
theorem keepsMemParts_hart (n : Nat) (f : Hart → Hart) : (Upd.hart n f).KeepsMemParts := ⟨fun _ => rfl, fun _ => rfl⟩
theorem keepsMemParts_gang (g : Nat) (f : Gang → Gang) : (Upd.gang g f).KeepsMemParts := ⟨fun _ => rfl, fun _ => rfl⟩
theorem keepsMemParts_gangFinish (g : Nat) : (gangFinish g).KeepsMemParts := ⟨fun _ => rfl, fun _ => rfl⟩

theorem keepsMemParts_endOne (n : Nat) (status : Word) : ∀ u ∈ endOne n status, u.KeepsMemParts :=
  List.forall_mem_cons.mpr ⟨keepsMemParts_strand _ _, List.forall_mem_singleton.mpr (keepsMemParts_hart _ _)⟩

/-- The end of a strand, and what R38 adds to it, reach strands, harts and gangs. -/
theorem keepsMemParts_endStrand (s : State) (n : Nat) (status : Word) : ∀ u ∈ endStrand s n status, u.KeepsMemParts := by
  have hbase := keepsMemParts_endOne n status
  unfold endStrand
  dsimp only
  split
  next => exact hbase
  next gid _ =>
    split
    next => exact hbase
    next g _ =>
      refine List.forall_mem_append.mpr ⟨List.forall_mem_append.mpr ⟨hbase, ?_⟩,
        List.forall_mem_singleton.mpr (keepsMemParts_gangFinish gid)⟩
      split_ifs
      · exact List.forall_mem_nil _
      · exact List.forall_mem_nil _
      · exact keepsMemParts_endOne _ _
      · refine List.forall_mem_append.mpr ⟨fun u hu => ?_, List.forall_mem_singleton.mpr (keepsMemParts_gang _ _)⟩
        obtain ⟨m, -, hu⟩ := List.mem_flatMap.mp hu
        exact keepsMemParts_endOne _ _ u hu
      · exact List.forall_mem_nil _

theorem keepsMemParts_resumeSource (s : State) (n : Nat) (f : Fatal) : ∀ u ∈ resumeSource s n f, u.KeepsMemParts := by
  have hdrop : ∀ u ∈ (if n % 2 = 1 then [dropStrip (n / 2)] else []), u.KeepsMemParts := by
    split_ifs
    · exact List.forall_mem_singleton.mpr (keepsMemParts_hart _ _)
    · exact List.forall_mem_nil _
  unfold resumeSource
  dsimp only
  split
  · exact List.forall_mem_append.mpr ⟨hdrop, keepsMemParts_endStrand s n _⟩
  · refine List.forall_mem_append.mpr ⟨?_, List.forall_mem_cons.mpr
      ⟨keepsMemParts_strand _ _, List.forall_mem_singleton.mpr (keepsMemParts_strand _ _)⟩⟩
    split
    · exact hdrop
    · exact List.forall_mem_nil _

/-- What a resume makes of the partition's record: the line is down and its stops are forgotten (R382). -/
def lineDown (q : Part) : Part :=
  { q with halt := { q.halt with st := 0, irq := false, srcs := [], stopped := [], engs := [], ops := [] } }

/-- A resume lets the partition's strands go, and then moves strands, harts and gangs only. -/
theorem haltResume_eq (s : State) (p : Nat) :
    ∃ us : List Upd, (∀ u ∈ us, u.KeepsMemParts) ∧ haltResume s p = [unstop p, .part p lineDown] ++ us := by
  unfold haltResume
  dsimp only
  split
  next f _ => exact ⟨_, keepsMemParts_resumeSource _ _ f, rfl⟩
  next => exact ⟨[], List.forall_mem_nil _, (List.append_nil _).symm⟩

theorem applyAll_haltResume (s : State) (p : Nat) :
    ((applyAll (haltResume s p) s).part p).halt.st = 0 ∧ (applyAll (haltResume s p) s).mem = s.mem := by
  obtain ⟨us, hus, heq⟩ := haltResume_eq s p
  obtain ⟨hmem, hparts⟩ := keepsMemParts_applyAll hus (applyAll [unstop p, .part p lineDown] s)
  rw [heq, applyAll_append]
  refine ⟨?_, hmem.trans rfl⟩
  rw [State.part, hparts, ← State.part, applyAll_cons, applyAll_cons, applyAll_nil, part_app_part]
  rfl

/-! ### The obligation -/

/-- Settles O33: each event's condition holds, the last update of a stop decides the halt's state, and a resume lowers the line before
it moves the source. -/
theorem haltAndInterrupts : Obligations.HaltAndInterrupts := by
  intro s p hon
  refine ⟨fun src hst hmem hgoes => ?stops, fun hst => ⟨?resumes, ?ends, applyAll_haltResume s p⟩,
    fun n heven hservice hirq hvec hv hsleep hgo hlive => ?interrupts⟩
  case stops =>
    obtain ⟨r, wrote, hstop⟩ := sourceStop_happens hon hst hmem hgoes
    refine ⟨_, hstop, ?_⟩
    rw [applyAll_out_add, applyAll_out_add, part_app_part, strand_app_part, strand_app_cmdsStopped]
    refine ⟨rfl, fun hsrc => strand_strandStopped hsrc r s, fun hall => ?_, fun hsome => ?_⟩
    · simp [sourceStopped, lastStop_eq_true hall]
    · simp [sourceStopped, lastStop_eq_false hsome]
  case resumes => exact happens_of_event rfl hon (if_pos hst)
  case ends => exact happens_of_event rfl hon (if_pos hst)
  case interrupts =>
    refine happens_of_event (i := .interrupt n) rfl hon (if_pos ?_)
    rw [hvec, hv, hsleep, hgo, hlive]
    exact ⟨heven, hservice, hirq, rfl, rfl, rfl, rfl, rfl⟩

end Sys2Proof.Machine
end

section
/-! PROOFS. The maintenance instructions and their privilege: O29 (20 R376, R377; 22 R409 to R411; 03 R71). -/

namespace Sys2Proof.Machine

/-! ### Refusals below the privilege (R71) -/

theorem traps_privilege {s : State} {i : Instr} {len priv : Nat} {srcs : List Src} {dsts : List Dst} {plain : List Nat}
    {k : (Nat → Word) → Act} (hx : exec i s = finish s len (issue s .both priv srcs dsts plain k))
    (hdir : dirOk s.cur srcs dsts = true) (hlow : privOf s s.h < priv) : Traps i s len { code := 5 } := by
  rw [Traps, hx, issue_low rfl hdir hlow]
  rfl

section
variable {s : State} (hp : privOf s s.h = 0)
include hp

theorem rlset_privilege {i : Instr} {o : RLo} {op : Nat} {k : Nat → Nat → Nat → Act}
    (hx : exec i s = finish s o.form.len (rlsetAct s o op k)) (hdir : dirOk s.cur [o.b] [.x o.d] = true) :
    Traps i s o.form.len { code := 5 } := traps_privilege hx hdir (Nat.lt_one_iff.mpr hp)

theorem launch_privilege (o : DA) (ind : Bool) : Traps (launchInstr o ind) s 4 { code := 5 } :=
  traps_privilege (exec_launchInstr o ind s) rfl (Nat.lt_one_iff.mpr hp)

end

/-! ### TLBINV, CINV and CWB (R376, R377) -/

theorem exec_tlbinv (o : RAB) (s : State) : exec (.tlbinv o) s = execTlbinv o s := rfl
theorem exec_cinv (o : RAB) (s : State) : exec (.cinv o) s = finish s o.form.len (cacheAct s o 1 true) := rfl
theorem exec_cwb (o : RAB) (s : State) : exec (.cwb o) s = finish s o.form.len (cacheAct s o 0 false) := rfl

section
variable {s : State} {o : RAB}

theorem tlbinv_removes (h : canIssue s .both 1 [o.a, o.b] [] []) {b : Nat} (hb : (srcOf s [o.a, o.b] 1).toNat = b)
    (hkind : b % 4 ≠ 3) (hzero : b / 4 % 64 = 0) (hlt : b < 2 ^ 14) :
    Completes (.tlbinv o) s o.form.len (popAll s.h [o.a, o.b] ++ ((performAll (Run.start s) (partCores s (partIx s s.h))).out
      ++ [forgetPast, dropTlb (tlbHit (partIx s s.h) (b / 256) (b % 4) (srcOf s [o.a, o.b] 0).toNat)])) := by
  subst hb
  exact completes_of_issue (exec_tlbinv o s) h (if_neg (by omega))

/-- The lines of a range are written back, and dropped or not, or the walk to them fails. -/
theorem cacheOp_ends {i : Instr} {priv : Nat} {drop : Bool} (hx : exec i s = finish s o.form.len (cacheAct s o priv drop))
    (h : canIssue s .both priv [o.a, o.b] [] []) {b : Nat} (hb : (srcOf s [o.a, o.b] 1).toNat = b) (hlt : b < 2 ^ 41) :
    (∀ r, cacheOp s (srcOf s [o.a, o.b] 0).toNat (b % 2 ^ 40) drop (Run.start s) = .ok ((), r) →
      Completes i s o.form.len (popAll s.h [o.a, o.b] ++ r.out))
    ∧ ∀ t r, cacheOp s (srcOf s [o.a, o.b] 0).toNat (b % 2 ^ 40) drop (Run.start s) = .error (t, r) →
      TrapsAfter i s o.form.len r.kept t := by
  subst hb
  have hlen : ¬ 2 ^ 41 ≤ (srcOf s [o.a, o.b] 1).toNat := Nat.not_le.mpr hlt
  exact ⟨fun r hr => completes_of_issue hx h ((if_neg hlen).trans (ofM_ok hr _)),
    fun t r hr => trapsAfter_of_issue hx h ((if_neg hlen).trans (ofM_error hr _))⟩

end

/-! ### KEYZ and SCRUB (22 R409 to R411) -/

theorem exec_keyz (o : DA) (s : State) : exec (.keyz o) s = execKeyz o s := rfl
theorem exec_scrub (o : DA) (s : State) : exec (.scrub o) s = execScrub o s := rfl

/-- A register is read without a pop. -/
theorem completes_of_issue_reg {s : State} {i : Instr} {len priv a : Nat} {cls : SClass} {dsts : List Dst} {plain : List Nat}
    {k : (Nat → Word) → Act} {us : List Upd} (hx : exec i s = finish s len (issue s cls priv [.x a] dsts plain k))
    (h : canIssue s cls priv [.x a] dsts plain) (hk : k (srcOf s [.x a]) = .done us) : Completes i s len us :=
  completes_of_issue hx h hk

section
variable {s : State} {o : DA} (h : canIssue s .both 2 [.x o.a] [.x o.d] [])
include h

theorem keyz_by_state {k : Nat} (hk : (getX s.me o.a).toNat = k) (hlt : k < 64) :
    ((s.dev.key k).st = 0 → Completes (.keyz o) s 4 (setD s.cur (.x o.d) 1))
    ∧ ((s.dev.key k).st = 2 → Completes (.keyz o) s 4 (setD s.cur (.x o.d) 2))
    ∧ ((s.dev.key k).st = 1 → Completes (.keyz o) s 4
      ((performAll (Run.start s) (holdingCores s)).out ++ zeroiseKey k ++ setD s.cur (.x o.d) 0)) := by
  have hk : (srcOf s [.x o.a] 0).toNat = k := hk
  have hslot : ¬ 63 < k := Nat.not_lt.mpr (Nat.le_of_lt_succ hlt)
  refine ⟨fun hst => ?_, fun hst => ?_, fun hst => ?_⟩
  all_goals
    refine completes_of_issue_reg (exec_keyz o s) h ?_
    dsimp only
    rw [hk, if_neg hslot, hst]
    rfl

section
variable {q : ScrubOrder} {us : List Upd} (hroom : s.dev.orders.length < 8)
  (hread : readM s (stateValue 0) (readOrder s (getX s.me o.a).toNat) = .ok (q, us))
include hroom hread

theorem scrub_accepts (hfree : orderFree s q = true) {id : Nat} (hid : id = s.dev.lastOrder % 65535 + 1) :
    Completes (.scrub o) s 4 (us ++ (performAll (Run.start (applyAll us s)) (holdingCores s)).out ++ acceptOrder { q with id := id }
      ++ setD s.cur (.x o.d) (BitVec.ofNat 64 id)) := by
  subst hid
  refine completes_of_issue_reg (exec_scrub o s) h ((if_neg (Nat.not_le.mpr hroom)).trans ?_)
  dsimp only
  rw [show readM s (stateValue 0) (readOrder s (srcOf s [.x o.a] 0).toNat) = _ from hread]
  exact if_neg (by rw [hfree]; decide)

theorem scrub_refuses (hfree : orderFree s q = false) : TrapsAfter (.scrub o) s 4 us partState := by
  refine trapsAfter_of_issue (exec_scrub o s) h ((if_neg (Nat.not_le.mpr hroom)).trans ?_)
  dsimp only
  rw [show readM s (stateValue 0) (readOrder s (srcOf s [.x o.a] 0).toNat) = _ from hread]
  exact if_pos (by rw [hfree]; rfl)

end

end

/-! ### The obligation -/

/-- Settles O29: privilege and operands select each instruction's own part, and the walk, the slot's state or the order selects its end. -/
theorem maintenanceInstructions : Obligations.MaintenanceInstructions := by
  refine ⟨fun s o h hkind hzero hlt => tlbinv_removes h rfl hkind hzero hlt, fun s o hlt => ⟨fun h => ?cinv, fun h => ?cwb⟩,
    fun s o h hlt => keyz_by_state h rfl hlt, fun s o q us h hroom hread => ⟨fun hfree => ?accepts, fun hfree => ?refuses⟩,
    fun s o hdir hp => ⟨?tlbinvLow, ?cinvLow⟩, fun s o => ⟨fun hp => ⟨?keyzLow, ?scrubLow⟩, fun hp => ⟨?launchLow, ?launchiLow⟩⟩,
    fun s o i hi hdir hp => ?rlsetLow⟩
  case cinv => exact cacheOp_ends (exec_cinv o s) h rfl hlt
  case cwb => exact cacheOp_ends (exec_cwb o s) h rfl hlt
  case accepts => exact scrub_accepts h hroom hread hfree rfl
  case refuses => exact scrub_refuses h hroom hread hfree
  case tlbinvLow => exact traps_privilege (exec_tlbinv o s) hdir (Nat.lt_one_iff.mpr hp)
  case cinvLow => exact traps_privilege (exec_cinv o s) hdir (Nat.lt_one_iff.mpr hp)
  case keyzLow => exact traps_privilege (exec_keyz o s) rfl hp
  case scrubLow => exact traps_privilege (exec_scrub o s) rfl hp
  case launchLow => exact launch_privilege hp o false
  case launchiLow => exact launch_privilege hp o true
  case rlsetLow =>
    simp only [List.mem_cons, List.not_mem_nil, or_false] at hi
    rcases hi with rfl | rfl | rfl | rfl | rfl
    all_goals exact rlset_privilege hp rfl hdir

end Sys2Proof.Machine
end

section
/-! PROOFS. The firmware's register writes and the events of islands, power, soft errors, firmware banks and the Winnower: O36 (19 R345;
21 R392; 22 R408, R412, R415; 24 R420 to R428). -/

namespace Sys2Proof.Machine

/-! ### Register writes of a service strand -/

section
variable {s : State} {n : Nat} (hsvc : isService s (n / 2) = true) (hawake : awake s n = true)
include hsvc hawake

theorem writeEvent_accepts (us kept : List Upd) : writeEvent s n (.ok us) kept = .next (applyAll us s) := by
  rw [writeEvent, hsvc, hawake]
  rfl

theorem writeEvent_refuses (t : TrapInfo) (kept : List Upd) :
    writeEvent s n (.error t) kept = .next (takeTrap (applyAll kept s) n t 4) := by
  rw [writeEvent, hsvc, hawake]
  rfl

variable (hpriv : privOf s (n / 2) = 2)
include hpriv

theorem firmwareEvent_accepts {w : Except TrapInfo (List Upd)} {us : List Upd} (hw : w = .ok us) (reg : Nat) (kept : List Upd) :
    firmwareEvent s n reg w kept = .next (applyAll us s) := by
  rw [firmwareEvent, if_neg (Nat.not_lt.mpr hpriv.ge), hw, writeEvent_accepts hsvc hawake]

theorem firmwareEvent_refuses {w : Except TrapInfo (List Upd)} {t : TrapInfo} (hw : w = .error t) (reg : Nat) (kept : List Upd) :
    firmwareEvent s n reg w kept = .next (takeTrap (applyAll kept s) n t 4) := by
  rw [firmwareEvent, if_neg (Nat.not_lt.mpr hpriv.ge), hw, writeEvent_refuses hsvc hawake]

theorem readOnlyEvent_accepts {w : Except TrapInfo (List Upd)} {us : List Upd} (hw : w = .ok us) :
    readOnlyEvent s n w = .next (applyAll us s) := by
  rw [readOnlyEvent, if_neg (Nat.not_lt.mpr hpriv.ge), hw, writeEvent_accepts hsvc hawake]

theorem readOnlyEvent_refuses {w : Except TrapInfo (List Upd)} {t : TrapInfo} (hw : w = .error t) :
    readOnlyEvent s n w = .next (takeTrap s n t 4) := by
  rw [readOnlyEvent, if_neg (Nat.not_lt.mpr hpriv.ge), hw, writeEvent_refuses hsvc hawake]
  rfl

end

/-- The registers that only the firmware writes: below its privilege each write of one raises the privilege trap (04 R102). -/
theorem firmwareRegister_low {s : State} {n : Nat} {v : Word} (hsvc : isService s (n / 2) = true) (hawake : awake s n = true)
    (hlow : privOf s (n / 2) < 2) {i : Instr} {reg : Nat} (hi : (i, reg) ∈ [(Instr.kload n v, 0x440), (.islandControl n v, 0x501),
      (.fwStage n v, 0x511), (.fwCommit n, 0x511), (.fwSelectBank n, 0x511)]) :
    exec i s = .next (takeTrap s n (privTrap reg) 4) := by
  simp only [List.mem_cons, Prod.mk.injEq, List.not_mem_nil, or_false] at hi
  rcases hi with ⟨rfl, rfl⟩ | ⟨rfl, rfl⟩ | ⟨rfl, rfl⟩ | ⟨rfl, rfl⟩ | ⟨rfl, rfl⟩
  all_goals exact firmwareEvent_low hsvc hawake hlow

/-! ### Islands and power (24 R420, R422, R423) -/

section
variable {s : State} (hon : s.dev.off = false)
include hon

theorem islandPowerChangeDone_happens {i : Nat} (hst : (s.dev.island i).st = 2) : Happens (.islandPowerChangeDone i) s
    (islandClear i ++ [updIsland s.ns i fun x => { x with st := if x.on then 1 else 0 }]) :=
  happens_of_event (i := .islandPowerChangeDone i) rfl hon (if_neg (not_not_intro hst))

theorem thermalShutdown_happens (hhot : hotter s.dev 959 = true) : Happens .thermalShutdown s [powerOff] :=
  happens_of_event (i := .thermalShutdown) rfl hon (if_pos hhot)

theorem powerLoss_happens : Happens .powerLoss s [powerOff] := happens_of_event (i := .powerLoss) rfl hon rfl

/-- A soft error that strikes nothing is counted in its class (R424). -/
theorem softError_happens {k : Nat} (hk : k < 8) (u : Bool) : Happens (.softError k u .none) s [countUpd k u] := by
  refine happens_of_event (i := .softError k u .none) rfl hon ((if_neg (Nat.not_le.mpr hk)).trans ?_)
  cases u <;> rfl

end

/-! ### Throttling (R422) -/

/-- A change of the module's own state that takes a free value. -/
theorem applyAll_dev_tick (f : Dev → Dev) (s : State) : applyAll [.dev f, .tick] s = { s with dev := f s.dev, free := s.free + 1 } := rfl

/-- What one island's step does to the islands that differ from those at reset. -/
def throttleTab (ns : Nat) (due : Bool) (d : Dev) (t : Tab Island) (i : Nat) : Tab Island :=
  if throttleIsland due (d.island i) = d.island i then t else tput t i ((d.island i).change ns (throttleIsland due))

theorem throttleAll_eq (ns : Nat) (due : Bool) (d : Dev) :
    throttleAll ns due d = { d with isl := (List.range 800).foldl (throttleTab ns due d) d.isl } := rfl

section
variable {ns : Nat} {due : Bool} {d : Dev} {x : Island} {i : Nat}

/-- The step of an island whose entry stands as it was. -/
theorem low_throttleTab_same {t : Tab Island} (h : tget x t i = d.island i) :
    (tget x (throttleTab ns due d t i) i).low = (throttleIsland due (d.island i)).low := by
  unfold throttleTab
  split_ifs with hstays
  · rw [h, hstays]
  · rw [tget_tput_same]
    rfl

theorem tget_throttleTab_ne {j : Nat} (hne : i ≠ j) (t : Tab Island) : tget x (throttleTab ns due d t j) i = tget x t i := by
  unfold throttleTab
  split_ifs
  · rfl
  · exact tget_tput_ne x t _ hne

/-- The steps of other islands. -/
theorem tget_foldl_throttleTab_of_notMem {l : List Nat} (hi : i ∉ l) (t : Tab Island) :
    tget x (l.foldl (throttleTab ns due d) t) i = tget x t i := by
  induction l generalizing t with
  | nil => rfl
  | cons j l ih =>
    obtain ⟨hj, hl⟩ := not_or.mp (mt List.mem_cons.mpr hi)
    rw [List.foldl_cons, ih hl, tget_throttleTab_ne hj]

/-- The steps of distinct islands, one of which is island i. -/
theorem low_foldl_throttleTab {l : List Nat} (hl : l.Nodup) (hi : i ∈ l) {t : Tab Island} (h : tget x t i = d.island i) :
    (tget x (l.foldl (throttleTab ns due d) t) i).low = (throttleIsland due (d.island i)).low := by
  induction l generalizing t with
  | nil => cases hi
  | cons j l ih =>
    obtain ⟨hj, hl⟩ := List.nodup_cons.mp hl
    rw [List.foldl_cons]
    by_cases hij : i = j
    · subst hij
      rw [tget_foldl_throttleTab_of_notMem hj, low_throttleTab_same h]
    · exact ih hl ((List.mem_cons.mp hi).resolve_left hij) ((tget_throttleTab_ne hij t).trans h)

/-- An island's low after the step of every core and TMU island. -/
theorem low_island_throttleAll (hi : i < 800) : ((throttleAll ns due d).island i).low = (throttleIsland due (d.island i)).low := by
  have hsteps := low_foldl_throttleTab (ns := ns) (due := due) (d := d) (x := { mhz := recordMhz d.record i })
    List.nodup_range (List.mem_range.mpr hi) (t := d.isl) (by rw [Dev.island])
  rw [← hsteps, throttleAll_eq, Dev.island]

end

/-- An island is what the record of the last reset and the writes since have made it. -/
theorem island_congr {d e : Dev} (hrecord : e.record = d.record) (hisl : e.isl = d.isl) (i : Nat) : e.island i = d.island i := by
  rw [Dev.island, Dev.island, hrecord, hisl]

/-- The module after a throttle step of the state s. -/
def throttled (s : State) (d : Dev) : Dev :=
  let e := throttleAll s.ns (throttleDue s.dev) (sample s.free d)
  let e := { e with throttled := throttleDue s.dev || e.isl.any fun i => i.2.low != 0 }
  { e with rint := e.rint ||| riseBits d e }

theorem throttleStep_happens {s : State} (hon : s.dev.off = false) : Happens .throttleStep s [.dev (throttled s), .tick] :=
  happens_of_event (i := .throttleStep) (e := some [.dev (throttled s), .tick]) rfl hon rfl

theorem exec_throttleStep {s : State} (hon : s.dev.off = false) :
    exec .throttleStep s = .next { s with dev := throttled s s.dev, free := s.free + 1 } := by
  rw [throttleStep_happens hon, applyAll_dev_tick]

section
variable (s : State) (d : Dev)

theorem throttled_of_due (hdue : throttleDue s.dev = true) : (throttled s d).throttled = true := by
  unfold throttled
  rw [hdue]
  rfl

theorem low_island_throttled {i : Nat} (hi : i < 800) :
    ((throttled s d).island i).low = (throttleIsland (throttleDue s.dev) (d.island i)).low := by
  have hstep : (throttled s d).island i = (throttleAll s.ns (throttleDue s.dev) (sample s.free d)).island i :=
    island_congr (by rw [throttled]) (by rw [throttled]) i
  have hread : (sample s.free d).island i = d.island i := island_congr (by rw [sample]) (by rw [sample]) i
  rw [hstep, low_island_throttleAll hi, hread]

end

/-! ### Staged images and revocations (R428; 22 R415) -/

/-- The root of trust accepts the staged image. -/
def stageAccepted (s : State) (len modulus sig ver : Nat) : Bool :=
  (match (stagedBytes s len).map sha256 with | some g => rsaOk modulus sig g | none => false)
    && keyTrusted s.dev (keyHash modulus) && decide (s.dev.minVer ≤ ver)

/-- The inactive bank once it holds the staged image. -/
def stagedBank (s : State) (len modulus sig ver : Nat) : Bank2 :=
  { image := ofBe (((stagedBytes s len).map sha256).getD []) + 2, sign := some (modulus, sig), ver := ver, ok := true, com := false }

/-- The module once the root of trust has checked the staged image. -/
def stageDone (s : State) (len modulus sig ver : Nat) : Dev :=
  if stageAccepted s len modulus sig ver then
    { s.dev.setBank (1 - s.dev.active) (fun _ => stagedBank s len modulus sig ver) with stage := 2, nextBank := 1 - s.dev.active }
  else { s.dev with stage := 3 }

theorem exec_fwStageDone {s : State} (hon : s.dev.off = false) {ver : Nat} (hstage : s.dev.stage = 1) (hver : ver < 2 ^ 16)
    (len modulus sig : Nat) : exec (.fwStageDone len modulus sig ver) s = .next { s with
      dev := barnWrite s.free { stageDone s len modulus sig ver with rint := (stageDone s len modulus sig ver).rint ||| 0x10 },
      free := s.free + 1 } := by
  have hready : ¬(s.dev.stage ≠ 1 ∨ 2 ^ 16 ≤ ver) := by omega
  refine (happens_of_event (i := .fwStageDone len modulus sig ver) rfl hon (if_neg hready)).trans ?_
  rfl

section
variable {s : State} {len modulus sig ver : Nat}

theorem stageAccepted_iff : stageAccepted s len modulus sig ver = true ↔
    (∃ bs, stagedBytes s len = some bs ∧ rsaOk modulus sig (sha256 bs) = true) ∧ keyTrusted s.dev (keyHash modulus) = true
      ∧ s.dev.minVer ≤ ver := by
  unfold stageAccepted
  cases stagedBytes s len with
  | none => simp
  | some bs => simp [and_assoc]

theorem active_stageDone : (stageDone s len modulus sig ver).active = s.dev.active := by
  unfold stageDone
  split_ifs <;> rfl

theorem stageDone_accepted (h : stageAccepted s len modulus sig ver = true) :
    (stageDone s len modulus sig ver).stage = 2 ∧ (stageDone s len modulus sig ver).nextBank = 1 - s.dev.active := by
  rw [stageDone, if_pos h]
  exact ⟨rfl, rfl⟩

theorem stageDone_refused (h : stageAccepted s len modulus sig ver = false) :
    (stageDone s len modulus sig ver).stage = 3 ∧ (stageDone s len modulus sig ver).banks = s.dev.banks := by
  rw [stageDone, if_neg (ne_true_of_eq_false h)]
  exact ⟨rfl, rfl⟩

theorem stageAccepted_false (h : (∀ bs, stagedBytes s len = some bs → rsaOk modulus sig (sha256 bs) = false)
    ∨ keyTrusted s.dev (keyHash modulus) = false ∨ ver < s.dev.minVer) : stageAccepted s len modulus sig ver = false := by
  rw [Bool.eq_false_iff]
  intro haccepted
  obtain ⟨⟨bs, hbs, hsig⟩, hkey, hver⟩ := stageAccepted_iff.mp haccepted
  rcases h with h | h | h
  · exact Bool.false_ne_true ((h bs hbs).symm.trans hsig)
  · exact Bool.false_ne_true (h.symm.trans hkey)
  · exact Nat.not_lt.mpr hver h

end

/-- A write to the Barn keeps the interrupt bits that stand. -/
theorem rint_barnWrite {n b : Nat} {d : Dev} (h : d.rint.getLsbD b = true) : (barnWrite n d).rint.getLsbD b = true := by
  unfold barnWrite
  dsimp only
  split_ifs
  · rw [BitVec.getLsbD_or, h, Bool.true_or]
  · exact h

theorem exec_keyRevocation {s : State} (hon : s.dev.off = false) (v : Revocation) : exec (.keyRevocation v) s =
    .next (applyAll (if revocationOk s.dev v then
      [.dev fun d => barnWrite s.free (dropBarn (fun e => e.signer == v.key) { d with revoked := d.revoked ++ [v.key] }), .tick]
    else []) s) := by
  refine (event_some hon).trans ?_
  cases revocationOk s.dev v <;> rfl

/-! ### The Winnower (22 R412) -/

/-- An update that leaves the count of the order's units done. -/
def Upd.KeepsUnits (u : Upd) : Prop := ∀ s : State, (u.app s).dev.units = s.dev.units

theorem units_applyAll_of_keepsUnits {us : List Upd} (hus : ∀ u ∈ us, u.KeepsUnits) (s : State) :
    (applyAll us s).dev.units = s.dev.units := by
  induction us generalizing s with
  | nil => rfl
  | cons u us ih =>
    obtain ⟨hu, hus⟩ := List.forall_mem_cons.mp hus
    exact (ih hus (u.app s)).trans (hu s)

theorem Run.steps_addAll {P : Upd → Prop} {us : List Upd} (h : ∀ u ∈ us, P u) (r : Run) : r.Steps P (r.addAll us) :=
  Run.steps_foldl (fun u hu r => Run.steps_add (h u hu) r) r

section
variable (r : Run)

theorem breakResv_keepsUnits (pa n : Nat) : r.Steps Upd.KeepsUnits (breakResv r pa n) :=
  Run.steps_foldl (fun _ _ r => Run.steps_add (fun _ => rfl) r) r

theorem zeroFrame_keepsUnits (f : Nat) : r.Steps Upd.KeepsUnits (zeroFrame r f) := by
  refine (breakResv_keepsUnits r _ _).trans (Run.steps_addAll (fun u hu => ?_) _)
  simp only [List.mem_cons, List.not_mem_nil, or_false] at hu
  rcases hu with rfl | rfl | rfl | rfl | rfl
  all_goals exact fun _ => rfl

theorem bothBanks_keepsUnits (c : Nat) (f : Core → Core) : r.Steps Upd.KeepsUnits (r.addAll (bothBanks c f)) := by
  refine Run.steps_addAll (fun u hu => ?_) r
  simp only [bothBanks, List.mem_cons, List.not_mem_nil, or_false] at hu
  rcases hu with rfl | rfl | rfl
  all_goals exact fun _ => rfl

theorem scrubUnit_keepsUnits (o : ScrubOrder) (u : Nat) : r.Steps Upd.KeepsUnits (scrubUnit r o u) := by
  unfold scrubUnit
  dsimp only
  split_ifs
  · exact bothBanks_keepsUnits r _ _
  · exact bothBanks_keepsUnits r _ _
  · exact zeroFrame_keepsUnits r _

end

/-- What the end of order o makes of the module, with these orders left. -/
def orderEnds (o : ScrubOrder) (rest : List ScrubOrder) : List Upd :=
  [.dev fun d => { d with orders := rest, units := 0, lastDone := o.id, replay := d.replay - 1,
                          journal := d.journal.map fun j => if j.order.id = o.id then closeEnt j.order true else j }]
  ++ match o.slot with
    | some k => [updKey k fun q => { q with st := 0, ord := 0, own := 0 }]
    | none => []

section
variable {s : State} (hon : s.dev.off = false) {o : ScrubOrder} {rest : List ScrubOrder} (horders : s.dev.orders = o :: rest)
include hon horders

theorem winnowerUnitDone_counts (hleft : s.dev.units < orderUnits o) :
    ∃ t, exec .winnowerUnitDone s = .next t ∧ t.dev.units = s.dev.units + 1 := by
  have hunit : Happens .winnowerUnitDone s
      ((scrubUnit (Run.start s) o s.dev.units).add (.dev fun d => { d with units := d.units + 1 })).out := by
    refine happens_of_event (i := .winnowerUnitDone) rfl hon ?_
    rw [horders]
    exact if_neg (Nat.not_le.mpr hleft)
  refine ⟨_, hunit, ?_⟩
  rw [applyAll_out_add]
  exact congrArg (· + 1) (units_applyAll_of_keepsUnits (scrubUnit_keepsUnits _ o _).forall_out s)

theorem winnowerOrderComplete_ends (hdone : orderUnits o ≤ s.dev.units) :
    ∃ t, exec .winnowerOrderComplete s = .next t ∧ t.dev.orders = rest ∧ t.dev.lastDone = o.id ∧ t.dev.units = 0 := by
  have hends : Happens .winnowerOrderComplete s (orderEnds o rest) := by
    refine happens_of_event (i := .winnowerOrderComplete) rfl hon ?_
    rw [horders]
    exact if_neg (Nat.not_lt.mpr hdone)
  refine ⟨_, hends, ?_⟩
  rw [orderEnds, applyAll_append]
  cases o.slot with
  | none => exact ⟨rfl, rfl, rfl⟩
  | some k => exact ⟨rfl, rfl, rfl⟩

end

/-! ### The obligation -/

/-- Settles O36: the privilege and the register's own check select how a write ends, and the module's state what an event does. -/
theorem firmwareAndFleetEvents : Obligations.FirmwareAndFleetEvents := by
  refine ⟨fun s n p v hsvc hawake hpriv => ?writes, fun s n p v hsvc hawake hlow => ?low, fun s hon => ?events⟩
  case writes =>
    have accepts := @firmwareEvent_accepts s n hsvc hawake hpriv
    have refuses := @firmwareEvent_refuses s n hsvc hawake hpriv
    exact ⟨fun us hus => accepts hus _ _, fun t ht => refuses ht _ _,
      fun us => readOnlyEvent_accepts hsvc hawake hpriv, fun t => readOnlyEvent_refuses hsvc hawake hpriv,
      fun us => readOnlyEvent_accepts hsvc hawake hpriv, fun t => readOnlyEvent_refuses hsvc hawake hpriv,
      fun us hus => accepts hus _ _, fun t ht => refuses ht _ _, accepts rfl _ _, accepts rfl _ _, accepts rfl _ _⟩
  case low =>
    exact ⟨fun x => firmwareRegister_low hsvc hawake hlow, readOnlyEvent_low hsvc hawake hlow, readOnlyEvent_low hsvc hawake hlow⟩
  case events =>
    refine ⟨fun i => islandPowerChangeDone_happens hon, ?throttle, thermalShutdown_happens hon, powerLoss_happens hon,
      fun k u hk => softError_happens hon hk u, fun len modulus sig ver hstage hver => ?stage, exec_keyRevocation hon,
      fun o rest horders => ⟨winnowerUnitDone_counts hon horders, winnowerOrderComplete_ends hon horders⟩⟩
    case throttle =>
      exact ⟨_, exec_throttleStep hon, rfl, rfl, rfl, throttled_of_due s s.dev, fun i => low_island_throttled s s.dev⟩
    case stage =>
      have hbit : ((stageDone s len modulus sig ver).rint ||| 0x10).getLsbD 4 = true := by
        rw [BitVec.getLsbD_or, show (0x10 : BitVec 6).getLsbD 4 = true from rfl, Bool.or_true]
      refine ⟨_, exec_fwStageDone hon hstage hver len modulus sig, rfl, active_stageDone, rint_barnWrite hbit,
        fun bs hbs hsig hkey hmin => stageDone_accepted (stageAccepted_iff.mpr ⟨⟨bs, hbs, hsig⟩, hkey, hmin⟩),
        fun hbad => stageDone_refused (stageAccepted_false hbad)⟩

end Sys2Proof.Machine
end

section
/-! PROOFS. Episodes and crofts: O55 fails, for the reservation of a croft core that stores to the double that it has reserved (21 R386,
R388; log entry 36). -/

namespace Sys2Proof.Machine

/-! ### A store to the reserved double

A write at home ends every reservation on the doubles that it meets (`breakResv`), the storing episode's own among them; O55 has a store
leave what `rvApply` makes of the registers that stood before it, with their reservation. -/

/-- An episode runs in slot 0; it holds a reservation on the first double of its region, whose address is in x2, and its next
instruction is SD x0, 0(x2). -/
def reserved : State where
  slots := [(0, { state := 2, region := [(4096, none)], ram := [(0, 0x23), (1, 0x30), (2, 0x01)], runs := true,
                  cpu := { x := [(2, 0x100000000)], resv := some 4096 } })]
  dev := { crofts := [(0, { user := true, pmp := episodePmp 4096 })] }

/-- The effect of that SD. -/
def reservedStore : RvEff := { pc := 4, store := some (.frame 4096 none, leBytes 8 0) }

theorem rvFetch_reserved : rvFetch (reserved.croft 0) (reserved.slot 0) = .ok (0x13023, 4, 0x13023) := by decide +kernel

theorem rvEffect_reserved : rvEffect reserved 0 (reserved.slot 0) 0x13023 4 = .ok reservedStore := by
  have hplace : rvAccess (reserved.croft 0) (reserved.slot 0) true
      ((reserved.slot 0).cpu.get (fld 0x13023 19 15) + BitVec.ofInt 64 (immS 0x13023)).toNat (2 ^ fld 0x13023 14 12)
        = .ok (.frame 4096 none) := by decide +kernel
  unfold rvEffect
  simp only [hplace]
  rfl

theorem rvNext_reserved : rvNext reserved 0 (reserved.slot 0) = .eff reservedStore := by
  unfold rvNext
  rw [rvFetch_reserved]
  simp only [rvEffect_reserved]
  rfl

/-- The machine leaves the slot no reservation. -/
theorem resv_reservedStore :
    ((applyAll (resumeUpds reserved 0 ++ effUpds 0 reservedStore reserved) reserved).slot 0).cpu.resv = none := by
  decide +kernel

/-- Refutes O55: after the store the slot holds no reservation, where the statement has it keep the one on the double just written. -/
theorem not_episodesAndCrofts : ¬ Obligations.EpisodesAndCrofts := by
  intro h
  obtain ⟨-, -, hslots⟩ := h reserved rfl
  obtain ⟨-, -, -, -, -, -, -, -, hmoves⟩ := hslots 0
  obtain ⟨-, -, hstore, -⟩ := hmoves (by decide +kernel) rfl (by decide +kernel)
  obtain ⟨u, -, rfl, hcpu⟩ := hstore reservedStore _ _ rvNext_reserved rfl
  exact absurd (resv_reservedStore.symm.trans (congrArg Rv.resv hcpu)) (by decide)

end Sys2Proof.Machine
end

section
/-! PROOFS. The machine right after reset: O58 (R414, R147, R165, R232, R345, R347; 06 Table 6.7; 07 Table 7.10). -/

namespace Sys2Proof.Machine

/-- Every scalar register of a strand that nothing has written reads zero. -/
theorem getX_default (r : Nat) : getX {} r = 0 := by
  unfold getX
  split_ifs <;> rfl

/-- Settles O58: memory and every table of units are empty at reset, and each read of one gives a default that holds the values. -/
theorem resetState_holds : Obligations.ResetState := by
  refine ⟨wf_reset, fun _ => rfl, rfl, rfl, rfl, rfl, rfl, fun n => ?strand, fun n => ?hart, fun n => ?core, fun n => ?part⟩
  case strand => exact ⟨rfl, rfl, rfl, rfl, rfl, rfl, rfl, getX_default⟩
  case hart => exact ⟨rfl, rfl, fun _ => rfl, rfl, rfl, rfl, rfl, fun _ => rfl⟩
  case core => exact ⟨rfl, rfl, rfl, rfl, rfl, rfl, rfl⟩
  case part => exact ⟨rfl, rfl⟩

end Sys2Proof.Machine
end
